-- ==== Sys2Proof/Word.lean ====
section
/-! DEFINITION. The machine's word types (R1, R2) and the sparse tables that hold numbered units. -/

namespace Sys2Proof

/-- A 64-bit value: a scalar register, a CSR, an address while it is computed (R61). -/
abbrev Word := BitVec 64

/-- One byte of memory (R2). -/
abbrev Byte := BitVec 8

/-- A vector register of VLB bits, held in the largest VLB of R79; bits from VLB up are zero. -/
abbrev VReg := BitVec 8192

/-- A mask register of 2 * VLB bits (R67), held in the largest size. -/
abbrev MReg := BitVec 16384

/-- A table of numbered units, in rising order of number, holding only the units that were written. -/
abbrev Tbl (α : Type) := List (Nat × α)

/-- The entry of unit `k`, or `d` where none was written. -/
def Tbl.getD {α : Type} (t : Tbl α) (k : Nat) (d : α) : α :=
  match t with
  | [] => d
  | (j, x) :: r => if j = k then x else Tbl.getD r k d

/-- The entry of unit `k`, if one was written. -/
def Tbl.find {α : Type} (t : Tbl α) (k : Nat) : Option α :=
  match t with
  | [] => none
  | (j, x) :: r => if j = k then some x else Tbl.find r k

/-- Write unit `k`. -/
def Tbl.set {α : Type} (t : Tbl α) (k : Nat) (x : α) : Tbl α :=
  match t with
  | [] => [(k, x)]
  | (j, y) :: r =>
    if j = k then (k, x) :: r
    else if k < j then (k, x) :: (j, y) :: r
    else (j, y) :: Tbl.set r k x

/-- Remove every entry of unit `k`. -/
def Tbl.erase {α : Type} (t : Tbl α) (k : Nat) : Tbl α :=
  match t with
  | [] => []
  | (j, y) :: r => if j = k then Tbl.erase r k else (j, y) :: Tbl.erase r k

end Sys2Proof
end

