-- ==== Sys2Proof/Config.lean ====
section
/-! DEFINITION. What one part fixes (fuses, flash, keys), what the manual leaves open (free values, without a
body, so that nothing can be proved about their value), and the constants the manual states. -/

namespace Sys2Proof.Config

/-- Ticks of 1 ns that pass during step number `n` (R13 gives the rate of the clock, nothing gives the length of a
step). Assumption 3. -/
opaque elapsed : Nat → Nat

/-- The device serial (R96, R360). Assumption 11. -/
opaque serial : BitVec 128

/-- The device identity private key (R78, R96), of which the part shows the public key (R360). Assumption 11. -/
opaque identitySecret : BitVec 256

/-- The per-signature secrets of ECDSA (R96), the `n`-th draw. Assumption 12. -/
opaque signNonce : Nat → BitVec 256

/-- The address a start in minimal mode names in REASON<63:32> (R359). Assumption 11. -/
opaque minimalLoadAddr : BitVec 32

/-- The part's power and temperature readings, the `n`-th draw (R360). Assumption 13. -/
opaque reading : Nat → BitVec 64

/-- The clock counts of a profile record, the `n`-th draw (R352). Assumption 13. -/
opaque profileClocks : Nat → BitVec 32

/-- Bytes of deep space of a die: 127 PCs of 2,048 bands of 480 rows of 1 KiB (R11, R210). -/
def deepBytes : Nat := 127 * 2048 * 480 * 1024

/-- Bytes of shallow space of a die (R11, R210). -/
def shallowBytes : Nat := 127 * 2048 * 16 * 1024

/-- Frames the frame map has entries for: frame addresses are 48 bits (R204, R206, R334). -/
def frames : Nat := 2 ^ 32

end Sys2Proof.Config
end

