-- ==== Sys2Proof/Records.lean ====
section
/-! DEFINITION. The records and descriptors that software hands to the device, as plain data:
context and queue descriptors, bind records, object files, register writes, boot images. -/

namespace Sys2Proof

/-- A context descriptor (R73), its fields at their widths. STATE is kept by the device. -/
structure ContextDesc where
  ctxid : BitVec 16 := 0
  state : BitVec 8 := 0
  flags : BitVec 8 := 0
  vlb : BitVec 16 := 0
  keySlot : BitVec 8 := 0
  ptRoot : Word := 0
  frqBase : Word := 0
  imageBase : Word := 0
  imageStride : Word := 0
  imageSize : Word := 0
  deriving DecidableEq, Repr

/-- A queue descriptor (R87). -/
structure QueueDesc where
  queueId : BitVec 16 := 0
  state : BitVec 8 := 0
  flags : BitVec 8 := 0
  prio : BitVec 8 := 0
  weight : BitVec 8 := 1
  homeDie : BitVec 8 := 0
  ctxid : BitVec 16 := 0
  postCtx : BitVec 16 := 0xFFFF
  qcb : Word := 0
  first : Word := 0
  deriving DecidableEq, Repr

/-- A bind record (R98). -/
structure BindRecord where
  batch : BitVec 16 := 0
  bflags : BitVec 8 := 0
  prio : BitVec 8 := 0
  weight : BitVec 8 := 1
  rchk : BitVec 8 := 0
  groupSz : BitVec 8 := 1
  strandIx : BitVec 8 := 0
  ctxid : BitVec 16 := 0
  queueId : BitVec 16 := 0
  groupIx : BitVec 32 := 0
  nGroups : BitVec 32 := 1
  launchId : BitVec 32 := 0
  header : Word := 0
  paramBase : Word := 0
  tlBase : Word := 0
  entryPc : Word := 0
  deriving DecidableEq, Repr

/-- A launch as the hardware names it: its queue and its LAUNCHID (assumption 8). -/
structure LaunchKey where
  queue : Nat
  lid : Nat
  deriving DecidableEq, Repr

/-- A group: its launch and its GROUPIX (R116). -/
structure GroupKey where
  launch : LaunchKey
  gix : Nat
  deriving DecidableEq, Repr

/-- An uncorrectable error an access meets (R313): its cause, 18 or 19, and the kind of access of R304. -/
structure ErrorMet where
  cause : Nat
  kind : Nat
  deriving DecidableEq, Repr

/-- The strand at whose slice three computations failed, and the row and column of each that was computed again (R297). -/
structure SliceFailure where
  src : Nat
  fails : List (Nat × Nat)
  deriving DecidableEq, Repr

/-- A line of a braid window that the scrubber comes to (R215), and the lines of its pass that it found uncorrectable (R320). -/
structure ScrubbedLine where
  line : Nat
  bad : List Nat
  deriving DecidableEq, Repr

/-- An object file (R101) as the loader is given it: its bytes, the load base it chose, the context it loads into, and the frames
firmware supplies for its 64 KiB pages, in page order, and for tables. -/
structure ObjFile where
  bytes : List Byte
  base : Nat
  ctxid : Nat
  frames : List Nat
  deriving DecidableEq, Repr

/-- A section entry (R102), with its name and its contents. -/
structure ObjSection where
  name : List Byte := []
  kind : Nat
  reserved : Nat := 0
  offset : Nat
  fileOff : Nat := 0
  size : Nat
  bytes : List Byte
  deriving DecidableEq, Repr

/-- A symbol entry (R103), with its name; `sect` 0xFFFF marks an external symbol. -/
structure ObjSymbol where
  name : List Byte
  sect : Nat
  skind : Nat
  bind : Nat
  value : Nat
  size : Nat := 0
  deriving DecidableEq, Repr

/-- A relocation record (R104). -/
structure ObjReloc where
  place : Nat
  sym : Nat
  kind : Nat
  reserved : Nat := 0
  addend : Int
  deriving DecidableEq, Repr

/-- An object as its file gives it (R101), with the base, context and frames of its load. -/
structure Obj where
  magic : Nat
  version : Nat
  prefBase : Nat
  imageSize : Nat
  /-- Every table lies within the file. -/
  whole : Bool
  base : Nat
  ctxid : Nat
  sections : List ObjSection
  symbols : List ObjSymbol
  relocs : List ObjReloc
  frames : List Nat
  deriving DecidableEq, Repr

/-- A boot image (R358): the firmware key it is checked with, x then y, and its bytes: header, body, signature. -/
structure BootImage where
  key : BitVec 512
  file : List Byte
  deriving DecidableEq, Repr

/-- A block that carries a world bit (R76). -/
inductive WorldBlock where
  | core (die core : Nat)
  | copyEngine (die core : Nat)
  | queue (q : Nat)
  | port (p : Nat)
  | traceUnit (die : Nat)
  deriving DecidableEq, Repr

/-- A write to a register that has no row of its own in the opcode table (row REGISTER_WRITE, R6). -/
inductive RegWrite where
  /-- A slot-table bind record (R98). -/
  | bindRecord (die cluster slot : Nat) (r : BindRecord)
  /-- A region entry (R77). -/
  | region (die ix : Nat) (w : Word)
  /-- A peer-window entry (R336). -/
  | peerWindow (die ix : Nat) (w : BitVec 128)
  /-- TRKCFG of a die, written by firmware (R217). -/
  | trkcfg (die : Nat) (w : Word)
  /-- NTQBASE of a die, written by firmware (R217). -/
  | ntqbase (die : Nat) (w : Word)
  /-- The trace policy register: bit 0 ALLOWSEC (R350). -/
  | tracePolicy (die : Nat) (w : Word)
  /-- The sideband enable of a trace unit (R348). -/
  | traceSideband (die : Nat) (on : Bool)
  /-- The fields of a context descriptor other than STATE (R73). -/
  | contextDesc (d : ContextDesc)
  /-- The fields of a queue descriptor that are advice (R87). -/
  | queuePrio (q : Nat) (prio weight : BitVec 8)
  /-- The NOTIFY word of a doorbell (R333). -/
  | notify (q : Nat) (addr : Word)
  /-- REPLNOTIFY of the device block (R360). -/
  | replNotify (addr : Word)
  /-- ESTART of a halted strand, written by firmware (R301). -/
  | estart (src : Nat) (w : Word)
  /-- A key slot, written by the secure world (R78). -/
  | keySlot (ix : Nat) (key : BitVec 256)
  /-- A braid window: size in bytes and the base of its region in each die's deep space (R214). -/
  | braidWindow (ix size : Nat) (bases : List Nat)
  /-- TLB invalidation of a context, whole or at one page (R208). -/
  | tlbInvalidate (ctx : Nat) (page : Option Nat)
  /-- The power cap in CLOCK<47:32> (R360, R363). -/
  | powerCap (watts : BitVec 16)
  /-- An offset of the control aperture that holds no register: the write is discarded (R332). -/
  | unlisted (offset : Nat) (w : Word)
  deriving DecidableEq, Repr

/-- What comparing the two runs of a rechecked member gave (R318). -/
inductive EddyVerdict where
  | agree
  /-- A third run decided: the lowest differing element, and each differing element group with the lane group that produced its
  losing run, the lowest first (R319). -/
  | majority (elem : Nat) (losers : List (Nat × Nat))
  /-- All three runs differ at element `elem`. -/
  | allDiffer (elem : Nat)
  deriving DecidableEq, Repr

/-- What the engine's checksums gave for one slice (R297). -/
inductive SliceVerdict where
  | ok
  /-- One or two computations failed, at a row and a column each; a recomputation agreed. -/
  | corrected (fails : List (Nat × Nat))
  deriving DecidableEq, Repr

end Sys2Proof
end

