-- ==== Sys2Proof/Syntax.lean ====
section
/-! DEFINITION. The instruction type: one constructor per row of spec/opcode_table.json. The rows with
a word encoding carry the fields of that encoding; the rows without one are steps of an engine, of firmware, of
the host or of the physical world, and carry what that step is about. -/

namespace Sys2Proof

/-- SYS words with a 12-bit code or marker value (R54). -/
structure Code12 where
  code : BitVec 12
  deriving DecidableEq, Repr

/-- fence: kinds and scope (R254). -/
structure FenceOp where
  kinds : BitVec 3
  scope : BitVec 3
  deriving DecidableEq, Repr

/-- directional fence: scope (R255). -/
structure ScopeOp where
  scope : BitVec 3
  deriving DecidableEq, Repr

/-- S3 format: sd, sa, sb (R48). -/
structure SReg3 where
  sd : BitVec 5
  sa : BitVec 5
  sb : BitVec 5
  deriving DecidableEq, Repr

/-- S3 format with sb zero. -/
structure SReg2 where
  sd : BitVec 5
  sa : BitVec 5
  deriving DecidableEq, Repr

/-- SI and SM formats: sd, sa, imm12. -/
structure SImm where
  sd : BitVec 5
  sa : BitVec 5
  imm : BitVec 12
  deriving DecidableEq, Repr

/-- shift by an immediate amount. -/
structure SShift where
  sd : BitVec 5
  sa : BitVec 5
  amount : BitVec 6
  deriving DecidableEq, Repr

/-- SU format. -/
structure SUpper where
  sd : BitVec 5
  imm20 : BitVec 20
  deriving DecidableEq, Repr

/-- SM format of a store. -/
structure SStore where
  ss : BitVec 5
  sa : BitVec 5
  imm : BitVec 12
  deriving DecidableEq, Repr

/-- AMO: fn split into scope, order and width (R54). -/
structure AmoOp where
  sd : BitVec 5
  sa : BitVec 5
  sb : BitVec 5
  scope : BitVec 3
  order : BitVec 2
  wide : BitVec 1
  deriving DecidableEq, Repr

/-- SB format. -/
structure BranchOp where
  sa : BitVec 5
  sb : BitVec 5
  off : BitVec 12
  deriving DecidableEq, Repr

/-- SB format of a mask or grant branch. -/
structure MBranchOp where
  reg : BitVec 3
  off : BitVec 12
  deriving DecidableEq, Repr

/-- SJ format. -/
structure JalOp where
  sd : BitVec 5
  off20 : BitVec 20
  deriving DecidableEq, Repr

/-- CSR access with a source. -/
structure CsrOp where
  sd : BitVec 5
  sa : BitVec 5
  csr : BitVec 12
  deriving DecidableEq, Repr

/-- csrr. -/
structure CsrROp where
  sd : BitVec 5
  csr : BitVec 12
  deriving DecidableEq, Repr

/-- gget. -/
structure GGetOp where
  sd : BitVec 5
  grant : BitVec 3
  field : BitVec 5
  deriving DecidableEq, Repr

/-- gset. -/
structure GSetOp where
  grant : BitVec 3
  sa : BitVec 5
  field : BitVec 5
  deriving DecidableEq, Repr

/-- gclr. -/
structure GClrOp where
  grant : BitVec 3
  deriving DecidableEq, Repr

/-- VC format of setvl; etype, group and policy are vtype<9:4>, <3:2>, <1:0> (R52). -/
structure SetvlOp where
  sd : BitVec 5
  sa : BitVec 5
  etype : BitVec 6
  group : BitVec 2
  policy : BitVec 2
  deriving DecidableEq, Repr

/-- VC format of rpt; fm1 is F - 1 (R52). -/
structure RptOp where
  sa : BitVec 5
  sb : BitVec 5
  stagger : BitVec 5
  fm1 : BitVec 4
  deriving DecidableEq, Repr

/-- V3 format (R49). -/
structure V3 where
  c : BitVec 1
  vd : BitVec 6
  va : BitVec 6
  vb : BitVec 6
  mask : BitVec 2
  kb : BitVec 1
  ea : BitVec 1
  eb : BitVec 1
  deriving DecidableEq, Repr

/-- V3 format of a unary instruction. -/
structure V3U where
  c : BitVec 1
  vd : BitVec 6
  va : BitVec 6
  mask : BitVec 2
  ea : BitVec 1
  deriving DecidableEq, Repr

/-- V3 format of a compare: md is the destination mask. -/
structure V3Cmp where
  c : BitVec 1
  md : BitVec 3
  va : BitVec 6
  vb : BitVec 6
  mask : BitVec 2
  kb : BitVec 1
  ea : BitVec 1
  eb : BitVec 1
  deriving DecidableEq, Repr

/-- mask instruction with two sources. -/
structure M3 where
  c : BitVec 1
  md : BitVec 3
  ma : BitVec 3
  mb : BitVec 3
  mask : BitVec 2
  deriving DecidableEq, Repr

/-- mnot. -/
structure M2 where
  c : BitVec 1
  md : BitVec 3
  ma : BitVec 3
  mask : BitVec 2
  deriving DecidableEq, Repr

/-- mpop and mfirst. -/
structure MCount where
  c : BitVec 1
  sd : BitVec 5
  ma : BitVec 3
  mask : BitVec 2
  deriving DecidableEq, Repr

/-- mset and mclr. -/
structure M1 where
  c : BitVec 1
  md : BitVec 3
  mask : BitVec 2
  deriving DecidableEq, Repr

/-- vbcast. -/
structure VBcastOp where
  c : BitVec 1
  vd : BitVec 6
  vb : BitVec 6
  mask : BitVec 2
  kb : BitVec 1
  eb : BitVec 1
  deriving DecidableEq, Repr

/-- vmvs. -/
structure VMvsOp where
  c : BitVec 1
  sd : BitVec 5
  va : BitVec 6
  ea : BitVec 1
  deriving DecidableEq, Repr

/-- vmsv. -/
structure VMsvOp where
  c : BitVec 1
  vd : BitVec 6
  sb : BitVec 5
  mask : BitVec 2
  deriving DecidableEq, Repr

/-- vslideup and vslidedn. -/
structure VSlideOp where
  c : BitVec 1
  vd : BitVec 6
  va : BitVec 6
  sb : BitVec 5
  mask : BitVec 2
  ea : BitVec 1
  deriving DecidableEq, Repr

/-- V3 format without a .vs form. -/
structure V3NoKb where
  c : BitVec 1
  vd : BitVec 6
  va : BitVec 6
  vb : BitVec 6
  mask : BitVec 2
  ea : BitVec 1
  eb : BitVec 1
  deriving DecidableEq, Repr

/-- vid. -/
structure VIdOp where
  c : BitVec 1
  vd : BitVec 6
  mask : BitVec 2
  deriving DecidableEq, Repr

/-- vcompress and vexpand: mb is the selector mask. -/
structure VSelMOp where
  c : BitVec 1
  vd : BitVec 6
  va : BitVec 6
  mb : BitVec 3
  ea : BitVec 1
  deriving DecidableEq, Repr

/-- vready. -/
structure VReadyOp where
  c : BitVec 1
  sd : BitVec 5
  va : BitVec 6
  deriving DecidableEq, Repr

/-- vcvt: etype is the destination type code. -/
structure VCvtOp where
  c : BitVec 1
  vd : BitVec 6
  va : BitVec 6
  etype : BitVec 6
  mask : BitVec 2
  ea : BitVec 1
  deriving DecidableEq, Repr

/-- V3 format without a mask: vqblk (vb is the scale destination) and the matrix instructions (vb is the slot). -/
structure V3NoMask where
  c : BitVec 1
  vd : BitVec 6
  va : BitVec 6
  vb : BitVec 6
  ea : BitVec 1
  deriving DecidableEq, Repr

/-- vldg and vstg (R180). -/
structure VGranOp where
  c : BitVec 1
  vd : BitVec 6
  sa : BitVec 5
  sb : BitVec 5
  g : BitVec 3
  deriving DecidableEq, Repr

/-- rill conversion with a type field. -/
structure RTypeOp where
  c : BitVec 1
  vd : BitVec 6
  va : BitVec 6
  etype : BitVec 6
  g : BitVec 3
  ea : BitVec 1
  deriving DecidableEq, Repr

/-- VR format with two sources. -/
structure RArithOp where
  c : BitVec 1
  vd : BitVec 6
  va : BitVec 6
  vb : BitVec 6
  g : BitVec 3
  ea : BitVec 1
  eb : BitVec 1
  deriving DecidableEq, Repr

/-- VR format with one source. -/
structure RUnOp where
  c : BitVec 1
  vd : BitVec 6
  va : BitVec 6
  g : BitVec 3
  ea : BitVec 1
  deriving DecidableEq, Repr

/-- rfilt. -/
structure RFiltOp where
  c : BitVec 1
  vd : BitVec 6
  va : BitVec 6
  mb : BitVec 3
  g : BitVec 3
  ea : BitVec 1
  deriving DecidableEq, Repr

/-- VM format, contiguous. -/
structure VMUnit where
  c : BitVec 1
  vd : BitVec 6
  sa : BitVec 5
  mask : BitVec 2
  ex : BitVec 1
  hint : BitVec 2
  deriving DecidableEq, Repr

/-- VM format, strided. -/
structure VMStride where
  c : BitVec 1
  vd : BitVec 6
  sa : BitVec 5
  sx : BitVec 5
  mask : BitVec 2
  ex : BitVec 1
  hint : BitVec 2
  deriving DecidableEq, Repr

/-- VM format, indexed. -/
structure VMIndex where
  c : BitVec 1
  vd : BitVec 6
  sa : BitVec 5
  vx : BitVec 6
  mask : BitVec 2
  ex : BitVec 1
  hint : BitVec 2
  q : BitVec 1
  deriving DecidableEq, Repr

/-- vlda; q = 1 is strided. -/
structure VMAsync where
  c : BitVec 1
  vd : BitVec 6
  sa : BitVec 5
  sx : BitVec 5
  mask : BitVec 2
  ex : BitVec 1
  hint : BitVec 2
  q : BitVec 1
  deriving DecidableEq, Repr

/-- vstm. -/
structure VMMulti where
  c : BitVec 1
  vd : BitVec 6
  sa : BitVec 5
  mask : BitVec 2
  ex : BitVec 1
  deriving DecidableEq, Repr

/-- vector atomic (R236). -/
structure VAmoOp where
  c : BitVec 1
  vd : BitVec 6
  sa : BitVec 5
  vx : BitVec 6
  mask : BitVec 2
  ex : BitVec 1
  order : BitVec 2
  q : BitVec 1
  deriving DecidableEq, Repr

/-- vstrc. -/
structure VStrcOp where
  c : BitVec 1
  vd : BitVec 6
  sa : BitVec 5
  sx : BitVec 5
  mask : BitVec 2
  ex : BitVec 1
  deriving DecidableEq, Repr

/-- vwait. -/
structure VWaitOp where
  c : BitVec 1
  sa : BitVec 5
  sx : BitVec 5
  scope : BitVec 2
  deriving DecidableEq, Repr

/-- mjld and mjst. -/
structure BraidOp where
  c : BitVec 1
  vd : BitVec 6
  sa : BitVec 5
  ex : BitVec 1
  deriving DecidableEq, Repr

/-- mjrep and l1cfg. -/
structure SAddrOp where
  c : BitVec 1
  sa : BitVec 5
  deriving DecidableEq, Repr

/-- cflush and cinv. -/
structure CacheOp where
  c : BitVec 1
  sa : BitVec 5
  sx : BitVec 5
  level : BitVec 2
  deriving DecidableEq, Repr

/-- cpy; q = 1 decrypts. -/
structure CpyOp where
  c : BitVec 1
  sd : BitVec 5
  sa : BitVec 5
  sx : BitVec 5
  hint : BitVec 2
  q : BitVec 1
  deriving DecidableEq, Repr

/-- cpyv. -/
structure CpyvOp where
  c : BitVec 1
  vd : BitVec 6
  sa : BitVec 5
  hint : BitVec 2
  deriving DecidableEq, Repr

/-- cpyw. -/
structure CpywOp where
  c : BitVec 1
  slot : BitVec 6
  sa : BitVec 5
  sx : BitVec 5
  deriving DecidableEq, Repr

/-- The steps of the machine, one constructor per row of the opcode table. -/
inductive Instr where
  /-- A word that is not an instruction was fetched as member `slot` of its convoy (R55, R56). -/
  | illegalInstruction (slot : Nat) (w : BitVec 32)
  | trap (x : Code12)
  | eret
  | endStrand
  | yield
  | brk (x : Code12)
  | mark (x : Code12)
  | halt
  | fence (x : FenceOp)
  | fsv (x : ScopeOp)
  | fvs (x : ScopeOp)
  | fmx (x : ScopeOp)
  | fcp (x : ScopeOp)
  | add (x : SReg3)
  | sub (x : SReg3)
  | mul (x : SReg3)
  | mulh (x : SReg3)
  | mulhn (x : SReg3)
  | div (x : SReg3)
  | divn (x : SReg3)
  | rem (x : SReg3)
  | remn (x : SReg3)
  | and_ (x : SReg3)
  | or_ (x : SReg3)
  | xor_ (x : SReg3)
  | sll (x : SReg3)
  | srl (x : SReg3)
  | sra (x : SReg3)
  | slt (x : SReg3)
  | sltn (x : SReg3)
  | min_ (x : SReg3)
  | max_ (x : SReg3)
  | minn (x : SReg3)
  | maxn (x : SReg3)
  | clz (x : SReg2)
  | ctz (x : SReg2)
  | pop (x : SReg2)
  | addi (x : SImm)
  | andi (x : SImm)
  | ori (x : SImm)
  | xori (x : SImm)
  | slti (x : SImm)
  | sltni (x : SImm)
  | slli (x : SShift)
  | srli (x : SShift)
  | srai (x : SShift)
  | sui (x : SUpper)
  | pcui (x : SUpper)
  | ldi8 (x : SImm)
  | ldi16 (x : SImm)
  | ldi32 (x : SImm)
  | ldi64 (x : SImm)
  | ldn8 (x : SImm)
  | ldn16 (x : SImm)
  | ldn32 (x : SImm)
  | st8 (x : SStore)
  | st16 (x : SStore)
  | st32 (x : SStore)
  | st64 (x : SStore)
  | amoadd (x : AmoOp)
  | amoswap (x : AmoOp)
  | amocas (x : AmoOp)
  | amomin (x : AmoOp)
  | amomax (x : AmoOp)
  | amominn (x : AmoOp)
  | amomaxn (x : AmoOp)
  | amoand (x : AmoOp)
  | amoor (x : AmoOp)
  | amoxor (x : AmoOp)
  | beq (x : BranchOp)
  | bne (x : BranchOp)
  | blt (x : BranchOp)
  | bge (x : BranchOp)
  | bltn (x : BranchOp)
  | bgen (x : BranchOp)
  | bany (x : MBranchOp)
  | ball (x : MBranchOp)
  | bnone (x : MBranchOp)
  | bgz (x : MBranchOp)
  | bgnz (x : MBranchOp)
  | jal (x : JalOp)
  | jalr (x : SImm)
  | csrrw (x : CsrOp)
  | csrrs (x : CsrOp)
  | csrrc (x : CsrOp)
  | csrr (x : CsrROp)
  | gget (x : GGetOp)
  | gset (x : GSetOp)
  | gclr (x : GClrOp)
  | qpost (x : SReg3)
  | qhash (x : SReg3)
  | bar (x : SReg2)
  | bararr (x : SReg2)
  | barwt (x : SReg3)
  | tlwait (x : SReg3)
  | tlget (x : SReg2)
  | pgmig (x : SReg3)
  | pgcnt (x : SReg2)
  | pgstat (x : SReg2)
  | dpromo (x : SReg3)
  | ddemo (x : SReg2)
  | setvl (x : SetvlOp)
  | rpt (x : RptOp)
  | vadd (x : V3)
  | vsub (x : V3)
  | vmul (x : V3)
  | vmulh (x : V3)
  | vmulhn (x : V3)
  | vdiv (x : V3)
  | vdivn (x : V3)
  | vrem (x : V3)
  | vremn (x : V3)
  | vmin (x : V3)
  | vmax (x : V3)
  | vminn (x : V3)
  | vmaxn (x : V3)
  | vabs (x : V3U)
  | vneg (x : V3U)
  | vabsd (x : V3)
  | vand (x : V3)
  | vor (x : V3)
  | vxor (x : V3)
  | vnot (x : V3U)
  | vsll (x : V3)
  | vsrl (x : V3)
  | vsra (x : V3)
  | vrot (x : V3)
  | vsadd (x : V3)
  | vssub (x : V3)
  | vsaddn (x : V3)
  | vssubn (x : V3)
  | vwmac (x : V3)
  | vwmacn (x : V3)
  | vwmul (x : V3)
  | vwadd (x : V3)
  | vfadd (x : V3)
  | vfsub (x : V3)
  | vfmul (x : V3)
  | vfdiv (x : V3)
  | vfma (x : V3)
  | vfms (x : V3)
  | vfmin (x : V3)
  | vfmax (x : V3)
  | vfsqrt (x : V3U)
  | vfabs (x : V3U)
  | vfneg (x : V3U)
  | vfclass (x : V3U)
  | vcmpeq (x : V3Cmp)
  | vcmpne (x : V3Cmp)
  | vcmplt (x : V3Cmp)
  | vcmple (x : V3Cmp)
  | vcmpltn (x : V3Cmp)
  | vcmplen (x : V3Cmp)
  | vfcmpeq (x : V3Cmp)
  | vfcmplt (x : V3Cmp)
  | vfcmple (x : V3Cmp)
  | vfcmpun (x : V3Cmp)
  | mand (x : M3)
  | mor (x : M3)
  | mxor (x : M3)
  | mnot (x : M2)
  | mpop (x : MCount)
  | mfirst (x : MCount)
  | mset (x : M1)
  | mclr (x : M1)
  | vsel (x : V3)
  | vbcast (x : VBcastOp)
  | vmvs (x : VMvsOp)
  | vmsv (x : VMsvOp)
  | vslideup (x : VSlideOp)
  | vslidedn (x : VSlideOp)
  | vperm (x : V3NoKb)
  | vid (x : VIdOp)
  | vcompress (x : VSelMOp)
  | vexpand (x : VSelMOp)
  | vready (x : VReadyOp)
  | vredsum (x : V3)
  | vredmin (x : V3)
  | vredmax (x : V3)
  | vfredsum (x : V3)
  | vredand (x : V3)
  | vredor (x : V3)
  | vredxor (x : V3)
  | vfredmax (x : V3)
  | vscan (x : V3)
  | vfscan (x : V3)
  | vscanmax (x : V3)
  | vcvt (x : VCvtOp)
  | vqblk (x : V3NoMask)
  | vdqblk (x : V3NoKb)
  | vldg (x : VGranOp)
  | vstg (x : VGranOp)
  | rdec (x : RTypeOp)
  | renc (x : RTypeOp)
  | radd (x : RArithOp)
  | rsub (x : RArithOp)
  | rmin (x : RArithOp)
  | rmax (x : RArithOp)
  | fdec (x : RTypeOp)
  | fenc (x : RTypeOp)
  | rdsum (x : RUnOp)
  | rlen (x : RUnOp)
  | rpos (x : RUnOp)
  | rfilt (x : RFiltOp)
  | vld (x : VMUnit)
  | vlds (x : VMStride)
  | vldx (x : VMIndex)
  | vlda (x : VMAsync)
  | vst (x : VMUnit)
  | vsts (x : VMStride)
  | vstx (x : VMIndex)
  | vstm (x : VMMulti)
  | vamoadd (x : VAmoOp)
  | vamoswap (x : VAmoOp)
  | vamocas (x : VAmoOp)
  | vamomin (x : VAmoOp)
  | vamomax (x : VAmoOp)
  | vstrc (x : VStrcOp)
  | vwait (x : VWaitOp)
  | mjld (x : BraidOp)
  | mjst (x : BraidOp)
  | mjrep (x : SAddrOp)
  | cflush (x : CacheOp)
  | cinv (x : CacheOp)
  | l1cfg (x : SAddrOp)
  | cpy (x : CpyOp)
  | cpyv (x : CpyvOp)
  | cpyw (x : CpywOp)
  | mma (x : V3NoMask)
  | mmaz (x : V3NoMask)
  | mxsum (x : V3NoMask)
  /-- The oldest convoy of strand `src` retires (R59). -/
  | convoyRetire (src : Nat)
  /-- Outstanding landing number `ix` of strand `src` lands (R66). -/
  | elementGroupLand (src ix : Nat)
  /-- The condition strand `src` waits for clears (R118). -/
  | conditionClears (src : Nat)
  /-- A second run of the oldest undecided member of `src` is compared with the first (R318). -/
  | eddyRecheck (src : Nat) (v : EddyVerdict)
  /-- 64 clocks passed with no second run for the oldest undecided member of `src` (R317). -/
  | eddyCheckLimit (src : Nat)
  /-- A lane group whose disagreement count reached 4 is retired (R319). -/
  | laneGroupRetire (die core lane : Nat)
  /-- 2^32 GTC ticks passed: the die clears its disagreement counts (R319). -/
  | disagreementCountClear (die : Nat)
  /-- The oldest uncommitted strip of `src` commits (R311). -/
  | stripCommit (src : Nat)
  /-- The strip store buffer of `src` overflows (R311). -/
  | bufferOverflow (src : Nat)
  /-- Strand `src` consumes an error of cause 18 or 19 in an access of a kind of R304 (R313, R315). -/
  | uncorrectableError (src : Nat) (error : ErrorMet) (elem : Nat) (addr : Word)
  /-- Queue space appeared for the oldest waiting halting record of context `ctx` (R305). -/
  | haltingRecordPost (ctx : Nat)
  /-- The copy engine starts the next copy of strand `src` (R248). -/
  | copyEngineStart (src : Nat)
  /-- The copy engine issues the follow-on matrix member of `src` (R59, R252). -/
  | followOnIssue (src : Nat)
  /-- The engine writes counter `k` of strand `src` (R246). -/
  | timelineCounterWrite (src k : Nat)
  /-- The matrix engine performs one k-slice for strand `src` (R293, R297). -/
  | matrixSlice (src : Nat) (v : SliceVerdict)
  /-- Three computations of a slice failed (R297). -/
  | matrixEngineFailed (at_ : SliceFailure)
  /-- Firmware creates a context (R73, R74). -/
  | contextCreate (d : ContextDesc)
  /-- Firmware writes a commit word of a cluster (R99). -/
  | batchCommit (die cluster : Nat) (w : Word)
  /-- Firmware destroys a context (R74, R75). -/
  | contextDestroy (ctx : Nat)
  /-- Firmware clears the fault of a context (R74). -/
  | contextFaultClear (ctx : Nat)
  /-- Firmware declares a context failed (R74). -/
  | contextDeclaredFailed (ctx : Nat)
  /-- Firmware requests the pre-emption of a group (R123). -/
  | groupPreempt (k : GroupKey)
  /-- Every image of a group being saved is written (R119). -/
  | groupSaved (k : GroupKey)
  /-- Firmware resumes a halted group in place (R307). -/
  | groupResume (k : GroupKey)
  /-- Firmware gives a strand of a halted group a new PC (R152, R302). -/
  | resumeAtNewPc (src : Nat) (pc : Word)
  /-- Firmware writes a queue descriptor (R88, R93). -/
  | queueCreate (d : QueueDesc)
  /-- Firmware starts a queue (R93). -/
  | queueStart (q : Nat)
  /-- Firmware stops a queue (R93). -/
  | queueStop (q : Nat)
  /-- Firmware skips the entry that stopped a queue (R94). -/
  | queueSkip (q : Nat) (next : Word)
  /-- Firmware retries the entry that stopped a queue (R93). -/
  | queueRetry (q : Nat)
  /-- Firmware destroys a queue (R93). -/
  | queueDestroy (q : Nat)
  /-- The front-end notices a plain store to TAIL (R89). -/
  | tailStoreNoticed (q : Nat)
  /-- The front-end fetches the next entry of a queue (R89, R92). -/
  | entryFetch (q : Nat)
  /-- The front-end runs a NOP command (R91). -/
  | nopCmd (q : Nat)
  /-- The front-end starts a LAUNCH command (R109). -/
  | launchCmd (q : Nat)
  /-- The front-end runs a COPY command (R91, R92). -/
  | copyCmd (q : Nat)
  /-- The front-end starts a WAITC command (R91). -/
  | waitcCmd (q : Nat)
  /-- The front-end runs a SIGNAL command (R91). -/
  | signalCmd (q : Nat)
  /-- The front-end runs a HASH command (R96). -/
  | hashCmd (q : Nat)
  /-- The front-end runs a FENCE command (R91). -/
  | fenceCommand (q : Nat)
  /-- The front-end reads the counter of a waiting WAITC again (R91). -/
  | waitcRecheck (q : Nat)
  /-- The timeout of a waiting WAITC elapsed (R92). -/
  | waitcTimeout (q : Nat)
  /-- The front-end completes a launch whose strands have all ended (R115). -/
  | launchComplete (k : LaunchKey)
  /-- The oldest performed COPY command of a queue completes (R92). -/
  | copyCommandComplete (q : Nat)
  /-- DONE of a queue advances by one (R91, R95). -/
  | doneAdvance (q : Nat)
  /-- A NOTIFY message of a queue leaves (R337). -/
  | notifyMessage (q : Nat)
  /-- The host writes TAIL in a doorbell (R333). -/
  | doorbellTailWrite (q : Nat) (v : Word)
  /-- The loader checks and maps an object (R106, R107). -/
  | objectLoad (o : ObjFile)
  /-- The loader unmaps the object it loaded at `base` (R113). -/
  | objectUnload (ctx base : Nat)
  /-- Firmware writes a barrier-table entry (R130). -/
  | barrierEntryWrite (die cluster entry : Nat) (w0 w1 : Word)
  /-- The copy of a migrating frame is done (R216 steps 2 to 4). -/
  | migrationComplete (frame : Nat)
  /-- A tracker counter reached THRESH at an access of source `src` (R218). -/
  | trackerThreshold (die frame src : Nat)
  /-- A tracker period ends (R218). -/
  | trackerPeriodEnd (die : Nat)
  /-- Firmware rewrites a frame-map entry (R206, R220). -/
  | fmeWrite (frame : Nat) (w0 w1 : Word)
  /-- Firmware writes FMINV (R208). -/
  | fminvWrite (fa : Word)
  /-- The in-bank copy of a promotion or demotion finishes (R212, R221). -/
  | promoteCopyComplete (die block : Nat)
  /-- The scrubber rewrites a braid line (R215, R320). -/
  | scrubPass (window : Nat) (at_ : ScrubbedLine)
  /-- A pseudo-channel fails (R211). -/
  | pcFailure (die pc : Nat)
  /-- The copy into the spare completes; `bad` lists the lines it could not correct (R211). -/
  | spareCopyComplete (die : Nat) (bad : List Nat)
  /-- A stack is lost (R361). -/
  | stackLost (stack : Nat)
  /-- The outstanding answer number `ix` of a braid replica arrives (R242). -/
  | replicaAnswer (ix : Nat)
  /-- The outstanding braid write number `ix` reaches its replica (R340). -/
  | replicaWrite (ix : Nat)
  /-- The home on `die` applies remote write number `ix` (R268). -/
  | homeWriteApply (die ix : Nat)
  /-- Boot firmware enables a port (R329). -/
  | portEnable (p : Nat)
  /-- Training of a port completes with `lanes` working lanes (R329). -/
  | trainingComplete (p lanes : Nat)
  /-- A training attempt of a port fails (R329). -/
  | trainingFailed (p : Nat)
  /-- A running port is left with `lanes` working lanes (R329). -/
  | lanesLost (p lanes : Nat)
  /-- Firmware fences a port (R329). -/
  | portFence (p : Nat)
  /-- A port replayed 4,096 flits within 1 s (R329). -/
  | replayLimit (p : Nat)
  /-- Firmware retrains a port (R329). -/
  | portRetrain (p : Nat)
  /-- A port loses its partner (R329). -/
  | partnerLost (p : Nat)
  /-- A flit of a port fails its CRC (R330). -/
  | flitCrcFailure (p : Nat)
  /-- Ones are written to LINKSTAT of a port (R328). -/
  | linkstatClear (p : Nat) (w : Word)
  /-- The host or a peer reads `n` bytes through the memory aperture by port `p` (R334). -/
  | hostMemoryRead (p : Nat) (fa : Word) (n : Nat)
  /-- The host or a peer writes through the memory aperture by port `p` (R334). -/
  | hostMemoryWrite (p : Nat) (fa : Word) (data : List Byte)
  /-- The oldest outstanding completion or acknowledgement of port `p` returns (R335). -/
  | linkCompletion (p : Nat)
  /-- Firmware writes the world bit of a block (R76). -/
  | worldBitWrite (b : WorldBlock) (secure : Bool)
  /-- Space returned to a trace unit that dropped records (R348). -/
  | traceLossRecord (die : Nat)
  /-- A start runs stage 0 (R357, R359). -/
  | bootStart (img : BootImage)
  /-- Stage 1 runs; `trained` names the stacks that train (R357). -/
  | stage1 (fabricOk : Bool) (trained : BitVec 16)
  /-- Stage 2 runs (R357). -/
  | stage2 (img : BootImage)
  /-- The 30 s watchdog of a start expires (R357). -/
  | bootWatchdog
  /-- A power trip (R357). -/
  | powerFault
  /-- A thermal trip (R363). -/
  | thermalTrip
  /-- Firmware sets CONTROL.BOOTOK (R357). -/
  | bootok
  /-- The host writes CONTROL.CLRCNT (R359). -/
  | clrcnt
  /-- The host writes CONTROL.RESTART (R359). -/
  | restart
  /-- Die 0 compares the GTC copy of `die` with its own (R362). -/
  | gtcCorrection (die : Nat)
  /-- Firmware steps the arithmetic clock by 100 MHz (R363). -/
  | powerCapStep (up : Bool)
  /-- A write to a register without a row of its own (R6). -/
  | registerWrite (r : RegWrite)
  /-- The vector sequencer of a core issues a ready convoy (R100). -/
  | convoyIssue (die core : Nat)
  /-- Standby power is lost (R359). -/
  | standbyPowerLoss
  deriving DecidableEq, Repr

end Sys2Proof
end

