-- ==== Sys2Proof/Machine/State.lean ====
section
/-! DEFINITION. The state of the package: everything the manual gives the machine, as plain data. Numbered units
are sparse tables: a unit that was never written is at its reset value. Keys: a strand position is its source
number (R12); a core is die * 16 + core; a cluster die * 4 + cluster; ports 0 to 15 are the peer ports and 16 is the
host link (R9, R332). -/

namespace Sys2Proof.Machine

/-! ## Records -/

/-- A fault record (R304). -/
structure FRec where
  gtc : Word := 0
  source : Nat := 0
  cause : Nat := 0
  ctx : Nat := 0
  kind : Nat := 0
  halted : Bool := false
  more : Bool := false
  va : Word := 0
  elem : BitVec 32 := 0xFFFFFFFF
  slot : Nat := 0
  pc : Word := 0
  launch : Nat := 0
  gix : Nat := 0
  ix : Nat := 0
  detail : Word := 0
  deriving DecidableEq, Repr

/-- Where a stopped member resumes (R300, R301). -/
structure StopAt where
  estart : Word := 0
  donemask : Word := 0
  resval : Word := 0
  forceBlock : Bool := false
  watchExempt : List Nat := []
  /-- The member is over: the convoy goes on at its next one (R187, R190). -/
  ended : Bool := false
  deriving DecidableEq, Repr

/-- A stop of a member that has been found and not taken: it waits for older convoys to retire and for the eddy (R191,
R316). -/
structure PendStop where
  at_ : StopAt
  recs : List FRec
  deriving DecidableEq, Repr

/-! ## Values that travel with a convoy -/

/-- The modes an instruction samples when it enters its sluice (R83, R157, R85). -/
structure Sampled where
  vl : Nat := 0
  vtype : BitVec 10 := 0
  rchk : BitVec 2 := 0
  fctl : Word := 0
  qcfg : Word := 0
  qbase : Word := 0
  rfdesc : Word := 0
  rngseed : Word := 0
  mxcfg : Word := 0
  mxzpa : Word := 0
  deriving DecidableEq, Repr

/-- The registers the vector side holds: vector registers, fill tags and full/empty bits, masks, grants, flags and
event indices (R62, R65 to R68, R25, R28). -/
structure VecState where
  v : Tbl VReg := []
  fill : Tbl Nat := []
  full : Tbl (BitVec 16) := []
  m : Tbl MReg := []
  g : Tbl Word := []
  fstat : BitVec 7 := 0
  evix : Tbl Word := []
  deriving DecidableEq, Repr

/-- What a strand's vector side held before a member of a convoy (R85, R308). -/
structure Snap where
  /-- The member. -/
  at_ : Nat := 0
  vec : VecState
  estart : Word := 0
  donemask : Word := 0
  resumed : Bool := false
  forceBlock : Bool := false
  watchExempt : List Nat := []
  resval : Word := 0
  /-- The scalar result of an earlier member. -/
  pend : Option (Nat × Word) := none
  /-- Producers outstanding then and not superseded: convoy and register (R66). -/
  live : List (Nat × Nat) := []
  deriving DecidableEq, Repr

/-- A TLB entry (R204, R208): its first 64 KiB page, the frame address of that, and how many pages it covers. -/
structure TlbEntry where
  ctx : Nat
  vpage : Nat
  fa : Nat
  r : Bool
  w : Bool
  x : Bool
  pages : Nat := 1
  deriving DecidableEq, Repr

/-- A frame-map entry (R206). -/
structure Fme where
  w0 : Word := 0
  w1 : Word := 0
  deriving DecidableEq, Repr

/-- The translation of the element at which a member resumes, held until that element completes (R228, R301): its page, and the
frame-map entry it had. -/
structure Hold where
  va : Word
  page : TlbEntry
  fme : Fme
  deriving DecidableEq, Repr

/-- A sampled member that has begun (R352): the member and its SLOT, the GTC of its issue, the element it begins with, and the width
and number of its elements. -/
structure Sample where
  member : Nat
  slot : Nat
  gtc : Word
  first : Nat
  ew : Nat
  n : Nat
  deriving DecidableEq, Repr

/-- One entry of the VIQ (R10, R59, R85). -/
structure Convoy where
  /-- Number of the convoy in the strand's program order. -/
  seq : Nat
  pc : Word
  /-- Member words, slot 0 first, after the rotation of R64. -/
  words : List (BitVec 32)
  /-- Captured scalar operands 0 and 1 of each member (R85). -/
  ops : List (Word × Word)
  cpyDst : Word := 0
  cpyChunk : Word := 0
  samp : Sampled := {}
  /-- The strip the convoy belongs to. -/
  strip : Nat := 0
  /-- The sequencer has issued the convoy (R100). -/
  issued : Bool := false
  /-- The first member of what is left of the convoy since a stop: members are numbered from it (R300). -/
  base : Nat := 0
  /-- Next member to perform. -/
  next : Nat := 0
  /-- Elements of the next member performed by earlier turns (R228, R277). -/
  from_ : Nat := 0
  /-- What was there before the first member whose work can still be discarded (R85, R308). -/
  snap : Option Snap := none
  /-- The member at `base` resumes at ESTART (R85 bit 10, R301). -/
  resumed : Bool := false
  /-- ESTART says that the member at `base` is complete (R301). -/
  skip : Bool := false
  /-- The address whose access stopped the member, and the translation of it that is held since it resumed (R228). -/
  stopVa : Option Word := none
  hold : Option Hold := none
  /-- The resumed member treats every empty action as block (R301). -/
  forceBlock : Bool := false
  /-- Elements whose watch match does not trap on resumption (R346). -/
  watchExempt : List Nat := []
  /-- Running value of a stopped scan, or tag of a stopped braid store (R85). -/
  resval : Word := 0
  /-- First unwritten line of a copy member stopped at a fault (R85 bit 9). -/
  cpLine : Option Nat := none
  /-- The matrix member is the interrupted one that MXPROG describes (R85 bit 8). -/
  mxInterrupted : Bool := false
  /-- Numbers its copy, matrix and `vlda` member took on entering the sluice (R246). -/
  nCp : Option Nat := none
  nMx : Option Nat := none
  nAs : Option Nat := none
  /-- Slots whose members are sampled and have not begun (R351), and those that have, with no profile record yet (R352). -/
  sampled : List Nat := []
  samples : List Sample := []
  /-- A scalar result that is written when the convoy retires (R59). -/
  pendScalar : Option (Nat × Word) := none
  /-- Some member was rechecked (R349 retirement flag 2). -/
  eddyHad : Bool := false
  /-- Members whose results await the eddy's verdict (R317, R318). -/
  eddyDue : List Nat := []
  /-- Some member left the eddy unchecked (R317). -/
  eddyMiss : Bool := false
  /-- A stop of the next member that is not yet taken (R316). -/
  pendStop : Option PendStop := none
  /-- Some stop of the convoy was taken (R349 retirement flag 4). -/
  stopped : Bool := false
  deriving DecidableEq, Repr

/-- A location address (R206): a byte of a die's deep or shallow space, or a system address beyond the host link. -/
inductive Place where
  | deep (die off : Nat)
  | shallow (die off : Nat)
  | host (addr : Nat)
  deriving DecidableEq, Repr

/-- What a translation gives. -/
structure Xl where
  /-- Frame number and full frame address. -/
  frame : Nat
  fa : Nat
  fme : Fme
  /-- The place accessed; `none` for a braid line. -/
  place : Option Place
  deriving DecidableEq, Repr

/-- An element of a long-latency load and where it lies: its number in the register. -/
structure ElemRead where
  ix : Nat
  xl : Xl
  p : Place
  deriving DecidableEq, Repr

/-- An element group of `vlda` or `vldx` whose elements have been read and that has not landed (R66, R231, R277). -/
structure Landing where
  /-- Convoy that issued it. -/
  seq : Nat
  reg : Nat
  grp : Nat
  ew : Nat
  /-- The elements of the group, by number in the register, and the values read. -/
  elems : List (Nat × Nat)
  /-- Where the elements were read, for those whose read may still take place later (R231, R269). -/
  from_ : List ElemRead := []
  /-- Number on the asynchronous-load timeline. -/
  num : Option Nat
  /-- A later write has not superseded it (R66). -/
  live : Bool := true
  deriving DecidableEq, Repr

/-- The three matrix instructions. -/
inductive MxKind where
  | mma
  | mmaz
  | mxsum
  deriving DecidableEq, Repr

/-- The operands a matrix operation captured: A group and A scales. -/
structure MxCapture where
  a : List VReg
  scale : VReg
  deriving DecidableEq, Repr

/-- A matrix operation in the MXQ (R10, R293). -/
structure MxOp where
  num : Nat
  kind : MxKind
  vd : Nat
  va : Nat
  slot : Nat
  ea : Bool
  cfg : Word
  zpa : Word
  seq : Nat
  pc : Word
  member : Nat
  /-- The copy it is the follow-on of, while that copy has not issued it (R59). -/
  follow : Option Nat := none
  captured : Option MxCapture := none
  /-- The header and stream were checked (R290, R292). -/
  begun : Bool := false
  /-- The header as it was read when the operation began, and VLB then (R290, R81). -/
  hdr : List Byte := []
  vlb : Nat := 8192
  slice : Nat := 0
  elem : Nat := 0
  /-- The element at which it resumes is exempt from stopping again (R293). -/
  exempt : Bool := false
  /-- Every empty action acts as block: it stopped before it read its A operands (R301). -/
  force : Bool := false
  /-- Accumulators: the old values, then with the slices already added. -/
  acc : List VReg := []
  /-- Accumulator registers no later write has superseded (R66). -/
  live : List Nat := []
  /-- Its A operands still stand in their registers as it captured them. -/
  whole : Bool := true
  done : Bool := false
  deriving DecidableEq, Repr

/-- The three copy instructions. -/
inductive CpKind where
  | cpy
  | cpyv
  | cpyw
  deriving DecidableEq, Repr

/-- A copy in the CPQ (R10, R248). -/
structure CpOp where
  num : Nat
  kind : CpKind
  src : Word
  /-- Destination address, register or slot. -/
  dst : Nat
  len : Nat
  ew : Nat := 8
  /-- Registers that a `cpyv` fills. -/
  regs : Nat := 0
  hint : Nat := 0
  decrypt : Bool := false
  chunk : Word := 0
  /-- First line not yet written (R253). -/
  line : Nat := 0
  /-- Lines of its destination that it poisoned itself (R321). -/
  marks : List Nat := []
  seq : Nat
  pc : Word
  member : Nat
  live : List Nat := []
  /-- Every line is written: acknowledgements of writes to host locations are outstanding (R335). -/
  sent : Bool := false
  deriving DecidableEq, Repr

/-- One engine timeline of a strand (R246). -/
structure Timeline where
  /-- Number of the last operation issued; at start the counter value read. -/
  issued : Word := 0
  /-- Value last written to the counter, or read at start. -/
  counter : Word := 0
  /-- Numbers complete and not yet covered by the counter. -/
  complete : List Nat := []
  deriving DecidableEq, Repr

/-- An uncommitted strip (R311 to R313). -/
structure Strip where
  id : Nat
  /-- Address of its setvl. -/
  pc : Word
  /-- Values of the scalars INDMASK names, at that setvl. -/
  ckpt : List (Nat × Word)
  /-- STRIPST.WHY: 0 while it can be rewound. -/
  why : Nat := 0
  /-- The setvl of the next strip, or end, has been executed. -/
  closed : Bool := false
  deriving DecidableEq, Repr

/-- What an entry of the strip store buffer does when its strip commits. -/
inductive BufOp where
  /-- It writes its nibbles (R311). -/
  | store
  /-- The tracker counts accesses made behind stores of the buffer that it counts (R262, R280). -/
  | count
  /-- Its line is written back to its home, or with `all` to memory (R244). -/
  | flush (all : Bool)
  deriving DecidableEq, Repr

/-- A line entry of the strip store buffer (R311), or what has to follow the stores before it. -/
structure BufLine where
  /-- Frame address of the 64-byte line. -/
  fa : Nat
  /-- The replica it writes, for a replica-set frame (R229). -/
  replica : Option Nat
  /-- One bit for each nibble (R181, R311). -/
  mask : BitVec 128
  data : BitVec 512
  strip : Nat
  /-- Virtual address of the line, and kind of access, for the record of a store that fails at commit (R304, R315). -/
  va : Word
  kind : Nat := 6
  /-- Every store in it is streaming: the L1 does not allocate the line (R226). -/
  stream : Bool := false
  /-- Element accesses in it, for the tracker (R218, R280). -/
  elems : Nat := 0
  op : BufOp := .store
  deriving DecidableEq, Repr

/-- A store in the scalar store queue (R229, R262 note b): its address, and the frame address it was translated to. -/
structure QStore where
  va : Word
  fa : Nat
  bytes : List Byte
  /-- The strip that was open when the scalar side executed it (R313). -/
  strip : Option Nat
  /-- Frame addresses of the loads behind it that the tracker counts after it (R262, R280). -/
  after : List Nat := []
  deriving DecidableEq, Repr

/-- An `fsv` whose scalar stores are not all performed: the convoys it holds back begin with `seq`; its scope, how many
stores of the queue stand before it, the strip it stands in, and whether that strip's buffer is still to be committed (R229,
R255). -/
structure FsvMark where
  seq : Nat
  scope : BitVec 3
  left : Nat
  strip : Option Nat
  commits : Bool
  deriving DecidableEq, Repr

/-- A `bar` or `bararr` at its arrival: its local barrier, its sd, and whether it then waits for the phase (R133). -/
structure Arrive where
  b : Nat
  sd : BitVec 5
  stays : Bool
  deriving DecidableEq, Repr

/-- What a waiting strand waits for (R118). -/
inductive Wait where
  | none
  /-- Free entries of VIQ, VMQ, MXQ and CPQ for the convoy at the PC (R10). -/
  | sluice (viq vmq mxq cpq : Nat)
  /-- Retirement of every convoy up to the number (R83, R149, R151, R59, R152). -/
  | retired (seq : Nat)
  /-- The vector memory members of every convoy up to the number (R255, R264). -/
  | vecMem (seq : Nat)
  /-- Every member of every convoy up to the number, with its verdict, and every store performed at group scope, before an arrival at
  a local barrier (R133, R135). -/
  | arrival (a : Arrive) (seq : Nat)
  /-- Completion of the copy, matrix and asynchronous-load timelines named (R83, R254, R255). -/
  | engines (cp mx as : Bool)
  /-- A selection of scalar, vector and engine work, and link acknowledgements (R254, R335). -/
  | fence (kinds : BitVec 3) (scope : BitVec 3)
  /-- The conditions of `end` (R114). -/
  | ending
  /-- Fewer than two uncommitted strips (R311). -/
  | strips
  /-- Older strips, before an event of R229 commits the open one. -/
  | olderStrips
  /-- W = 0 in a frame (R216). -/
  | writeBlock (frame : Nat)
  /-- The end of a migration (R221). -/
  | migration (frame : Nat)
  /-- A barrier phase after the token (R133). -/
  | barrier (sd : BitVec 5) (b tok : Nat)
  /-- A counter in memory at or above a value (R247). -/
  | counter (va n : Word)
  /-- The group is no longer halted or being saved (R120, R123). -/
  | resume
  deriving DecidableEq, Repr

/-- States a strand position can be in; `saved` and `ended` strands live in their group's record (R118). -/
inductive StrandState where
  | unbound
  | running
  | waiting
  | halted
  deriving DecidableEq, Repr

/-- An `rpt` part-way: trip count, next replay, body words (R162). -/
structure Replay where
  count : Nat
  next : Nat
  body : List (BitVec 32)
  deriving DecidableEq, Repr

/-- The identity a bind gives a strand (R98, R122). -/
structure Binding where
  ctx : Nat := 0
  launch : LaunchKey := ⟨0, 0⟩
  /-- QUEUEID of its own bind record (R98). -/
  queue : Nat := 0
  gix : Nat := 0
  ix : Nat := 0
  gsize : Nat := 1
  ngroups : Nat := 1
  paramBase : Word := 0
  prio : Nat := 0
  weight : Nat := 1
  /-- World, privilege, DETMODE and matrix use (R73, R108). -/
  secure : Bool := false
  privileged : Bool := false
  det : Bool := false
  matrix : Bool := false
  deriving DecidableEq, Repr

/-- The strand-visible CSRs that hold state of the strand (R82). -/
structure Csrs where
  vl : Nat := 0
  vtype : BitVec 10 := 0
  fctl : Word := 0
  estart : Word := 0
  indmask : Word := 0
  qcfg : Word := 0
  qbase : Word := 0
  rfdesc : Word := 0
  rngseed : Word := 0
  vlcap : Word := 8192
  tlbase : Word := 0
  rchk : BitVec 2 := 0
  mxcfg : Word := 0
  mxzpa : Word := 0
  mxprog : Word := 0
  watch : Tbl Word := []
  watchctl : Word := 0
  donemask : Word := 0
  samplectl : Word := 0
  tracectl : Word := 0
  deriving DecidableEq, Repr

/-- One of the 512 strand positions (R9). -/
structure Strand where
  st : StrandState := .unbound
  wait : Wait := .none
  bind : Binding := {}
  /-- PC of the scalar side. -/
  pc : Word := 0
  s : Tbl Word := []
  vec : VecState := {}
  csr : Csrs := {}
  /-- Number of the next convoy. -/
  nextSeq : Nat := 0
  viq : List Convoy := []
  mxq : List MxOp := []
  cpq : List CpOp := []
  lands : List Landing := []
  tlCopy : Timeline := {}
  tlMatrix : Timeline := {}
  tlAsync : Timeline := {}
  /-- Weight-buffer bytes, slot * 32,768 + offset (R289), and poisoned 64-byte slot lines (R321). -/
  slots : Tbl Byte := []
  slotPoison : List Nat := []
  strips : List Strip := []
  /-- Number of the open strip, if one is open, and of the next. -/
  openStrip : Option Nat := none
  nextStrip : Nat := 1
  /-- STRIPST.WHY while no uncommitted strip gives it. -/
  why : Nat := 8
  rolls : BitVec 32 := 0
  buf : List BufLine := []
  ssq : List QStore := []
  /-- Scalar stores stay in the scalar store queue while set (the model's schedule, assumption 2). -/
  hold : Bool := false
  /-- Markers of `fsv` in the VMQ, oldest first (R255). -/
  fsvMarks : List FsvMark := []
  deficit : Int := 0
  /-- Fetch turns to pass after `yield` (R125). -/
  skip : Nat := 0
  /-- Local barrier and token of a `bar` or `bararr` that has arrived (R133). -/
  barTok : Option (Nat × Nat) := none
  /-- An arrival deferred while the group is halted, and when it came (R132). -/
  barDue : Option (Arrive × Word) := none
  /-- Timestamp of the last braid store (R241). -/
  lastBraid : Option Word := none
  /-- Members counted since the last sample (R351). -/
  sampleCount : Nat := 0
  /-- The `rpt` at the PC has begun and has not been interrupted. -/
  replay : Option Replay := none
  /-- The stopped convoy, copy or matrix operation is held until the group resumes (R120, R253, R295). -/
  vecHeld : Bool := false
  cpHeld : Bool := false
  mxHeld : Bool := false
  /-- A store went unacknowledged on a fenced link (R335). -/
  lostStore : Option Word := none
  /-- The scalar access whose watch match is exempt on resumption (R346). -/
  scalarExempt : Bool := false
  deriving DecidableEq, Repr

/-! ## Notes and trace records -/

/-- What firmware on a management core is told (R299, R303, R306, R123). -/
inductive MgmtNote where
  /-- A record sent to the management core, with the cause that kept it from a queue (0 for none). -/
  | rcd (die : Nat) (r : FRec) (prevented : Nat)
  /-- A record was posted to a context's queue (R305). -/
  | signal (die : Nat)
  /-- A group was saved; the mask names its ended strands (R124). -/
  | saved (k : GroupKey) (ended : BitVec 16)
  /-- A launch was ended at `trap 0`, or completed (R152). -/
  | launchEnded (k : LaunchKey)
  /-- A matrix engine was marked failed (R297). -/
  | engineFailed (die core : Nat)
  /-- The loader rejected an object: record index and code (R106). -/
  | objectRejected (ctx index code : Nat)
  /-- The loader refused to unload an object (R113). -/
  | unloadRefused (ctx base : Nat)
  deriving DecidableEq, Repr

/-- A trace record (R349). -/
structure TraceRec where
  gtc : Word
  source : Nat
  kind : Nat
  secure : Bool
  ctx : Nat
  /-- The 8-byte words from 0x10 on. -/
  body : List Word
  deriving DecidableEq, Repr

/-! ## Groups, launches, queues -/

/-- States of a group (R119). -/
inductive GroupState where
  | unplaced
  | resident
  | halted
  | saving
  | saved
  | ended
  | abandoned
  deriving DecidableEq, Repr

/-- A group (R116, R119). -/
structure Group where
  state : GroupState := .unplaced
  ctx : Nat := 0
  size : Nat := 1
  die : Nat := 0
  cluster : Nat := 0
  /-- Source numbers of its strands that have not ended, by strand index. -/
  members : Tbl Nat := []
  ended : BitVec 16 := 0
  /-- Strands that were waiting when the group halted. -/
  waiting : List Nat := []
  /-- The clock in which it halted, and the strands that ran then and may still raise a fault of that clock (R120). -/
  haltClock : Word := 0
  lively : List Nat := []
  deriving DecidableEq, Repr

/-- The fields of a launch header the device uses (R108). -/
structure Header where
  det : Bool := false
  matrix : Bool := false
  fuse : Bool := false
  entry : Word := 0
  vlb : Nat := 0
  groupSz : Nat := 1
  spWays : Nat := 0
  indmask : BitVec 32 := 0
  rngseed : Word := 0
  /-- Output ranges, resolved: address and length (R108, R109). -/
  outs : List (Word × Nat) := []
  deriving DecidableEq, Repr

/-- A launch (R109, R115). -/
structure Launch where
  ctx : Nat := 0
  header : Header := {}
  headerAddr : Word := 0
  paramBase : Word := 0
  ngroups : Nat := 1
  /-- Index of its LAUNCH entry. -/
  index : Nat := 0
  strands : BitVec 32 := 0
  flags : BitVec 7 := 0
  cause : BitVec 8 := 0
  eddy : Bool := false
  rollbk : Bool := false
  /-- No further group is placed; the launch waits for completion. -/
  stopped : Bool := false
  deriving DecidableEq, Repr

/-- A command the front-end has fetched and not completed (R91). -/
structure Command where
  index : Nat
  entryAddr : Word
  op : Nat
  bar : Bool
  /-- The entry's 64 bytes as fetched. -/
  bytes : List Byte
  started : Bool := false
  complete : Bool := false
  cw : Word := 0
  lid : Nat := 0
  digest : BitVec 256 := 0
  /-- Start time of a WAITC (R91). -/
  since : Word := 0
  deriving DecidableEq, Repr

/-- The entry that stopped a queue: its index, the cause, its address, and its bytes where it was read (R92, R94). -/
structure QueueStop where
  index : Nat
  cause : Nat
  addr : Word
  entry : Option (List Byte)
  deriving DecidableEq, Repr

/-- A queue: its descriptor and what the front-end holds (R87 to R95, R333, R337). -/
structure Queue where
  desc : QueueDesc := {}
  next : Nat := 0
  nextAddr : Word := 0
  cmds : List Command := []
  done : Word := 0
  h : BitVec 256 := 0
  notify : Word := 0
  /-- A message waiting to leave, with the address it goes to (R337). -/
  pending : Option (Word × Word) := none
  /-- The front-end has been told of a TAIL update, or the queue has started, and it has not found TAIL read out since (R89). -/
  noticed : Bool := false
  /-- What stopped the queue. -/
  err : Option QueueStop := none
  deriving DecidableEq, Repr

/-! ## Dies, cores, clusters, links -/

/-- A core (R9, R79, R112, R319). -/
structure Core where
  /-- The core is present and not fused off (R360 COREMAP; assumption 11). -/
  present : Bool := true
  /-- Lane groups fused off (R79; assumption 11), and retired at run time (R319): LANEDIS is their union. -/
  fusedLanes : BitVec 16 := 0
  retired : BitVec 16 := 0
  disagree : Tbl Nat := []
  world : Bool := false
  copyWorld : Bool := false
  ways : Nat := 0
  scratch : Tbl Byte := []
  /-- Its poisoned 64-byte lines (R321). -/
  scratchPoison : List Nat := []
  engineFailed : Bool := false
  /-- Strand position that holds the sequencer's turn, or had it last, and what its strip was charged in it (R100). -/
  turn : Option Nat := none
  turnCharge : Nat := 0
  /-- The holder's turn has passed: the next strand in slot order is to have one. -/
  turnOver : Bool := false
  deriving DecidableEq, Repr

/-- A barrier-table entry (R130). -/
structure Barrier where
  v : Bool := false
  bound : Bool := false
  local_ : Nat := 0
  size : Nat := 0
  batch : Nat := 0
  phase : BitVec 16 := 0
  ended : BitVec 16 := 0
  arr : BitVec 16 := 0
  /-- The group it is bound to, or that was saved from it and is not bound elsewhere. -/
  owner : Option GroupKey := none
  deriving DecidableEq, Repr

/-- A cluster (R98, R99, R112, R130). -/
structure Cluster where
  records : Tbl BindRecord := []
  commit : Word := 0
  fused : Bool := false
  barriers : Tbl Barrier := []
  deriving DecidableEq, Repr

/-- A shadow slot of a band (R213). -/
structure Shadow where
  band : Nat
  slot : Nat
  block : Nat
  pinned : Bool
  stamp : Word
  /-- The in-bank copy has not finished. -/
  copying : Bool
  deriving DecidableEq, Repr

/-- A write on its way to a home (R268): the nibbles of one line that it writes, which the home merges (R181). -/
structure FlyWrite where
  source : Nat
  fromDie : Nat
  home : Nat
  /-- Number of the line. -/
  line : Nat
  mask : BitVec 128
  data : BitVec 512
  /-- The vector clock of its die as it left. -/
  clock : List Nat
  /-- The core whose L1 takes the line, where one does (R222, R226). -/
  core : Option Nat := none
  /-- The strand as it was bound when it made the store, with the address of the line and the kind of access (R304, R315). -/
  bind : Binding := {}
  va : Word := 0
  kind : Nat := 6
  deriving DecidableEq, Repr

/-- What a die's tracker has to tell: that a frame's count has reached THRESH, with the access that crossed (kind 0), that it moved
a frame (kind 1), or that it skipped one (kind 2); for its record (R218, R219). -/
structure Crossing where
  frame : Nat
  source : Nat
  gtc : Word
  count : Nat
  kind : Nat := 0
  extra : Nat := 0
  deriving DecidableEq, Repr

/-- A compute die. -/
structure Die where
  gtc : Word := 0
  /-- The GTC copy is being brought to agree with die 0's (R362). -/
  correcting : Bool := false
  regions : Tbl Word := []
  windows : Tbl (BitVec 128) := []
  trkcfg : Word := 0x0100000000001400
  ntqbase : Word := 0
  /-- Tracker counters of the period: frame, count, crossed (R218); what its records are still to be posted of, oldest first; and
  frames with their counts that it is still to move since a period ended. -/
  counters : Tbl (Nat × Bool) := []
  crossings : List Crossing := []
  moves : List (Nat × Nat) := []
  periodStart : Word := 0
  periodLen : Nat := 20
  tlb : List TlbEntry := []
  /-- The L1 TLB of each of its cores (R208). -/
  l1Tlb : Tbl (List TlbEntry) := []
  fmCache : Tbl Fme := []
  shadows : List Shadow := []
  /-- Lost PCs, the PC the spare serves, whether its copy is running (R211). -/
  lostPcs : List Nat := []
  spareFor : Option Nat := none
  spareCopying : Bool := false
  /-- Trace policy, sideband, records held, and the count and first time of dropped ones (R348, R350). -/
  allowSec : Bool := false
  traceWorld : Bool := false
  sideband : Bool := false
  trace : List TraceRec := []
  /-- Records that left by the sideband. -/
  traceOut : List TraceRec := []
  dropped : Nat := 0
  firstDrop : Word := 0
  disagreeClear : Word := 0
  /-- The vector clock: writes of each die it has sent or applied (R268). -/
  clock : Tbl Nat := []
  deriving DecidableEq, Repr

/-- States of a link (R328). -/
inductive LinkState where
  | reset
  | training
  | up
  | degraded
  | fenced
  | down
  deriving DecidableEq, Repr

/-- A write or an atomic sent to a host or peer location whose acknowledgement is outstanding (R335). -/
structure LinkReq where
  source : Nat
  /-- The number of the copy whose write it is, where it is a copy's. -/
  copy : Option Nat := none
  va : Word
  /-- The system address written. -/
  addr : Nat
  isWrite : Bool
  /-- The launch the strand was bound for. -/
  launch : LaunchKey := ⟨0, 0⟩
  deriving DecidableEq, Repr

/-- A link port (R328, R329). -/
structure Port where
  state : LinkState := .reset
  lanes : Nat := 0
  world : Bool := false
  errcnt : BitVec 16 := 0
  retry : BitVec 16 := 0
  /-- Training attempts that failed in a row. -/
  attempts : Nat := 0
  /-- When flits were replayed, as far as the second before the last replay goes (R329). -/
  replays : List Word := []
  inflight : List LinkReq := []
  deriving DecidableEq, Repr

/-- A request the host or a peer sent into the device that has not been answered (R330, R331, R333, R334). Those of the memory
aperture reach one 64-byte line; those of the control aperture come from the host. -/
inductive HostPost where
  /-- Posted writes: whole bytes from an address, and bytes of a line under a mask. -/
  | write (port fa : Nat) (bytes : List Byte)
  | masked (port line : Nat) (mask : BitVec 64) (data : BitVec 512)
  /-- Requests: a read, and an atomic of `n` bytes with the operation number and operands of R147. -/
  | read (port fa n : Nat)
  | atomic (port fa n op : Nat) (b e : Word)
  /-- Doorbell writes: TAIL and NOTIFY (R333). -/
  | tail (q : Nat) (v : Word)
  | notify (q : Nat) (v : Word)
  /-- Other writes of the control aperture: REPLNOTIFY (R360), and LINKSTAT of a port (R328). -/
  | replNotify (v : Word)
  | linkstat (p : Nat) (w : Word)
  /-- A read of 8 bytes of the control aperture (R332). -/
  | control (off : Nat)
  deriving DecidableEq, Repr

/-- A migration in progress (R216). -/
structure Migration where
  frame : Nat
  dest : Word
  /-- The strand whose `pgmig` waits, or the tracker of a die. -/
  owner : Option Nat
  die : Nat
  sd : Nat
  /-- The tracker's count of the frame (R218). -/
  count : Nat := 0
  /-- The `pgmig` that ordered it is still waiting: its strand has not left its slot or been taken elsewhere since. -/
  waits : Bool := true
  deriving DecidableEq, Repr

/-- A braid write on its way to a replica (R241), or a repair. -/
structure BraidWrite where
  die : Nat
  off : Nat
  data : BitVec 512
  tag : Word
  deriving DecidableEq, Repr

/-- The third answer of a braid load, outstanding (R242). -/
structure BraidAnswer where
  window : Nat
  line : Nat
  replica : Nat
  tag : Word
  data : BitVec 512
  deriving DecidableEq, Repr

/-- A braid window: size and the base of its region in each die's deep space (R214). -/
structure BraidWindow where
  size : Nat
  bases : List Nat
  deriving DecidableEq, Repr

/-- A line that carries a reader count: what memory held before it (R238). -/
structure Counted where
  count : Nat
  old : List Byte
  deriving DecidableEq, Repr

/-- A dirty line of an L1: its core, its number, and the 64 bytes its home holds under it (R222). -/
structure L1Line where
  core : Nat
  line : Nat
  under : List Byte
  deriving DecidableEq, Repr

/-- An object the loader mapped (R101 to R107, R113). -/
structure Loaded where
  ctx : Nat
  base : Nat
  size : Nat
  globals : List (List Byte × Nat)
  /-- Launch headers with the number of outstanding launches. -/
  kernels : List (Nat × Nat)
  frames : List Nat
  /-- Its pages, counted from the base. -/
  pages : List Nat
  deriving DecidableEq, Repr

/-- Die 0's start-up state and the device block (R357 to R363). -/
structure Boot where
  /-- Always-on count of failed starts. -/
  bootcnt : Nat := 0
  /-- 0 to 3 as in R357; 15 minimal mode. -/
  stage : Nat := 0
  /-- A start is in progress or running. -/
  active : Bool := false
  bootok : Bool := false
  minimal : Bool := false
  reason : Nat := 0
  repl : Bool := false
  replwhy : BitVec 5 := 0
  replNotify : Word := 0
  clockMHz : Nat := 3300
  capW : BitVec 16 := 3600
  /-- Stacks that train and are not lost. -/
  stackmap : BitVec 16 := 0xFFFF
  deriving DecidableEq, Repr

/-- Failures recorded in package flash (R361). -/
structure Flash where
  pcs : List (Nat × Nat) := []
  lanes : List (Nat × Nat) := []
  engines : List Nat := []
  deriving DecidableEq, Repr

/-- What firmware is checked against, fused into the part (R358; assumption 11). -/
structure Fuses where
  /-- SHA-256 of the firmware key: x then y, 32 bytes each, the most significant byte first. -/
  keyHash : BitVec 256 := 0
  minVersion : Nat := 0
  deriving DecidableEq, Repr

/-! ## The schedule, and the member in execution -/

/-- Whose turn it is (assumption 1). -/
inductive Turn where
  /-- The scalar side of a strand fetches. -/
  | fetch (src : Nat)
  /-- The vector side of a strand performs its next member. -/
  | member (src : Nat)
  /-- The scalar side of a strand fetches, and a convoy only enters its sluices (R155). -/
  | enter (src : Nat)
  /-- The vector side performs at most `n` elements of its next member, where that is a load or a store (R228, R277). -/
  | memberPart (src n : Nat)
  /-- The copy engine carries out at most `n` lines of the strand's first copy (R272). -/
  | copyPart (src n : Nat)
  /-- A dirty line leaves an L1, or with `all` the MSC too (R225, R238); `bad`: it is found uncorrectable, and no context owns it
  (R320). -/
  | evict (line : Nat) (all bad : Bool)
  /-- A row of the table that has no word takes place. -/
  | event (i : Instr)
  /-- The oldest store leaves the scalar store queue of a strand. -/
  | drain (src : Nat)
  /-- From now on the scalar stores of a strand stay in its queue until they have to leave it, or no longer do (R229). -/
  | keepStores (src : Nat) (on : Bool)
  /-- From now on writes to another die's home take their time, or no longer do (R268). -/
  | keepWrites (on : Bool)
  /-- The elements of a long-latency load that have not landed are read only now (R231, R269). -/
  | readLate (src ix : Nat)
  /-- A request comes in by a link (R330). -/
  | request (h : HostPost)
  /-- The oldest record leaves the trace unit of a die (R348). -/
  | traceOut (die : Nat)
  /-- Firmware stores bytes at a frame address. -/
  | store (fa : Nat) (bytes : List Byte)
  deriving DecidableEq, Repr

/-- The member or instruction being executed, and what it sampled (R83). -/
structure Cur where
  src : Nat := 0
  pc : Word := 0
  slot : Nat := 0
  /-- Number of its convoy, and of the member among the convoy's words. -/
  seq : Nat := 0
  member : Nat := 0
  samp : Sampled := {}
  op0 : Word := 0
  op1 : Word := 0
  cpyDst : Word := 0
  cpyChunk : Word := 0
  /-- The member resumes at this element (R301). -/
  first : Nat := 0
  resumed : Bool := false
  /-- ESTART says that it is complete (R301). -/
  skip : Bool := false
  hold : Option Hold := none
  forceBlock : Bool := false
  watchExempt : List Nat := []
  resval : Word := 0
  cpLine : Option Nat := none
  /-- The member stands directly after a cpyw of its convoy, whose number this is (R59). -/
  follow : Option Nat := none
  /-- Elements performed by earlier turns, and the most that this turn performs. -/
  from_ : Nat := 0
  limit : Option Nat := none
  deriving DecidableEq, Repr

/-- The whole package. -/
structure State where
  cur : Cur := {}
  turns : List Turn := []
  rot : Nat := 0
  steps : Nat := 0
  freeDraws : Nat := 0
  /-- Draws of the free figures of profile records, which nothing else takes part in (R353). -/
  profDraws : Nat := 0
  /-- Which two replicas answer first, and in which order, per braid access (assumption 1). -/
  replicaPick : List (Nat × Nat) := []
  strands : Tbl Strand := []
  cores : Tbl Core := []
  clusters : Tbl Cluster := []
  dies : Tbl Die := []
  ports : Tbl Port := []
  /-- Bytes of the deep, shallow and host locations, in rising order, none equal to 0. -/
  mem : List Host.Cell := []
  /-- Poisoned 64-byte lines (R320). -/
  poison : List Nat := []
  /-- Lines with a reader count (R238). -/
  counted : Tbl Counted := []
  /-- Dirty lines of the L1s, the longest held first (R222). -/
  l1 : List L1Line := []
  /-- Dirty lines of the MSCs, each with the 64 bytes that memory holds under it (R225). -/
  msc : Tbl (List Byte) := []
  /-- Lines of host locations that name the same bytes as another line, which is given for each (R273). -/
  aliases : Tbl Nat := []
  /-- The bytes themselves of lines with aliases, and the lines of which a cache holds a copy (R273). -/
  aliasMem : Tbl (BitVec 512) := []
  aliasSeen : List Nat := []
  /-- Tags of braid replica lines (R215). -/
  braidTag : Tbl Word := []
  braidWindows : Tbl BraidWindow := []
  fmap : Tbl Fme := []
  contexts : Tbl ContextDesc := []
  keys : Tbl (BitVec 256) := []
  queues : Tbl Queue := []
  launches : List (LaunchKey × Launch) := []
  groups : List (GroupKey × Group) := []
  /-- Halting records that wait for queue space, oldest first (R305). -/
  waitingRecs : List (Nat × FRec) := []
  mgmt : List MgmtNote := []
  migrations : List Migration := []
  braidWrites : List BraidWrite := []
  braidAnswers : List BraidAnswer := []
  flyWrites : List FlyWrite := []
  /-- While set, writes to a home on another die stay in flight (the model's schedule, assumption 2). -/
  flyHold : Bool := false
  loaded : List Loaded := []
  boot : Boot := {}
  flash : Flash := {}
  fuses : Fuses := {}
  /-- What the host has written in minimal mode, by aperture address (R359). -/
  hostImage : List Host.Cell := []
  /-- What the host has received: completions of its reads, and posted messages (R334, R337, R361). -/
  hostIn : List (Nat × List Byte) := []
  hostMsgs : List (Word × Word) := []
  /-- Requests that came in by the links and wait, oldest first (R216, R333, R334). -/
  hostPosts : List HostPost := []
  deriving DecidableEq, Repr

/-- Why the machine stops with no state to go on from. -/
inductive Fault where
  /-- An access whose frame-map entry names a location that no die or system address holds: raised by the location
  operations of Machine/Mem.lean. Safe: the manual gives such a location no byte, and the model stops. -/
  | locationBeyondSpace
  deriving DecidableEq, Repr

/-- Why a step has no meaning. -/
inductive Refusal where
  /-- An instruction of the table without a meaning in this model: raised by Dispatch. Safe. -/
  | notModelled (mnemonic : String)
  /-- A turn offers an instruction word as an event: raised by step. Safe: the schedule is not one of this machine. -/
  | notAnEvent
  deriving DecidableEq, Repr

/-- The package after power-on (R357 to R362 and the Reset columns): nothing bound, no memory written, every link in
reset, BOOTCNT 0. -/
def State.reset : State := {}

end Sys2Proof.Machine
end

