-- ==== Sys2Proof/Machine/Mem.lean ====
section
/-! DEFINITION. Memory, and the two maps that lead to it: bytes of locations in one canonical form (assumption 6),
the frame map (R206), page tables (R204) and the order in which a translation fails (R205). -/

namespace Sys2Proof.Machine

/-! ## Bytes -/

/-- The `n` low bytes of a number, least significant first (R2). -/
def leBytes (n x : Nat) : List Byte :=
  match n with
  | 0 => []
  | k + 1 => BitVec.ofNat 8 x :: leBytes k (x / 256)

/-- The number that bytes hold, least significant first (R2). -/
def leNat (bs : List Byte) : Nat :=
  match bs with
  | [] => 0
  | b :: r => b.toNat + 256 * leNat r

/-- A field <lo+n-1:lo> of a word as a number. -/
def bitsN (w : Word) (lo n : Nat) : Nat := w.toNat / 2 ^ lo % 2 ^ n

/-- Bit `k` of a word. -/
def bitN (w : Word) (k : Nat) : Bool := bitsN w k 1 == 1

/-- A number read as two's complement of the given width. -/
def toSigned (w x : Nat) : Int := if 2 * (x % 2 ^ w) < 2 ^ w then ((x % 2 ^ w : Nat) : Int) else ((x % 2 ^ w : Nat) : Int) - (2 ^ w : Nat)

/-- `wrap(x, w)` of R4. -/
def wrapInt (w : Nat) (x : Int) : Nat := (x % ((2 ^ w : Nat) : Int)).toNat

/-! ## Memory -/

/-- Bytes by location key, in rising order, with no entry equal to what an unlisted key reads as. -/
abbrev Memory := List Host.Cell

/-- What a byte that nothing has written reads as (assumption 6). -/
def Memory.unlisted : Byte := 0

/-- One byte. -/
def Memory.read (m : Memory) (a : Nat) : Byte :=
  match m with
  | [] => Memory.unlisted
  | (b, x) :: r => if b = a then x else if a < b then Memory.unlisted else Memory.read r a

/-- Write one byte, keeping the canonical form. -/
def Memory.write (m : Memory) (a : Nat) (x : Byte) : Memory :=
  match m with
  | [] => if x = Memory.unlisted then [] else [(a, x)]
  | (b, y) :: r =>
    if b = a then (if x = Memory.unlisted then r else (a, x) :: r)
    else if a < b then (if x = Memory.unlisted then (b, y) :: r else (a, x) :: (b, y) :: r)
    else (b, y) :: Memory.write r a x

/-- Every key of the list lies above `lo`, keys rise, and no entry is the unlisted byte. -/
def Memory.wfFrom (lo : Option Nat) (m : Memory) : Bool :=
  match m with
  | [] => true
  | (b, x) :: r => (match lo with | none => true | some l => decide (l < b)) && x != Memory.unlisted && Memory.wfFrom (some b) r

/-- The canonical form. -/
def Memory.wf (m : Memory) : Bool := Memory.wfFrom none m

/-- The entries at or above a key. -/
def Memory.upFrom (m : Memory) (a : Nat) : Memory :=
  match m with
  | [] => []
  | (b, x) :: r => if b < a then Memory.upFrom r a else (b, x) :: r

/-- The entries below a key. -/
def Memory.below (m : Memory) (a : Nat) : Memory :=
  match m with
  | [] => []
  | (b, x) :: r => if b < a then (b, x) :: Memory.below r a else []

/-- `n` bytes from `a` up, of entries at or above `a`. -/
def Memory.run (m : Memory) (a n : Nat) : List Byte :=
  match n, m with
  | 0, _ => []
  | k + 1, [] => Memory.unlisted :: Memory.run [] (a + 1) k
  | k + 1, (b, x) :: r => if b = a then x :: Memory.run r (a + 1) k else Memory.unlisted :: Memory.run ((b, x) :: r) (a + 1) k

/-- `n` bytes from `a` up. -/
def Memory.readBytes (m : Memory) (a n : Nat) : List Byte := Memory.run (m.upFrom a) a n

/-- Bytes from `a` up as entries: those that differ from what an unlisted key reads as. -/
def Memory.listed (a : Nat) (bs : List Byte) : Memory :=
  match bs with
  | [] => []
  | b :: r => if b = Memory.unlisted then Memory.listed (a + 1) r else (a, b) :: Memory.listed (a + 1) r

/-- Write bytes from `a` up, keeping the canonical form. -/
def Memory.writeBytes (m : Memory) (a : Nat) (bs : List Byte) : Memory :=
  m.below a ++ (Memory.listed a bs ++ m.upFrom (a + bs.length))

/-! ## Places -/

/-- The memory key of a place: the spaces do not overlap, and a 64-byte line of a place is a 64-byte line of keys. -/
def Place.key : Place → Nat
  | .deep d o => (d % 8) * 2 ^ 40 + o % 2 ^ 40
  | .shallow d o => 2 ^ 43 + (d % 8) * 2 ^ 40 + o % 2 ^ 40
  | .host a => 2 ^ 64 + a

/-- The line of a key. -/
def lineOf (key : Nat) : Nat := key / 64

/-- The place `n` bytes further. -/
def Place.plus (p : Place) (n : Nat) : Place :=
  match p with
  | .deep d o => .deep d (o + n)
  | .shallow d o => .shallow d (o + n)
  | .host a => .host (a + n)

/-- R210: the pseudo-channel of a byte offset in a die's deep or shallow space. -/
def pcOfOffset (off : Nat) : Nat := (off / 256) % 127

/-- The location exists (R210, R11; system addresses are 64 bits). -/
def Place.exists (p : Place) : Bool :=
  match p with
  | .deep d o => decide (d < 8 ∧ o < Config.deepBytes)
  | .shallow d o => decide (d < 8 ∧ o < Config.shallowBytes)
  | .host a => decide (a < 2 ^ 64)

/-! ## Units -/

def State.strand (s : State) (src : Nat) : Strand := s.strands.getD src {}
def State.setStrand (s : State) (src : Nat) (t : Strand) : State := { s with strands := s.strands.set src t }
def State.core (s : State) (k : Nat) : Core := s.cores.getD k {}
def State.setCore (s : State) (k : Nat) (c : Core) : State := { s with cores := s.cores.set k c }
def State.cluster (s : State) (k : Nat) : Cluster := s.clusters.getD k {}
def State.setCluster (s : State) (k : Nat) (c : Cluster) : State := { s with clusters := s.clusters.set k c }
def State.die (s : State) (k : Nat) : Die := s.dies.getD k {}
def State.setDie (s : State) (k : Nat) (d : Die) : State := { s with dies := s.dies.set k d }
def State.port (s : State) (k : Nat) : Port := s.ports.getD k {}
def State.setPort (s : State) (k : Nat) (p : Port) : State := { s with ports := s.ports.set k p }
def State.context (s : State) (k : Nat) : ContextDesc := s.contexts.getD k {}
def State.setContext (s : State) (k : Nat) (c : ContextDesc) : State := { s with contexts := s.contexts.set k c }
def State.queue (s : State) (k : Nat) : Queue := s.queues.getD k {}
def State.setQueue (s : State) (k : Nat) (q : Queue) : State := { s with queues := s.queues.set k q }

/-- Die, core (die * 16 + core) and cluster (die * 4 + cluster) of a strand's source number (R9, R12). -/
def dieOf (src : Nat) : Nat := src / 128
def coreOf (src : Nat) : Nat := src / 128 * 16 + src % 128 / 4
def clusterOf (src : Nat) : Nat := src / 128 * 4 + src % 128 / 16

/-! ## The frame map -/

def Fme.kind (f : Fme) : Nat := bitsN f.w0 0 3
def Fme.w (f : Fme) : Bool := bitN f.w0 3
def Fme.s (f : Fme) : Bool := bitN f.w0 4
def Fme.p (f : Fme) : Bool := bitN f.w0 5
def Fme.t (f : Fme) : Bool := bitN f.w0 6
def Fme.dieMask (f : Fme) : Nat := bitsN f.w0 8 8
def Fme.die (f : Fme) : Nat := bitsN f.w0 16 3
def Fme.braid (f : Fme) : Nat := bitsN f.w0 19 3
def Fme.loc (f : Fme) : Nat := f.w1.toNat / 65536 * 65536

/-- Number of dies a DIEMASK names. -/
def popMask (m : Nat) : Nat := (List.range 8).countP (fun d => m / 2 ^ d % 2 == 1)

/-- R206: the entry names no usable location, so every access through it gives a frame fault. -/
def Fme.bad (f : Fme) : Bool :=
  f.kind == 0 || f.kind ≥ 6 || bitsN f.w0 22 42 != 0 || bitN f.w0 7 || bitsN f.w1 0 16 != 0
    || (f.kind == 5 && !(popMask f.dieMask == 2 || popMask f.dieMask == 4 || popMask f.dieMask == 8))

/-- R207: the die whose replica an access from `die` reaches. -/
def Fme.replicaDie (f : Fme) (die : Nat) : Nat :=
  if f.dieMask / 2 ^ die % 2 == 1 then die
  else ((List.range 8).find? (fun d => f.dieMask / 2 ^ d % 2 == 1)).getD 0

/-- Every die of a replica set, in increasing order (R235). -/
def Fme.replicaDies (f : Fme) : List Nat := (List.range 8).filter (fun d => f.dieMask / 2 ^ d % 2 == 1)

/-- The place of byte `off` of a frame with this entry, for an access from `die`; for a replica set the replica
that `die` reaches, for a braid window no place. -/
def Fme.place (f : Fme) (die off : Nat) : Option Place :=
  match f.kind with
  | 1 => some (.deep f.die (f.loc + off))
  | 2 => some (.shallow f.die (f.loc + off))
  | 3 => some (.host (f.loc + off))
  | 5 => some (.deep (f.replicaDie die) (f.loc + off))
  | _ => none

/-- R208: the entry of a frame as a die sees it, through its frame-map cache. -/
def State.fme (s : State) (die frame : Nat) : Fme :=
  match (s.die die).fmCache.find frame with
  | some f => f
  | none => s.fmap.getD frame {}

/-! ## Security and loss -/

/-- The number of a place's 64 KiB frame in its die's space; region entries apply to the deep and the shallow space
alike (assumption 14). -/
def Place.regionFrame (p : Place) : Option (Nat × Nat) :=
  match p with
  | .deep d o => some (d, o / 65536)
  | .shallow d o => some (d, o / 65536)
  | .host _ => none

/-- R77: the place lies in a valid secure region of its die. -/
def State.regionSecure (s : State) (p : Place) : Bool :=
  match p.regionFrame with
  | none => false
  | some (d, f) =>
    (s.die d).regions.any (fun (_, w) => bitN w 63 && bitN w 62 && decide (bitsN w 0 24 ≤ f) && decide (f < bitsN w 24 24))

/-- The port a host location leaves by (R336): a peer port, or 16 for the host link. A window's BASE and LIMIT hold bits
<63:16> of its addresses. -/
def State.portOf (s : State) (die addr : Nat) : Nat :=
  let win := (s.die die).windows.find? (fun (_, w) =>
    let n := w.toNat
    n / 2 ^ 127 % 2 == 1 && decide (n % 2 ^ 48 ≤ addr / 65536) && decide (addr / 65536 < n / 2 ^ 64 % 2 ^ 48))
  match win with
  | some (_, w) => w.toNat / 2 ^ 120 % 16
  | none => 16

/-- A link that takes new requests (R329, R335). -/
def Port.usable (p : Port) : Bool := p.state != .fenced && p.state != .down

/-- R205 order 8, R335: no answer can come from the place. -/
def State.placeLost (s : State) (die : Nat) (p : Place) : Bool :=
  match p with
  | .deep d o => (s.die d).lostPcs.contains (pcOfOffset o)
  | .shallow d o => (s.die d).lostPcs.contains (pcOfOffset o)
  | .host a => !(s.port (s.portOf die a)).usable

/-- R211: accesses to a PC wait while its rows are copied into the spare. -/
def State.placeBusy (s : State) (p : Place) : Bool :=
  match p with
  | .deep d o => (s.die d).spareCopying && (s.die d).spareFor == some (pcOfOffset o)
  | .shallow d o => (s.die d).spareCopying && (s.die d).spareFor == some (pcOfOffset o)
  | .host _ => false

/-- Rows of the die that holds a place are being copied into its spare PC: 64 KiB lie on every PC (R210, R211). -/
def State.spaceBusy (s : State) (p : Place) : Bool :=
  match p with
  | .deep d _ => (s.die d).spareCopying
  | .shallow d _ => (s.die d).spareCopying
  | .host _ => false

/-- Some die copies rows into its spare PC (R211). -/
def State.copying (s : State) : Bool := s.dies.any (fun (_, d) => d.spareCopying)

/-! ## Page tables -/

/-- Cause codes of R299 that translation and accesses give. -/
def Cause.addressRange : Nat := 8
def Cause.misaligned : Nat := 9
def Cause.pageFault : Nat := 10
def Cause.protection : Nat := 11
def Cause.frameFault : Nat := 12
def Cause.world : Nat := 13
def Cause.braidAccess : Nat := 14
def Cause.notBraid : Nat := 15
def Cause.atomicNot : Nat := 16
def Cause.memLost : Nat := 17
def Cause.poison : Nat := 18

/-- What an access does, for R205. -/
inductive Access where
  | read
  | write
  /-- A store to every replica of a replica set (R235). -/
  | writeAll
  | exec
  | atomic
  | braidRead
  | braidWrite
  /-- The page instructions that report P, which do not take cause 6 of R205 (R221). -/
  | page
  /-- `dpromo` and `ddemo` (R221). -/
  | shadow
  deriving DecidableEq, Repr

def Access.needsR : Access → Bool
  | .read | .atomic | .braidRead | .page | .shadow => true
  | _ => false
def Access.needsW : Access → Bool
  | .write | .writeAll | .atomic | .braidWrite => true
  | _ => false

/-- Die and offset in the die's deep space of replica `k` of line `l` of a window (R214). -/
def BraidWindow.replica (w : BraidWindow) (l k : Nat) : Nat × Nat :=
  let d := (l + 3 * k) % 8
  (d, w.bases.getD d 0 + k * (w.size / 8) + l / 8 * 64)

/-- The place of a replica. -/
def replicaPlace (r : Nat × Nat) : Place := .deep r.1 r.2

/-- The places an access of byte `off` of a frame reaches: every replica of a braid line (R214), and of a replica set for a
store to all of them (R235). -/
def State.placesOf (s : State) (f : Fme) (die off : Nat) (acc : Access) : List Place :=
  if f.kind = 4 then
    (List.range 3).map (fun k => replicaPlace ((s.braidWindows.getD f.braid ⟨0, []⟩).replica ((f.loc + off) / 64) k))
  else if acc = .writeAll ∧ f.kind = 5 then f.replicaDies.map (fun d => .deep d (f.loc + off))
  else (f.place die off).toList

/-- A table entry read at a frame address: it must lie in deep, shallow or host memory that answers (assumption 15). The walk is
the device's own access, whatever the world of the context (assumption 15). -/
def State.tableEntry (s : State) (die fa : Nat) : Option Word :=
  let f := s.fme die (fa / 65536)
  if f.bad then none else
  match f.place die (fa % 65536) with
  | some p => if s.placeLost die p then none else some (BitVec.ofNat 64 (leNat (Memory.readBytes s.mem p.key 8)))
  | none => none

/-- Why a table entry cannot be read: its memory is lost (R211), or its frame names no such place (R205). -/
def State.tableCause (s : State) (die fa : Nat) : Nat :=
  let f := s.fme die (fa / 65536)
  match (if f.bad then none else f.place die (fa % 65536)) with
  | some p => if s.placeLost die p then Cause.memLost else Cause.frameFault
  | none => Cause.frameFault

/-- V, leaf, reserved bits of a table entry (R204). -/
def pteReserved (w : Word) : Bool := bitsN w 48 16 != 0 || bitsN w 7 9 != 0
def pteFa (w : Word) : Nat := bitsN w 16 32 * 65536

/-- The entries of one page of `n` level-2 entries agree: those the walk may take instead of `e` give the same translation
(R204). -/
def State.sizeAgrees (s : State) (die table ix n : Nat) (e : Word) : Bool :=
  (List.range n).all (fun j =>
    match s.tableEntry die (table + (ix / n * n + j) * 8) with
    | none => false
    | some f => bitN f 0 && bitN f 1 && !pteReserved f && bitsN f 2 5 == bitsN e 2 5
        && pteFa f + (ix % n) * 65536 == pteFa e + j * 65536)

/-- The leaf entry a walk reaches for the 64 KiB page of `va`: frame address, R, W, X, and the page it belongs to (R204, R205
orders 2 and 4). An entry that breaks R204 stays within what it names itself (R7; assumption 70): a block whose FA is not
aligned is a page fault, and a page whose entries disagree is taken 64 KiB at a time, each from its own entry. -/
def State.walk (s : State) (die : Nat) (root va : Nat) : Except Nat TlbEntry :=
  let a0 := root / 65536 * 65536 + (va / 2 ^ 42 % 64) * 8
  match s.tableEntry die a0 with
  | none => .error (s.tableCause die a0)
  | some e0 =>
    if !bitN e0 0 || bitN e0 1 || pteReserved e0 then .error Cause.pageFault else
    let a1 := pteFa e0 + (va / 2 ^ 29 % 8192) * 8
    match s.tableEntry die a1 with
    | none => .error (s.tableCause die a1)
    | some e1 =>
      if !bitN e1 0 || pteReserved e1 then .error Cause.pageFault
      else if bitN e1 1 then
        if pteFa e1 % 2 ^ 29 ≠ 0 then .error Cause.pageFault
        else .ok ⟨0, va / 2 ^ 29 * 8192, pteFa e1, bitN e1 4, bitN e1 5, bitN e1 6, 8192⟩
      else
        let a2 := pteFa e1 + (va / 2 ^ 16 % 8192) * 8
        match s.tableEntry die a2 with
        | none => .error (s.tableCause die a2)
        | some e2 =>
          if !bitN e2 0 || !bitN e2 1 || pteReserved e2 || bitsN e2 2 2 == 3 then .error Cause.pageFault
          else
            let n := match bitsN e2 2 2 with | 0 => 1 | 1 => 32 | _ => 512
            let ix := va / 2 ^ 16 % 8192
            if n ≠ 1 && s.sizeAgrees die (pteFa e1) ix n e2 then
              .ok ⟨0, va / 65536 / n * n, pteFa e2 - ix % n * 65536, bitN e2 4, bitN e2 5, bitN e2 6, n⟩
            else .ok ⟨0, va / 65536, pteFa e2, bitN e2 4, bitN e2 5, bitN e2 6, 1⟩

/-- The entry is one of a context for a 64 KiB page. -/
def TlbEntry.covers (e : TlbEntry) (ctx page : Nat) : Bool :=
  e.ctx == ctx && decide (e.vpage ≤ page) && decide (page < e.vpage + e.pages)

/-- The frame address of a page that an entry covers. -/
def TlbEntry.frameAt (e : TlbEntry) (page : Nat) : Nat := e.fa + (page - e.vpage) * 65536

/-- The entry a die's TLBs hold for a page of a context: the L1 TLB of the core that asks, where a core does, then the
last-level TLB (R208). -/
def Die.cached (d : Die) (core : Option Nat) (ctx page : Nat) : Option TlbEntry :=
  let l1 : List TlbEntry := match core with | some k => d.l1Tlb.getD (k % 16) [] | none => []
  (l1.find? (fun e => e.covers ctx page)).or (d.tlb.find? (fun e => e.covers ctx page))

/-- R208: the translation of a page of a context as a die sees it, or one of its cores, through the TLBs. -/
def State.pageOf (s : State) (die ctx va : Nat) (core : Option Nat := none) : Except Nat TlbEntry :=
  match (s.die die).cached core ctx (va / 65536) with
  | some e => .ok e
  | none => match s.walk die (s.context ctx).ptRoot.toNat va with
    | .ok e => .ok { e with ctx := ctx }
    | .error c => .error c

/-- R205 orders 4 to 8 for a frame address whose frame has the entry `f`. -/
def State.resolveAs (s : State) (die : Nat) (secure : Bool) (acc : Access) (fa : Nat) (f : Fme) : Except Nat Xl :=
  if f.bad then .error Cause.frameFault
  else
    let pl := f.place die (fa % 65536)
    let ps := s.placesOf f die (fa % 65536) acc
    if !secure && (f.s || ps.any s.regionSecure) then .error Cause.world
    else if f.p && acc != .page then .error Cause.poison
    else match f.kind, acc with
      | 4, .braidRead => .ok ⟨fa / 65536, fa, f, none⟩
      | 4, .braidWrite => .ok ⟨fa / 65536, fa, f, none⟩
      | 4, .page => .ok ⟨fa / 65536, fa, f, none⟩
      | 4, .shadow => .ok ⟨fa / 65536, fa, f, none⟩
      | 4, .atomic => .error Cause.atomicNot
      | 4, _ => .error Cause.braidAccess
      | _, _ =>
        match pl with
        | none => .error Cause.frameFault
        | some p => if ps.any (s.placeLost die) then .error Cause.memLost else .ok ⟨fa / 65536, fa, f, some p⟩

/-- R205 orders 4 to 8 for a frame address. -/
def State.resolve (s : State) (die : Nat) (secure : Bool) (acc : Access) (fa : Nat) : Except Nat Xl :=
  s.resolveAs die secure acc fa (s.fme die (fa / 65536))

/-- R205: translate a virtual address of a context for an access made on a die, by one of its cores where a core makes it. -/
def State.translate (s : State) (die ctx : Nat) (secure : Bool) (acc : Access) (va : Word) (core : Option Nat := none) :
    Except Nat Xl :=
  if bitsN va 48 16 != 0 then .error Cause.addressRange
  else match s.pageOf die ctx va.toNat core with
    | .error c => .error c
    | .ok e =>
      if (acc.needsR && !e.r) || (acc.needsW && !e.w) || (acc == .exec && !e.x) then .error Cause.protection
      else s.resolve die secure acc (e.frameAt (va.toNat / 65536) + va.toNat % 65536)

/-- R228: an access at the address of a held translation goes through its page, and, where the frame's entry has been
withdrawn since, through the entry that is held. One that the held translation does not allow is translated afresh. -/
def State.translateHeld (s : State) (h : Option Hold) (die ctx : Nat) (secure : Bool) (acc : Access) (va : Word)
    (core : Option Nat := none) : Except Nat Xl :=
  match h with
  | none => s.translate die ctx secure acc va core
  | some h =>
    let e := h.page
    let fa := e.frameAt (va.toNat / 65536) + va.toNat % 65536
    if h.va ≠ va || (acc.needsR && !e.r) || (acc.needsW && !e.w) then s.translate die ctx secure acc va core
    else match s.resolve die secure acc fa, s.resolveAs die secure acc fa h.fme with
      | .ok x, _ => .ok x
      | .error _, .ok x => .ok x
      | .error _, .error _ => s.translate die ctx secure acc va core

/-- The translation of an address, as it is held for a member that resumes there (R228). -/
def State.holdOf (s : State) (die ctx : Nat) (va : Word) (core : Option Nat) : Option Hold :=
  match s.pageOf die ctx va.toNat core with
  | .ok e => some ⟨va, e, s.fme die (e.frameAt (va.toNat / 65536) / 65536)⟩
  | .error _ => none

/-- A table read that the walk of a page would make waits for a PC copy (R211). -/
def State.walkBusy (s : State) (die ctx : Nat) (va : Nat) (core : Option Nat := none) : Bool :=
  let busy (fa : Nat) : Bool :=
    match (s.fme die (fa / 65536)).place die (fa % 65536) with
    | some p => s.placeBusy p
    | none => false
  let root := (s.context ctx).ptRoot.toNat
  let a0 := root / 65536 * 65536 + (va / 2 ^ 42 % 64) * 8
  if !s.copying || ((s.die die).cached core ctx (va / 65536)).isSome then false
  else busy a0 || (match s.tableEntry die a0 with
    | none => false
    | some e0 =>
      let a1 := pteFa e0 + (va / 2 ^ 29 % 8192) * 8
      busy a1 || (match s.tableEntry die a1 with
        | none => false
        | some e1 => !bitN e1 1 && busy (pteFa e1 + (va / 2 ^ 16 % 8192) * 8)))

/-- An access waits: a write to a migrating frame (R216), or a PC that it or its walk needs is being copied (R211). -/
def State.accessHeld (s : State) (die ctx : Nat) (secure : Bool) (acc : Access) (va : Word) (core : Option Nat := none) : Bool :=
  s.walkBusy die ctx va.toNat core ||
  (match s.translate die ctx secure acc va core with
    | .ok x => (acc.needsW && x.fme.w) || (match x.place with | some p => s.placeBusy p | none => false)
    | .error _ => false)

/-- The frame an address of a context lies in, as a die sees it; 0 where it has none. -/
def State.frameOf (s : State) (die ctx : Nat) (va : Word) : Nat :=
  match s.pageOf die ctx va.toNat with
  | .ok e => e.frameAt (va.toNat / 65536) / 65536
  | .error _ => 0

/-- The place was named by a frame-map entry but is not one of the spaces' bytes. -/
def Xl.beyond (x : Xl) : Bool := match x.place with | some p => !p.exists | none => false

/-- Largest number of entries of an L1 TLB, and of a die's last-level TLB and frame-map cache (R208). -/
def l1TlbCapacity : Nat := 1024
def tlbCapacity : Nat := 12288
def fmCacheCapacity : Nat := 8192

/-- A TLB takes an entry, where it has none for the page. -/
def fillTlb (l : List TlbEntry) (size ctx page : Nat) (e : Except Nat TlbEntry) : List TlbEntry :=
  if l.any (fun x => x.covers ctx page) then l
  else match e with
    | .ok e => (e :: l).take size
    | .error _ => l

/-- R208: after an access both maps' entries are cached on the die, and in the L1 TLB of the core that made it. -/
def State.cacheXl (s : State) (die ctx : Nat) (va : Word) (x : Xl) (core : Option Nat := none) : State :=
  let d := s.die die
  let page := va.toNat / 65536
  let e := s.pageOf die ctx va.toNat core
  let tlb := fillTlb d.tlb tlbCapacity ctx page e
  let l1 := match core with
    | some k => d.l1Tlb.set (k % 16) (fillTlb (d.l1Tlb.getD (k % 16) []) l1TlbCapacity ctx page e)
    | none => d.l1Tlb
  let fmc := match d.fmCache.find x.frame with
    | some _ => d.fmCache
    | none => if d.fmCache.length < fmCacheCapacity then d.fmCache.set x.frame (s.fmap.getD x.frame {}) else d.fmCache
  s.setDie die { d with tlb := tlb, l1Tlb := l1, fmCache := fmc }

/-! ## Reading and writing places -/

/-- Bytes of a place. -/
def State.readPlace (s : State) (p : Place) (n : Nat) : List Byte := Memory.readBytes s.mem p.key n

/-- Any byte of the access lies in a poisoned line (R320). -/
def State.poisoned (s : State) (p : Place) (n : Nat) : Bool :=
  (List.range ((p.key % 64 + n + 63) / 64)).any (fun i => s.poison.contains (lineOf p.key + i))

def State.setPoison (s : State) (line : Nat) (on : Bool) : State :=
  if on then (if s.poison.contains line then s else { s with poison := line :: s.poison })
  else { s with poison := s.poison.filter (· != line) }

/-! ## Lines in the caches (R222, R225, R238, R273; assumption 22)

`mem` holds the value of every line in its coherence order, which every read returns. A line that some cache holds dirty
has, beside it, what lies under the cache: for an L1 line the bytes its home holds, for an MSC line the bytes of memory. -/

/-- The 64 bytes of a line as a read returns them. -/
def State.lineBytes (s : State) (line : Nat) : List Byte := Memory.readBytes s.mem (line * 64) 64

/-- The dirty L1 copy of a line. -/
def State.inL1 (s : State) (line : Nat) : Option L1Line := s.l1.find? (fun l => l.line == line)

/-- The line that holds the bytes of a line which may be an alias (R273), and whether a line has aliases at all. -/
def State.aliasOf (s : State) (line : Nat) : Nat := s.aliases.getD line line
def State.aliased (s : State) (line : Nat) : Bool :=
  (s.aliases.find line).isSome || s.aliases.any (fun (_, k) => k == line)

/-- The bytes memory itself holds of a line, under every cache. -/
def State.memLine (s : State) (line : Nat) : List Byte :=
  match s.counted.find line with
  | some c => c.old
  | none => match s.msc.find line with
    | some bs => bs
    | none => match s.inL1 line with
      | some l => l.under
      | none => match s.aliasMem.find (s.aliasOf line) with
        | some v => leBytes 64 v.toNat
        | none => s.lineBytes line

/-- The die whose MSC is the home of a line: die 0 for host locations (R222). -/
def lineHome (line : Nat) : Nat := if line * 64 < 2 ^ 44 then line * 64 / 2 ^ 40 % 8 else 0

/-- Lines of a die's MSC: 96 MiB (R225). -/
def mscCapacity : Nat := 1572864

/-- Lines that a die's MSC holds beyond memory: dirty ones, and those with a reader count. -/
def State.mscHeld (s : State) (die : Nat) : Nat :=
  s.msc.countP (fun (l, _) => lineHome l == die) + s.counted.countP (fun (l, _) => lineHome l == die)

/-- The MSC of a line's home holds no more lines than it has room for: another one goes to memory (R225; assumption 22). -/
def State.fitMsc (s : State) (line : Nat) : State :=
  if s.msc.length + s.counted.length ≤ mscCapacity || s.mscHeld (lineHome line) ≤ mscCapacity then s
  else match s.msc.find? (fun (l, _) => l != line && lineHome l == lineHome line && !s.aliased l && (s.inL1 l).isNone) with
    | some (l, _) => { s with msc := s.msc.erase l }
    | none => s

/-- A line leaves the L1s: its home holds it dirty (R244). -/
def State.leaveL1 (s : State) (line : Nat) : State :=
  match s.inL1 line with
  | none => s
  | some l =>
    ({ s with l1 := s.l1.filter (fun x => x.line != line)
              msc := match s.msc.find line with | some _ => s.msc | none => s.msc.set line l.under } : State).fitMsc line

/-- Memory has taken a line with aliases: lines of the same bytes that no cache holds read as it does (R273). -/
def State.spreadAlias (s : State) (line : Nat) : State :=
  let c := s.aliasOf line
  let bs := s.lineBytes line
  let s := { s with aliasMem := s.aliasMem.set c (BitVec.ofNat 512 (leNat bs)) }
  (c :: ((s.aliases.filter (fun (_, k) => k == c)).map Prod.fst)).foldl (fun s y =>
    if y = line then s
    else match s.msc.find y with
      | some _ => { s with msc := s.msc.set y bs }
      | none =>
        if (s.inL1 y).isSome || s.aliasSeen.contains y then s else { s with mem := Memory.writeBytes s.mem (y * 64) bs }) s

/-- A line is written back from every cache to memory; a reader count is cleared (R238, R244). -/
def State.writeBack (s : State) (line : Nat) : State :=
  let s := s.leaveL1 line
  let dirty := (s.msc.find line).isSome || (s.counted.find line).isSome
  let s := { s with msc := s.msc.erase line, counted := s.counted.erase line }
  if dirty && s.aliased line then s.spreadAlias line else s

/-- A dirty line is dropped from the L1s: it reads as its home holds it (R244). -/
def State.dropL1 (s : State) (line : Nat) : State :=
  match s.inL1 line with
  | none => s
  | some l => { s with l1 := s.l1.filter (fun x => x.line != line), mem := Memory.writeBytes s.mem (line * 64) l.under }

/-- A line is dropped from every cache: it reads as memory holds it (R238, R244, R273). -/
def State.dropLine (s : State) (line : Nat) : State :=
  let bs := s.memLine line
  let bs := if s.aliased line then (match s.aliasMem.find (s.aliasOf line) with | some v => leBytes 64 v.toNat | none => bs) else bs
  let held := (s.inL1 line).isSome || (s.msc.find line).isSome || (s.counted.find line).isSome || s.aliasSeen.contains line
  if held then
    { s with l1 := s.l1.filter (fun x => x.line != line), msc := s.msc.erase line, counted := s.counted.erase line
             aliasSeen := s.aliasSeen.filter (· != line), mem := Memory.writeBytes s.mem (line * 64) bs }
  else s

/-- A dirty line leaves a cache on its own (R225, R238); a clean copy of a line with aliases leaves in the same way. -/
def State.evictLine (s : State) (line : Nat) (all : Bool) : State :=
  if !all then s.leaveL1 line
  else
    let s := s.writeBack line
    if s.aliasSeen.contains line then s.dropLine line else s

/-- Way slots of a set that a core's L1 keeps for lines (R222, R226). -/
def State.lineWays (s : State) (core : Nat) : Nat := 16 - (s.core core).ways

/-- The L1 of a core holds no more lines of a set than it has ways: the one held longest leaves (assumption 22). -/
def State.fitL1 (s : State) (core line : Nat) : State :=
  let set := s.l1.filter (fun l => l.core == core && l.line % 1024 == line % 1024)
  if set.length ≤ s.lineWays core then s
  else match set with
    | [] => s
    | l :: _ => s.leaveL1 l.line

/-- The lines of ways that a core's L1 has given up are written back (R245). -/
def State.fitCore (s : State) (core : Nat) : State :=
  ((s.l1.filter (fun l => l.core == core)).map L1Line.line).foldl (fun s line => s.fitL1 core line) s

/-- What the caches do as a line is written: in the L1 of a core, or at its home (R222, R225). A line with a reader count is
written back with the new data (R238). -/
def State.takeLine (s : State) (core : Option Nat) (line : Nat) : State :=
  match s.counted.find line with
  | some _ => { s with counted := s.counted.erase line }
  | none =>
    let s := if s.aliased line && !s.aliasSeen.contains line then { s with aliasSeen := line :: s.aliasSeen } else s
    match core with
    | some k =>
      let s : State := match s.inL1 line with
        | some l => { s with l1 := s.l1.map (fun (x : L1Line) => if x.line = line then { l with core := k } else x) }
        | none => { s with l1 := s.l1 ++ [(⟨k, line, s.lineBytes line⟩ : L1Line)] }
      s.fitL1 k line
    | none =>
      let s := s.leaveL1 line
      match s.msc.find line with
      | some _ => s
      | none => ({ s with msc := s.msc.set line (s.lineBytes line) } : State).fitMsc line

/-- The caches take lines `lo` to `lo + n - 1`. -/
def State.takeLines (s : State) (core : Option Nat) (lo n : Nat) : State :=
  match n with
  | 0 => s
  | k + 1 => State.takeLines (s.takeLine core lo) core (lo + 1) k

/-- Write bytes at a key through the caches; a line replaced whole loses its poison (R321). -/
def State.writeAt (s : State) (key : Nat) (bs : List Byte) (core : Option Nat := none) : State :=
  let s := s.takeLines core (lineOf key) ((key % 64 + bs.length + 63) / 64)
  let s := if key % 64 = 0 && bs.length % 64 = 0 && !s.poison.isEmpty then
      { s with poison := s.poison.filter (fun l => !(decide (lineOf key ≤ l) && decide (l < lineOf key + bs.length / 64))) }
    else s
  { s with mem := Memory.writeBytes s.mem key bs }

/-- Write bytes at a place. -/
def State.writePlace (s : State) (p : Place) (bs : List Byte) : State := s.writeAt p.key bs

/-- R238: one read instruction has read the line: its count falls, and at 0 memory's own bytes return. -/
def State.countRead (s : State) (line : Nat) : State :=
  match s.counted.find line with
  | none => s
  | some c =>
    if c.count ≤ 1 then { s with counted := s.counted.erase line, mem := Memory.writeBytes s.mem (line * 64) c.old }
    else { s with counted := s.counted.set line { c with count := c.count - 1 } }

/-- Apply `countRead` to every distinct line of a list. -/
def State.countReads (s : State) (lines : List Nat) : State :=
  if s.counted.isEmpty then s else lines.dedup.foldl State.countRead s

/-! ## Homes (R222, R268) -/

/-- The die that holds a place's home (R222). -/
def Place.home (p : Place) : Nat :=
  match p with
  | .deep d _ => d
  | .shallow d _ => d
  | .host _ => 0

/-- The bits of a line that a nibble mask names. -/
def maskBits512 (m : BitVec 128) : BitVec 512 :=
  BitVec.ofNat 512 ((List.range 128).foldl (fun a k => if m.getLsbD k then a + 15 * 2 ^ (4 * k) else a) 0)

/-- Byte `i` of a line after a write of masked nibbles over `old` (R181). -/
def lineByte (m : BitVec 128) (d : BitVec 512) (i : Nat) (old : Byte) : Byte :=
  let y := d.toNat / 2 ^ (8 * i)
  BitVec.ofNat 8 ((if m.getLsbD (2 * i) then y % 16 else old.toNat % 16)
    + 16 * (if m.getLsbD (2 * i + 1) then y / 16 % 16 else old.toNat / 16 % 16))

/-- A die's vector clock counts a write that it sends to another die (R268). -/
def Die.sent (d : Die) (die : Nat) : Die := { d with clock := d.clock.set die (d.clock.getD die 0 + 1) }

/-- A clock takes the larger count of each die. -/
def Die.merge (d : Die) (clock : List Nat) : Die :=
  { d with clock := (List.range 8).foldl (fun t k => if t.getD k 0 < clock.getD k 0 then t.set k (clock.getD k 0) else t) d.clock }

/-- The eight counters of a die's clock. -/
def Die.counts (d : Die) : List Nat := (List.range 8).map (fun k => d.clock.getD k 0)

/-- The count a write's clock holds for a die. -/
def FlyWrite.count (f : FlyWrite) (die : Nat) : Nat := f.clock.getD die 0

/-- Masked nibbles of a line are written at its home, merged with the bytes there (R181); a line replaced whole loses its
poison (R321). -/
def State.writeLine (s : State) (core : Option Nat) (line : Nat) (m : BitVec 128) (d : BitVec 512) : State :=
  let bs := (s.lineBytes line).zipIdx.map (fun (b, i) => lineByte m d i b)
  let s := s.takeLine core line
  let s := if m = BitVec.allOnes 128 ∧ !s.poison.isEmpty then s.setPoison line false else s
  { s with mem := Memory.writeBytes s.mem (line * 64) bs }

/-- The die whose memory holds a line, where a die's does. -/
def lineDie (line : Nat) : Option Nat :=
  let k := line * 64
  let o := k % 2 ^ 40
  if k < 2 ^ 43 then (if o < Config.deepBytes then some (k / 2 ^ 40) else none)
  else if k < 2 ^ 44 then (if o < Config.shallowBytes then some (k / 2 ^ 40 % 8) else none)
  else none

/-- R211: a line's PC is being copied into the spare. -/
def State.lineBusy (s : State) (line : Nat) : Bool :=
  match lineDie line with
  | none => false
  | some d => (s.die d).spareCopying && (s.die d).spareFor == some (pcOfOffset (line * 64 % 2 ^ 40))

/-- A write on its way is applied at its home, whose clock takes the write's (R268). -/
def State.applyFly (s : State) (f : FlyWrite) : State :=
  let s : State := { s with flyWrites := s.flyWrites.erase f }
  (s.writeLine f.core f.line f.mask f.data).setDie f.home ((s.die f.home).merge f.clock)

/-- A partial write that would meet a poisoned line (R321). -/
def State.flyPoisoned (s : State) (f : FlyWrite) : Bool := f.mask != BitVec.allOnes 128 && s.poison.contains f.line

/-- A write on its way to a place's home that the clock of another die names: a write of that die follows it there (R268). -/
def State.owed (s : State) (die : Nat) (p : Place) (f : FlyWrite) : Bool :=
  f.home == p.home && f.fromDie != die && decide (f.count f.fromDie ≤ (s.die die).clock.getD f.fromDie 0)

/-- The writes on their way that are selected arrive, and what left before them; writes that wait for a PC copy (R211) or meet
poison (R321) stay on their way. -/
def State.landWrites (s : State) (sel : FlyWrite → Bool) : State :=
  if s.flyWrites.any sel then
    (s.flyWrites.take (s.flyWrites.length - (s.flyWrites.reverse.findIdx sel))).foldl
      (fun s f => if s.lineBusy f.line || s.flyPoisoned f then s else s.applyFly f) s
  else s

/-- A home applies what the clock of a die names before a write of the die that is applied at once (R268). -/
def State.payOwed (s : State) (die : Nat) (p : Place) : State := s.landWrites (s.owed die p)

/-- A write that reaches another die's home at once: the die counts it, and the home has applied it (R268). -/
def State.clockTo (s : State) (die : Nat) (p : Place) : State :=
  let s := s.payOwed die p
  if p.home = die then s
  else
    let s := s.setDie die ((s.die die).sent die)
    s.setDie p.home ((s.die p.home).merge (s.die die).counts)

/-- What a die reads from another die's home, its later writes follow (R268). -/
def State.clockFrom (s : State) (die : Nat) (p : Place) : State :=
  if p.home = die then s else s.setDie die ((s.die die).merge (s.die p.home).counts)

/-- Line entries of the buffer that R311 counts: one for each line, replica and strip with stored bytes. -/
def bufLines (buf : List BufLine) : Nat :=
  (((buf.filter (fun b => b.op == .store && b.mask != 0)).map (fun b => (b.fa, b.replica, b.strip))).dedup).length

/-! ## Accesses made for a context by the device itself (R216, R246, R305, R88) -/

/-- Read `n` bytes at a virtual address of a context, at system scope. -/
def State.ctxRead (s : State) (die ctx : Nat) (va : Word) (n : Nat) : Except Nat (List Byte) :=
  match s.translate die ctx ((s.context ctx).flags.getLsbD 0) .read va with
  | .error c => .error c
  | .ok x => match x.place with
    | none => .error Cause.frameFault
    | some p => if s.poisoned p n then .error Cause.poison else .ok (s.readPlace p n)

/-- The frame of an address has W = 1, so that a write waits (R216), or a PC it needs is being copied (R211). -/
def State.ctxBlocked (s : State) (die ctx : Nat) (va : Word) : Bool := s.accessHeld die ctx true .write va

/-- Write bytes at a virtual address of a context, at system scope; the bytes lie within one page. -/
def State.ctxWrite (s : State) (die ctx : Nat) (va : Word) (bs : List Byte) : Except Nat State :=
  match s.translate die ctx ((s.context ctx).flags.getLsbD 0) .write va with
  | .error c => .error c
  | .ok x => match x.place with
    | none => .error Cause.frameFault
    | some p =>
      if s.poisoned p bs.length && !(p.key % 64 = 0 && bs.length % 64 = 0) then .error Cause.poison
      else .ok ((s.clockTo die p).writePlace p bs)

end Sys2Proof.Machine
end

