-- ==== Sys2Proof/Machine/Image.lean ====
section
/-! DEFINITION. What a strand's registers give: derived CSRs, vector length, and the save image of R85, written out
and read back. -/

namespace Sys2Proof.Machine

/-! ## Vector length (R79) -/

/-- LANEDIS of a core (R79, R82). -/
def Core.laneDis (c : Core) : BitVec 16 := c.fusedLanes ||| c.retired

/-- Working lane groups, in order. -/
def Core.working (c : Core) : List Nat := (List.range 16).filter (fun k => !c.laneDis.getLsbD k)

/-- Largest power of two not above `n`, from `2^k` down; 0 for 0. -/
def pow2Below (k n : Nat) : Nat :=
  match k with
  | 0 => if 1 ≤ n then 1 else 0
  | j + 1 => if 2 ^ (j + 1) ≤ n then 2 ^ (j + 1) else pow2Below j n

/-- The lane-derived cap (R79). -/
def Core.laneCap (c : Core) : Nat := 512 * pow2Below 4 c.working.length

/-- VLCAP as a write stores it (R80). -/
def clampVlcap (w : Nat) : Nat := min 8192 (max 512 (pow2Below 63 w))

/-- VLB of a strand position (R79); a context keeps its own until it has left a core that no longer holds it (R80, R319). -/
def State.vlb (s : State) (src : Nat) : Nat :=
  let t := s.strand src
  min 8192 (min t.csr.vlcap.toNat (max (s.core (coreOf src)).laneCap (s.context t.bind.ctx).vlb.toNat))

/-! ## STRIPST (R310) -/

/-- The record of the open strip, while it is uncommitted. -/
def Strand.openRec (t : Strand) : Option Strip :=
  match t.openStrip with
  | none => none
  | some i => t.strips.find? (fun r => r.id == i)

/-- STRIPST.WHY. -/
def Strand.stripWhy (t : Strand) : Nat :=
  match t.openRec with
  | some r => r.why
  | none => t.why

/-- CSR 0x011. -/
def Strand.stripst (t : Strand) : Word :=
  BitVec.ofNat 64 (t.rolls.toNat * 2 ^ 32 + min 512 (bufLines t.buf) * 2 ^ 16 + t.stripWhy * 16
    + (if t.stripWhy = 0 then 2 else 0) + (if t.openStrip.isSome then 1 else 0))

/-! ## Registers of the vector side -/

def VecState.reg (x : VecState) (n : Nat) : VReg := x.v.getD n 0
def VecState.fillOf (x : VecState) (n : Nat) : Nat := x.fill.getD n 0
/-- Full/empty bits; all ones where nothing marked the register empty (R69). -/
def VecState.fullOf (x : VecState) (n : Nat) : BitVec 16 := x.full.getD n 0xFFFF
/-- A mask register; m0 reads as all ones (R67). -/
def VecState.mask (x : VecState) (n : Nat) : MReg := if n = 0 then BitVec.allOnes 16384 else x.m.getD n 0
def VecState.grant (x : VecState) (n : Nat) : Word := x.g.getD n 0
/-- EVIX of class `k`, 0 NV to 6 RG (R28, R8). -/
def VecState.evixOf (x : VecState) (k : Nat) : Word := x.evix.getD k (BitVec.allOnes 64)

/-- Element `i` of a group at width `w`. -/
def elem (grp w i : Nat) : Nat := (grp >>> (i * w)) % 2 ^ w

/-- A group with element `i` replaced. -/
def setElem (grp w i y : Nat) : Nat := grp ^^^ ((elem grp w i ^^^ (y % 2 ^ w)) <<< (i * w))

/-! ## The save image (R85) -/

/-- One queued-convoy entry, 256 bytes: the members still to be performed. -/
def Convoy.toBytes (c : Convoy) : List Byte :=
  let ws := c.words.drop c.next
  let os := (c.ops.drop c.next)
  let word (k : Nat) : List Byte := leBytes 4 ((ws.getD k 0).toNat)
  let opnd (k : Nat) : List Byte := leBytes 8 (os.getD k (0, 0)).1.toNat ++ leBytes 8 (os.getD k (0, 0)).2.toNat
  word 0 ++ word 1 ++ word 2 ++ word 3 ++ leBytes 8 c.pc.toNat
    ++ leBytes 8 ((ws.length - 1) % 4 + (if c.mxInterrupted then 256 else 0) + (if c.cpLine.isSome then 512 else 0)
        + (if c.resumed then 1024 else 0))
    ++ opnd 0 ++ opnd 1 ++ opnd 2 ++ opnd 3
    ++ leBytes 8 c.samp.fctl.toNat ++ leBytes 8 c.samp.qcfg.toNat ++ leBytes 8 c.samp.qbase.toNat
    ++ leBytes 8 c.samp.rfdesc.toNat ++ leBytes 8 c.samp.rngseed.toNat ++ leBytes 8 c.samp.mxcfg.toNat
    ++ leBytes 8 c.samp.mxzpa.toNat
    ++ leBytes 8 (c.samp.vl % 2 ^ 16 + c.samp.vtype.toNat * 2 ^ 16 + c.samp.rchk.toNat * 2 ^ 26)
    ++ leBytes 8 c.cpyDst.toNat ++ leBytes 8 c.cpyChunk.toNat ++ leBytes 8 (c.cpLine.getD 0) ++ leBytes 8 c.resval.toNat
    ++ leBytes 64 0

/-- The CSR slots 0 to 34 of R82, in order. -/
def Strand.csrSlots (t : Strand) : List Word :=
  [BitVec.ofNat 64 t.csr.vl, t.csr.vtype.zeroExtend 64, t.vec.fstat.zeroExtend 64, t.csr.fctl, t.csr.estart]
    ++ (List.range 7).map t.vec.evixOf
    ++ [t.csr.indmask, t.stripst, t.csr.qcfg, t.csr.qbase, t.csr.rfdesc, t.csr.rngseed, t.csr.tlbase,
        t.csr.rchk.zeroExtend 64, t.csr.mxcfg, t.csr.mxzpa, t.csr.mxprog]
    ++ (List.range 8).map (fun k => t.csr.watch.getD k 0)
    ++ [t.csr.watchctl, t.csr.donemask, t.csr.samplectl, t.csr.tracectl]

/-- Size of the image of a strand (R85). -/
def imageSize (vlb : Nat) (matrix : Bool) : Nat := 11776 + 10 * vlb + (if matrix then 524288 else 0)

/-- The image of a strand: `vlb` its vector length, `gtc` the time of the save. -/
def Strand.image (t : Strand) (src vlb : Nat) (gtc : Word) : List Byte :=
  let vb := vlb / 8
  let qs := t.viq.take 40
  let header := leBytes 4 1 ++ leBytes 4 vlb ++ leBytes 4 t.bind.ctx
    ++ leBytes 4 ((if t.bind.matrix then 1 else 0) + (if t.bind.secure then 2 else 0) + (if t.bind.privileged then 4 else 0)
        + (if t.bind.det then 8 else 0))
    ++ leBytes 8 t.pc.toNat ++ leBytes 8 gtc.toNat ++ leBytes 2 src ++ leBytes 1 qs.length ++ leBytes 1 0
    ++ leBytes 4 (wrapInt 32 t.deficit) ++ leBytes 216 0
  let sregs := leBytes 8 0 ++ ((List.range 31).flatMap (fun k => leBytes 8 (t.s.getD (k + 1) 0).toNat))
  let csrs := (t.csrSlots.flatMap (fun w => leBytes 8 w.toNat)) ++ leBytes (8 * 29) 0
  let grants := (List.range 8).flatMap (fun k => leBytes 8 (t.vec.grant k).toNat)
  let tags := (List.range 64).flatMap (fun k => leBytes 2 (t.vec.fillOf k) ++ leBytes 2 (t.vec.fullOf k).toNat)
  let entries := (qs.flatMap Convoy.toBytes) ++ leBytes (256 * (40 - qs.length)) 0
  let masks := leBytes (2 * vb) 0 ++ (List.range 7).flatMap (fun k => leBytes (2 * vb) (t.vec.mask (k + 1)).toNat)
  let vregs := (List.range 64).flatMap (fun k => leBytes vb (t.vec.reg k).toNat)
  header ++ sregs ++ csrs ++ grants ++ tags ++ leBytes 192 0 ++ entries ++ masks ++ vregs
    ++ (if t.bind.matrix then Memory.readBytes t.slots 0 524288 else [])

/-- Write bytes through a context's tables, page by page (assumption 16). -/
def State.ctxWriteSpan (s : State) (die ctx : Nat) (va : Word) (bs : List Byte) (fuel : Nat) : Except Nat State :=
  match fuel with
  | 0 => .ok s
  | f + 1 =>
    match bs with
    | [] => .ok s
    | _ =>
      let k := 65536 - va.toNat % 65536
      match s.ctxWrite die ctx va (bs.take k) with
      | .error c => .error c
      | .ok s => State.ctxWriteSpan s die ctx (va + BitVec.ofNat 64 k) (bs.drop k) f

/-- Read `n` bytes through a context's tables, page by page; `carry`: poison is no failure, it is carried (R321). -/
def State.ctxReadSpan (s : State) (die ctx : Nat) (carry : Bool) (va : Word) (n fuel : Nat) : Except Nat (List Byte) :=
  match fuel with
  | 0 => .ok []
  | f + 1 =>
    if n = 0 then .ok [] else
    let k := min n (65536 - va.toNat % 65536)
    match s.translate die ctx ((s.context ctx).flags.getLsbD 0) .read va with
    | .error c => .error c
    | .ok x => match x.place with
      | none => .error Cause.braidAccess
      | some p =>
        if !carry && s.poisoned p k then .error Cause.poison
        else match State.ctxReadSpan s die ctx carry (va + BitVec.ofNat 64 k) (n - k) f with
          | .error c => .error c
          | .ok r => .ok (s.readPlace p k ++ r)

/-- Every byte of a span of a context passes a test of its page. -/
def spanAll (p : Word → Bool) (va : Word) (n fuel : Nat) : Bool :=
  match fuel with
  | 0 => true
  | f + 1 =>
    let k := min n (65536 - va.toNat % 65536)
    n == 0 || (p va && spanAll p (va + BitVec.ofNat 64 k) (n - k) f)

/-- The page of a context's address is secure (R77). -/
def State.pageSecure (s : State) (die ctx : Nat) (va : Word) : Bool :=
  match s.translate die ctx true .read va with
  | .ok x => x.fme.s || (match x.place with | some p => s.regionSecure p | none => false)
  | .error _ => false

/-- Poison of the slot lines of an image, from the first slot line on (R321). -/
def State.poisonSlots (s : State) (die ctx : Nat) (va : Word) (marks : List Nat) : State :=
  match marks with
  | [] => s
  | l :: r =>
    match s.translate die ctx true .write (va + BitVec.ofNat 64 (64 * l)) with
    | .ok x => match x.place with
      | some p => State.poisonSlots (s.setPoison (lineOf p.key) true) die ctx va r
      | none => State.poisonSlots s die ctx va r
    | .error _ => State.poisonSlots s die ctx va r

/-- Address of the image of a strand index (R85). -/
def imageAt (c : ContextDesc) (ix : Nat) : Word := c.imageBase + BitVec.ofNat 64 ix * c.imageStride

/-- R73: the image lies within the image area. -/
def imageFits (c : ContextDesc) (ix size : Nat) : Bool :=
  c.imageSize == 0 || decide (ix * c.imageStride.toNat + size ≤ c.imageSize.toNat)

/-- Save a strand's image, laid out for its own VLB (R81, R85, R77): the state with the image written, or the failure that faults the context. -/
def State.saveImage (s : State) (src : Nat) : Except Nat State :=
  let t := s.strand src
  let c := s.context t.bind.ctx
  let die := dieOf src
  let vlb := s.vlb src
  let size := imageSize vlb t.bind.matrix
  let va := imageAt c t.bind.ix
  if !imageFits c t.bind.ix size then .error Cause.addressRange
  else if t.bind.secure && !spanAll (s.pageSecure die t.bind.ctx) va size (size / 65536 + 2) then .error Cause.world
  else match s.ctxWriteSpan die t.bind.ctx va (t.image src vlb (s.die die).gtc) (size / 65536 + 2) with
    | .error e => .error e
    | .ok s => .ok (if t.bind.matrix then
        s.poisonSlots die t.bind.ctx (va + BitVec.ofNat 64 (0x2E00 + 80 * (vlb / 8))) t.slotPoison else s)

/-! ## Reading an image back -/

/-- The bytes at an offset. -/
def cut (bs : List Byte) (off n : Nat) : List Byte := (bs.drop off).take n
/-- The number at an offset. -/
def cutN (bs : List Byte) (off n : Nat) : Nat := leNat (cut bs off n)
def cutW (bs : List Byte) (off : Nat) : Word := BitVec.ofNat 64 (cutN bs off 8)
/-- Every byte of a range is zero. -/
def zeroAt (bs : List Byte) (off n : Nat) : Bool := (cut bs off n).all (· == 0)

/-- A queued-convoy entry of an image. -/
def convoyOfBytes (bs : List Byte) (seq : Nat) : Convoy :=
  let info := cutW bs 0x18
  let n := bitsN info 0 2 + 1
  { seq := seq, pc := cutW bs 0x10
    words := (List.range n).map (fun k => BitVec.ofNat 32 (cutN bs (4 * k) 4))
    ops := (List.range n).map (fun k => (cutW bs (0x20 + 16 * k), cutW bs (0x28 + 16 * k)))
    cpyDst := cutW bs 0xA0, cpyChunk := cutW bs 0xA8
    samp := { vl := cutN bs 0x98 2, vtype := BitVec.ofNat 10 (cutN bs 0x98 4 / 2 ^ 16), rchk := BitVec.ofNat 2 (cutN bs 0x98 4 / 2 ^ 26),
              fctl := cutW bs 0x60, qcfg := cutW bs 0x68, qbase := cutW bs 0x70, rfdesc := cutW bs 0x78,
              rngseed := cutW bs 0x80, mxcfg := cutW bs 0x88, mxzpa := cutW bs 0x90 }
    resumed := bitN info 10, stopped := bitN info 10, mxInterrupted := bitN info 8
    cpLine := if bitN info 9 then some (cutN bs 0xB0 8) else none
    resval := cutW bs 0xB8 }

/-- The reserved fields of an entry are zero (R86). -/
def entryReservedOk (bs : List Byte) : Bool :=
  let info := cutW bs 0x18
  bitsN info 2 6 == 0 && bitsN info 11 53 == 0 && bitsN (cutW bs 0x98) 28 36 == 0 && zeroAt bs 0xC0 64

/-- The entries of an image, oldest first. -/
def entriesOf (bs : List Byte) (n seq : Nat) (off : Nat) : List (Convoy × Bool) :=
  match n with
  | 0 => []
  | k + 1 => (convoyOfBytes (cut bs off 256) seq, entryReservedOk (cut bs off 256)) :: entriesOf bs k (seq + 1) (off + 256)

/-- Registers numbered from `k`, each `w` bytes, from an offset; zero registers are left out. -/
def wordsOf (bs : List Byte) (off k n : Nat) : Tbl Word :=
  match n with
  | 0 => []
  | j + 1 => (k, cutW bs off) :: wordsOf bs (off + 8) (k + 1) j

/-- The vector state an image holds. -/
def vecOfImage (bs : List Byte) (vlb : Nat) : VecState :=
  let vb := vlb / 8
  { v := (List.range 64).map (fun k => (k, BitVec.ofNat 8192 (cutN bs (0x2E00 + 16 * vb + k * vb) vb)))
    fill := (List.range 64).map (fun k => (k, cutN bs (0x440 + 4 * k) 2))
    full := (List.range 64).map (fun k => (k, BitVec.ofNat 16 (cutN bs (0x442 + 4 * k) 2)))
    m := (List.range 7).map (fun k => (k + 1, BitVec.ofNat 16384 (cutN bs (0x2E00 + 2 * vb * (k + 1)) (2 * vb))))
    g := wordsOf bs 0x400 0 8
    fstat := BitVec.ofNat 7 (cutN bs (0x200 + 8 * 2) 8)
    evix := wordsOf bs (0x200 + 8 * 5) 0 7 }

/-- The CSRs an image holds, over those a bind gives (R82). -/
def csrsOfImage (bs : List Byte) (base : Csrs) : Csrs :=
  let w (k : Nat) : Word := cutW bs (0x200 + 8 * k)
  { base with
    vl := (w 0).toNat, vtype := BitVec.ofNat 10 (w 1).toNat, fctl := w 3, estart := w 4, indmask := w 12
    qcfg := w 14, qbase := w 15, rfdesc := w 16, rngseed := w 17, tlbase := w 18, rchk := BitVec.ofNat 2 (w 19).toNat
    mxcfg := w 20, mxzpa := w 21, mxprog := w 22, watch := wordsOf bs (0x200 + 8 * 23) 0 8, watchctl := w 31
    donemask := w 32, samplectl := w 33, tracectl := w 34 }

end Sys2Proof.Machine
end

