-- ==== Sys2Proof/WellFormed.lean ====
section
/-! DEFINITION. Which instruction terms the spec allows: values inside the fields of a word that R54, R55,
R49, R51 and the entries call unassigned or reserved. A term of an event row carries no word and is always
well formed: what its operands name is checked by its meaning. -/

namespace Sys2Proof

/-- Why a word is not an instruction (R55), in the order of R56. Every one raises the illegal-instruction trap. -/
inductive DecodeError where
  /-- Fewer than four bytes were given. -/
  | shortBytes
  /-- Majors 0x12, 0x13 and 0x38 to 0x3F (R53). -/
  | reservedMajor
  /-- A minor, function or sub-field value the opcode map does not assign (R53, R54). -/
  | unassignedValue
  /-- A reserved field or bit that is nonzero (R55). -/
  | reservedField
  /-- A CSR number that R82 does not list. -/
  | unlistedCsr
  /-- C = 1 on a major that is not convoy-capable (R57). -/
  | convoyBit
  deriving DecidableEq, Repr

/-- The CSR numbers R82 lists. -/
def csrListed (n : BitVec 12) : Bool :=
  let k := n.toNat
  k ≤ 0x005 || (0x008 ≤ k && k ≤ 0x00E) || (0x010 ≤ k && k ≤ 0x015) || k == 0x020 || k == 0x021
    || (0x040 ≤ k && k ≤ 0x047) || (0x060 ≤ k && k ≤ 0x067) || (0x080 ≤ k && k ≤ 0x083)
    || (0x0C0 ≤ k && k ≤ 0x0C2) || (0x100 ≤ k && k ≤ 0x10B)

/-- A scope code of R54: 0 strand to 4 system. -/
def scopeAssigned (p : BitVec 3) : Bool := p.toNat ≤ 4

/-- R49: with kb = 1 the field vb names a scalar register, so vb<5> and eb are 0. -/
def kbFieldsOk (kb eb : BitVec 1) (vb : BitVec 6) : Bool := kb == 0 || (vb.toNat < 32 && eb == 0)

/-- `none` where the condition holds, the error where it does not. -/
def require (ok : Bool) (e : DecodeError) : Option DecodeError := if ok then none else some e

/-- A scope field out of range is an unassigned value. -/
def scopeError (p : BitVec 3) : Option DecodeError := require (scopeAssigned p) .unassignedValue

/-- What is wrong with the fields of an instruction term, if anything: scopes (R54), grant field codes (R151),
CSR numbers (R82), the vtype policy (R52), the `.vs` rule (R49), the allocation hint and the absent stride of a vlda (R51), the order of a vector
atomic (R236), the scope of vwait (R239) and the level of cflush and cinv (R244). -/
def fieldError : Instr → Option DecodeError
  | .illegalInstruction _ _ => none
  | .trap _ => none
  | .eret => none
  | .endStrand => none
  | .yield => none
  | .brk _ => none
  | .mark _ => none
  | .halt => none
  | .fence x => scopeError x.scope
  | .fsv x => scopeError x.scope
  | .fvs x => scopeError x.scope
  | .fmx x => scopeError x.scope
  | .fcp x => scopeError x.scope
  | .add _ => none
  | .sub _ => none
  | .mul _ => none
  | .mulh _ => none
  | .mulhn _ => none
  | .div _ => none
  | .divn _ => none
  | .rem _ => none
  | .remn _ => none
  | .and_ _ => none
  | .or_ _ => none
  | .xor_ _ => none
  | .sll _ => none
  | .srl _ => none
  | .sra _ => none
  | .slt _ => none
  | .sltn _ => none
  | .min_ _ => none
  | .max_ _ => none
  | .minn _ => none
  | .maxn _ => none
  | .clz _ => none
  | .ctz _ => none
  | .pop _ => none
  | .addi _ => none
  | .andi _ => none
  | .ori _ => none
  | .xori _ => none
  | .slti _ => none
  | .sltni _ => none
  | .slli _ => none
  | .srli _ => none
  | .srai _ => none
  | .sui _ => none
  | .pcui _ => none
  | .ldi8 _ => none
  | .ldi16 _ => none
  | .ldi32 _ => none
  | .ldi64 _ => none
  | .ldn8 _ => none
  | .ldn16 _ => none
  | .ldn32 _ => none
  | .st8 _ => none
  | .st16 _ => none
  | .st32 _ => none
  | .st64 _ => none
  | .amoadd x => scopeError x.scope
  | .amoswap x => scopeError x.scope
  | .amocas x => scopeError x.scope
  | .amomin x => scopeError x.scope
  | .amomax x => scopeError x.scope
  | .amominn x => scopeError x.scope
  | .amomaxn x => scopeError x.scope
  | .amoand x => scopeError x.scope
  | .amoor x => scopeError x.scope
  | .amoxor x => scopeError x.scope
  | .beq _ => none
  | .bne _ => none
  | .blt _ => none
  | .bge _ => none
  | .bltn _ => none
  | .bgen _ => none
  | .bany _ => none
  | .ball _ => none
  | .bnone _ => none
  | .bgz _ => none
  | .bgnz _ => none
  | .jal _ => none
  | .jalr _ => none
  | .csrrw x => require (csrListed x.csr) .unlistedCsr
  | .csrrs x => require (csrListed x.csr) .unlistedCsr
  | .csrrc x => require (csrListed x.csr) .unlistedCsr
  | .csrr x => require (csrListed x.csr) .unlistedCsr
  | .gget x => require (x.field.toNat ≤ 4) .unassignedValue
  | .gset x => require (x.field.toNat ≤ 4) .unassignedValue
  | .gclr _ => none
  | .qpost _ => none
  | .qhash _ => none
  | .bar _ => none
  | .bararr _ => none
  | .barwt _ => none
  | .tlwait _ => none
  | .tlget _ => none
  | .pgmig _ => none
  | .pgcnt _ => none
  | .pgstat _ => none
  | .dpromo _ => none
  | .ddemo _ => none
  | .setvl x => require (x.policy.toNat ≤ 1) .reservedField
  | .rpt _ => none
  | .vadd x => require (kbFieldsOk x.kb x.eb x.vb) .reservedField
  | .vsub x => require (kbFieldsOk x.kb x.eb x.vb) .reservedField
  | .vmul x => require (kbFieldsOk x.kb x.eb x.vb) .reservedField
  | .vmulh x => require (kbFieldsOk x.kb x.eb x.vb) .reservedField
  | .vmulhn x => require (kbFieldsOk x.kb x.eb x.vb) .reservedField
  | .vdiv x => require (kbFieldsOk x.kb x.eb x.vb) .reservedField
  | .vdivn x => require (kbFieldsOk x.kb x.eb x.vb) .reservedField
  | .vrem x => require (kbFieldsOk x.kb x.eb x.vb) .reservedField
  | .vremn x => require (kbFieldsOk x.kb x.eb x.vb) .reservedField
  | .vmin x => require (kbFieldsOk x.kb x.eb x.vb) .reservedField
  | .vmax x => require (kbFieldsOk x.kb x.eb x.vb) .reservedField
  | .vminn x => require (kbFieldsOk x.kb x.eb x.vb) .reservedField
  | .vmaxn x => require (kbFieldsOk x.kb x.eb x.vb) .reservedField
  | .vabs _ => none
  | .vneg _ => none
  | .vabsd x => require (kbFieldsOk x.kb x.eb x.vb) .reservedField
  | .vand x => require (kbFieldsOk x.kb x.eb x.vb) .reservedField
  | .vor x => require (kbFieldsOk x.kb x.eb x.vb) .reservedField
  | .vxor x => require (kbFieldsOk x.kb x.eb x.vb) .reservedField
  | .vnot _ => none
  | .vsll x => require (kbFieldsOk x.kb x.eb x.vb) .reservedField
  | .vsrl x => require (kbFieldsOk x.kb x.eb x.vb) .reservedField
  | .vsra x => require (kbFieldsOk x.kb x.eb x.vb) .reservedField
  | .vrot x => require (kbFieldsOk x.kb x.eb x.vb) .reservedField
  | .vsadd x => require (kbFieldsOk x.kb x.eb x.vb) .reservedField
  | .vssub x => require (kbFieldsOk x.kb x.eb x.vb) .reservedField
  | .vsaddn x => require (kbFieldsOk x.kb x.eb x.vb) .reservedField
  | .vssubn x => require (kbFieldsOk x.kb x.eb x.vb) .reservedField
  | .vwmac x => require (kbFieldsOk x.kb x.eb x.vb) .reservedField
  | .vwmacn x => require (kbFieldsOk x.kb x.eb x.vb) .reservedField
  | .vwmul x => require (kbFieldsOk x.kb x.eb x.vb) .reservedField
  | .vwadd x => require (kbFieldsOk x.kb x.eb x.vb) .reservedField
  | .vfadd x => require (kbFieldsOk x.kb x.eb x.vb) .reservedField
  | .vfsub x => require (kbFieldsOk x.kb x.eb x.vb) .reservedField
  | .vfmul x => require (kbFieldsOk x.kb x.eb x.vb) .reservedField
  | .vfdiv x => require (kbFieldsOk x.kb x.eb x.vb) .reservedField
  | .vfma x => require (kbFieldsOk x.kb x.eb x.vb) .reservedField
  | .vfms x => require (kbFieldsOk x.kb x.eb x.vb) .reservedField
  | .vfmin x => require (kbFieldsOk x.kb x.eb x.vb) .reservedField
  | .vfmax x => require (kbFieldsOk x.kb x.eb x.vb) .reservedField
  | .vfsqrt _ => none
  | .vfabs _ => none
  | .vfneg _ => none
  | .vfclass _ => none
  | .vcmpeq x => require (kbFieldsOk x.kb x.eb x.vb) .reservedField
  | .vcmpne x => require (kbFieldsOk x.kb x.eb x.vb) .reservedField
  | .vcmplt x => require (kbFieldsOk x.kb x.eb x.vb) .reservedField
  | .vcmple x => require (kbFieldsOk x.kb x.eb x.vb) .reservedField
  | .vcmpltn x => require (kbFieldsOk x.kb x.eb x.vb) .reservedField
  | .vcmplen x => require (kbFieldsOk x.kb x.eb x.vb) .reservedField
  | .vfcmpeq x => require (kbFieldsOk x.kb x.eb x.vb) .reservedField
  | .vfcmplt x => require (kbFieldsOk x.kb x.eb x.vb) .reservedField
  | .vfcmple x => require (kbFieldsOk x.kb x.eb x.vb) .reservedField
  | .vfcmpun x => require (kbFieldsOk x.kb x.eb x.vb) .reservedField
  | .mand _ => none
  | .mor _ => none
  | .mxor _ => none
  | .mnot _ => none
  | .mpop _ => none
  | .mfirst _ => none
  | .mset _ => none
  | .mclr _ => none
  | .vsel x => require (kbFieldsOk x.kb x.eb x.vb) .reservedField
  | .vbcast x => require (kbFieldsOk x.kb x.eb x.vb) .reservedField
  | .vmvs _ => none
  | .vmsv _ => none
  | .vslideup _ => none
  | .vslidedn _ => none
  | .vperm _ => none
  | .vid _ => none
  | .vcompress _ => none
  | .vexpand _ => none
  | .vready _ => none
  | .vredsum x => require (kbFieldsOk x.kb x.eb x.vb) .reservedField
  | .vredmin x => require (kbFieldsOk x.kb x.eb x.vb) .reservedField
  | .vredmax x => require (kbFieldsOk x.kb x.eb x.vb) .reservedField
  | .vfredsum x => require (kbFieldsOk x.kb x.eb x.vb) .reservedField
  | .vredand x => require (kbFieldsOk x.kb x.eb x.vb) .reservedField
  | .vredor x => require (kbFieldsOk x.kb x.eb x.vb) .reservedField
  | .vredxor x => require (kbFieldsOk x.kb x.eb x.vb) .reservedField
  | .vfredmax x => require (kbFieldsOk x.kb x.eb x.vb) .reservedField
  | .vscan x => require (kbFieldsOk x.kb x.eb x.vb) .reservedField
  | .vfscan x => require (kbFieldsOk x.kb x.eb x.vb) .reservedField
  | .vscanmax x => require (kbFieldsOk x.kb x.eb x.vb) .reservedField
  | .vcvt _ => none
  | .vqblk _ => none
  | .vdqblk _ => none
  | .vldg _ => none
  | .vstg _ => none
  | .rdec _ => none
  | .renc _ => none
  | .radd _ => none
  | .rsub _ => none
  | .rmin _ => none
  | .rmax _ => none
  | .fdec _ => none
  | .fenc _ => none
  | .rdsum _ => none
  | .rlen _ => none
  | .rpos _ => none
  | .rfilt _ => none
  | .vld x => require (x.hint ≠ 3) .reservedField
  | .vlds x => require (x.hint ≠ 3) .reservedField
  | .vldx x => require (x.hint ≠ 3) .reservedField
  | .vlda x => require (x.hint ≠ 3 ∧ (x.q = 1 ∨ x.sx = 0)) .reservedField
  | .vst x => require (x.hint ≠ 3) .reservedField
  | .vsts x => require (x.hint ≠ 3) .reservedField
  | .vstx x => require (x.hint ≠ 3) .reservedField
  | .vstm _ => none
  | .vamoadd x => require (x.order ≠ 3) .reservedField
  | .vamoswap x => require (x.order ≠ 3) .reservedField
  | .vamocas x => require (x.order ≠ 3) .reservedField
  | .vamomin x => require (x.order ≠ 3) .reservedField
  | .vamomax x => require (x.order ≠ 3) .reservedField
  | .vstrc _ => none
  | .vwait x => require (x.scope.toNat ≤ 2) .unassignedValue
  | .mjld _ => none
  | .mjst _ => none
  | .mjrep _ => none
  | .cflush x => require (x.level.toNat ≤ 1) .reservedField
  | .cinv x => require (x.level.toNat ≤ 1) .reservedField
  | .l1cfg _ => none
  | .cpy x => require (x.hint ≠ 3) .reservedField
  | .cpyv x => require (x.hint ≠ 3) .reservedField
  | .cpyw _ => none
  | .mma _ => none
  | .mmaz _ => none
  | .mxsum _ => none
  | .convoyRetire _ => none
  | .elementGroupLand _ _ => none
  | .conditionClears _ => none
  | .eddyRecheck _ _ => none
  | .eddyCheckLimit _ => none
  | .laneGroupRetire _ _ _ => none
  | .disagreementCountClear _ => none
  | .stripCommit _ => none
  | .bufferOverflow _ => none
  | .uncorrectableError _ _ _ _ => none
  | .haltingRecordPost _ => none
  | .copyEngineStart _ => none
  | .followOnIssue _ => none
  | .timelineCounterWrite _ _ => none
  | .matrixSlice _ _ => none
  | .matrixEngineFailed _ => none
  | .contextCreate _ => none
  | .batchCommit _ _ _ => none
  | .contextDestroy _ => none
  | .contextFaultClear _ => none
  | .contextDeclaredFailed _ => none
  | .groupPreempt _ => none
  | .groupSaved _ => none
  | .groupResume _ => none
  | .resumeAtNewPc _ _ => none
  | .queueCreate _ => none
  | .queueStart _ => none
  | .queueStop _ => none
  | .queueSkip _ _ => none
  | .queueRetry _ => none
  | .queueDestroy _ => none
  | .tailStoreNoticed _ => none
  | .entryFetch _ => none
  | .nopCmd _ => none
  | .launchCmd _ => none
  | .copyCmd _ => none
  | .waitcCmd _ => none
  | .signalCmd _ => none
  | .hashCmd _ => none
  | .fenceCommand _ => none
  | .waitcRecheck _ => none
  | .waitcTimeout _ => none
  | .launchComplete _ => none
  | .copyCommandComplete _ => none
  | .doneAdvance _ => none
  | .notifyMessage _ => none
  | .doorbellTailWrite _ _ => none
  | .objectLoad _ => none
  | .objectUnload _ _ => none
  | .barrierEntryWrite _ _ _ _ _ => none
  | .migrationComplete _ => none
  | .trackerThreshold _ _ _ => none
  | .trackerPeriodEnd _ => none
  | .fmeWrite _ _ _ => none
  | .fminvWrite _ => none
  | .promoteCopyComplete _ _ => none
  | .scrubPass _ _ => none
  | .pcFailure _ _ => none
  | .spareCopyComplete _ _ => none
  | .stackLost _ => none
  | .replicaAnswer _ => none
  | .replicaWrite _ => none
  | .homeWriteApply _ _ => none
  | .portEnable _ => none
  | .trainingComplete _ _ => none
  | .trainingFailed _ => none
  | .lanesLost _ _ => none
  | .portFence _ => none
  | .replayLimit _ => none
  | .portRetrain _ => none
  | .partnerLost _ => none
  | .flitCrcFailure _ => none
  | .linkstatClear _ _ => none
  | .hostMemoryRead _ _ _ => none
  | .hostMemoryWrite _ _ _ => none
  | .linkCompletion _ => none
  | .worldBitWrite _ _ => none
  | .traceLossRecord _ => none
  | .bootStart _ => none
  | .stage1 _ _ => none
  | .stage2 _ => none
  | .bootWatchdog => none
  | .powerFault => none
  | .thermalTrip => none
  | .bootok => none
  | .clrcnt => none
  | .restart => none
  | .gtcCorrection _ => none
  | .powerCapStep _ => none
  | .registerWrite _ => none
  | .convoyIssue _ _ => none
  | .standbyPowerLoss => none

/-- The term is one the spec allows. -/
def WellFormed (i : Instr) : Bool := (fieldError i).isNone

end Sys2Proof
end

