-- ==== Sys2Proof/Decode.lean ====
section
/-! DEFINITION. The decoder, total on every word, and the encoder, both written from the formats of R47 to R52 and
the opcode map of R53 and R54. -/

namespace Sys2Proof

/-- Field <lo+n-1:lo> of a word. -/
def fld (w : BitVec 32) (lo n : Nat) : BitVec n := BitVec.ofNat n (w.toNat / 2 ^ lo)

/-- Field <lo+n-1:lo> of a word as a number. -/
def fldN (w : BitVec 32) (lo n : Nat) : Nat := w.toNat / 2 ^ lo % 2 ^ n

/-- Read the fields of Code12. -/
def Code12.of (w : BitVec 32) : Code12 :=
  ⟨fld w 0 12⟩

/-- The fields of Code12 at their places, the bits they leave given by `base`. -/
def Code12.word (x : Code12) (base : Nat) : BitVec 32 :=
  BitVec.ofNat 32 (x.code.toNat * 2 ^ 0 + base)

/-- Read the fields of FenceOp. -/
def FenceOp.of (w : BitVec 32) : FenceOp :=
  ⟨fld w 3 3, fld w 0 3⟩

/-- The fields of FenceOp at their places, the bits they leave given by `base`. -/
def FenceOp.word (x : FenceOp) (base : Nat) : BitVec 32 :=
  BitVec.ofNat 32 (x.kinds.toNat * 2 ^ 3 + x.scope.toNat * 2 ^ 0 + base)

/-- Read the fields of ScopeOp. -/
def ScopeOp.of (w : BitVec 32) : ScopeOp :=
  ⟨fld w 0 3⟩

/-- The fields of ScopeOp at their places, the bits they leave given by `base`. -/
def ScopeOp.word (x : ScopeOp) (base : Nat) : BitVec 32 :=
  BitVec.ofNat 32 (x.scope.toNat * 2 ^ 0 + base)

/-- Read the fields of SReg3. -/
def SReg3.of (w : BitVec 32) : SReg3 :=
  ⟨fld w 20 5, fld w 15 5, fld w 10 5⟩

/-- The fields of SReg3 at their places, the bits they leave given by `base`. -/
def SReg3.word (x : SReg3) (base : Nat) : BitVec 32 :=
  BitVec.ofNat 32 (x.sd.toNat * 2 ^ 20 + x.sa.toNat * 2 ^ 15 + x.sb.toNat * 2 ^ 10 + base)

/-- Read the fields of SReg2. -/
def SReg2.of (w : BitVec 32) : SReg2 :=
  ⟨fld w 20 5, fld w 15 5⟩

/-- The fields of SReg2 at their places, the bits they leave given by `base`. -/
def SReg2.word (x : SReg2) (base : Nat) : BitVec 32 :=
  BitVec.ofNat 32 (x.sd.toNat * 2 ^ 20 + x.sa.toNat * 2 ^ 15 + base)

/-- Read the fields of SImm. -/
def SImm.of (w : BitVec 32) : SImm :=
  ⟨fld w 20 5, fld w 15 5, fld w 0 12⟩

/-- The fields of SImm at their places, the bits they leave given by `base`. -/
def SImm.word (x : SImm) (base : Nat) : BitVec 32 :=
  BitVec.ofNat 32 (x.sd.toNat * 2 ^ 20 + x.sa.toNat * 2 ^ 15 + x.imm.toNat * 2 ^ 0 + base)

/-- Read the fields of SShift. -/
def SShift.of (w : BitVec 32) : SShift :=
  ⟨fld w 20 5, fld w 15 5, fld w 0 6⟩

/-- The fields of SShift at their places, the bits they leave given by `base`. -/
def SShift.word (x : SShift) (base : Nat) : BitVec 32 :=
  BitVec.ofNat 32 (x.sd.toNat * 2 ^ 20 + x.sa.toNat * 2 ^ 15 + x.amount.toNat * 2 ^ 0 + base)

/-- Read the fields of SUpper. -/
def SUpper.of (w : BitVec 32) : SUpper :=
  ⟨fld w 20 5, fld w 0 20⟩

/-- The fields of SUpper at their places, the bits they leave given by `base`. -/
def SUpper.word (x : SUpper) (base : Nat) : BitVec 32 :=
  BitVec.ofNat 32 (x.sd.toNat * 2 ^ 20 + x.imm20.toNat * 2 ^ 0 + base)

/-- Read the fields of SStore. -/
def SStore.of (w : BitVec 32) : SStore :=
  ⟨fld w 20 5, fld w 15 5, fld w 0 12⟩

/-- The fields of SStore at their places, the bits they leave given by `base`. -/
def SStore.word (x : SStore) (base : Nat) : BitVec 32 :=
  BitVec.ofNat 32 (x.ss.toNat * 2 ^ 20 + x.sa.toNat * 2 ^ 15 + x.imm.toNat * 2 ^ 0 + base)

/-- Read the fields of AmoOp. -/
def AmoOp.of (w : BitVec 32) : AmoOp :=
  ⟨fld w 20 5, fld w 15 5, fld w 10 5, fld w 7 3, fld w 5 2, fld w 4 1⟩

/-- The fields of AmoOp at their places, the bits they leave given by `base`. -/
def AmoOp.word (x : AmoOp) (base : Nat) : BitVec 32 :=
  BitVec.ofNat 32 (x.sd.toNat * 2 ^ 20 + x.sa.toNat * 2 ^ 15 + x.sb.toNat * 2 ^ 10 + x.scope.toNat * 2 ^ 7 + x.order.toNat * 2 ^ 5 + x.wide.toNat * 2 ^ 4 + base)

/-- Read the fields of BranchOp. -/
def BranchOp.of (w : BitVec 32) : BranchOp :=
  ⟨fld w 20 5, fld w 15 5, fld w 0 12⟩

/-- The fields of BranchOp at their places, the bits they leave given by `base`. -/
def BranchOp.word (x : BranchOp) (base : Nat) : BitVec 32 :=
  BitVec.ofNat 32 (x.sa.toNat * 2 ^ 20 + x.sb.toNat * 2 ^ 15 + x.off.toNat * 2 ^ 0 + base)

/-- Read the fields of MBranchOp. -/
def MBranchOp.of (w : BitVec 32) : MBranchOp :=
  ⟨fld w 20 3, fld w 0 12⟩

/-- The fields of MBranchOp at their places, the bits they leave given by `base`. -/
def MBranchOp.word (x : MBranchOp) (base : Nat) : BitVec 32 :=
  BitVec.ofNat 32 (x.reg.toNat * 2 ^ 20 + x.off.toNat * 2 ^ 0 + base)

/-- Read the fields of JalOp. -/
def JalOp.of (w : BitVec 32) : JalOp :=
  ⟨fld w 20 5, fld w 0 20⟩

/-- The fields of JalOp at their places, the bits they leave given by `base`. -/
def JalOp.word (x : JalOp) (base : Nat) : BitVec 32 :=
  BitVec.ofNat 32 (x.sd.toNat * 2 ^ 20 + x.off20.toNat * 2 ^ 0 + base)

/-- Read the fields of CsrOp. -/
def CsrOp.of (w : BitVec 32) : CsrOp :=
  ⟨fld w 20 5, fld w 15 5, fld w 0 12⟩

/-- The fields of CsrOp at their places, the bits they leave given by `base`. -/
def CsrOp.word (x : CsrOp) (base : Nat) : BitVec 32 :=
  BitVec.ofNat 32 (x.sd.toNat * 2 ^ 20 + x.sa.toNat * 2 ^ 15 + x.csr.toNat * 2 ^ 0 + base)

/-- Read the fields of CsrROp. -/
def CsrROp.of (w : BitVec 32) : CsrROp :=
  ⟨fld w 20 5, fld w 0 12⟩

/-- The fields of CsrROp at their places, the bits they leave given by `base`. -/
def CsrROp.word (x : CsrROp) (base : Nat) : BitVec 32 :=
  BitVec.ofNat 32 (x.sd.toNat * 2 ^ 20 + x.csr.toNat * 2 ^ 0 + base)

/-- Read the fields of GGetOp. -/
def GGetOp.of (w : BitVec 32) : GGetOp :=
  ⟨fld w 20 5, fld w 15 3, fld w 10 5⟩

/-- The fields of GGetOp at their places, the bits they leave given by `base`. -/
def GGetOp.word (x : GGetOp) (base : Nat) : BitVec 32 :=
  BitVec.ofNat 32 (x.sd.toNat * 2 ^ 20 + x.grant.toNat * 2 ^ 15 + x.field.toNat * 2 ^ 10 + base)

/-- Read the fields of GSetOp. -/
def GSetOp.of (w : BitVec 32) : GSetOp :=
  ⟨fld w 20 3, fld w 15 5, fld w 10 5⟩

/-- The fields of GSetOp at their places, the bits they leave given by `base`. -/
def GSetOp.word (x : GSetOp) (base : Nat) : BitVec 32 :=
  BitVec.ofNat 32 (x.grant.toNat * 2 ^ 20 + x.sa.toNat * 2 ^ 15 + x.field.toNat * 2 ^ 10 + base)

/-- Read the fields of GClrOp. -/
def GClrOp.of (w : BitVec 32) : GClrOp :=
  ⟨fld w 20 3⟩

/-- The fields of GClrOp at their places, the bits they leave given by `base`. -/
def GClrOp.word (x : GClrOp) (base : Nat) : BitVec 32 :=
  BitVec.ofNat 32 (x.grant.toNat * 2 ^ 20 + base)

/-- Read the fields of SetvlOp. -/
def SetvlOp.of (w : BitVec 32) : SetvlOp :=
  ⟨fld w 20 5, fld w 15 5, fld w 9 6, fld w 7 2, fld w 5 2⟩

/-- The fields of SetvlOp at their places, the bits they leave given by `base`. -/
def SetvlOp.word (x : SetvlOp) (base : Nat) : BitVec 32 :=
  BitVec.ofNat 32 (x.sd.toNat * 2 ^ 20 + x.sa.toNat * 2 ^ 15 + x.etype.toNat * 2 ^ 9 + x.group.toNat * 2 ^ 7 + x.policy.toNat * 2 ^ 5 + base)

/-- Read the fields of RptOp. -/
def RptOp.of (w : BitVec 32) : RptOp :=
  ⟨fld w 20 5, fld w 15 5, fld w 10 5, fld w 6 4⟩

/-- The fields of RptOp at their places, the bits they leave given by `base`. -/
def RptOp.word (x : RptOp) (base : Nat) : BitVec 32 :=
  BitVec.ofNat 32 (x.sa.toNat * 2 ^ 20 + x.sb.toNat * 2 ^ 15 + x.stagger.toNat * 2 ^ 10 + x.fm1.toNat * 2 ^ 6 + base)

/-- Read the fields of V3. -/
def V3.of (w : BitVec 32) : V3 :=
  ⟨fld w 31 1, fld w 19 6, fld w 13 6, fld w 7 6, fld w 5 2, fld w 4 1, fld w 3 1, fld w 2 1⟩

/-- The fields of V3 at their places, the bits they leave given by `base`. -/
def V3.word (x : V3) (base : Nat) : BitVec 32 :=
  BitVec.ofNat 32 (x.c.toNat * 2 ^ 31 + x.vd.toNat * 2 ^ 19 + x.va.toNat * 2 ^ 13 + x.vb.toNat * 2 ^ 7 + x.mask.toNat * 2 ^ 5 + x.kb.toNat * 2 ^ 4 + x.ea.toNat * 2 ^ 3 + x.eb.toNat * 2 ^ 2 + base)

/-- Read the fields of V3U. -/
def V3U.of (w : BitVec 32) : V3U :=
  ⟨fld w 31 1, fld w 19 6, fld w 13 6, fld w 5 2, fld w 3 1⟩

/-- The fields of V3U at their places, the bits they leave given by `base`. -/
def V3U.word (x : V3U) (base : Nat) : BitVec 32 :=
  BitVec.ofNat 32 (x.c.toNat * 2 ^ 31 + x.vd.toNat * 2 ^ 19 + x.va.toNat * 2 ^ 13 + x.mask.toNat * 2 ^ 5 + x.ea.toNat * 2 ^ 3 + base)

/-- Read the fields of V3Cmp. -/
def V3Cmp.of (w : BitVec 32) : V3Cmp :=
  ⟨fld w 31 1, fld w 19 3, fld w 13 6, fld w 7 6, fld w 5 2, fld w 4 1, fld w 3 1, fld w 2 1⟩

/-- The fields of V3Cmp at their places, the bits they leave given by `base`. -/
def V3Cmp.word (x : V3Cmp) (base : Nat) : BitVec 32 :=
  BitVec.ofNat 32 (x.c.toNat * 2 ^ 31 + x.md.toNat * 2 ^ 19 + x.va.toNat * 2 ^ 13 + x.vb.toNat * 2 ^ 7 + x.mask.toNat * 2 ^ 5 + x.kb.toNat * 2 ^ 4 + x.ea.toNat * 2 ^ 3 + x.eb.toNat * 2 ^ 2 + base)

/-- Read the fields of M3. -/
def M3.of (w : BitVec 32) : M3 :=
  ⟨fld w 31 1, fld w 19 3, fld w 13 3, fld w 7 3, fld w 5 2⟩

/-- The fields of M3 at their places, the bits they leave given by `base`. -/
def M3.word (x : M3) (base : Nat) : BitVec 32 :=
  BitVec.ofNat 32 (x.c.toNat * 2 ^ 31 + x.md.toNat * 2 ^ 19 + x.ma.toNat * 2 ^ 13 + x.mb.toNat * 2 ^ 7 + x.mask.toNat * 2 ^ 5 + base)

/-- Read the fields of M2. -/
def M2.of (w : BitVec 32) : M2 :=
  ⟨fld w 31 1, fld w 19 3, fld w 13 3, fld w 5 2⟩

/-- The fields of M2 at their places, the bits they leave given by `base`. -/
def M2.word (x : M2) (base : Nat) : BitVec 32 :=
  BitVec.ofNat 32 (x.c.toNat * 2 ^ 31 + x.md.toNat * 2 ^ 19 + x.ma.toNat * 2 ^ 13 + x.mask.toNat * 2 ^ 5 + base)

/-- Read the fields of MCount. -/
def MCount.of (w : BitVec 32) : MCount :=
  ⟨fld w 31 1, fld w 19 5, fld w 13 3, fld w 5 2⟩

/-- The fields of MCount at their places, the bits they leave given by `base`. -/
def MCount.word (x : MCount) (base : Nat) : BitVec 32 :=
  BitVec.ofNat 32 (x.c.toNat * 2 ^ 31 + x.sd.toNat * 2 ^ 19 + x.ma.toNat * 2 ^ 13 + x.mask.toNat * 2 ^ 5 + base)

/-- Read the fields of M1. -/
def M1.of (w : BitVec 32) : M1 :=
  ⟨fld w 31 1, fld w 19 3, fld w 5 2⟩

/-- The fields of M1 at their places, the bits they leave given by `base`. -/
def M1.word (x : M1) (base : Nat) : BitVec 32 :=
  BitVec.ofNat 32 (x.c.toNat * 2 ^ 31 + x.md.toNat * 2 ^ 19 + x.mask.toNat * 2 ^ 5 + base)

/-- Read the fields of VBcastOp. -/
def VBcastOp.of (w : BitVec 32) : VBcastOp :=
  ⟨fld w 31 1, fld w 19 6, fld w 7 6, fld w 5 2, fld w 4 1, fld w 2 1⟩

/-- The fields of VBcastOp at their places, the bits they leave given by `base`. -/
def VBcastOp.word (x : VBcastOp) (base : Nat) : BitVec 32 :=
  BitVec.ofNat 32 (x.c.toNat * 2 ^ 31 + x.vd.toNat * 2 ^ 19 + x.vb.toNat * 2 ^ 7 + x.mask.toNat * 2 ^ 5 + x.kb.toNat * 2 ^ 4 + x.eb.toNat * 2 ^ 2 + base)

/-- Read the fields of VMvsOp. -/
def VMvsOp.of (w : BitVec 32) : VMvsOp :=
  ⟨fld w 31 1, fld w 19 5, fld w 13 6, fld w 3 1⟩

/-- The fields of VMvsOp at their places, the bits they leave given by `base`. -/
def VMvsOp.word (x : VMvsOp) (base : Nat) : BitVec 32 :=
  BitVec.ofNat 32 (x.c.toNat * 2 ^ 31 + x.sd.toNat * 2 ^ 19 + x.va.toNat * 2 ^ 13 + x.ea.toNat * 2 ^ 3 + base)

/-- Read the fields of VMsvOp. -/
def VMsvOp.of (w : BitVec 32) : VMsvOp :=
  ⟨fld w 31 1, fld w 19 6, fld w 7 5, fld w 5 2⟩

/-- The fields of VMsvOp at their places, the bits they leave given by `base`. -/
def VMsvOp.word (x : VMsvOp) (base : Nat) : BitVec 32 :=
  BitVec.ofNat 32 (x.c.toNat * 2 ^ 31 + x.vd.toNat * 2 ^ 19 + x.sb.toNat * 2 ^ 7 + x.mask.toNat * 2 ^ 5 + base)

/-- Read the fields of VSlideOp. -/
def VSlideOp.of (w : BitVec 32) : VSlideOp :=
  ⟨fld w 31 1, fld w 19 6, fld w 13 6, fld w 7 5, fld w 5 2, fld w 3 1⟩

/-- The fields of VSlideOp at their places, the bits they leave given by `base`. -/
def VSlideOp.word (x : VSlideOp) (base : Nat) : BitVec 32 :=
  BitVec.ofNat 32 (x.c.toNat * 2 ^ 31 + x.vd.toNat * 2 ^ 19 + x.va.toNat * 2 ^ 13 + x.sb.toNat * 2 ^ 7 + x.mask.toNat * 2 ^ 5 + x.ea.toNat * 2 ^ 3 + base)

/-- Read the fields of V3NoKb. -/
def V3NoKb.of (w : BitVec 32) : V3NoKb :=
  ⟨fld w 31 1, fld w 19 6, fld w 13 6, fld w 7 6, fld w 5 2, fld w 3 1, fld w 2 1⟩

/-- The fields of V3NoKb at their places, the bits they leave given by `base`. -/
def V3NoKb.word (x : V3NoKb) (base : Nat) : BitVec 32 :=
  BitVec.ofNat 32 (x.c.toNat * 2 ^ 31 + x.vd.toNat * 2 ^ 19 + x.va.toNat * 2 ^ 13 + x.vb.toNat * 2 ^ 7 + x.mask.toNat * 2 ^ 5 + x.ea.toNat * 2 ^ 3 + x.eb.toNat * 2 ^ 2 + base)

/-- Read the fields of VIdOp. -/
def VIdOp.of (w : BitVec 32) : VIdOp :=
  ⟨fld w 31 1, fld w 19 6, fld w 5 2⟩

/-- The fields of VIdOp at their places, the bits they leave given by `base`. -/
def VIdOp.word (x : VIdOp) (base : Nat) : BitVec 32 :=
  BitVec.ofNat 32 (x.c.toNat * 2 ^ 31 + x.vd.toNat * 2 ^ 19 + x.mask.toNat * 2 ^ 5 + base)

/-- Read the fields of VSelMOp. -/
def VSelMOp.of (w : BitVec 32) : VSelMOp :=
  ⟨fld w 31 1, fld w 19 6, fld w 13 6, fld w 7 3, fld w 3 1⟩

/-- The fields of VSelMOp at their places, the bits they leave given by `base`. -/
def VSelMOp.word (x : VSelMOp) (base : Nat) : BitVec 32 :=
  BitVec.ofNat 32 (x.c.toNat * 2 ^ 31 + x.vd.toNat * 2 ^ 19 + x.va.toNat * 2 ^ 13 + x.mb.toNat * 2 ^ 7 + x.ea.toNat * 2 ^ 3 + base)

/-- Read the fields of VReadyOp. -/
def VReadyOp.of (w : BitVec 32) : VReadyOp :=
  ⟨fld w 31 1, fld w 19 5, fld w 13 6⟩

/-- The fields of VReadyOp at their places, the bits they leave given by `base`. -/
def VReadyOp.word (x : VReadyOp) (base : Nat) : BitVec 32 :=
  BitVec.ofNat 32 (x.c.toNat * 2 ^ 31 + x.sd.toNat * 2 ^ 19 + x.va.toNat * 2 ^ 13 + base)

/-- Read the fields of VCvtOp. -/
def VCvtOp.of (w : BitVec 32) : VCvtOp :=
  ⟨fld w 31 1, fld w 19 6, fld w 13 6, fld w 7 6, fld w 5 2, fld w 3 1⟩

/-- The fields of VCvtOp at their places, the bits they leave given by `base`. -/
def VCvtOp.word (x : VCvtOp) (base : Nat) : BitVec 32 :=
  BitVec.ofNat 32 (x.c.toNat * 2 ^ 31 + x.vd.toNat * 2 ^ 19 + x.va.toNat * 2 ^ 13 + x.etype.toNat * 2 ^ 7 + x.mask.toNat * 2 ^ 5 + x.ea.toNat * 2 ^ 3 + base)

/-- Read the fields of V3NoMask. -/
def V3NoMask.of (w : BitVec 32) : V3NoMask :=
  ⟨fld w 31 1, fld w 19 6, fld w 13 6, fld w 7 6, fld w 3 1⟩

/-- The fields of V3NoMask at their places, the bits they leave given by `base`. -/
def V3NoMask.word (x : V3NoMask) (base : Nat) : BitVec 32 :=
  BitVec.ofNat 32 (x.c.toNat * 2 ^ 31 + x.vd.toNat * 2 ^ 19 + x.va.toNat * 2 ^ 13 + x.vb.toNat * 2 ^ 7 + x.ea.toNat * 2 ^ 3 + base)

/-- Read the fields of VGranOp. -/
def VGranOp.of (w : BitVec 32) : VGranOp :=
  ⟨fld w 31 1, fld w 19 6, fld w 13 5, fld w 7 5, fld w 4 3⟩

/-- The fields of VGranOp at their places, the bits they leave given by `base`. -/
def VGranOp.word (x : VGranOp) (base : Nat) : BitVec 32 :=
  BitVec.ofNat 32 (x.c.toNat * 2 ^ 31 + x.vd.toNat * 2 ^ 19 + x.sa.toNat * 2 ^ 13 + x.sb.toNat * 2 ^ 7 + x.g.toNat * 2 ^ 4 + base)

/-- Read the fields of RTypeOp. -/
def RTypeOp.of (w : BitVec 32) : RTypeOp :=
  ⟨fld w 31 1, fld w 19 6, fld w 13 6, fld w 7 6, fld w 4 3, fld w 3 1⟩

/-- The fields of RTypeOp at their places, the bits they leave given by `base`. -/
def RTypeOp.word (x : RTypeOp) (base : Nat) : BitVec 32 :=
  BitVec.ofNat 32 (x.c.toNat * 2 ^ 31 + x.vd.toNat * 2 ^ 19 + x.va.toNat * 2 ^ 13 + x.etype.toNat * 2 ^ 7 + x.g.toNat * 2 ^ 4 + x.ea.toNat * 2 ^ 3 + base)

/-- Read the fields of RArithOp. -/
def RArithOp.of (w : BitVec 32) : RArithOp :=
  ⟨fld w 31 1, fld w 19 6, fld w 13 6, fld w 7 6, fld w 4 3, fld w 3 1, fld w 2 1⟩

/-- The fields of RArithOp at their places, the bits they leave given by `base`. -/
def RArithOp.word (x : RArithOp) (base : Nat) : BitVec 32 :=
  BitVec.ofNat 32 (x.c.toNat * 2 ^ 31 + x.vd.toNat * 2 ^ 19 + x.va.toNat * 2 ^ 13 + x.vb.toNat * 2 ^ 7 + x.g.toNat * 2 ^ 4 + x.ea.toNat * 2 ^ 3 + x.eb.toNat * 2 ^ 2 + base)

/-- Read the fields of RUnOp. -/
def RUnOp.of (w : BitVec 32) : RUnOp :=
  ⟨fld w 31 1, fld w 19 6, fld w 13 6, fld w 4 3, fld w 3 1⟩

/-- The fields of RUnOp at their places, the bits they leave given by `base`. -/
def RUnOp.word (x : RUnOp) (base : Nat) : BitVec 32 :=
  BitVec.ofNat 32 (x.c.toNat * 2 ^ 31 + x.vd.toNat * 2 ^ 19 + x.va.toNat * 2 ^ 13 + x.g.toNat * 2 ^ 4 + x.ea.toNat * 2 ^ 3 + base)

/-- Read the fields of RFiltOp. -/
def RFiltOp.of (w : BitVec 32) : RFiltOp :=
  ⟨fld w 31 1, fld w 19 6, fld w 13 6, fld w 7 3, fld w 4 3, fld w 3 1⟩

/-- The fields of RFiltOp at their places, the bits they leave given by `base`. -/
def RFiltOp.word (x : RFiltOp) (base : Nat) : BitVec 32 :=
  BitVec.ofNat 32 (x.c.toNat * 2 ^ 31 + x.vd.toNat * 2 ^ 19 + x.va.toNat * 2 ^ 13 + x.mb.toNat * 2 ^ 7 + x.g.toNat * 2 ^ 4 + x.ea.toNat * 2 ^ 3 + base)

/-- Read the fields of VMUnit. -/
def VMUnit.of (w : BitVec 32) : VMUnit :=
  ⟨fld w 31 1, fld w 19 6, fld w 14 5, fld w 6 2, fld w 5 1, fld w 3 2⟩

/-- The fields of VMUnit at their places, the bits they leave given by `base`. -/
def VMUnit.word (x : VMUnit) (base : Nat) : BitVec 32 :=
  BitVec.ofNat 32 (x.c.toNat * 2 ^ 31 + x.vd.toNat * 2 ^ 19 + x.sa.toNat * 2 ^ 14 + x.mask.toNat * 2 ^ 6 + x.ex.toNat * 2 ^ 5 + x.hint.toNat * 2 ^ 3 + base)

/-- Read the fields of VMStride. -/
def VMStride.of (w : BitVec 32) : VMStride :=
  ⟨fld w 31 1, fld w 19 6, fld w 14 5, fld w 8 5, fld w 6 2, fld w 5 1, fld w 3 2⟩

/-- The fields of VMStride at their places, the bits they leave given by `base`. -/
def VMStride.word (x : VMStride) (base : Nat) : BitVec 32 :=
  BitVec.ofNat 32 (x.c.toNat * 2 ^ 31 + x.vd.toNat * 2 ^ 19 + x.sa.toNat * 2 ^ 14 + x.sx.toNat * 2 ^ 8 + x.mask.toNat * 2 ^ 6 + x.ex.toNat * 2 ^ 5 + x.hint.toNat * 2 ^ 3 + base)

/-- Read the fields of VMIndex. -/
def VMIndex.of (w : BitVec 32) : VMIndex :=
  ⟨fld w 31 1, fld w 19 6, fld w 14 5, fld w 8 6, fld w 6 2, fld w 5 1, fld w 3 2, fld w 2 1⟩

/-- The fields of VMIndex at their places, the bits they leave given by `base`. -/
def VMIndex.word (x : VMIndex) (base : Nat) : BitVec 32 :=
  BitVec.ofNat 32 (x.c.toNat * 2 ^ 31 + x.vd.toNat * 2 ^ 19 + x.sa.toNat * 2 ^ 14 + x.vx.toNat * 2 ^ 8 + x.mask.toNat * 2 ^ 6 + x.ex.toNat * 2 ^ 5 + x.hint.toNat * 2 ^ 3 + x.q.toNat * 2 ^ 2 + base)

/-- Read the fields of VMAsync. -/
def VMAsync.of (w : BitVec 32) : VMAsync :=
  ⟨fld w 31 1, fld w 19 6, fld w 14 5, fld w 8 5, fld w 6 2, fld w 5 1, fld w 3 2, fld w 2 1⟩

/-- The fields of VMAsync at their places, the bits they leave given by `base`. -/
def VMAsync.word (x : VMAsync) (base : Nat) : BitVec 32 :=
  BitVec.ofNat 32 (x.c.toNat * 2 ^ 31 + x.vd.toNat * 2 ^ 19 + x.sa.toNat * 2 ^ 14 + x.sx.toNat * 2 ^ 8 + x.mask.toNat * 2 ^ 6 + x.ex.toNat * 2 ^ 5 + x.hint.toNat * 2 ^ 3 + x.q.toNat * 2 ^ 2 + base)

/-- Read the fields of VMMulti. -/
def VMMulti.of (w : BitVec 32) : VMMulti :=
  ⟨fld w 31 1, fld w 19 6, fld w 14 5, fld w 6 2, fld w 5 1⟩

/-- The fields of VMMulti at their places, the bits they leave given by `base`. -/
def VMMulti.word (x : VMMulti) (base : Nat) : BitVec 32 :=
  BitVec.ofNat 32 (x.c.toNat * 2 ^ 31 + x.vd.toNat * 2 ^ 19 + x.sa.toNat * 2 ^ 14 + x.mask.toNat * 2 ^ 6 + x.ex.toNat * 2 ^ 5 + base)

/-- Read the fields of VAmoOp. -/
def VAmoOp.of (w : BitVec 32) : VAmoOp :=
  ⟨fld w 31 1, fld w 19 6, fld w 14 5, fld w 8 6, fld w 6 2, fld w 5 1, fld w 3 2, fld w 2 1⟩

/-- The fields of VAmoOp at their places, the bits they leave given by `base`. -/
def VAmoOp.word (x : VAmoOp) (base : Nat) : BitVec 32 :=
  BitVec.ofNat 32 (x.c.toNat * 2 ^ 31 + x.vd.toNat * 2 ^ 19 + x.sa.toNat * 2 ^ 14 + x.vx.toNat * 2 ^ 8 + x.mask.toNat * 2 ^ 6 + x.ex.toNat * 2 ^ 5 + x.order.toNat * 2 ^ 3 + x.q.toNat * 2 ^ 2 + base)

/-- Read the fields of VStrcOp. -/
def VStrcOp.of (w : BitVec 32) : VStrcOp :=
  ⟨fld w 31 1, fld w 19 6, fld w 14 5, fld w 8 5, fld w 6 2, fld w 5 1⟩

/-- The fields of VStrcOp at their places, the bits they leave given by `base`. -/
def VStrcOp.word (x : VStrcOp) (base : Nat) : BitVec 32 :=
  BitVec.ofNat 32 (x.c.toNat * 2 ^ 31 + x.vd.toNat * 2 ^ 19 + x.sa.toNat * 2 ^ 14 + x.sx.toNat * 2 ^ 8 + x.mask.toNat * 2 ^ 6 + x.ex.toNat * 2 ^ 5 + base)

/-- Read the fields of VWaitOp. -/
def VWaitOp.of (w : BitVec 32) : VWaitOp :=
  ⟨fld w 31 1, fld w 14 5, fld w 8 5, fld w 3 2⟩

/-- The fields of VWaitOp at their places, the bits they leave given by `base`. -/
def VWaitOp.word (x : VWaitOp) (base : Nat) : BitVec 32 :=
  BitVec.ofNat 32 (x.c.toNat * 2 ^ 31 + x.sa.toNat * 2 ^ 14 + x.sx.toNat * 2 ^ 8 + x.scope.toNat * 2 ^ 3 + base)

/-- Read the fields of BraidOp. -/
def BraidOp.of (w : BitVec 32) : BraidOp :=
  ⟨fld w 31 1, fld w 19 6, fld w 14 5, fld w 5 1⟩

/-- The fields of BraidOp at their places, the bits they leave given by `base`. -/
def BraidOp.word (x : BraidOp) (base : Nat) : BitVec 32 :=
  BitVec.ofNat 32 (x.c.toNat * 2 ^ 31 + x.vd.toNat * 2 ^ 19 + x.sa.toNat * 2 ^ 14 + x.ex.toNat * 2 ^ 5 + base)

/-- Read the fields of SAddrOp. -/
def SAddrOp.of (w : BitVec 32) : SAddrOp :=
  ⟨fld w 31 1, fld w 14 5⟩

/-- The fields of SAddrOp at their places, the bits they leave given by `base`. -/
def SAddrOp.word (x : SAddrOp) (base : Nat) : BitVec 32 :=
  BitVec.ofNat 32 (x.c.toNat * 2 ^ 31 + x.sa.toNat * 2 ^ 14 + base)

/-- Read the fields of CacheOp. -/
def CacheOp.of (w : BitVec 32) : CacheOp :=
  ⟨fld w 31 1, fld w 14 5, fld w 8 5, fld w 3 2⟩

/-- The fields of CacheOp at their places, the bits they leave given by `base`. -/
def CacheOp.word (x : CacheOp) (base : Nat) : BitVec 32 :=
  BitVec.ofNat 32 (x.c.toNat * 2 ^ 31 + x.sa.toNat * 2 ^ 14 + x.sx.toNat * 2 ^ 8 + x.level.toNat * 2 ^ 3 + base)

/-- Read the fields of CpyOp. -/
def CpyOp.of (w : BitVec 32) : CpyOp :=
  ⟨fld w 31 1, fld w 19 5, fld w 14 5, fld w 8 5, fld w 3 2, fld w 2 1⟩

/-- The fields of CpyOp at their places, the bits they leave given by `base`. -/
def CpyOp.word (x : CpyOp) (base : Nat) : BitVec 32 :=
  BitVec.ofNat 32 (x.c.toNat * 2 ^ 31 + x.sd.toNat * 2 ^ 19 + x.sa.toNat * 2 ^ 14 + x.sx.toNat * 2 ^ 8 + x.hint.toNat * 2 ^ 3 + x.q.toNat * 2 ^ 2 + base)

/-- Read the fields of CpyvOp. -/
def CpyvOp.of (w : BitVec 32) : CpyvOp :=
  ⟨fld w 31 1, fld w 19 6, fld w 14 5, fld w 3 2⟩

/-- The fields of CpyvOp at their places, the bits they leave given by `base`. -/
def CpyvOp.word (x : CpyvOp) (base : Nat) : BitVec 32 :=
  BitVec.ofNat 32 (x.c.toNat * 2 ^ 31 + x.vd.toNat * 2 ^ 19 + x.sa.toNat * 2 ^ 14 + x.hint.toNat * 2 ^ 3 + base)

/-- Read the fields of CpywOp. -/
def CpywOp.of (w : BitVec 32) : CpywOp :=
  ⟨fld w 31 1, fld w 19 6, fld w 14 5, fld w 8 5⟩

/-- The fields of CpywOp at their places, the bits they leave given by `base`. -/
def CpywOp.word (x : CpywOp) (base : Nat) : BitVec 32 :=
  BitVec.ofNat 32 (x.c.toNat * 2 ^ 31 + x.slot.toNat * 2 ^ 19 + x.sa.toNat * 2 ^ 14 + x.sx.toNat * 2 ^ 8 + base)

/-- The checks of R56 steps 3 to 5 that follow the choice of a row: `fixed` says that the bits the row fixes have
their values, `cOk` that C is allowed. -/
def finish (fixed cOk : Bool) (i : Instr) : Except DecodeError Instr :=
  if fieldError i = some .unassignedValue then .error .unassignedValue
  else if !fixed then .error .reservedField
  else match fieldError i with
    | some e => .error e
    | none => if cOk then .ok i else .error .convoyBit

/-- A row of a major that is not convoy-capable: C must be 0 (R57). -/
def scalarRow (w : BitVec 32) (fixed : Bool) (i : Instr) : Except DecodeError Instr :=
  finish fixed (fldN w 31 1 == 0) i

/-- A row of a convoy-capable major (R57). -/
def vectorRow (fixed : Bool) (i : Instr) : Except DecodeError Instr := finish fixed true i

/-- Major 0x00 SYS (R53). -/
def decodeSys (w : BitVec 32) : Except DecodeError Instr :=
  match fldN w 12 3 with
  | 0 => scalarRow w (fldN w 15 10 == 0) (.trap (.of w))
  | 1 => scalarRow w (fldN w 0 12 == 0 && fldN w 15 10 == 0) .eret
  | 2 => scalarRow w (fldN w 0 12 == 0 && fldN w 15 10 == 0) .endStrand
  | 3 => scalarRow w (fldN w 0 12 == 0 && fldN w 15 10 == 0) .yield
  | 4 => scalarRow w (fldN w 15 10 == 0) (.brk (.of w))
  | 5 => scalarRow w (fldN w 15 10 == 0) (.mark (.of w))
  | 6 => scalarRow w (fldN w 0 12 == 0 && fldN w 15 10 == 0) .halt
  | _ => .error .unassignedValue

/-- Major 0x01 FENCE (R53). -/
def decodeFence (w : BitVec 32) : Except DecodeError Instr :=
  match fldN w 12 3 with
  | 0 => scalarRow w (fldN w 6 6 == 0 && fldN w 15 10 == 0) (.fence (.of w))
  | 1 => scalarRow w (fldN w 3 9 == 0 && fldN w 15 10 == 0) (.fsv (.of w))
  | 2 => scalarRow w (fldN w 3 9 == 0 && fldN w 15 10 == 0) (.fvs (.of w))
  | 3 => scalarRow w (fldN w 3 9 == 0 && fldN w 15 10 == 0) (.fmx (.of w))
  | 4 => scalarRow w (fldN w 3 9 == 0 && fldN w 15 10 == 0) (.fcp (.of w))
  | _ => .error .unassignedValue

/-- Major 0x02 ALU (R53). -/
def decodeAlu (w : BitVec 32) : Except DecodeError Instr :=
  match fldN w 0 10 with
  | 0 => scalarRow w true (.add (.of w))
  | 1 => scalarRow w true (.sub (.of w))
  | 2 => scalarRow w true (.mul (.of w))
  | 3 => scalarRow w true (.mulh (.of w))
  | 4 => scalarRow w true (.mulhn (.of w))
  | 5 => scalarRow w true (.div (.of w))
  | 6 => scalarRow w true (.divn (.of w))
  | 7 => scalarRow w true (.rem (.of w))
  | 8 => scalarRow w true (.remn (.of w))
  | 9 => scalarRow w true (.and_ (.of w))
  | 10 => scalarRow w true (.or_ (.of w))
  | 11 => scalarRow w true (.xor_ (.of w))
  | 12 => scalarRow w true (.sll (.of w))
  | 13 => scalarRow w true (.srl (.of w))
  | 14 => scalarRow w true (.sra (.of w))
  | 15 => scalarRow w true (.slt (.of w))
  | 16 => scalarRow w true (.sltn (.of w))
  | 17 => scalarRow w true (.min_ (.of w))
  | 18 => scalarRow w true (.max_ (.of w))
  | 19 => scalarRow w true (.minn (.of w))
  | 20 => scalarRow w true (.maxn (.of w))
  | 21 => scalarRow w (fldN w 10 5 == 0) (.clz (.of w))
  | 22 => scalarRow w (fldN w 10 5 == 0) (.ctz (.of w))
  | 23 => scalarRow w (fldN w 10 5 == 0) (.pop (.of w))
  | _ => .error .unassignedValue

/-- Major 0x03 ALUI (R53). -/
def decodeAlui (w : BitVec 32) : Except DecodeError Instr :=
  match fldN w 12 3 with
  | 0 => scalarRow w true (.addi (.of w))
  | 1 => scalarRow w true (.andi (.of w))
  | 2 => scalarRow w true (.ori (.of w))
  | 3 => scalarRow w true (.xori (.of w))
  | 4 => scalarRow w true (.slti (.of w))
  | 5 => scalarRow w true (.sltni (.of w))
  | 6 =>
    match fldN w 10 2 with
    | 0 => scalarRow w (fldN w 6 4 == 0) (.slli (.of w))
    | 1 => scalarRow w (fldN w 6 4 == 0) (.srli (.of w))
    | 2 => scalarRow w (fldN w 6 4 == 0) (.srai (.of w))
    | _ => .error .unassignedValue
  | _ => .error .unassignedValue

/-- Major 0x04 SUI (R53). -/
def decodeSui (w : BitVec 32) : Except DecodeError Instr :=
  scalarRow w true (.sui (.of w))

/-- Major 0x05 PCUI (R53). -/
def decodePcui (w : BitVec 32) : Except DecodeError Instr :=
  scalarRow w true (.pcui (.of w))

/-- Major 0x06 LD (R53). -/
def decodeLd (w : BitVec 32) : Except DecodeError Instr :=
  match fldN w 12 3 with
  | 0 => scalarRow w true (.ldi8 (.of w))
  | 1 => scalarRow w true (.ldi16 (.of w))
  | 2 => scalarRow w true (.ldi32 (.of w))
  | 3 => scalarRow w true (.ldi64 (.of w))
  | 4 => scalarRow w true (.ldn8 (.of w))
  | 5 => scalarRow w true (.ldn16 (.of w))
  | 6 => scalarRow w true (.ldn32 (.of w))
  | _ => .error .unassignedValue

/-- Major 0x07 ST (R53). -/
def decodeSt (w : BitVec 32) : Except DecodeError Instr :=
  match fldN w 12 3 with
  | 0 => scalarRow w true (.st8 (.of w))
  | 1 => scalarRow w true (.st16 (.of w))
  | 2 => scalarRow w true (.st32 (.of w))
  | 3 => scalarRow w true (.st64 (.of w))
  | _ => .error .unassignedValue

/-- Major 0x08 AMO (R53). -/
def decodeAmo (w : BitVec 32) : Except DecodeError Instr :=
  match fldN w 0 4 with
  | 0 => scalarRow w true (.amoadd (.of w))
  | 1 => scalarRow w true (.amoswap (.of w))
  | 2 => scalarRow w true (.amocas (.of w))
  | 3 => scalarRow w true (.amomin (.of w))
  | 4 => scalarRow w true (.amomax (.of w))
  | 5 => scalarRow w true (.amominn (.of w))
  | 6 => scalarRow w true (.amomaxn (.of w))
  | 7 => scalarRow w true (.amoand (.of w))
  | 8 => scalarRow w true (.amoor (.of w))
  | 9 => scalarRow w true (.amoxor (.of w))
  | _ => .error .unassignedValue

/-- Major 0x09 BR (R53). -/
def decodeBr (w : BitVec 32) : Except DecodeError Instr :=
  match fldN w 12 3 with
  | 0 => scalarRow w true (.beq (.of w))
  | 1 => scalarRow w true (.bne (.of w))
  | 2 => scalarRow w true (.blt (.of w))
  | 3 => scalarRow w true (.bge (.of w))
  | 4 => scalarRow w true (.bltn (.of w))
  | 5 => scalarRow w true (.bgen (.of w))
  | _ => .error .unassignedValue

/-- Major 0x0A MBR (R53). -/
def decodeMbr (w : BitVec 32) : Except DecodeError Instr :=
  match fldN w 12 3 with
  | 0 => scalarRow w (fldN w 15 5 == 0 && fldN w 23 2 == 0) (.bany (.of w))
  | 1 => scalarRow w (fldN w 15 5 == 0 && fldN w 23 2 == 0) (.ball (.of w))
  | 2 => scalarRow w (fldN w 15 5 == 0 && fldN w 23 2 == 0) (.bnone (.of w))
  | 3 => scalarRow w (fldN w 15 5 == 0 && fldN w 23 2 == 0) (.bgz (.of w))
  | 4 => scalarRow w (fldN w 15 5 == 0 && fldN w 23 2 == 0) (.bgnz (.of w))
  | _ => .error .unassignedValue

/-- Major 0x0B JAL (R53). -/
def decodeJal (w : BitVec 32) : Except DecodeError Instr :=
  scalarRow w true (.jal (.of w))

/-- Major 0x0C JALR (R53). -/
def decodeJalr (w : BitVec 32) : Except DecodeError Instr :=
  match fldN w 12 3 with
  | 0 => scalarRow w true (.jalr (.of w))
  | _ => .error .unassignedValue

/-- Major 0x0D CSR (R53). -/
def decodeCsr (w : BitVec 32) : Except DecodeError Instr :=
  match fldN w 12 3 with
  | 0 => scalarRow w true (.csrrw (.of w))
  | 1 => scalarRow w true (.csrrs (.of w))
  | 2 => scalarRow w true (.csrrc (.of w))
  | 3 => scalarRow w (fldN w 15 5 == 0) (.csrr (.of w))
  | _ => .error .unassignedValue

/-- Major 0x0E GRANT (R53). -/
def decodeGrant (w : BitVec 32) : Except DecodeError Instr :=
  match fldN w 0 10 with
  | 0 => scalarRow w (fldN w 18 2 == 0) (.gget (.of w))
  | 1 => scalarRow w (fldN w 23 2 == 0) (.gset (.of w))
  | 2 => scalarRow w (fldN w 10 10 == 0 && fldN w 23 2 == 0) (.gclr (.of w))
  | _ => .error .unassignedValue

/-- Major 0x0F SYNCOBJ (R53). -/
def decodeSyncobj (w : BitVec 32) : Except DecodeError Instr :=
  match fldN w 0 10 with
  | 0 => scalarRow w true (.qpost (.of w))
  | 1 => scalarRow w true (.qhash (.of w))
  | 2 => scalarRow w (fldN w 10 5 == 0) (.bar (.of w))
  | 3 => scalarRow w (fldN w 10 5 == 0) (.bararr (.of w))
  | 4 => scalarRow w true (.barwt (.of w))
  | _ => .error .unassignedValue

/-- Major 0x10 WAIT (R53). -/
def decodeWait (w : BitVec 32) : Except DecodeError Instr :=
  match fldN w 0 10 with
  | 0 => scalarRow w true (.tlwait (.of w))
  | 1 => scalarRow w (fldN w 10 5 == 0) (.tlget (.of w))
  | _ => .error .unassignedValue

/-- Major 0x11 PAGE (R53). -/
def decodePage (w : BitVec 32) : Except DecodeError Instr :=
  match fldN w 0 10 with
  | 0 => scalarRow w true (.pgmig (.of w))
  | 1 => scalarRow w (fldN w 10 5 == 0) (.pgcnt (.of w))
  | 2 => scalarRow w (fldN w 10 5 == 0) (.pgstat (.of w))
  | 3 => scalarRow w true (.dpromo (.of w))
  | 4 => scalarRow w (fldN w 10 5 == 0) (.ddemo (.of w))
  | _ => .error .unassignedValue

/-- Major 0x14 VCFG (R53). -/
def decodeVcfg (w : BitVec 32) : Except DecodeError Instr :=
  match fldN w 0 2 with
  | 0 => scalarRow w (fldN w 2 3 == 0) (.setvl (.of w))
  | 2 => scalarRow w (fldN w 2 4 == 0) (.rpt (.of w))
  | _ => .error .unassignedValue

/-- Major 0x15 VINTA (R53). -/
def decodeVinta (w : BitVec 32) : Except DecodeError Instr :=
  match fldN w 0 2 with
  | 0 => vectorRow true (.vadd (.of w))
  | 1 => vectorRow true (.vsub (.of w))
  | 2 => vectorRow true (.vmul (.of w))
  | 3 => vectorRow true (.vmulh (.of w))
  | _ => .error .unassignedValue

/-- Major 0x16 VINTB (R53). -/
def decodeVintb (w : BitVec 32) : Except DecodeError Instr :=
  match fldN w 0 2 with
  | 0 => vectorRow true (.vmulhn (.of w))
  | 1 => vectorRow true (.vdiv (.of w))
  | 2 => vectorRow true (.vdivn (.of w))
  | 3 => vectorRow true (.vrem (.of w))
  | _ => .error .unassignedValue

/-- Major 0x17 VINTC (R53). -/
def decodeVintc (w : BitVec 32) : Except DecodeError Instr :=
  match fldN w 0 2 with
  | 0 => vectorRow true (.vremn (.of w))
  | 1 => vectorRow true (.vmin (.of w))
  | 2 => vectorRow true (.vmax (.of w))
  | 3 => vectorRow true (.vminn (.of w))
  | _ => .error .unassignedValue

/-- Major 0x18 VINTD (R53). -/
def decodeVintd (w : BitVec 32) : Except DecodeError Instr :=
  match fldN w 0 2 with
  | 0 => vectorRow true (.vmaxn (.of w))
  | 1 => vectorRow (fldN w 2 1 == 0 && fldN w 4 1 == 0 && fldN w 7 6 == 0) (.vabs (.of w))
  | 2 => vectorRow (fldN w 2 1 == 0 && fldN w 4 1 == 0 && fldN w 7 6 == 0) (.vneg (.of w))
  | 3 => vectorRow true (.vabsd (.of w))
  | _ => .error .unassignedValue

/-- Major 0x19 VLOG (R53). -/
def decodeVlog (w : BitVec 32) : Except DecodeError Instr :=
  match fldN w 0 2 with
  | 0 => vectorRow true (.vand (.of w))
  | 1 => vectorRow true (.vor (.of w))
  | 2 => vectorRow true (.vxor (.of w))
  | 3 => vectorRow (fldN w 2 1 == 0 && fldN w 4 1 == 0 && fldN w 7 6 == 0) (.vnot (.of w))
  | _ => .error .unassignedValue

/-- Major 0x1A VSHF (R53). -/
def decodeVshf (w : BitVec 32) : Except DecodeError Instr :=
  match fldN w 0 2 with
  | 0 => vectorRow true (.vsll (.of w))
  | 1 => vectorRow true (.vsrl (.of w))
  | 2 => vectorRow true (.vsra (.of w))
  | 3 => vectorRow true (.vrot (.of w))
  | _ => .error .unassignedValue

/-- Major 0x1B VSAT (R53). -/
def decodeVsat (w : BitVec 32) : Except DecodeError Instr :=
  match fldN w 0 2 with
  | 0 => vectorRow true (.vsadd (.of w))
  | 1 => vectorRow true (.vssub (.of w))
  | 2 => vectorRow true (.vsaddn (.of w))
  | 3 => vectorRow true (.vssubn (.of w))
  | _ => .error .unassignedValue

/-- Major 0x1C VWIDE (R53). -/
def decodeVwide (w : BitVec 32) : Except DecodeError Instr :=
  match fldN w 0 2 with
  | 0 => vectorRow true (.vwmac (.of w))
  | 1 => vectorRow true (.vwmacn (.of w))
  | 2 => vectorRow true (.vwmul (.of w))
  | 3 => vectorRow true (.vwadd (.of w))
  | _ => .error .unassignedValue

/-- Major 0x1D VFA (R53). -/
def decodeVfa (w : BitVec 32) : Except DecodeError Instr :=
  match fldN w 0 2 with
  | 0 => vectorRow true (.vfadd (.of w))
  | 1 => vectorRow true (.vfsub (.of w))
  | 2 => vectorRow true (.vfmul (.of w))
  | 3 => vectorRow true (.vfdiv (.of w))
  | _ => .error .unassignedValue

/-- Major 0x1E VFB (R53). -/
def decodeVfb (w : BitVec 32) : Except DecodeError Instr :=
  match fldN w 0 2 with
  | 0 => vectorRow true (.vfma (.of w))
  | 1 => vectorRow true (.vfms (.of w))
  | 2 => vectorRow true (.vfmin (.of w))
  | 3 => vectorRow true (.vfmax (.of w))
  | _ => .error .unassignedValue

/-- Major 0x1F VFC (R53). -/
def decodeVfc (w : BitVec 32) : Except DecodeError Instr :=
  match fldN w 0 2 with
  | 0 => vectorRow (fldN w 2 1 == 0 && fldN w 4 1 == 0 && fldN w 7 6 == 0) (.vfsqrt (.of w))
  | 1 => vectorRow (fldN w 2 1 == 0 && fldN w 4 1 == 0 && fldN w 7 6 == 0) (.vfabs (.of w))
  | 2 => vectorRow (fldN w 2 1 == 0 && fldN w 4 1 == 0 && fldN w 7 6 == 0) (.vfneg (.of w))
  | 3 => vectorRow (fldN w 2 1 == 0 && fldN w 4 1 == 0 && fldN w 7 6 == 0) (.vfclass (.of w))
  | _ => .error .unassignedValue

/-- Major 0x20 VCMPA (R53). -/
def decodeVcmpa (w : BitVec 32) : Except DecodeError Instr :=
  match fldN w 0 2 with
  | 0 => vectorRow (fldN w 22 3 == 0) (.vcmpeq (.of w))
  | 1 => vectorRow (fldN w 22 3 == 0) (.vcmpne (.of w))
  | 2 => vectorRow (fldN w 22 3 == 0) (.vcmplt (.of w))
  | 3 => vectorRow (fldN w 22 3 == 0) (.vcmple (.of w))
  | _ => .error .unassignedValue

/-- Major 0x21 VCMPB (R53). -/
def decodeVcmpb (w : BitVec 32) : Except DecodeError Instr :=
  match fldN w 0 2 with
  | 0 => vectorRow (fldN w 22 3 == 0) (.vcmpltn (.of w))
  | 1 => vectorRow (fldN w 22 3 == 0) (.vcmplen (.of w))
  | 2 => vectorRow (fldN w 22 3 == 0) (.vfcmpeq (.of w))
  | 3 => vectorRow (fldN w 22 3 == 0) (.vfcmplt (.of w))
  | _ => .error .unassignedValue

/-- Major 0x22 VCMPC (R53). -/
def decodeVcmpc (w : BitVec 32) : Except DecodeError Instr :=
  match fldN w 0 2 with
  | 0 => vectorRow (fldN w 22 3 == 0) (.vfcmple (.of w))
  | 1 => vectorRow (fldN w 22 3 == 0) (.vfcmpun (.of w))
  | _ => .error .unassignedValue

/-- Major 0x23 MLOG (R53). -/
def decodeMlog (w : BitVec 32) : Except DecodeError Instr :=
  match fldN w 0 2 with
  | 0 => vectorRow (fldN w 2 3 == 0 && fldN w 10 3 == 0 && fldN w 16 3 == 0 && fldN w 22 3 == 0) (.mand (.of w))
  | 1 => vectorRow (fldN w 2 3 == 0 && fldN w 10 3 == 0 && fldN w 16 3 == 0 && fldN w 22 3 == 0) (.mor (.of w))
  | 2 => vectorRow (fldN w 2 3 == 0 && fldN w 10 3 == 0 && fldN w 16 3 == 0 && fldN w 22 3 == 0) (.mxor (.of w))
  | 3 => vectorRow (fldN w 2 3 == 0 && fldN w 7 6 == 0 && fldN w 16 3 == 0 && fldN w 22 3 == 0) (.mnot (.of w))
  | _ => .error .unassignedValue

/-- Major 0x24 MCNT (R53). -/
def decodeMcnt (w : BitVec 32) : Except DecodeError Instr :=
  match fldN w 0 2 with
  | 0 => vectorRow (fldN w 2 3 == 0 && fldN w 7 6 == 0 && fldN w 16 3 == 0 && fldN w 24 1 == 0) (.mpop (.of w))
  | 1 => vectorRow (fldN w 2 3 == 0 && fldN w 7 6 == 0 && fldN w 16 3 == 0 && fldN w 24 1 == 0) (.mfirst (.of w))
  | 2 => vectorRow (fldN w 2 3 == 0 && fldN w 7 12 == 0 && fldN w 22 3 == 0) (.mset (.of w))
  | 3 => vectorRow (fldN w 2 3 == 0 && fldN w 7 12 == 0 && fldN w 22 3 == 0) (.mclr (.of w))
  | _ => .error .unassignedValue

/-- Major 0x25 VMOV (R53). -/
def decodeVmov (w : BitVec 32) : Except DecodeError Instr :=
  match fldN w 0 2 with
  | 0 => vectorRow true (.vsel (.of w))
  | 1 => vectorRow (fldN w 3 1 == 0 && fldN w 13 6 == 0) (.vbcast (.of w))
  | 2 => vectorRow (fldN w 2 1 == 0 && fldN w 4 9 == 0 && fldN w 24 1 == 0) (.vmvs (.of w))
  | 3 => vectorRow (fldN w 2 3 == 4 && fldN w 12 7 == 0) (.vmsv (.of w))
  | _ => .error .unassignedValue

/-- Major 0x26 VPERM (R53). -/
def decodeVperm (w : BitVec 32) : Except DecodeError Instr :=
  match fldN w 0 2 with
  | 0 => vectorRow (fldN w 2 1 == 0 && fldN w 4 1 == 1 && fldN w 12 1 == 0) (.vslideup (.of w))
  | 1 => vectorRow (fldN w 2 1 == 0 && fldN w 4 1 == 1 && fldN w 12 1 == 0) (.vslidedn (.of w))
  | 2 => vectorRow (fldN w 4 1 == 0) (.vperm (.of w))
  | 3 => vectorRow (fldN w 2 3 == 0 && fldN w 7 12 == 0) (.vid (.of w))
  | _ => .error .unassignedValue

/-- Major 0x27 VPACK (R53). -/
def decodeVpack (w : BitVec 32) : Except DecodeError Instr :=
  match fldN w 0 2 with
  | 0 => vectorRow (fldN w 2 1 == 0 && fldN w 4 3 == 0 && fldN w 10 3 == 0) (.vcompress (.of w))
  | 1 => vectorRow (fldN w 2 1 == 0 && fldN w 4 3 == 0 && fldN w 10 3 == 0) (.vexpand (.of w))
  | 2 => vectorRow (fldN w 2 11 == 0 && fldN w 24 1 == 0) (.vready (.of w))
  | _ => .error .unassignedValue

/-- Major 0x28 VREDA (R53). -/
def decodeVreda (w : BitVec 32) : Except DecodeError Instr :=
  match fldN w 0 2 with
  | 0 => vectorRow true (.vredsum (.of w))
  | 1 => vectorRow true (.vredmin (.of w))
  | 2 => vectorRow true (.vredmax (.of w))
  | 3 => vectorRow true (.vfredsum (.of w))
  | _ => .error .unassignedValue

/-- Major 0x29 VREDB (R53). -/
def decodeVredb (w : BitVec 32) : Except DecodeError Instr :=
  match fldN w 0 2 with
  | 0 => vectorRow true (.vredand (.of w))
  | 1 => vectorRow true (.vredor (.of w))
  | 2 => vectorRow true (.vredxor (.of w))
  | 3 => vectorRow true (.vfredmax (.of w))
  | _ => .error .unassignedValue

/-- Major 0x2A VSCAN (R53). -/
def decodeVscan (w : BitVec 32) : Except DecodeError Instr :=
  match fldN w 0 2 with
  | 0 => vectorRow true (.vscan (.of w))
  | 1 => vectorRow true (.vfscan (.of w))
  | 2 => vectorRow true (.vscanmax (.of w))
  | _ => .error .unassignedValue

/-- Major 0x2B VCONV (R53). -/
def decodeVconv (w : BitVec 32) : Except DecodeError Instr :=
  match fldN w 0 2 with
  | 0 => vectorRow (fldN w 2 1 == 0 && fldN w 4 1 == 0) (.vcvt (.of w))
  | 1 => vectorRow (fldN w 2 1 == 0 && fldN w 4 3 == 0) (.vqblk (.of w))
  | 2 => vectorRow (fldN w 4 1 == 0) (.vdqblk (.of w))
  | _ => .error .unassignedValue

/-- Major 0x2C RMOV (R53). -/
def decodeRmov (w : BitVec 32) : Except DecodeError Instr :=
  match fldN w 0 2 with
  | 0 => vectorRow (fldN w 2 2 == 0 && fldN w 12 1 == 0 && fldN w 18 1 == 0) (.vldg (.of w))
  | 1 => vectorRow (fldN w 2 2 == 0 && fldN w 12 1 == 0 && fldN w 18 1 == 0) (.vstg (.of w))
  | 2 => vectorRow (fldN w 2 1 == 0) (.rdec (.of w))
  | 3 => vectorRow (fldN w 2 1 == 0) (.renc (.of w))
  | _ => .error .unassignedValue

/-- Major 0x2D RARI (R53). -/
def decodeRari (w : BitVec 32) : Except DecodeError Instr :=
  match fldN w 0 2 with
  | 0 => vectorRow true (.radd (.of w))
  | 1 => vectorRow true (.rsub (.of w))
  | 2 => vectorRow true (.rmin (.of w))
  | 3 => vectorRow true (.rmax (.of w))
  | _ => .error .unassignedValue

/-- Major 0x2E RFLT (R53). -/
def decodeRflt (w : BitVec 32) : Except DecodeError Instr :=
  match fldN w 0 2 with
  | 0 => vectorRow (fldN w 2 1 == 0) (.fdec (.of w))
  | 1 => vectorRow (fldN w 2 1 == 0) (.fenc (.of w))
  | 2 => vectorRow (fldN w 2 1 == 0 && fldN w 7 6 == 0) (.rdsum (.of w))
  | 3 => vectorRow (fldN w 2 1 == 0 && fldN w 7 6 == 0) (.rlen (.of w))
  | _ => .error .unassignedValue

/-- Major 0x2F RSEL (R53). -/
def decodeRsel (w : BitVec 32) : Except DecodeError Instr :=
  match fldN w 0 2 with
  | 0 => vectorRow (fldN w 2 1 == 0 && fldN w 7 6 == 0) (.rpos (.of w))
  | 1 => vectorRow (fldN w 2 1 == 0 && fldN w 10 3 == 0) (.rfilt (.of w))
  | _ => .error .unassignedValue

/-- Major 0x30 VLOAD (R53). -/
def decodeVload (w : BitVec 32) : Except DecodeError Instr :=
  match fldN w 0 2 with
  | 0 => vectorRow (fldN w 2 1 == 0 && fldN w 8 6 == 0) (.vld (.of w))
  | 1 => vectorRow (fldN w 2 1 == 0 && fldN w 13 1 == 0) (.vlds (.of w))
  | 2 => vectorRow true (.vldx (.of w))
  | 3 => vectorRow (fldN w 13 1 == 0) (.vlda (.of w))
  | _ => .error .unassignedValue

/-- Major 0x31 VSTORE (R53). -/
def decodeVstore (w : BitVec 32) : Except DecodeError Instr :=
  match fldN w 0 2 with
  | 0 => vectorRow (fldN w 2 1 == 0 && fldN w 8 6 == 0) (.vst (.of w))
  | 1 => vectorRow (fldN w 2 1 == 0 && fldN w 13 1 == 0) (.vsts (.of w))
  | 2 => vectorRow true (.vstx (.of w))
  | 3 => vectorRow (fldN w 2 3 == 0 && fldN w 8 6 == 0) (.vstm (.of w))
  | _ => .error .unassignedValue

/-- Major 0x32 VAMOA (R53). -/
def decodeVamoa (w : BitVec 32) : Except DecodeError Instr :=
  match fldN w 0 2 with
  | 0 => vectorRow true (.vamoadd (.of w))
  | 1 => vectorRow true (.vamoswap (.of w))
  | 2 => vectorRow true (.vamocas (.of w))
  | 3 => vectorRow true (.vamomin (.of w))
  | _ => .error .unassignedValue

/-- Major 0x33 VAMOB (R53). -/
def decodeVamob (w : BitVec 32) : Except DecodeError Instr :=
  match fldN w 0 2 with
  | 0 => vectorRow true (.vamomax (.of w))
  | 1 => vectorRow (fldN w 2 3 == 0 && fldN w 13 1 == 0) (.vstrc (.of w))
  | 2 => vectorRow (fldN w 2 1 == 0 && fldN w 5 3 == 0 && fldN w 13 1 == 0 && fldN w 19 6 == 0) (.vwait (.of w))
  | _ => .error .unassignedValue

/-- Major 0x34 BRAID (R53). -/
def decodeBraid (w : BitVec 32) : Except DecodeError Instr :=
  match fldN w 0 2 with
  | 0 => vectorRow (fldN w 2 3 == 0 && fldN w 6 8 == 0) (.mjld (.of w))
  | 1 => vectorRow (fldN w 2 3 == 0 && fldN w 6 8 == 0) (.mjst (.of w))
  | 2 => vectorRow (fldN w 2 12 == 0 && fldN w 19 6 == 0) (.mjrep (.of w))
  | _ => .error .unassignedValue

/-- Major 0x35 CACHE (R53). -/
def decodeCache (w : BitVec 32) : Except DecodeError Instr :=
  match fldN w 0 2 with
  | 0 => vectorRow (fldN w 2 1 == 0 && fldN w 5 3 == 0 && fldN w 13 1 == 0 && fldN w 19 6 == 0) (.cflush (.of w))
  | 1 => vectorRow (fldN w 2 1 == 0 && fldN w 5 3 == 0 && fldN w 13 1 == 0 && fldN w 19 6 == 0) (.cinv (.of w))
  | 2 => vectorRow (fldN w 2 12 == 0 && fldN w 19 6 == 0) (.l1cfg (.of w))
  | _ => .error .unassignedValue

/-- Major 0x36 COPY (R53). -/
def decodeCopy (w : BitVec 32) : Except DecodeError Instr :=
  match fldN w 0 2 with
  | 0 => vectorRow (fldN w 5 3 == 0 && fldN w 13 1 == 0 && fldN w 24 1 == 0) (.cpy (.of w))
  | 1 => vectorRow (fldN w 2 1 == 0 && fldN w 5 9 == 0) (.cpyv (.of w))
  | 2 => vectorRow (fldN w 2 6 == 0 && fldN w 13 1 == 0) (.cpyw (.of w))
  | _ => .error .unassignedValue

/-- Major 0x37 MATRIX (R53). -/
def decodeMatrix (w : BitVec 32) : Except DecodeError Instr :=
  match fldN w 0 2 with
  | 0 => vectorRow (fldN w 2 1 == 0 && fldN w 4 3 == 0) (.mma (.of w))
  | 1 => vectorRow (fldN w 2 1 == 0 && fldN w 4 3 == 0) (.mmaz (.of w))
  | 2 => vectorRow (fldN w 2 1 == 0 && fldN w 4 3 == 0) (.mxsum (.of w))
  | _ => .error .unassignedValue

/-- The instruction a word encodes (R47, R53), or why it is none (R55). -/
def decode (w : BitVec 32) : Except DecodeError Instr :=
  match fldN w 25 6 with
  | 0x00 => decodeSys w
  | 0x01 => decodeFence w
  | 0x02 => decodeAlu w
  | 0x03 => decodeAlui w
  | 0x04 => decodeSui w
  | 0x05 => decodePcui w
  | 0x06 => decodeLd w
  | 0x07 => decodeSt w
  | 0x08 => decodeAmo w
  | 0x09 => decodeBr w
  | 0x0A => decodeMbr w
  | 0x0B => decodeJal w
  | 0x0C => decodeJalr w
  | 0x0D => decodeCsr w
  | 0x0E => decodeGrant w
  | 0x0F => decodeSyncobj w
  | 0x10 => decodeWait w
  | 0x11 => decodePage w
  | 0x14 => decodeVcfg w
  | 0x15 => decodeVinta w
  | 0x16 => decodeVintb w
  | 0x17 => decodeVintc w
  | 0x18 => decodeVintd w
  | 0x19 => decodeVlog w
  | 0x1A => decodeVshf w
  | 0x1B => decodeVsat w
  | 0x1C => decodeVwide w
  | 0x1D => decodeVfa w
  | 0x1E => decodeVfb w
  | 0x1F => decodeVfc w
  | 0x20 => decodeVcmpa w
  | 0x21 => decodeVcmpb w
  | 0x22 => decodeVcmpc w
  | 0x23 => decodeMlog w
  | 0x24 => decodeMcnt w
  | 0x25 => decodeVmov w
  | 0x26 => decodeVperm w
  | 0x27 => decodeVpack w
  | 0x28 => decodeVreda w
  | 0x29 => decodeVredb w
  | 0x2A => decodeVscan w
  | 0x2B => decodeVconv w
  | 0x2C => decodeRmov w
  | 0x2D => decodeRari w
  | 0x2E => decodeRflt w
  | 0x2F => decodeRsel w
  | 0x30 => decodeVload w
  | 0x31 => decodeVstore w
  | 0x32 => decodeVamoa w
  | 0x33 => decodeVamob w
  | 0x34 => decodeBraid w
  | 0x35 => decodeCache w
  | 0x36 => decodeCopy w
  | 0x37 => decodeMatrix w
  | _ => .error .reservedMajor

/-- The word four bytes hold, little-endian (R2, R47). -/
def wordOfBytes (b0 b1 b2 b3 : Byte) : BitVec 32 :=
  BitVec.ofNat 32 (b0.toNat + b1.toNat * 2 ^ 8 + b2.toNat * 2 ^ 16 + b3.toNat * 2 ^ 24)

/-- The four bytes of a word, the least significant first (R2). -/
def bytesOfWord (w : BitVec 32) : List Byte := [fld w 0 8, fld w 8 8, fld w 16 8, fld w 24 8]

/-- Decode the instruction at the head of a list of bytes, and give the bytes after it. -/
def decodeBytes (bs : List Byte) : Except DecodeError (Instr × List Byte) :=
  match bs with
  | b0 :: b1 :: b2 :: b3 :: rest =>
    match decode (wordOfBytes b0 b1 b2 b3) with
    | .ok i => .ok (i, rest)
    | .error e => .error e
  | _ => .error .shortBytes

/-- The instruction the decoder reads from an instruction whose bits are `w`, as the opcode table numbers them. -/
def decodeTableWord (nbits w : Nat) : Option Instr :=
  match decodeBytes (bytesOfWord (BitVec.ofNat 32 (w % 2 ^ nbits))) with
  | .ok (i, _) => some i
  | .error _ => none

/-- The word of an instruction; `none` for a step of the table that has no word. -/
def encode : Instr → Option (BitVec 32)
  | .illegalInstruction _ _ => none
  | .trap x => some (x.word 0x00000000)
  | .eret => some 0x00001000
  | .endStrand => some 0x00002000
  | .yield => some 0x00003000
  | .brk x => some (x.word 0x00004000)
  | .mark x => some (x.word 0x00005000)
  | .halt => some 0x00006000
  | .fence x => some (x.word 0x02000000)
  | .fsv x => some (x.word 0x02001000)
  | .fvs x => some (x.word 0x02002000)
  | .fmx x => some (x.word 0x02003000)
  | .fcp x => some (x.word 0x02004000)
  | .add x => some (x.word 0x04000000)
  | .sub x => some (x.word 0x04000001)
  | .mul x => some (x.word 0x04000002)
  | .mulh x => some (x.word 0x04000003)
  | .mulhn x => some (x.word 0x04000004)
  | .div x => some (x.word 0x04000005)
  | .divn x => some (x.word 0x04000006)
  | .rem x => some (x.word 0x04000007)
  | .remn x => some (x.word 0x04000008)
  | .and_ x => some (x.word 0x04000009)
  | .or_ x => some (x.word 0x0400000A)
  | .xor_ x => some (x.word 0x0400000B)
  | .sll x => some (x.word 0x0400000C)
  | .srl x => some (x.word 0x0400000D)
  | .sra x => some (x.word 0x0400000E)
  | .slt x => some (x.word 0x0400000F)
  | .sltn x => some (x.word 0x04000010)
  | .min_ x => some (x.word 0x04000011)
  | .max_ x => some (x.word 0x04000012)
  | .minn x => some (x.word 0x04000013)
  | .maxn x => some (x.word 0x04000014)
  | .clz x => some (x.word 0x04000015)
  | .ctz x => some (x.word 0x04000016)
  | .pop x => some (x.word 0x04000017)
  | .addi x => some (x.word 0x06000000)
  | .andi x => some (x.word 0x06001000)
  | .ori x => some (x.word 0x06002000)
  | .xori x => some (x.word 0x06003000)
  | .slti x => some (x.word 0x06004000)
  | .sltni x => some (x.word 0x06005000)
  | .slli x => some (x.word 0x06006000)
  | .srli x => some (x.word 0x06006400)
  | .srai x => some (x.word 0x06006800)
  | .sui x => some (x.word 0x08000000)
  | .pcui x => some (x.word 0x0A000000)
  | .ldi8 x => some (x.word 0x0C000000)
  | .ldi16 x => some (x.word 0x0C001000)
  | .ldi32 x => some (x.word 0x0C002000)
  | .ldi64 x => some (x.word 0x0C003000)
  | .ldn8 x => some (x.word 0x0C004000)
  | .ldn16 x => some (x.word 0x0C005000)
  | .ldn32 x => some (x.word 0x0C006000)
  | .st8 x => some (x.word 0x0E000000)
  | .st16 x => some (x.word 0x0E001000)
  | .st32 x => some (x.word 0x0E002000)
  | .st64 x => some (x.word 0x0E003000)
  | .amoadd x => some (x.word 0x10000000)
  | .amoswap x => some (x.word 0x10000001)
  | .amocas x => some (x.word 0x10000002)
  | .amomin x => some (x.word 0x10000003)
  | .amomax x => some (x.word 0x10000004)
  | .amominn x => some (x.word 0x10000005)
  | .amomaxn x => some (x.word 0x10000006)
  | .amoand x => some (x.word 0x10000007)
  | .amoor x => some (x.word 0x10000008)
  | .amoxor x => some (x.word 0x10000009)
  | .beq x => some (x.word 0x12000000)
  | .bne x => some (x.word 0x12001000)
  | .blt x => some (x.word 0x12002000)
  | .bge x => some (x.word 0x12003000)
  | .bltn x => some (x.word 0x12004000)
  | .bgen x => some (x.word 0x12005000)
  | .bany x => some (x.word 0x14000000)
  | .ball x => some (x.word 0x14001000)
  | .bnone x => some (x.word 0x14002000)
  | .bgz x => some (x.word 0x14003000)
  | .bgnz x => some (x.word 0x14004000)
  | .jal x => some (x.word 0x16000000)
  | .jalr x => some (x.word 0x18000000)
  | .csrrw x => some (x.word 0x1A000000)
  | .csrrs x => some (x.word 0x1A001000)
  | .csrrc x => some (x.word 0x1A002000)
  | .csrr x => some (x.word 0x1A003000)
  | .gget x => some (x.word 0x1C000000)
  | .gset x => some (x.word 0x1C000001)
  | .gclr x => some (x.word 0x1C000002)
  | .qpost x => some (x.word 0x1E000000)
  | .qhash x => some (x.word 0x1E000001)
  | .bar x => some (x.word 0x1E000002)
  | .bararr x => some (x.word 0x1E000003)
  | .barwt x => some (x.word 0x1E000004)
  | .tlwait x => some (x.word 0x20000000)
  | .tlget x => some (x.word 0x20000001)
  | .pgmig x => some (x.word 0x22000000)
  | .pgcnt x => some (x.word 0x22000001)
  | .pgstat x => some (x.word 0x22000002)
  | .dpromo x => some (x.word 0x22000003)
  | .ddemo x => some (x.word 0x22000004)
  | .setvl x => some (x.word 0x28000000)
  | .rpt x => some (x.word 0x28000002)
  | .vadd x => some (x.word 0x2A000000)
  | .vsub x => some (x.word 0x2A000001)
  | .vmul x => some (x.word 0x2A000002)
  | .vmulh x => some (x.word 0x2A000003)
  | .vmulhn x => some (x.word 0x2C000000)
  | .vdiv x => some (x.word 0x2C000001)
  | .vdivn x => some (x.word 0x2C000002)
  | .vrem x => some (x.word 0x2C000003)
  | .vremn x => some (x.word 0x2E000000)
  | .vmin x => some (x.word 0x2E000001)
  | .vmax x => some (x.word 0x2E000002)
  | .vminn x => some (x.word 0x2E000003)
  | .vmaxn x => some (x.word 0x30000000)
  | .vabs x => some (x.word 0x30000001)
  | .vneg x => some (x.word 0x30000002)
  | .vabsd x => some (x.word 0x30000003)
  | .vand x => some (x.word 0x32000000)
  | .vor x => some (x.word 0x32000001)
  | .vxor x => some (x.word 0x32000002)
  | .vnot x => some (x.word 0x32000003)
  | .vsll x => some (x.word 0x34000000)
  | .vsrl x => some (x.word 0x34000001)
  | .vsra x => some (x.word 0x34000002)
  | .vrot x => some (x.word 0x34000003)
  | .vsadd x => some (x.word 0x36000000)
  | .vssub x => some (x.word 0x36000001)
  | .vsaddn x => some (x.word 0x36000002)
  | .vssubn x => some (x.word 0x36000003)
  | .vwmac x => some (x.word 0x38000000)
  | .vwmacn x => some (x.word 0x38000001)
  | .vwmul x => some (x.word 0x38000002)
  | .vwadd x => some (x.word 0x38000003)
  | .vfadd x => some (x.word 0x3A000000)
  | .vfsub x => some (x.word 0x3A000001)
  | .vfmul x => some (x.word 0x3A000002)
  | .vfdiv x => some (x.word 0x3A000003)
  | .vfma x => some (x.word 0x3C000000)
  | .vfms x => some (x.word 0x3C000001)
  | .vfmin x => some (x.word 0x3C000002)
  | .vfmax x => some (x.word 0x3C000003)
  | .vfsqrt x => some (x.word 0x3E000000)
  | .vfabs x => some (x.word 0x3E000001)
  | .vfneg x => some (x.word 0x3E000002)
  | .vfclass x => some (x.word 0x3E000003)
  | .vcmpeq x => some (x.word 0x40000000)
  | .vcmpne x => some (x.word 0x40000001)
  | .vcmplt x => some (x.word 0x40000002)
  | .vcmple x => some (x.word 0x40000003)
  | .vcmpltn x => some (x.word 0x42000000)
  | .vcmplen x => some (x.word 0x42000001)
  | .vfcmpeq x => some (x.word 0x42000002)
  | .vfcmplt x => some (x.word 0x42000003)
  | .vfcmple x => some (x.word 0x44000000)
  | .vfcmpun x => some (x.word 0x44000001)
  | .mand x => some (x.word 0x46000000)
  | .mor x => some (x.word 0x46000001)
  | .mxor x => some (x.word 0x46000002)
  | .mnot x => some (x.word 0x46000003)
  | .mpop x => some (x.word 0x48000000)
  | .mfirst x => some (x.word 0x48000001)
  | .mset x => some (x.word 0x48000002)
  | .mclr x => some (x.word 0x48000003)
  | .vsel x => some (x.word 0x4A000000)
  | .vbcast x => some (x.word 0x4A000001)
  | .vmvs x => some (x.word 0x4A000002)
  | .vmsv x => some (x.word 0x4A000013)
  | .vslideup x => some (x.word 0x4C000010)
  | .vslidedn x => some (x.word 0x4C000011)
  | .vperm x => some (x.word 0x4C000002)
  | .vid x => some (x.word 0x4C000003)
  | .vcompress x => some (x.word 0x4E000000)
  | .vexpand x => some (x.word 0x4E000001)
  | .vready x => some (x.word 0x4E000002)
  | .vredsum x => some (x.word 0x50000000)
  | .vredmin x => some (x.word 0x50000001)
  | .vredmax x => some (x.word 0x50000002)
  | .vfredsum x => some (x.word 0x50000003)
  | .vredand x => some (x.word 0x52000000)
  | .vredor x => some (x.word 0x52000001)
  | .vredxor x => some (x.word 0x52000002)
  | .vfredmax x => some (x.word 0x52000003)
  | .vscan x => some (x.word 0x54000000)
  | .vfscan x => some (x.word 0x54000001)
  | .vscanmax x => some (x.word 0x54000002)
  | .vcvt x => some (x.word 0x56000000)
  | .vqblk x => some (x.word 0x56000001)
  | .vdqblk x => some (x.word 0x56000002)
  | .vldg x => some (x.word 0x58000000)
  | .vstg x => some (x.word 0x58000001)
  | .rdec x => some (x.word 0x58000002)
  | .renc x => some (x.word 0x58000003)
  | .radd x => some (x.word 0x5A000000)
  | .rsub x => some (x.word 0x5A000001)
  | .rmin x => some (x.word 0x5A000002)
  | .rmax x => some (x.word 0x5A000003)
  | .fdec x => some (x.word 0x5C000000)
  | .fenc x => some (x.word 0x5C000001)
  | .rdsum x => some (x.word 0x5C000002)
  | .rlen x => some (x.word 0x5C000003)
  | .rpos x => some (x.word 0x5E000000)
  | .rfilt x => some (x.word 0x5E000001)
  | .vld x => some (x.word 0x60000000)
  | .vlds x => some (x.word 0x60000001)
  | .vldx x => some (x.word 0x60000002)
  | .vlda x => some (x.word 0x60000003)
  | .vst x => some (x.word 0x62000000)
  | .vsts x => some (x.word 0x62000001)
  | .vstx x => some (x.word 0x62000002)
  | .vstm x => some (x.word 0x62000003)
  | .vamoadd x => some (x.word 0x64000000)
  | .vamoswap x => some (x.word 0x64000001)
  | .vamocas x => some (x.word 0x64000002)
  | .vamomin x => some (x.word 0x64000003)
  | .vamomax x => some (x.word 0x66000000)
  | .vstrc x => some (x.word 0x66000001)
  | .vwait x => some (x.word 0x66000002)
  | .mjld x => some (x.word 0x68000000)
  | .mjst x => some (x.word 0x68000001)
  | .mjrep x => some (x.word 0x68000002)
  | .cflush x => some (x.word 0x6A000000)
  | .cinv x => some (x.word 0x6A000001)
  | .l1cfg x => some (x.word 0x6A000002)
  | .cpy x => some (x.word 0x6C000000)
  | .cpyv x => some (x.word 0x6C000001)
  | .cpyw x => some (x.word 0x6C000002)
  | .mma x => some (x.word 0x6E000000)
  | .mmaz x => some (x.word 0x6E000001)
  | .mxsum x => some (x.word 0x6E000002)
  | .convoyRetire _ => none
  | .elementGroupLand _ _ => none
  | .conditionClears _ => none
  | .eddyRecheck _ _ => none
  | .eddyCheckLimit _ => none
  | .laneGroupRetire _ _ _ => none
  | .disagreementCountClear _ => none
  | .stripCommit _ => none
  | .bufferOverflow _ => none
  | .uncorrectableError _ _ _ _ => none
  | .haltingRecordPost _ => none
  | .copyEngineStart _ => none
  | .followOnIssue _ => none
  | .timelineCounterWrite _ _ => none
  | .matrixSlice _ _ => none
  | .matrixEngineFailed _ => none
  | .contextCreate _ => none
  | .batchCommit _ _ _ => none
  | .contextDestroy _ => none
  | .contextFaultClear _ => none
  | .contextDeclaredFailed _ => none
  | .groupPreempt _ => none
  | .groupSaved _ => none
  | .groupResume _ => none
  | .resumeAtNewPc _ _ => none
  | .queueCreate _ => none
  | .queueStart _ => none
  | .queueStop _ => none
  | .queueSkip _ _ => none
  | .queueRetry _ => none
  | .queueDestroy _ => none
  | .tailStoreNoticed _ => none
  | .entryFetch _ => none
  | .nopCmd _ => none
  | .launchCmd _ => none
  | .copyCmd _ => none
  | .waitcCmd _ => none
  | .signalCmd _ => none
  | .hashCmd _ => none
  | .fenceCommand _ => none
  | .waitcRecheck _ => none
  | .waitcTimeout _ => none
  | .launchComplete _ => none
  | .copyCommandComplete _ => none
  | .doneAdvance _ => none
  | .notifyMessage _ => none
  | .doorbellTailWrite _ _ => none
  | .objectLoad _ => none
  | .objectUnload _ _ => none
  | .barrierEntryWrite _ _ _ _ _ => none
  | .migrationComplete _ => none
  | .trackerThreshold _ _ _ => none
  | .trackerPeriodEnd _ => none
  | .fmeWrite _ _ _ => none
  | .fminvWrite _ => none
  | .promoteCopyComplete _ _ => none
  | .scrubPass _ _ => none
  | .pcFailure _ _ => none
  | .spareCopyComplete _ _ => none
  | .stackLost _ => none
  | .replicaAnswer _ => none
  | .replicaWrite _ => none
  | .homeWriteApply _ _ => none
  | .portEnable _ => none
  | .trainingComplete _ _ => none
  | .trainingFailed _ => none
  | .lanesLost _ _ => none
  | .portFence _ => none
  | .replayLimit _ => none
  | .portRetrain _ => none
  | .partnerLost _ => none
  | .flitCrcFailure _ => none
  | .linkstatClear _ _ => none
  | .hostMemoryRead _ _ _ => none
  | .hostMemoryWrite _ _ _ => none
  | .linkCompletion _ => none
  | .worldBitWrite _ _ => none
  | .traceLossRecord _ => none
  | .bootStart _ => none
  | .stage1 _ _ => none
  | .stage2 _ => none
  | .bootWatchdog => none
  | .powerFault => none
  | .thermalTrip => none
  | .bootok => none
  | .clrcnt => none
  | .restart => none
  | .gtcCorrection _ => none
  | .powerCapStep _ => none
  | .registerWrite _ => none
  | .convoyIssue _ _ => none
  | .standbyPowerLoss => none

end Sys2Proof
end

