-- ==== Sys2Proof/Machine/Words.lean ====
section
/-! DEFINITION. What a word is as a member of a convoy: its class (R58), the sluices it uses (R10), whether its effect can be
discarded (R308), and what it writes that the scalar side may wait for (R149, R151). -/

namespace Sys2Proof.Machine

/-- Outcome of a meaning. -/
abbrev Out := Host.Outcome State Fault Refusal

/-- Major opcode of a word (R47). -/
def majorOf (w : BitVec 32) : Nat := fldN w 25 6
/-- Minor opcode of a V3, VR or VM word. -/
def minorOf (w : BitVec 32) : Nat := fldN w 0 2
/-- The convoy bit. -/
def cBit (w : BitVec 32) : Bool := fldN w 31 1 == 1

/-- R57: the convoy-capable majors. -/
def convoyCapable (w : BitVec 32) : Bool := decide (0x15 ≤ majorOf w) && decide (majorOf w ≤ 0x37)

/-- The member classes of which a convoy holds at most one (R58). -/
inductive MemberClass where
  | memory
  | copy
  | matrix
  | divide
  | rill
  | crossElement
  | scalarResult
  deriving DecidableEq, Repr

/-- The class of a convoy-capable word (R58). -/
def classOf (w : BitVec 32) : Option MemberClass :=
  let m := majorOf w
  let n := minorOf w
  if m = 0x2C ∧ n ≤ 1 then some .memory
  else if 0x30 ≤ m ∧ m ≤ 0x35 then some .memory
  else if m = 0x36 then some .copy
  else if m = 0x37 then some .matrix
  else if (m = 0x16 ∧ 1 ≤ n) ∨ (m = 0x17 ∧ n = 0) ∨ (m = 0x1D ∧ n = 3) ∨ (m = 0x1F ∧ n = 0) then some .divide
  else if m = 0x2C ∨ (0x2D ≤ m ∧ m ≤ 0x2F) then some .rill
  else if (m = 0x24 ∧ n ≤ 1) ∨ (m = 0x25 ∧ n = 2) ∨ (m = 0x27 ∧ n = 2) then some .scalarResult
  else if m = 0x26 ∨ m = 0x27 ∨ m = 0x28 ∨ m = 0x29 ∨ m = 0x2A then some .crossElement
  else none

/-- R10: the word takes a VMQ entry (majors 0x30 to 0x35). -/
def usesVmq (w : BitVec 32) : Bool := decide (0x30 ≤ majorOf w) && decide (majorOf w ≤ 0x35)
def usesCpq (w : BitVec 32) : Bool := majorOf w == 0x36
def usesMxq (w : BitVec 32) : Bool := majorOf w == 0x37

/-- A member of a memory class that reads or writes memory on the vector side: majors 0x30 to 0x35, vldg, vstg. -/
def isVecMem (w : BitVec 32) : Bool := classOf w == some .memory

/-- A member that writes memory, a braid or a cache, or starts an asynchronous load: what it did cannot be taken back (R308). -/
def isFirm (w : BitVec 32) : Bool :=
  let m := majorOf w
  let n := minorOf w
  (m == 0x2C && n == 1) || (m == 0x30 && n == 3) || m == 0x31 || m == 0x32 || (m == 0x33 && n != 2) || (m == 0x34 && n != 0)
    || m == 0x35

/-- A member after which earlier results of the strand can no longer be discarded: a firm one, or one that starts a `cpyv` or
a matrix operation (R308). -/
def isAnchor (w : BitVec 32) : Bool := isFirm w || majorOf w == 0x37 || (majorOf w == 0x36 && minorOf w == 1)

/-- The word is a vector atomic with acquire-release order: the scalar side waits for it (R264 note d). -/
def isAcqRel (w : BitVec 32) : Bool :=
  (majorOf w == 0x32 || (majorOf w == 0x33 && minorOf w == 0)) && fldN w 3 2 == 2

/-- The word is a `vlda`. -/
def isVlda (w : BitVec 32) : Bool := majorOf w == 0x30 && minorOf w == 3

/-- R317: the eddy rechecks majors 0x15 to 0x2B and the rill instructions but vldg and vstg. -/
def eddyChecks (w : BitVec 32) : Bool :=
  let m := majorOf w
  (decide (0x15 ≤ m) && decide (m ≤ 0x2B)) || (m == 0x2C && decide (2 ≤ minorOf w)) || (decide (0x2D ≤ m) && decide (m ≤ 0x2F))

/-- The mask register a word writes, if it writes one. -/
def maskWritten (w : BitVec 32) : Option Nat :=
  let m := majorOf w
  if (0x20 ≤ m ∧ m ≤ 0x23) ∨ (m = 0x24 ∧ 2 ≤ minorOf w) then some (fldN w 19 3) else none

/-- The grant register a word writes, if it writes one (R50). -/
def grantWritten (w : BitVec 32) : Option Nat :=
  if 0x2C ≤ majorOf w ∧ majorOf w ≤ 0x2F then some (fldN w 4 3) else none

/-- The last queued convoy that satisfies a test on its words. -/
def lastConvoy (viq : List Convoy) (p : BitVec 32 → Bool) : Option Nat :=
  ((viq.filter (fun c => c.words.any p)).getLast?).map Convoy.seq

end Sys2Proof.Machine
end

