-- ==== Sys2Proof/Machine/Ops.lean ====
section
/-! DEFINITION. The named operations the meanings are written from: registers of the executing strand, fault records
and halting (R303 to R306, R120), the strip store buffer (R229, R311), error consumption (R313, R315), the VIQ
(R59, R300), barriers (R131) and trace records (R349). -/

namespace Sys2Proof.Machine

/-! ## The executing strand -/

/-- The strand whose instruction is executed. -/
def State.me (s : State) : Strand := s.strand s.cur.src

/-- Change the executing strand. -/
def State.upd (s : State) (f : Strand → Strand) : State := s.setStrand s.cur.src (f s.me)

/-- Change a strand. -/
def State.updAt (s : State) (src : Nat) (f : Strand → Strand) : State := s.setStrand src (f (s.strand src))

/-- A scalar register; s0 reads as zero (R61). -/
def Strand.reg (t : Strand) (n : Nat) : Word := if n = 0 then 0 else t.s.getD n 0

/-- Write a scalar register; a write to s0 is discarded (R61). -/
def Strand.setReg (t : Strand) (n : Nat) (w : Word) : Strand := if n = 0 then t else { t with s := t.s.set n w }

/-- Read a scalar register of the executing strand. -/
def State.rd (s : State) (n : BitVec 5) : Word := s.me.reg n.toNat

/-- The scalar instruction is complete: the PC moves past it (R47) and the strand runs. -/
def Strand.advance (t : Strand) : Strand :=
  { t with pc := t.pc + 4, wait := .none, st := .running, scalarExempt := false }

/-- Write sd and go on to the next instruction. -/
def State.wrNext (s : State) (n : BitVec 5) (w : Word) : State := s.upd (fun t => (t.setReg n.toNat w).advance)

/-- Go on to the next instruction. -/
def State.goNext (s : State) : State := s.upd Strand.advance

/-- The executing strand waits, its PC at the instruction (R118). -/
def State.waitFor (s : State) (w : Wait) : State := s.upd (fun t => { t with st := .waiting, wait := w })

/-- The executing strand's context, die and world. -/
def State.ctxOf (s : State) (src : Nat) : Nat := (s.strand src).bind.ctx

def State.gtcOf (s : State) (src : Nat) : Word := (s.die (dieOf src)).gtc

/-! ## Groups and launches -/

/-- The entry of a key in an association list. -/
def look {κ α : Type} [DecidableEq κ] (l : List (κ × α)) (k : κ) : Option α :=
  match l with
  | [] => none
  | (j, x) :: r => if j = k then some x else look r k

/-- Replace or add the entry of a key. -/
def put {κ α : Type} [DecidableEq κ] (l : List (κ × α)) (k : κ) (x : α) : List (κ × α) :=
  match l with
  | [] => [(k, x)]
  | (j, y) :: r => if j = k then (k, x) :: r else (j, y) :: put r k x

def State.group (s : State) (k : GroupKey) : Group := (look s.groups k).getD {}
def State.setGroup (s : State) (k : GroupKey) (g : Group) : State := { s with groups := put s.groups k g }
def State.launch (s : State) (k : LaunchKey) : Launch := (look s.launches k).getD {}
def State.setLaunch (s : State) (k : LaunchKey) (l : Launch) : State := { s with launches := put s.launches k l }
def Strand.group (t : Strand) : GroupKey := ⟨t.bind.launch, t.bind.gix⟩

/-! ## Trace (R347 to R350) -/

/-- Bytes of a trace record (R349). -/
def TraceRec.size (r : TraceRec) : Nat := 16 + 8 * r.body.length

/-- The bytes of a record, in their layout (R349). -/
def TraceRec.bytes (r : TraceRec) : List Byte :=
  leBytes 8 r.gtc.toNat ++ leBytes 2 r.source ++ leBytes 1 r.kind ++ leBytes 1 (if r.secure then 1 else 0) ++ leBytes 2 r.ctx
    ++ leBytes 2 0 ++ r.body.flatMap (fun w => leBytes 8 w.toNat)

/-- Hand a record to a die's trace unit: it is dropped and counted when the 1 MiB SRAM is full, or when a
non-secure unit's sideband is off (R348). -/
def State.traceAt (s : State) (die : Nat) (r : TraceRec) : State :=
  let d := s.die die
  let full := decide ((d.trace.map TraceRec.size).sum + r.size > 2 ^ 20)
  if full || (!d.traceWorld && !d.sideband) then
    s.setDie die { d with dropped := d.dropped + 1, firstDrop := if d.dropped = 0 then r.gtc else d.firstDrop }
  else s.setDie die { d with trace := d.trace ++ [r] }

/-- A record of a strand, as the world policy lets it out (R350): for a secure context only retirement and stop
records, and of their fields only the PC. -/
def State.trace (s : State) (src kind : Nat) (body : List Word) : State :=
  let t := s.strand src
  let d := s.die (dieOf src)
  if t.bind.secure then
    if d.allowSec && (kind == 1 || kind == 3) then
      s.traceAt (dieOf src) ⟨d.gtc, src, kind, true, t.bind.ctx, [body.headD 0, 0]⟩
    else s
  else s.traceAt (dieOf src) ⟨d.gtc, src, kind, false, t.bind.ctx, body⟩

/-! ## Barriers (R131, R132) -/

/-- The barrier entry of a group with a local number: its cluster, its table index and the entry. -/
def State.barrierOf (s : State) (cl : Nat) (k : GroupKey) (b : Nat) : Option (Nat × Barrier) :=
  (s.cluster cl).barriers.find? (fun (_, e) => e.bound && e.owner == some k && e.local_ == b)

def State.setBarrier (s : State) (cl ix : Nat) (b : Barrier) : State :=
  let c := s.cluster cl
  s.setCluster cl { c with barriers := c.barriers.set ix b }

/-- R131: the phase in progress completes when arrivals and ended bits cover the group. -/
def Barrier.complete (b : Barrier) : Barrier :=
  if (List.range b.size).all (fun j => b.arr.getLsbD j || b.ended.getLsbD j) then
    { b with phase := b.phase + 1, arr := 0 }
  else b

/-- Set a strand's arrival bit. -/
def Barrier.arrive (b : Barrier) (j : Nat) : Barrier := { b with arr := b.arr ||| BitVec.ofNat 16 (2 ^ j) }
/-- Set a strand's ended bit. -/
def Barrier.end_ (b : Barrier) (j : Nat) : Barrier := { b with ended := b.ended ||| BitVec.ofNat 16 (2 ^ j) }

/-! ## Accesses of a strand: watch ranges, tracker, links, buffers -/

/-- R344: an access of bytes a to a + w - 1 matches an enabled range. -/
def Strand.watchHit (t : Strand) (rd wr : Bool) (a w : Nat) : Bool :=
  (List.range 4).any (fun n =>
    let c := bitsN t.csr.watchctl (4 * n) 4
    let lo := bitsN (t.csr.watch.getD (2 * n) 0) 0 48
    let hi := bitsN (t.csr.watch.getD (2 * n + 1) 0) 0 48
    decide (c % 2 = 1) && ((rd && decide (c / 2 % 2 = 1)) || (wr && decide (c / 4 % 2 = 1)))
      && decide (lo ≤ hi) && decide (a ≤ hi) && decide (lo ≤ a + w - 1))

/-- THRESH, where 0 acts as 1. -/
def Die.thresh (d : Die) : Nat := max 1 (bitsN d.trkcfg 48 16)

/-- The counter of a frame takes a value; `c`: it crossed THRESH before (R218). -/
def Die.countAt (d : Die) (src frame n : Nat) (c : Bool) : Die :=
  let hit := !c && decide (d.thresh ≤ n)
  { d with counters := d.counters.set frame (n, c || hit)
           crossings := if hit then d.crossings ++ [(⟨frame, src, d.gtc, n, 0, 0⟩ : Crossing)] else d.crossings }

/-- Put a frame and its count where it belongs: higher counts first, the lower frame on a tie. -/
def insertHot (x : Nat × Nat) (l : List (Nat × Nat)) : List (Nat × Nat) :=
  match l with
  | [] => [x]
  | y :: r => if y.2 < x.2 ∨ (y.2 = x.2 ∧ x.1 ≤ y.1) then x :: y :: r else y :: insertHot x r

/-- Frames that crossed THRESH, by count and then by frame address (R218). -/
def Die.hottest (d : Die) : List (Nat × Nat) :=
  let crossed := (d.counters.filter (fun (_, c) => c.2)).map (fun (f, c) => (f, c.1))
  crossed.foldr insertHot []

/-- A period ends (R218, R280): the frames to move, counters at 0, and the next period. -/
def Die.endPeriod (d : Die) : Die :=
  { d with moves := d.moves ++ (if bitN d.trkcfg 1 then d.hottest.take (bitsN d.trkcfg 36 6) else []), counters := []
           periodStart := d.periodStart + BitVec.ofNat 64 (2 ^ d.periodLen), periodLen := bitsN d.trkcfg 8 8 }

/-- The period in progress is over. -/
def Die.periodOver (d : Die) : Bool := bitN d.trkcfg 0 && decide (2 ^ d.periodLen ≤ (d.gtc - d.periodStart).toNat)

/-- The periods that are over have ended: the first with its counts, those after it with none (R218, R280). -/
def Die.endDue (d : Die) : Die :=
  if d.periodOver then
    let e := d.endPeriod
    { e with periodStart := e.periodStart + BitVec.ofNat 64 ((e.gtc - e.periodStart).toNat / 2 ^ e.periodLen * 2 ^ e.periodLen) }
  else d

/-- The die's tracker counts accesses to a frame with the entry (R218). -/
def Die.tracks (d : Die) (f : Fme) : Bool := bitN d.trkcfg 0 && f.kind == 3 && f.t

/-- R218: the die's tracker counts an access to a tracked host frame, in the period that its time lies in (R280). -/
def State.countAccess (s : State) (die src : Nat) (x : Xl) : State :=
  if !(s.die die).tracks x.fme then s
  else
    let d := (s.die die).endDue
    s.setDie die (match d.counters.find x.frame with
      | none => if d.counters.length < 4096 then d.countAt src x.frame 1 false else d
      | some (n, c) => d.countAt src x.frame (min (n + 1) (2 ^ 32 - 1)) c)

/-- A core that reads a line with aliases holds a copy of it (R273). -/
def State.seeLine (s : State) (line : Nat) : State :=
  if s.aliased line && !s.aliasSeen.contains line then { s with aliasSeen := line :: s.aliasSeen } else s

/-- An access of a strand was translated: both maps' entries are cached (R208). -/
def State.see (s : State) (src : Nat) (va : Word) (x : Xl) : State := s.cacheXl (dieOf src) (s.ctxOf src) va x (some (coreOf src))

/-- The tracker counts element accesses of stores to a frame, as they are performed (R218, R280). -/
def State.countStores (s : State) (src fa n : Nat) : State :=
  match n with
  | 0 => s
  | k + 1 =>
    let f := s.fme (dieOf src) (fa / 65536)
    State.countStores (s.countAccess (dieOf src) src ⟨fa / 65536, fa, f, none⟩) src fa k

/-- Overlay bytes (by key) on a value read from a key. -/
def overlay (bs : List Byte) (key : Nat) (w : List (Nat × Byte)) : List Byte :=
  bs.zipIdx.map (fun (b, i) => match (w.filter (fun (k, _) => k == key + i)).getLast? with | some (_, y) => y | none => b)

/-- Nibble mask of `n` bytes from offset `o` of a line. -/
def lineMask (o n : Nat) : BitVec 128 := BitVec.ofNat 128 ((2 ^ (2 * n) - 1) * 2 ^ (2 * o))

/-- Bytes from offset `o` of a line, as the line's bits. -/
def lineData (o : Nat) (bs : List Byte) : BitVec 512 := BitVec.ofNat 512 (leNat bs * 2 ^ (8 * o))

/-- Bytes a source reads at a place: memory, under its own writes still in flight to another die's home (R268). -/
def State.readFor (s : State) (src : Nat) (p : Place) (n : Nat) : List Byte :=
  let bs := s.readPlace p n
  match s.flyWrites.filter (fun f => f.source == src) with
  | [] => bs
  | fs => bs.zipIdx.map (fun (b, i) =>
      fs.foldl (fun y f => if f.line = lineOf (p.key + i) then lineByte f.mask f.data ((p.key + i) % 64) y else y) b)

/-- Writes of a source are on their way to their homes (R268). -/
def State.flying (s : State) (src : Nat) : Bool := s.flyWrites.any (fun f => f.source == src)

/-- A write to a host or peer location is acknowledged later (R335). -/
def State.linkNote (s : State) (src : Nat) (va : Word) (p : Place) (copy : Option Nat := none) : State :=
  match p with
  | .host a =>
    let k := s.portOf (dieOf src) a
    let q := s.port k
    s.setPort k { q with inflight := q.inflight ++ [(⟨src, copy, va, a, true, (s.strand src).bind.launch⟩ : LinkReq)] }
  | _ => s

/-- The core whose L1 takes a line that a strand stores to: its own, or the slice of a fused cluster (R222, R224). -/
def State.l1Core (s : State) (src line : Nat) : Nat :=
  if (s.cluster (clusterOf src)).fused then clusterOf src * 4 + line % 4 else coreOf src

/-- What reaching places does beside giving their bytes: the clock of the die (R268), and copies of lines with aliases (R273). -/
def State.meetLines (s : State) (die : Nat) (ps : List Place) : State :=
  ps.foldl (fun s p => (s.clockFrom die p).seeLine (lineOf p.key)) s

/-- What reading places does beside giving their bytes: reader counts (R238), and what reaching them does. -/
def State.readLines (s : State) (die : Nat) (ps : List Place) : State :=
  (s.countReads (ps.map (fun p => lineOf p.key))).meetLines die ps

/-- How a store is made: the kind of its record (R304), whether it is streaming (R226), and its element accesses (R218). -/
structure How where
  kind : Nat := 6
  stream : Bool := false
  elems : Nat := 1
  deriving DecidableEq, Repr

/-- A write within a line leaves for its home with its die's vector clock, which counts it (R268). -/
def State.sendWrite (s : State) (src : Nat) (va : Word) (p : Place) (core : Option Nat) (how : How) (m : BitVec 128) (d : BitVec 512) : State :=
  let die := dieOf src
  let s := if p.home = die then s else s.setDie die ((s.die die).sent die)
  { s with flyWrites := s.flyWrites ++
      [(⟨src, die, p.home, lineOf p.key, m, d, (s.die die).counts, core, (s.strand src).bind, va, how.kind⟩ : FlyWrite)] }

/-- Offset of the lowest byte a mask names. -/
def maskFirst (m : BitVec 128) : Nat := ((List.range 64).find? (fun i => m.getLsbD (2 * i) || m.getLsbD (2 * i + 1))).getD 0

/-- The L1 that takes a line a strand stores to: a streaming store uses only a line that is in it already (R222, R226). -/
def State.l1For (s : State) (src line : Nat) (stream : Bool) : Option Nat :=
  let k := s.l1Core src line
  if stream && !s.l1.any (fun l => l.line == line && l.core == k) then none else some k

/-- Perform a store within the line at a place at its home (R222): through the L1, unless it is streaming (R226). A home on
another die may apply it later, and then the source's later stores follow it (R264, R268); so does a store of a die that knows of
another die's write which is still on its way there (R268). -/
def State.performBits (s : State) (src : Nat) (va : Word) (p : Place) (how : How) (m : BitVec 128) (d : BitVec 512) : State :=
  let o := maskFirst m
  let s := s.linkNote src (va + BitVec.ofNat 64 o) (p.plus o)
  let core := s.l1For src (lineOf p.key) how.stream
  if (p.home ≠ dieOf src && s.flyHold) || s.flying src || s.flyWrites.any (s.owed (dieOf src) p) then s.sendWrite src va p core how m d
  else (s.clockTo (dieOf src) p).writeLine core (lineOf p.key) m d

/-- Perform a write of bytes at its home at once, as an atomic does (R147); what a copy writes to a host location is acknowledged
later (R335). -/
def State.performNow (s : State) (src : Nat) (va : Word) (p : Place) (bs : List Byte) (copy : Option Nat := none) : State :=
  let s := if copy.isSome then s.linkNote src va p copy else s
  (s.clockTo (dieOf src) p).writePlace p bs

/-- Nibbles of a buffer entry that a later store of an older strip overwrites are gone (R278). -/
def BufLine.without (b : BufLine) (m : BitVec 128) : BufLine := { b with mask := b.mask &&& ~~~m }

/-- An entry writes the line, of the replica. -/
def BufLine.sameLine (b c : BufLine) : Bool := b.fa == c.fa && b.replica == c.replica

/-- Entries lose what a later store to their line overwrites (R278). -/
def overwrite (buf : List BufLine) (n : BufLine) : List BufLine :=
  buf.map (fun c => if c.sameLine n then c.without n.mask else c)

/-- A store directly behind another one of its strip to the same line, or a count directly behind another one, joins its entry. -/
def BufLine.join (b n : BufLine) : BufLine :=
  { b with mask := b.mask ||| n.mask, data := (b.data &&& ~~~(maskBits512 n.mask)) ||| (n.data &&& maskBits512 n.mask)
           stream := b.stream && n.stream, elems := b.elems + n.elems }

/-- The two can share an entry. -/
def BufLine.joins (b n : BufLine) : Bool := b.sameLine n && b.op == n.op && b.strip == n.strip

/-- Add an entry to the buffer, whose entries stand in the order in which they take effect: strips in order, and the work of a strip
as it came (R263, R278). What younger strips stored in the line before is overwritten (R278). -/
def bufPut (buf : List BufLine) (n : BufLine) : List BufLine :=
  match buf with
  | [] => [n]
  | b :: r =>
    if n.strip < b.strip then n :: overwrite (b :: r) n
    else if b.joins n && (r.head?.all (fun c => decide (n.strip < c.strip))) then b.join n :: overwrite r n
    else b :: bufPut r n

/-- Add a write within the line at frame address `fa` to the buffer (R311). -/
def bufAdd (buf : List BufLine) (fa : Nat) (rep : Option Nat) (strip : Nat) (va : Word) (how : How) (m : BitVec 128) (d : BitVec 512) :
    List BufLine :=
  bufPut buf ⟨fa, rep, m, d, strip, va, how.kind, how.stream, how.elems, .store⟩

/-- The buffer has room for what it holds (R311). -/
def bufFits (buf : List BufLine) : Bool := decide (buf.length ≤ 512) || decide (bufLines buf ≤ 512)

/-- The replica a store through an entry reaches, for the buffer (R229). -/
def Xl.replica (x : Xl) (die : Nat) : Option Nat := if x.fme.kind = 5 then some (x.fme.replicaDie die) else none

/-- Byte `a` (a frame address) as the strand's buffered stores leave it, over `old`: the youngest wins. -/
def bufByte (buf : List BufLine) (rep : Option Nat) (a : Nat) (old : Byte) : Byte :=
  buf.foldl (fun y b => if b.fa = a / 64 * 64 ∧ b.replica = rep then lineByte b.mask b.data (a % 64) y else y) old

/-- Bytes a strand's load returns (R229): memory under its strip store buffer. -/
def State.loadBytes (s : State) (src : Nat) (x : Xl) (p : Place) (n : Nat) : List Byte :=
  let bs := s.readFor src p n
  match (s.strand src).buf with
  | [] => bs
  | buf => bs.zipIdx.map (fun (b, i) => bufByte buf (x.replica (dieOf src)) (x.fa + i) b)

/-- The start of a place's 64-byte line. -/
def Place.line (p : Place) : Place :=
  match p with
  | .deep d o => .deep d (o / 64 * 64)
  | .shallow d o => .shallow d (o / 64 * 64)
  | .host a => .host (a / 64 * 64)

/-! ## Strips (R229, R311 to R313) -/

/-- The place a buffered line goes to. -/
def State.bufPlace (s : State) (src : Nat) (b : BufLine) : Except Nat Place :=
  match s.resolve (dieOf src) true .write b.fa with
  | .error c => .error c
  | .ok x => match x.place, b.replica with
    | some (.deep d o), some r => .ok (if x.fme.kind = 5 then .deep r o else .deep d o)
    | some p, _ => .ok p
    | none, _ => .error Cause.frameFault

/-- A buffered store waits while its frame moves (R216), and it and the flush of a line while its PC is copied (R211). -/
def State.bufBlocked (s : State) (src : Nat) (b : BufLine) : Bool :=
  (b.op == .store && (s.fme (dieOf src) (b.fa / 65536)).w)
    || (b.op != .count && (match s.bufPlace src b with | .ok p => s.placeBusy p | .error _ => false))

/-- The address of the lowest byte a buffered line stores to. -/
def BufLine.first (b : BufLine) : Word :=
  b.va + BitVec.ofNat 64 (maskFirst b.mask)

/-- A buffered or queued store that could not be performed: its cause, kind and address (R315). -/
structure StoreFail where
  cause : Nat
  kind : Nat
  va : Word
  deriving DecidableEq, Repr

/-- How the stores of an entry are made. -/
def BufLine.how (b : BufLine) : How := { kind := b.kind, stream := b.stream, elems := b.elems }

/-- A line is written back behind a strand's stores, which have reached it (R244): from the L1s, and with `all` or a reader count from
the MSC too (R238). -/
def State.flushLine (s : State) (src : Nat) (b : BufLine) (all : Bool) : State :=
  match s.bufPlace src b with
  | .error _ => s
  | .ok p => (s.landWrites (fun f => f.source == src)).evictLine (lineOf p.key) (all || (s.counted.find (lineOf p.key)).isSome)

/-- Perform one entry of the buffer; a store that fails is not performed and gives its cause and address (R311, R315). -/
def State.performLine (s : State) (src : Nat) (b : BufLine) : State × Option StoreFail :=
  match b.op with
  | .flush all => (s.flushLine src b all, none)
  | .count => (s.countStores src b.fa b.elems, none)
  | .store =>
    if b.mask = 0 then (s.countStores src b.fa b.elems, none)
    else match s.bufPlace src b with
    | .error c => (s, some ⟨c, b.kind, b.first⟩)
    | .ok p =>
      if b.mask ≠ BitVec.allOnes 128 ∧ s.poisoned p 64 then (s, some ⟨Cause.poison, b.kind, b.first⟩)
      else ((s.performBits src b.va p b.how b.mask b.data).countStores src b.fa b.elems, none)

/-- The tracker counts an access of a strand to a frame with the entry `f`: behind the stores of the strand's buffer that it counts
and that came before (R262, R280). -/
def State.countAfter (s : State) (src : Nat) (strip : Option Nat) (fa : Nat) (f : Fme) : State :=
  let die := dieOf src
  let i := strip.getD 0
  let t := s.strand src
  if (s.die die).tracks f && t.buf.any (fun b => decide (b.strip ≤ i) && (s.die die).tracks (s.fme die (b.fa / 65536))) then
    s.updAt src (fun t => { t with buf := bufPut t.buf ⟨fa / 64 * 64, none, 0, 0, i, 0, 0, false, 1, .count⟩ })
  else s.countAccess die src ⟨fa / 65536, fa, f, none⟩

/-- Bookkeeping of a vector load or an atomic that was made: the maps are cached (R208) and the tracker counts (R218, R280). -/
def State.touch (s : State) (src : Nat) (strip : Option Nat) (va : Word) (x : Xl) : State := (s.see src va x).countAfter src strip x.fa x.fme

/-- Bookkeeping of a scalar load: it is counted behind the stores of the scalar store queue too. -/
def State.touchScalar (s : State) (src : Nat) (va : Word) (x : Xl) : State :=
  let s := s.see src va x
  let die := dieOf src
  let t := s.strand src
  if (s.die die).tracks x.fme && t.ssq.any (fun q => (s.die die).tracks (s.fme die (q.fa / 65536))) then
    s.updAt src (fun t => { t with ssq := t.ssq.zipIdx.map (fun (q, i) => if i + 1 = t.ssq.length then { q with after := q.after ++ [x.fa] } else q) })
  else s.countAfter src t.openStrip x.fa x.fme

/-- The loads counted behind a queued store. -/
def State.countBehind (s : State) (src : Nat) (strip : Option Nat) (fas : List Nat) : State :=
  fas.foldl (fun s fa => s.countAfter src strip fa (s.fme (dieOf src) (fa / 65536))) s

/-- Perform the entries of the buffer in their order (R278), and the failures met. -/
def State.performLines (s : State) (src : Nat) (bs : List BufLine) : State × List StoreFail :=
  match bs with
  | [] => (s, [])
  | b :: r =>
    let (s1, f) := s.performLine src b
    let (s2, fs) := State.performLines s1 src r
    (s2, (match f with | some x => [x] | none => []) ++ fs)

/-! ## Landings and timelines (R66, R246) -/

/-- The element group of a `vlda` or `vldx` in its register, full. -/
def Landing.into (l : Landing) (x : VecState) : VecState :=
  { x with
    v := x.v.set l.reg (BitVec.ofNat 8192 (l.elems.foldl (fun g e => setElem g l.ew e.1 e.2) (x.reg l.reg).toNat))
    full := x.full.set l.reg (x.fullOf l.reg ||| BitVec.ofNat 16 (2 ^ l.grp)) }

/-- The kept states of convoys also receive what a producer brings, where it is current there (R308). -/
def Strand.landSnaps (t : Strand) (seq reg : Nat) (f : VecState → VecState) : Strand :=
  { t with viq := t.viq.map (fun c =>
      { c with snap := c.snap.map (fun x => if x.live.contains (seq, reg) then { x with vec := f x.vec } else x) }) }

/-- A number of the asynchronous-load timeline is complete when nothing of it is left to land. -/
def Strand.asyncDone (t : Strand) (num : Option Nat) : Strand :=
  match num with
  | none => t
  | some n => if t.lands.any (fun l => l.num == some n) then t else { t with tlAsync := { t.tlAsync with complete := t.tlAsync.complete ++ [n] } }

/-- Outstanding landing number `ix` lands. -/
def Strand.land (t : Strand) (ix : Nat) : Strand :=
  match t.lands[ix]? with
  | none => t
  | some l =>
    let t := if l.live then { t with vec := l.into t.vec } else t
    ({ t.landSnaps l.seq l.reg l.into with lands := t.lands.eraseIdx ix }).asyncDone l.num

/-- The reads of long-latency loads are performed: nothing of them takes place later any more (R231, R262). -/
def Strand.fixReads (t : Strand) : Strand :=
  if t.lands.all (fun l => l.from_.isEmpty) then t else { t with lands := t.lands.map (fun l => { l with from_ := [] }) }

/-- Those of a convoy are. -/
def Strand.fixReadsOf (t : Strand) (seq : Nat) : Strand :=
  { t with lands := t.lands.map (fun l => if l.seq = seq then { l with from_ := [] } else l) }

/-- Everything outstanding lands. -/
def Strand.landAll (t : Strand) (fuel : Nat) : Strand :=
  match fuel with
  | 0 => t
  | f + 1 => Strand.landAll (t.land 0) f

/-- The number up to which a timeline is complete: `fuel` numbers are looked at. -/
def Timeline.prefix_ (l : Timeline) (c : Nat) (fuel : Nat) : Nat :=
  match fuel with
  | 0 => c
  | f + 1 => if l.complete.contains (c + 1) then Timeline.prefix_ l (c + 1) f else c

/-- The counter moved to `n`. -/
def Timeline.moved (l : Timeline) (n : Nat) : Timeline :=
  { l with counter := BitVec.ofNat 64 n, complete := l.complete.filter (fun k => decide (n < k)) }

/-- A timeline of a strand: 0 copy, 1 matrix, 2 asynchronous load. -/
def Strand.timeline (t : Strand) (k : Nat) : Timeline := match k with | 0 => t.tlCopy | 1 => t.tlMatrix | _ => t.tlAsync
def Strand.setTimeline (t : Strand) (k : Nat) (l : Timeline) : Strand :=
  match k with | 0 => { t with tlCopy := l } | 1 => { t with tlMatrix := l } | _ => { t with tlAsync := l }

/-- What a counter is to be written as, where it moves. -/
def Strand.counterTo (t : Strand) (k : Nat) : Option Nat :=
  let l := t.timeline k
  let n := l.prefix_ l.counter.toNat l.complete.length
  if n = l.counter.toNat then none else some n

/-- Address of a counter (R246). -/
def Strand.counterVa (t : Strand) (k : Nat) : Word := t.csr.tlbase + BitVec.ofNat 64 (8 * (k % 3))

/-- A counter that is to move lies in a migrating frame (R216). -/
def State.counterBlocked (s : State) (src k : Nat) : Bool :=
  let t := s.strand src
  (t.counterTo k).isSome && s.ctxBlocked (dieOf src) t.bind.ctx (t.counterVa k)

/-- Write a counter as the largest complete prefix; one that cannot be written is passed over (assumption 23). -/
def State.writeCounter (s : State) (src k : Nat) : State :=
  let t := s.strand src
  match t.counterTo k with
  | none => s
  | some n =>
    let s' := match s.ctxWrite (dieOf src) t.bind.ctx (t.counterVa k) (leBytes 8 n) with
      | .ok s' => s'
      | .error _ => s
    s'.updAt src (fun t => t.setTimeline k ((t.timeline k).moved n))

/-- A landing outstanding reads its elements only now, where they can be read: a write performed since is seen (R231, R269). -/
def State.readLate (s : State) (src ix : Nat) : State :=
  match (s.strand src).lands[ix]? with
  | none => s
  | some l =>
    let n := l.ew / 8
    if l.from_.any (fun e => s.poisoned e.p n || s.placeBusy e.p || s.placeLost (dieOf src) e.p) then s
    else
      let late := l.from_.map (fun e => (e.ix, leNat (s.loadBytes src e.xl e.p n)))
      let elems := l.elems.map (fun x => ((late.find? (fun y => y.1 == x.1)).getD x))
      s.updAt src (fun t => { t with lands := t.lands.set ix { l with elems := elems } })

/-! ## Copies and matrix operations that have not finished -/

/-- MXPROG of an operation interrupted at a slice and element (R286). -/
def mxProgOf (trap : Bool) (slice elem : Nat) : Word :=
  BitVec.ofNat 64 (slice % 2 ^ 16 + elem % 2 ^ 16 * 2 ^ 16 + 2 ^ 32 + (if trap then 2 ^ 33 else 0))

/-- Producers outstanding on registers and not superseded: their convoys and the registers (R66). -/
def Strand.producers (t : Strand) : List (Nat × Nat) :=
  (t.lands.filter Landing.live).map (fun l => (l.seq, l.reg))
    ++ t.cpq.flatMap (fun o => o.live.map (fun r => (o.seq, r))) ++ t.mxq.flatMap (fun o => o.live.map (fun r => (o.seq, r)))

/-- No register that a copy or matrix operation under way reads or writes has been written over. -/
def Strand.opsWhole (t : Strand) : Bool :=
  t.cpq.all (fun o => o.live.length == o.regs) && t.mxq.all (fun o => o.live.length == o.acc.length && o.whole)

/-- The full/empty bits of a register whose element groups are all empty (R66). -/
def emptyBits (vlb : Nat) : BitVec 16 := BitVec.ofNat 16 (2 ^ 16 - 2 ^ (vlb / 512))

/-- The accumulators of an operation that is not complete, in the registers named: the slices already added, and empty, where it has
begun, full as they were where it has not (R298, R324). -/
def MxOp.unloadInto (o : MxOp) (into : Nat → Bool) (x : VecState) : VecState :=
  (o.acc.zipIdx).foldl (fun (x : VecState) (r, j) =>
    if into (o.vd + j) then
      (if o.begun then { x with v := x.v.set (o.vd + j) r, full := x.full.set (o.vd + j) (emptyBits o.vlb) }
        else { x with full := x.full.set (o.vd + j) 0xFFFF })
    else x) x

/-- Registers a `cpyv` that is not complete was to fill are full: what has not landed keeps its old value. -/
def CpOp.unloadInto (o : CpOp) (into : Nat → Bool) (x : VecState) : VecState :=
  { x with full := (o.live.filter into).foldl (fun f r => f.set r 0xFFFF) x.full }

/-- The registers of every copy and matrix operation that is not complete, as they are kept (R253, R298); `into` tells which
producers write there. -/
def Strand.unloadOps (t : Strand) (into : Nat → Nat → Bool) (x : VecState) : VecState :=
  t.mxq.foldl (fun x o => o.unloadInto (into o.seq) x) (t.cpq.foldl (fun x o => o.unloadInto (into o.seq) x) x)

/-- What is in force in a kept state, or in the registers as they are. -/
def Strand.inForce (t : Strand) (kept : Option Snap) (seq reg : Nat) : Bool :=
  match kept with
  | some p => p.live.contains (seq, reg)
  | none => t.producers.contains (seq, reg)

/-! ## Leaving the slots: pre-emption, a faulted context, `trap 0` (R85, R123, R152, R298, R308) -/

/-- A wait for a barrier phase that is over is satisfied: the instruction finishes (R120, R135). -/
def State.finishBarrier (s : State) (src : Nat) : State :=
  let t := s.strand src
  match t.wait with
  | .barrier sd b tok =>
    match s.barrierOf (clusterOf src) t.group b with
    | some (_, e) =>
      if e.phase.toNat = tok then s
      else s.setStrand src { (t.setReg sd.toNat (e.phase.zeroExtend 64)).advance with barTok := none }
    | none => s
  | _ => s

/-- The first matrix operation is part-way through a slice, which it resumed in and is to finish (R298). -/
def Strand.inSlice (t : Strand) : Bool :=
  match t.mxq with
  | o :: _ => !t.mxHeld && o.begun && o.elem != 0
  | [] => false

/-- A matrix operation stops at its slice boundary: MXPROG names the next slice (R298). -/
def Strand.parkMx (t : Strand) : Strand :=
  if t.inSlice then t
  else
    let prog := match t.mxq with
      | o :: _ => if t.mxHeld then t.csr.mxprog else if o.begun then mxProgOf o.exempt o.slice o.elem else 0
      | [] => t.csr.mxprog
    { t with mxHeld := true, csr := { t.csr with mxprog := prog } }

/-- Issue stops on a strand at its convoy boundary, and a matrix operation at its slice (R123 step 1, R298). -/
def Strand.park (t : Strand) : Strand :=
  { t.parkMx with st := .halted, vecHeld := true, replay := none, barDue := none }

/-- Stop the strands of a list. -/
def State.parkAll (s : State) (srcs : List Nat) : State :=
  srcs.foldl (fun s src => (s.finishBarrier src).updAt src Strand.park) s

/-- A queued scalar store is held by a migrating frame (R216) or a PC copy (R211). -/
def State.storeHeld (s : State) (src : Nat) (q : QStore) : Bool :=
  match s.resolve (dieOf src) true .write q.fa with
  | .ok x => x.fme.w || (match x.place with | some p => s.placeBusy p | none => false)
  | .error _ => false

def State.queueHeld (s : State) (src : Nat) : Bool := (s.strand src).ssq.any (s.storeHeld src)

/-- A buffered store of the strand is held by a migrating frame (R216). -/
def State.bufHeld (s : State) (src : Nat) : Bool := (s.strand src).buf.any (s.bufBlocked src)

/-- Nothing keeps a parked strand in its slot: its copies have drained or stopped at a fault, and its stores and
counters can be written (R85). -/
def State.settled (s : State) (src : Nat) : Bool :=
  let t := s.strand src
  (t.cpq.isEmpty || t.cpHeld) && !t.inSlice && !s.queueHeld src && !s.bufHeld src
    && (List.range 3).all (fun k => !(s.updAt src (fun t => t.landAll t.lands.length)).counterBlocked src k)

/-- A page of the strand's image lies in a migrating frame (R216). -/
def State.imageHeld (s : State) (src : Nat) : Bool :=
  let t := s.strand src
  let c := s.context t.bind.ctx
  let size := imageSize (s.vlb src) t.bind.matrix
  !spanAll (fun va => !s.ctxBlocked (dieOf src) t.bind.ctx va) (imageAt c t.bind.ix) size (size / 65536 + 2)

/-- Every member of a convoy has been performed and has its verdict, and its copy and matrix members are complete with their
counters written: the convoy can retire (R59, R317). -/
def Strand.finished (t : Strand) (c : Convoy) : Bool :=
  let written (l : Timeline) (n : Option Nat) : Bool := match n with | some k => decide (k ≤ l.counter.toNat) | none => true
  decide (c.words.length ≤ c.next) && c.eddyDue.isEmpty && c.pendStop.isNone
    && written t.tlCopy c.nCp && written t.tlMatrix c.nMx

/-- A member's scalar result (R59). -/
def Strand.takeScalar (t : Strand) (r : Option (Nat × Word)) : Strand :=
  match r with
  | some (n, w) => t.setReg n w
  | none => t

/-- A convoy that retires writes its scalar result (R59). -/
def Strand.retireHead (t : Strand) : Strand :=
  match t.viq with
  | [] => t
  | c :: r => { (t.fixReadsOf c.seq).takeScalar c.pendScalar with viq := r }

/-- A profile record of a sampled member on a lane group: its clock counts are free values (R352; assumption 13). -/
def State.profileLane (s : State) (src : Nat) (c : Convoy) (p : Sample) (lane groups elems : Nat) : State :=
  let f (k : Nat) : Nat := (Config.profileClocks (s.profDraws + k)).toNat
  ({ s with profDraws := s.profDraws + 4 } : State).traceAt (dieOf src) ⟨p.gtc, src, 4, false, s.ctxOf src,
    [c.pc, BitVec.ofNat 64 (p.slot + lane * 2 ^ 8 + groups % 2 ^ 16 * 2 ^ 16 + f 0 * 2 ^ 32),
     BitVec.ofNat 64 (elems + f 1 * 2 ^ 32), BitVec.ofNat 64 (f 2 + f 3 * 2 ^ 32), 0, 0]⟩

/-- The profile records of a sampled member that has completed the elements `did`, one for each lane group that holds one of them
(R62, R352). -/
def State.profile (s : State) (src : Nat) (c : Convoy) (p : Sample) (did : Nat → Bool) : State :=
  let gs := s.vlb src / 512
  let is := (List.range p.n).filter (fun i => decide (p.first ≤ i) && did i)
  ((s.core (coreOf src)).working.zipIdx.take gs).foldl (fun s (lane, j) =>
    let mine := is.filter (fun i => i * p.ew / 512 % gs == j)
    if mine.isEmpty then s else s.profileLane src c p lane ((mine.map (fun i => i * p.ew / 512)).dedup).length mine.length) s

/-- The sampled members of a convoy below `k` are over; of member `k` the elements `did` are (R352). -/
def State.profileTo (s : State) (src : Nat) (c : Convoy) (k : Nat) (did : Nat → Bool) : State :=
  c.samples.foldl (fun s p => if p.member < k then s.profile src c p (fun _ => true) else if p.member = k then s.profile src c p did else s) s

/-- What the convoys of a strand that leaves its slot have done, and keeps, is told (R308, R352). -/
def State.profileKept (s : State) (src : Nat) (l : List Convoy) : State :=
  match l with
  | [] => s
  | c :: r =>
    if c.snap.isNone && decide (c.words.length ≤ c.next) && c.pendStop.isNone then
      State.profileKept (s.profileTo src c c.words.length (fun _ => false)) src r
    else match c.snap with
      | some p => s.profileTo src c p.at_ (fun _ => false)
      | none => s.profileTo src c c.next (fun i => decide (i < c.from_))

/-- The records of a convoy that retires: the profiles of its sampled members, and its retirement record (R349, R352). -/
def State.traceRetire (s : State) (src : Nat) (c : Convoy) : State :=
  let s := s.profileTo src c c.words.length (fun _ => false)
  if bitN (s.strand src).csr.tracectl 0 then
    s.trace src 1 [c.pc, BitVec.ofNat 64 ((c.words.length - c.base - 1) % 4 + (if c.eddyHad && !c.eddyMiss then 4 else 0)
      + (if c.eddyMiss then 8 else 0) + (if c.stopped then 16 else 0))]
  else s

/-- Retire the convoys of a strand that can, oldest first, with their records. -/
def State.retireDone (s : State) (src fuel : Nat) : State :=
  match fuel with
  | 0 => s
  | f + 1 => match (s.strand src).viq with
    | [] => s
    | c :: _ => if (s.strand src).finished c then State.retireDone ((s.traceRetire src c).updAt src Strand.retireHead) src f else s

/-- Members of a convoy that are kept in the image when those from `k` on are to be performed again: of copies and matrix
operations, those that are not complete. -/
def Strand.kept (t : Strand) (c : Convoy) (k : Nat) : List Nat :=
  (List.range c.words.length).filter (fun i =>
    let w := c.words.getD i 0
    if usesCpq w || usesMxq w then
      decide (c.next ≤ i) || (usesCpq w && t.cpq.any (fun o => o.seq == c.seq)) || (usesMxq w && t.mxq.any (fun o => o.seq == c.seq))
    else decide (k ≤ i))

/-- A queued-convoy entry of some members of a convoy: with CPLINE where its copy stopped at a fault, and bit 8 where its
matrix member has begun (R85). -/
def Strand.entry (t : Strand) (c : Convoy) (ms : List Nat) : Convoy :=
  let ws := ms.map (fun i => c.words.getD i 0)
  let cp := if t.cpHeld then t.cpq.head?.filter (fun o => o.seq == c.seq) else none
  let mx := t.mxq.head?.filter (fun o => o.seq == c.seq)
  { seq := c.seq, pc := c.pc, words := ws, ops := ms.map (fun i => c.ops.getD i (0, 0))
    cpyDst := if ws.any usesCpq then c.cpyDst else 0, cpyChunk := if ws.any usesCpq then c.cpyChunk else 0
    samp := c.samp, strip := c.strip
    cpLine := if ws.any usesCpq then (cp.map CpOp.line).or c.cpLine else none
    mxInterrupted := ws.any usesMxq && (mx.map MxOp.begun).getD c.mxInterrupted }

/-- The entries of some members, in order: a matrix member that has begun stands alone (R323). -/
def Strand.entries (t : Strand) (c : Convoy) (ms : List Nat) : List Convoy :=
  let alone (i : Nat) : Bool := usesMxq (c.words.getD i 0) && (t.entry c [i]).mxInterrupted
  let before := ms.takeWhile (fun i => !alone i)
  let rest := ms.dropWhile (fun i => !alone i)
  (([before, rest.take 1, rest.drop 1]).filter (fun l => !l.isEmpty)).map (t.entry c)

/-- Where the member that the saved state begins with resumes, if it stopped part-way (R85 bit 10, R308). One that has committed nothing
because an operand had not landed is performed from the start: everything lands before a save (R66). -/
def Strand.resumePoint (t : Strand) (c : Convoy) : Option StopAt :=
  match c.snap with
  | some p => if p.resumed && !(p.forceBlock && p.estart == 0) then some { estart := p.estart, donemask := p.donemask, resval := p.resval } else none
  | none => match c.pendStop with
    | some w => if w.at_.forceBlock then none else some w.at_
    | none =>
      if 0 < c.from_ then some { estart := BitVec.ofNat 64 c.from_ }
      else if c.resumed && c.next == c.base && !(c.forceBlock && t.csr.estart == 0) then some { estart := t.csr.estart, donemask := t.csr.donemask, resval := c.resval }
      else none

/-- Entries of the oldest convoy whose results are not all kept, from member `k` on; the member that resumes part-way comes
first (R85). -/
def Strand.baseEntries (t : Strand) (c : Convoy) (k : Nat) (at_ : Option StopAt) : List Convoy :=
  let ms := t.kept c k
  match at_ with
  | some w =>
    let k := if w.ended then k + 1 else k
    { t.entry c [k] with resumed := true, resval := w.resval } :: t.entries c (ms.filter (· != k))
  | none => t.entries c ms

/-- The work of a strand as its image holds it (R85, R308): registers as they were before the oldest member whose results are
discarded, and the convoys that are queued again. `before` are entries of older convoys, of which only copies and matrix
operations remain. -/
def Strand.queueAgain (t : Strand) (before : List Convoy) (l : List Convoy) : Strand :=
  match l with
  | [] => { t with vec := t.unloadOps (t.inForce none) t.vec, viq := before, mxq := [], cpq := [], lands := [] }
  | c :: r =>
    if c.snap.isNone && decide (c.words.length ≤ c.next) && c.pendStop.isNone then
      Strand.queueAgain (t.takeScalar c.pendScalar) (before ++ t.entries c (t.kept c c.words.length)) r
    else
      let at_ := t.resumePoint c
      let k := match c.snap with | some p => p.at_ | none => c.next
      let mine := t.baseEntries c k at_
      let later := r.flatMap (fun d => t.entries d (t.kept d 0))
      let old := if at_.isSome then mine.take 1 ++ before ++ mine.drop 1 else before ++ mine
      let x := match c.snap with | some p => p.vec | none => t.vec
      let e := at_.getD {}
      let u := t.takeScalar (match c.snap with | some p => p.pend | none => c.pendScalar)
      { u with vec := t.unloadOps (t.inForce c.snap) x, viq := old ++ later, mxq := [], cpq := [], lands := []
               csr := if at_.isSome then { t.csr with estart := e.estart, donemask := e.donemask } else t.csr }

/-- The oldest convoy, where its next member has performed some of its elements and what came before it is kept: it stops at the
lowest element not performed (R308). -/
def Strand.stopPart (t : Strand) : Strand :=
  match t.viq with
  | [] => t
  | c :: r => if 0 < c.from_ && c.eddyDue.isEmpty && c.pendStop.isNone then { t with viq := { c with snap := none } :: r } else t

/-- The strand's work as its image holds it. -/
def Strand.unload (t : Strand) : Strand := t.stopPart.queueAgain [] t.stopPart.viq

/-- A queued store goes to a host or peer location whose link takes nothing more (R335). -/
def State.linkLost (s : State) (src : Nat) (q : QStore) (e : StoreFail) : Bool :=
  e.cause == Cause.memLost && (s.fme (dieOf src) (q.fa / 65536)).kind == 3

/-- Where a queued store goes, or what it meets: it replaces no line whole (R321). -/
def State.queuePlace (s : State) (src : Nat) (q : QStore) : Except StoreFail (Xl × Place) :=
  match s.resolve (dieOf src) true .write q.fa with
  | .error c => .error ⟨c, 3, q.va⟩
  | .ok x => match x.place with
    | none => .error ⟨Cause.frameFault, 3, q.va⟩
    | some p => if s.poisoned p q.bytes.length then .error ⟨Cause.poison, 3, q.va⟩ else .ok (x, p)

/-- A store to a line at once: what the strand's buffer holds of its bytes is older (R278). -/
def State.storeNow (s : State) (src : Nat) (va : Word) (fa : Nat) (rep : Option Nat) (p : Place) (how : How) (m : BitVec 128)
    (d : BitVec 512) : State :=
  let s := (s.performBits src va p how m d).countStores src fa how.elems
  let n : BufLine := { fa := fa, replica := rep, mask := m, data := d, strip := 0, va := va }
  if (s.strand src).buf.any (fun b => b.sameLine n) then s.updAt src (fun t => { t with buf := overwrite t.buf n }) else s

/-- A queued store joins its strip's buffer, or is performed where it has none; a failure is added to those met. A store to a link
that was fenced after it was made is never acknowledged (R335). -/
def State.takeQueued (s : State) (src : Nat) (q : QStore) (fails : List StoreFail) : State × List StoreFail :=
  match s.queuePlace src q with
  | .error e => (s, fails ++ [if s.linkLost src q e then { e with cause := 19 } else e])
  | .ok (x, p) =>
    let o := q.fa % 64
    let va := q.va - BitVec.ofNat 64 o
    let m := lineMask o q.bytes.length
    let d := lineData o q.bytes
    let s := match q.strip with
      | none => s.storeNow src va (q.fa / 64 * 64) (x.replica (dieOf src)) p.line { kind := 3 } m d
      | some i => s.updAt src (fun t => { t with
          buf := bufAdd t.buf (q.fa / 64 * 64) (x.replica (dieOf src)) i va { kind := 3 } m d })
    (s.countBehind src q.strip q.after, fails)

/-- The stores of a strand are performed, those of the scalar store queue first taken to their strips (R308); one that a fenced link
never acknowledged is among those that failed (R335). -/
def State.flushStores (s : State) (src : Nat) : State × List StoreFail :=
  let lost := (s.strand src).lostStore.toList.map (fun va => (⟨19, 3, va⟩ : StoreFail))
  let (s, f) := (s.strand src).ssq.foldl (fun (p : State × List StoreFail) q => p.1.takeQueued src q p.2) (s, lost)
  let (s, g) := s.performLines src (s.strand src).buf
  let t := s.strand src
  let strips := (t.strips.filter (fun r => some r.id == t.openStrip)).map (fun r => { r with why := if r.why = 0 then 6 else r.why })
  (s.updAt src (fun t => { t with buf := [], ssq := [], fsvMarks := [], strips := strips, lostStore := none }), f ++ g)

/-- A parked strand's work is brought to memory and its registers. -/
def State.flush (s : State) (src : Nat) : State × List StoreFail :=
  let (s, fails) := s.flushStores src
  let s := s.updAt src (fun t => t.landAll t.lands.length)
  let s := (List.range 3).foldl (fun s k => s.writeCounter src k) s
  let s := s.retireDone src (s.strand src).viq.length
  let s := s.profileKept src (s.strand src).stopPart.viq
  (s.updAt src Strand.unload, fails)

/-- Free a strand position: nothing is bound to it. The position's last braid timestamp stays (R241). -/
def State.free (s : State) (src : Nat) : State := s.setStrand src { lastBraid := (s.strand src).lastBraid }

/-- The strand no longer waits for a migration that it ordered (R221). -/
def State.disown (s : State) (src : Nat) : State :=
  { s with migrations := s.migrations.map (fun (m : Migration) => if m.owner = some src then { m with waits := false } else m) }

/-- A strand leaves its slot and its group's residents. -/
def State.vacate (s : State) (src : Nat) : State :=
  let s := s.disown src
  let t := s.strand src
  let g := s.group t.group
  let s := if (look s.groups t.group).isSome then s.setGroup t.group { g with members := g.members.erase t.bind.ix } else s
  s.free src

/-- A record about a strand, stamped now. -/
def State.record (s : State) (src cause kind : Nat) (va : Word) (elem : BitVec 32) (slot : Nat) (pc : Word)
    (detail : Word) : FRec :=
  let t := s.strand src
  { gtc := s.gtcOf src, source := src, cause := cause, ctx := t.bind.ctx, kind := kind, va := va, elem := elem,
    slot := slot, pc := pc, launch := t.bind.launch.lid, gix := t.bind.gix, ix := t.bind.ix, detail := detail }

/-- The strand's stop record, where TRACECTL asks for one (R347, R349). -/
def State.traceStop (s : State) (src : Nat) (r : FRec) : State :=
  if bitN (s.strand src).csr.tracectl 2 then
    s.trace src 3 [r.pc, BitVec.ofNat 64 (r.elem.toNat + r.cause * 2 ^ 32 + r.slot * 2 ^ 48)]
  else s

/-- The record of R315 for a store that failed at commit: VA holds its address, DETAIL the cause it met. -/
def State.storeRecord (s : State) (src : Nat) (f : StoreFail) : FRec :=
  { s.record src 46 f.kind f.va 0xFFFFFFFF 0 (s.strand src).pc (BitVec.ofNat 64 f.cause) with halted := true }

/-- A parked strand of a faulted context or of an ended launch leaves: with its image, or without. A save that fails
leaves memory as it is; the records are those of the stores that failed. -/
def State.leave (s : State) (src : Nat) (image : Bool) : State × List FRec :=
  let (s, fails) := s.flush src
  let recs := fails.map (s.storeRecord src)
  let s := recs.foldl (fun s r => s.traceStop src r) s
  let s := if image then (match s.saveImage src with | .ok s' => s' | .error _ => s) else s
  (s.vacate src, recs)

/-- A parked strand leaves an image, unless its launch has ended at `trap 0` (R118), before or since its context was faulted. -/
def State.keepsImage (s : State) (src : Nat) : Bool :=
  let l := s.launch (s.strand src).bind.launch
  (s.group (s.strand src).group).state != .ended && !(l.stopped && l.cause == 19)

/-- A parked strand is settled, and its image, where it leaves one, can be written. -/
def State.mayLeave (s : State) (src : Nat) : Bool := s.settled src && !(s.keepsImage src && s.imageHeld src)

/-- A parked strand leaves if it may; its records join those met. -/
def State.leaveIf (p : State × List FRec) (src : Nat) : State × List FRec :=
  match p.1.mayLeave src with
  | true => ((p.1.leave src (p.1.keepsImage src)).1, p.2 ++ (p.1.leave src (p.1.keepsImage src)).2)
  | false => p

/-- The strands of a list that are settled leave. -/
def State.leaveAll (s : State) (srcs : List Nat) : State × List FRec := srcs.foldl State.leaveIf (s, [])

/-! ## Fault records (R303 to R306) -/

/-- The 64 bytes of a record, VA and DETAIL zeroed where a secure context's slot is not secure (R304). -/
def FRec.bytes (r : FRec) (hide : Bool) : List Byte :=
  leBytes 8 r.gtc.toNat ++ leBytes 2 r.source ++ leBytes 2 r.cause ++ leBytes 2 r.ctx ++ leBytes 1 r.kind
    ++ leBytes 1 ((if r.halted then 1 else 0) + (if r.more then 2 else 0))
    ++ leBytes 8 (if hide then 0 else r.va.toNat) ++ leBytes 4 r.elem.toNat ++ leBytes 1 r.slot ++ leBytes 3 0
    ++ leBytes 8 r.pc.toNat ++ leBytes 4 r.launch ++ leBytes 4 r.gix ++ leBytes 1 r.ix ++ leBytes 7 0
    ++ leBytes 8 (if hide then 0 else r.detail.toNat)

/-- Send a record to the management core of a die. -/
def State.toMgmt (s : State) (die : Nat) (r : FRec) (prevented : Nat) : State :=
  { s with mgmt := s.mgmt ++ [.rcd die r prevented] }

/-- The die a record's source belongs to (R12). -/
def FRec.die (r : FRec) : Nat := r.source / 128

/-- Strand positions bound in a context. -/
def State.boundIn (s : State) (ctx : Nat) : List Nat :=
  (s.strands.filter (fun (_, t) => t.st != .unbound && t.bind.ctx == ctx)).map Prod.fst

/-- Barriers owned by a group return to their reset values (R119, R132). -/
def State.resetBarriers (s : State) (k : GroupKey) : State :=
  { s with clusters := s.clusters.map (fun (n, c) =>
      (n, { c with barriers := c.barriers.map (fun (i, b) => (i, if b.owner = some k then {} else b)) })) }

/-- Those of them that are bound do; the entry of a saved group stays assigned as it is (R132). -/
def State.unassignBarriers (s : State) (k : GroupKey) : State :=
  { s with clusters := s.clusters.map (fun (n, c) =>
      (n, { c with barriers := c.barriers.map (fun (i, b) => (i, if b.bound && b.owner == some k then {} else b)) })) }

/-- The context goes to faulted (R74): its groups are abandoned and their barriers unassigned, its launches end with CAUSE
16 (the culprit) or 18 (R118, R315), and its resident strands stop and leave with their images, at once or when their
copies have drained. Stores that fail then are told to firmware (R306). -/
def State.contextFault (s : State) (ctx : Nat) (culprit : Option LaunchKey) : State :=
  let srcs := s.boundIn ctx
  let s := s.parkAll srcs
  let gone := (s.groups.filter (fun (_, g) => g.ctx == ctx)).map Prod.fst
  let s : State := gone.foldl State.unassignBarriers s
  let s : State := { s with
    groups := s.groups.map (fun (k, g) => (k, if g.ctx == ctx then { g with state := .abandoned } else g))
    launches := s.launches.map (fun (k, l) =>
      (k, if l.ctx == ctx then { l with stopped := true, cause := if culprit = some k then 16 else if l.stopped then l.cause else 18 } else l))
    contexts := s.contexts.set ctx { (s.context ctx) with state := 4 } }
  let (s, recs) := s.leaveAll srcs
  recs.foldl (fun s r => s.toMgmt r.die r 0) s

/-- What posting a record to a context's queue comes to (R305, R306). -/
inductive Posted where
  | posted (s : State)
  /-- The queue is full. -/
  | full
  /-- Its frame holds writes back (R216), or a PC it needs is being copied (R211). -/
  | held
  /-- The queue cannot be written: the cause, 0 for a bad LOG2N. -/
  | unwritable (cause : Nat)

/-- R77: the place behind a context address is secure. -/
def State.ctxSecure (s : State) (die ctx : Nat) (va : Word) : Bool :=
  match s.translate die ctx true .write va with
  | .ok x => x.fme.s || (match x.place with | some p => s.regionSecure p | none => false)
  | .error _ => false

/-- R306: a record's slot is poisoned. -/
def State.slotPoisoned (s : State) (die ctx : Nat) (va : Word) : Bool :=
  match s.translate die ctx true .write va with
  | .ok x => (match x.place with | some p => s.poisoned p 64 | none => false)
  | .error _ => false

/-- Write a record and TAIL + 1 (R303, R305). -/
def State.tryPost (s : State) (die ctx : Nat) (r : FRec) : Posted :=
  let base := (s.context ctx).frqBase
  match s.ctxRead die ctx base 32 with
  | .error c => .unwritable c
  | .ok h =>
    let lg := cutN h 0x10 1
    if lg < 6 || 16 < lg then .unwritable 0
    else
      let head := cutN h 0 8
      let tail := cutN h 8 8
      let slot := base + 0x40 + BitVec.ofNat 64 (64 * (tail % 2 ^ lg))
      if s.ctxBlocked die ctx base then .held
      else if (tail + 2 ^ 64 - head) % 2 ^ 64 = 2 ^ lg then .full
      else if s.ctxBlocked die ctx slot then .held
      else if s.slotPoisoned die ctx slot then .unwritable Cause.poison
      else
        let hide := (s.context ctx).flags.getLsbD 0 && !s.ctxSecure die ctx slot
        match s.ctxWrite die ctx slot (r.bytes hide) with
        | .error c => .unwritable c
        | .ok s1 => match s1.ctxWrite die ctx (base + 8) (leBytes 8 ((tail + 1) % 2 ^ 64)) with
          | .error c => .unwritable c
          | .ok s2 => .posted { s2 with mgmt := s2.mgmt ++ [.signal die] }

/-- A notice lost for want of space: DROPS + 1 (R305). -/
def State.dropNotice (s : State) (die ctx : Nat) : State :=
  let a := (s.context ctx).frqBase + 0x18
  match s.ctxRead die ctx a 8 with
  | .error _ => s
  | .ok bs => match s.ctxWrite die ctx a (leBytes 8 ((leNat bs + 1) % 2 ^ 64)) with
    | .ok s' => s'
    | .error _ => s

/-- A record waits until it can be posted (R216, R305). -/
def State.keepRecord (s : State) (r : FRec) : State := { s with waitingRecs := s.waitingRecs ++ [(r.ctx, r)] }

/-- A record of the same source waits already: records of a source are posted in its order (R305). -/
def State.sourceWaits (s : State) (r : FRec) : Bool := s.waitingRecs.any (fun (c, w) => c == r.ctx && w.source == r.source)

/-- A record of a context cannot be written: it goes to the management core with the cause `c`, and so do the others that wait, since
the queue is not tried again (R306). -/
def State.queueLost (s : State) (die : Nat) (r : FRec) (c : Nat) : State :=
  let mine := (s.waitingRecs.filter (fun (k, w) => k == r.ctx && w != r)).map Prod.snd
  let s : State := { s with waitingRecs := s.waitingRecs.filter (fun (k, _) => k != r.ctx) }
  mine.foldl (fun s w => s.toMgmt w.die w 0) (s.toMgmt die r c)

/-- Post one record of a context, for work on a die (R303 to R306). -/
def State.post (s : State) (die : Nat) (r : FRec) : State :=
  if (s.context r.ctx).state = 4 then s.toMgmt die r 0
  else match s.tryPost die r.ctx r with
    | .unwritable c => (s.queueLost die r c).contextFault r.ctx none
    | .full => if r.halted then s.keepRecord r else s.dropNotice die r.ctx
    | .held => s.keepRecord r
    | .posted s' => if s.sourceWaits r then s.keepRecord r else s'

/-! ## Halting: taking an exception (R118, R120, R299) -/

/-- A strand of a halting group stops issuing (R118). -/
def Strand.halt (t : Strand) : Strand := if t.st = .running ∨ t.st = .waiting then { t with st := .halted, replay := none } else t

/-- Halt every strand of a list. -/
def State.haltAll (s : State) (srcs : List Nat) : State :=
  match srcs with
  | [] => s
  | src :: r => State.haltAll (s.updAt src Strand.halt) r

/-- Barrier waits of a list of strands that are satisfied complete (R120). -/
def State.finishBarriers (s : State) (srcs : List Nat) : State := srcs.foldl State.finishBarrier s

/-- Halt a group, and keep which strands waited (R118, R120). A strand waiting inside `end` completes it all the same. -/
def State.haltResident (s : State) (k : GroupKey) : State :=
  let g := s.group k
  let ms := (g.members.map Prod.snd).filter (fun m => (s.strand m).wait != .ending)
  let s := s.finishBarriers ms
  (s.setGroup k { g with state := .halted, waiting := ms.filter (fun m => (s.strand m).st == .waiting)
                         haltClock := (s.die g.die).gtc, lively := ms.filter (fun m => (s.strand m).st == .running) }).haltAll ms

/-- Of the strands that may still fault in the clock of the halt, those behind `src` in the order of R14 are left (R120). -/
def Group.after (g : Group) (src : Nat) : Group := { g with lively := g.lively.filter (fun m => decide (src < m)) }

/-- Halt the group of a strand (R120). -/
def State.haltGroup (s : State) (src : Nat) : State :=
  let k := (s.strand src).group
  let s : State := match look s.groups k with
    | none => s
    | some g =>
      let s := if g.state = GroupState.resident then s.haltResident k else s
      s.setGroup k ((s.group k).after src)
  s.updAt src Strand.halt

/-- A strand of a group that halted in this very clock ran then, and may still raise a fault of the clock (R120). -/
def State.lastClock (s : State) (src : Nat) : Bool :=
  let g := s.group (s.strand src).group
  (s.strand src).st == .halted && g.state == .halted && g.haltClock == s.gtcOf src && g.lively.contains src

/-- Taking an exception: the records of the stop are posted in order, the stop is traced, and the group halts with
the strand's PC where it resumes (R120, R299, R305). Where the queue cannot be written, the fault of the context has taken the
strand (R306). -/
def State.takeStop (s : State) (src : Nat) (resume : Word) (rs : List FRec) : State :=
  let n := rs.length
  let marked := rs.zipIdx.map (fun (r, i) => { r with halted := true, more := decide (i + 1 < n) })
  let s := s.updAt src (fun t => { t with pc := resume })
  let s := match rs with | r :: _ => s.traceStop src r | [] => s
  let s : State := marked.foldl (fun s r => s.post (dieOf src) r) s
  if (s.strand src).st = .unbound then s else s.haltGroup src

/-- A stop of the scalar instruction at the PC of the executing strand (R145): it resumes at that instruction. -/
def State.scalarStop (s : State) (cause kind : Nat) (va detail : Word) : State :=
  let t := s.me
  s.takeStop s.cur.src t.pc [s.record s.cur.src cause kind va 0xFFFFFFFF 0 t.pc detail]

/-- A notice about a strand: nothing halts (R299). -/
def State.notice (s : State) (src : Nat) (r : FRec) : State := (s.traceStop src r).post (dieOf src) r

/-- A record of the firmware kind (R299). -/
def State.firmwareNote (s : State) (die cause : Nat) (ctx : Nat) (va : Word) (elem : BitVec 32) (detail : Word) : State :=
  s.toMgmt die { gtc := (s.die die).gtc, source := die * 128 + 96, cause := cause, ctx := ctx, va := va, elem := elem, detail := detail } 0

/-- A message of 8 bytes leaves for a host system address as a posted write (R330, R337, R361). -/
def State.hostMessage (s : State) (addr w : Word) : State :=
  { s.writePlace (.host addr.toNat) (leBytes 8 w.toNat) with hostMsgs := s.hostMsgs ++ [(addr, w)] }

/-- A degradation: REPL, its REPLWHY bit, and the message (R361). Bits: 0 PC, 1 lane group, 2 stack, 3 host link,
4 matrix engine. -/
def State.replace (s : State) (why : Nat) (message : Bool := true) : State :=
  let b := { s.boot with repl := true, replwhy := s.boot.replwhy ||| BitVec.ofNat 5 (2 ^ why) }
  let status : Word := BitVec.ofNat 64 (b.replwhy.toNat * 256 + 2 + (if b.minimal then 1 else 0))
  let s := { s with boot := b }
  if message && b.replNotify ≠ 0 then s.hostMessage b.replNotify status else s

/-! ## Commits and strip events (R229, R311, R312, R315) -/

/-- The fatal error of R315: its record, CAUSE 16, the context faulted. -/
def State.fatal (s : State) (src : Nat) (k : LaunchKey) (r : FRec) : State :=
  ((s.traceStop src r).post r.die r).contextFault r.ctx (some k)

/-- An error of work that cannot be rolled back (R315): record 46 with the original cause. -/
def State.fatalError (s : State) (src cause kind : Nat) (va : Word) (elem : BitVec 32) (slot : Nat) (pc : Word) : State :=
  s.fatal src (s.strand src).bind.launch { s.record src 46 kind va elem slot pc (BitVec.ofNat 64 cause) with halted := true }

/-- Stores that failed at commit are fatal (R315): the first one is the record. -/
def State.storesFailed (s : State) (src : Nat) (fails : List StoreFail) : State :=
  match fails with
  | [] => s
  | f :: _ => s.fatal src (s.strand src).bind.launch (s.storeRecord src f)

/-- Perform the buffered stores of the strips chosen, drop them from the buffer, and take R315 for failures. -/
def State.commitStrips (s : State) (src : Nat) (sel : Nat → Bool) : State :=
  let (s, fails) := s.performLines src ((s.strand src).buf.filter (fun b => sel b.strip))
  (s.updAt src (fun t => { t with buf := t.buf.filter (fun b => !sel b.strip) })).storesFailed src fails

/-- A strip becomes non-rewindable for a reason (R312); the first reason stands. -/
def Strand.markStripAt (t : Strand) (strip why : Nat) : Strand :=
  { t with strips := t.strips.map (fun r => if r.id = strip ∧ r.why = 0 then { r with why := why } else r) }

/-- The open strip becomes non-rewindable. -/
def Strand.markStrip (t : Strand) (why : Nat) : Strand :=
  match t.openStrip with
  | none => t
  | some i => t.markStripAt i why

/-- Older strips still uncommitted keep an event of R229 waiting (R311). -/
def Strand.olderStrips (t : Strand) : Bool :=
  match t.openStrip with
  | none => false
  | some i => t.strips.any (fun r => r.id < i)

/-- An event of R229 commits the open strip's buffer and makes the strip non-rewindable. -/
def State.stripEvent (s : State) (src why : Nat) : State :=
  match (s.strand src).openStrip with
  | none => s
  | some i => (s.commitStrips src (· == i)).updAt src (fun t => t.markStrip why)

/-- What was done for a strand has rolled it back (R313) or faulted its context (R315): its instruction does not go on. -/
def State.gone (s s' : State) (src : Nat) : Bool :=
  let ctx := (s.strand src).bind.ctx
  (s'.strand src).st != (s.strand src).st || (s'.strand src).rolls != (s.strand src).rolls
    || ((s'.context ctx).state == 4 && (s.context ctx).state != 4)

/-- Go on where the executing strand is still there. -/
def State.ifStays (s s' : State) (k : State → State) : State := if s.gone s' s.cur.src then s' else k s'

/-- The 513th entry (R311): every uncommitted strip commits, and the current one is marked. -/
def State.overflow (s : State) (src strip : Nat) : State :=
  (s.commitStrips src (fun _ => true)).updAt src (fun t => t.markStripAt strip 5)

/-- A store that needs `n` further buffer entries has to wait: they would overflow the buffer while a line of it is held (R216,
R311). -/
def State.overflowHeld (s : State) (src n : Nat) : Bool :=
  let buf := (s.strand src).buf
  decide (512 < buf.length + n) && decide (512 < bufLines buf + n) && s.bufHeld src

/-- A write within one line becomes performed at strand scope under a strip: into the buffer, or directly where no strip
is open (R229, R311). `fa`, `va` and `p` are the line's. -/
def State.storeBits (s : State) (src : Nat) (strip : Option Nat) (va : Word) (fa : Nat) (rep : Option Nat) (p : Place)
    (how : How) (m : BitVec 128) (d : BitVec 512) : State :=
  match strip with
  | none => s.storeNow src va fa rep p how m d
  | some i =>
    let buf := bufAdd (s.strand src).buf fa rep i va how m d
    if bufFits buf then s.updAt src (fun t => { t with buf := buf })
    else
      let s' := s.overflow src i
      if s.gone s' src then s' else s'.storeNow src va fa rep p how m d

/-- A store of bytes within one line. -/
def State.storeLine (s : State) (src : Nat) (strip : Option Nat) (va : Word) (x : Xl) (p : Place) (how : How) (bs : List Byte) : State :=
  let o := x.fa % 64
  s.storeBits src strip (va - BitVec.ofNat 64 o) (x.fa / 64 * 64) (x.replica (dieOf src)) p.line how (lineMask o bs.length) (lineData o bs)

/-! ## Timelines (R246) -/

/-- Convoys are discarded: copy and matrix operations never issued give their numbers back, and a `vlda` that has read
nothing yet counts as complete (R302, R313; assumption 20). -/
def Strand.returnNumbers (t : Strand) (lost : List Convoy) : Strand :=
  let open_ (l : Timeline) (n : Nat) : Bool := decide (l.counter.toNat < n) && !l.complete.contains n
  let cps := (lost.filterMap Convoy.nCp).filter (fun n => open_ t.tlCopy n && !t.cpq.any (fun o => o.num == n))
  let mxs := (lost.filterMap Convoy.nMx).filter (fun n => open_ t.tlMatrix n && !t.mxq.any (fun o => o.num == n))
  let ass := (lost.filterMap Convoy.nAs).filter (fun n => !t.lands.any (fun l => l.num == some n) && !t.tlAsync.complete.contains n
    && decide (t.tlAsync.counter.toNat < n))
  { t with tlCopy := { t.tlCopy with issued := t.tlCopy.issued - BitVec.ofNat 64 cps.length }
           tlMatrix := { t.tlMatrix with issued := t.tlMatrix.issued - BitVec.ofNat 64 mxs.length }
           tlAsync := { t.tlAsync with complete := t.tlAsync.complete ++ ass } }

/-! ## Errors (R313 to R315) -/

/-- Loads that were to be counted behind stores of strips from `n` on are counted: the stores are never performed (R259, R280). -/
def State.dropCounts (s : State) (src n : Nat) : State :=
  let t := s.strand src
  let s := (t.buf.filter (fun b => b.op == .count && decide (n ≤ b.strip))).foldl (fun s b => s.countStores src b.fa b.elems) s
  (t.ssq.filter (fun q => match q.strip with | some i => decide (n ≤ i) | none => false)).foldl (fun s q =>
    q.after.foldl (fun s fa => s.countStores src fa 1) s) s

/-- Roll a strand back to the setvl of strip `n` (R313 steps 1 to 3). Registers other than the checkpointed scalars, flags and
event indices among them, stay (R313, R314). A strand that does not run stays as it is (R120, R123). -/
def State.rollBack (s : State) (src : Nat) (n : Strip) (elem : BitVec 32) (cause : Nat) (slot : Nat) (pc : Word) : State :=
  let t := s.strand src
  let held := (s.group t.group).state == .halted
  let lost := t.viq.filter (fun c => decide (n.id ≤ c.strip))
  let gone := lost.map Convoy.seq
  let notice := s.record src 45 0 0 elem slot pc (BitVec.ofNat 64 cause)
  let s := (s.dropCounts src n.id).disown src
  let s := s.updAt src (fun t =>
    let t : Strand := { t.returnNumbers lost with
      viq := t.viq.filter (fun c => decide (c.strip < n.id))
      buf := t.buf.filter (fun b => decide (b.strip < n.id))
      ssq := t.ssq.filter (fun q => match q.strip with | some i => decide (i < n.id) | none => true)
      lands := t.lands.map (fun l => if gone.contains l.seq then { l with live := false } else l)
      strips := t.strips.filter (fun (r : Strip) => decide (r.id < n.id)) ++ [({ n with closed := false } : Strip)]
      openStrip := some n.id
      rolls := if t.rolls = BitVec.allOnes 32 then t.rolls else t.rolls + 1
      wait := .none, barTok := none, barDue := none, replay := none, pc := n.pc
      fsvMarks := t.fsvMarks.filter (fun m => match m.strip with | some i => decide (i < n.id) | none => true)
      st := if t.st = .waiting then (if held then .halted else .running) else t.st
      vecHeld := t.vecHeld && t.st == .halted }
    n.ckpt.foldl (fun t (k, w) => t.setReg k w) t)
  let s := if (look s.launches t.bind.launch).isSome then
      s.setLaunch t.bind.launch { s.launch t.bind.launch with rollbk := true } else s
  s.notice src notice

/-- The strip of work, where it can still be rewound (R312). -/
def Strand.rewindable (t : Strand) (strip : Option Nat) : Option Strip :=
  strip.bind (fun i => t.strips.find? (fun r => r.id == i && r.why == 0))

/-- An error of cause 18 or 19 is consumed by work of the given strip (R313, R315). Its records carry the strand's source number also
where a copy or a matrix operation of the strand consumed it (assumption 84). -/
def State.consumeError (s : State) (src cause kind : Nat) (va : Word) (elem : BitVec 32) (slot : Nat) (pc : Word)
    (strip : Option Nat) : State :=
  match (s.strand src).rewindable strip with
  | none => s.fatalError src cause kind va elem slot pc
  | some n =>
    let stop := s.record src 18 kind va elem slot n.pc 0
    let s := s.rollBack src n elem cause slot pc
    if cause = 19 || (s.strand src).st = .unbound then s else s.takeStop src n.pc [stop]

/-- One store leaves the scalar store queue (R229): it enters the buffer of the strip it was made in, or is performed; poison is
consumed (R321), a link fenced meanwhile never acknowledges it (R335), and any other failure is that of a commit (R315). -/
def State.drainOne (s : State) (src : Nat) : State :=
  let t := s.strand src
  match t.ssq with
  | [] => s
  | q :: r =>
    if s.storeHeld src q || (q.strip.isSome && s.overflowHeld src 1) then s
    else
      let s := s.updAt src (fun t => { t with ssq := r, fsvMarks := t.fsvMarks.map (fun m => { m with left := m.left - 1 }) })
      match s.queuePlace src q with
      | .error f =>
        if f.cause = Cause.poison then s.consumeError src f.cause f.kind f.va 0xFFFFFFFF 0 t.pc q.strip
        else if s.linkLost src q f then s.updAt src (fun t => { t with lostStore := some (t.lostStore.getD q.va) })
        else s.storesFailed src [f]
      | .ok (x, p) =>
        let s' := s.storeLine src q.strip q.va x p { kind := 3 } q.bytes
        if s.gone s' src then s' else s'.countBehind src q.strip q.after

/-- Drain the scalar store queue, as far as no store is held (R216). -/
def State.drainAll (s : State) (src fuel : Nat) : State :=
  match fuel with
  | 0 => s
  | f + 1 => match (s.strand src).ssq with
    | [] => s
    | _ => State.drainAll (s.drainOne src) src f

/-- Drain the whole queue. -/
def State.drain (s : State) (src : Nat) : State := s.drainAll src (s.strand src).ssq.length

/-! ## The VIQ (R10, R59, R300, R308) -/

/-- The oldest convoy with a member to perform, unless a stop found in it or before it is still to be taken (R316; assumption
17). -/
def Strand.pending (t : Strand) : Option Convoy :=
  match t.viq.find? (fun c => decide (c.next < c.words.length) || c.pendStop.isSome) with
  | some c => if c.pendStop.isSome then none else some c
  | none => none

/-- The last queued convoy with a member not performed, without its verdict, or with a stop still to be taken. -/
def Strand.lastOpen (t : Strand) : Option Nat :=
  ((t.viq.filter (fun c => decide (c.next < c.words.length) || !c.eddyDue.isEmpty || c.pendStop.isSome)).getLast?).map Convoy.seq

/-- Change the entry of a convoy. -/
def Strand.updConvoy (t : Strand) (seq : Nat) (f : Convoy → Convoy) : Strand :=
  { t with viq := t.viq.map (fun c => if c.seq = seq then f c else c) }

/-- The convoy of the member in execution. -/
def State.convoy? (s : State) : Option Convoy := s.me.viq.find? (fun c => c.seq == s.cur.seq)

/-- The word of a convoy's next member. -/
def Convoy.word (c : Convoy) : BitVec 32 := c.words.getD c.next 0

/-- SLOT of a member in a record (R304): members are counted from the first one left since a stop (R300). -/
def Convoy.slotOf (c : Convoy) (member : Nat) : Nat := if c.base ≤ member then member - c.base else member

/-- What the next member comes to awaits the eddy (R317). -/
def Convoy.rechecks (c : Convoy) : Bool := c.samp.rchk != 0 && eddyChecks c.word

/-- The next member is over. -/
def Convoy.pass (c : Convoy) (firm : Bool) : Convoy :=
  { c with
    next := c.next + 1, from_ := 0, resumed := false, skip := false, stopVa := none, hold := none, forceBlock := false, watchExempt := [], resval := 0
    eddyDue := if c.rechecks then c.eddyDue ++ [c.next] else c.eddyDue, eddyHad := c.eddyHad || c.rechecks
    snap := if firm then none else c.snap }

/-- What convoys before `seq` did is kept for good. -/
def Strand.settle (t : Strand) (seq : Nat) : Strand :=
  { t with viq := t.viq.map (fun c => if c.seq < seq then { c with snap := none } else c) }

/-- The member in execution is complete; a resumed member leaves ESTART and DONEMASK 0 (R301, R228). `firm`: what it did
cannot be taken back. -/
def State.memberDone (s : State) (firm : Bool := false) : State :=
  s.upd (fun t =>
    let t := t.updConvoy s.cur.seq (fun c => c.pass firm)
    let t := if firm then t.settle s.cur.seq else t
    if s.cur.resumed then { t with csr := { t.csr with estart := 0, donemask := 0 } } else t)

/-- The member in execution cannot go on yet: it is tried again. -/
def State.memberWait (s : State) : State := s

/-- The member in execution has performed its elements below `i`, and goes on there (R228, R277). -/
def State.memberPart (s : State) (i : Nat) (firm : Bool) : State :=
  s.upd (fun t =>
    let t := t.updConvoy s.cur.seq (fun c => { c with from_ := i, snap := if firm then none else c.snap })
    if firm then t.settle s.cur.seq else t)

/-- The next member of a convoy of a strand stops: members below it are committed, it and the later ones stay queued as a
convoy of their own, and the records are posted (R300, R120). -/
def State.commitStop (s : State) (src seq : Nat) (w : StopAt) (rs : List FRec) : State :=
  let t := s.strand src
  let c? := t.viq.find? (fun c => c.seq == seq)
  let s := match c? with
    | some c => s.profileTo src c c.next (fun i => w.ended || decide (i < w.estart.toNat) || bitN w.donemask (i - w.estart.toNat))
    | none => s
  let s := s.updAt src (fun t =>
    let t := (t.takeScalar (c?.bind Convoy.pendScalar)).updConvoy seq (fun c =>
      let k := if w.ended then c.next + 1 else c.next
      { c with base := k, next := k, from_ := 0, resumed := !w.ended, skip := false, hold := none
               stopVa := (rs.head?.filter (fun r => [5, 6, 7, 8, 9, 11, 12, 13, 17].contains r.kind)).map FRec.va, forceBlock := w.forceBlock
               watchExempt := if w.ended then [] else c.watchExempt ++ w.watchExempt
               resval := w.resval, samples := [], snap := none, pendStop := none, pendScalar := none, stopped := true })
    { t with vecHeld := true, csr := { t.csr with estart := w.estart, donemask := w.donemask } })
  s.takeStop src t.pc (rs.map (fun r => { r with gtc := s.gtcOf src }))

/-- The member in execution stops (R300): at once, or, where older convoys have not retired or the eddy has still to decide,
when they have (R191, R316). `firm`: elements it performed cannot be taken back. -/
def State.memberStop (s : State) (w : StopAt) (rs : List FRec) (firm : Bool := false) : State :=
  match s.convoy? with
  | none => s
  | some c =>
    let due := if c.rechecks then c.eddyDue ++ [c.next] else c.eddyDue
    let s := s.upd (fun t =>
      let t := t.updConvoy c.seq (fun c => { c with
        pendStop := some ⟨w, rs⟩, eddyDue := due, eddyHad := c.eddyHad || c.rechecks, snap := if firm then none else c.snap })
      if firm then t.settle c.seq else t)
    if (s.me.viq.head?.map Convoy.seq) = some c.seq ∧ due.isEmpty then s.commitStop s.cur.src c.seq w rs else s

/-- Take the stop of the oldest convoy, where it has one and the eddy has decided. -/
def State.takePending (s : State) (src : Nat) : State :=
  match (s.strand src).viq with
  | [] => s
  | c :: _ => match c.pendStop with
    | some p => if c.eddyDue.isEmpty then s.commitStop src c.seq p.at_ p.recs else s
    | none => s

/-- A convoy that resumes holds the translation of the address it stopped at (R228). -/
def State.holdAt (s : State) (src : Nat) (c : Convoy) : Convoy :=
  match c.stopVa with
  | some va => { c with stopVa := none, hold := s.holdOf (dieOf src) (s.ctxOf src) va (some (coreOf src)) }
  | none => c

/-- A record of the member in execution. -/
def State.memberRec (s : State) (cause kind : Nat) (va : Word) (elem : Nat) (detail : Word) : FRec :=
  s.record s.cur.src cause kind va (BitVec.ofNat 32 elem) s.cur.slot s.cur.pc detail

/-- The member stops at an element: elements below it are committed (R300). -/
def State.stopAtElem (s : State) (cause kind : Nat) (va : Word) (elem : Nat) (detail : Word) : State :=
  s.memberStop { estart := BitVec.ofNat 64 elem } [s.memberRec cause kind va elem detail]

/-- The member stops before it has committed anything, with no element (R56, R66). -/
def State.stopWhole (s : State) (cause kind : Nat) (va detail : Word) : State :=
  s.memberStop {} [s.record s.cur.src cause kind va 0xFFFFFFFF s.cur.slot s.cur.pc detail]

/-- Strip of the convoy in execution. -/
def State.memberStrip (s : State) : Option Nat :=
  match s.convoy? with
  | some c => if c.strip = 0 then none else some c.strip
  | none => s.me.openStrip

end Sys2Proof.Machine
end

