-- ==== Sys2Proof/Machine/Kernel.lean ====
section
/-! DEFINITION. SHA-256 (FIPS 180-4, as R95 and R78 name it), the launch header (R108, R109), and the ranges a launch or a
COPY command names in its context. -/

namespace Sys2Proof.Machine

/-! ## SHA-256 -/

/-- The primes below a bound, in order. -/
def primesBelow (n : Nat) : List Nat := (List.range n).filter (fun p => decide (2 ≤ p) && (List.range p).all (fun d => d < 2 || p % d != 0))

/-- The largest number whose `e`-th power is at most `x`: its bits from `n` - 1 down, over those found. -/
def rootFrom (e x n found : Nat) : Nat :=
  match n with
  | 0 => found
  | k + 1 => rootFrom e x k (if (found + 2 ^ k) ^ e ≤ x then found + 2 ^ k else found)

/-- The first 32 bits of the fractional part of a prime's `e`-th root, from which FIPS 180-4 takes its constants. -/
def rootWord (e p : Nat) : BitVec 32 := BitVec.ofNat 32 (rootFrom e (p * 2 ^ (32 * e)) 37 0)

/-- The round constants: cube roots of the first 64 primes. -/
def shaK : List (BitVec 32) := (primesBelow 312).map (rootWord 3)

/-- The initial hash value: square roots of the first eight primes. -/
def shaInit : List (BitVec 32) := (primesBelow 20).map (rootWord 2)

/-- Bytes as a number, the first the most significant. -/
def bigNat (bs : List Byte) : Nat := bs.foldl (fun a b => a * 256 + b.toNat) 0

/-- The `n` bytes of a number, the most significant first. -/
def bigBytes (n x : Nat) : List Byte := (leBytes n x).reverse

/-- A word mixed with itself: its rotations by some counts, and its shifts by others, added without carry. -/
def mixWord (w : BitVec 32) (turns shifts : List Nat) : BitVec 32 :=
  shifts.foldl (fun x k => x ^^^ w.ushiftRight k) (turns.foldl (fun x k => x ^^^ w.rotateRight k) 0)

/-- The message schedule, newest word first, extended `k` times: from the words 16, 15, 7 and 2 back. -/
def shaSchedule (k : Nat) (ws : List (BitVec 32)) : List (BitVec 32) :=
  match k with
  | 0 => ws
  | j + 1 =>
    let back (n : Nat) : BitVec 32 := ws.getD (n - 1) 0
    shaSchedule j ((back 16 + mixWord (back 15) [7, 18] [3] + back 7 + mixWord (back 2) [17, 19] [10]) :: ws)

/-- The eight working words. -/
structure ShaWork where
  (a b c d e f g h : BitVec 32)

/-- The working words as a list, and back. -/
def ShaWork.words (x : ShaWork) : List (BitVec 32) := [x.a, x.b, x.c, x.d, x.e, x.f, x.g, x.h]
def ShaWork.ofWords (l : List (BitVec 32)) : ShaWork :=
  let n (i : Nat) : BitVec 32 := l.getD i 0
  ⟨n 0, n 1, n 2, n 3, n 4, n 5, n 6, n 7⟩

/-- Bits of `y` where `x` is 1, of `z` where it is 0; and the value at least two of three bits have. -/
def pickBits (x y z : BitVec 32) : BitVec 32 := z ^^^ (x &&& (y ^^^ z))
def mostBits (x y z : BitVec 32) : BitVec 32 := (x &&& y) ||| (z &&& (x ||| y))

/-- One round; `kw`: its constant and its schedule word added. -/
def shaRound (x : ShaWork) (kw : BitVec 32) : ShaWork :=
  let up := x.h + kw + pickBits x.e x.f x.g + mixWord x.e [6, 11, 25] []
  let down := mostBits x.a x.b x.c + mixWord x.a [2, 13, 22] []
  { x with h := x.g, g := x.f, f := x.e, e := x.d + up, d := x.c, c := x.b, b := x.a, a := up + down }

/-- One 64-byte block. -/
def shaBlock (h : List (BitVec 32)) (block : List Byte) : List (BitVec 32) :=
  let first := (List.range 16).map (fun k => BitVec.ofNat 32 (bigNat ((block.drop (4 * k)).take 4)))
  let sched := (shaSchedule 48 first.reverse).reverse
  let after := (sched.zip shaK).foldl (fun x p => shaRound x (p.1 + p.2)) (ShaWork.ofWords h)
  (h.zip after.words).map (fun p => p.1 + p.2)

/-- The blocks of a padded message. -/
def shaBlocks (n : Nat) (h : List (BitVec 32)) (bs : List Byte) : List (BitVec 32) :=
  match n with
  | 0 => h
  | k + 1 => shaBlocks k (shaBlock h (bs.take 64)) (bs.drop 64)

/-- The digest: its first byte is bits 255:248. -/
def sha256 (bs : List Byte) : BitVec 256 :=
  let n := bs.length
  let m := bs ++ 0x80#8 :: List.replicate ((119 - n % 64) % 64) 0 ++ bigBytes 8 (8 * n)
  BitVec.ofNat 256 ((shaBlocks (m.length / 64) shaInit m).foldl (fun a w => a * 2 ^ 32 + w.toNat) 0)

/-- The 32 bytes of a digest in order. -/
def digestBytes (d : BitVec 256) : List Byte := bigBytes 32 d.toNat

/-! ## The launch header (R108, R109) -/

/-- Bytes the header takes with its output ranges. -/
def headerSize : Nat := 128

/-- An output range as the header writes it: ADDR, LEN, OFLAGS. -/
structure OutRange where
  addr : Word
  len : Nat
  oflags : Nat
  deriving DecidableEq, Repr

/-- The four output ranges. -/
def headerOuts (bs : List Byte) : List OutRange :=
  (List.range 4).map (fun k => ⟨cutW bs (0x40 + 16 * k), cutN bs (0x48 + 16 * k) 4, cutN bs (0x4C + 16 * k) 4⟩)

/-- FORMAT is 1 and every reserved field is zero. -/
def headerFormatOk (bs : List Byte) : Bool :=
  cutN bs 0 4 == 1 && cutN bs 4 4 / 8 == 0 && cutN bs 0x14 4 % 2 == 0 && zeroAt bs 0x21 31
    && (headerOuts bs).all (fun r => r.oflags / 4 == 0)

/-- Every field is in its range. -/
def headerRangeOk (bs : List Byte) : Bool :=
  let vlb := cutN bs 0x10 2
  (vlb == 0 || [512, 1024, 2048, 4096, 8192].contains vlb) && !(vlb == 0 && cutN bs 4 4 % 2 == 1)
    && decide (1 ≤ cutN bs 0x12 1) && decide (cutN bs 0x12 1 ≤ 16) && decide (cutN bs 0x13 1 ≤ 12)
    && decide (cutN bs 0x20 1 ≤ 4)

/-- The fields but the output ranges. -/
def headerOf (bs : List Byte) : Header :=
  let f := cutN bs 4 4
  { det := f % 2 == 1, matrix := f / 2 % 2 == 1, fuse := f / 4 % 2 == 1
    entry := cutW bs 8, vlb := cutN bs 0x10 2, groupSz := cutN bs 0x12 1, spWays := cutN bs 0x13 1
    indmask := BitVec.ofNat 32 (cutN bs 0x14 4), rngseed := cutW bs 0x18 }

/-- An 8-byte word of the parameter block. -/
def State.paramWord (s : State) (die ctx : Nat) (base off : Word) : Except Nat Word :=
  match s.ctxReadSpan die ctx false (base + off) 8 2 with
  | .ok bs => .ok (BitVec.ofNat 64 (leNat bs))
  | .error c => .error c

/-- The ranges in use, resolved through the parameter block (R108). -/
def State.resolveOuts (s : State) (die ctx : Nat) (base : Word) (outs : List OutRange) : Except Nat (List (Word × Nat)) :=
  match outs with
  | [] => .ok []
  | r :: rest =>
    let addr : Except Nat Word := if r.oflags % 2 = 1 then s.paramWord die ctx base r.addr else .ok r.addr
    let len : Except Nat Nat := if r.oflags / 2 % 2 = 1 then
        (match s.paramWord die ctx base (BitVec.ofNat 64 r.len) with | .ok w => .ok w.toNat | .error c => .error c)
      else .ok r.len
    match addr, len, State.resolveOuts s die ctx base rest with
    | .ok a, .ok n, .ok l => .ok ((a, n) :: l)
    | .error c, _, _ => .error c
    | _, .error c, _ => .error c
    | _, _, .error c => .error c

/-- Read and check a header (R109): the snapshot, or the cause of R92. A header or parameter word that is mapped and cannot be read is
cause 3 too (assumption 24). -/
def State.readHeader (s : State) (die ctx : Nat) (va paramBase : Word) : Except Nat Header :=
  if va.toNat % 64 ≠ 0 then .error 2
  else match s.ctxReadSpan die ctx false va headerSize 3 with
    | .error _ => .error 3
    | .ok bs =>
      if !headerFormatOk bs then .error 1
      else if !headerRangeOk bs then .error 2
      else match s.resolveOuts die ctx paramBase ((headerOuts bs).take (cutN bs 0x20 1)) with
        | .error _ => .error 3
        | .ok outs => .ok { headerOf bs with outs := outs }

/-- Bytes of ranges, in order; a range that cannot be read gives zeros. -/
def State.readRanges (s : State) (die ctx : Nat) (rs : List (Word × Nat)) : List Byte :=
  rs.flatMap (fun (va, n) =>
    match s.ctxReadSpan die ctx false va n (n / 65536 + 2) with
    | .ok bs => bs
    | .error _ => List.replicate n 0)

end Sys2Proof.Machine
end

