-- ==== Sys2Proof/Machine/Seal.lean ====
section
/-! DEFINITION. AES-256-GCM, by which a decrypting copy opens a sealed chunk (R78). Blocks are numbers whose most
significant byte comes first. -/

namespace Sys2Proof.Machine

/-! ## AES-256 (FIPS 197) -/

/-- Multiply by x in GF(2^8). -/
def xtime (a : Nat) : Nat := if a < 128 then 2 * a else (2 * a) ^^^ 0x11B

/-- Multiplication in GF(2^8) by the low `n` bits of `b`. -/
def gmul (a b n : Nat) : Nat :=
  match n with
  | 0 => 0
  | k + 1 => (if b % 2 = 1 then a else 0) ^^^ gmul (xtime a) (b / 2) k

/-- `a^254`, the inverse of `a`, by `a^2 · a^4 · … · a^128`. -/
def ginv (a n : Nat) : Nat :=
  match n with
  | 0 => 1
  | k + 1 => let q := gmul a a 8; gmul q (ginv q k) 8

/-- The S-box. -/
def sbox (a : Nat) : Nat :=
  let b := ginv a 7
  let r (k : Nat) : Nat := (b * 2 ^ k) % 256 + (b * 2 ^ k) / 256
  b ^^^ r 1 ^^^ r 2 ^^^ r 3 ^^^ r 4 ^^^ 0x63

/-- The `n` bytes of a block, the most significant first. -/
def beBytes (n x : Nat) : List Nat :=
  match n with
  | 0 => []
  | k + 1 => x / 256 ^ k % 256 :: beBytes k x

/-- The block that bytes hold. -/
def beNat (l : List Nat) : Nat := l.foldl (fun x b => x * 256 + b) 0

/-- Apply the S-box to each byte of a word. -/
def subWord (w : Nat) : Nat := beNat ((beBytes 4 w).map sbox)

/-- Words of the key schedule, the latest first: `n` more after `i` words. -/
def keyWords (ws : List Nat) (i rcon n : Nat) : List Nat :=
  match n with
  | 0 => ws
  | k + 1 =>
    let prev := ws.headD 0
    let t := if i % 8 = 0 then subWord (prev % 2 ^ 24 * 256 + prev / 2 ^ 24) ^^^ (rcon * 2 ^ 24)
      else if i % 8 = 4 then subWord prev else prev
    keyWords ((ws.getD 7 0 ^^^ t) :: ws) (i + 1) (if i % 8 = 0 then xtime rcon else rcon) k

/-- The 15 round keys. -/
def roundKeys (key : Nat) : List Nat :=
  let ws := (keyWords ((List.range 8).map (fun j => key / 2 ^ (32 * j) % 2 ^ 32)) 8 1 52).reverse
  (List.range 15).map (fun r => (List.range 4).foldl (fun x j => x * 2 ^ 32 + ws.getD (4 * r + j) 0) 0)

/-- Row shift: byte r + 4c comes from column c + r. -/
def shiftRows (l : List Nat) : List Nat := (List.range 16).map (fun i => l.getD ((i + 4 * (i % 4)) % 16) 0)

/-- Mix one column. -/
def mixColumn (l : List Nat) : List Nat :=
  (List.range 4).map (fun r => gmul (l.getD r 0) 2 8 ^^^ gmul (l.getD ((r + 1) % 4) 0) 3 8 ^^^ l.getD ((r + 2) % 4) 0 ^^^ l.getD ((r + 3) % 4) 0)

/-- Mix every column. -/
def mixColumns (l : List Nat) : List Nat := (List.range 4).flatMap (fun c => mixColumn ((l.drop (4 * c)).take 4))

/-- Rounds: all but the last mix columns. -/
def aesRounds (ks : List Nat) (x : Nat) : Nat :=
  match ks with
  | [] => x
  | [k] => beNat (shiftRows ((beBytes 16 x).map sbox)) ^^^ k
  | k :: r => aesRounds r (beNat (mixColumns (shiftRows ((beBytes 16 x).map sbox))) ^^^ k)

/-- Encrypt a block under round keys. -/
def aesBlock (ks : List Nat) (x : Nat) : Nat := aesRounds (ks.drop 1) (x ^^^ ks.headD 0)

/-! ## GCM -/

/-- Multiplication in GF(2^128), the first bit the most significant; `n` bits of `x` are left. -/
def ghashMul (x v z n : Nat) : Nat :=
  match n with
  | 0 => z
  | k + 1 => ghashMul x (if v % 2 = 1 then (v / 2) ^^^ (0xE1 * 2 ^ 120) else v / 2) (if x / 2 ^ k % 2 = 1 then z ^^^ v else z) k

/-- The blocks of a byte string, the last one padded with zeros. -/
def blocksOf (bs : List Nat) (fuel : Nat) : List Nat :=
  match fuel, bs with
  | 0, _ => []
  | _, [] => []
  | f + 1, bs => beNat (bs.take 16 ++ List.replicate (16 - (bs.take 16).length) 0) :: blocksOf (bs.drop 16) f

/-- GHASH of a ciphertext with no additional data. -/
def ghash (h : Nat) (ct : List Nat) : Nat :=
  ghashMul (((blocksOf ct (ct.length + 1)).foldl (fun y b => ghashMul (y ^^^ b) h 0 128) 0) ^^^ (8 * ct.length)) h 0 128

/-- Decrypt or encrypt bytes with the counter stream from a counter block on. -/
def ctrStream (ks : List Nat) (ctr : Nat) (bs : List Nat) (fuel : Nat) : List Nat :=
  match fuel, bs with
  | 0, _ => []
  | _, [] => []
  | f + 1, bs => (List.zipWith (· ^^^ ·) bs (beBytes 16 (aesBlock ks ctr))) ++ ctrStream ks (ctr + 1) (bs.drop 16) f

/-- R78: open a sealed chunk: ciphertext, tag, chunk number; none where the tag fails. -/
def openChunk (key : BitVec 256) (chunk : Word) (ct tag : List Byte) : Option (List Byte) :=
  let ks := roundKeys key.toNat
  let j0 := chunk.toNat * 2 ^ 32 + 1
  let c := ct.map BitVec.toNat
  if ghash (aesBlock ks 0) c ^^^ aesBlock ks j0 = beNat (tag.map BitVec.toNat) then
    some ((ctrStream ks (j0 + 1) c (c.length + 1)).map (BitVec.ofNat 8))
  else none

end Sys2Proof.Machine
end

