-- ==== Sys2Proof/Machine/Convoy.lean ====
section
/-! DEFINITION. Convoys as they are fetched: the operands a member captures (R85), the rotation of its fields (R64), and the
checks at decode (R47, R56, R57). -/

namespace Sys2Proof.Machine

/-! ## Rotation (R64) -/

/-- Fields that name vector registers, as lowest bit positions, of a word an `rpt` body may hold (majors 0x15 to 0x2B). -/
def vectorFields (w : BitVec 32) : List Nat :=
  let m := majorOf w
  let n := minorOf w
  let vb := if fldN w 4 1 = 1 then [] else [7]
  if 0x20 ≤ m ∧ m ≤ 0x22 then [13] ++ vb
  else if m = 0x23 then []
  else if m = 0x24 then []
  else if m = 0x25 ∧ n = 1 then [19] ++ vb
  else if m = 0x25 ∧ n = 2 then [13]
  else if m = 0x25 ∧ n = 3 then [19]
  else if m = 0x26 ∧ n = 3 then [19]
  else if m = 0x27 ∧ n ≤ 1 then [19, 13]
  else if m = 0x27 then [13]
  else if m = 0x2B ∧ n = 0 then [19, 13]
  else if (m = 0x18 ∧ (n = 1 ∨ n = 2)) ∨ (m = 0x19 ∧ n = 3) ∨ m = 0x1F then [19, 13]
  else [19, 13] ++ vb

/-- Rewrite one register field. -/
def rotateField (w : BitVec 32) (k lo : Nat) : BitVec 32 :=
  let f := fldN w lo 6
  if f < 32 then w else BitVec.ofNat 32 (w.toNat - f * 2 ^ lo + (32 + (f - 32 + k) % 32) * 2 ^ lo)

/-- The word in replay `r` of an `rpt` with a stagger: `k` is r × stagger (R64). -/
def rotateWord (w : BitVec 32) (k : Nat) : BitVec 32 := (vectorFields w).foldl (fun w lo => rotateField w k lo) w

/-! ## Captured operands (R85) -/

/-- Operands 0 and 1 a member captures from the scalar registers as it enters its sluice (R85). -/
def captured (t : Strand) (w : BitVec 32) : Word × Word :=
  let m := majorOf w
  let r (lo : Nat) : Word := t.reg (fldN w lo 5)
  if m = 0x2C ∧ minorOf w ≤ 1 then (r 13, r 7)
  else if 0x30 ≤ m ∧ m ≤ 0x36 then
    let x := match m, minorOf w with
      | 0x30, 1 => r 8 | 0x30, 3 => r 8 | 0x31, 1 => r 8 | 0x33, 1 => r 8 | 0x33, 2 => r 8
      | 0x35, 0 => r 8 | 0x35, 1 => r 8 | 0x36, 0 => r 8 | 0x36, 2 => r 8
      | _, _ => 0
    (r 14, x)
  else if 0x15 ≤ m ∧ m ≤ 0x2B ∧ fldN w 4 1 = 1 then (r 7, 0)
  else (0, 0)

/-- The copy member's destination and chunk number (R85). -/
def capturedCopy (t : Strand) (w : BitVec 32) : Word × Word :=
  if majorOf w = 0x36 ∧ minorOf w = 0 then
    (t.reg (fldN w 19 5), if fldN w 2 1 = 1 then t.reg (fldN w 8 5 + 1) else 0)
  else (0, 0)

/-- The modes in force for the strand (R83). -/
def Strand.modes (t : Strand) : Sampled :=
  { vl := t.csr.vl, vtype := t.csr.vtype, rchk := t.csr.rchk, fctl := t.csr.fctl, qcfg := t.csr.qcfg,
    qbase := t.csr.qbase, rfdesc := t.csr.rfdesc, rngseed := t.csr.rngseed, mxcfg := t.csr.mxcfg, mxzpa := t.csr.mxzpa }

/-! ## Fetch (R47, R56) -/

/-- Why a convoy cannot be taken: cause, slot, the word or address for VA. -/
structure DecodeStop where
  cause : Nat
  slot : Nat
  va : Word
  kind : Nat := 0
  deriving DecidableEq, Repr

/-- Fetch the word at an address of a strand's context: R56 step 1. Translation failures that leave the page unmapped
or not executable are fetch faults (R47); the others keep their own cause (assumption 18). -/
def State.fetchWord (s : State) (src : Nat) (pc : Word) (slot : Nat) : Except DecodeStop (BitVec 32 × Xl) :=
  let t := s.strand src
  if pc.toNat % 4 ≠ 0 then .error ⟨7, slot, pc, 1⟩
  else match s.translate (dieOf src) t.bind.ctx t.bind.secure .exec pc (some (coreOf src)) with
    | .error c => .error ⟨if c = Cause.addressRange ∨ c = Cause.pageFault ∨ c = Cause.protection then 7 else c, slot, pc, 1⟩
    | .ok x => match x.place with
      | none => .error ⟨Cause.braidAccess, slot, pc, 1⟩
      | some p =>
        if s.poisoned p 4 then .error ⟨Cause.poison, slot, pc, 1⟩
        else .ok (BitVec.ofNat 32 (leNat (s.readPlace p 4)), x)

/-- Fetching the words at two addresses waits while a PC that either needs is copied (R211). -/
def State.fetchHeld (s : State) (src : Nat) (pc last : Word) : Bool :=
  let b := (s.strand src).bind
  let held (a : Word) : Bool := s.accessHeld (dieOf src) b.ctx b.secure .exec a (some (coreOf src))
  s.dies.any (fun (_, d) => d.spareCopying) && (held pc || held last)

/-- Cause 1 with the failing word. -/
def illegalWord (slot : Nat) (w : BitVec 32) : DecodeStop := ⟨1, slot, w.zeroExtend 64, 0⟩

/-- R56 steps 2 to 6 for member `slot` of a convoy that holds `before`. -/
def checkMember (before : List (BitVec 32)) (w : BitVec 32) : Except DecodeStop Instr :=
  let slot := before.length
  match decode w with
  | .error _ => .error (illegalWord slot w)
  | .ok i =>
    if slot > 0 && !convoyCapable w then .error ⟨3, slot, w.zeroExtend 64, 0⟩
    else if (classOf w).isSome && before.any (fun b => classOf b == classOf w) then .error ⟨3, slot, w.zeroExtend 64, 0⟩
    else if majorOf w = 0x35 ∧ minorOf w = 2 ∧ (slot > 0 ∨ cBit w) then .error ⟨3, slot, w.zeroExtend 64, 0⟩
    else if before.any (fun b => majorOf b == 0x35 && minorOf b == 2) then .error ⟨3, slot, w.zeroExtend 64, 0⟩
    else if slot = 3 ∧ cBit w then .error ⟨2, slot, w.zeroExtend 64, 0⟩
    else .ok i

/-- Fetch and check the rest of a convoy whose members so far are `before`. -/
def State.fetchConvoy (s : State) (src : Nat) (pc : Word) (before : List (BitVec 32)) (fuel : Nat) :
    Except DecodeStop (List (BitVec 32) × Xl) :=
  match fuel with
  | 0 => .error ⟨2, 3, 0, 0⟩
  | f + 1 =>
    match s.fetchWord src pc before.length with
    | .error e => .error e
    | .ok (w, x) =>
      match checkMember before w with
      | .error e => .error e
      | .ok _ =>
        if convoyCapable w && cBit w then State.fetchConvoy s src (pc + 4) (before ++ [w]) f
        else .ok (before ++ [w], x)

end Sys2Proof.Machine
end

