-- ==== Sys2Proof/Machine/Scalar.lean ====
section
/-! DEFINITION. Scalar arithmetic, branches, jumps and grant registers (R141 to R143, R148 to R151). -/

namespace Sys2Proof.Machine

/-! ## Values (R141, R29) -/

/-- Signed quotient under R29. -/
def divS (a b : Word) : Word :=
  if b = 0 then BitVec.allOnes 64 else BitVec.ofInt 64 (Int.tdiv a.toInt b.toInt)
/-- Unsigned quotient under R29. -/
def divU (a b : Word) : Word := if b = 0 then BitVec.allOnes 64 else BitVec.ofNat 64 (a.toNat / b.toNat)
/-- Signed remainder under R29. -/
def remS (a b : Word) : Word := if b = 0 then a else BitVec.ofInt 64 (Int.tmod a.toInt b.toInt)
/-- Unsigned remainder under R29. -/
def remU (a b : Word) : Word := if b = 0 then a else BitVec.ofNat 64 (a.toNat % b.toNat)
/-- Bits <127:64> of the exact signed product. -/
def mulHighS (a b : Word) : Word := BitVec.ofInt 64 (a.toInt * b.toInt / 2 ^ 64)
/-- Bits <127:64> of the exact unsigned product. -/
def mulHighU (a b : Word) : Word := BitVec.ofNat 64 (a.toNat * b.toNat / 2 ^ 64)
/-- Number of leading zero bits of the low `n` bits. -/
def leadingZeros (a : Word) (n : Nat) : Nat :=
  match n with
  | 0 => 0
  | k + 1 => if a.getLsbD k then 0 else 1 + leadingZeros a k
/-- Number of trailing zero bits from bit `i` on, `n` bits in all. -/
def trailingZeros (a : Word) (i n : Nat) : Nat :=
  match n with
  | 0 => 0
  | k + 1 => if a.getLsbD i then 0 else 1 + trailingZeros a (i + 1) k
/-- Number of one bits among the low `n`. -/
def popBits (a : Word) (n : Nat) : Nat :=
  match n with
  | 0 => 0
  | k + 1 => (if a.getLsbD k then 1 else 0) + popBits a k
/-- 1 where a comparison holds, else 0. -/
def boolW (b : Bool) : Word := if b then 1 else 0
/-- Shift amounts use b<5:0>. -/
def amount (b : Word) : Nat := b.toNat % 64
/-- imm12 sign-extended (R48). -/
def sext12 (i : BitVec 12) : Word := i.signExtend 64
/-- sext(imm20 << 12) (R48). -/
def upper20 (i : BitVec 20) : Word := (i.signExtend 64) <<< 12

/-- ALU with two sources (R141). -/
def State.alu (s : State) (x : SReg3) (f : Word → Word → Word) : Out := .next (s.wrNext x.sd (f (s.rd x.sa) (s.rd x.sb)))
/-- ALU with one source (R141). -/
def State.alu1 (s : State) (x : SReg2) (f : Word → Word) : Out := .next (s.wrNext x.sd (f (s.rd x.sa)))
/-- ALUI with the sign-extended immediate (R142). -/
def State.alui (s : State) (x : SImm) (f : Word → Word → Word) : Out := .next (s.wrNext x.sd (f (s.rd x.sa) (sext12 x.imm)))

def execAdd (x : SReg3) (s : State) : Out := s.alu x (· + ·)
def execSub (x : SReg3) (s : State) : Out := s.alu x (· - ·)
def execMul (x : SReg3) (s : State) : Out := s.alu x (· * ·)
def execMulh (x : SReg3) (s : State) : Out := s.alu x mulHighS
def execMulhn (x : SReg3) (s : State) : Out := s.alu x mulHighU
def execDiv (x : SReg3) (s : State) : Out := s.alu x divS
def execDivn (x : SReg3) (s : State) : Out := s.alu x divU
def execRem (x : SReg3) (s : State) : Out := s.alu x remS
def execRemn (x : SReg3) (s : State) : Out := s.alu x remU
def execAnd_ (x : SReg3) (s : State) : Out := s.alu x (· &&& ·)
def execOr_ (x : SReg3) (s : State) : Out := s.alu x (· ||| ·)
def execXor_ (x : SReg3) (s : State) : Out := s.alu x (· ^^^ ·)
def execSll (x : SReg3) (s : State) : Out := s.alu x (fun a b => a <<< amount b)
def execSrl (x : SReg3) (s : State) : Out := s.alu x (fun a b => a >>> amount b)
def execSra (x : SReg3) (s : State) : Out := s.alu x (fun a b => a.sshiftRight (amount b))
def execSlt (x : SReg3) (s : State) : Out := s.alu x (fun a b => boolW (a.slt b))
def execSltn (x : SReg3) (s : State) : Out := s.alu x (fun a b => boolW (a.ult b))
def execMin_ (x : SReg3) (s : State) : Out := s.alu x (fun a b => if a.slt b then a else b)
def execMax_ (x : SReg3) (s : State) : Out := s.alu x (fun a b => if a.slt b then b else a)
def execMinn (x : SReg3) (s : State) : Out := s.alu x (fun a b => if a.ult b then a else b)
def execMaxn (x : SReg3) (s : State) : Out := s.alu x (fun a b => if a.ult b then b else a)
def execClz (x : SReg2) (s : State) : Out := s.alu1 x (fun a => BitVec.ofNat 64 (leadingZeros a 64))
def execCtz (x : SReg2) (s : State) : Out := s.alu1 x (fun a => BitVec.ofNat 64 (trailingZeros a 0 64))
def execPop (x : SReg2) (s : State) : Out := s.alu1 x (fun a => BitVec.ofNat 64 (popBits a 64))

def execAddi (x : SImm) (s : State) : Out := s.alui x (· + ·)
def execAndi (x : SImm) (s : State) : Out := s.alui x (· &&& ·)
def execOri (x : SImm) (s : State) : Out := s.alui x (· ||| ·)
def execXori (x : SImm) (s : State) : Out := s.alui x (· ^^^ ·)
def execSlti (x : SImm) (s : State) : Out := s.alui x (fun a b => boolW (a.slt b))
def execSltni (x : SImm) (s : State) : Out := s.alui x (fun a b => boolW (a.ult b))
def execSlli (x : SShift) (s : State) : Out := .next (s.wrNext x.sd (s.rd x.sa <<< x.amount.toNat))
def execSrli (x : SShift) (s : State) : Out := .next (s.wrNext x.sd (s.rd x.sa >>> x.amount.toNat))
def execSrai (x : SShift) (s : State) : Out := .next (s.wrNext x.sd ((s.rd x.sa).sshiftRight x.amount.toNat))

/-- R143. -/
def execSui (x : SUpper) (s : State) : Out := .next (s.wrNext x.sd (upper20 x.imm20))
/-- R143: PC is the address of the instruction itself. -/
def execPcui (x : SUpper) (s : State) : Out := .next (s.wrNext x.sd (s.me.pc + upper20 x.imm20))

/-! ## Branches and jumps (R148 to R150) -/

/-- Go to an address. -/
def Strand.jump (t : Strand) (pc : Word) : Strand := { t with pc := pc, wait := .none, st := .running, scalarExempt := false }

/-- Four times a sign-extended word offset. -/
def offset12 (o : BitVec 12) : Word := (o.signExtend 64) * 4
def offset20 (o : BitVec 20) : Word := (o.signExtend 64) * 4

/-- R148: to PC + 4 × sext(off12) when the condition holds, else to PC + 4. -/
def State.branchIf (s : State) (c : Bool) (off : BitVec 12) : State :=
  s.upd (fun t => if c then t.jump (t.pc + offset12 off) else t.advance)

def execBeq (x : BranchOp) (s : State) : Out := .next (s.branchIf (s.rd x.sa == s.rd x.sb) x.off)
def execBne (x : BranchOp) (s : State) : Out := .next (s.branchIf (s.rd x.sa != s.rd x.sb) x.off)
def execBlt (x : BranchOp) (s : State) : Out := .next (s.branchIf ((s.rd x.sa).slt (s.rd x.sb)) x.off)
def execBge (x : BranchOp) (s : State) : Out := .next (s.branchIf (!(s.rd x.sa).slt (s.rd x.sb)) x.off)
def execBltn (x : BranchOp) (s : State) : Out := .next (s.branchIf ((s.rd x.sa).ult (s.rd x.sb)) x.off)
def execBgen (x : BranchOp) (s : State) : Out := .next (s.branchIf (!(s.rd x.sa).ult (s.rd x.sb)) x.off)

/-- Wait until every queued convoy that writes mask `n` has retired (R149), then go on. -/
def State.whenMask (s : State) (n : Nat) (k : State → State) : State :=
  match lastConvoy s.me.viq (fun w => maskWritten w == some n) with
  | some q => s.waitFor (.retired q)
  | none => k s

/-- Wait until every queued convoy that writes grant `n` has retired (R149, R151), then go on. -/
def State.whenGrant (s : State) (n : Nat) (k : State → State) : State :=
  match lastConvoy s.me.viq (fun w => grantWritten w == some n) with
  | some q => s.waitFor (.retired q)
  | none => k s

/-- The low `vl` bits of a mask register of the executing strand. -/
def State.maskBits (s : State) (n : Nat) : Nat := (s.me.vec.mask n).toNat % 2 ^ s.me.csr.vl

def execBany (x : MBranchOp) (s : State) : Out :=
  .next (s.whenMask x.reg.toNat (fun s => s.branchIf (s.maskBits x.reg.toNat != 0) x.off))
def execBall (x : MBranchOp) (s : State) : Out :=
  .next (s.whenMask x.reg.toNat (fun s => s.branchIf (s.maskBits x.reg.toNat == 2 ^ s.me.csr.vl - 1) x.off))
def execBnone (x : MBranchOp) (s : State) : Out :=
  .next (s.whenMask x.reg.toNat (fun s => s.branchIf (s.maskBits x.reg.toNat == 0) x.off))
def execBgz (x : MBranchOp) (s : State) : Out :=
  .next (s.whenGrant x.reg.toNat (fun s => s.branchIf (bitsN (s.me.vec.grant x.reg.toNat) 0 16 == 0) x.off))
def execBgnz (x : MBranchOp) (s : State) : Out :=
  .next (s.whenGrant x.reg.toNat (fun s => s.branchIf (bitsN (s.me.vec.grant x.reg.toNat) 0 16 != 0) x.off))

/-- R150: the target is computed before sd is written. -/
def State.jumpTo (s : State) (sd : BitVec 5) (target : Word) : State :=
  s.upd (fun t => (t.setReg sd.toNat (t.pc + 4)).jump target)

def execJal (x : JalOp) (s : State) : Out := .next (s.jumpTo x.sd (s.me.pc + offset20 x.off20))
def execJalr (x : SImm) (s : State) : Out := .next (s.jumpTo x.sd (s.rd x.sa + sext12 x.imm))

/-! ## Grant registers (R151) -/

/-- Field `f` of a grant: 0 ELEM, 1 CONA, 2 CONB, 3 PROD, 4 all (R68, R151). -/
def grantField (g : Word) (f : Nat) : Word := if f = 4 then g else BitVec.ofNat 64 (bitsN g (16 * f) 16)
/-- Replace field `f` of a grant. -/
def grantSet (g : Word) (f : Nat) (w : Word) : Word :=
  if f = 4 then w
  else BitVec.ofNat 64 (g.toNat - bitsN g (16 * f) 16 * 2 ^ (16 * f) + w.toNat % 2 ^ 16 * 2 ^ (16 * f))

def VecState.setGrant (v : VecState) (n : Nat) (w : Word) : VecState := { v with g := v.g.set n w }
def Strand.setGrant (t : Strand) (n : Nat) (w : Word) : Strand := { t with vec := t.vec.setGrant n w }

def execGget (x : GGetOp) (s : State) : Out :=
  .next (s.whenGrant x.grant.toNat (fun s => s.wrNext x.sd (grantField (s.me.vec.grant x.grant.toNat) x.field.toNat)))
def execGset (x : GSetOp) (s : State) : Out :=
  .next (s.whenGrant x.grant.toNat (fun s =>
    s.upd (fun t => (t.setGrant x.grant.toNat (grantSet (t.vec.grant x.grant.toNat) x.field.toNat (t.reg x.sa.toNat))).advance)))
def execGclr (x : GClrOp) (s : State) : Out :=
  .next (s.whenGrant x.grant.toNat (fun s => s.upd (fun t => (t.setGrant x.grant.toNat 0).advance)))

end Sys2Proof.Machine
end

