-- ==== Sys2Proof/Machine/Csr.lean ====
section
/-! DEFINITION. The CSRs (R82 to R84), VLCAP (R80, R81), and the trap a scalar word takes at decode. -/

namespace Sys2Proof.Machine

/-- A decode trap of the scalar word in execution: it is taken once every earlier convoy has retired (R56). -/
def State.decodeTrap (s : State) (cause : Nat) (w : BitVec 32) : State :=
  match s.me.viq.getLast? with
  | some c => s.waitFor (.retired c.seq)
  | none => s.scalarStop cause 0 (w.zeroExtend 64) 0

/-- The word of an instruction, for the record of a decode trap (R299). -/
def wordOf (i : Instr) : BitVec 32 := (encode i).getD 0

/-- CSRs a program may not write (R82). -/
def csrReadOnly (n : Nat) : Bool :=
  n ≤ 0x002 || n == 0x011 || n == 0x020 || n == 0x021 || n == 0x040 || n == 0x041 || n == 0x046
    || (0x060 ≤ n && n ≤ 0x067) || n == 0x082 || n == 0x083 || n == 0x0C2 || n == 0x109

/-- CSRs that need a privileged context for reading and writing (R82). -/
def csrPriv (n : Nat) : Bool := n == 0x043 || n == 0x045 || n == 0x0C0 || n == 0x0C1

/-- Drain class (R83). -/
def csrDrain (n : Nat) : Bool :=
  n == 0x003 || n == 0x005 || (0x008 ≤ n && n ≤ 0x00E) || n == 0x011 || n == 0x082 || n == 0x109

/-- Watch class (R83). -/
def csrWatch (n : Nat) : Bool := (0x100 ≤ n && n ≤ 0x108) || n == 0x10A || n == 0x10B

/-- Engine class (R83). -/
def csrEngine (n : Nat) : Bool := n == 0x042 || n == 0x043 || n == 0x044

/-- The bits of a CSR that are not reserved (R6, R25, R26, R32, R39, R82, R217, R284, R286, R342 to R351). Of TLBASE, which
R82 calls 8-byte aligned, the low three bits stay 0 (assumption 71). -/
def csrMask (n : Nat) : Word :=
  match n with
  | 0x003 => 0x7F
  | 0x004 => 0x7F7
  | 0x010 => 0xFFFFFFFE
  | 0x012 => 0xFFFF003F
  | 0x014 => 0xFFFF0FFF
  | 0x044 => 0xFFFFFFFFFFFFFFF8
  | 0x047 => 3
  | 0x080 => 0x37FFFF
  | 0x081 => 0xFF
  | 0x082 => 0x3FFFFFFFF
  | 0x0C0 => 0xFFFF03F00000FF03
  | 0x0C1 => 0x0000FFFFFFFFFFC0
  | 0x108 => 0x7777
  | 0x10A => 0xFFFF0001
  | 0x10B => 0xF
  | _ => if 0x100 ≤ n ∧ n ≤ 0x107 then 0x0000FFFFFFFFFFFF else BitVec.allOnes 64

/-- Ways 15 down to 16 - n, one bit each (R82 L1WAYS). -/
def waysMask (n : Nat) : Nat := (2 ^ n - 1) * 2 ^ (16 - n)

/-- The value of a CSR of the executing strand (R82). -/
def State.csrRead (s : State) (n : Nat) : Word :=
  let t := s.me
  let src := s.cur.src
  let nat (k : Nat) : Word := BitVec.ofNat 64 k
  match n with
  | 0x000 => nat t.csr.vl
  | 0x001 => t.csr.vtype.zeroExtend 64
  | 0x002 => nat (s.vlb src)
  | 0x003 => t.vec.fstat.zeroExtend 64
  | 0x004 => t.csr.fctl
  | 0x005 => t.csr.estart
  | 0x010 => t.csr.indmask
  | 0x011 => t.stripst
  | 0x012 => t.csr.qcfg
  | 0x013 => t.csr.qbase
  | 0x014 => t.csr.rfdesc
  | 0x015 => t.csr.rngseed
  | 0x020 => s.gtcOf src
  | 0x021 => nat src
  | 0x040 => nat t.bind.ctx
  | 0x041 => boolW t.bind.secure
  | 0x042 => t.csr.vlcap
  | 0x043 => (s.context t.bind.ctx).ptRoot
  | 0x044 => t.csr.tlbase
  | 0x045 => (s.context t.bind.ctx).frqBase
  | 0x046 => boolW t.bind.det
  | 0x047 => t.csr.rchk.zeroExtend 64
  | 0x060 => nat t.bind.launch.lid
  | 0x061 => nat t.bind.gix
  | 0x062 => nat t.bind.ix
  | 0x063 => nat t.bind.gsize
  | 0x064 => nat t.bind.ngroups
  | 0x065 => t.bind.paramBase
  | 0x066 => nat t.bind.queue
  | 0x067 => nat (coreOf src)
  | 0x080 => t.csr.mxcfg
  | 0x081 => t.csr.mxzpa
  | 0x082 => t.csr.mxprog
  | 0x083 => (s.core (coreOf src)).laneDis.zeroExtend 64
  | 0x0C0 => (s.die (dieOf src)).trkcfg
  | 0x0C1 => (s.die (dieOf src)).ntqbase
  | 0x0C2 => nat (waysMask (s.core (coreOf src)).ways)
  | 0x108 => t.csr.watchctl
  | 0x109 => t.csr.donemask
  | 0x10A => t.csr.samplectl
  | 0x10B => t.csr.tracectl
  | _ =>
    if 0x008 ≤ n ∧ n ≤ 0x00E then t.vec.evixOf (n - 8)
    else if 0x100 ≤ n ∧ n ≤ 0x107 then t.csr.watch.getD (n - 0x100) 0
    else 0

/-- A strand's vector registers, masks, fill tags and full/empty bits as at its start (R69, R81). -/
def VecState.cleared (v : VecState) : VecState := { v with v := [], fill := [], full := [], m := [] }

/-- PERIOD of TRKCFG is clamped to 10 to 40 on a write (R217). -/
def clampPeriod (w : Word) : Word :=
  let p := bitsN w 8 8
  BitVec.ofNat 64 (w.toNat - p * 256 + max 10 (min 40 p) * 256)

/-- A TRKCFG write (R217); turning EN on clears the counters and starts a period (R280). A period that is over has ended before the
write. Crossings that were met stay to be recorded. -/
def State.writeTrkcfg (s : State) (die : Nat) (w : Word) : State :=
  let d := (s.die die).endDue
  let w := clampPeriod (w &&& csrMask 0x0C0)
  if bitN w 0 && !bitN d.trkcfg 0 then
    s.setDie die { d with trkcfg := w, counters := [], periodStart := d.gtc, periodLen := bitsN w 8 8 }
  else s.setDie die { d with trkcfg := w }

/-- Drop the TLB entries of a context on every die, whole or at one page (R83, R75, R208). -/
def State.dropTlb (s : State) (ctx : Nat) (page : Option Nat) : State :=
  let keep (e : TlbEntry) : Bool := match page with | none => e.ctx != ctx | some p => !e.covers ctx p
  { s with dies := s.dies.map (fun (k, d) =>
      (k, { d with tlb := d.tlb.filter keep, l1Tlb := d.l1Tlb.map (fun (c, l) => (c, l.filter keep)) })) }

/-- A VLCAP write of a privileged strand (R80, R81); a `vldx` still landing in a register that is reset lands no more. -/
def State.writeVlcap (s : State) (w : Word) : State :=
  let old := s.vlb s.cur.src
  let s := s.upd (fun t => { t with csr := { t.csr with vlcap := BitVec.ofNat 64 (clampVlcap w.toNat) } })
  if s.vlb s.cur.src = old then s else s.upd (fun t => { t with vec := t.vec.cleared, lands := [] })

/-- Write a CSR of the executing strand; `w` has the reserved bits cleared (R84). -/
def State.csrWrite (s : State) (n : Nat) (w : Word) : State :=
  let c (f : Csrs → Csrs) : State := s.upd (fun t => { t with csr := f t.csr })
  let ctx := s.me.bind.ctx
  match n with
  | 0x003 => s.upd (fun t => { t with vec := { t.vec with fstat := w.truncate 7 } })
  | 0x004 => c (fun r => { r with fctl := w })
  | 0x005 => c (fun r => { r with estart := w })
  | 0x010 => c (fun r => { r with indmask := w })
  | 0x012 => c (fun r => { r with qcfg := w })
  | 0x013 => c (fun r => { r with qbase := w })
  | 0x014 => c (fun r => { r with rfdesc := w })
  | 0x015 => c (fun r => { r with rngseed := w })
  | 0x042 => s.writeVlcap w
  | 0x043 => ({ s with contexts := s.contexts.set ctx { s.context ctx with ptRoot := w } }).dropTlb ctx none
  | 0x044 => c (fun r => { r with tlbase := w })
  | 0x045 => { s with contexts := s.contexts.set ctx { s.context ctx with frqBase := w } }
  | 0x047 => c (fun r => { r with rchk := w.truncate 2 })
  | 0x080 => c (fun r => { r with mxcfg := w })
  | 0x081 => c (fun r => { r with mxzpa := w })
  | 0x0C0 => s.writeTrkcfg (dieOf s.cur.src) w
  | 0x0C1 => s.setDie (dieOf s.cur.src) { s.die (dieOf s.cur.src) with ntqbase := w }
  | 0x108 => c (fun r => { r with watchctl := w })
  | 0x10A => s.upd (fun t => { t with sampleCount := 0, csr := { t.csr with samplectl := w } })
  | 0x10B => c (fun r => { r with tracectl := w })
  | _ =>
    if 0x008 ≤ n ∧ n ≤ 0x00E then s.upd (fun t => { t with vec := { t.vec with evix := t.vec.evix.set (n - 8) w } })
    else if 0x100 ≤ n ∧ n ≤ 0x107 then c (fun r => { r with watch := r.watch.set (n - 0x100) w })
    else s

/-- Every operation of the timelines named is complete with its counter written (R83, R246, R254). -/
def Strand.enginesDone (t : Strand) (cp mx as : Bool) : Bool :=
  (!cp || (t.cpq.isEmpty && t.tlCopy.issued == t.tlCopy.counter))
    && (!mx || (t.mxq.isEmpty && t.tlMatrix.issued == t.tlMatrix.counter))
    && (!as || (t.lands.all (fun l => l.num.isNone) && t.tlAsync.issued == t.tlAsync.counter))

/-- What an access of a CSR waits for (R83); `.none` when it can be made. -/
def State.csrWait (s : State) (n : Nat) (writes : Bool) : Wait :=
  let t := s.me
  let last := t.viq.getLast?.map Convoy.seq
  if csrDrain n then
    match lastConvoy t.viq (fun w => !usesCpq w) with
    | some q => .retired q
    | none => .none
  else if writes && csrWatch n then (match last with | some q => .retired q | none => .none)
  else if writes && csrEngine n then
    if n = 0x042 ∧ last.isSome then .retired (last.getD 0)
    else if t.enginesDone true true true then .none else .engines true true true
  else .none

/-- The four CSR instructions (R84): `f` gives the new value from the old one, where the instruction writes. -/
def State.csrAccess (s : State) (i : Instr) (sd : BitVec 5) (csr : BitVec 12) (f : Option (Word → Word)) : State :=
  let n := csr.toNat
  let writes := f.isSome
  if writes && csrReadOnly n then s.decodeTrap 1 (wordOf i)
  else if !s.me.bind.privileged && (csrPriv n || (writes && n == 0x042)) then s.decodeTrap 4 (wordOf i)
  else if writes && n == 0x042 && s.me.bind.det then s.scalarStop 20 0 0 0
  else match s.csrWait n writes with
    | .none =>
      let old := s.csrRead n
      let s := match f with
        | some g => s.csrWrite n (g old &&& csrMask n)
        | none => s
      s.wrNext sd old
    | w => s.waitFor w

def execCsrrw (x : CsrOp) (s : State) : Out :=
  .next (s.csrAccess (.csrrw x) x.sd x.csr (some (fun _ => s.rd x.sa)))
def execCsrrs (x : CsrOp) (s : State) : Out :=
  .next (s.csrAccess (.csrrs x) x.sd x.csr (if x.sa = 0 then none else some (fun old => old ||| s.rd x.sa)))
def execCsrrc (x : CsrOp) (s : State) : Out :=
  .next (s.csrAccess (.csrrc x) x.sd x.csr (if x.sa = 0 then none else some (fun old => old &&& ~~~ s.rd x.sa)))
def execCsrr (x : CsrROp) (s : State) : Out := .next (s.csrAccess (.csrr x) x.sd x.csr none)

end Sys2Proof.Machine
end

