-- ==== Sys2Proof/Machine/LoadStore.lean ====
section
/-! DEFINITION. Scalar loads, stores and atomics (R144 to R147), and the fences (R254, R255). -/

namespace Sys2Proof.Machine

/-! ## What a scalar access meets (R144, R145, R345) -/

/-- Outcome of the checks of an access of the executing strand. -/
inductive Checked where
  | ok (x : Xl) (p : Place)
  /-- The access waits: a migrating frame (R216), or a PC being copied (R211). -/
  | wait (frame : Nat)
  /-- It stops with a cause. -/
  | stop (cause : Nat)
  /-- It consumes poison (R313, R315). -/
  | error
  /-- Its frame-map entry names a location that does not exist. -/
  | beyond
  deriving DecidableEq, Repr

/-- Checks of an aligned access of `n` bytes by the executing strand, in the order of R345, R144 and R205; `full` says
that a store replaces every byte of each line it touches (R321); `hold` is a translation that is held (R228). -/
def State.checkAccess (s : State) (acc : Access) (va : Word) (n : Nat) (watched full : Bool) (hold : Option Hold := none) : Checked :=
  let t := s.me
  let die := dieOf s.cur.src
  let core := some (coreOf s.cur.src)
  let wr := acc.needsW
  if watched then .stop 37
  else if bitsN va 48 16 ≠ 0 then .stop Cause.addressRange
  else if va.toNat % n ≠ 0 then .stop Cause.misaligned
  else if hold.isNone && s.walkBusy die t.bind.ctx va.toNat core then .wait 0
  else match s.translateHeld hold die t.bind.ctx t.bind.secure acc va core with
    | .error c => if c = Cause.poison then .error else .stop c
    | .ok x =>
      if acc = .atomic ∧ x.fme.kind = 5 then .stop Cause.atomicNot
      else match x.place with
        | none => .stop Cause.braidAccess
        | some p =>
          let ps := s.placesOf x.fme die (x.fa % 65536) acc
          if !p.exists then .beyond
          else if wr && x.fme.w then .wait x.frame
          else if ps.any s.placeBusy then .wait x.frame
          else if ps.any (fun q => s.poisoned q n) && !(wr && acc ≠ .atomic && full) then .error
          else .ok x p

/-- The watch comparators match a scalar access that is not exempt (R344 to R346). -/
def State.scalarWatched (s : State) (acc : Access) (va : Word) (n : Nat) : Bool :=
  !s.me.scalarExempt && s.me.watchHit acc.needsR acc.needsW va.toNat n

/-- Take what a scalar access met, or go on with its place. -/
def State.scalarAccess (s : State) (acc : Access) (kind : Nat) (va : Word) (n : Nat) (k : Xl → Place → State) : Out :=
  match s.checkAccess acc va n (s.scalarWatched acc va n) false with
  | .ok x p => .next (k x p)
  | .wait f => .next (s.waitFor (.writeBlock f))
  | .stop c =>
    if c = 37 then .next ((s.upd (fun t => { t with scalarExempt := true })).scalarStop 37 kind va 1)
    else .next (s.scalarStop c kind va 0)
  | .error => .next (s.consumeError s.cur.src Cause.poison kind va 0xFFFFFFFF 0 s.me.pc s.me.openStrip)
  | .beyond => .fault .locationBeyondSpace

/-- Bytes of the scalar store queue over bytes read at frame address `fa` (R229): the youngest store wins. -/
def State.queueBytes (s : State) (src fa : Nat) (bs : List Byte) : List Byte :=
  let t := s.strand src
  overlay bs fa (t.ssq.flatMap (fun q => q.bytes.zipIdx.map (fun (b, i) => (q.fa + i, b))))

/-- The bytes a scalar load returns: its own queued stores, its strip buffer, then memory (R146, R229). -/
def State.scalarBytes (s : State) (x : Xl) (p : Place) (n : Nat) : List Byte :=
  s.queueBytes s.cur.src x.fa (s.loadBytes s.cur.src x p n)

/-- A scalar load of `n` bytes (R144). -/
def State.loadInto (s : State) (sd : BitVec 5) (va : Word) (n : Nat) (signed : Bool) : Out :=
  s.scalarAccess .read 2 va n (fun x p =>
    let v := leNat (s.scalarBytes x p n)
    let w : Word := if signed then BitVec.ofInt 64 (toSigned (8 * n) v) else BitVec.ofNat 64 v
    ((s.touchScalar s.cur.src va x).readLines (dieOf s.cur.src) [p]).wrNext sd w)

/-- Put a store into the scalar store queue; it leaves at once unless the schedule holds it (R146, R229). -/
def State.enqueueStore (s : State) (va : Word) (x : Xl) (bs : List Byte) : State :=
  let s := s.upd (fun t => { t with ssq := t.ssq ++ [⟨va, x.fa, bs, t.openStrip, []⟩] })
  if s.me.hold then s else s.drain s.cur.src

/-- A scalar store of `n` bytes (R144). -/
def State.storeFrom (s : State) (ss : BitVec 5) (va : Word) (n : Nat) : Out :=
  s.scalarAccess .write 3 va n (fun x _ =>
    s.ifStays ((s.see s.cur.src va x).enqueueStore va x (leBytes n (s.rd ss).toNat)) State.goNext)

/-- R48: an SM address. -/
def State.smAddr (s : State) (sa : BitVec 5) (imm : BitVec 12) : Word := s.rd sa + sext12 imm

def execLdi8 (x : SImm) (s : State) : Out := s.loadInto x.sd (s.smAddr x.sa x.imm) 1 true
def execLdi16 (x : SImm) (s : State) : Out := s.loadInto x.sd (s.smAddr x.sa x.imm) 2 true
def execLdi32 (x : SImm) (s : State) : Out := s.loadInto x.sd (s.smAddr x.sa x.imm) 4 true
def execLdi64 (x : SImm) (s : State) : Out := s.loadInto x.sd (s.smAddr x.sa x.imm) 8 true
def execLdn8 (x : SImm) (s : State) : Out := s.loadInto x.sd (s.smAddr x.sa x.imm) 1 false
def execLdn16 (x : SImm) (s : State) : Out := s.loadInto x.sd (s.smAddr x.sa x.imm) 2 false
def execLdn32 (x : SImm) (s : State) : Out := s.loadInto x.sd (s.smAddr x.sa x.imm) 4 false
def execSt8 (x : SStore) (s : State) : Out := s.storeFrom x.ss (s.smAddr x.sa x.imm) 1
def execSt16 (x : SStore) (s : State) : Out := s.storeFrom x.ss (s.smAddr x.sa x.imm) 2
def execSt32 (x : SStore) (s : State) : Out := s.storeFrom x.ss (s.smAddr x.sa x.imm) 4
def execSt64 (x : SStore) (s : State) : Out := s.storeFrom x.ss (s.smAddr x.sa x.imm) 8

/-! ## Events of R229 -/

/-- The context of the executing strand has been faulted by what has just been done. -/
def State.faulted (s : State) (ctx : Nat) : Bool := (s.context ctx).state == 4

/-- Commit the open strip for an event of R229 and go on: first every older strip commits in the normal way (R311), and no buffered
store may be held by a migration (R216); until then the strand waits as `w` says. With no open strip and nothing queued, go on at
once. -/
def State.stripEventOr (s : State) (w : Wait) (why : Nat) (k : State → State) : State :=
  let t := s.me
  if t.ssq.isEmpty && t.openStrip.isNone then k s
  else if t.olderStrips then s.waitFor w
  else s.ifStays (s.drain s.cur.src) (fun s =>
    if !s.me.ssq.isEmpty || s.bufHeld s.cur.src then s.waitFor w
    else s.ifStays (s.stripEvent s.cur.src why) k)

/-- The same, of an instruction that begins again after the wait. -/
def State.withStripEvent (s : State) (why : Nat) (k : State → State) : State := s.stripEventOr .olderStrips why k

/-- The last queued convoy with a vector memory member not yet performed. -/
def Strand.lastVecMem (t : Strand) : Option Nat :=
  ((t.viq.filter (fun c => (c.words.drop c.next).any isVecMem)).getLast?).map Convoy.seq

/-! ## Atomics (R147) -/

/-- The new value of an atomic of `w` bits from the old one and the operand: 0 add, 1 swap, 2 cas (against `e`), 3 min,
4 max, 5 minn, 6 maxn, 7 and, 8 or, 9 xor. -/
def amoNew (op w old b e : Nat) : Nat :=
  match op with
  | 0 => (old + b) % 2 ^ w
  | 1 => b
  | 2 => if old = e then b else old
  | 3 => if toSigned w old ≤ toSigned w b then old else b
  | 4 => if toSigned w old ≤ toSigned w b then b else old
  | 5 => if old ≤ b then old else b
  | 6 => if old ≤ b then b else old
  | 7 => old &&& b
  | 8 => old ||| b
  | _ => old ^^^ b

/-- The read and the write of an atomic at a place, as one step (R147), behind the writes on their way there that it follows (R268). -/
def State.atomicAt (s : State) (va : Word) (p : Place) (n op b e : Nat) : State × Nat :=
  let s := s.payOwed (dieOf s.cur.src) p
  let old := leNat (s.readPlace p n)
  let s := s.meetLines (dieOf s.cur.src) [p]
  (s.performNow s.cur.src va p (leBytes n (amoNew op (8 * n) old b e)), old)

/-- R264 note c: a release waits until the strand's earlier vector memory operations are performed. -/
def releases (order : BitVec 2) : Bool := order.getLsbD 1

/-- A scalar atomic (R147). -/
def State.amo (s : State) (x : AmoOp) (op : Nat) : Out :=
  let n := if x.wide = 1 then 8 else 4
  let va := s.rd x.sa
  match (if releases x.order then s.me.lastVecMem else none) with
  | some q => .next (s.waitFor (.vecMem q))
  | none =>
    s.scalarAccess .atomic 4 va n (fun xl p =>
      s.withStripEvent 1 (fun s =>
        if s.flying s.cur.src then s.waitFor (.fence 1 2) else
        let s := if releases x.order then s.upd Strand.fixReads else s
        let (s, old) := s.atomicAt va p n op ((s.rd x.sb).toNat % 2 ^ (8 * n)) ((s.rd x.sd).toNat % 2 ^ (8 * n))
        (s.touchScalar s.cur.src va xl).wrNext x.sd (BitVec.ofInt 64 (toSigned (8 * n) old))))

def execAmoadd (x : AmoOp) (s : State) : Out := s.amo x 0
def execAmoswap (x : AmoOp) (s : State) : Out := s.amo x 1
def execAmocas (x : AmoOp) (s : State) : Out := s.amo x 2
def execAmomin (x : AmoOp) (s : State) : Out := s.amo x 3
def execAmomax (x : AmoOp) (s : State) : Out := s.amo x 4
def execAmominn (x : AmoOp) (s : State) : Out := s.amo x 5
def execAmomaxn (x : AmoOp) (s : State) : Out := s.amo x 6
def execAmoand (x : AmoOp) (s : State) : Out := s.amo x 7
def execAmoor (x : AmoOp) (s : State) : Out := s.amo x 8
def execAmoxor (x : AmoOp) (s : State) : Out := s.amo x 9

/-! ## Fences (R254, R255) -/

/-- Outstanding acknowledgements of a strand's own writes on any link (R335). -/
def State.linkPending (s : State) (src : Nat) : Bool :=
  s.ports.any (fun (_, p) => p.inflight.any (fun r => r.source == src && r.copy.isNone))

/-- The source's writes that have left are performed at the scope (R259, R335, R268). -/
def State.writesDone (s : State) (src : Nat) (scope : BitVec 3) : Bool :=
  (scope = 0 || !s.flying src) && (scope.toNat < 4 || !s.linkPending src)

/-- Everything a fence selects is performed (R254): kinds 1 scalar, 2 vector, 4 engine; 0 selects all. -/
def State.fenceDone (s : State) (src : Nat) (kinds scope : BitVec 3) : Bool :=
  let t := s.strand src
  let k := if kinds = 0 then 7 else kinds
  (!k.getLsbD 0 || t.ssq.isEmpty) && (!(k.getLsbD 1 || k.getLsbD 2) || t.viq.isEmpty)
    && (!k.getLsbD 2 || t.enginesDone true true true) && s.writesDone src scope

/-- A drain point: a store that a fenced link never acknowledged is an uncorrectable error of the strand (R335). -/
def State.drainPoint (s : State) (k : State → State) : State :=
  match s.me.lostStore with
  | none => k s
  | some va =>
    (s.upd (fun t => { t with lostStore := none })).consumeError s.cur.src 19 3 va 0xFFFFFFFF 0 s.me.pc s.me.openStrip

/-- A fence of group scope or wider commits the strip buffer (R229). -/
def State.scopeEvent (s : State) (scope : BitVec 3) (k : State → State) : State :=
  if scope = 0 then k s else s.withStripEvent 3 k

/-- `fence` (R254). -/
def execFence (x : FenceOp) (s : State) : Out :=
  .next (s.ifStays (s.drain s.cur.src) (fun s =>
    if s.fenceDone s.cur.src x.kinds 0 then
      s.drainPoint (fun s => s.scopeEvent x.scope (fun s =>
        if s.writesDone s.cur.src x.scope then (s.upd Strand.fixReads).goNext else s.waitFor (.fence x.kinds x.scope)))
    else s.waitFor (.fence x.kinds 0)))

/-- The strip that an `fsv` commits can commit: the stores before it have entered the buffer, no older strip is uncommitted,
and no store is held (R216, R311). -/
def State.fsvCommits (s : State) (src : Nat) (m : FsvMark) : Bool :=
  let t := s.strand src
  m.left == 0 && (match m.strip with | some i => !t.strips.any (fun r => r.id < i) | none => true) && !s.bufHeld src

/-- The oldest marker of a strand leaves once the accesses before it are performed at its scope; the buffer is committed first,
where that is due (R229, R255). -/
def State.fsvStep (s : State) (src : Nat) : State :=
  match (s.strand src).fsvMarks with
  | [] => s
  | m :: r =>
    if m.left ≠ 0 || (m.commits && !s.fsvCommits src m) then s
    else
      let s := match (if m.commits then m.strip else none) with
        | some i => s.commitStrips src (· == i)
        | none => s
      let done := s.writesDone src m.scope
      s.updAt src (fun t => if t.st = .unbound then t else
        { t with fsvMarks := if done then r else { m with commits := false } :: r })

/-- Markers leave, as far as they can. -/
def State.fsvSteps (s : State) (src fuel : Nat) : State :=
  match fuel with
  | 0 => s
  | f + 1 =>
    let s' := s.fsvStep src
    if (s'.strand src).fsvMarks.length < (s.strand src).fsvMarks.length then State.fsvSteps s' src f else s'

/-- `fsv` (R255): a marker enters the VMQ, and the scalar side runs on. One of group scope or wider makes the strip
non-rewindable, and its buffer commits as soon as the older strips have (R229, R311). -/
def execFsv (x : ScopeOp) (s : State) : Out :=
  let wide := x.scope ≠ 0
  .next (s.drainPoint (fun s =>
    let s := s.upd (fun t =>
      let t := if wide then t.markStrip 3 else t
      { t.advance with fsvMarks := t.fsvMarks ++ [⟨t.nextSeq, x.scope, t.ssq.length, t.openStrip, wide⟩] })
    s.fsvSteps s.cur.src s.me.fsvMarks.length))

/-- `fvs` (R255): every earlier vector memory instruction has been performed. -/
def execFvs (x : ScopeOp) (s : State) : Out :=
  match s.me.lastVecMem with
  | some q => .next (s.waitFor (.vecMem q))
  | none => .next (s.drainPoint (fun s => s.scopeEvent x.scope (fun s =>
      if s.writesDone s.cur.src x.scope then (s.upd Strand.fixReads).goNext else s.waitFor (.fence 2 x.scope))))

/-- The scalar side waits for a timeline, then the scope's event takes place (R255). -/
def State.engineFence (s : State) (scope : BitVec 3) (cp mx : Bool) : State :=
  if s.me.enginesDone cp mx false then s.drainPoint (fun s => s.scopeEvent scope State.goNext)
  else s.waitFor (.engines cp mx false)

def execFmx (x : ScopeOp) (s : State) : Out := .next (s.engineFence x.scope false true)
def execFcp (x : ScopeOp) (s : State) : Out := .next (s.engineFence x.scope true false)

end Sys2Proof.Machine
end

