-- ==== Sys2Proof/Machine/Types.lean ====
section
/-! DEFINITION. The type codes of R15 and what VTYPE says (R52, R63). -/

namespace Sys2Proof.Machine

/-- Element widths of the type codes (R15); none for a reserved code. Granule types have EW 4. -/
def ewOf (code : Nat) : Option Nat :=
  match code with
  | 0x00 => some 8 | 0x01 => some 16 | 0x02 => some 32 | 0x03 => some 64
  | 0x04 => some 8 | 0x05 => some 16 | 0x06 => some 32 | 0x07 => some 64
  | 0x08 => some 8 | 0x09 => some 8 | 0x0A => some 16 | 0x0B => some 16 | 0x0C => some 32
  | 0x0D => some 4
  | 0x10 => some 4 | 0x11 => some 4 | 0x12 => some 4
  | _ => none

def isSignedInt (code : Nat) : Bool := decide (code ≤ 3)
def isUnsignedInt (code : Nat) : Bool := decide (4 ≤ code) && decide (code ≤ 7)
/-- The classes of R159. -/
def isInt (code : Nat) : Bool := decide (code ≤ 7)
def isFlt (code : Nat) : Bool := code == 0x0A || code == 0x0B || code == 0x0C
def isFp8 (code : Nat) : Bool := code == 0x08 || code == 0x09
def isPlain (code : Nat) : Bool := decide (code ≤ 0x0C)
def isGranule (code : Nat) : Bool := code == 0x10 || code == 0x11 || code == 0x12

/-- Type code, element width and group size of a VTYPE (R52). -/
def vtCode (vt : BitVec 10) : Nat := vt.toNat / 16
def vtEw (vt : BitVec 10) : Nat := (ewOf (vtCode vt)).getD 8
def vtGroup (vt : BitVec 10) : Nat := 2 ^ (vt.toNat / 4 % 4)
/-- Policy 01: inactive and tail elements become 0 (R158). -/
def vtZero (vt : BitVec 10) : Bool := vt.toNat % 4 == 1

end Sys2Proof.Machine
end

