-- ==== Sys2Proof/Machine/Flags.lean ====
section
/-! DEFINITION. Flag classes and their event indices (R25 to R28). A set of classes is a number of 7 bits in the order
of FSTAT. -/

namespace Sys2Proof.Machine

/-- The classes of R25, as bits of FSTAT. -/
def flNV : Nat := 1
def flDZ : Nat := 2
def flOF : Nat := 4
def flUF : Nat := 8
def flNX : Nat := 16
def flSAT : Nat := 32
def flRG : Nat := 64

/-- EVIX of a class after element `i` raised it (R28). -/
def creditClass (fl i : Nat) (ev : Tbl Word) (k : Nat) : Tbl Word :=
  if fl / 2 ^ k % 2 = 1 then
    let old := ev.getD k (BitVec.allOnes 64)
    ev.set k (BitVec.ofNat 64 (min old.toNat i))
  else ev

/-- FSTAT and the event indices after element `i` raised the classes `fl` (R27, R28). -/
def VecState.credit (x : VecState) (i fl : Nat) : VecState :=
  if fl = 0 then x
  else { x with fstat := x.fstat ||| BitVec.ofNat 7 fl, evix := (List.range 7).foldl (creditClass fl i) x.evix }

/-- TRAPEN of an FCTL value, in the order of FSTAT (R26). -/
def trapEn (fctl : Word) : Nat := bitsN fctl 4 7

/-- The lowest class of a set that has its trap enabled; the cause is 26 plus its number (R299). -/
def trapClass (fl en : Nat) : Option Nat := (List.range 7).find? (fun k => fl / 2 ^ k % 2 == 1 && en / 2 ^ k % 2 == 1)

end Sys2Proof.Machine
end

