-- ==== Sys2Proof/Machine/Float.lean ====
section
/-! DEFINITION. Floating-point formats, rounding and arithmetic on exact values (R17 to R24, R29, R43, R44, R166, R167,
R176). A finite value is m × 2^e; results are patterns with the classes they raise. -/

namespace Sys2Proof.Machine

/-- A format of R17: exponent bits, fraction bits, bias, width, and whether it has infinities. -/
structure FFmt where
  eb : Nat
  fb : Nat
  bias : Nat
  w : Nat
  hasInf : Bool
  deriving DecidableEq, Repr

/-- The format of a type code (R15, R17). -/
def ffmt (code : Nat) : Option FFmt :=
  match code with
  | 0x08 => some ⟨4, 3, 7, 8, false⟩
  | 0x09 => some ⟨5, 2, 15, 8, true⟩
  | 0x0A => some ⟨5, 10, 15, 16, true⟩
  | 0x0B => some ⟨8, 7, 127, 16, true⟩
  | 0x0C => some ⟨8, 23, 127, 32, true⟩
  | _ => none

/-- binary32, the format of fp32 accumulators. -/
def fp32 : FFmt := ⟨8, 23, 127, 32, true⟩

/-- What a pattern stands for. -/
inductive Fv where
  | nan (signalling : Bool)
  | inf (neg : Bool)
  /-- (−1)^neg × m × 2^e. -/
  | fin (neg : Bool) (m : Nat) (e : Int)
  deriving DecidableEq, Repr

/-- Quantum exponents of the smallest and of the largest finite values. -/
def FFmt.qmin (f : FFmt) : Int := 1 - (f.bias : Int) - f.fb
def FFmt.qmax (f : FFmt) : Int := ((2 ^ f.eb : Nat) : Int) - (if f.hasInf then 2 else 1) - f.bias - f.fb
/-- Significand of the largest finite value at that quantum. -/
def FFmt.maxm (f : FFmt) : Nat := 2 ^ (f.fb + 1) - (if f.hasInf then 1 else 2)
/-- Pattern of the largest finite value. -/
def FFmt.maxBits (f : FFmt) : Nat := if f.hasInf then (2 ^ f.eb - 1) * 2 ^ f.fb - 1 else 2 ^ (f.w - 1) - 2
/-- Pattern of +∞ where the format has one. -/
def FFmt.infBits (f : FFmt) : Nat := (2 ^ f.eb - 1) * 2 ^ f.fb
/-- Canonical NaN (R17). -/
def FFmt.nanBits (f : FFmt) : Nat := if f.hasInf then f.infBits + 2 ^ (f.fb - 1) else 2 ^ (f.w - 1) - 1
def FFmt.signBit (f : FFmt) (neg : Bool) : Nat := if neg then 2 ^ (f.w - 1) else 0

/-- The value of a pattern (R17). -/
def FFmt.value (f : FFmt) (bits : Nat) : Fv :=
  let neg := bits / 2 ^ (f.w - 1) % 2 == 1
  let ex := bits / 2 ^ f.fb % 2 ^ f.eb
  let fr := bits % 2 ^ f.fb
  if ex = 2 ^ f.eb - 1 ∧ f.hasInf then
    (if fr = 0 then .inf neg else .nan (fr / 2 ^ (f.fb - 1) == 0))
  else if ex = 2 ^ f.eb - 1 ∧ fr = 2 ^ f.fb - 1 then .nan false
  else if ex = 0 then .fin neg fr f.qmin
  else .fin neg (fr + 2 ^ f.fb) (f.qmin + (ex : Int) - 1)

/-! ## Rounding (R19 to R24) -/

/-- A rounding mode and, under RSR, the element's draw. -/
structure Rnd where
  mode : Nat
  draw : Nat := 0
  deriving DecidableEq, Repr

/-- Round to nearest even. -/
def rne : Rnd := ⟨0, 0⟩

/-- The generator of R23. -/
def srDraw (seed stream index : Nat) : Nat :=
  let m (a b : Nat) : Nat := a * b % 2 ^ 64
  let x := (seed % 2 ^ 64) ^^^ m stream 0x8F3A61C52D9B07E3 ^^^ m index 0x5B17E2A9C64DF035
  let x := x ^^^ (x >>> 31)
  let x := m x 0xA3C59D071E68B2F1
  let x := x ^^^ (x >>> 27)
  let x := m x 0x6E29F4B1D85307AD
  x ^^^ (x >>> 33)

/-- Round the magnitude n / 2^s to an integer; the flag says that bits were lost. A draw of R24 with fewer than 64
discarded bits compares as one with 64, the bits below them being 0. A shift past all of n by 66 places or more gives
what the shift by 66 gives. -/
def roundOff (r : Rnd) (neg : Bool) (n s0 : Nat) : Nat × Bool :=
  let s := min s0 (Nat.log2 n + 66)
  let lo := n >>> s
  let rem := n % 2 ^ s
  if rem = 0 then (lo, false)
  else
    let up := match r.mode with
      | 0 => decide (2 ^ s < 2 * rem) || (2 * rem == 2 ^ s && lo % 2 == 1)
      | 1 => false
      | 2 => neg
      | 3 => !neg
      | _ => decide (2 ^ 64 ≤ (rem <<< 64) >>> s + r.draw)
    (if up then lo + 1 else lo, true)

/-- Write a finite magnitude at quantum 2^q (R20, R21). -/
def FFmt.packFin (f : FFmt) (r : Rnd) (neg : Bool) (m : Nat) (e : Int) : Nat × Nat :=
  if m = 0 then (f.signBit neg, 0)
  else
    let top : Int := (Nat.log2 m : Int) + e
    let qu : Int := top - f.fb
    let q : Int := if qu < f.qmin then f.qmin else qu
    let (n, lost) := if q ≤ e then (m <<< (e - q).toNat, false) else roundOff r neg m (q - e).toNat
    if f.qmax < q ∨ (q = f.qmax ∧ f.maxm < n) then
      if f.hasInf then
        let toInf := r.mode == 0 || r.mode == 4 || (r.mode == 2 && neg) || (r.mode == 3 && !neg)
        (f.signBit neg + (if toInf then f.infBits else f.maxBits), flOF + flNX)
      else (f.signBit neg + f.maxBits, flOF + flSAT + flNX)
    else
      let tiny := qu < f.qmin &&
        (decide (top + 1 < f.qmin + f.fb) || (roundOff r neg m (qu - e).toNat).1 < 2 ^ (f.fb + 1) || decide (qu ≤ e))
      (f.signBit neg + ((q - f.qmin).toNat * 2 ^ f.fb + n), if lost then flNX + (if tiny then flUF else 0) else 0)

/-- Write a value in a format: NaN is canonical (R18), ∞ saturates where there is none (R21). -/
def FFmt.pack (f : FFmt) (r : Rnd) (v : Fv) : Nat × Nat :=
  match v with
  | .nan s => (f.nanBits, if s then flNV else 0)
  | .inf neg => if f.hasInf then (f.signBit neg + f.infBits, 0) else (f.signBit neg + f.maxBits, flOF + flSAT)
  | .fin neg m e => f.packFin r neg m e

/-- Round a finite value to an integer (R22). -/
def roundInt (r : Rnd) (neg : Bool) (m : Nat) (e : Int) : Int × Bool :=
  let (n, lost) := if 0 ≤ e then (m <<< e.toNat, false) else roundOff r neg m (-e).toNat
  (if neg then -(n : Int) else n, lost)

/-- Least and greatest value of an integer type (R16). -/
def intRange (code w : Nat) : Int × Int :=
  if isSignedInt code then (-((2 ^ (w - 1) : Nat) : Int), ((2 ^ (w - 1) : Nat) : Int) - 1) else (0, ((2 ^ w : Nat) : Int) - 1)

/-- Write a value in an integer type; `out` are the classes of a clamp (R22, R31, R38, R176). -/
def packInt (code w : Nat) (r : Rnd) (out : Nat) (v : Fv) : Nat × Nat :=
  let (lo, hi) := intRange code w
  match v with
  | .nan _ => (0, flNV)
  | .inf neg => (wrapInt w (if neg then lo else hi), out)
  | .fin neg m e =>
    let (n, lost) := roundInt r neg m e
    if n < lo then (wrapInt w lo, out) else if hi < n then (wrapInt w hi, out)
    else (wrapInt w n, if lost then flNX else 0)

/-- The value of an element of a PLAIN type. -/
def plainValue (code bits : Nat) : Fv :=
  match ffmt code with
  | some f => f.value bits
  | none =>
    let w := (ewOf code).getD 8
    if isSignedInt code then
      let v := toSigned w bits
      .fin (decide (v < 0)) v.natAbs 0
    else .fin false (bits % 2 ^ w) 0

/-- Write a value as an element of a PLAIN type. -/
def packPlain (code : Nat) (r : Rnd) (out : Nat) (v : Fv) : Nat × Nat :=
  match ffmt code with
  | some f => f.pack r v
  | none => packInt code ((ewOf code).getD 8) r out v

/-- `vcvt` of one element (R176). -/
def convertElem (src dst : Nat) (r : Rnd) (bits : Nat) : Nat × Nat :=
  if src = dst then (bits, 0)
  else packPlain dst r (if isInt src then flSAT else flNV + flSAT) (plainValue src bits)

/-! ## Arithmetic (R166) -/

def Fv.isNan (v : Fv) : Bool := match v with | .nan _ => true | _ => false
def Fv.isSnan (v : Fv) : Bool := match v with | .nan s => s | _ => false
/-- The classes of the signalling operands among a list (R18). -/
def snanFlag (l : List Fv) : Nat := if l.any Fv.isSnan then flNV else 0
def Fv.negate (v : Fv) : Fv :=
  match v with
  | .nan s => .nan s
  | .inf n => .inf !n
  | .fin n m e => .fin (!n) m e
/-- A finite value as a multiple of 2^q. -/
def scaled (neg : Bool) (m : Nat) (e q : Int) : Int :=
  let n : Int := ((m <<< (e - q).toNat : Nat) : Int)
  if neg then -n else n

/-- The sum of two values that are not NaN, rounded once (R20, R27). -/
def FFmt.addV (f : FFmt) (r : Rnd) (x y : Fv) : Nat × Nat :=
  match x, y with
  | .nan _, _ => (f.nanBits, 0)
  | _, .nan _ => (f.nanBits, 0)
  | .inf a, .inf b => if a = b then f.pack r (.inf a) else (f.nanBits, flNV)
  | .inf a, .fin _ _ _ => f.pack r (.inf a)
  | .fin _ _ _, .inf b => f.pack r (.inf b)
  | .fin a m d, .fin b n e =>
    let q := min d e
    let t := scaled a m d q + scaled b n e q
    if t = 0 then f.packFin r (if a = b then a else r.mode == 2) 0 0
    else f.packFin r (decide (t < 0)) t.natAbs q

/-- The exact product, or none for 0 × ∞. -/
def mulV (x y : Fv) : Option Fv :=
  match x, y with
  | .nan _, _ => none
  | _, .nan _ => none
  | .inf a, .inf b => some (.inf (a != b))
  | .inf a, .fin b n _ => if n = 0 then none else some (.inf (a != b))
  | .fin a m _, .inf b => if m = 0 then none else some (.inf (a != b))
  | .fin a m d, .fin b n e => some (.fin (a != b) (m * n) (d + e))

/-- a + b. -/
def FFmt.add (f : FFmt) (r : Rnd) (a b : Nat) : Nat × Nat :=
  let x := f.value a
  let y := f.value b
  if x.isNan || y.isNan then (f.nanBits, snanFlag [x, y]) else f.addV r x y

/-- a − b. -/
def FFmt.sub (f : FFmt) (r : Rnd) (a b : Nat) : Nat × Nat :=
  let x := f.value a
  let y := f.value b
  if x.isNan || y.isNan then (f.nanBits, snanFlag [x, y]) else f.addV r x y.negate

/-- a × b. -/
def FFmt.mul (f : FFmt) (r : Rnd) (a b : Nat) : Nat × Nat :=
  let x := f.value a
  let y := f.value b
  if x.isNan || y.isNan then (f.nanBits, snanFlag [x, y])
  else match mulV x y with
    | none => (f.nanBits, flNV)
    | some p => f.pack r p

/-- a × b + c, or a × b − c, rounded once. -/
def FFmt.fma (f : FFmt) (r : Rnd) (minus : Bool) (a b c : Nat) : Nat × Nat :=
  let x := f.value a
  let y := f.value b
  let z := f.value c
  let bad := !(x.isNan || y.isNan) && (mulV x y).isNone
  if x.isNan || y.isNan || z.isNan then (f.nanBits, if bad then flNV else snanFlag [x, y, z])
  else match mulV x y with
    | none => (f.nanBits, flNV)
    | some p => f.addV r p (if minus then z.negate else z)

/-- a / b (R27). -/
def FFmt.div (f : FFmt) (r : Rnd) (a b : Nat) : Nat × Nat :=
  let x := f.value a
  let y := f.value b
  match x, y with
  | .fin s m d, .fin t n e =>
    if n = 0 then (if m = 0 then (f.nanBits, flNV) else (f.signBit (s != t) + f.infBits, flDZ))
    else if m = 0 then f.packFin r (s != t) 0 0
    else
      let num := m <<< 160
      f.packFin r (s != t) (2 * (num / n) + (if num % n = 0 then 0 else 1)) (d - e - 161)
  | .inf s, .inf t => let _ := (s, t); (f.nanBits, flNV)
  | .inf s, .fin t _ _ => f.pack r (.inf (s != t))
  | .fin s _ _, .inf t => f.packFin r (s != t) 0 0
  | _, _ => (f.nanBits, snanFlag [x, y])

/-- Integer square root below 2^k, from bit k - 1 down, starting at `acc`. -/
def isqrt (k n acc : Nat) : Nat :=
  match k with
  | 0 => acc
  | j + 1 => if (acc + 2 ^ j) * (acc + 2 ^ j) ≤ n then isqrt j n (acc + 2 ^ j) else isqrt j n acc

/-- √a. -/
def FFmt.sqrt (f : FFmt) (r : Rnd) (a : Nat) : Nat × Nat :=
  match f.value a with
  | .nan s => (f.nanBits, if s then flNV else 0)
  | .inf s => if s then (f.nanBits, flNV) else f.pack r (.inf false)
  | .fin s m e =>
    if m = 0 then f.packFin r s 0 0
    else if s then (f.nanBits, flNV)
    else
      let k := if e % 2 = 0 then 200 else 201
      let n := m <<< k
      let q := isqrt 120 n 0
      f.packFin r false (2 * q + (if q * q = n then 0 else 1)) ((e - k) / 2 - 1)

/-- x < y for values that are not NaN. -/
def ltV (x y : Fv) : Bool :=
  match x, y with
  | .nan _, _ => false
  | _, .nan _ => false
  | .inf a, .inf b => a && !b
  | .inf a, .fin _ _ _ => a
  | .fin _ _ _, .inf b => !b
  | .fin a m d, .fin b n e => decide (scaled a m d (min d e) < scaled b n e (min d e))

/-- Sign of a value. -/
def Fv.neg? (v : Fv) : Bool := match v with | .nan _ => false | .inf n => n | .fin n _ _ => n

/-- a is below b, with −0 below +0. -/
def ltTotal (x y : Fv) : Bool := ltV x y || (!ltV y x && x.neg? && !y.neg?)

/-- minimumNumber and maximumNumber (R166). -/
def FFmt.minMax (f : FFmt) (wantMax : Bool) (a b : Nat) : Nat × Nat :=
  let x := f.value a
  let y := f.value b
  let fl := snanFlag [x, y]
  if x.isNan && y.isNan then (f.nanBits, fl)
  else if x.isNan then (b, fl)
  else if y.isNan then (a, fl)
  else if ltTotal y x then (if wantMax then a else b, fl)
  else if ltTotal x y then (if wantMax then b else a, fl)
  else (a, fl)

/-- Compares of R167: 0 eq, 1 lt, 2 le, 3 un. -/
def FFmt.cmp (f : FFmt) (rel a b : Nat) : Bool × Nat :=
  let x := f.value a
  let y := f.value b
  if x.isNan || y.isNan then
    match rel with
    | 0 => (false, snanFlag [x, y])
    | 3 => (true, snanFlag [x, y])
    | _ => (false, flNV)
  else
    match rel with
    | 0 => (!ltV x y && !ltV y x, 0)
    | 1 => (ltV x y, 0)
    | 2 => (!ltV y x, 0)
    | _ => (false, 0)

/-- The class mask of R166. -/
def FFmt.classOf (f : FFmt) (a : Nat) : Nat :=
  match f.value a with
  | .nan s => if s then 2 ^ 8 else 2 ^ 9
  | .inf n => if n then 1 else 2 ^ 7
  | .fin n m _ =>
    if m = 0 then (if n then 2 ^ 3 else 2 ^ 4)
    else
      let sub := m < 2 ^ f.fb
      if n then (if sub then 2 ^ 2 else 2 ^ 1) else (if sub then 2 ^ 5 else 2 ^ 6)

/-! ## Integer element arithmetic (R16, R29, R164) -/

/-- Quotient or remainder of R29 with the class it raises. -/
def divElem (signed rem : Bool) (w a b : Nat) : Nat × Nat :=
  if b % 2 ^ w = 0 then (if rem then a else 2 ^ w - 1, flDZ)
  else if signed then
    let x := toSigned w a
    let y := toSigned w b
    if x = -((2 ^ (w - 1) : Nat) : Int) ∧ y = -1 then (if rem then 0 else a, flOF)
    else (wrapInt w (if rem then Int.tmod x y else Int.tdiv x y), 0)
  else (if rem then a % b else a / b, 0)

/-- Clamp an exact result to an integer range of width `w`; SAT when it clamps (R16). -/
def clampElem (signed : Bool) (w : Nat) (v : Int) : Nat × Nat :=
  let lo : Int := if signed then -((2 ^ (w - 1) : Nat) : Int) else 0
  let hi : Int := if signed then ((2 ^ (w - 1) : Nat) : Int) - 1 else ((2 ^ w : Nat) : Int) - 1
  if v < lo then (wrapInt w lo, flSAT) else if hi < v then (wrapInt w hi, flSAT) else (wrapInt w v, 0)

end Sys2Proof.Machine
end

