-- ==== Sys2Proof/Machine/Issue.lean ====
section
/-! DEFINITION. The checks of a member at issue, in the order of R159: type, group alignment (R63), overlap, rounding
mode (R19). DETAIL subcodes are those of R299. -/

namespace Sys2Proof.Machine

/-- What a member asks of the modes and of its register groups: groups are a base and a number of registers. -/
structure Req where
  ty : Bool := true
  groups : List (Nat × Nat) := []
  apart : List ((Nat × Nat) × (Nat × Nat)) := []
  /-- The values the entry names are in their range (R39, R299 subcode 5). -/
  range : Bool := true
  /-- The subcode of a value out of range: 5, or 6 for a partial braid line. -/
  sub : Nat := 5
  mode : Option Nat := none

/-- R63: the base is a multiple of the size, and the group ends by v63. -/
def aligned (g : Nat × Nat) : Bool := 0 < g.2 && g.1 % g.2 == 0 && decide (g.1 + g.2 ≤ 64)

/-- Two groups share a register. -/
def overlaps (p : (Nat × Nat) × (Nat × Nat)) : Bool :=
  decide (p.1.1 < p.2.1 + p.2.2) && decide (p.2.1 < p.1.1 + p.1.2)

/-- The DETAIL of the first check that fails (R159, R299). -/
def Req.fails (r : Req) : Option Nat :=
  if !r.ty then some 1
  else if !r.groups.all aligned then some 2
  else if r.apart.any overlaps then some 3
  else if !r.range then some r.sub
  else match r.mode with
    | some k => if k > 4 then some 4 else none
    | none => none

/-- The registers of the last vector source, where it is one. -/
def vbGroup (kb : BitVec 1) (vb : BitVec 6) (n : Nat) : List (Nat × Nat) := if kb = 1 then [] else [(vb.toNat, n)]

/-- The default rounding mode (R26). -/
def Sampled.rm (m : Sampled) : Nat := bitsN m.fctl 0 3

/-- Three groups of the VTYPE size. -/
def req3 (m : Sampled) (x : V3) (ty rounds : Bool) : Req :=
  let n := vtGroup m.vtype
  { ty := ty, groups := [(x.vd.toNat, n), (x.va.toNat, n)] ++ vbGroup x.kb x.vb n, mode := if rounds then some m.rm else none }

/-- Two groups of the VTYPE size. -/
def req2 (m : Sampled) (x : V3U) (ty rounds : Bool) : Req :=
  let n := vtGroup m.vtype
  { ty := ty, groups := [(x.vd.toNat, n), (x.va.toNat, n)], mode := if rounds then some m.rm else none }

/-- A compare. -/
def reqCmp (m : Sampled) (x : V3Cmp) (ty : Bool) : Req :=
  let n := vtGroup m.vtype
  { ty := ty, groups := [(x.va.toNat, n)] ++ vbGroup x.kb x.vb n }

/-- A widening form (R165). -/
def reqWide (m : Sampled) (x : V3) : Req :=
  let n := vtGroup m.vtype
  let d := (x.vd.toNat, 2 * n)
  let c := vtCode m.vtype
  { ty := isInt c && vtEw m.vtype ≠ 64
    groups := (if n = 8 then [(64, 16)] else []) ++ [d, (x.va.toNat, n)] ++ vbGroup x.kb x.vb n
    apart := ([(x.va.toNat, n)] ++ vbGroup x.kb x.vb n).map (fun s => (s, d)) }

/-- Registers of a nibble group (R177). -/
def nibGroup (m : Sampled) : Nat := max 1 (vtGroup m.vtype * 4 / vtEw m.vtype)

/-- `vcvt` (R176). -/
def reqCvt (m : Sampled) (x : VCvtOp) : Req :=
  let n := vtGroup m.vtype
  let c := vtCode m.vtype
  let t := x.etype.toNat
  let w := (ewOf t).getD 8
  let n' := max 1 (n * w / vtEw m.vtype)
  { ty := isPlain c && isPlain t
    groups := (if n' > 8 then [(64, 16)] else []) ++ [(x.vd.toNat, n'), (x.va.toNat, n)]
    apart := if w = vtEw m.vtype then [] else [((x.va.toNat, n), (x.vd.toNat, n'))]
    mode := if c = t ∨ (isInt c ∧ isInt t) then none else some m.rm }

/-- `vqblk` (R177). -/
def reqQblk (m : Sampled) (x : V3NoMask) : Req :=
  let n := vtGroup m.vtype
  let c := vtCode m.vtype
  let d := (x.vd.toNat, nibGroup m)
  let a := (x.va.toNat, n)
  let b := (x.vb.toNat, 1)
  { ty := isFlt c || isFp8 c, groups := [d, a], apart := [(d, a), (d, b), (a, b)], mode := some (bitsN m.qcfg 3 3) }

/-- `vdqblk` (R178). -/
def reqDqblk (m : Sampled) (x : V3NoKb) : Req :=
  let d := (x.vd.toNat, vtGroup m.vtype)
  let a := (x.va.toNat, nibGroup m)
  { ty := isPlain (vtCode m.vtype), groups := [d, a], apart := [(d, a), (d, (x.vb.toNat, 1))], mode := some m.rm }

/-- A slide or a permute (R171). -/
def reqMove (m : Sampled) (vd va : BitVec 6) (more : List (Nat × Nat)) : Req :=
  let n := vtGroup m.vtype
  let srcs := (va.toNat, n) :: more
  { groups := (vd.toNat, n) :: srcs, apart := srcs.map (fun s => (s, (vd.toNat, n))) }

/-- What a plain vector member asks (R164 to R178). -/
def plainReq (i : Instr) (m : Sampled) : Option Req :=
  let n := vtGroup m.vtype
  let int := isInt (vtCode m.vtype)
  let flt := isFlt (vtCode m.vtype)
  match i with
  | .vadd x | .vsub x | .vmul x | .vmulh x | .vmulhn x | .vdiv x | .vdivn x | .vrem x | .vremn x | .vmin x | .vmax x
  | .vminn x | .vmaxn x | .vabsd x | .vand x | .vor x | .vxor x | .vsll x | .vsrl x | .vsra x | .vrot x | .vsadd x
  | .vssub x | .vsaddn x | .vssubn x => some (req3 m x int false)
  | .vabs x | .vneg x | .vnot x => some (req2 m x int false)
  | .vwmac x | .vwmacn x | .vwmul x | .vwadd x => some (reqWide m x)
  | .vfadd x | .vfsub x | .vfmul x | .vfdiv x | .vfma x | .vfms x => some (req3 m x flt true)
  | .vfmin x | .vfmax x => some (req3 m x flt false)
  | .vfsqrt x => some (req2 m x flt true)
  | .vfabs x | .vfneg x | .vfclass x => some (req2 m x flt false)
  | .vcmpeq x | .vcmpne x | .vcmplt x | .vcmple x | .vcmpltn x | .vcmplen x => some (reqCmp m x int)
  | .vfcmpeq x | .vfcmplt x | .vfcmple x | .vfcmpun x => some (reqCmp m x flt)
  | .vsel x => some (req3 m x true false)
  | .vbcast x => some { groups := [(x.vd.toNat, n)] ++ vbGroup x.kb x.vb n }
  | .vmvs x => some { groups := [(x.va.toNat, n)] }
  | .vmsv x => some { groups := [(x.vd.toNat, n)] }
  | .vslideup x | .vslidedn x => some (reqMove m x.vd x.va [])
  | .vperm x => some (reqMove m x.vd x.va [(x.vb.toNat, n)])
  | .vid x => some { ty := int, groups := [(x.vd.toNat, n)] }
  | .vcompress x | .vexpand x => some (reqMove m x.vd x.va [])
  | .vredsum x | .vredmin x | .vredmax x | .vredand x | .vredor x | .vredxor x | .vscan x | .vscanmax x =>
    some (req3 m x int false)
  | .vfredsum x | .vfredmax x | .vfscan x => some (req3 m x flt false)
  | .vcvt x => some (reqCvt m x)
  | .vqblk x => some (reqQblk m x)
  | .vdqblk x => some (reqDqblk m x)
  | _ => none

/-- A rill member (R179, R199): the kinds accepted, its groups, and the mode where it rounds. -/
def rillReq (m : Sampled) (kinds : List Nat) (ty : Bool) (groups : List (BitVec 6)) (rounds : Bool) : Req :=
  let c := vtCode m.vtype
  { ty := kinds.contains c && ty, groups := groups.map (fun r => (r.toNat, vtGroup m.vtype))
    range := !(c == 0x12 && bitsN m.rfdesc 8 3 == 7), mode := if rounds then some m.rm else none }

/-- What a rill member asks (R180, R192 to R199). -/
def rillReqOf (i : Instr) (m : Sampled) : Option Req :=
  let all := [0x10, 0x11, 0x12]
  let f8 (t : Nat) : Bool := isFlt t || isFp8 t
  match i with
  | .vldg x | .vstg x => some (rillReq m all true [x.vd] false)
  | .rdec x => some (rillReq m [0x10, 0x11] (isPlain x.etype.toNat) [x.vd, x.va] (!isInt x.etype.toNat))
  | .renc x => some (rillReq m [0x10, 0x11] (isInt x.etype.toNat) [x.vd, x.va] false)
  | .radd x | .rsub x | .rmin x | .rmax x => some (rillReq m all true [x.vd, x.va, x.vb] false)
  | .fdec x => some (rillReq m [0x12] (f8 x.etype.toNat) [x.vd, x.va] true)
  | .fenc x => some (rillReq m [0x12] (f8 x.etype.toNat) [x.vd, x.va] false)
  | .rdsum x => some (rillReq m [0x10, 0x11] true [x.va] false)
  | .rlen x | .rpos x => some (rillReq m all true [x.vd, x.va] false)
  | .rfilt x => some (rillReq m all true [x.vd, x.va] false)
  | _ => none

/-! ## Memory, copy and matrix members -/

/-- What a check at issue knows beside the modes: captured operands, whether the context may decrypt (R250), whether the
launch declares matrix use (R111), and the vector length. -/
structure Given where
  op0 : Word
  op1 : Word
  opens : Bool
  matrix : Bool
  vlb : Nat

/-- Launch and context of a strand, with a member's operands. -/
def State.givenAt (s : State) (src : Nat) (op : Word × Word) : Given :=
  let b := (s.strand src).bind
  { op0 := op.1, op1 := op.2, opens := b.secure && (s.context b.ctx).flags.getLsbD 2, matrix := b.matrix, vlb := s.vlb src }

/-- Of a word about to enter its sluice. -/
def State.givenOf (s : State) (src : Nat) (w : BitVec 32) : BitVec 32 × Given := (w, s.givenAt src (captured (s.strand src) w))

/-- Of the member in execution. -/
def State.given (s : State) : Given := s.givenAt s.cur.src (s.cur.op0, s.cur.op1)

/-- A vector load or store (R227): the data group and, with it, an index group that shares no register (R230, R233). -/
def memReq (m : Sampled) (vd : BitVec 6) (vx : Option (BitVec 6)) (range : Bool) : Req :=
  let n := vtGroup m.vtype
  let d := (vd.toNat, n)
  let ix := match vx with | some r => [(r.toNat, n)] | none => []
  { ty := isPlain (vtCode m.vtype), groups := d :: ix, apart := ix.map (fun r => (r, d)), range := range }

/-- A vector atomic (R236, R237): `regs` groups of operands. -/
def atomicReq (m : Sampled) (x : VAmoOp) (groups : Nat) (float : Bool) : Req :=
  let n := vtGroup m.vtype
  { ty := [2, 3, 6, 7].contains (vtCode m.vtype) || (float && vtCode m.vtype == 0x0C)
    groups := [(x.vd.toNat, groups * n), (x.vx.toNat, n)] }

/-- A braid instruction has elements of whole bytes (R227, R256) and covers whole lines, at least one (R240). -/
def braidReq (m : Sampled) (vd : Option (BitVec 6)) : Req :=
  let bits := m.vl * vtEw m.vtype
  { ty := isPlain (vtCode m.vtype)
    groups := match vd with | some r => [(r.toNat, vtGroup m.vtype)] | none => []
    range := bits ≠ 0 && bits % 512 == 0, sub := 6 }

/-- K_slice and the stored formats of a pairing of R285: 0 plain, 1 nibble, 2 rill-sparse. -/
def mxPairing (a b c : Nat) : Option (Nat × List Nat) :=
  if isFp8 a ∧ isFp8 b ∧ c = 0x0C then some (64, [0, 2])
  else if a = b ∧ (a = 0x0A ∨ a = 0x0B) ∧ c = 0x0C then some (32, [0, 2])
  else if (a = 0 ∨ a = 4) ∧ (b = 0 ∨ b = 4) ∧ c = 2 then some (64, [0, 2])
  else if a = 0x0D ∧ b = 0x0D ∧ c = 0x0C then some (128, [1])
  else none

/-- Sizes of the A group, with its scale register, and of the accumulator group (R284, R288). -/
def mxAGroup (cfg : Word) : Nat := 2 ^ bitsN cfg 20 2
def mxARegs (cfg : Word) : Nat := mxAGroup cfg + (if bitsN cfg 0 6 = 0x0D then 1 else 0)
def mxCGroup (cfg : Word) : Nat := if bitN cfg 18 then 8 else 4

/-- A matrix instruction (R295); `dst` is the size of what it writes. -/
def matrixReq (m : Sampled) (x : V3NoMask) (dst vlb : Nat) : Req :=
  let cfg := m.mxcfg
  let ga := mxAGroup cfg
  let a := (x.va.toNat, mxARegs cfg)
  let d := (x.vd.toNat, dst)
  { ty := (mxPairing (bitsN cfg 0 6) (bitsN cfg 6 6) (bitsN cfg 12 6)).isSome
    groups := [d, (x.va.toNat, ga)] ++ (if a.2 = ga then [] else [(x.va.toNat + ga, 1)])
    apart := [(a, d)]
    range := decide (8192 ≤ ga * vlb) && decide (x.vb.toNat ≤ 15) }

/-- What a memory, copy or matrix member asks. -/
def memReqOf (i : Instr) (m : Sampled) (g : Given) : Option Req :=
  match i with
  | .vld x => some (memReq m x.vd none true)
  | .vlds x => some (memReq m x.vd none true)
  | .vldx x => some (memReq m x.vd (some x.vx) true)
  | .vlda x => some (memReq m x.vd none true)
  | .vst x => some (memReq m x.vd none true)
  | .vsts x => some (memReq m x.vd none true)
  | .vstx x => some (memReq m x.vd (some x.vx) true)
  | .vstm x => some (memReq m x.vd none true)
  | .vstrc x => some (memReq m x.vd none (g.op1 ≠ 0 && decide (g.op1.toNat ≤ 255)))
  | .vamoadd x => some (atomicReq m x 1 true)
  | .vamoswap x | .vamomin x | .vamomax x => some (atomicReq m x 1 false)
  | .vamocas x => some (atomicReq m x 2 false)
  | .mjld x | .mjst x => some (braidReq m (some x.vd))
  | .mjrep _ => some (braidReq m none)
  | .cflush _ | .cinv _ => some { range := decide (g.op1.toNat ≤ 2 ^ 20) }
  | .l1cfg _ => some { range := decide (g.op0.toNat ≤ 12) }
  | .cpy x => some { range := g.op1 ≠ 0 && decide (g.op1.toNat ≤ 2 ^ 20) && (x.q == 0 || (g.opens && decide (x.sx.toNat ≤ 30))) }
  | .cpyv x => some (memReq m x.vd none true)
  | .cpyw x => some { range := decide (64 ≤ g.op1.toNat) && decide (g.op1.toNat ≤ 32768) && g.op1.toNat % 64 == 0
                        && g.op0.toNat % 64 == 0 && decide (x.slot.toNat ≤ 15) }
  | .mma x | .mmaz x => some (matrixReq m x (mxCGroup m.mxcfg) g.vlb)
  | .mxsum x => some (matrixReq m x 1 g.vlb)
  | _ => none

/-- The member may be issued only by a launch that declares matrix use (R111). -/
def needsMatrix (i : Instr) : Bool :=
  match i with
  | .mma _ | .mmaz _ | .mxsum _ | .cpyw _ => true
  | _ => false

/-- The cause and DETAIL of the check at issue that a member fails. -/
def issueCheck (i : Instr) (m : Sampled) (g : Given) : Option (Nat × Nat) :=
  if needsMatrix i && !g.matrix then some (21, 0)
  else match ((plainReq i m).or (rillReqOf i m)).or (memReqOf i m g) with
    | some r => r.fails.map (fun d => (5, d))
    | none => none

/-- A check at issue that fails: slot, cause and DETAIL. -/
structure IssueStop where
  slot : Nat
  cause : Nat
  detail : Nat
  deriving DecidableEq, Repr

/-- The first check at issue that fails, in slot order (R56). -/
def issueStop (m : Sampled) (ws : List (BitVec 32 × Given)) (slot : Nat) : Option IssueStop :=
  match ws with
  | [] => none
  | (w, g) :: r =>
    match decode w with
    | .error _ => none
    | .ok i => match issueCheck i m g with
      | some (c, d) => some ⟨slot, c, d⟩
      | none => issueStop m r (slot + 1)

end Sys2Proof.Machine
end

