-- ==== Sys2Proof/Machine/Operands.lean ====
section
/-! DEFINITION. The operands of a member of the vector side: register groups (R62, R63), active elements (R158),
empty sources (R66), the write of a destination (R65, R66, R158), and how a member ends (R161, R300, R301). -/

namespace Sys2Proof.Machine

/-! ## What a member works with -/

/-- The modes a member sampled, as numbers, and the registers it finds. -/
structure View where
  vlb : Nat
  code : Nat
  ew : Nat
  g : Nat
  vl : Nat
  /-- Policy 01 (R158). -/
  zero : Bool
  /-- The first element to perform (R301). -/
  first : Nat
  resumed : Bool
  /-- Every empty action acts as block (R301). -/
  force : Bool
  trapen : Nat
  x : VecState

/-- The view of the member in execution. -/
def State.view (s : State) : View :=
  let m := s.cur.samp
  let vlb := s.vlb s.cur.src
  let ew := vtEw m.vtype
  let g := vtGroup m.vtype
  { vlb := vlb, code := vtCode m.vtype, ew := ew, g := g, vl := m.vl, zero := vtZero m.vtype,
    first := min (max s.cur.first s.cur.from_) (16 * vlb), resumed := s.cur.resumed && s.cur.from_ == 0, force := s.cur.forceBlock
    trapen := trapEn m.fctl,
    x := s.me.vec }

/-- Elements of a destination group (R158). -/
def View.vlmax (v : View) : Nat := v.vlb * v.g / v.ew

/-- The bits of `n` registers from `base` on, as one number (R63). -/
def VecState.grp (x : VecState) (vlb base n : Nat) : Nat :=
  match n with
  | 0 => 0
  | k + 1 => ((x.reg base).toNat % 2 ^ vlb) ||| (VecState.grp x vlb (base + 1) k) <<< vlb

/-- A group of the VTYPE size. -/
def View.src (v : View) (base : BitVec 6) : Nat := v.x.grp v.vlb base.toNat v.g

/-- Mask bit `i` of m0 to m7 (R67). -/
def View.bit (v : View) (m i : Nat) : Bool := (v.x.mask m).getLsbD i

/-- The elements a masked member performs, in order (R158, R301). -/
def View.active (v : View) (mk : BitVec 2) : List Nat :=
  (List.range v.vl).filter (fun i => decide (v.first ≤ i) && v.bit mk.toNat i)

/-- The elements below VL from ESTART on. -/
def View.lanes (v : View) : List Nat := (List.range v.vl).filter (fun i => decide (v.first ≤ i))

/-! ## Empty element groups (R66) -/

/-- A source as it is read for element `i`: where its element lies, and its empty action. -/
structure Src where
  base : Nat
  ew : Nat
  act : Bool
  /-- The element of the source that element `i` reads. -/
  ix : Nat → Nat := id

/-- The element group of element `i` of a group at `base` is full. -/
def View.landed (v : View) (base w i : Nat) : Bool :=
  (v.x.fullOf (base + i * w / v.vlb)).getLsbD (i * w % v.vlb / 512)

/-- The register of element `i`, for the record of cause 6. -/
def View.regOf (v : View) (base w i : Nat) : Nat := base + i * w / v.vlb

/-- How the elements of a member end. -/
inductive LaneEnd where
  | all
  /-- A source or an old destination is empty and blocks. -/
  | wait
  /-- Element `e` reads an empty group of register `r` with empty action 1. -/
  | empty (e r : Nat)
  /-- Element `e` raised the trap-enabled class `k`; `fl` are its classes. -/
  | trap (e k fl : Nat)
  deriving DecidableEq, Repr

/-- What element `i` meets among its sources: none, a wait, or a stop with the register. -/
def View.meets (v : View) (srcs : List Src) (i : Nat) : Option LaneEnd :=
  match srcs.filter (fun q => !v.landed q.base q.ew (q.ix i)) with
  | [] => none
  | q :: r =>
    match (q :: r).find? (fun q => q.act && !v.force && !(v.resumed && i == v.first)) with
    | some q => some (.empty i (v.regOf q.base q.ew (q.ix i)))
    | none => some .wait

/-- Perform elements in order (R27, R66, R161): the results, with the classes raised, and how it ends. -/
def View.run (v : View) (srcs : List Src) (f : Nat → Nat × Nat) (l : List Nat) : List (Nat × Nat × Nat) × LaneEnd :=
  match l with
  | [] => ([], .all)
  | i :: r =>
    match v.meets srcs i with
    | some e => ([], e)
    | none =>
      let (y, fl) := f i
      match (if (v.resumed || v.force) && i == v.first then none else trapClass fl v.trapen) with
      | some k => ([], .trap i k fl)
      | none =>
        let (l, e) := View.run v srcs f r
        ((i, y, fl) :: l, e)

/-! ## Writing a destination -/

/-- A destination group: first register, number of registers, element width. -/
structure VDst where
  base : Nat
  regs : Nat
  ew : Nat

def View.dst (v : View) (vd : BitVec 6) : VDst := ⟨vd.toNat, v.g, v.ew⟩

/-- Elements of a destination. -/
def View.size (v : View) (d : VDst) : Nat := v.vlb * d.regs / d.ew

/-- A later write supersedes producers outstanding on the registers (R66). -/
def Strand.supersede (t : Strand) (base regs : Nat) : Strand :=
  let hit (n : Nat) : Bool := decide (base ≤ n) && decide (n < base + regs)
  { t with lands := t.lands.map (fun l => if hit l.reg then { l with live := false } else l)
           mxq := t.mxq.map (fun o => { o with
             live := o.live.filter (fun n => !hit n)
             whole := o.whole && !overlaps ((base, regs), (o.va, mxARegs o.cfg)) })
           cpq := t.cpq.map (fun o => { o with live := o.live.filter (fun n => !hit n) }) }

/-- Fill tags of a group after a write of `w` granules (R65). -/
def setFill (fill : Tbl Nat) (vlb base regs w : Nat) : Tbl Nat :=
  (List.range regs).foldl (fun t j => t.set (base + j) (min (w - j * (vlb / 4)) (vlb / 4))) fill

/-- Write the registers of a group. -/
def setRegs (v : Tbl VReg) (vlb base regs val : Nat) : Tbl VReg :=
  (List.range regs).foldl (fun t j => t.set (base + j) (BitVec.ofNat 8192 ((val >>> (j * vlb)) % 2 ^ vlb))) v

/-- Mark every element group of a register group full (R66). -/
def setFull (full : Tbl (BitVec 16)) (base regs : Nat) : Tbl (BitVec 16) :=
  (List.range regs).foldl (fun t j => if t.getD (base + j) 0xFFFF = 0xFFFF then t else t.set (base + j) 0xFFFF) full

/-- Mark the first `n` element groups of a register group full (R66). -/
def setFullTo (full : Tbl (BitVec 16)) (vlb base regs n : Nat) : Tbl (BitVec 16) :=
  (List.range regs).foldl (fun t j =>
    let k := min (vlb / 512) (n - j * (vlb / 512))
    let f := t.getD (base + j) 0xFFFF
    if f = 0xFFFF then t else t.set (base + j) (f ||| BitVec.ofNat 16 (2 ^ (if k = vlb / 512 then 16 else k) - 1))) full

/-- A write of a register group: contents, fill and full/empty bits (R65, R66). -/
def VecState.writeGroup (x : VecState) (vlb base regs val fill : Nat) : VecState :=
  { x with v := setRegs x.v vlb base regs val, fill := setFill x.fill vlb base regs fill, full := setFull x.full base regs }

/-- A write of the first `n` element groups of a register group, the others as `val` has them. -/
def VecState.writePart (x : VecState) (vlb base regs val fill n : Nat) : VecState :=
  { x with v := setRegs x.v vlb base regs val, fill := setFill x.fill vlb base regs fill, full := setFullTo x.full vlb base regs n }

/-- Change the executing strand's vector registers by a write of a group. -/
def State.writeGroup (s : State) (vlb base regs val fill : Nat) : State :=
  s.upd (fun t => { t.supersede base regs with vec := t.vec.writeGroup vlb base regs val fill })

/-- Change them by the write of a member that stops: elements below `stop` are written (R65, R300). -/
def State.writePart (s : State) (vlb : Nat) (d : VDst) (val stop : Nat) : State :=
  s.upd (fun t => { t.supersede d.base d.regs with
    vec := t.vec.writePart vlb d.base d.regs val (stop * d.ew / 4) ((stop * d.ew + 511) / 512) })

/-- The elements `first` to `stop - 1` of a group after a write: performed ones take their results, the others keep
their value or become 0 (R158). -/
def putLanes (old w first stop : Nat) (zero : Bool) (res : List (Nat × Nat × Nat)) : Nat :=
  let base := if zero then old % 2 ^ (min first stop * w) + (old >>> (stop * w)) <<< (stop * w) else old
  res.foldl (fun g r => setElem g w r.1 r.2.1) base

/-- Credit the classes of performed elements (R27, R28). -/
def VecState.creditAll (x : VecState) (res : List (Nat × Nat × Nat)) : VecState :=
  res.foldl (fun x r => x.credit r.1 r.2.2) x

/-- Registers an operation of the MXQ still reads (R294): A group and scale register, until captured. -/
def MxOp.unread (o : MxOp) : List (Nat × Nat) := if o.captured.isSome then [] else [(o.va, mxARegs o.cfg)]

/-- A matrix operation that has not read its operands keeps a later write of them waiting (R60). -/
def State.regsBusy (s : State) (base regs : Nat) : Bool :=
  s.me.mxq.any (fun o => o.unread.any (fun g => overlaps ((base, regs), g)))

/-- The old destination can be read where it is needed (R158, R66): every element group with an element that is not
written is full, under policy 00. -/
def View.oldReady (v : View) (d : VDst) (written : List Nat) : Bool :=
  v.zero ||
  (List.range (v.vlb * d.regs / 512)).all (fun q =>
    let lo := q * 512 / d.ew
    let hi := (q + 1) * 512 / d.ew
    v.landed d.base 512 q || decide (hi - lo ≤ (written.countP (fun i => decide (lo ≤ i) && decide (i < hi))) + (min hi v.first - lo)))

/-! ## How a member ends -/

/-- The stop of an element-precise member at element `e` (R66, R161), with the member's access kind. -/
def State.laneStop (s : State) (e : LaneEnd) (kind : Nat := 0) : State :=
  match e with
  | .trap i k _ => s.stopAtElem (26 + k) kind 0 i 0
  | .empty i r => s.stopAtElem 6 18 (BitVec.ofNat 64 r) i 0
  | _ => s.memberDone

/-- Classes of the element that trapped: they are recorded (R27). -/
def VecState.creditEnd (x : VecState) (e : LaneEnd) : VecState :=
  match e with
  | .trap i _ fl => x.credit i fl
  | _ => x

/-- The first element that is not committed. -/
def LaneEnd.stopAt (e : LaneEnd) (size : Nat) : Nat :=
  match e with
  | .trap i _ _ => i
  | .empty i _ => i
  | _ => size

/-- A member that writes a vector destination ends: what was performed is written and credited, and it completes or
stops. At a stop, a fill of the elements below it (R65). -/
def State.vecResult (s : State) (v : View) (d : VDst) (fill : Nat) (res : List (Nat × Nat × Nat)) (e : LaneEnd) : State :=
  if e = .wait then s.memberWait
  else
    let size := v.size d
    let stop := e.stopAt size
    let val := putLanes (v.x.grp v.vlb d.base d.regs) d.ew v.first stop v.zero res
    let s :=
      if e = .all then s.writeGroup v.vlb d.base d.regs val fill
      else if stop ≤ v.first then s
      else s.writePart v.vlb d val stop
    let s := s.upd (fun t => { t with vec := (t.vec.creditAll res).creditEnd e })
    s.laneStop e

/-- A member that writes a mask ends (R158): bits from VL on follow the policy. -/
def State.maskResult (s : State) (v : View) (md : Nat) (res : List (Nat × Nat × Nat)) (e : LaneEnd) : State :=
  if e = .wait then s.memberWait
  else
    let stop := e.stopAt (2 * v.vlb)
    let new := putLanes ((v.x.mask md).toNat) 1 v.first stop v.zero res
    let s := s.upd (fun t =>
      let x := (t.vec.creditAll res).creditEnd e
      { t with vec := if md = 0 then x else { x with m := x.m.set md (BitVec.ofNat 16384 new) } })
    s.laneStop e

/-- A scalar result: it is written when the convoy retires (R59). -/
def State.scalarResult (s : State) (sd : BitVec 5) (w : Word) : State :=
  (s.upd (fun t => t.updConvoy s.cur.seq (fun c => { c with pendScalar := some (sd.toNat, w) }))).memberDone

/-! ## Frames of a meaning -/

/-- ESTART says that the resumed member is complete: it is VL or above (R301). -/
def State.complete (s : State) : Bool := s.cur.skip || (s.cur.resumed && decide (max 1 s.cur.samp.vl ≤ s.cur.first))

/-- A vector member: a resumed one with ESTART at VL or above is complete (R301), and one that fails a check at issue stops. -/
def State.vec (s : State) (i : Instr) (k : View → State) : Out :=
  if s.complete then .next s.memberDone
  else match issueCheck i s.cur.samp s.given with
    | some (c, d) => .next (s.stopWhole c 0 0 (BitVec.ofNat 64 d))
    | none => .next (k s.view)

/-- An element-wise member with a vector destination: `l` are its elements, in order. -/
def State.laneOp (s : State) (v : View) (d : VDst) (fill : Nat) (srcs : List Src) (l : List Nat) (f : Nat → Nat × Nat) : State :=
  if s.regsBusy d.base d.regs || !v.oldReady d l then s.memberWait
  else
    let (res, e) := v.run srcs f l
    s.vecResult v d fill res e

/-- What the sources of a member outside the element-wise families meet (R66): a wait, or a stop before anything is
committed. Each source is given with the elements it reads, in rising order. -/
def View.wholeMeets (v : View) (srcs : List (Src × List Nat)) : Option LaneEnd :=
  let bad (q : Src × List Nat) : Option Nat := q.2.find? (fun j => !v.landed q.1.base q.1.ew j)
  match srcs.find? (fun q => q.1.act && !v.force && (bad q).isSome) with
  | some q => match bad q with
    | some j => some (.empty j (v.regOf q.1.base q.1.ew j))
    | none => none
  | none => if srcs.any (fun q => (bad q).isSome) then some .wait else none

/-- Take what the sources of such a member meet, or go on. -/
def State.whole (s : State) (v : View) (srcs : List (Src × List Nat)) (k : State → State) : State :=
  match v.wholeMeets srcs with
  | some (.empty j r) =>
    s.memberStop { forceBlock := true } [s.memberRec 6 18 (BitVec.ofNat 64 r) j 0]
  | some _ => s.memberWait
  | none => k s

/-- A member that moves elements across lanes: sources checked as a whole, then performed in order. -/
def State.crossOp (s : State) (v : View) (d : VDst) (fill : Nat) (srcs : List (Src × List Nat)) (l : List Nat)
    (f : Nat → Nat × Nat) : State :=
  if s.regsBusy d.base d.regs || !v.oldReady d l then s.memberWait
  else s.whole v srcs (fun s =>
    let (res, e) := v.run [] f l
    s.vecResult v d fill res e)

/-- The element of the last source: the captured scalar's low bits, or the vector's (R160). -/
def State.lastSrc (s : State) (v : View) (kb : BitVec 1) (grp i : Nat) : Nat :=
  if kb = 1 then s.cur.op0.toNat % 2 ^ v.ew else elem grp v.ew i

/-- The sources of a three-operand member. -/
def View.srcs3 (v : View) (x : V3) : List Src :=
  ⟨x.va.toNat, v.ew, x.ea == 1, id⟩ :: (if x.kb = 1 then [] else [⟨x.vb.toNat, v.ew, x.eb == 1, id⟩])

/-- Granules of VL elements at a width (R65). -/
def View.fillAt (v : View) (w : Nat) : Nat := v.vl * w / 4

/-- The rounding of element `i` in a mode, with the stream of QCFG (R161, R23). -/
def State.rnd (s : State) (mode i : Nat) : Rnd :=
  ⟨mode, if mode = 4 then srDraw s.cur.samp.rngseed.toNat (bitsN s.cur.samp.qcfg 16 16) ((s.cur.samp.qbase.toNat + i) % 2 ^ 64) else 0⟩

end Sys2Proof.Machine
end

