-- ==== Sys2Proof/Machine/Rill.lean ====
section
/-! DEFINITION. Rill codes (R35 to R41) and the rill instructions other than vldg and vstg (R182 to R199). -/

namespace Sys2Proof.Machine

/-! ## Codes (R35 to R41) -/

/-- base_N (R36): 4,680 and the sizes of the shorter payloads. -/
def rnBase (n : Nat) : Nat := 4680 + ((List.range (n - 4)).map (fun j => 2 ^ (4 * (j + 4)))).sum

/-- Granule `j` of a stream held in a register group. -/
def granule (grp j : Nat) : Nat := elem grp 4 j

/-- `n` granules from `a` on, the first the most significant (R35). -/
def payload (grp a n : Nat) : Nat := (List.range n).foldl (fun v j => v * 16 + granule grp (a + j)) 0

/-- What classification gives (R37). -/
inductive Code where
  | incomplete
  | malformed
  | overrange (len : Nat)
  /-- An RF special: second granule 13 +∞, 14 −∞, 15 NaN (R40). -/
  | special (g : Nat)
  /-- A code or plain element: length in granules, u or the element, fraction. -/
  | ok (len u frac : Nat)
  deriving DecidableEq, Repr

/-- Length of a code. -/
def Code.len (c : Code) : Nat :=
  match c with
  | .overrange n => n
  | .ok n _ _ => n
  | .special _ => 2
  | .malformed => 2
  | .incomplete => 0

/-- `classify` of R37 at granule p of a stream with a fill: `rf` for kind RF, with F fraction granules. -/
def classify (grp p fill : Nat) (rf : Bool) (f : Nat) : Code :=
  let h := granule grp p
  let g1 := granule grp (p + 1)
  let finish (len base hb from_ n : Nat) : Code :=
    if p + len > fill then .incomplete
    else
      let u := base + hb * 16 ^ n + payload grp from_ n
      if u > 2 ^ 64 - 1 then .overrange len
      else if rf ∧ 1 ≤ u then
        if p + len + f > fill then .incomplete else .ok (len + f) u (payload grp (p + len) f)
      else .ok len u 0
  if h < 8 then finish 1 0 h (p + 1) 0
  else if h < 12 then finish 2 8 (h % 4) (p + 1) 1
  else if h < 14 then finish 3 72 (h % 2) (p + 1) 2
  else if h = 14 then finish 4 584 0 (p + 1) 3
  else if p + 1 ≥ fill then .incomplete
  else if 13 ≤ g1 then (if rf then .special g1 else .malformed)
  else finish (g1 + 6) (rnBase (g1 + 4)) 0 (p + 2) (g1 + 4)

/-- Granules in stream order as a number, granule j at bits <4j+3:4j>. -/
def packGranules (l : List Nat) : Nat := l.foldr (fun g v => g + 16 * v) 0

/-- The `n` digits of a payload, most significant first. -/
def digits (v n : Nat) : List Nat := (List.range n).map (fun j => v / 16 ^ (n - 1 - j) % 16)

/-- Payload granules of class E for a value (R35, R36): the N whose range holds it, from `n` down to 4. -/
def classN (u n : Nat) : Nat :=
  match n with
  | 0 => 4
  | k + 1 => if rnBase (k + 4) ≤ u then k + 4 else classN u k

/-- The code of u (R35). -/
def rnCode (u : Nat) : List Nat :=
  if u < 8 then [u]
  else if u < 72 then [8 + (u - 8) / 16, (u - 8) % 16]
  else if u < 584 then (12 + (u - 72) / 256) :: digits ((u - 72) % 256) 2
  else if u < 4680 then 14 :: digits (u - 584) 3
  else
    let n := classN u 13
    15 :: (n - 4) :: digits (u - rnBase n) n

/-- The value of u in an RI or RN stream (R38). -/
def rillInt (kind u : Nat) : Int :=
  if kind = 0x11 then (u : Int) else if u % 2 = 0 then ((u / 2 : Nat) : Int) else -(((u + 1) / 2 : Nat) : Int)

/-- The u of a value in an RI or RN stream (R38). -/
def rillU (kind : Nat) (v : Int) : Nat :=
  if kind = 0x11 then v.toNat else if 0 ≤ v then (2 * v).toNat else (-2 * v - 1).toNat

/-- Eref of an RFDESC (R39). -/
def eref (desc : Word) : Int := toSigned 8 (bitsN desc 0 8)

/-- The value of an RF code (R40). -/
def rfValue (desc : Word) (c : Code) : Fv :=
  match c with
  | .special g => if g = 13 then .inf false else if g = 14 then .inf true else .nan false
  | .ok _ u frac =>
    if u = 0 then .fin false 0 0
    else
      let f := bitsN desc 8 3
      let m := (u - 1) / 2
      let d : Int := if m % 2 = 0 then ((m / 2 : Nat) : Int) else -(((m + 1) / 2 : Nat) : Int)
      .fin ((u - 1) % 2 == 1) (2 ^ (4 * f) + frac) (eref desc + d - 4 * f)
  | _ => .nan false

/-- The RF code of a value and the classes it raises (R41, R194). -/
def rfCode (desc : Word) (draw : Nat) (v : Fv) : List Nat × Nat :=
  match v with
  | .nan s => ([15, 15], if s then flNV else 0)
  | .inf neg => ([15, if neg then 14 else 13], 0)
  | .fin neg m x =>
    if m = 0 then ([0], 0)
    else
      let f := bitsN desc 8 3
      let r : Rnd := if bitN desc 11 then ⟨4, draw⟩ else rne
      let k := Nat.log2 m
      let (q, lost) := if k ≤ 4 * f then (m <<< (4 * f - k), false) else roundOff r neg m (k - 4 * f)
      let carry := 2 ^ (4 * f + 1) ≤ q
      let e : Int := (k : Int) + x + (if carry then 1 else 0)
      let q := if carry then q / 2 else q
      let d := e - eref desc
      let mm : Int := if 0 ≤ d then 2 * d else -2 * d - 1
      let u := (2 * mm + (if neg then 1 else 0) + 1).toNat
      if u > 2 ^ 64 - 1 then
        (if 0 < d then ([15, if neg then 14 else 13], flOF + flNX) else ([0], flUF + flNX))
      else (rnCode u ++ digits (q - 2 ^ (4 * f)) f, if lost then flNX else 0)

/-- Bring two finite values to one exponent: m, n and the exponent. A value more than 1,024 places below the other
matters only by its sign and by being there, and is moved up. -/
def align2 (a : Bool) (m : Nat) (d : Int) (b : Bool) (n : Nat) (e : Int) : Int × Int × Int :=
  let (m, d) := if m ≠ 0 ∧ n ≠ 0 ∧ 1024 < e - d then (1, e - 512) else (m, if m = 0 then e else d)
  let (n, e) := if m ≠ 0 ∧ n ≠ 0 ∧ 1024 < d - e then (1, d - 512) else (n, if n = 0 then d else e)
  let q := min d e
  (scaled a m d q, scaled b n e q, q)

/-- The exact sum of two RF values that are not NaN; none for ∞ − ∞ (R194). -/
def rfSum (x y : Fv) : Option Fv :=
  match x, y with
  | .inf a, .inf b => if a = b then some x else none
  | .inf _, _ => some x
  | _, .inf _ => some y
  | .fin a m d, .fin b n e =>
    let (p, r, q) := align2 a m d b n e
    some (.fin (decide (p + r < 0)) (p + r).natAbs q)
  | _, _ => some (.nan false)

/-- x < y for RF values that are not NaN. -/
def rfLt (x y : Fv) : Bool :=
  match x, y with
  | .fin a m d, .fin b n e => let (p, r, _) := align2 a m d b n e; decide (p < r)
  | _, _ => ltV x y

/-! ## The grant loop (R185) -/

/-- A source: its bits, its fill, and its element width where it is plain. -/
structure RSrc where
  grp : Nat
  fill : Nat
  plain : Option Nat

/-- `next` of R185. -/
def RSrc.next (q : RSrc) (p : Nat) (rf : Bool) (f : Nat) : Code :=
  match q.plain with
  | some w => if p + w / 4 > q.fill then .incomplete else .ok (w / 4) (elem q.grp w (p / (w / 4))) 0
  | none => if p ≥ q.fill then .incomplete else classify q.grp p q.fill rf f

/-- Where a source's code or element stands, unchanged. -/
def RSrc.bits (q : RSrc) (p len : Nat) : Nat := (q.grp >>> (4 * p)) % 16 ^ len

/-- A bad code: its cause and the record's VA (R187). -/
def badCode (c : Code) (p which : Nat) : Option (Nat × Nat) :=
  match c with
  | .malformed => some (24, p + 2 * 2 ^ 16 + which * 2 ^ 24)
  | .overrange n => some (25, p + n * 2 ^ 16 + which * 2 ^ 24)
  | _ => none

/-- What the loop has done. -/
structure Grant where
  n : Nat := 0
  pa : Nat := 0
  pb : Nat := 0
  pd : Nat := 0
  /-- Results packed from granule 0. -/
  out : Nat := 0
  /-- Element, result bits and classes of each element, in order, the stopping one's classes last. -/
  flags : List (Nat × Nat) := []
  /-- Cause and VA of a stop. -/
  stop : Option (Nat × Nat) := none

/-- The loop of R185: `op` gives an element's bits, size in granules and classes. -/
def grantLoop (a : RSrc) (b : Option RSrc) (rf : Bool) (f budget trapen : Nat)
    (op : Nat → Nat → Nat → Code → Code → Nat × Nat × Nat) (r : Grant) (fuel : Nat) : Grant :=
  match fuel with
  | 0 => r
  | k + 1 =>
    let ca := a.next r.pa rf f
    let cb := match b with | some q => q.next r.pb rf f | none => .ok 0 0 0
    if ca = .incomplete ∨ cb = .incomplete then r
    else match (badCode ca r.pa 0).or (badCode cb r.pb 1) with
      | some e => { r with stop := some e }
      | none =>
        let (y, size, fl) := op r.n r.pa r.pb ca cb
        if r.pd + size > budget then r
        else
          let flags := if fl = 0 then r.flags else r.flags ++ [(r.n, fl)]
          match trapClass fl trapen with
          | some c => { r with flags := flags, stop := some (26 + c, 0) }
          | none =>
            grantLoop a b rf f budget trapen op
              { r with n := r.n + 1, pa := r.pa + ca.len, pb := r.pb + cb.len, pd := r.pd + size,
                       out := r.out + y <<< (4 * r.pd), flags := flags } k

/-- What the loop comes to at VL = 0: nothing fits the budget, but a bad first code stops (R185, R199; assumption 58). -/
def grantNone (a : RSrc) (b : Option RSrc) (rf : Bool) (f : Nat) : Grant :=
  let ca := a.next 0 rf f
  let cb := match b with | some q => q.next 0 rf f | none => .ok 0 0 0
  if ca = .incomplete ∨ cb = .incomplete then {} else { stop := (badCode ca 0 0).or (badCode cb 0 1) }

/-- The grant word (R68). -/
def grantWord (elem cona conb prod : Nat) : Word :=
  BitVec.ofNat 64 (elem % 2 ^ 16 + cona % 2 ^ 16 * 2 ^ 16 + conb % 2 ^ 16 * 2 ^ 32 + prod % 2 ^ 16 * 2 ^ 48)

/-- Fill of a source group (R65). -/
def VecState.groupFill (x : VecState) (vlb base n : Nat) : Nat :=
  match n with
  | 0 => 0
  | k + 1 =>
    let f := x.fillOf base
    if f < vlb / 4 then f else f + VecState.groupFill x vlb (base + 1) k

/-- A source group as a rill instruction reads it. -/
def View.rsrc (v : View) (base : BitVec 6) (plain : Option Nat) : RSrc :=
  ⟨v.src base, v.x.groupFill v.vlb base.toNat v.g, plain⟩

/-- The element groups up to a source's fill, by their lowest granules (R188). -/
def View.rillReads (v : View) (base : BitVec 6) (act : BitVec 1) : Src × List Nat :=
  (⟨base.toNat, 4, act == 1, id⟩,
    ((List.range (v.vlb * v.g / 512)).map (· * 128)).filter (fun j => decide (j < v.x.groupFill v.vlb base.toNat v.g)))

/-- A rill stop (R187, R190): the member is over, the later ones stay queued, ESTART is all ones. -/
def State.rillStop (s : State) (r : FRec) : State := s.memberStop { estart := BitVec.allOnes 64, ended := true } [r]

/-- The end of a rill instruction: the grant, then its stop or its completion. -/
def State.rillEnd (s : State) (g : BitVec 3) (grant : Word) (n : Nat) (flags : List (Nat × Nat)) (stop : Option (Nat × Nat)) : State :=
  let s := s.upd (fun t =>
    { t with vec := { flags.foldl (fun x q => x.credit q.1 q.2) t.vec with g := t.vec.g.set g.toNat grant } })
  match stop with
  | some (c, va) => s.rillStop (s.memberRec c 10 (BitVec.ofNat 64 va) n 0)
  | none => s.memberDone

/-- A rill instruction with a destination group; `w` is the width of a plain destination (R185 to R187). -/
def State.rill (s : State) (i : Instr) (vd : BitVec 6) (g : BitVec 3) (w : Option Nat)
    (a : View → RSrc) (b : View → Option RSrc) (reads : View → List (Src × List Nat))
    (op : View → Nat → Nat → Nat → Code → Code → Nat × Nat × Nat) : Out :=
  s.vec i (fun v =>
    s.whole v (reads v) (fun s =>
      let f := bitsN s.cur.samp.rfdesc 8 3
      let qa := a v
      let r := if v.vl = 0 then grantNone qa (b v) (v.code == 0x12) f else
        grantLoop qa (b v) (v.code == 0x12) f v.vl v.trapen (op v) {} (qa.fill + 1)
      let d : VDst := ⟨vd.toNat, v.g, 4⟩
      let size := v.size d
      let len := match w with | some w => r.n * w / 4 | none => r.pd
      if s.regsBusy d.base d.regs || !v.oldReady d (List.range len) then s.memberWait
      else
        let old := v.src vd
        let new := r.out % 16 ^ size + (if v.zero then 0 else (old >>> (4 * len)) <<< (4 * len))
        let s := s.writeGroup v.vlb d.base d.regs new len
        s.rillEnd g (grantWord r.n r.pa r.pb (if w.isSome then r.n else r.pd)) r.n r.flags r.stop))

/-- A rill instruction with one source. -/
def State.rill1 (s : State) (i : Instr) (vd va : BitVec 6) (ea : BitVec 1) (g : BitVec 3) (w : Option Nat) (plain : Option Nat)
    (op : View → Nat → Nat → Code → Nat × Nat × Nat) : Out :=
  s.rill i vd g w (fun v => v.rsrc va plain) (fun _ => none) (fun v => [v.rillReads va ea]) (fun v n pa _ c _ => op v n pa c)

/-- Value of an integer rill code. -/
def Code.int (c : Code) (kind : Nat) : Int := match c with | .ok _ u _ => rillInt kind u | _ => 0
def Code.val (c : Code) : Nat := match c with | .ok _ u _ => u | _ => 0

/-! ## The instructions (R192 to R198) -/

def execRdec (x : RTypeOp) (s : State) : Out :=
  let t := x.etype.toNat
  let w := (ewOf t).getD 8
  s.rill1 (.rdec x) x.vd x.va x.ea x.g (some w) none (fun v n _ c =>
    let y := c.int v.code
    let r := packPlain t (s.rnd s.cur.samp.rm n) flRG (.fin (decide (y < 0)) y.natAbs 0)
    (r.1, w / 4, r.2))

/-- Range of the values of an RI or RN stream. -/
def rillRange (kind : Nat) : Int × Int := if kind = 0x11 then (0, 2 ^ 64 - 1) else (-(2 ^ 63), 2 ^ 63 - 1)

/-- The code of a value clamped to the stream's range (R192, R193): bits, size, classes. -/
def rillClamp (kind : Nat) (v : Int) : Nat × Nat × Nat :=
  let (lo, hi) := rillRange kind
  let c := rnCode (rillU kind (max lo (min hi v)))
  (packGranules c, c.length, if v < lo ∨ hi < v then flSAT else 0)

def execRenc (x : RTypeOp) (s : State) : Out :=
  let t := x.etype.toNat
  let w := (ewOf t).getD 8
  s.rill1 (.renc x) x.vd x.va x.ea x.g none (some w) (fun v _ _ c =>
    rillClamp v.code (if isSignedInt t then toSigned w c.val else (c.val : Int)))

/-- A two-source member (R193, R194): what it gives for integers and for RF values. -/
def State.rill2 (s : State) (i : Instr) (x : RArithOp) (op : View → Nat → RSrc → RSrc → Nat → Nat → Code → Code → Nat × Nat × Nat) : Out :=
  s.rill i x.vd x.g none (fun v => v.rsrc x.va none) (fun v => some (v.rsrc x.vb none))
    (fun v => [v.rillReads x.va x.ea, v.rillReads x.vb x.eb])
    (fun v n pa pb c d => op v n (v.rsrc x.va none) (v.rsrc x.vb none) pa pb c d)

/-- A sum or a difference of two codes. -/
def State.rillSum (s : State) (minus : Bool) (v : View) (n : Nat) (c d : Code) : Nat × Nat × Nat :=
  if v.code = 0x12 then
    let desc := s.cur.samp.rfdesc
    let a := rfValue desc c
    let b := if minus then (rfValue desc d).negate else rfValue desc d
    let draw := srDraw s.cur.samp.rngseed.toNat (bitsN s.cur.samp.qcfg 16 16) ((s.cur.samp.qbase.toNat + n) % 2 ^ 64)
    let r := if a.isNan || b.isNan then ([15, 15], 0)
      else match rfSum a b with
        | none => ([15, 15], flNV)
        | some y => rfCode desc draw y
    (packGranules r.1, r.1.length, r.2)
  else rillClamp v.code (if minus then c.int v.code - d.int v.code else c.int v.code + d.int v.code)

def execRadd (x : RArithOp) (s : State) : Out := s.rill2 (.radd x) x (fun v n _ _ _ _ c d => s.rillSum false v n c d)
def execRsub (x : RArithOp) (s : State) : Out := s.rill2 (.rsub x) x (fun v n _ _ _ _ c d => s.rillSum true v n c d)

/-- The first operand is the one to keep (R193, R194): `wantMax` for rmax. -/
def State.keepsA (s : State) (wantMax : Bool) (v : View) (c d : Code) : Bool :=
  if v.code = 0x12 then
    let a := rfValue s.cur.samp.rfdesc c
    let b := rfValue s.cur.samp.rfdesc d
    if a.isNan then b.isNan else b.isNan || !(if wantMax then rfLt a b else rfLt b a)
  else if wantMax then decide (d.int v.code ≤ c.int v.code) else decide (c.int v.code ≤ d.int v.code)

/-- The chosen operand's code, unchanged. -/
def State.rillPick (s : State) (wantMax : Bool) (v : View) (qa qb : RSrc) (pa pb : Nat) (c d : Code) : Nat × Nat × Nat :=
  if s.keepsA wantMax v c d then (qa.bits pa c.len, c.len, 0) else (qb.bits pb d.len, d.len, 0)

def execRmin (x : RArithOp) (s : State) : Out := s.rill2 (.rmin x) x (fun v _ qa qb pa pb c d => s.rillPick false v qa qb pa pb c d)
def execRmax (x : RArithOp) (s : State) : Out := s.rill2 (.rmax x) x (fun v _ qa qb pa pb c d => s.rillPick true v qa qb pa pb c d)

def execFdec (x : RTypeOp) (s : State) : Out :=
  let t := x.etype.toNat
  let w := (ewOf t).getD 8
  s.rill1 (.fdec x) x.vd x.va x.ea x.g (some w) none (fun _ n _ c =>
    let r := packPlain t (s.rnd s.cur.samp.rm n) flRG (rfValue s.cur.samp.rfdesc c)
    (r.1, w / 4, r.2))

def execFenc (x : RTypeOp) (s : State) : Out :=
  let t := x.etype.toNat
  let w := (ewOf t).getD 8
  let desc := s.cur.samp.rfdesc
  s.rill1 (.fenc x) x.vd x.va x.ea x.g none (some w) (fun _ n _ c =>
    let draw := srDraw s.cur.samp.rngseed.toNat (bitsN desc 16 16) ((s.cur.samp.qbase.toNat + n) % 2 ^ 64)
    let r := rfCode desc draw (plainValue t c.val)
    (packGranules r.1, r.1.length, r.2))

/-- The codes of a source in order: the sum of their values, with the loop's counts (R196). -/
def sumCodes (a : RSrc) (kind : Nat) (r : Grant) (t : Int) (fuel : Nat) : Grant × Int :=
  match fuel with
  | 0 => (r, t)
  | k + 1 =>
    let c := a.next r.pa false 0
    if c = .incomplete then (r, t)
    else match badCode c r.pa 0 with
      | some e => ({ r with stop := some e }, t)
      | none => sumCodes a kind { r with n := r.n + 1, pa := r.pa + c.len } (t + c.int kind) k

def execRdsum (x : RUnOp) (s : State) : Out :=
  s.vec (.rdsum x) (fun v =>
    s.whole v [v.rillReads x.va x.ea, (⟨x.vd.toNat, 64, false, id⟩, [0])] (fun s =>
      if s.regsBusy x.vd.toNat 1 then s.memberWait
      else
        let qa := v.rsrc x.va none
        let (r, t) := sumCodes qa v.code {} 0 (qa.fill + 1)
        let reg := v.x.grp v.vlb x.vd.toNat 1
        let old := elem reg 64 0
        let sum := (if v.code = 0x11 then (old : Int) else toSigned 64 old) + t
        let (lo, hi) := rillRange v.code
        let clamped := sum < lo ∨ hi < sum
        if clamped ∧ v.trapen / flSAT % 2 = 1 then s.rillEnd x.g 0 0 [(0, flSAT)] (some (31, 0))
        else
          let s := s.writeGroup v.vlb x.vd.toNat 1 (setElem reg 64 0 (wrapInt 64 (max lo (min hi sum)))) 16
          s.rillEnd x.g (grantWord r.n r.pa 0 1) r.n (if clamped then [(0, flSAT)] else []) r.stop))

def execRlen (x : RUnOp) (s : State) : Out :=
  s.rill1 (.rlen x) x.vd x.va x.ea x.g (some 8) none (fun _ _ _ c => (c.len, 2, 0))
def execRpos (x : RUnOp) (s : State) : Out :=
  s.rill1 (.rpos x) x.vd x.va x.ea x.g (some 16) none (fun _ _ pa _ => (pa % 2 ^ 16, 4, 0))

def execRfilt (x : RFiltOp) (s : State) : Out :=
  s.rill1 (.rfilt x) x.vd x.va x.ea x.g none none (fun v n pa c =>
    if v.bit x.mb.toNat n then ((v.rsrc x.va none).bits pa c.len, c.len, 0) else (0, 0, 0))

end Sys2Proof.Machine
end

