-- ==== Sys2Proof/Machine/VecMem.lean ====
section
/-! DEFINITION. Vector loads, gathers, stores, scatters and atomics, and `vwait` (R226 to R239, R326, R344 to R346). -/

namespace Sys2Proof.Machine

/-! ## The scratchpad (R226) -/

/-- Number of a scratchpad byte in its core's L1: way 16 - n + o div 65,536. -/
def Core.scratchKey (c : Core) (o : Nat) : Nat := (16 - c.ways) * 65536 + o

/-- Lines that hold `n` scratchpad bytes from offset `o` on. -/
def Core.scratchLines (c : Core) (o n : Nat) : List Nat := (List.range ((o % 64 + n + 63) / 64)).map (lineOf (c.scratchKey o) + ·)

/-- One of them is poisoned (R321). -/
def Core.scratchBad (c : Core) (o n : Nat) : Bool := (c.scratchLines o n).any c.scratchPoison.contains

/-- Bytes of the scratchpad change; `bad` is the poison of the lines they replace whole, and joins that of others (R321). -/
def Core.putScratch (c : Core) (o : Nat) (bs : List Byte) (bad : Bool) : Core :=
  let ls := c.scratchLines o bs.length
  let whole := o % 64 = 0 ∧ bs.length % 64 = 0
  { c with scratch := Memory.writeBytes c.scratch (c.scratchKey o) bs
           scratchPoison := (if bad then ls else []) ++ (if bad || whole then c.scratchPoison.filter (fun l => !ls.contains l) else c.scratchPoison) }

/-! ## What an element's access meets -/

/-- Where an element access goes, or what it meets. -/
inductive Reach where
  | mem (x : Xl) (p : Place)
  | scratch (off : Nat)
  /-- It waits: a migrating frame (R216), or a PC being copied (R211). -/
  | wait
  | stop (cause : Nat)
  /-- It consumes poison (R321). -/
  | error
  | beyond
  deriving DecidableEq, Repr

/-- The access of `n` bytes at `va` by the member in execution (R205, R226, R227, R345). -/
def State.reach (s : State) (acc : Access) (va : Word) (n : Nat) (scratch watched full : Bool) (hold : Option Hold) : Reach :=
  if scratch then
    let c := s.core (coreOf s.cur.src)
    if 65536 * c.ways ≤ va.toNat then .stop Cause.addressRange
    else if va.toNat % n ≠ 0 then .stop Cause.misaligned
    else if c.scratchBad va.toNat n && !full then .error
    else .scratch va.toNat
  else match s.checkAccess acc va n watched full hold with
    | .ok x p => .mem x p
    | .wait _ => .wait
    | .stop c => .stop c
    | .error => .error
    | .beyond => .beyond

/-- An element access: its element and address. -/
structure Touch where
  i : Nat
  va : Word
  at_ : Reach
  deriving DecidableEq, Repr

/-- The accesses a member makes: kind of access and of record, bytes of an element, path, address of each element, and
whether the run of elements about an element replaces its whole line (R321). -/
structure Walk where
  acc : Access
  kind : Nat
  n : Nat
  scratch : Bool
  addr : Nat → Word
  full : Nat → Bool := fun _ => false

/-- The watch comparators match element `i`, and the element is not exempt (R344 to R346). -/
def State.elemWatched (s : State) (v : View) (w : Walk) (i : Nat) : Bool :=
  !w.scratch && !(v.resumed && i == v.first) && !s.cur.watchExempt.contains i
    && s.me.watchHit w.acc.needsR w.acc.needsW (w.addr i).toNat w.n

/-- The access of element `i`. -/
def State.elemReach (s : State) (v : View) (w : Walk) (i : Nat) : Reach :=
  s.reach w.acc (w.addr i) w.n w.scratch (s.elemWatched v w i) (w.full i) (if v.resumed && i == v.first then s.cur.hold else none)

/-- How the elements of a memory member end. -/
inductive ElemEnd where
  | all
  | wait
  /-- The elements below `i` are performed in this turn (R228, R277). -/
  | part (i : Nat)
  /-- Element `i` reads an empty group of register `r` (R66). -/
  | empty (i r : Nat)
  | stop (i cause : Nat)
  | error (i : Nat)
  | beyond
  deriving DecidableEq, Repr

/-- The accesses of a member's elements in order, up to the first that does not complete (R228). -/
def State.walk1 (s : State) (v : View) (w : Walk) (srcs : List Src) (l : List Nat) : List Touch × ElemEnd :=
  match l with
  | [] => ([], .all)
  | i :: r =>
    match v.meets srcs i with
    | some (.empty j k) => ([], .empty j k)
    | some _ => ([], .wait)
    | none => match s.elemReach v w i with
      | .wait => ([], .wait)
      | .stop c => ([], .stop i c)
      | .error => ([], .error i)
      | .beyond => ([], .beyond)
      | x =>
        let (t, e) := State.walk1 s v w srcs r
        (⟨i, w.addr i, x⟩ :: t, e)

/-- The elements of a member that this turn performs: those a limit allows, and those before one that has to wait. -/
def State.walkSome (s : State) (v : View) (w : Walk) (srcs : List Src) (l : List Nat) : List Touch × ElemEnd :=
  let (ts, e) := s.walk1 v w srcs (match s.cur.limit with | some n => l.take n | none => l)
  match e, l.drop ts.length with
  | .all, i :: _ => (ts, .part i)
  | .wait, i :: _ => (ts, if ts.isEmpty then .wait else .part i)
  | e, _ => (ts, e)

/-- The first element that is not performed. -/
def ElemEnd.stopAt (e : ElemEnd) (size : Nat) : Nat :=
  match e with
  | .part i => i
  | .empty i _ => i
  | .stop i _ => i
  | .error i => i
  | _ => size

/-- DETAIL of a watch stop at element `e`: bit j for each active element e + j that matches (R345). -/
def State.watchMask (s : State) (v : View) (mk : BitVec 2) (w : Walk) (e : Nat) : Word :=
  BitVec.ofNat 64 ((List.range 64).foldl (fun m j =>
    if e + j < v.vl && v.bit mk.toNat (e + j) && s.me.watchHit w.acc.needsR w.acc.needsW (w.addr (e + j)).toNat w.n
    then m + 2 ^ j else m) 0)

/-- The elements a lane mask names. -/
def maskNames (e : Nat) (m : Word) : List Nat := ((List.range 64).filter (fun j => m.getLsbD j)).map (e + ·)

/-- A memory member cannot go on yet; one that resumes keeps the translation of its first element (R228). -/
def State.memWait (s : State) (v : View) (w : Walk) : Out :=
  .next (if !v.resumed || w.scratch || s.cur.hold.isSome then s.memberWait
    else s.upd (fun t => t.updConvoy s.cur.seq (fun c =>
      { c with hold := s.holdOf (dieOf s.cur.src) s.me.bind.ctx (w.addr v.first) (some (coreOf s.cur.src)) })))

/-- A memory member ends: it is complete, or stops at its element (R228, R300); `keep` is the RESVAL it leaves, and `firm` tells
that what it did cannot be taken back. -/
def State.elemEnd (s : State) (v : View) (mk : BitVec 2) (w : Walk) (e : ElemEnd) (keep : Word := 0) (firm : Bool := w.acc.needsW) : Out :=
  match e with
  | .all => .next (s.memberDone firm)
  | .wait => s.memWait v w
  | .part i => .next (s.memberPart i firm)
  | .empty i r => .next (s.memberStop { estart := BitVec.ofNat 64 i, resval := keep } [s.memberRec 6 18 (BitVec.ofNat 64 r) i 0] firm)
  | .stop i c =>
    let m := if c = 37 then s.watchMask v mk w i else 0
    .next (s.memberStop { estart := BitVec.ofNat 64 i, watchExempt := maskNames i m, resval := keep }
      [s.memberRec c w.kind (w.addr i) i m] firm)
  | .error i => .next (s.consumeError s.cur.src Cause.poison w.kind (w.addr i) (BitVec.ofNat 32 i) s.cur.slot s.cur.pc s.memberStrip)
  | .beyond => .fault .locationBeyondSpace

/-- A memory member of `n` elements, lines or granules: a resumed one with ESTART at or past its end is complete, and does
`done` (R301); it stops where a check at issue fails. -/
def State.vmemOf (s : State) (i : Instr) (n : View → Nat) (k : View → Out) (done : View → State → State := fun _ s => s) : Out :=
  if s.cur.skip || (s.cur.resumed && decide (max 1 (n s.view) ≤ s.cur.first)) then .next ((done s.view s).memberDone true)
  else match issueCheck i s.cur.samp s.given with
  | some (c, d) => .next (s.stopWhole c 0 0 (BitVec.ofNat 64 d))
  | none => k s.view

/-- A memory member of VL elements. -/
def State.vmem (s : State) (i : Instr) (k : View → Out) (done : View → State → State := fun _ s => s) : Out :=
  s.vmemOf i View.vl k done

/-! ## Addresses (R230) -/

/-- Bytes of an element. -/
def View.e (v : View) : Nat := v.ew / 8

/-- Contiguous elements. -/
def State.unitAddr (s : State) (v : View) (i : Nat) : Word := s.cur.op0 + BitVec.ofNat 64 (i * v.e)

/-- Strided elements; the stride is an i64. -/
def State.strideAddr (s : State) (i : Nat) : Word := s.cur.op0 + BitVec.ofNat 64 i * s.cur.op1

/-- Indexed elements: unsigned offsets, scaled by the element size where `q` is set. -/
def State.indexAddr (s : State) (v : View) (vx : BitVec 6) (q : Bool) (i : Nat) : Word :=
  s.cur.op0 + BitVec.ofNat 64 (elem (v.src vx) v.ew i * (if q then v.e else 1))

/-- Hint 10 (R226). -/
def isScratch (hint : BitVec 2) : Bool := hint == 2

/-! ## Loads -/

/-- The value at a place an access reached. -/
def State.valueAt (s : State) (x : Reach) (n : Nat) : Nat :=
  match x with
  | .mem xl p => leNat (s.loadBytes s.cur.src xl p n)
  | .scratch o => let c := s.core (coreOf s.cur.src); leNat (Memory.readBytes c.scratch (c.scratchKey o) n)
  | _ => 0

/-- Bookkeeping of the stores made (R208). -/
def State.seeAll (s : State) (l : List Touch) : State :=
  l.foldl (fun s t => match t.at_ with | .mem x _ => s.see s.cur.src t.va x | _ => s) s

/-- The places accessed. -/
def touchedPlaces (l : List Touch) : List Place := l.filterMap (fun t => match t.at_ with | .mem _ p => some p | _ => none)

/-- Lines accessed. -/
def linesOf (l : List Touch) : List Nat := (touchedPlaces l).map (fun p => lineOf p.key)

/-- Bookkeeping of the loads made: caches, tracker (R208, R218), and what reading the lines does. A line counts as read with the last
element that the instruction reads in it; elements `rest` are still to come (R238). -/
def State.touchAll (s : State) (w : Walk) (l : List Touch) (rest : List Nat) : State :=
  let strip := s.memberStrip
  let s := l.foldl (fun s t => match t.at_ with | .mem x _ => s.touch s.cur.src strip t.va x | _ => s) (s.upd Strand.fixReads)
  let s := if s.counted.isEmpty then s
    else s.countReads (linesOf (l.filter (fun t => !rest.any (fun i => (w.addr i).toNat / 64 == t.va.toNat / 64))))
  s.meetLines (dieOf s.cur.src) (touchedPlaces l)

/-- The values read by the accesses. -/
def State.values (s : State) (n : Nat) (l : List Touch) : List (Nat × Nat) := l.map (fun t => (t.i, s.valueAt t.at_ n))

/-- A load writes its destination: performed elements up to `stop`, the policy, and the fill it set at issue (R227). -/
def State.loadWrite (s : State) (v : View) (d : VDst) (stop : Nat) (vals : List (Nat × Nat)) : State :=
  s.writeGroup v.vlb d.base d.regs
    (putLanes (v.x.grp v.vlb d.base d.regs) d.ew v.first stop v.zero (vals.map (fun r => (r.1, r.2, 0)))) (v.fillAt d.ew)

/-- `vld` and `vlds`: elements in order (R228, R230). -/
def State.loadElems (s : State) (v : View) (vd : BitVec 6) (mk : BitVec 2) (w : Walk) : Out :=
  let d := v.dst vd
  let l := v.active mk
  if s.regsBusy d.base d.regs || !v.oldReady d l then s.memWait v w
  else
    let (ts, e) := s.walkSome v w [] l
    if e = .wait ∨ e = .beyond then s.elemEnd v mk w e
    else ((s.loadWrite v d (e.stopAt (v.size d)) (s.values w.n ts)).touchAll w ts (l.drop ts.length)).elemEnd v mk w e

/-! ## Long-latency loads (R66, R231, R232) -/

/-- Values read, by register and element group, as landings; `ts` tells where they were read. -/
def landingsOf (vlb : Nat) (d : VDst) (seq : Nat) (num : Option Nat) (vals : List (Nat × Nat)) (ts : List Touch := []) : List Landing :=
  let key (i : Nat) : Nat × Nat := (d.base + i * d.ew / vlb, i * d.ew % vlb / 512)
  let ix (i : Nat) : Nat := i * d.ew % vlb / d.ew
  ((vals.map (fun r => key r.1)).dedup).map (fun (r, g) =>
    { seq := seq, reg := r, grp := g, ew := d.ew, num := num
      elems := (vals.filter (fun x => key x.1 == (r, g))).map (fun x => (ix x.1, x.2))
      from_ := (ts.filter (fun t => key t.i == (r, g))).filterMap (fun t =>
        match t.at_ with | .mem xl p => some (⟨ix t.i, xl, p⟩ : ElemRead) | _ => none) })

/-- Mark empty the element groups that are to land. -/
def VecState.empty (x : VecState) (l : List Landing) : VecState :=
  { x with full := l.foldl (fun f y => f.set y.reg (f.getD y.reg 0xFFFF &&& ~~~(BitVec.ofNat 16 (2 ^ y.grp)))) x.full }

/-- Element groups with active elements that have not landed stay empty (R66, R231). -/
def State.leaveEmpty (s : State) (v : View) (d : VDst) (l : List Nat) : State :=
  s.upd (fun t => { t with vec := t.vec.empty (landingsOf v.vlb d 0 none (l.map (fun i => (i, 0)))) })

/-- The destination of a long-latency load as it is set at issue: its groups, the policy, and the fill (R227, R231). One that
resumes keeps what has landed. -/
def State.longWrite (s : State) (v : View) (d : VDst) (l : List Nat) (vals : List (Nat × Nat)) : State :=
  let old := v.x.grp v.vlb d.base d.regs
  let base := if !v.zero || v.resumed then old
    else (l.map (fun i => (i, elem old d.ew i))).foldl (fun g r => setElem g d.ew r.1 r.2) 0
  s.writeGroup v.vlb d.base d.regs (vals.foldl (fun g r => setElem g d.ew r.1 r.2) base) (v.fillAt d.ew)

/-- The reads of a long-latency load are under way; its groups are empty until they land. -/
def State.launch_ (s : State) (v : View) (d : VDst) (num : Option Nat) (l : List Nat) (vals : List (Nat × Nat)) (ts : List Touch) : State :=
  let ls := landingsOf v.vlb d s.cur.seq num vals ts
  (s.longWrite v d l []).upd (fun t => { t with vec := t.vec.empty ls, lands := t.lands ++ ls })

/-- The destination's old value can be read where it is needed; a load that resumes has read it. -/
def View.longReady (v : View) (d : VDst) (l : List Nat) : Bool := v.resumed || v.oldReady d l

/-- A long-latency load that is complete as it resumes leaves no group empty. -/
def longDone (vd : BitVec 6) (v : View) (s : State) : State :=
  s.upd (fun t => { t with vec := { t.vec with full := setFull t.vec.full vd.toNat v.g } })

/-- The number of the member in execution. -/
def State.asyncNum (s : State) : Option Nat := match s.convoy? with | some c => c.nAs | none => none

/-- The number of a `vlda` that has nothing left to land is complete. -/
def State.asyncEnd (s : State) (num : Option Nat) : State := s.upd (fun t => t.asyncDone num)

/-- `vlda` (R232): the reads are performed in order; a stop commits the elements below it. -/
def State.asyncElems (s : State) (v : View) (vd : BitVec 6) (mk : BitVec 2) (w : Walk) : Out :=
  let d := v.dst vd
  let l := v.active mk
  if s.regsBusy d.base d.regs || !v.longReady d l then s.memWait v w
  else
    let (ts, e) := s.walk1 v w [] l
    if e = .wait ∨ e = .beyond then s.elemEnd v mk w e
    else
      let vals := s.values w.n ts
      let num := s.asyncNum
      let s := s.touchAll w ts (l.drop ts.length)
      let s' := if e = .all then (s.launch_ v d num l vals ts).asyncEnd num
        else (s.longWrite v d l vals).leaveEmpty v d (l.drop ts.length)
      s'.elemEnd v mk w e 0 true

/-- What an element of a gather meets. -/
inductive Gathered where
  | ok (t : Touch)
  | empty (i r : Nat)
  | stop (i cause : Nat)
  | other (e : ElemEnd)
  deriving DecidableEq, Repr

/-- Element `i` of a gather. -/
def State.gather1 (s : State) (v : View) (w : Walk) (srcs : List Src) (i : Nat) : Gathered :=
  match v.meets srcs i with
  | some (.empty j r) => .empty j r
  | some _ => .other .wait
  | none => match s.elemReach v w i with
    | .wait => .other .wait
    | .stop c => .stop i c
    | .error => .other (.error i)
    | .beyond => .other .beyond
    | x => .ok ⟨i, w.addr i, x⟩

/-- The element at which a gather's element stops. -/
def Gathered.stopIx (g : Gathered) : Option Nat :=
  match g with
  | .empty i _ => some i
  | .stop i _ => some i
  | _ => none

/-- Elements a resumed gather has still to perform (R231): bit j of DONEMASK is element ESTART + j. -/
def State.gatherTodo (s : State) (v : View) (mk : BitVec 2) : List Nat :=
  if v.resumed then (v.active mk).filter (fun i => !(decide (i - v.first < 64) && s.me.csr.donemask.getLsbD (i - v.first)))
  else v.active mk

/-- The record of a stopped element; DETAIL names the elements done for causes 8 to 16 (R299). -/
def State.gatherRec (s : State) (v : View) (mk : BitVec 2) (w : Walk) (done : Word) (g : Gathered) : List FRec :=
  match g with
  | .empty i r => [s.memberRec 6 18 (BitVec.ofNat 64 r) i 0]
  | .stop i c =>
    if c = 37 then [s.memberRec 37 w.kind (w.addr i) i (s.watchMask v mk w i)]
    else [s.memberRec c w.kind (w.addr i) i (if 8 ≤ c ∧ c ≤ 16 then done else 0)]
  | _ => []

/-- Keep the first watch record only: matching elements are posted as one record (R345). -/
def oneWatch (l : List Gathered) (seen : Bool) : List Gathered :=
  match l with
  | [] => []
  | .stop i 37 :: r => if seen then oneWatch r true else .stop i 37 :: oneWatch r true
  | g :: r => g :: oneWatch r seen

/-- `vldx` (R231, R326). -/
def State.gatherElems (s : State) (v : View) (vd : BitVec 6) (mk : BitVec 2) (w : Walk) (srcs : List Src) : Out :=
  let d := v.dst vd
  let todo := s.gatherTodo v mk
  if s.regsBusy d.base d.regs || !v.longReady d todo then s.memWait v w
  else
    let gs := todo.map (s.gather1 v w srcs)
    match gs.findSome? (fun g => match g with | .other e => some e | _ => none) with
    | some e => s.elemEnd v mk w e
    | none =>
      let oks := gs.filterMap (fun g => match g with | .ok t => some t | _ => none)
      match gs.findSome? Gathered.stopIx with
      | none =>
        ((s.touchAll w oks []).launch_ v d none todo (s.values w.n oks) oks).elemEnd v mk w .all
      | some e =>
        let oks := oks.filter (fun t => decide (t.i < e + 64))
        let landed (i : Nat) : Bool := v.bit mk.toNat i && decide (i < v.vl) && (oks.any (fun t => t.i == i) || !todo.contains i)
        let done := BitVec.ofNat 64 ((List.range 64).foldl (fun m j => if 0 < j ∧ landed (e + j) then m + 2 ^ j else m) 0)
        let stops := oneWatch (gs.filter (fun g => match g.stopIx with | some i => decide (i < e + 64) | none => false)) false
        let exempt := stops.flatMap (fun g => match g with | .stop i 37 => maskNames i (s.watchMask v mk w i) | _ => [])
        let left := todo.filter (fun i => !oks.any (fun t => t.i == i))
        let s := ((s.longWrite v d todo (s.values w.n oks)).leaveEmpty v d left).touchAll w oks left
        .next (s.memberStop { estart := BitVec.ofNat 64 e, donemask := done, watchExempt := exempt }
          (stops.flatMap (s.gatherRec v mk w done)))

/-! ## Strips of a member (R229) -/

/-- A strip event of the member in execution: older strips commit first, and no buffered store may be held (R216,
R229, R311). -/
def State.memberEvent (s : State) (why : Nat) (k : State → Out) : Out :=
  match s.memberStrip with
  | none => k s
  | some i =>
    if s.me.strips.any (fun r => decide (r.id < i)) || s.bufHeld s.cur.src then .next s.memberWait
    else
      let s' := (s.commitStrips s.cur.src (· == i)).upd (fun t => t.markStripAt i why)
      if s.gone s' s.cur.src then .next s' else k s'

/-- A store that no buffer holds makes its strip non-rewindable (R229). -/
def State.markMember (s : State) (why : Nat) : State :=
  match s.memberStrip with
  | none => s
  | some i => s.upd (fun t => t.markStripAt i why)

/-! ## Stores (R233 to R235, R238) -/

/-- Consecutive elements that lie in one line. -/
def runsOf (l : List Touch) : List (List Touch) :=
  match l with
  | [] => []
  | t :: r =>
    match runsOf r with
    | (u :: us) :: rs => if u.va.toNat / 64 = t.va.toNat / 64 then (t :: u :: us) :: rs else [t] :: (u :: us) :: rs
    | rs => [t] :: rs

/-- The nibbles of its line that an access writes, and the line's bits there. -/
abbrev LineBits := Touch → BitVec 128 × BitVec 512

/-- An element of `n` bytes. -/
def elemBits (n : Nat) (val : Nat → Nat) : LineBits := fun t =>
  (lineMask (t.va.toNat % 64) n, lineData (t.va.toNat % 64) (leBytes n (val t.i)))

/-- Nibbles of its line that a run writes. -/
def runMask (f : LineBits) (l : List Touch) : BitVec 128 := l.foldl (fun m t => m ||| (f t).1) 0

/-- The line's bits a run writes: of two elements that write the same byte the later one remains (R234). -/
def runData (f : LineBits) (l : List Touch) : BitVec 512 :=
  l.foldl (fun d t => (d &&& ~~~(maskBits512 (f t).1)) ||| (f t).2) 0

/-- Elements whose run replaces its whole line (R321). -/
def fullElems (f : LineBits) (addr : Nat → Word) (l : List Nat) : List Nat :=
  ((runsOf (l.map (fun i => ⟨i, addr i, .wait⟩))).filter (fun r => runMask f r == BitVec.allOnes 128)).flatMap (fun r => r.map Touch.i)

/-- A run that a stop cut short meets the poison of its line after all (R321); one that this turn leaves off in is left for a
later turn. -/
def State.cutRun (s : State) (f : LineBits) (ts : List Touch) (e : ElemEnd) : List Touch × ElemEnd :=
  match e, (runsOf ts).getLast? with
  | .all, _ => (ts, e)
  | _, some (t :: r) =>
    if runMask f (t :: r) != BitVec.allOnes 128 && (match t.at_ with
        | .mem _ p => s.poisoned p.line 64
        | .scratch o => (s.core (coreOf s.cur.src)).scratchBad (o / 64 * 64) 64
        | _ => false) then
      let before := ts.take (ts.length - (r.length + 1))
      match e with
      | .part _ => (before, if before.isEmpty then .wait else .part t.i)
      | _ => (before, .error t.i)
    else (ts, e)
  | _, _ => (ts, e)

/-- Perform one run at strand scope; `every`: each replica of a replica set, in die order (R235). -/
def State.storeRun (s : State) (every : Bool) (strip : Option Nat) (how : How) (f : LineBits) (l : List Touch) : State :=
  match l with
  | [] => s
  | t :: _ =>
    match t.at_ with
    | .mem x p =>
      let m := runMask f l
      let b := runData f l
      let src := s.cur.src
      let put (s : State) (rep : Option Nat) (q : Place) : State :=
        s.storeBits src strip (t.va - BitVec.ofNat 64 (x.fa % 64)) (x.fa / 64 * 64) rep q { how with elems := l.length } m b
      if every && x.fme.kind == 5 then
        x.fme.replicaDies.foldl (fun s k => put s (some k) (match p.line with | .deep _ o => .deep k o | q => q)) s
      else put s (x.replica (dieOf src)) p.line
    | _ => s

/-- The stores of a member, in element order, as long as the strand stays. -/
def State.storeAll (s : State) (every : Bool) (strip : Option Nat) (how : How) (f : LineBits) (ts : List Touch) : State :=
  (runsOf ts).foldl (fun t r => if s.gone t s.cur.src then t else t.storeRun every strip how f r) s

/-- A member's stores have been made: it ends, where its strand has stayed. -/
def State.storesEnd (s s' : State) (v : View) (mk : BitVec 2) (w : Walk) (e : ElemEnd) : Out :=
  if s.gone s' s.cur.src then .next s' else s'.elemEnd v mk w e

/-- Entries of the strip buffer that the stores of a member may need (R229, R311). -/
def entriesFor (every : Bool) (ts : List Touch) : Nat := (runsOf ts).length * (if every then 8 else 1)

/-- The stores of a member would overflow the buffer while a line of it is held (R216, R311). -/
def State.storesHeld (s : State) (every : Bool) (ts : List Touch) : Bool :=
  s.memberStrip.isSome && s.overflowHeld s.cur.src (entriesFor every ts)

/-- Stores to the scratchpad, in element order (R226, R229); lines that `full` elements replace whole lose their poison (R321). -/
def State.scratchAll (s : State) (n : Nat) (val : Nat → Nat) (full : Nat → Bool) (ts : List Touch) : State :=
  let k := coreOf s.cur.src
  let put (c : Core) (u : Touch) : Core := match u.at_ with
    | .scratch o =>
      let c := if full u.i then { c with scratchPoison := c.scratchPoison.filter (fun l => !(c.scratchLines o n).contains l) } else c
      c.putScratch o (leBytes n (val u.i)) false
    | _ => c
  if ts.isEmpty then s else (s.setCore k (ts.foldl put (s.core k))).markMember 7

/-- The value of element `i` of the data group. -/
def View.val (v : View) (vs : BitVec 6) (i : Nat) : Nat := elem (v.src vs) v.ew i

/-- A vector store (R233). -/
def State.storeElems (s : State) (v : View) (vs : BitVec 6) (mk : BitVec 2) (hint : BitVec 2) (w : Walk) (srcs : List Src) : Out :=
  let every := w.acc == .writeAll
  let l := v.active mk
  let f := elemBits w.n (v.val vs)
  let fulls := fullElems f w.addr l
  let w := { w with full := fun i => fulls.contains i }
  let (ts, e) := s.walkSome v w srcs l
  let (ts, e) := s.cutRun f ts e
  if e = .wait ∨ e = .beyond then s.elemEnd v mk w e
  else if w.scratch then (s.scratchAll w.n (v.val vs) w.full ts).elemEnd v mk w e
  else if s.storesHeld every ts then s.memWait v w
  else s.storesEnd ((s.seeAll ts).storeAll every s.memberStrip { kind := w.kind, stream := hint == 1 } f ts) v mk w e

/-! ## The instructions -/

/-- The walk of a load or a store. -/
def walkOf (acc : Access) (kind : Nat) (v : View) (hint : BitVec 2) (addr : Nat → Word) : Walk :=
  { acc := acc, kind := kind, n := v.e, scratch := isScratch hint, addr := addr }

/-- A source group of the VTYPE width with an empty action. -/
def View.srcOf (v : View) (r : BitVec 6) (ex : BitVec 1) : Src := ⟨r.toNat, v.ew, ex == 1, id⟩

def execVld (x : VMUnit) (s : State) : Out :=
  s.vmem (.vld x) (fun v => s.loadElems v x.vd x.mask (walkOf .read 5 v x.hint (s.unitAddr v)))
def execVlds (x : VMStride) (s : State) : Out :=
  s.vmem (.vlds x) (fun v => s.loadElems v x.vd x.mask (walkOf .read 5 v x.hint s.strideAddr))
def execVldx (x : VMIndex) (s : State) : Out :=
  s.vmem (.vldx x) (fun v =>
    s.gatherElems v x.vd x.mask (walkOf .read 8 v x.hint (s.indexAddr v x.vx (x.q == 1))) [v.srcOf x.vx x.ex])
    (longDone x.vd)
def execVlda (x : VMAsync) (s : State) : Out :=
  s.vmem (.vlda x) (fun v =>
    s.asyncElems v x.vd x.mask (walkOf .read 5 v x.hint (if x.q = 1 then s.strideAddr else s.unitAddr v)))
    (fun v t => (longDone x.vd v t).asyncEnd s.asyncNum)
def execVst (x : VMUnit) (s : State) : Out :=
  s.vmem (.vst x) (fun v => s.storeElems v x.vd x.mask x.hint (walkOf .write 6 v x.hint (s.unitAddr v)) [v.srcOf x.vd x.ex])
def execVsts (x : VMStride) (s : State) : Out :=
  s.vmem (.vsts x) (fun v => s.storeElems v x.vd x.mask x.hint (walkOf .write 6 v x.hint s.strideAddr) [v.srcOf x.vd x.ex])
def execVstx (x : VMIndex) (s : State) : Out :=
  s.vmem (.vstx x) (fun v =>
    s.storeElems v x.vd x.mask x.hint (walkOf .write 9 v x.hint (s.indexAddr v x.vx (x.q == 1)))
      [v.srcOf x.vd x.ex, v.srcOf x.vx x.ex])
def execVstm (x : VMMulti) (s : State) : Out :=
  s.vmem (.vstm x) (fun v => s.storeElems v x.vd x.mask 0 (walkOf .writeAll 6 v 0 (s.unitAddr v)) [v.srcOf x.vd x.ex])

/-! ## vstrc (R238) -/

/-- The line keys that the accesses replace whole. -/
def coveredLines (f : LineBits) (l : List Touch) : List Nat :=
  (linesOf l).dedup.filter (fun k =>
    runMask f (l.filter (fun t => match t.at_ with | .mem _ p => lineOf p.key == k | _ => false)) == BitVec.allOnes 128)

/-- Record the reader count of a line, over the bytes memory held before the instruction; a count it carried has been written
back, unless it is the instruction's own from before it stopped. -/
def State.setCount (s : State) (before : State) (resumed : Bool) (count k : Nat) : State :=
  let old := match before.counted.find k with
    | some c => if resumed then c.old else before.lineBytes k
    | none => before.memLine k
  { s with counted := s.counted.set k ⟨count, old⟩, msc := s.msc.erase k }

/-- `vstrc` stores the lines it covers whole in the MSC, once its strip has committed, and the others as `vst` does; it records the
count of each line it covers whole. -/
def execVstrc (x : VStrcOp) (s : State) : Out :=
  s.vmem (.vstrc x) (fun v =>
    let l := v.active x.mask
    let addr := s.unitAddr v
    let f := elemBits v.e (v.val x.vd)
    let fulls := fullElems f addr l
    let w : Walk := { walkOf .write 6 v 0 addr with full := fun i => fulls.contains i }
    let (ts, e) := s.walk1 v w [v.srcOf x.vd x.ex] l
    let (ts, e) := s.cutRun f ts e
    if e = .wait ∨ e = .beyond then s.elemEnd v x.mask w e
    else s.memberEvent 2 (fun s =>
      if s.flying s.cur.src then s.memWait v w else
      let all := (List.range v.vl).filter (v.bit x.mask.toNat) |>.map (fun i => (⟨i, addr i, s.elemReach v w i⟩ : Touch))
      let lines := (coveredLines f all).filter (fun k => (linesOf ts).contains k)
      let s0 := lines.foldl State.leaveL1 ({ s with flyHold := false }.seeAll ts)
      let s' := { (runsOf ts).foldl (fun t r => t.storeRun false none { stream := (linesOf r).any lines.contains } f r) s0 with
        flyHold := s.flyHold }
      (lines.foldl (fun t k => t.setCount s v.resumed s.cur.op1.toNat k) s').elemEnd v x.mask w e))

/-! ## Vector atomics (R236, R237) -/

/-- One element: the new value and the classes raised. -/
def amoElem (op code ew old b c : Nat) : Nat × Nat :=
  if code = 0x0C then fp32.add rne old b
  else
    let k := match op with
      | 3 => if isSignedInt code then 3 else 5
      | 4 => if isSignedInt code then 4 else 6
      | n => n
    (amoNew k ew old b c, 0)

/-- The elements of a vector atomic in order: each is one indivisible step at its location. Results are the old values
and the classes; it ends at a stop, or at a trap-enabled class. -/
def State.amoRun (s : State) (v : View) (w : Walk) (srcs : List Src) (op : Nat) (b c : Nat → Nat) (l : List Nat) :
    State × List (Nat × Nat × Nat) × Sum ElemEnd LaneEnd :=
  match l with
  | [] => (s, [], .inl .all)
  | i :: r =>
    match s.walk1 v w srcs [i] with
    | ([t], _) =>
      match t.at_ with
      | .mem x p =>
        let s := s.payOwed (dieOf s.cur.src) p
        let old := leNat (s.readPlace p w.n)
        let (y, fl) := amoElem op v.code v.ew old (b i) (c i)
        match (if v.resumed && i == v.first then none else trapClass fl v.trapen) with
        | some k => (s, [], .inr (.trap i k fl))
        | none =>
          let s := ((s.meetLines (dieOf s.cur.src) [p]).performNow s.cur.src t.va p (leBytes w.n y)).touch s.cur.src s.memberStrip t.va x
          let (s, l, e) := State.amoRun s v w srcs op b c r
          (s, (i, old, fl) :: l, e)
      | _ => (s, [], .inl .wait)
    | (_, e) => (s, [], .inl e)

/-- A release order waits for the strand's earlier scalar accesses (R264 note d). -/
def State.releaseReady (s : State) (order : BitVec 2) (k : State → Out) : Out :=
  if order ≠ 0 then
    let s' := s.drain s.cur.src
    if s.gone s' s.cur.src then .next s' else if s'.me.ssq.isEmpty then k s' else .next s'.memberWait
  else k s

/-- What a vector atomic comes to after its elements. -/
def State.amoEnd (s : State) (v : View) (x : VAmoOp) (w : Walk) (res : List (Nat × Nat × Nat)) (e : Sum ElemEnd LaneEnd) : Out :=
  let d := v.dst x.vd
  let stop := match e with | .inl e => e.stopAt (v.size d) | .inr e => e.stopAt (v.size d)
  let new := putLanes (v.x.grp v.vlb d.base d.regs) d.ew v.first stop v.zero res
  let s :=
    if x.q = 0 then s
    else if e = .inl .all then s.writeGroup v.vlb d.base d.regs new (v.fillAt d.ew)
    else if stop ≤ v.first then s
    else s.writePart v.vlb d new stop
  let s := s.upd (fun t => { t with vec := t.vec.creditAll res })
  match e with
  | .inl e => s.elemEnd v x.mask w e
  | .inr e => .next ((s.upd (fun t => { t with vec := t.vec.creditEnd e })).laneStop e 7)

/-- A vector atomic: `groups` operand groups from vd on. -/
def State.vamo (s : State) (i : Instr) (x : VAmoOp) (op groups : Nat) : Out :=
  s.vmem i (fun v =>
    let l := v.active x.mask
    let w : Walk := { acc := .atomic, kind := 7, n := v.e, scratch := false, addr := s.indexAddr v x.vx false }
    let d := v.dst x.vd
    let srcs := v.srcOf x.vx x.ex :: (List.range groups).map (fun k => ⟨x.vd.toNat + k * v.g, v.ew, x.ex == 1, id⟩)
    let b := fun i => elem (v.src x.vd) v.ew i
    let c := fun i => elem (v.x.grp v.vlb (x.vd.toNat + v.g) v.g) v.ew i
    match l with
    | [] => s.releaseReady x.order (fun s => s.memberEvent 1 (fun s => s.amoEnd v x w [] (.inl .all)))
    | e :: _ =>
      if v.code = 0x0C ∧ s.me.bind.det then
        .next (s.memberStop { estart := BitVec.ofNat 64 e } [s.memberRec 20 7 0 e 0] true)
      else
        let (ts, first) := s.walkSome v w srcs l
        let l := match first with | .part _ => ts.map Touch.i | _ => l
        if first = .wait ∨ first = .beyond then s.elemEnd v x.mask w first
        else if x.q = 1 ∧ (s.regsBusy d.base d.regs ∨ !v.oldReady d l) then s.memWait v w
        else s.releaseReady x.order (fun s => s.memberEvent 1 (fun s =>
          if s.flying s.cur.src then s.memWait v w else
          let (s, res, e) := s.amoRun v w srcs op b c l
          s.amoEnd v x w res (match e, first with | .inl .all, .part i => .inl (.part i) | e, _ => e))))

def execVamoadd (x : VAmoOp) (s : State) : Out := s.vamo (.vamoadd x) x 0 1
def execVamoswap (x : VAmoOp) (s : State) : Out := s.vamo (.vamoswap x) x 1 1
def execVamocas (x : VAmoOp) (s : State) : Out := s.vamo (.vamocas x) x 2 2
def execVamomin (x : VAmoOp) (s : State) : Out := s.vamo (.vamomin x) x 3 1
def execVamomax (x : VAmoOp) (s : State) : Out := s.vamo (.vamomax x) x 4 1

/-! ## Granules (R180, R181) -/

/-- The byte that holds granule `j` of a stream at granule address `ga` (R5). -/
def granuleByte (ga : Word) (j : Nat) : Word := (ga + BitVec.ofNat 64 j) >>> 1

/-- Granule `j` in its line: the nibble of its address. -/
def granuleBits (ga : Word) (val : Nat → Nat) : LineBits := fun t =>
  let k := (ga + BitVec.ofNat 64 t.i).toNat % 128
  (BitVec.ofNat 128 (2 ^ k), BitVec.ofNat 512 (val t.i % 16 * 2 ^ (4 * k)))

/-- The granule of the byte that was read: the odd one is the high nibble (R5). -/
def granuleOf (ga : Word) (j byte : Nat) : Nat := if (ga.toNat + j) % 2 = 1 then byte / 16 % 16 else byte % 16

/-- A granule access that is complete writes its grant (R181). -/
def State.setGrant (s : State) (g : BitVec 3) (w : Word) : State :=
  s.upd (fun t => { t with vec := { t.vec with g := t.vec.g.set g.toNat w } })

/-- The grant of a granule access, written when it completes. -/
def State.grantAt (s : State) (g : BitVec 3) (e : ElemEnd) (w : Word) : State := if e = .all then s.setGrant g w else s

def execVldg (x : VGranOp) (s : State) : Out :=
  s.vmem (.vldg x) (fun v =>
    let ga := s.cur.op0
    let n := min s.cur.op1.toNat v.vl
    let l := (List.range n).filter (fun j => decide (v.first ≤ j))
    let d : VDst := ⟨x.vd.toNat, v.g, 4⟩
    let w : Walk := { acc := .read, kind := 11, n := 1, scratch := false, addr := granuleByte ga }
    if s.regsBusy d.base d.regs || !v.oldReady d l then s.memWait v w
    else
      let (ts, e) := s.walk1 v w [] l
      if e = .wait ∨ e = .beyond then s.elemEnd v 0 w e
      else
        let res := (s.values 1 ts).map (fun r => (r.1, granuleOf ga r.1 r.2, 0))
        let s' := s.writeGroup v.vlb d.base d.regs
          (putLanes (v.x.grp v.vlb d.base d.regs) 4 v.first (e.stopAt (v.size d)) v.zero res) n
        ((s'.touchAll w ts (l.drop ts.length)).grantAt x.g e (grantWord n 0 0 n)).elemEnd { v with vl := n } 0 w e)
    (fun v t => t.setGrant x.g (grantWord (min s.cur.op1.toNat v.vl) 0 0 (min s.cur.op1.toNat v.vl)))

/-- Granules a `vstg` stores. -/
def State.granuleCount (s : State) (vs : BitVec 6) (v : View) : Nat := min s.cur.op1.toNat (v.x.groupFill v.vlb vs.toNat v.g)

/-- `vstg`: its granules are not limited by VL (R181). -/
def execVstg (x : VGranOp) (s : State) : Out :=
  s.vmemOf (.vstg x) (s.granuleCount x.vd) (fun v =>
    let ga := s.cur.op0
    let n := s.granuleCount x.vd v
    let l := (List.range n).filter (fun j => decide (v.first ≤ j))
    let f := granuleBits ga (fun j => granule (v.src x.vd) j)
    let fulls := fullElems f (granuleByte ga) l
    let w : Walk := { acc := .write, kind := 12, n := 1, scratch := false, addr := granuleByte ga, full := fun i => fulls.contains i }
    let (ts, e) := s.walk1 v w [⟨x.vd.toNat, 4, false, id⟩] l
    let (ts, e) := s.cutRun f ts e
    if e = .wait ∨ e = .beyond then s.elemEnd v 0 w e
    else if s.storesHeld false ts then s.memWait v w
    else
      let s' := (s.seeAll ts).storeAll false s.memberStrip { kind := 12 } f ts
      s.storesEnd (if s.gone s' s.cur.src then s' else s'.grantAt x.g e (grantWord n n 0 0)) { v with vl := min n v.vl } 0 w e)
    (fun v t => t.setGrant x.g (grantWord (s.granuleCount x.vd v) (s.granuleCount x.vd v) 0 0))

/-! ## vwait (R239) -/

/-- `vwait`: the member waits until the counter is reached, and so keeps every later vector memory member waiting. -/
def execVwait (x : VWaitOp) (s : State) : Out :=
  s.vmemOf (.vwait x) (fun _ => 1) (fun v =>
    let v := { v with vl := 1, first := 0 }
    let w : Walk := { acc := .read, kind := 5, n := 8, scratch := false, addr := fun _ => s.cur.op0 }
    match s.walk1 v w [] [0] with
    | ([⟨_, _, .mem x p⟩], _) =>
      if s.cur.op1.toNat ≤ leNat (s.loadBytes s.cur.src x p 8) then
        .next (((s.touch s.cur.src s.memberStrip s.cur.op0 x).readLines (dieOf s.cur.src) [p]).memberDone true)
      else s.memWait v w
    | (_, e) => s.elemEnd v 0 w e 0 true)

end Sys2Proof.Machine
end

