-- ==== Sys2Proof/Machine/Copy.lean ====
section
/-! DEFINITION. The copy instructions and the copy engine (R248 to R253, R321), and the counters of the engine timelines
(R246). -/

namespace Sys2Proof.Machine

/-! ## Issue (R248) -/

/-- An engine operation is issued: the strip commits, and the strand's earlier stores have reached their homes (R229, R246). -/
def State.engineIssue (s : State) (k : State → Out) : Out :=
  let s' := s.drain s.cur.src
  if s.gone s' s.cur.src then .next s'
  else if !s'.me.ssq.isEmpty then .next s'.memberWait
  else s'.memberEvent 4 (fun s => if s.flying s.cur.src then .next s.memberWait else k (s.upd Strand.fixReads))

/-- The copy of the member in execution. -/
def State.newCopy (s : State) (kind : CpKind) (dst len : Nat) : CpOp :=
  { num := (s.convoy?.bind Convoy.nCp).getD 0, kind := kind, src := s.cur.op0, dst := dst, len := len,
    line := s.cur.cpLine.getD 0, seq := s.cur.seq, pc := s.cur.pc, member := s.cur.slot }

/-- Hand a copy to the engine. -/
def State.sendCopy (s : State) (o : CpOp) : State := (s.upd (fun t => { t with cpq := t.cpq ++ [o] })).memberDone (o.kind == .cpyv)

/-- A copy that is complete as it resumes completes its number (R301, R246). -/
def State.passCopy (s : State) : State :=
  match s.convoy?.bind Convoy.nCp with
  | some n => s.upd (fun t => { t with tlCopy := { t.tlCopy with complete := t.tlCopy.complete ++ [n] } })
  | none => s

def execCpy (x : CpyOp) (s : State) : Out :=
  s.vmemOf (.cpy x) (fun _ => 2 ^ 64) (fun _ => s.engineIssue (fun s =>
    .next (s.sendCopy { s.newCopy .cpy s.cur.cpyDst.toNat s.cur.op1.toNat with
      hint := x.hint.toNat, decrypt := x.q == 1, chunk := s.cur.cpyChunk })))
    (fun _ => State.passCopy)

/-- Element groups of a destination that a copy is to fill, from line `first` on; line i of the source is element
group i. -/
def copyGroups (vlb : Nat) (d : VDst) (first lines : Nat) : List Landing :=
  ((List.range lines).filter (fun i => decide (first ≤ i))).map (fun i =>
    { seq := 0, reg := d.base + i * 512 / vlb, grp := i * 512 % vlb / 512, ew := 512, elems := [], num := none })

/-- `cpyv` (R251): fill and empty groups are set at issue. -/
def execCpyv (x : CpyvOp) (s : State) : Out :=
  s.vmemOf (.cpyv x) (fun _ => 2 ^ 64) (fun v =>
    let d := v.dst x.vd
    let len := v.vl * v.e
    let first := s.cur.cpLine.getD 0
    if s.regsBusy d.base d.regs || !v.oldReady d (List.range v.vl) then .next s.memberWait
    else s.engineIssue (fun s =>
      let keep := min v.vl (first * 64 / v.e)
      let new := putLanes (v.x.grp v.vlb d.base d.regs) d.ew keep (v.size d) v.zero []
      let s := (s.writeGroup v.vlb d.base d.regs new (v.fillAt d.ew)).upd (fun t =>
        { t with vec := t.vec.empty (copyGroups v.vlb d first ((len + 63) / 64)) })
      .next (s.sendCopy { s.newCopy .cpyv x.vd.toNat len with
        ew := v.ew, hint := x.hint.toNat, regs := d.regs, live := (List.range d.regs).map (d.base + ·) })))
    (fun _ => State.passCopy)

def execCpyw (x : CpywOp) (s : State) : Out :=
  s.vmemOf (.cpyw x) (fun _ => 2 ^ 64) (fun _ => s.engineIssue (fun s =>
    .next (s.sendCopy (s.newCopy .cpyw x.slot.toNat s.cur.op1.toNat))))
    (fun _ => State.passCopy)

/-! ## Lines of a copy (R249, R253) -/

/-- What a piece of a copy meets. -/
inductive CopyStop where
  | stop (cause : Nat) (va : Word)
  | wait
  | beyond
  deriving DecidableEq, Repr

/-- A piece of a line: bytes within one page. -/
structure Piece where
  va : Word
  off : Nat
  n : Nat
  xl : Xl
  p : Place
  deriving DecidableEq, Repr

/-- One piece, translated for a strand's copy engine. -/
def State.piece (s : State) (src : Nat) (acc : Access) (va : Word) (off n : Nat) : Except CopyStop Piece :=
  let t := s.strand src
  if s.walkBusy (dieOf src) t.bind.ctx va.toNat then .error .wait
  else match s.translate (dieOf src) t.bind.ctx t.bind.secure acc va with
  | .error c => .error (.stop c va)
  | .ok x => match x.place with
    | none => .error (.stop Cause.braidAccess va)
    | some p =>
      if !p.exists then .error .beyond
      else if (acc.needsW && x.fme.w) || s.placeBusy p then .error .wait
      else .ok ⟨va, off, n, x, p⟩

/-- The pieces of `n` bytes at `va`: two where a page ends among them. -/
def State.pieces (s : State) (src : Nat) (acc : Access) (va : Word) (n : Nat) : Except CopyStop (List Piece) :=
  let k := min n (65536 - va.toNat % 65536)
  match s.piece src acc va 0 k with
  | .error e => .error e
  | .ok a =>
    if k = n then .ok [a]
    else match s.piece src acc (va + BitVec.ofNat 64 k) k (n - k) with
      | .error e => .error e
      | .ok b => .ok [a, b]

/-- A line of a copy's source: its bytes, whether a line they lie in is poisoned, and its pieces. -/
structure CopyLine where
  i : Nat
  bytes : List Byte
  bad : Bool
  from_ : List Piece
  deriving DecidableEq, Repr

/-- Bytes of line `i` of `len`. -/
def lineLen (len i : Nat) : Nat := min 64 (len - 64 * i)

/-- Read line `i` of a copy's source. -/
def State.copyRead (s : State) (src : Nat) (o : CpOp) (len i : Nat) : Except CopyStop CopyLine :=
  let n := lineLen len i
  let va := o.src + BitVec.ofNat 64 (64 * i)
  if o.kind = .cpyv ∧ o.hint = 2 then
    let c := s.core (coreOf src)
    if 65536 * c.ways < va.toNat + n then .error (.stop Cause.addressRange va)
    else .ok ⟨i, Memory.readBytes c.scratch (c.scratchKey va.toNat) n, c.scratchBad va.toNat n, []⟩
  else match s.pieces src .read va n with
    | .error e => .error e
    | .ok ps => .ok ⟨i, ps.flatMap (fun q => s.readPlace q.p q.n), ps.any (fun q => s.poisoned q.p q.n), ps⟩

/-- Read lines in order, up to the first that stops; a `cpyv` stops at a poisoned line (R251). -/
def State.copyReads (s : State) (src : Nat) (o : CpOp) (len : Nat) (l : List Nat) : List CopyLine × Option (Nat × CopyStop) :=
  match l with
  | [] => ([], none)
  | i :: r =>
    match s.copyRead src o len i with
    | .error e => ([], some (i, e))
    | .ok c =>
      if o.kind = .cpyv ∧ c.bad then ([], some (i, .stop Cause.poison (o.src + BitVec.ofNat 64 (64 * i))))
      else
        let (cs, e) := State.copyReads s src o len r
        (c :: cs, e)

/-- Source number of the copy engine of a strand's core (R12). -/
def copySource (src : Nat) : Nat := dieOf src * 128 + 64 + coreOf src % 16

/-- The 64-byte lines a piece lies in: their addresses div 64, and their numbers. -/
def Piece.lines (q : Piece) : List (Nat × Nat) :=
  (List.range ((q.p.key % 64 + q.n + 63) / 64)).map (fun k => (q.va.toNat / 64 + k, lineOf q.p.key + k))

/-- Bookkeeping of a source line: caches, tracker (R208, R218), and what reading it does. A line of memory counts as read with the
last byte the copy reads in it (R238). -/
def State.copyTouch (s : State) (src : Nat) (o : CpOp) (c : CopyLine) : State :=
  let s := c.from_.foldl (fun s q => s.cacheXl (dieOf src) (s.ctxOf src) q.va q.xl) s
  let s := match c.from_ with | q :: _ => s.countAccess (dieOf src) (copySource src) q.xl | [] => s
  let next := (o.src + BitVec.ofNat 64 (64 * (c.i + 1))).toNat / 64
  let ls := c.from_.flatMap Piece.lines
  let done := ls.filter (fun l => !(decide (64 * (c.i + 1) < o.len) && l.1 == next))
  (s.countReads (done.map Prod.snd)).meetLines (dieOf src) (c.from_.flatMap (fun q => q.lines.zipIdx.map (fun (_, k) => q.p.line.plus (64 * k))))

/-- Lines that the copy has poisoned itself. -/
def State.copyMarks (s : State) (src : Nat) (o : CpOp) : List Nat :=
  match (s.strand src).cpq.find? (fun c => c.num == o.num) with
  | some c => c.marks
  | none => []

/-- Change a copy of the CPQ. -/
def Strand.updCopy (t : Strand) (num : Nat) (f : CpOp → CpOp) : Strand := { t with cpq := t.cpq.map (fun c => if c.num = num then f c else c) }

/-- The copy has poisoned lines of its destination. -/
def State.markCopy (s : State) (src : Nat) (o : CpOp) (ls : List Nat) : State :=
  s.updAt src (fun t => t.updCopy o.num (fun c => { c with marks := c.marks ++ ls }))

/-- Write a line of a `cpy` at its pieces; a poisoned source poisons it (R321). -/
def State.copyPut (s : State) (src : Nat) (o : CpOp) (c : CopyLine) (ps : List Piece) : State :=
  let s := ps.foldl (fun s q =>
    (s.performNow src q.va q.p ((c.bytes.drop q.off).take q.n) (some o.num)).cacheXl (dieOf src) (s.ctxOf src) q.va q.xl) s
  let s := match ps with | q :: _ => s.countAccess (dieOf src) (copySource src) q.xl | [] => s
  if c.bad then
    let ls := (ps.flatMap Piece.lines).map Prod.snd
    (ls.foldl (fun s k => s.setPoison k true) s).markCopy src o ls
  else s

/-- A partial write to a poisoned line, by a line that is not poisoned itself (R321): of a line that the copy has poisoned itself
nothing is raised, and the poison stays. -/
def State.copyPartial (s : State) (src : Nat) (o : CpOp) (c : CopyLine) (ps : List Piece) : Bool :=
  !c.bad && ps.any (fun q => !(q.p.key % 64 == 0 && q.n % 64 == 0)
    && q.lines.any (fun l => s.poison.contains l.2 && !(s.copyMarks src o).contains l.2))

/-- Write lines of a `cpy` in order, up to the first that stops; what a line was read from counts as read as it is written. -/
def State.copyWrites (s : State) (src : Nat) (o : CpOp) (l : List CopyLine) : State × Option (Nat × CopyStop) :=
  match l with
  | [] => (s, none)
  | c :: r =>
    let va := BitVec.ofNat 64 (o.dst + 64 * c.i)
    if o.hint = 2 then
      let k := coreOf src
      let core := s.core k
      if 65536 * core.ways < va.toNat + c.bytes.length then (s, some (c.i, .stop Cause.addressRange va))
      else if !c.bad && !(va.toNat % 64 == 0 && c.bytes.length % 64 == 0)
          && (core.scratchLines va.toNat c.bytes.length).any (fun l => core.scratchPoison.contains l && !(s.copyMarks src o).contains l) then
        (s, some (c.i, .stop Cause.poison va))
      else
        let s := s.copyTouch src o c
        let s := if c.bad then s.markCopy src o (core.scratchLines va.toNat c.bytes.length) else s
        State.copyWrites (s.setCore k ((s.core k).putScratch va.toNat c.bytes c.bad)) src o r
    else match s.pieces src .write va c.bytes.length with
      | .error e => (s, some (c.i, e))
      | .ok ps =>
        if s.copyPartial src o c ps then (s, some (c.i, .stop Cause.poison va))
        else State.copyWrites ((s.copyTouch src o c).copyPut src o c ps) src o r

/-- A line of a `cpyv` in its register, whose group is full (R66, R251). -/
def CpOp.lineInto (o : CpOp) (vlb : Nat) (c : CopyLine) (x : VecState) : VecState :=
  let reg := o.dst + c.i * 512 / vlb
  let g := c.i * 512 % vlb / 512
  let old := (x.reg reg).toNat
  let bits := 8 * c.bytes.length
  let line := elem old 512 g / 2 ^ bits * 2 ^ bits + leNat c.bytes
  { x with v := x.v.set reg (BitVec.ofNat 8192 (setElem old 512 g line)), full := x.full.set reg (x.fullOf reg ||| BitVec.ofNat 16 (2 ^ g)) }

/-- Write a line of a `cpyv` into its register, where no later write has superseded it. -/
def Strand.landLine (t : Strand) (vlb : Nat) (o : CpOp) (c : CopyLine) : Strand :=
  let reg := o.dst + c.i * 512 / vlb
  let t := if o.live.contains reg then { t with vec := o.lineInto vlb c t.vec } else t
  t.landSnaps o.seq reg (o.lineInto vlb c)

/-- Write a line of a `cpyw` into its slot; the slot line takes the source line's poison (R321). -/
def Strand.slotLine (t : Strand) (o : CpOp) (c : CopyLine) : Strand :=
  let a := o.dst * 32768 + 64 * c.i
  let marks := t.slotPoison.filter (· != a / 64)
  { t with slots := Memory.writeBytes t.slots a c.bytes, slotPoison := if c.bad then marks ++ [a / 64] else marks }

/-! ## The copy engine (R248, R253) -/

/-- A `cpyw` waits while an earlier matrix instruction may still read its slot (R296). -/
def Strand.slotRead (t : Strand) (o : CpOp) : Bool :=
  t.mxq.any (fun m => m.slot == o.dst && !m.done && (decide (m.seq < o.seq) || (m.seq == o.seq && decide (m.member < o.member))))

/-- A copy is complete: its number is, and it leaves the CPQ. -/
def Strand.copyDone (t : Strand) (o : CpOp) : Strand :=
  { t with cpq := t.cpq.filter (fun c => c.num != o.num), tlCopy := { t.tlCopy with complete := t.tlCopy.complete ++ [o.num] } }

/-- The writes of a copy to host locations are acknowledged (R335). -/
def State.copyAcked (s : State) (src num : Nat) : Bool :=
  !s.ports.any (fun (_, p) => p.inflight.any (fun r => r.source == src && r.copy == some num))

/-- Every line of a copy is written: it is complete once its writes are performed at system scope (R272, R335). -/
def State.copyFinish (s : State) (src : Nat) (o : CpOp) : State :=
  s.updAt src (fun t => if s.copyAcked src o.num then t.copyDone o else t.updCopy o.num (fun c => { c with sent := true }))

/-- The strand is held by a stop of a copy at element `elem`, with its record; the copy resumes at line `line`, the first it has
not written (R253). -/
def State.copyStopAt (s : State) (src : Nat) (o : CpOp) (line cause kind elem : Nat) (va : Word) : State :=
  let s := s.updAt src (fun t => { t.updCopy o.num (fun c => { c with line := line }) with cpHeld := true })
  s.takeStop src (s.strand src).pc
    [{ s.record src cause kind va (BitVec.ofNat 32 elem) o.member o.pc 0 with source := copySource src }]

/-- The strip of the convoy that issued a copy. -/
def Strand.copyStrip (t : Strand) (o : CpOp) : Option Nat :=
  (t.viq.find? (fun v => v.seq == o.seq)).bind (fun v => if v.strip = 0 then none else some v.strip)

/-- What a copy met at line `i`: `read` tells the source from the destination, `line` is the first line it has not written. -/
def State.copyEnd (s : State) (src : Nat) (o : CpOp) (read : Bool) (line i : Nat) (e : CopyStop) : Out :=
  let kind := if read then 14 else 15
  match e with
  | .wait => .next (s.updAt src (fun t => t.updCopy o.num (fun c => { c with line := line })))
  | .beyond => .fault .locationBeyondSpace
  | .stop c va =>
    if c = Cause.poison then
      if o.kind = .cpyv then .next (s.copyStopAt src o line c kind (i * 64 / (o.ew / 8)) va)
      else .next (s.consumeError src c kind va (BitVec.ofNat 32 i) o.member o.pc ((s.strand src).copyStrip o))
    else .next (s.copyStopAt src o line c kind i va)

/-- Lines of a copy from its first unwritten one on. -/
def CpOp.lines (o : CpOp) (len : Nat) : List Nat := (List.range ((len + 63) / 64)).filter (fun i => decide (o.line ≤ i))

/-- Bytes of a copy within one page: their offset in the copy, the key of the first, and how many. -/
structure Span where
  off : Nat
  key : Nat
  n : Nat
  deriving DecidableEq, Repr

/-- The spans of `n` bytes at `va`, page by page; a page that cannot be reached has none. -/
def State.spans (s : State) (src : Nat) (acc : Access) (va : Word) (off n fuel : Nat) : List Span :=
  match fuel with
  | 0 => []
  | f + 1 =>
    let k := min n (65536 - va.toNat % 65536)
    let rest := State.spans s src acc (va + BitVec.ofNat 64 k) (off + k) (n - k) f
    if n = 0 then [] else match s.piece src acc va 0 k with
      | .ok q => ⟨off, q.p.key, k⟩ :: rest
      | .error _ => rest

/-- The destination covers bytes of the source: any (`all`), or such as the copy would read after it has written them. -/
def clash (all : Bool) (from_ into : List Span) : Bool :=
  from_.any (fun a => into.any (fun b =>
    decide (a.key < b.key + b.n) && decide (b.key < a.key + a.n) && (all || decide (b.off + a.key < a.off + b.key))))

/-- A copy whose destination overlaps its source so that its lines cannot be written one by one as they are read (R249): `all`
where the whole source is needed for every line. -/
def State.overlapping (s : State) (src : Nat) (o : CpOp) (len : Nat) (all : Bool) : Bool :=
  o.hint ≠ 2 && clash all (s.spans src .read o.src 0 len (len / 65536 + 2)) (s.spans src .write (BitVec.ofNat 64 o.dst) 0 o.len (o.len / 65536 + 2))

/-- The first destination line that cannot be written. -/
def State.copyMeets (s : State) (src : Nat) (o : CpOp) (l : List CopyLine) : Option (Nat × CopyStop) :=
  l.findSome? (fun c =>
    let va := BitVec.ofNat 64 (o.dst + 64 * c.i)
    match s.pieces src .write va c.bytes.length with
    | .error e => some (c.i, e)
    | .ok ps => if s.copyPartial src o c ps then some (c.i, .stop Cause.poison va) else none)

/-- Write the lines of a `cpy` that were read, and take what was met: in the destination, then in the source (`e`). A copy that is
to be written as a whole (`whole`) writes nothing where it meets something (R249). -/
def State.copyStore (s : State) (src : Nat) (o : CpOp) (whole : Bool) (cs : List CopyLine) (e : Option (Nat × CopyStop)) (k : State → Out) : Out :=
  match (if whole then e.map (fun x => (true, x)) |>.or ((s.copyMeets src o cs).map (fun x => (false, x))) else none) with
  | some (read, i, x) => s.copyEnd src o read o.line i x
  | none =>
    let (s', w) := s.copyWrites src o cs
    match w, e with
    | some (i, x), _ => s'.copyEnd src o false i i x
    | none, some (i, x) => s'.copyEnd src o true i i x
    | none, none => k (s'.copyFinish src o)

/-- A copy of plain bytes, into memory, registers or a slot; with a limit, no more lines of it than that in this step, so that
others see it in part (R272). -/
def State.copyRun (s : State) (src : Nat) (o : CpOp) (limit : Option Nat) : Out :=
  let ls := o.lines o.len
  let (cs, e) := s.copyReads src o o.len (match limit with | some n => ls.take n | none => ls)
  let e := match e, ls.drop cs.length with
    | none, i :: _ => some (i, CopyStop.wait)
    | e, _ => e
  match o.kind with
  | .cpy => s.copyStore src o (s.overlapping src o o.len false) cs e .next
  | k =>
    let vlb := s.vlb src
    let s' := (cs.foldl (fun s c => s.copyTouch src o c) s).updAt src (fun t => cs.foldl (fun t c => if k = .cpyv then t.landLine vlb o c else t.slotLine o c) t)
    match e with
    | some (i, x) => s'.copyEnd src o true i i x
    | none => .next (s'.copyFinish src o)

/-- The first byte of a destination that is not secure, in 64-byte lines (R78). -/
def State.openLine (s : State) (src : Nat) (o : CpOp) : Option (Nat × Word) :=
  ((List.range ((o.len + 63) / 64)).map (fun i => (i, BitVec.ofNat 64 (o.dst + 64 * i)))).find? (fun (i, va) =>
    match s.pieces src .write va (lineLen o.len i) with
    | .ok ps => !ps.all (fun q => q.xl.fme.s || s.regionSecure q.p)
    | .error _ => false)

/-- The launch of a strand has met a chunk that failed its tag: CAUSE 17 unless it has one (R78). -/
def State.sealFailed (s : State) (k : LaunchKey) : State :=
  let l := s.launch k
  if (look s.launches k).isSome then s.setLaunch k { l with cause := if l.cause = 0 then 17 else l.cause } else s

/-- A decrypting copy (R78, R250): source, tag, and the plain text or zeros; a line whose source line is poisoned is written
poisoned (R321). The scratchpad is taken as a secure destination (assumption 73). -/
def State.copyOpen (s : State) (src : Nat) (o : CpOp) : Out :=
  let b := (s.strand src).bind
  match (if o.hint = 2 then none else s.openLine src o) with
  | some (i, va) => .next (s.copyStopAt src o o.line Cause.world 15 i va)
  | none =>
    let len := o.len + 16
    let (cs, e) := s.copyReads src o len ((List.range ((len + 63) / 64)))
    match e with
    | some (i, x) => s.copyEnd src o true o.line i x
    | none =>
      let all := cs.flatMap CopyLine.bytes
      let plain := openChunk (s.keys.getD (s.context b.ctx).keySlot.toNat 0) o.chunk (all.take o.len) (all.drop o.len)
      let out := plain.getD (List.replicate o.len 0)
      let bad (i : Nat) : Bool := cs.any (fun c => c.i == i && c.bad)
      let last := (o.len + 63) / 64
      let read (i : Nat) : List Piece := (cs.filter (fun c => c.i == i || (i + 1 == last && decide (last ≤ c.i)))).flatMap CopyLine.from_
      let ws := (o.lines o.len).map (fun i => (⟨i, (out.drop (64 * i)).take 64, bad i, read i⟩ : CopyLine))
      s.copyStore src o (s.overlapping src o len true) ws none (fun s =>
        if plain.isSome then .next s
        else .next ((s.sealFailed b.launch).notice src
          { s.record src 38 15 (BitVec.ofNat 64 o.dst) 0 o.member o.pc o.chunk with source := copySource src }))

/-- The strand's first copy is carried out, as far as it goes and a limit allows. -/
def State.copyTurn (s : State) (src : Nat) (limit : Option Nat) : Out :=
  let t := s.strand src
  match t.cpq with
  | [] => .next s
  | o :: _ =>
    if t.cpHeld || (o.kind = .cpyw && t.slotRead o) then .next s
    else if o.sent then .next (s.copyFinish src o)
    else if o.kind = .cpyv ∧ 0 < o.len ∧ o.src.toNat % (o.ew / 8) ≠ 0 then
      .next (s.copyStopAt src o o.line Cause.misaligned 14 0 o.src)
    else if o.decrypt then s.copyOpen src o
    else s.copyRun src o limit

/-- COPY_ENGINE_START (R248). -/
def execCopyEngineStart (src : Nat) (s : State) : Out := s.copyTurn src none

/-! ## Counters (R246) and landings (R66) -/

/-- TIMELINE_COUNTER_WRITE: the counter takes the largest complete prefix; it waits while its frame moves (R216). -/
def execTimelineCounterWrite (src k : Nat) (s : State) : Out :=
  .next (if s.counterBlocked src k then s else s.writeCounter src k)

/-- ELEMENT_GROUP_LAND (R66, R231): an element group of a `vlda` or `vldx` lands. -/
def execElementGroupLand (src ix : Nat) (s : State) : Out := .next (s.updAt src (fun t => t.land ix))

end Sys2Proof.Machine
end

