-- ==== Sys2Proof/Machine/Quant.lean ====
section
/-! DEFINITION. Nibble codes and conversions: R30 to R34, vcvt, vqblk and vdqblk (R176 to R178). -/

namespace Sys2Proof.Machine

/-! ## Nibbles (R30, R31) -/

/-- Magnitude of a magnitude index under a type, as m × 2^q: T = 00 uses |m| itself. -/
def nibMag (t k : Nat) : Nat × Int :=
  match t with
  | 0 => (k, 0)
  | 1 => ([0, 1, 2, 3, 4, 6, 8, 12].getD k 0, -1)
  | 2 => (if k = 0 then 0 else 2 ^ (k - 1), -6)
  | _ => ([0, 1, 2, 3, 4, 6, 8, 12].getD k 0, 0)

/-- Sign and magnitude index of a nibble. -/
def nibParts (t nib : Nat) : Bool × Nat :=
  if t = 0 then (if nib < 8 then (false, nib) else (true, 16 - nib))
  else if nib = 8 then (false, 0) else (decide (8 ≤ nib), nib % 8)

/-- The value a nibble decodes to under a scale byte; a NaN block gives NaN. -/
def nibValue (scale nib : Nat) : Fv :=
  let t := scale / 64
  let e := scale % 64
  if e = 63 then .nan false
  else
    let (neg, k) := if t = 0 ∧ nib = 8 then (true, 8) else nibParts t nib
    let (m, q) := nibMag t k
    .fin (neg && m != 0) m (q + (e : Int) - 32)

/-! ## Quantising (R33, R34) -/

/-- Magnitude indexes of a type, rising; for T = 00 they are 0 to 7. -/
def maxIndex : Nat := 7

/-- Compare m × 2^d with n × 2^e. -/
def leDy (m : Nat) (d : Int) (n : Nat) (e : Int) : Bool :=
  decide (m <<< (d - min d e).toNat ≤ n <<< (e - min d e).toNat)

/-- The least E field with amax / maxmag ≤ 2^(E − 32), from `e` up (R33). -/
def scaleFrom (m : Nat) (d : Int) (mm : Nat) (mq : Int) (e fuel : Nat) : Nat :=
  match fuel with
  | 0 => e
  | k + 1 => if leDy m d mm (mq + (e : Int) - 32) then e else scaleFrom m d mm mq (e + 1) k

/-- E of a block with largest magnitude m × 2^d (R33). -/
def blockScale (t m : Nat) (d : Int) : Nat :=
  if m = 0 then 0 else
  let (mm, mq) := nibMag t maxIndex
  scaleFrom m d mm mq 0 62

/-- Greatest magnitude index at or below m × 2^d (scaled), searched from `k` down. -/
def floorIndex (t m : Nat) (d : Int) (k : Nat) : Nat :=
  match k with
  | 0 => 0
  | j + 1 => let (n, e) := nibMag t (j + 1); if leDy n e m d then j + 1 else floorIndex t m d j

/-- Round a scaled magnitude y = m × 2^d to a magnitude index (R33): index, and whether it was inexact or clamped. -/
def quantMag (t : Nat) (r : Rnd) (neg : Bool) (m : Nat) (d : Int) : Nat × Bool × Bool :=
  let k := floorIndex t m d maxIndex
  let (a, q) := nibMag t k
  let exact := leDy m d a q
  if exact then (k, false, false)
  else if k = maxIndex then (k, true, true)
  else
    let (b, _) := nibMag t (k + 1)
    let z := min d q
    let lo := a <<< (q - z).toNat
    let hi := b <<< (q - z).toNat
    let y := m <<< (d - z).toNat
    let up := match r.mode with
      | 0 => decide (lo + hi < 2 * y) || (2 * y == lo + hi && k % 2 == 1)
      | 1 => false
      | 2 => neg
      | 3 => !neg
      | _ => decide (2 ^ 64 ≤ (y - lo) * 2 ^ 64 / (hi - lo) + r.draw)
    (if up then k + 1 else k, true, false)

/-- Quantise one element of a block with scale field e: nibble and classes (R33). -/
def quantElem (t e : Nat) (r : Rnd) (v : Fv) : Nat × Nat :=
  match v with
  | .fin neg m d =>
    let (k, inexact, clamped) := quantMag t r neg m (d - ((e : Int) - 32))
    let fl := (if inexact then flNX else 0) + (if clamped then flSAT else 0) + (if k = 0 && m != 0 then flUF else 0)
    (if k = 0 then 0 else if t = 0 then (if neg then 16 - k else k) else (if neg then k + 8 else k), fl)
  | _ => (0, 0)

/-- Largest magnitude of a block. -/
def blockMax (l : List Fv) : Nat × Int :=
  l.foldl (fun (m, d) v => match v with
    | .fin _ n e => if m = 0 ∨ !leDy n e m d then (n, e) else (m, d)
    | _ => (m, d)) (0, 0)

/-- |x − decoded| as a multiple of 2^q. -/
def quantError (t e : Nat) (q : Int) (v : Fv) : Nat :=
  match v, nibValue (64 * t + e) (quantElem t e rne v).1 with
  | .fin a m d, .fin b n f => (scaled a m d q - scaled b n f q).natAbs
  | _, _ => 0

/-- The type AUTO chooses (R34): the least error sum under RNE, the lowest type on a tie. -/
def autoType (l : List Fv) : Nat :=
  let (m, d) := blockMax l
  let low := l.foldl (fun q v => match v with | .fin _ _ e => min q e | _ => q) (-48 : Int)
  let err (t : Nat) : Nat := (l.map (quantError t (blockScale t m d) low)).sum
  (List.range 4).foldl (fun b t => if err t < err b then t else b) 0

/-- A block quantised: scale byte, nibbles and each element's classes (R33, R34). `rn` gives the rounding of element k. -/
def quantBlock (qcfg : Word) (rn : Nat → Rnd) (l : List Fv) : Nat × List (Nat × Nat) :=
  let bad (v : Fv) : Bool := match v with | .fin _ _ _ => false | _ => true
  if l.any bad then
    let first := l.findIdx bad
    (64 * bitsN qcfg 0 2 + 63, (List.range 32).map (fun k => (0, if k = first then flNV else 0)))
  else
    let t := if bitN qcfg 2 then autoType l else bitsN qcfg 0 2
    let (m, d) := blockMax l
    let e := blockScale t m d
    (64 * t + e, l.zipIdx.map (fun (v, k) => quantElem t e (rn k) v))

/-! ## The instructions (R176 to R178) -/

def execVcvt (x : VCvtOp) (s : State) : Out :=
  s.vec (.vcvt x) (fun v =>
    let t := x.etype.toNat
    let w := (ewOf t).getD 8
    let ga := v.src x.va
    s.laneOp v ⟨x.vd.toNat, max 1 (v.g * w / v.ew), w⟩ (v.fillAt w) [⟨x.va.toNat, v.ew, x.ea == 1, id⟩] (v.active x.mask)
      (fun j => convertElem v.code t (s.rnd s.cur.samp.rm j) (elem ga v.ew j)))

/-- The quantised blocks of `vqblk`, by number. -/
def State.quantBlocks (s : State) (v : View) (ga : Nat) : List (Nat × List (Nat × Nat)) :=
  (List.range ((v.vl + 31) / 32)).map (fun b =>
    quantBlock s.cur.samp.qcfg (fun k => s.rnd (bitsN s.cur.samp.qcfg 3 3) (32 * b + k))
      ((List.range 32).map (fun k => if 32 * b + k < v.vl then plainValue v.code (elem ga v.ew (32 * b + k)) else .fin false 0 0)))

def execVqblk (x : V3NoMask) (s : State) : Out :=
  s.vec (.vqblk x) (fun v =>
    let ga := v.src x.va
    let d : VDst := ⟨x.vd.toNat, max 1 (v.g * 4 / v.ew), 4⟩
    let sc : VDst := ⟨x.vb.toNat, 1, 8⟩
    let nb := (v.vl + 31) / 32
    let l := (List.range (32 * nb)).filter (fun i => decide (v.first ≤ i))
    let w : View := { v with first := 0 }
    if s.regsBusy d.base d.regs || s.regsBusy sc.base 1 || !v.oldReady d l || !w.oldReady sc (List.range nb) then s.memberWait
    else s.whole v [(⟨x.va.toNat, v.ew, x.ea == 1, id⟩, (List.range v.vl).filter (fun i => decide (v.first / 32 * 32 ≤ i)))] (fun s =>
      let blocks := s.quantBlocks v ga
      let at_ (i : Nat) : Nat × Nat := ((blocks.getD (i / 32) (0, [])).2).getD (i % 32) (0, 0)
      let (res, e) := v.run [] at_ l
      let stop := e.stopAt (v.size d)
      let nsc := if e = .all then nb else (stop + 31) / 32
      let old := v.x.grp v.vlb sc.base 1
      let new := putLanes old 8 0 (if e = .all then v.vlb / 8 else nsc) (v.zero && e = .all)
        ((List.range nsc).map (fun b => (b, (blocks.getD b (0, [])).1, 0)))
      let s :=
        if e = .all then s.writeGroup v.vlb sc.base 1 new (2 * nb)
        else if stop ≤ v.first then s
        else s.writePart v.vlb sc new nsc
      s.vecResult v d (32 * nb) res e))

def execVdqblk (x : V3NoKb) (s : State) : Out :=
  s.vec (.vdqblk x) (fun v =>
    let ga := v.x.grp v.vlb x.va.toNat (max 1 (v.g * 4 / v.ew))
    let gb := v.x.grp v.vlb x.vb.toNat 1
    let l := v.active x.mask
    s.crossOp v (v.dst x.vd) (v.fillAt v.ew)
      [(⟨x.va.toNat, 4, x.ea == 1, id⟩, l), (⟨x.vb.toNat, 8, x.eb == 1, id⟩, (l.map (· / 32)).dedup)] l
      (fun i =>
        let y := nibValue (elem gb 8 (i / 32)) (elem ga 4 i)
        let r := packPlain v.code (s.rnd s.cur.samp.rm i) flRG y
        (r.1, if y.isNan then flNV else r.2)))

end Sys2Proof.Machine
end

