-- ==== Sys2Proof/Machine/Matrix.lean ====
section
/-! DEFINITION. The matrix instructions and the matrix engine (R45, R46, R284 to R298, R128). -/

namespace Sys2Proof.Machine

/-! ## Exact sums (R45, R46) -/

/-- The product of two operands; NaN for 0 × ∞. -/
def mxProd (x y : Fv) : Fv := (mulV x y).getD (.nan false)

/-- The exact sum of finite terms: a multiple of 2^q, and whether every term is −0 or below. -/
def finSum (l : List Fv) : Fv :=
  let q := l.foldl (fun q v => match v with | .fin _ m e => if m = 0 then q else min q e | _ => q) (0 : Int)
  let t := l.foldl (fun t v => match v with | .fin a m e => t + (if m = 0 then 0 else scaled a m e q) | _ => t) (0 : Int)
  let negs := !l.isEmpty && l.all (fun v => match v with | .fin a _ _ => a | _ => false)
  if t = 0 then .fin negs 0 0 else .fin (decide (t < 0)) t.natAbs q

/-- The exact sum of products (R46). -/
def mxSum (l : List Fv) : Fv :=
  let infs := l.filterMap (fun v => match v with | .inf n => some n | _ => none)
  if l.any Fv.isNan || (infs.contains true && infs.contains false) then .nan false
  else match infs with
    | n :: _ => .inf n
    | [] => finSum l

/-- The integer a finite term is, for i32 accumulators: terms have exponent 0. -/
def Fv.toInt (v : Fv) : Int := match v with | .fin a m e => scaled a m (max e 0) 0 | _ => 0

/-- Wrap to an i32 (R45, R46): pattern and classes. -/
def wrap32 (v : Int) : Nat × Nat := (wrapInt 32 v, if v < -(2 ^ 31) ∨ 2 ^ 31 ≤ v then flOF else 0)

/-- C + t (R45, R46): `i32` for integer accumulators. -/
def mxAcc (i32 : Bool) (c : Nat) (t : Fv) : Nat × Nat :=
  if i32 then wrap32 (toSigned 32 c + t.toInt)
  else match t with
    | .nan _ => (fp32.nanBits, flNV)
    | .inf _ => if (fp32.value c).isNan then (fp32.nanBits, 0) else fp32.addV rne (fp32.value c) t
    | .fin _ _ _ => if (fp32.value c).isNan then (fp32.nanBits, snanFlag [fp32.value c]) else fp32.addV rne (fp32.value c) t

/-- One rounding of an exact sum (R294). -/
def mxRound (i32 : Bool) (t : Fv) : Nat × Nat :=
  if i32 then wrap32 t.toInt
  else match t with
    | .nan _ => (fp32.nanBits, flNV)
    | v => fp32.pack rne v

/-! ## Shapes (R284 to R288) -/

def MxOp.atype (o : MxOp) : Nat := bitsN o.cfg 0 6
def MxOp.btype (o : MxOp) : Nat := bitsN o.cfg 6 6
def MxOp.i32 (o : MxOp) : Bool := bitsN o.cfg 12 6 == 2
def MxOp.ga (o : MxOp) : Nat := mxAGroup o.cfg
/-- Registers it writes. -/
def MxOp.regs (o : MxOp) : Nat := if o.kind = .mxsum then 1 else mxCGroup o.cfg
/-- K_slice and the formats allowed (R285). -/
def MxOp.pairing (o : MxOp) : Nat × List Nat := (mxPairing o.atype o.btype (bitsN o.cfg 12 6)).getD (64, [])
def MxOp.k (o : MxOp) (vlb : Nat) : Nat := o.ga * vlb / (16 * (ewOf o.atype).getD 4)
def MxOp.n (o : MxOp) (vlb : Nat) : Nat := vlb * mxCGroup o.cfg / 512
def MxOp.slices (o : MxOp) (vlb : Nat) : Nat := o.k vlb / o.pairing.1

/-- Registers as one number (R63). -/
def joinRegs (vlb : Nat) (l : List VReg) : Nat := l.foldr (fun r x => r.toNat % 2 ^ vlb + x * 2 ^ vlb) 0

/-- One number as `n` registers. -/
def splitRegs (vlb n x : Nat) : List VReg := (List.range n).map (fun j => BitVec.ofNat 8192 ((x >>> (j * vlb)) % 2 ^ vlb))

/-- An operand with its zero point: 8-bit integers as a − z, others exactly (R45). -/
def mxOperand (code bits : Nat) (z : Int) : Fv :=
  if isInt code then
    let v := (if isSignedInt code then toSigned 8 bits else ((bits % 256 : Nat) : Int)) - z
    .fin (decide (v < 0)) v.natAbs 0
  else plainValue code bits

/-- A zero point byte under an 8-bit integer type. -/
def zeroPoint (code byte : Nat) : Int := if isSignedInt code then toSigned 8 byte else ((byte % 256 : Nat) : Int)

/-- The 16 rows of A' (R286, R288). -/
def MxOp.rows (o : MxOp) (vlb : Nat) : List (List Fv) :=
  match o.captured with
  | none => []
  | some c =>
    let a := joinRegs vlb c.a
    let k := o.k vlb
    let w := (ewOf o.atype).getD 4
    let z := zeroPoint o.atype (bitsN o.zpa 0 8)
    (List.range 16).map (fun i => (List.range k).map (fun kk =>
      if o.atype = 0x0D then nibValue (Sys2Proof.Machine.elem c.scale.toNat 8 ((i * k + kk) / 32)) (Sys2Proof.Machine.elem a 4 (i * k + kk))
      else mxOperand o.atype (Sys2Proof.Machine.elem a w (i * k + kk)) z))

/-! ## Slots (R289 to R292) -/

/-- A slot header's fields (R290). -/
structure SlotHeader where
  format : Nat
  btype : Nat
  krows : Nat
  ncols : Nat
  zpoff : Nat
  scoff : Nat
  dataoff : Nat
  datalen : Nat
  /-- The reserved fields are zero. -/
  clean : Bool

/-- The header of a slot's bytes. -/
def slotHeader (bs : List Byte) : SlotHeader :=
  { format := cutN bs 0 1, btype := cutN bs 1 1, krows := cutN bs 2 2, ncols := cutN bs 4 2, zpoff := cutN bs 8 4,
    scoff := cutN bs 0x0C 4, dataoff := cutN bs 0x10 4, datalen := cutN bs 0x14 4, clean := zeroAt bs 6 2 && zeroAt bs 0x18 40 }

/-- The regions a header names: offset and length. -/
def SlotHeader.regions (h : SlotHeader) (k n : Nat) : List (Nat × Nat) :=
  [(h.dataoff, h.datalen)] ++ (if h.zpoff = 0 then [] else [(h.zpoff, n)]) ++ (if h.format = 1 then [(h.scoff, k * n / 32)] else [])

/-- No two regions of a list overlap. -/
def regionsApart (l : List (Nat × Nat)) : Bool :=
  match l with
  | [] => true
  | r :: t => t.all (fun q => r.2 == 0 || q.2 == 0 || decide (r.1 + r.2 ≤ q.1) || decide (q.1 + q.2 ≤ r.1)) && regionsApart t

/-- The header matches the instruction (R290, R295). -/
def MxOp.headerOk (o : MxOp) (vlb : Nat) (h : SlotHeader) : Bool :=
  let k := o.k vlb
  let n := o.n vlb
  let int := o.btype == 0 || o.btype == 4
  o.pairing.2.contains h.format && h.btype == o.btype && h.krows == k && h.ncols == n && h.clean
    && (h.zpoff == 0 || int) && (h.scoff == 0 || h.format == 1)
    && (h.format != 0 || h.datalen == k * n * (ewOf o.btype).getD 8 / 8) && (h.format != 1 || h.datalen == k * n / 2)
    && (h.regions k n).all (fun r => decide (64 ≤ r.1) && decide (r.1 + r.2 ≤ 32768)) && regionsApart (h.regions k n)

/-- The expansion of a rill-sparse stream from granule `p`, with `left` elements still to come (R292). -/
def sparseExpand (grp p fill w left fuel : Nat) (acc : List Nat) : Option (List Nat) :=
  match fuel with
  | 0 => none
  | f + 1 =>
    if left = 0 then some acc.reverse
    else if p ≥ fill then none
    else match classify grp p fill false 0 with
      | .ok len z _ =>
        if left < z then none
        else if left = z then some ((List.replicate z 0 ++ acc).reverse)
        else if p + len + w / 4 > fill then none
        else sparseExpand grp (p + len + w / 4) fill w (left - z - 1) f
          ((grp >>> (4 * (p + len))) % 2 ^ w :: (List.replicate z 0 ++ acc))
      | _ => none

/-- The header an operation goes by: as it read it when it began (R290). -/
def MxOp.header (o : MxOp) (bs : List Byte) : SlotHeader := slotHeader (if o.hdr.isEmpty then bs else o.hdr)

/-- The columns of B' (R291, R292); none where the stream is bad. -/
def MxOp.cols (o : MxOp) (vlb : Nat) (bs : List Byte) : Option (List (List Fv)) :=
  let h := o.header bs
  let k := o.k vlb
  let n := o.n vlb
  let w := (ewOf o.btype).getD 8
  let all := leNat bs
  let z (j : Nat) : Int := if h.zpoff = 0 then 0 else zeroPoint o.btype (Sys2Proof.Machine.elem all 8 (h.zpoff + j))
  if h.format = 1 then
    some ((List.range n).map (fun j => (List.range k).map (fun kk =>
      nibValue (Sys2Proof.Machine.elem all 8 (h.scoff + (j * k + kk) / 32)) (Sys2Proof.Machine.elem all 4 (2 * h.dataoff + j * k + kk)))))
  else if h.format = 2 then
    match sparseExpand all (2 * h.dataoff) (2 * (h.dataoff + h.datalen)) w (k * n) (k * n + 1) [] with
    | none => none
    | some vs => some ((List.range n).map (fun j => ((vs.drop (j * k)).take k).map (fun b => mxOperand o.btype b (z j))))
  else
    some ((List.range n).map (fun j => (List.range k).map (fun kk =>
      mxOperand o.btype ((all >>> (8 * (h.dataoff + (kk * n + j) * w / 8))) % 2 ^ w) (z j))))

/-- The 64-byte lines of the slot that the instruction reads (R321); it does not read the header again as it resumes (R290). -/
def MxOp.slotLines (o : MxOp) (vlb : Nat) (h : SlotHeader) : List Nat :=
  ((if o.begun then [] else [0]) ++ (h.regions (o.k vlb) (o.n vlb)).flatMap (fun (r : Nat × Nat) => (List.range ((r.1 % 64 + r.2 + 63) / 64)).map (r.1 / 64 + ·))).map
    (o.slot * 512 + ·)

/-! ## Issue (R293, R295) -/

/-- The registers of a group. -/
def VecState.regs (x : VecState) (base n : Nat) : List VReg := (List.range n).map (fun j => x.reg (base + j))

/-- Every element group of a group of registers is full. -/
def VecState.allFull (x : VecState) (base n : Nat) : Bool := (List.range n).all (fun j => x.fullOf (base + j) == 0xFFFF)

/-- The A group and scale register of an operation as the strand holds them. -/
def MxOp.capture (o : MxOp) (x : VecState) : MxOp :=
  { o with captured := some ⟨x.regs o.va o.ga, x.reg (o.va + o.ga)⟩ }

/-- The A sources of an operation, by element group, for their empty action (R66, R288): the group number names the
element of width EW. -/
def View.mxSources (v : View) (va : BitVec 6) (cfg : Word) (ea : BitVec 1) : List (Src × List Nat) :=
  let w := (ewOf (bitsN cfg 0 6)).getD 4
  let q (n : Nat) : List Nat := (List.range (v.vlb * n / 512)).map (fun g => g * 512 / w)
  [(⟨va.toNat, w, ea == 1, id⟩, q (mxAGroup cfg))]
    ++ (if bitsN cfg 0 6 = 0x0D then [(⟨va.toNat + mxAGroup cfg, 8, ea == 1, id⟩, (List.range (v.vlb / 512)).map (· * 64))] else [])

/-- Mark whole registers empty (R66). -/
def VecState.emptyRegs (x : VecState) (vlb base n : Nat) : VecState :=
  { x with full := (List.range n).foldl (fun f j => f.set (base + j) (emptyBits vlb)) x.full }

/-- A matrix instruction is issued: it takes its operands and its place in the MXQ, and marks its accumulators empty. A
follow-on reads its A operands when the copy engine issues it. -/
def State.issueMatrix (s : State) (x : V3NoMask) (kind : MxKind) : Out :=
  let v := s.view
  let m := s.cur.samp
  let again := (s.convoy?.map Convoy.mxInterrupted).getD false
  let prog := s.me.csr.mxprog
  let o : MxOp :=
    { num := (s.convoy?.bind Convoy.nMx).getD 0, kind := kind, vd := x.vd.toNat, va := x.va.toNat, slot := x.vb.toNat, ea := x.ea == 1,
      cfg := m.mxcfg, zpa := m.mxzpa, seq := s.cur.seq, pc := s.cur.pc, member := s.cur.slot, follow := s.cur.follow,
      begun := again && bitN prog 32, slice := if again then bitsN prog 0 16 else 0, elem := if again then bitsN prog 16 16 else 0,
      exempt := again && bitN prog 33, vlb := v.vlb }
  let d := o.vd
  let n := o.regs
  if !again && kind == .mma && !v.x.allFull d n then .next s.memberWait
  else if s.regsBusy d n then .next s.memberWait
  else
    let go (s : State) : Out := s.engineIssue (fun s =>
      let o := { o with acc := v.x.regs d n, live := (List.range n).map (d + ·) }
      let o := if o.follow.isSome then o else o.capture v.x
      let fill := (List.range n).foldl (fun f j => f.set (d + j) (v.vlb / 4)) s.me.vec.fill
      .next ((s.upd (fun t =>
        let t := t.supersede d n
        { t with vec := { t.vec.emptyRegs v.vlb d n with fill := fill }, mxq := t.mxq ++ [o] })).memberDone true))
    if o.follow.isSome then go s
    else match v.wholeMeets (v.mxSources x.va m.mxcfg x.ea) with
      | some (.empty j r) =>
        .next (s.memberStop { forceBlock := true } [s.memberRec 6 18 (BitVec.ofNat 64 r) j 0])
      | some _ => .next s.memberWait
      | none => go s

/-- A matrix member that is complete as it resumes completes its number (R301, R246). -/
def State.passMatrix (s : State) : State :=
  match s.convoy?.bind Convoy.nMx with
  | some n => s.upd (fun t => { t with tlMatrix := { t.tlMatrix with complete := t.tlMatrix.complete ++ [n] } })
  | none => s

/-- A matrix member stops where a check at issue fails (R295). -/
def State.matrix (s : State) (i : Instr) (x : V3NoMask) (kind : MxKind) : Out :=
  s.vmemOf i View.vl (fun _ => s.issueMatrix x kind) (fun _ => State.passMatrix)

def execMma (x : V3NoMask) (s : State) : Out := s.matrix (.mma x) x .mma
def execMmaz (x : V3NoMask) (s : State) : Out := s.matrix (.mmaz x) x .mmaz
def execMxsum (x : V3NoMask) (s : State) : Out := s.matrix (.mxsum x) x .mxsum

/-! ## The engine -/

/-- Source number of the matrix engine of a strand's core (R12). -/
def matrixSource (src : Nat) : Nat := dieOf src * 128 + 80 + coreOf src % 16

/-- Change the first operation of the MXQ. -/
def Strand.setMx (t : Strand) (o : MxOp) : Strand :=
  match t.mxq with
  | _ :: r => { t with mxq := o :: r }
  | [] => t

/-- The first operation stops: it stays queued, MXPROG as given, and the group halts (R295). -/
def State.mxStop (s : State) (src : Nat) (o : MxOp) (prog : Word) (cause kind : Nat) (va : Word) (elem : BitVec 32) : State :=
  let s := s.updAt src (fun t => { t.setMx o with mxHeld := true, csr := { t.csr with mxprog := prog } })
  s.takeStop src (s.strand src).pc [{ s.record src cause kind va elem o.member o.pc 0 with source := matrixSource src }]

/-- The accumulators in a register that is to take them, whose element groups below group `n` of the operation are full (R293). -/
def MxOp.accInto (o : MxOp) (vlb n j : Nat) (x : VecState) : VecState :=
  let k := min (vlb / 512) (n - j * (vlb / 512))
  { x with v := x.v.set (o.vd + j) (o.acc.getD j 0)
           full := x.full.set (o.vd + j) (if k = vlb / 512 then 0xFFFF else x.fullOf (o.vd + j) ||| BitVec.ofNat 16 (2 ^ k - 1)) }

/-- The accumulators stand in the registers no later write has superseded, full below element group `n`. -/
def Strand.mxLand (t : Strand) (o : MxOp) (vlb n : Nat) : Strand :=
  (List.range o.acc.length).foldl (fun t j =>
    let t := if o.live.contains (o.vd + j) then { t with vec := o.accInto vlb n j t.vec } else t
    t.landSnaps o.seq (o.vd + j) (o.accInto vlb n j)) t

/-- The accumulators go to the registers no later write has superseded, full, and the operation leaves the MXQ. -/
def Strand.mxDone (t : Strand) (o : MxOp) (vlb : Nat) : Strand :=
  { t.mxLand o vlb (o.acc.length * (vlb / 512)) with
    mxq := t.mxq.drop 1, csr := { t.csr with mxprog := 0 }
    tlMatrix := { t.tlMatrix with complete := t.tlMatrix.complete ++ [o.num] } }

/-- One slice over the elements from `e` on: accumulators, classes raised, and the element that stops with its class. -/
def mxElems (o : MxOp) (n trapen : Nat) (rows cols : List (List Fv)) (acc : Nat) (flags : List (Nat × Nat)) (l : List Nat) :
    Nat × List (Nat × Nat) × Option (Nat × Nat) :=
  match l with
  | [] => (acc, flags, none)
  | e :: r =>
    let t := mxSum (List.zipWith mxProd (rows.getD (e / n) []) (cols.getD (e % n) []))
    let (y, fl) := mxAcc o.i32 (elem acc 32 e) t
    let flags := if fl = 0 then flags else flags ++ [(e, fl)]
    match (if o.exempt && e == o.elem then none else trapClass fl trapen) with
    | some k => (acc, flags, some (e, k))
    | none => mxElems o n trapen rows cols (setElem acc 32 e y) flags r

/-- The row and column sums of `mxsum` (R294), with their classes. -/
def mxSums (o : MxOp) (rows cols : List (List Fv)) : Nat × List (Nat × Nat) :=
  (((rows ++ cols).map mxSum).zipIdx).foldl (fun (p : Nat × List (Nat × Nat)) (t, e) =>
    let (y, fl) := mxRound o.i32 t
    (setElem p.1 32 e y, if fl = 0 then p.2 else p.2 ++ [(e, fl)])) (0, [])

/-- Credit classes to elements (R28). -/
def Strand.creditMx (t : Strand) (l : List (Nat × Nat)) : Strand :=
  { t with vec := l.foldl (fun x r => x.credit r.1 r.2) t.vec }

/-- What an operation finds in its slot (R290, R292, R321): the cause of a stop, or none. One that has begun has had its header
and stream checked. -/
def State.slotCheck (s : State) (src : Nat) (o : MxOp) : Option Nat :=
  let t := s.strand src
  let vlb := s.vlb src
  let bs := Memory.readBytes t.slots (o.slot * 32768) 32768
  let h := o.header bs
  if o.begun then (if (o.slotLines vlb h).any t.slotPoison.contains then some Cause.poison else none)
  else if t.slotPoison.contains (o.slot * 512) then some Cause.poison
  else if !o.headerOk vlb h then some 39
  else if (o.slotLines vlb h).any t.slotPoison.contains then some Cause.poison
  else if (o.cols vlb bs).isNone then some 40
  else none

/-- The record of a slice that failed its check and was recomputed (R297). -/
def State.sliceRecord (s : State) (src : Nat) (o : MxOp) (i j : Nat) : State :=
  let r := s.record src 42 16 (BitVec.ofNat 64 (i % 2 ^ 8 + j % 2 ^ 16 * 2 ^ 8 + o.slice % 2 ^ 16 * 2 ^ 24))
    (BitVec.ofNat 32 (i * o.n (s.vlb src) + j)) o.member o.pc 0
  s.notice src { r with source := matrixSource src }

/-- The records of the computations of a slice that failed and were made again: two at most (R297). -/
def State.sliceRecords (s : State) (src : Nat) (o : MxOp) (fails : List (Nat × Nat)) : State :=
  (fails.take 2).foldl (fun s p => s.sliceRecord src o p.1 p.2) s

/-- The group of a strand is leaving its slots: it stops at the next boundary (R123, R298). -/
def State.leaving (s : State) (src : Nat) : Bool :=
  match (s.group (s.strand src).group).state with
  | .saving | .abandoned | .ended => true
  | .unplaced | .resident | .halted | .saved => false

/-- One slice of an operation that has begun; of a strand that is leaving its slot, the engine then stops (R298). -/
def State.runSlice (s : State) (src : Nat) (o : MxOp) : State :=
  let t := s.strand src
  let vlb := s.vlb src
  let n := o.n vlb
  let ks := o.pairing.1
  let cut (l : List Fv) : List Fv := (l.drop (o.slice * ks)).take ks
  let rows := (o.rows vlb).map cut
  let cols := ((o.cols vlb (Memory.readBytes t.slots (o.slot * 32768) 32768)).getD []).map cut
  let samp := ((t.viq.find? (fun c => c.seq == o.seq)).map Convoy.samp).getD {}
  let (acc, flags, e) := mxElems o n (trapEn samp.fctl) rows cols (joinRegs vlb o.acc) []
    ((List.range (16 * n)).filter (fun e => decide (o.elem ≤ e)))
  let s := s.updAt src (fun t => t.creditMx flags)
  let o := { o with acc := splitRegs vlb o.regs acc }
  match e with
  | some (e, k) =>
    let s := if o.slice + 1 < o.slices vlb then s else s.updAt src (fun t => t.mxLand o vlb (e * 32 / 512))
    s.mxStop src { o with elem := e, exempt := true } (mxProgOf true o.slice e) (26 + k) 16 0 (BitVec.ofNat 32 e)
  | none =>
    let o := { o with slice := o.slice + 1, elem := 0, exempt := false }
    let s := s.updAt src (fun t => if o.slice < o.slices vlb then t.setMx o else t.mxDone o vlb)
    if s.leaving src then s.updAt src Strand.parkMx else s

/-- What an operation that begins finds wrong in its slot: poison is consumed (R321), the rest stops it (R295). -/
def State.mxMeets (s : State) (src : Nat) (o : MxOp) (c : Nat) : State :=
  if c = Cause.poison then
    let strip := ((s.strand src).viq.find? (fun v => v.seq == o.seq)).bind (fun v => if v.strip = 0 then none else some v.strip)
    s.consumeError src c 16 (BitVec.ofNat 64 o.slot) 0xFFFFFFFF o.member o.pc strip
  else s.mxStop src o 0 c 16 (BitVec.ofNat 64 o.slot) 0xFFFFFFFF

/-- `mmaz` starts from zero accumulators (R293). -/
def MxOp.cleared (o : MxOp) : MxOp := if !o.begun && o.kind == .mmaz then { o with acc := o.acc.map (fun _ => 0) } else o

/-- It begins, and keeps the header it has read (R290). -/
def MxOp.start (o : MxOp) (bs : List Byte) : MxOp := { o.cleared with begun := true, hdr := if o.hdr.isEmpty then bs.take 64 else o.hdr }

/-- The first operation begins or goes on, once its slot is found good: `mmaz` clears its accumulators, `mxsum` is carried out whole.
`fails` are the computations of the slice that failed. -/
def State.goMx (s : State) (src : Nat) (o : MxOp) (fails : List (Nat × Nat)) : State :=
  match s.slotCheck src o with
  | some c => s.mxMeets src o c
  | none =>
    let vlb := s.vlb src
    if o.kind = .mxsum then
      let cols := (o.cols vlb (Memory.readBytes (s.strand src).slots (o.slot * 32768) 32768)).getD []
      let (acc, flags) := mxSums o (o.rows vlb) cols
      s.updAt src (fun t => ((t.creditMx flags).mxDone { o with acc := splitRegs vlb 1 acc } vlb))
    else
      (s.sliceRecords src o fails).runSlice src (o.start (Memory.readBytes (s.strand src).slots (o.slot * 32768) 64))

/-- The slot the operation reads is still being filled by an earlier `cpyw` (R252, R296). -/
def Strand.slotFilling (t : Strand) (o : MxOp) : Bool :=
  t.cpq.any (fun c => c.kind == .cpyw && c.dst == o.slot && (decide (c.seq < o.seq) || (c.seq == o.seq && decide (c.member < o.member))))

/-- MATRIX_SLICE (R293, R297): the first operation of the strand takes its next slice. On a failed engine it stops (R128). -/
def execMatrixSlice (src : Nat) (v : SliceVerdict) (s : State) : Out :=
  let t := s.strand src
  match t.mxq with
  | [] => .next s
  | o :: _ =>
    if t.mxHeld || o.captured.isNone || t.slotFilling o then .next s
    else if (s.core (coreOf src)).engineFailed then
      .next (s.mxStop src o (if o.begun then mxProgOf o.exempt o.slice o.elem else 0) 41 16
        (BitVec.ofNat 64 (if o.begun then o.slice % 2 ^ 16 * 2 ^ 24 else 0)) 0xFFFFFFFF)
    else .next (s.goMx src o (match v with | .ok => [] | .corrected fails => fails))

/-- MATRIX_ENGINE_FAILED (R297, R128, R361): the engine is marked, firmware is told, and the instruction stops at its
slice; one that resumed part-way into the slice keeps its place there (assumption 74). -/
def execMatrixEngineFailed (at_ : SliceFailure) (s : State) : Out :=
  let src := at_.src
  let k := coreOf src
  let s := s.setCore k { s.core k with engineFailed := true }
  let s := { s with mgmt := s.mgmt ++ [MgmtNote.engineFailed (dieOf src) (k % 16)], flash := { s.flash with engines := s.flash.engines ++ [k] } }
  let s := s.replace 4
  match (s.strand src).mxq with
  | [] => .next s
  | o :: _ =>
    if (s.strand src).mxHeld || o.captured.isNone then .next s
    else match s.slotCheck src o with
      | some c => .next (s.mxMeets src o c)
      | none =>
        let s := if o.kind = .mxsum then s else s.sliceRecords src o at_.fails
        let o := if o.kind = .mxsum then o else o.start (Memory.readBytes (s.strand src).slots (o.slot * 32768) 64)
        .next (s.mxStop src o (if o.begun then mxProgOf o.exempt o.slice o.elem else 0) 41 16
          (BitVec.ofNat 64 (o.slice % 2 ^ 16 * 2 ^ 24)) 0xFFFFFFFF)

/-- FOLLOW_ON_ISSUE (R59, R252, R295): once its copy has completed, the follow-on reads its A operands. -/
def execFollowOnIssue (src : Nat) (s : State) : Out :=
  let t := s.strand src
  match t.mxq with
  | [] => .next s
  | o :: _ =>
    match o.follow with
    | none => .next s
    | some n =>
      if t.mxHeld || t.cpq.any (fun c => c.num == n) then .next s
      else
        let v : View := { s.view with vlb := s.vlb src, x := t.vec, force := o.force, resumed := false }
        match v.wholeMeets (v.mxSources (BitVec.ofNat 6 o.va) o.cfg (if o.ea then 1 else 0)) with
        | some (.empty j r) => .next (s.mxStop src { o with force := true } 0 6 18 (BitVec.ofNat 64 r) (BitVec.ofNat 32 j))
        | some _ => .next s
        | none => .next (s.updAt src (fun t => t.setMx ({ o with follow := none }.capture t.vec)))

end Sys2Proof.Machine
end

