-- ==== Sys2Proof/Machine/Sequencer.lean ====
section
/-! DEFINITION. The vector sequencer of a core: deficit round robin over strips (R100). -/

namespace Sys2Proof.Machine

/-- The element-beats a member is charged (R100 rule 2): matrix and copy members nothing, mask instructions at EW 1. -/
def beatsOf (m : Sampled) (w : BitVec 32) : Nat :=
  let mj := majorOf w
  if mj = 0x36 ∨ mj = 0x37 then 0
  else
    let ew := if mj = 0x23 ∨ mj = 0x24 then 1 else vtEw m.vtype
    max 1 ((m.vl * ew + 127) / 128)

/-- The charge of a convoy. -/
def Convoy.charge (c : Convoy) : Nat := ((c.words.drop c.next).map (beatsOf c.samp)).sum

/-- The oldest convoy the sequencer has not issued. -/
def Strand.unissued (t : Strand) : Option Convoy := t.viq.find? (fun c => !c.issued)

/-- The strand has a strip ready: a convoy of it waits in the VIQ, which one inside an open strip without does not have (assumption 80). -/
def Strand.ready (t : Strand) : Bool :=
  t.st != .unbound && !t.vecHeld && t.unissued.isSome

/-- The strand can use an issue clock: the vector unit is not still at a convoy it issued before (R100 rule 7; assumption 39). -/
def Strand.usable (t : Strand) : Bool :=
  t.ready && t.viq.all (fun c => !c.issued || decide (c.words.length ≤ c.next))

/-- D saturates (R100 rule 8). -/
def satDeficit (d : Int) (weight : Nat) : Int := max (-(2 ^ 31)) (min (16 * 64 * (weight : Int)) d)

/-- Source numbers of a core's strand positions, in slot order (R12). -/
def coreStrands (core : Nat) : List Nat := (List.range 4).map (fun p => core / 16 * 128 + core % 16 * 4 + p)

/-- The highest priority of strands of a core that pass a test (R100 rule 3). -/
def State.topPrio (s : State) (core : Nat) (p : Strand → Bool) : Option Nat :=
  (((coreStrands core).filter (fun k => p (s.strand k))).map (fun k => (s.strand k).bind.prio)).max?

/-- Bound strands of one priority level of a core, in slot order. -/
def State.levelOf (s : State) (core prio : Nat) : List Nat :=
  (coreStrands core).filter (fun k => (s.strand k).st != .unbound && (s.strand k).bind.prio == prio)

/-- Issue the oldest unissued convoy of a strand and charge it. -/
def State.issueFrom (s : State) (src : Nat) : State :=
  match (s.strand src).unissued with
  | none => s
  | some c =>
    s.updAt src (fun t => { t.updConvoy c.seq (fun e => { e with issued := true }) with
      deficit := satDeficit (t.deficit - c.charge) t.bind.weight })

/-- The convoy after `c` in the strand belongs to another strip, or is not there yet (R100 rule 1). -/
def Strand.stripEnds (t : Strand) (c : Convoy) : Bool :=
  match t.viq.find? (fun e => !e.issued && e.seq != c.seq) with
  | none => t.openStrip != some c.strip
  | some e => e.strip != c.strip

/-- The turn holder issues one convoy; the turn passes at the end of its strip once D ≤ 0, and at a convoy boundary
of a long strip (R100 rules 4 and 6). -/
def State.issueTurn (s : State) (core src : Nat) : State :=
  match (s.strand src).unissued with
  | none => s
  | some c =>
    let charge := (s.core core).turnCharge + c.charge
    let ends := (s.strand src).stripEnds c
    let s := s.issueFrom src
    let t := s.strand src
    let pass := (ends && decide (t.deficit ≤ 0)) || decide (charge > 16 * 64 * t.bind.weight)
    s.setCore core { s.core core with turn := some src, turnOver := pass, turnCharge := if pass || ends then 0 else charge }

/-- The strand after `last` among a level's, in slot order. -/
def nextHolder (level : List Nat) (last : Option Nat) : Option Nat :=
  match last with
  | none => level.head?
  | some k => match level.find? (fun j => decide (k < j)) with
    | some j => some j
    | none => level.head?

/-- Turns start, in slot order of a level, until a strand may start a strip: each adds its quantum, and one with no strip ready
has its D set to 0 (R100 rules 3 to 5). -/
def State.startTurns (s : State) (core : Nat) (level : List Nat) (fuel : Nat) : State :=
  match fuel with
  | 0 => s
  | f + 1 =>
    match nextHolder level (s.core core).turn with
    | none => s
    | some k =>
      let ready := (s.strand k).ready
      let s := s.updAt k (fun t => { t with
        deficit := if t.ready then satDeficit (t.deficit + 64 * t.bind.weight) t.bind.weight else 0 })
      let on := ready && decide (0 < (s.strand k).deficit)
      let s := s.setCore core { s.core core with turn := some k, turnOver := !on, turnCharge := 0 }
      if on then s else State.startTurns s core level f

/-- The strand whose turn it is has a strip ready at the highest level with one (R100 rules 3 and 4). -/
def State.holds (s : State) (core prio : Nat) : Bool :=
  match (s.core core).turn with
  | some k => !(s.core core).turnOver && (s.strand k).ready && (s.strand k).bind.prio == prio
  | none => false

/-- A clock in which no strand of a core has a strip ready: the turn passes, and the turn of each comes, which sets its D to 0 (R100
rules 4 and 5; assumption 80). -/
def State.idleClock (s : State) (core : Nat) : State :=
  let s := (coreStrands core).foldl (fun s k =>
    if (s.strand k).st = .unbound ∨ (s.strand k).deficit = 0 then s else s.updAt k (fun t => { t with deficit := 0 })) s
  if (s.core core).turn.isNone || (s.core core).turnOver then s else s.setCore core { s.core core with turnOver := true, turnCharge := 0 }

/-- One issue clock of a core (R100): the holder of the turn issues; a clock it cannot use goes to another ready strand, in slot
order within the highest level with one (rule 7). -/
def State.issueClock (s : State) (core : Nat) : State :=
  match s.topPrio core Strand.ready with
  | none => s.idleClock core
  | some prio =>
    let s := if s.holds core prio then s else s.startTurns core (s.levelOf core prio) (2 ^ 28)
    match (s.core core).turn with
    | none => s
    | some k =>
      if (s.strand k).usable then s.issueTurn core k
      else match s.topPrio core Strand.usable with
        | none => s
        | some p => match (s.levelOf core p).find? (fun j => (s.strand j).usable) with
          | some j => s.issueFrom j
          | none => s

/-- CONVOY_ISSUE (R100). -/
def execConvoyIssue (die core : Nat) (s : State) : Out := .next (s.issueClock (die % 8 * 16 + core % 16))

end Sys2Proof.Machine
end

