-- ==== Sys2Proof/Machine/Fetch.lean ====
section
/-! DEFINITION. Fetching (R47, R56), a convoy entering its sluices (R10, R59, R85), and the members of queued
convoys: what comes before the meaning of an instruction in a step. -/

namespace Sys2Proof.Machine

/-- What a turn comes to. -/
inductive Pick where
  /-- The instruction to execute. -/
  | run (i : Instr) (s : State)
  /-- The instruction of a strand of a group that has halted in this clock, which is taken only where it faults (R120). -/
  | trial (i : Instr) (src : Nat) (s before : State)
  /-- Nothing is executed. -/
  | done (s : State)
  /-- A step of an engine or of the front-end has taken place. -/
  | took (o : Out)
  /-- The turn names an instruction word as an event. -/
  | refuse

/-- A trap at decode or a fetch fault (R56): taken once every earlier convoy has retired. -/
def State.decodeStop (s : State) (e : DecodeStop) : State :=
  match s.me.viq.getLast? with
  | some c => s.waitFor (.retired c.seq)
  | none =>
    let pc := s.me.pc
    if e.cause = Cause.poison then s.consumeError s.cur.src Cause.poison e.kind e.va 0xFFFFFFFF e.slot pc s.me.openStrip
    else s.takeStop s.cur.src pc [s.record s.cur.src e.cause e.kind e.va 0xFFFFFFFF e.slot pc 0]

/-- A check at issue that failed (R56): taken once every earlier convoy has retired; the convoy commits nothing. -/
def State.takeIssueStop (s : State) (pc : Word) (e : IssueStop) : State :=
  match s.me.viq.getLast? with
  | some c => s.waitFor (.retired c.seq)
  | none => s.takeStop s.cur.src s.me.pc [s.record s.cur.src e.cause 0 0 0xFFFFFFFF e.slot pc (BitVec.ofNat 64 e.detail)]

/-- Entries a convoy needs of VIQ, VMQ, MXQ and CPQ (R10). -/
def sluiceNeed (ws : List (BitVec 32)) : Nat × Nat × Nat × Nat :=
  (1, ws.countP usesVmq, ws.countP usesMxq, ws.countP usesCpq)

/-- The sluices of a strand have room (R10). -/
def Strand.sluiceRoom (t : Strand) (viq vmq mxq cpq : Nat) : Bool :=
  let waiting (p : BitVec 32 → Bool) : Nat := (t.viq.map (fun c => (c.words.drop c.next).countP p)).sum
  decide (t.viq.length + viq ≤ 32) && decide (waiting usesVmq + vmq ≤ 64)
    && decide (waiting usesMxq + t.mxq.length + mxq ≤ 8) && decide (waiting usesCpq + t.cpq.length + cpq ≤ 16)

/-- A convoy's entry as it enters: its operands and modes are captured (R85, R83, R157). -/
def Strand.newConvoy (t : Strand) (pc : Word) (ws : List (BitVec 32)) : Convoy :=
  let cp := ws.find? usesCpq
  let cap := match cp with | some w => capturedCopy t w | none => (0, 0)
  { seq := t.nextSeq, pc := pc, words := ws, ops := ws.map (captured t), cpyDst := cap.1, cpyChunk := cap.2,
    samp := t.modes, strip := t.openStrip.getD 0 }

/-- A timeline gives out its next number (R246). -/
def Timeline.next (l : Timeline) (wanted : Bool) : Timeline × Option Nat :=
  if wanted then ({ l with issued := l.issued + 1 }, some (l.issued + 1).toNat) else (l, none)

/-- A convoy joins the VIQ; its copy, matrix and `vlda` members take their numbers (R246). -/
def Strand.join (t : Strand) (c : Convoy) : Strand :=
  let (cp, nCp) := t.tlCopy.next (c.words.any usesCpq)
  let (mx, nMx) := t.tlMatrix.next (c.words.any usesMxq)
  let (as, nAs) := t.tlAsync.next (c.words.any isVlda)
  { t with viq := t.viq ++ [{ c with seq := t.nextSeq, nCp := nCp, nMx := nMx, nAs := nAs }], nextSeq := t.nextSeq + 1,
           tlCopy := cp, tlMatrix := mx, tlAsync := as }

/-- R351: members of majors 0x15 to 0x35 are counted; the slots sampled and the count after. -/
def sampleSlots (ctl : Word) (ws : List (BitVec 32)) (slot count : Nat) : List Nat × Nat :=
  match ws with
  | [] => ([], count)
  | w :: r =>
    if bitN ctl 0 && decide (0x15 ≤ majorOf w) && decide (majorOf w ≤ 0x35) then
      if count ≥ bitsN ctl 16 16 then
        let (l, n) := sampleSlots ctl r (slot + 1) 0
        (slot :: l, n)
      else sampleSlots ctl r (slot + 1) (count + 1)
    else sampleSlots ctl r (slot + 1) count

/-- The convoy at `pc` enters the VIQ of the executing strand. -/
def State.enter (s : State) (pc : Word) (ws : List (BitVec 32)) : State := 
  s.upd (fun t =>
    let (l, n) := sampleSlots t.csr.samplectl ws 0 t.sampleCount
    { t with sampleCount := n }.join { t.newConvoy pc ws with sampled := l })

/-- The scalar side after its convoy entered: it is past the convoy, and waits where a member writes a scalar
register (R59) or is an acquire-release atomic (R264 note d). -/
def State.pastConvoy (s : State) (ws : List (BitVec 32)) : State :=
  s.upd (fun t =>
    let t := { t with pc := t.pc + BitVec.ofNat 64 (4 * ws.length), wait := .none, st := .running }
    if ws.any (fun w => classOf w == some .scalarResult) then { t with st := .waiting, wait := .retired (t.nextSeq - 1) }
    else if ws.any isAcqRel then { t with st := .waiting, wait := .vecMem (t.nextSeq - 1) } else t)

/-- The member `c.next` of a queued convoy, as what is executed. -/
def State.curOf (s : State) (src : Nat) (c : Convoy) (limit : Option Nat) : Cur :=
  let t := s.strand src
  let k := c.next
  let op := c.ops.getD k (0, 0)
  let prev := c.words.getD (k - 1) 0
  { src := src, pc := c.pc, slot := c.slotOf k, seq := c.seq, member := k, samp := c.samp, op0 := op.1, op1 := op.2,
    cpyDst := c.cpyDst, cpyChunk := c.cpyChunk, first := if c.resumed then t.csr.estart.toNat else 0, resumed := c.resumed,
    skip := c.skip, hold := if c.from_ = 0 then c.hold else none, forceBlock := c.forceBlock, watchExempt := c.watchExempt, resval := c.resval, cpLine := c.cpLine,
    from_ := c.from_, limit := limit
    follow := if c.base < k && majorOf prev == 0x36 && minorOf prev == 2 then
        ((t.cpq.filter (fun o => o.seq == c.seq)).getLast?).map CpOp.num else none }

/-- Width and number of the elements of a convoy's next member, for its profile (R352): a braid line and a granule are elements, and so
is a bit of a mask. -/
def State.shapeOf (s : State) (src : Nat) (c : Convoy) : Nat × Nat :=
  let m := c.samp
  let ew := vtEw m.vtype
  match decode c.word with
  | .ok (.mjld _) | .ok (.mjst _) => (512, m.vl * ew / 512)
  | .ok (.mjrep _) | .ok (.l1cfg _) | .ok (.cflush _) | .ok (.cinv _) | .ok (.vwait _) => (ew, 0)
  | .ok (.vldg _) => (4, min (c.ops.getD c.next (0, 0)).2.toNat m.vl)
  | .ok (.vstg x) =>
    (4, min (c.ops.getD c.next (0, 0)).2.toNat ((s.strand src).vec.groupFill (s.vlb src) x.vd.toNat (vtGroup m.vtype)))
  | _ => (if majorOf c.word = 0x23 ∨ majorOf c.word = 0x24 then 1 else ew, m.vl)

/-- The next member of a convoy begins: a sampled one is profiled where TRACECTL asks for it (R347, R350, R351). -/
def State.beginSample (s : State) (src : Nat) (c : Convoy) : State :=
  if c.sampled.contains c.next then
    let t := s.strand src
    let (ew, n) := s.shapeOf src c
    let first := if c.resumed then t.csr.estart.toNat else 0
    let mine : List Sample := if bitN t.csr.tracectl 3 && !t.bind.secure then [⟨c.next, c.slotOf c.next, s.gtcOf src, first, ew, n⟩] else []
    s.updAt src (fun t => t.updConvoy c.seq (fun e =>
      { e with sampled := e.sampled.filter (· != c.next), samples := e.samples ++ mine }))
  else s

/-- What is kept before the next member of a convoy. -/
def Strand.keep (t : Strand) (c : Convoy) : Snap :=
  { at_ := c.next, vec := t.vec, estart := t.csr.estart, donemask := t.csr.donemask, resumed := c.resumed, forceBlock := c.forceBlock,
    watchExempt := c.watchExempt, resval := c.resval, pend := c.pendScalar, live := t.producers }

/-- Make the next member of a convoy the one in execution. The state before it is kept, where none is kept that results can be
discarded back to, and before a member after which they cannot (R85, R308). -/
def State.openMember (s : State) (src : Nat) (c : Convoy) (limit : Option Nat := none) : State :=
  let s := { s with cur := s.curOf src c limit }
  let s := s.beginSample src c
  if c.from_ = 0 && (c.snap.isNone || isAnchor c.word) then
    s.updAt src (fun t => t.updConvoy c.seq (fun e => { e with snap := some (t.keep c) }))
  else s

/-- The registers that a convoy's next member fills at its leisure: those of a `vlda`, a `cpyv` or a matrix instruction (R66). -/
def Convoy.fills (c : Convoy) : List Nat :=
  let w := c.word
  let n := if usesMxq w then (if minorOf w = 2 then 1 else mxCGroup c.samp.mxcfg)
    else if isVlda w || (usesCpq w && minorOf w == 1) then vtGroup c.samp.vtype else 0
  (List.range n).map (fldN w 19 6 + ·)

/-- A member after which earlier results cannot be discarded, and a copy, wait until the eddy has decided on every earlier one
(R308, R316); the former also until no register of a copy or matrix operation under way has been written over, or would be by it
(R253, R298, R324; assumption 17). -/
def Strand.barred (t : Strand) (c : Convoy) : Bool :=
  let undecided := t.viq.any (fun d => decide (d.seq ≤ c.seq) && !d.eddyDue.isEmpty)
  let covers (live : List Nat) : Bool := c.fills.any live.contains
  ((isAnchor c.word || usesCpq c.word) && undecided)
    || (isAnchor c.word && c.from_ == 0 && (!t.opsWhole || t.cpq.any (fun o => covers o.live) || t.mxq.any (fun o => covers o.live)))

/-- A marker of `fsv` holds back the vector memory members of a convoy (R255). -/
def Strand.marked (t : Strand) (c : Convoy) : Bool := isVecMem c.word && t.fsvMarks.any (fun m => decide (m.seq ≤ c.seq))

/-- The vector side of a strand performs the next member in program order, once its convoy has been issued; with a limit, no more
elements of a load or store than that. -/
def State.memberTurn (s : State) (src : Nat) (limit : Option Nat := none) : Pick :=
  if (s.strand src).vecHeld || (s.strand src).st == .unbound then .done s
  else
    let s := s.fsvSteps src (s.strand src).fsvMarks.length
    let t := s.strand src
    if t.vecHeld || t.st == .unbound then .done s
    else match t.pending with
    | none => .done s
    | some c =>
      if !c.issued || t.barred c || t.marked c then .done s
      else match decode c.word with
        | .error _ => .done s
        | .ok i => .run i (s.openMember src c limit)

/-- A convoy of the executing strand: checked at issue, it enters its sluices, and where the vector side is idle its
first member is executed in the same step, unless the turn is one that only enters it (R155). -/
def State.convoyTurn (s : State) (src : Nat) (ws : List (BitVec 32)) (enters : Bool := false) : Pick :=
  let t := s.strand src
  match issueStop t.modes (ws.map (s.givenOf src)) 0 with
  | some e => .done (s.takeIssueStop t.pc e)
  | none =>
    let (a, b, c, d) := sluiceNeed ws
    if !t.sluiceRoom a b c d then .done (s.waitFor (.sluice a b c d))
    else
      let idle := t.viq.isEmpty
      let s := (s.enter t.pc ws).pastConvoy ws
      if idle && !enters then (s.issueClock (coreOf src)).memberTurn src else .done s

/-- Another strand of the core is ready to fetch (R125). -/
def State.otherReady (s : State) (src : Nat) : Bool :=
  (coreStrands (coreOf src)).any (fun k => k != src && (s.strand k).st == .running)

/-- A running strand fetches and executes; one that has yielded lets the other ready strands of its core go first (R125). -/
def State.fetchRun (s : State) (src : Nat) (enters : Bool := false) : Pick :=
  let t := s.strand src
  if t.st ≠ .running || s.fetchHeld src t.pc (t.pc + 12) then .done s
  else if 0 < t.skip && s.otherReady src then .done (s.updAt src (fun t => { t with skip := t.skip - 1 }))
  else
    let s := if 0 < t.skip then s.updAt src (fun t => { t with skip := t.skip - 1 }) else s
    let s := { s with cur := { src := src, pc := t.pc, samp := t.modes } }
    match s.fetchWord src t.pc 0 with
    | .error e => .done (s.decodeStop e)
    | .ok (w, x) =>
      let s := s.see src t.pc x
      match decode w with
      | .error _ => .run (.illegalInstruction 0 w) s
      | .ok i =>
        if !convoyCapable w then .run i s
        else match s.fetchConvoy src t.pc [] 4 with
          | .error e =>
            if e.cause = 1 then .run (.illegalInstruction e.slot (e.va.truncate 32)) s else .done (s.decodeStop e)
          | .ok (ws, y) => (s.see src (t.pc + BitVec.ofNat 64 (4 * ws.length - 4)) y).convoyTurn src ws enters

/-- What comes about where an instruction of a strand that has halted is tried: the state after where the strand faults, the state
before where it does not (R120). -/
def State.ifFaulted (s after : State) (src : Nat) : State :=
  let ctx := (s.strand src).bind.ctx
  if (after.strand src).st = .halted || ((after.context ctx).state == 4 && (s.context ctx).state != 4) then after else s

/-- The scalar side of a strand fetches and executes (R10, R47). A strand of a group that has halted in this very clock may still
fault in it (R120). -/
def State.fetchTurn (s : State) (src : Nat) (enters : Bool := false) : Pick :=
  if s.lastClock src then
    match (s.updAt src (fun t => { t with st := .running })).fetchRun src enters with
    | .run i t => .trial i src t s
    | .done t => .done (s.ifFaulted t src)
    | p => p
  else s.fetchRun src enters

/-- ILLEGAL_INSTRUCTION (R55, R56). -/
def execIllegalInstruction (slot : Nat) (w : BitVec 32) (s : State) : Out := .next (s.decodeStop (illegalWord slot w))

end Sys2Proof.Machine
end

