-- ==== Sys2Proof/Machine/Sync.lean ====
section
/-! DEFINITION. Strips (setvl), barriers, timeline waits, queue instructions, markers, yield and the end of a strand
(R157, R133 to R136, R247, R97, R153, R125, R114). -/

namespace Sys2Proof.Machine

/-! ## setvl (R157, R311) -/

/-- The scalars INDMASK names, with their values (R157). -/
def Strand.checkpoint (t : Strand) : List (Nat × Word) :=
  ((List.range 32).filter (fun n => n != 0 && t.csr.indmask.getLsbD n)).map (fun n => (n, t.reg n))

/-- Open a new strip at the PC: the previous one can commit (R311). -/
def Strand.openNewStrip (t : Strand) : Strand :=
  { t with
    strips := (t.strips.map (fun r => { r with closed := true })) ++ [⟨t.nextStrip, t.pc, t.checkpoint, 0, false⟩]
    openStrip := some t.nextStrip, nextStrip := t.nextStrip + 1 }

/-- VL for a request, a type and a group (R157, R63). -/
def newVl (vlb req vt : Nat) : Nat :=
  min req (vlb * 2 ^ (vt / 4 % 4) / (ewOf (vt / 16)).getD 8)

def execSetvl (x : SetvlOp) (s : State) : Out :=
  let vt := x.etype ++ x.group ++ x.policy
  if (ewOf x.etype.toNat).isNone then .next (s.scalarStop 5 0 0 1)
  else if 2 ≤ s.me.strips.length then .next (s.waitFor .strips)
  else
    let vl := newVl (s.vlb s.cur.src) (s.rd x.sa).toNat vt.toNat
    .next (s.upd (fun t =>
      let t := { t with csr := { t.csr with vl := vl, vtype := vt } }
      ((t.setReg x.sd.toNat (BitVec.ofNat 64 vl)).openNewStrip).advance))

/-! ## Timelines (R247) -/

def execTlwait (x : SReg3) (s : State) : Out :=
  let va := s.rd x.sa
  if va.toNat % 8 ≠ 0 then .next (s.scalarStop Cause.misaligned 2 va 0)
  else match s.checkAccess .read va 8 false false with
    | .ok xl p =>
      let v := BitVec.ofNat 64 (leNat (s.scalarBytes xl p 8))
      if (s.rd x.sb).toNat ≤ v.toNat then .next (((s.touchScalar s.cur.src va xl).readLines (dieOf s.cur.src) [p]).wrNext x.sd v)
      else .next (s.waitFor (.counter va (s.rd x.sb)))
    | .wait f => .next (s.waitFor (.writeBlock f))
    | .stop c => .next (s.scalarStop c 2 va 0)
    | .error => .next (s.consumeError s.cur.src Cause.poison 2 va 0xFFFFFFFF 0 s.me.pc s.me.openStrip)
    | .beyond => .fault .locationBeyondSpace

def execTlget (x : SReg2) (s : State) : Out :=
  match (s.rd x.sa).toNat with
  | 0 => .next (s.wrNext x.sd s.me.tlCopy.issued)
  | 1 => .next (s.wrNext x.sd s.me.tlMatrix.issued)
  | 2 => .next (s.wrNext x.sd s.me.tlAsync.issued)
  | _ => .next (s.scalarStop 5 0 0 5)

/-! ## Barriers (R133, R134) -/

/-- The release of an arrival: the strand's earlier scalar and vector memory operations are performed at group scope,
the strip buffer among them (R133, R229). A fault of an earlier convoy comes first (R135). A copy or a matrix operation of an earlier
convoy is not waited for (R133): one that faults after the arrival was counted leaves it counted (assumption 78). -/
def State.barRelease (s : State) (a : Arrive) (k : State → State) : State :=
  let w := Wait.arrival a s.me.nextSeq
  match s.me.lastOpen with
  | some q => s.waitFor (.arrival a q)
  | none => s.drainPoint (fun s => s.stripEventOr w 3 (fun s =>
      if s.flying s.cur.src then s.waitFor w else k (s.upd Strand.fixReads)))

/-- The group's barriers are held (R132). -/
def State.held (s : State) : Bool := (s.group s.me.group).state == .halted

/-- In a group of one strand a barrier instruction finishes at once and orders nothing (R134): the open strip becomes
non-rewindable, and its buffer commits now only where nothing has to be waited for (R229; assumption 54). -/
def State.barAlone (s : State) (sd : BitVec 5) : State :=
  let t := s.me
  let now := t.ssq.isEmpty && !t.olderStrips && !s.bufHeld s.cur.src
  let s' := if now then s.stripEvent s.cur.src 3 else s.upd (fun t => t.markStrip 3)
  s.ifStays s' (fun s => s.wrNext sd 0)

/-- Arrive at local barrier `b`: the token and the state after (R133). -/
def State.arriveAt (s : State) (b : Nat) : State × Nat :=
  match s.barrierOf (clusterOf s.cur.src) s.me.group b with
  | none => (s, 0)
  | some (ix, e) =>
    let e' := e.arrive s.me.bind.ix
    (s.setBarrier (clusterOf s.cur.src) ix e'.complete, e.phase.toNat)

/-- Arrivals in the order of (GTC, source number) (R132). -/
def arrivalOrder (l : List (Word × Nat)) : List (Word × Nat) :=
  l.mergeSort (fun a b => decide (a.1.toNat < b.1.toNat) || (a.1 == b.1 && decide (a.2 ≤ b.2)))

/-- The phase of local barrier `b`. -/
def State.phaseOf (s : State) (b : Nat) : Nat :=
  match s.barrierOf (clusterOf s.cur.src) s.me.group b with
  | none => 0
  | some (_, e) => e.phase.toNat

/-- `wait(B, T)` of R133. -/
def State.waitPhase (s : State) (sd : BitVec 5) (b tok : Nat) : State :=
  let d := (s.phaseOf b + 65536 - tok) % 65536
  if d > 32768 then (s.upd (fun t => { t with barTok := none })).scalarStop 5 0 0 5
  else if d = 0 then s.waitFor (.barrier sd b tok)
  else (s.upd (fun t => { t with barTok := none })).wrNext sd (BitVec.ofNat 64 (s.phaseOf b))

/-- An arrival is made, and its instruction goes on: `bararr` returns the token, `bar` waits for the phase (R133). -/
def State.arrived (s : State) (a : Arrive) : State :=
  let (s, tok) := s.arriveAt a.b
  if a.stays then (s.upd (fun t => { t with barTok := some (a.b, tok) })).waitPhase a.sd a.b tok
  else s.wrNext a.sd (BitVec.ofNat 64 tok)

/-- `arrive(B)` (R133): the release, then the arrival, which waits while the group is halted (R132). -/
def State.arrival (s : State) (a : Arrive) : State :=
  s.barRelease a (fun s =>
    if s.held then (s.upd (fun t => { t with barDue := some (a, s.gtcOf s.cur.src) })).waitFor .resume else s.arrived a)

/-- The release of a strand's arrival in a halted group is over: the arrival is deferred, with its time (R132). -/
def State.arrivalDue (s : State) (src : Nat) (a : Arrive) : State :=
  let u := { s with cur := { src := src, pc := (s.strand src).pc } }.barRelease a (fun s =>
    s.upd (fun t => { t with barDue := some (a, s.gtcOf src) }))
  { u.updAt src (fun t => if t.st = .waiting then { t with st := .halted } else t) with cur := s.cur }

/-- An arrival deferred while the group was halted is made (R132), and its instruction goes on. -/
def State.arriveDue (s : State) (src : Nat) : State :=
  match (s.strand src).barDue with
  | none => s
  | some (a, _) =>
    let s := { s with cur := { src := src, pc := (s.strand src).pc } }.updAt src (fun t => { t with barDue := none })
    s.barRelease a (fun s => s.arrived a)

/-- A barrier instruction's operand: s[sa] is 0 or 1 (R133). -/
def State.barOperand (s : State) (sa : BitVec 5) (k : Nat → State) : Out :=
  if (s.rd sa).toNat > 1 then .next (s.scalarStop 5 0 0 5) else .next (k (s.rd sa).toNat)

def execBar (x : SReg2) (s : State) : Out :=
  s.barOperand x.sa (fun b =>
    if s.me.bind.gsize ≤ 1 then s.barAlone x.sd
    else match s.me.barTok with
      | some (b', tok) => if b' = b then s.waitPhase x.sd b tok else (s.upd (fun t => { t with barTok := none }))
      | none => s.arrival ⟨b, x.sd, true⟩)

def execBararr (x : SReg2) (s : State) : Out :=
  s.barOperand x.sa (fun b =>
    if s.me.bind.gsize ≤ 1 then s.barAlone x.sd
    else match s.me.barTok with
      | some (b', tok) =>
        let s := s.upd (fun t => { t with barTok := none })
        if b' = b then s.wrNext x.sd (BitVec.ofNat 64 tok) else s
      | none => s.arrival ⟨b, x.sd, false⟩)

def execBarwt (x : SReg3) (s : State) : Out :=
  s.barOperand x.sa (fun b =>
    if s.me.bind.gsize ≤ 1 then s.wrNext x.sd 0
    else s.waitPhase x.sd b ((s.rd x.sb).toNat % 65536))

/-! ## Queue instructions (R97) -/

/-- The queue an instruction names, or the queue-access stop. -/
def State.queueOperand (s : State) (sa : BitVec 5) (k : Nat → Queue → Out) : Out :=
  let q := (s.rd sa).toNat
  let d := (s.queue q).desc
  if q > 1023 || d.state == 0 || d.postCtx.toNat ≠ s.me.bind.ctx then .next (s.scalarStop 23 0 (BitVec.ofNat 64 q) 0)
  else k q (s.queue q)

/-- The atomic on TAIL of `qpost` (R97): in the queue's context, at system scope; its failure is cause 23. -/
def State.postTail (s : State) (q : Nat) (qu : Queue) (n : Nat) (sd : BitVec 5) : State :=
  let die := dieOf s.cur.src
  let ctx := qu.desc.ctxid.toNat
  let stop (c : Nat) : State := s.scalarStop 23 0 (BitVec.ofNat 64 q) (BitVec.ofNat 64 c)
  if s.accessHeld die ctx ((s.context ctx).flags.getLsbD 0) .atomic qu.desc.qcb then s.waitFor (.writeBlock (s.frameOf die ctx qu.desc.qcb))
  else match s.translate die ctx ((s.context ctx).flags.getLsbD 0) .atomic qu.desc.qcb with
    | .error c => stop c
    | .ok x => match x.place with
      | none => stop Cause.atomicNot
      | some p =>
        if x.fme.kind = 5 then stop Cause.atomicNot
        else if s.poisoned p 8 then stop Cause.poison
        else
          let (s, old) := s.atomicAt qu.desc.qcb p 8 0 n 0
          (s.setQueue q { s.queue q with noticed := true }).wrNext sd (BitVec.ofNat 64 ((old + n) % 2 ^ 64))

def execQpost (x : SReg3) (s : State) : Out :=
  s.queueOperand x.sa (fun q qu =>
    if (s.rd x.sb).toNat > 255 then .next (s.scalarStop 5 0 0 5)
    else match s.me.lastVecMem with
      | some c => .next (s.waitFor (.vecMem c))
      | none => .next (s.withStripEvent 1 (fun s =>
          let s := s.upd Strand.fixReads
          if !s.writesDone s.cur.src 4 then s.waitFor (.fence 1 4)
          else s.postTail q qu (s.rd x.sb).toNat x.sd)))

/-- Scalar stores of 8 bytes each from `va` on, each with its own checks (R145); then go on. -/
def State.storeWords (s : State) (va : Word) (ws : List Nat) (k : State → State) : Out :=
  match ws with
  | [] => .next (k s)
  | w :: r =>
    match s.checkAccess .write va 8 (s.scalarWatched .write va 8) false with
    | .ok x _ =>
      let s' := (s.see s.cur.src va x).enqueueStore va x (leBytes 8 w)
      if s.gone s' s.cur.src then .next s' else State.storeWords s' (va + 8) r k
    | .wait f => .next (s.waitFor (.writeBlock f))
    | .stop c =>
      if c = 37 then .next ((s.upd (fun t => { t with scalarExempt := true })).scalarStop 37 3 va 1)
      else .next (s.scalarStop c 3 va 0)
    | .error => .next (s.consumeError s.cur.src Cause.poison 3 va 0xFFFFFFFF 0 s.me.pc s.me.openStrip)
    | .beyond => .fault .locationBeyondSpace

def execQhash (x : SReg3) (s : State) : Out :=
  s.queueOperand x.sa (fun q qu =>
    let va := s.rd x.sb
    if va.toNat % 8 ≠ 0 then .next (s.scalarStop Cause.misaligned 3 va 0)
    else if s.accessHeld (dieOf s.cur.src) qu.desc.ctxid.toNat true .read qu.desc.qcb then .next (s.waitFor (.writeBlock 0))
    else match s.ctxRead (dieOf s.cur.src) qu.desc.ctxid.toNat qu.desc.qcb 64 with
      | .error c => .next (s.scalarStop 23 0 (BitVec.ofNat 64 q) (BitVec.ofNat 64 c))
      | .ok bs =>
        let d := cutN bs 8 8
        s.storeWords va [d, 0, cutN bs 0x10 8, cutN bs 0x18 8, cutN bs 0x20 8, cutN bs 0x28 8]
          (fun s => s.wrNext x.sd (BitVec.ofNat 64 d)))

/-! ## mark, yield (R153, R125) -/

def execMark (x : Code12) (s : State) : Out :=
  let t := s.me
  let s := if bitN t.csr.tracectl 1 then s.trace s.cur.src 2 [x.code.zeroExtend 64, t.pc] else s
  .next s.goNext

/-- R125: the deficit falls to at most 0, the turn passes to the next strand in slot order, and the strand passes over 16 fetch
turns where another strand of the core is ready. -/
def execYield (s : State) : Out :=
  let core := coreOf s.cur.src
  let c := s.core core
  let s := if c.turn = some s.cur.src then s.setCore core { c with turnOver := true, turnCharge := 0 } else s
  .next (s.upd (fun t => { t.advance with deficit := min t.deficit 0, skip := 16 }))

/-! ## Ending (R114, R74, R119) -/

/-- R74: the state of a context after one of its groups left its slots. -/
def State.refreshContext (s : State) (ctx : Nat) : State :=
  let c := s.context ctx
  if c.state = 2 ∨ c.state = 3 then
    let live (p : Group → Bool) : Bool := s.groups.any (fun (_, g) => g.ctx == ctx && p g)
    let st : BitVec 8 :=
      if live (fun g => g.state == .resident || g.state == .halted || g.state == .saving || !g.members.isEmpty) then 2
      else if live (fun g => g.state == .saved) then 3 else 1
    s.setContext ctx { c with state := st }
  else s

/-- A strand of a group ends: its ENDED bits, its slot, its group and launch (R114, R119, R136). -/
def State.endStrandOf (s : State) (src : Nat) : State :=
  let t := s.strand src
  let k := t.group
  let j := t.bind.ix
  let held := (s.group k).state == .halted
  let cl := clusterOf src
  let s := (s.cluster cl).barriers.foldl (fun s (ix, e) =>
      if e.bound && e.owner == some k then
        let e' := e.end_ j
        s.setBarrier cl ix (if held then e' else e'.complete)
      else s) s
  let g := s.group k
  let g' := { g with ended := g.ended ||| BitVec.ofNat 16 (2 ^ j), members := g.members.erase j }
  let l := s.launch k.launch
  let last := g'.members.isEmpty
  let s := if (look s.groups k).isSome then s.setGroup k { g' with state := if last then .ended else g'.state } else s
  let s := if (look s.launches k.launch).isSome then
      s.setLaunch k.launch { l with flags := l.flags ||| t.vec.fstat, strands := l.strands + 1 } else s
  let s := if last then s.resetBarriers k else s
  (s.free src).refreshContext t.bind.ctx

/-- The queues and timelines of the strand are empty and complete (R114). -/
def Strand.quiet (t : Strand) : Bool :=
  t.viq.isEmpty && t.mxq.isEmpty && t.cpq.isEmpty && t.lands.isEmpty && t.enginesDone true true true

def execEndStrand (s : State) : Out :=
  if !s.me.quiet then .next (s.waitFor .ending)
  else .next (s.drainPoint (fun s =>
    s.ifStays (s.drain s.cur.src) (fun s =>
      if !s.me.ssq.isEmpty || s.bufHeld s.cur.src then s.waitFor .ending
      else s.ifStays (s.commitStrips s.cur.src (fun _ => true)) (fun s =>
        if !s.writesDone s.cur.src 4 then s.waitFor .ending else s.endStrandOf s.cur.src))))

end Sys2Proof.Machine
end

