-- ==== Sys2Proof/Machine/System.lean ====
section
/-! DEFINITION. `trap`, `brk`, `eret`, `halt` (R152) and `rpt` (R162, R163, R64). -/

namespace Sys2Proof.Machine

/-! ## Traps (R152) -/

/-- A service stop: it waits until every earlier convoy has retired, then its record is written and the group halts. -/
def State.service (s : State) (cause : Nat) (va resume : Word) (k : State → State) : Out :=
  match s.me.viq.getLast? with
  | some c => .next (s.waitFor (.retired c.seq))
  | none => .next (k (s.takeStop s.cur.src resume [s.record s.cur.src cause 0 va 0xFFFFFFFF 0 s.me.pc 0]))

/-- Resident groups of a launch, with the strands in their slots. -/
def State.groupsOf (s : State) (k : LaunchKey) : List (GroupKey × Group) := s.groups.filter (fun (g, _) => g.launch = k)

/-- Open strips committed as strands of a launch left: a store that failed is fatal (R152, R315). -/
def State.lastCommits (s : State) (k : LaunchKey) (fails : List FRec) : State :=
  match fails with
  | [] => s
  | r :: rest => rest.foldl (fun s f => s.toMgmt f.die f 0) (s.fatal r.source k r)

/-- R152: the launch ends at `trap 0`. Its groups end, without images; FLAGS takes the strand's FSTAT; the launch
completes with CAUSE 19 when every slot is free. -/
def State.endLaunch (s : State) (k : LaunchKey) (flags : BitVec 7) : State :=
  let gs := s.groupsOf k
  let srcs := gs.flatMap (fun (_, g) => g.members.map Prod.snd)
  let ctx := (s.launch k).ctx
  let s := s.parkAll srcs
  let s := gs.foldl (fun s (g, _) => s.resetBarriers g) s
  let s := gs.foldl (fun s (g, x) => s.setGroup g { x with state := .ended }) s
  let l := s.launch k
  let s := s.setLaunch k { l with stopped := true, cause := 19, flags := l.flags ||| flags }
  let s := { s with mgmt := s.mgmt ++ [MgmtNote.launchEnded k] }
  let (s, fails) := s.leaveAll srcs
  s.lastCommits k fails |>.refreshContext ctx

/-- The launch of a strand, where it belongs to one that runs. -/
def State.launched (s : State) (src : Nat) : Bool := (look s.launches (s.strand src).bind.launch).isSome

def execTrap (x : Code12) (s : State) : Out :=
  let flags := s.me.vec.fstat
  let k := s.me.bind.launch
  let ctx := s.me.bind.ctx
  s.service 33 (x.code.zeroExtend 64) (s.me.pc + 4) (fun t =>
    if x.code = 0 && s.launched s.cur.src && !t.faulted ctx then t.endLaunch k flags else t)

def execBrk (x : Code12) (s : State) : Out := s.service 34 (x.code.zeroExtend 64) s.me.pc id

def execEret (s : State) : Out := s.service 35 0 s.me.pc id

/-- Halt every resident group of a context (R152). -/
def State.haltContext (s : State) (ctx : Nat) : State :=
  (s.groups.filter (fun (_, g) => g.ctx == ctx && g.state == .resident)).foldl (fun s (k, _) => s.haltResident k) s

def execHalt (s : State) : Out :=
  if !s.me.bind.privileged then .next (s.decodeTrap 4 (wordOf .halt))
  else
    let ctx := s.me.bind.ctx
    s.service 36 0 (s.me.pc + 4) (fun t => t.haltContext ctx)

/-! ## rpt (R162, R163) -/

/-- R163: a word that may stand in the body. -/
def bodyWord (w : BitVec 32) : Bool := decide (0x15 ≤ majorOf w) && decide (majorOf w ≤ 0x2B) && classOf w != some .scalarResult

/-- Why a body cannot be taken: the failing word or address, and the address of the word. -/
structure BodyStop where
  stop : DecodeStop
  detail : Word
  deriving DecidableEq, Repr

/-- Fetch and check the `left` body words from `pc` on (R163). -/
def State.bodyWords (s : State) (src : Nat) (pc : Word) (left : Nat) : Except BodyStop (List (BitVec 32) × List (Word × Xl)) :=
  match left with
  | 0 => .ok ([], [])
  | k + 1 =>
    match s.fetchWord src pc 0 with
    | .error e => .error ⟨e, 0⟩
    | .ok (w, x) =>
      match decode w with
      | .error _ => .error ⟨illegalWord 0 w, pc⟩
      | .ok _ =>
        if !bodyWord w || (k = 0 && cBit w) then .error ⟨illegalWord 0 w, pc⟩
        else match State.bodyWords s src (pc + 4) k with
          | .error e => .error e
          | .ok (ws, xs) => .ok (w :: ws, (pc, x) :: xs)

/-- Stage of body word `i` (R162). -/
def stageOf (map : Word) (i : Nat) : Nat := bitsN map (2 * i) 2

/-- Body word `i` executes in replay `r` of `c`. -/
def executes (map : Word) (c r i : Nat) : Bool := decide (stageOf map i ≤ r) && decide (r - stageOf map i < c)

/-- Replays of a trip count (R162). -/
def replays (map : Word) (c f : Nat) : Nat :=
  if c = 0 then 0 else c + ((List.range f).map (stageOf map)).foldl max 0

/-- The convoys of replay `r`: number of the first body word, and the words, rotated (R162, R64). `open_`: the words so far
of the convoy in formation. -/
def replayConvoys (map : Word) (c r stagger i : Nat) (body : List (BitVec 32)) (open_ : List (BitVec 32)) :
    List (Nat × List (BitVec 32)) :=
  match body with
  | [] => []
  | w :: rest =>
    if !executes map c r i then replayConvoys map c r stagger (i + 1) rest []
    else
      let ws := open_ ++ [rotateWord w (r * stagger)]
      if cBit w && executes map c r (i + 1) && !rest.isEmpty then replayConvoys map c r stagger (i + 1) rest ws
      else (i + 1 - ws.length, ws) :: replayConvoys map c r stagger (i + 1) rest []

/-- The first member of a convoy that breaks R57 or R58. -/
def convoyBreaks (before ws : List (BitVec 32)) : Option DecodeStop :=
  match ws with
  | [] => none
  | w :: rest =>
    let slot := before.length
    if (classOf w).isSome && before.any (fun b => classOf b == classOf w) then some ⟨3, slot, w.zeroExtend 64, 0⟩
    else if slot = 3 ∧ !rest.isEmpty then some ⟨2, slot, w.zeroExtend 64, 0⟩
    else convoyBreaks (before ++ [w]) rest

/-- A stop of `rpt` before a replay: once every earlier convoy has retired (R56). -/
def State.rptStop (s : State) (e : BodyStop) (pc : Word) : State :=
  match s.me.viq.getLast? with
  | some c => s.waitFor (.retired c.seq)
  | none =>
    if e.stop.cause = Cause.poison then
      s.consumeError s.cur.src Cause.poison e.stop.kind e.stop.va 0xFFFFFFFF e.stop.slot s.me.pc s.me.openStrip
    else s.takeStop s.cur.src s.me.pc [s.record s.cur.src e.stop.cause e.stop.kind e.stop.va 0xFFFFFFFF e.stop.slot pc e.detail]

/-- Convoys of a replay enter the VIQ in order. -/
def State.enterAll (s : State) (pc : Word) (cs : List (Nat × List (BitVec 32))) : State :=
  match cs with
  | [] => s
  | (i, ws) :: r => State.enterAll (s.enter (pc + BitVec.ofNat 64 (4 + 4 * i)) ws) pc r

/-- Write s[sb]<63:32> (R162). -/
def State.setIndex (s : State) (sb : BitVec 5) (r : Nat) : State :=
  s.upd (fun t => t.setReg sb.toNat (BitVec.ofNat 64 ((t.reg sb.toNat).toNat % 2 ^ 32 + r * 2 ^ 32)))

/-- One replay, or the end of the `rpt`. -/
def State.replayOne (s : State) (x : RptOp) (p : Replay) : State :=
  let map := s.rd x.sb
  let pc := s.me.pc
  if replays map p.count p.body.length ≤ p.next then
    (s.setIndex x.sb 0).upd (fun t => { t.jump (pc + BitVec.ofNat 64 (4 + 4 * p.body.length)) with replay := none })
  else
    let cs := replayConvoys map p.count p.next x.stagger.toNat 0 p.body []
    let at_ (i : Nat) : Word := pc + BitVec.ofNat 64 (4 + 4 * i)
    match cs.findSome? (fun (i, ws) => (convoyBreaks [] ws).map (fun e => (i, e))) with
    | some (i, e) => s.rptStop ⟨e, 0⟩ (at_ i)
    | none =>
      match cs.findSome? (fun (i, ws) => (issueStop s.me.modes (ws.map (s.givenOf s.cur.src)) 0).map (fun e => (i, e))) with
      | some (i, e) => s.takeIssueStop (at_ i) e
      | none =>
        if !s.me.sluiceRoom cs.length 0 0 0 then s.waitFor (.sluice cs.length 0 0 0)
        else ((s.enterAll pc cs).setIndex x.sb (p.next + 1)).upd (fun t =>
          { t with wait := .none, st := .running, replay := some { p with next := p.next + 1 } })

def execRpt (x : RptOp) (s : State) : Out :=
  match s.me.replay with
  | some p => .next (s.replayOne x p)
  | none =>
    let c := (s.rd x.sa).toNat
    if c > 2 ^ 32 - 4 then .next (s.scalarStop 5 0 0 5)
    else if s.fetchHeld s.cur.src (s.me.pc + 4) (s.me.pc + 4 + BitVec.ofNat 64 (4 * x.fm1.toNat)) then .next s
    else match s.bodyWords s.cur.src (s.me.pc + 4) (x.fm1.toNat + 1) with
      | .error e => .next (s.rptStop e s.me.pc)
      | .ok (ws, xs) =>
        .next ((xs.foldl (fun s (pc, y) => s.see s.cur.src pc y) s).replayOne x ⟨c, bitsN (s.rd x.sb) 32 32, ws⟩)

end Sys2Proof.Machine
end

