-- ==== Sys2Proof/Machine/Retire.lean ====
section
/-! DEFINITION. What happens to a convoy and a strand beside instructions: retirement (R59), a wait that ends (R118), the
eddy (R317 to R319), strips that commit (R311), errors (R313, R315), records that waited (R305). -/

namespace Sys2Proof.Machine

/-! ## Retirement (R10, R59, R277) -/

/-- The oldest convoy can retire (R59, R317). -/
def Strand.headDone (t : Strand) (c : Convoy) : Bool := !t.vecHeld && c.issued && t.finished c

/-- CONVOY_RETIRE (R59): the oldest convoy frees its entries and its scalar result is written. A stop found in it is taken instead
(R191, R316). -/
def execConvoyRetire (src : Nat) (s : State) : Out :=
  let t := s.strand src
  match t.viq with
  | [] => .next s
  | c :: _ => .next (if t.headDone c then (s.traceRetire src c).updAt src Strand.retireHead else s.takePending src)

/-! ## A wait that ends (R118) -/

/-- A counter in memory has reached a value, or its read no longer waits (R247). -/
def State.counterAt (s : State) (src : Nat) (va n : Word) : Bool :=
  let t := s.strand src
  match s.translate (dieOf src) t.bind.ctx t.bind.secure .read va (some (coreOf src)) with
  | .error _ => true
  | .ok x => match x.place with
    | none => true
    | some p => s.poisoned p 8 || decide (n.toNat ≤ leNat (s.queueBytes src x.fa (s.loadBytes src x p 8)))

/-- Phase of a strand's local barrier. -/
def State.phaseAt (s : State) (src b : Nat) : Nat :=
  match s.barrierOf (clusterOf src) (s.strand src).group b with
  | some (_, e) => e.phase.toNat
  | none => 0

/-- What a strand waits for has come about. -/
def State.waitOver (s : State) (src : Nat) : Bool :=
  let t := s.strand src
  match t.wait with
  | .none | .resume => true
  | .sluice a b c d => t.sluiceRoom a b c d
  | .retired q => t.viq.all (fun c => decide (q < c.seq))
  | .vecMem q => t.viq.all (fun c => decide (q < c.seq) || !(c.words.drop c.next).any isVecMem)
  | .arrival _ q => t.viq.all (fun c => decide (q < c.seq) || (decide (c.words.length ≤ c.next) && c.eddyDue.isEmpty && c.pendStop.isNone))
      && !t.olderStrips && !s.bufHeld src && !s.queueHeld src && !s.flying src
  | .engines cp mx as => t.enginesDone cp mx as
  | .fence kinds scope => s.fenceDone src kinds scope
  | .ending => t.quiet
  | .strips => decide (t.strips.length < 2)
  | .olderStrips => !t.olderStrips && !s.bufHeld src && !s.queueHeld src
  | .writeBlock f => !(s.fme (dieOf src) f).w && !s.copying
  | .migration f => !s.migrations.any (fun m => m.frame == f && m.owner == some src && m.waits)
  | .barrier _ b tok => s.phaseAt src b != tok
  | .counter va n => s.counterAt src va n

/-- CONDITION_CLEARS (R118): a waiting strand runs again, and a barrier instruction whose phase is over finishes (R135). What comes
about for an arrival of a halted group is kept with its time (R132). -/
def execConditionClears (src : Nat) (s : State) : Out :=
  let t := s.strand src
  .next (if !s.waitOver src then s
    else match t.st, t.wait with
      | .waiting, .barrier _ _ _ => s.finishBarrier src
      | .waiting, _ => s.updAt src (fun t => { t with st := .running, wait := .none })
      | .halted, .arrival a _ => if (s.group t.group).state = .halted ∧ t.barDue = none then s.arrivalDue src a else s
      | _, _ => s)

/-! ## Pre-emption is asked for (R123) -/

/-- Steps 1 of R123: issue stops on every strand of the group. -/
def State.preempt (s : State) (k : GroupKey) : State :=
  let g := s.group k
  if g.state = .resident ∨ g.state = .halted then
    (s.parkAll (g.members.map Prod.snd)).setGroup k { g with state := .saving }
  else s

/-! ## The eddy (R317 to R319) -/

/-- The oldest member awaiting the eddy, with its convoy. -/
def Strand.inEddy (t : Strand) : Option (Convoy × Nat) :=
  if t.vecHeld then none
  else (t.viq.find? (fun c => !c.eddyDue.isEmpty)).bind (fun c => c.eddyDue.min?.map (fun m => (c, m)))

/-- The eddy is done with a member: its runs agree, or it goes on unchecked. A stop that waited for that may now be taken (R191,
R316). -/
def State.decided (s : State) (src seq member : Nat) (missed : Bool) : State :=
  (s.updAt src (fun t => t.updConvoy seq (fun c =>
    { c with eddyDue := c.eddyDue.filter (· != member), eddyMiss := c.eddyMiss || missed }))).takePending src

/-- Charge a lane group with a disagreement (R319). -/
def Core.charge (c : Core) (lane : Nat) : Core := { c with disagree := c.disagree.set lane (c.disagree.getD lane 0 + 1) }

/-- The strip of a convoy, where it can be rewound. -/
def Convoy.strip? (c : Convoy) : Option Nat := if c.strip = 0 then none else some c.strip

/-- EDDY_RECHECK (R318): the verdict of the runs of the oldest member that awaits one. -/
def execEddyRecheck (src : Nat) (v : EddyVerdict) (s : State) : Out :=
  match (s.strand src).inEddy with
  | none => .next s
  | some (c, m) =>
    let slot := c.slotOf m
    match v with
    | .agree => .next (s.decided src c.seq m false)
    | .majority e losers =>
      let k := coreOf src
      let l := (s.strand src).bind.launch
      let (g, lane) := losers.headD (0, 0)
      let s := s.setCore k ((losers.map Prod.snd).dedup.foldl Core.charge (s.core k))
      let s := if (look s.launches l).isSome then s.setLaunch l { s.launch l with eddy := true } else s
      let s := s.notice src (s.record src 43 0 0 (BitVec.ofNat 32 e) slot c.pc
        (BitVec.ofNat 64 (g % 16 + lane % 16 * 16 + slot % 16 * 256)))
      .next (s.decided src c.seq m false)
    | .allDiffer e => .next (s.consumeError src 19 0 0 (BitVec.ofNat 32 e) slot c.pc c.strip?)

/-- EDDY_CHECK_LIMIT (R317): under opportunistic recheck the member goes on unchecked. -/
def execEddyCheckLimit (src : Nat) (s : State) : Out :=
  match (s.strand src).inEddy with
  | none => .next s
  | some (c, m) => .next (if c.samp.rchk = 1 then s.decided src c.seq m true else s)

/-- Strands bound on a core. -/
def State.boundOn (s : State) (core : Nat) : List Nat := (coreStrands core).filter (fun k => (s.strand k).st != .unbound)

/-- One bound strand of each context on a core, for the notices of R319. -/
def State.contextsOn (s : State) (core : Nat) : List Nat :=
  (s.boundOn core).foldl (fun l k => if l.any (fun j => s.ctxOf j == s.ctxOf k) then l else l ++ [k]) []

/-- R80: a context whose VLB a core no longer holds has its groups on the core pre-empted. -/
def State.evict (s : State) (core : Nat) : State :=
  let cap := (s.core core).laneCap
  ((s.boundOn core).filter (fun k => decide (cap < (s.context (s.ctxOf k)).vlb.toNat))).foldl (fun s k => s.preempt (s.strand k).group) s

/-- LANE_GROUP_RETIRE (R319, R80, R361): LANEDIS, the notices, the replace request. -/
def execLaneGroupRetire (die core lane : Nat) (s : State) : Out :=
  let k := die % 8 * 16 + core % 16
  let n := lane % 16
  let c := s.core k
  if c.disagree.getD n 0 < 4 ∨ c.laneDis.getLsbD n then .next s
  else
    let s := s.setCore k { c with retired := c.retired ||| BitVec.ofNat 16 (2 ^ n) }
    let s : State := (s.contextsOn k).foldl (fun s j => s.notice j (s.record j 44 0 0 0xFFFFFFFF 0 0 (BitVec.ofNat 64 n))) s
    let s : State := { s with flash := { s.flash with lanes := s.flash.lanes ++ [(k, n)] } }
    .next ((s.replace 1).evict k)

/-- DISAGREEMENT_COUNT_CLEAR (R319): every 2^32 GTC ticks the die clears its counts. -/
def execDisagreementCountClear (die : Nat) (s : State) : Out :=
  let k := die % 8
  let d := s.die k
  if (d.gtc - d.disagreeClear).toNat < 2 ^ 32 then .next s
  else
    let s : State := { s with cores := s.cores.map (fun (p : Nat × Core) => (p.1, if p.1 / 16 = k then { p.2 with disagree := [] } else p.2)) }
    .next (s.setDie k { d with disagreeClear := d.gtc })

/-! ## Strips (R311) -/

/-- Stores of strips up to `n` still in the scalar store queue, with those before them. -/
def Strand.queuedUpTo (t : Strand) (n : Nat) : Nat :=
  (t.ssq.zipIdx.map (fun (q, i) => match q.strip with | some k => if k ≤ n then i + 1 else 0 | none => 0)).foldl max 0

/-- STRIP_COMMIT (R311): the oldest strip, once it is closed and its convoys have retired, its queued stores have entered the
buffer (R229), and no store of it is held. It is a drain point (R335). -/
def execStripCommit (src : Nat) (s : State) : Out :=
  match (s.strand src).strips with
  | [] => .next s
  | r :: _ =>
    if !r.closed || (s.strand src).viq.any (fun c => decide (c.strip ≤ r.id)) then .next s
    else
      match (s.strand src).lostStore with
      | some va => .next ((s.updAt src (fun t => { t with lostStore := none })).consumeError src 19 3 va 0xFFFFFFFF 0 r.pc (some r.id))
      | none =>
        let s' := s.drainAll src ((s.strand src).queuedUpTo r.id)
        let t := s'.strand src
        let held := (t.buf.filter (fun b => b.strip == r.id)).any (s'.bufBlocked src)
        if s.gone s' src || t.queuedUpTo r.id ≠ 0 || held then .next s'
        else
          let u := s'.commitStrips src (· == r.id)
          .next (if s'.gone u src then u else u.updAt src (fun t => { t with strips := t.strips.filter (fun q => q.id != r.id) }))

/-- BUFFER_OVERFLOW (R311): the buffer is full and another line is needed: every uncommitted strip commits and the open one
becomes non-rewindable. -/
def execBufferOverflow (src : Nat) (s : State) : Out :=
  let t := s.strand src
  match t.openStrip with
  | none => .next s
  | some i => .next (if 512 ≤ bufLines t.buf && !s.bufHeld src then s.overflow src i else s)

/-! ## Errors and waiting records -/

/-- The line a consumer's read failed at is poisoned (R320). -/
def State.poisonAt (s : State) (src : Nat) (va : Word) : State :=
  match s.translate (dieOf src) (s.ctxOf src) true .read va with
  | .ok x => (match x.place with | some p => s.setPoison (lineOf p.key) true | none => s)
  | .error _ => s

/-- UNCORRECTABLE_ERROR (R313, R315, R316): the scalar instruction (access kinds 1 to 4) or the strand's oldest convoy consumes an error
of cause 18 or 19. -/
def execUncorrectableError (src : Nat) (error : ErrorMet) (elem : Nat) (addr : Word) (s : State) : Out :=
  let t := s.strand src
  let cause := error.cause
  let kind := error.kind
  let s := if t.st ≠ .unbound ∧ cause = 18 then s.poisonAt src addr else s
  if t.st = .unbound ∨ ¬(cause = 18 ∨ cause = 19) then .next s
  else match (if 1 ≤ kind ∧ kind ≤ 4 then [] else t.viq) with
    | c :: _ => .next (s.consumeError src cause kind addr (BitVec.ofNat 32 elem) (c.slotOf (min c.next (c.words.length - 1))) c.pc c.strip?)
    | [] => .next (s.consumeError src cause kind addr (BitVec.ofNat 32 elem) 0 t.pc t.openStrip)

/-- HALTING_RECORD_POST (R305, R306): the oldest record of a context that waits is posted once it can be, also where the context has
been faulted since; a notice that waited for its frame is dropped where the queue is full by then. -/
def execHaltingRecordPost (ctx : Nat) (s : State) : Out :=
  match s.waitingRecs.find? (fun (c, _) => c == ctx) with
  | none => .next s
  | some (c, r) =>
    let die := r.source / 128
    let gone := s.waitingRecs.erase (c, r)
    match s.tryPost die ctx r with
      | .posted s' => .next { s' with waitingRecs := gone }
      | .held => .next s
      | .full => .next (if r.halted then s else { s with waitingRecs := gone }.dropNotice die ctx)
      | .unwritable e => .next (if (s.context ctx).state = 4 then s.queueLost die r e else (s.queueLost die r e).contextFault ctx none)

end Sys2Proof.Machine
end

