-- ==== Sys2Proof/Machine/Firmware.lean ====
section
/-! DEFINITION. What management-core firmware asks of the device about contexts and groups: contexts (R73 to R75), bind
batches (R98, R99, R110, R112, R129, R132), restores (R85, R86), pre-emption (R123, R124), resumption (R302, R307). -/

namespace Sys2Proof.Machine

/-! ## Contexts (R73 to R75) -/

/-- Contexts the table holds (R73). -/
def contextLimit : Nat := 4096

/-- CONTEXT_CREATE (R73, R74): a free entry takes the descriptor and becomes created. -/
def execContextCreate (d : ContextDesc) (s : State) : Out :=
  let k := d.ctxid.toNat
  .next (if k < contextLimit ∧ (s.context k).state = 0 then s.setContext k { d with state := 1 } else s)

/-- Strands of a context that are still leaving their slots. -/
def State.membersIn (s : State) (ctx : Nat) : List Nat :=
  (s.groups.filter (fun (_, g) => g.ctx == ctx)).flatMap (fun (_, g) => g.members.map Prod.snd)

/-- Forget the groups of a context: their images are discarded. -/
def State.dropGroups (s : State) (ctx : Nat) : State := { s with groups := s.groups.filter (fun (_, g) => g.ctx != ctx) }

/-- Write zero over bytes of a context, page by page; a page that cannot be written is passed over (R75 step 3). -/
def State.zeroSpan (s : State) (ctx : Nat) (va : Word) (n fuel : Nat) : State :=
  match fuel with
  | 0 => s
  | f + 1 =>
    if n = 0 then s else
    let k := min n (65536 - va.toNat % 65536)
    let s := match s.ctxWrite 0 ctx va (List.replicate k 0) with | .ok s' => s' | .error _ => s
    State.zeroSpan s ctx (va + BitVec.ofNat 64 k) (n - k) f

/-- R75: TLB entries, queued records, the key slot and the image area of a secure context; then the entry is free. -/
def State.destroyContext (s : State) (ctx : Nat) : State :=
  let c := s.context ctx
  let s := s.dropTlb ctx none
  let s : State := { s with waitingRecs := s.waitingRecs.filter (fun (k, _) => k != ctx) }
  let s : State := if c.flags.getLsbD 0 then
      let s : State := if c.flags.getLsbD 2 then { s with keys := s.keys.set (c.keySlot.toNat % 16) 0 } else s
      s.zeroSpan ctx c.imageBase c.imageSize.toNat (c.imageSize.toNat / 65536 + 2)
    else s
  (s.dropGroups ctx).setContext ctx { s.context ctx with state := 0, vlb := 0 }

/-- Strands of groups that are over leave, as far as they can; firmware is told of stores that fail then (R306). -/
def State.letLeave (s : State) (srcs : List Nat) : State :=
  let (s, recs) := s.leaveAll srcs
  recs.foldl (fun s r => s.toMgmt r.die r 0) s

/-- A frame of a context's image area is moving, or its PC is copied: zeros cannot be written there yet (R75, R216). -/
def State.areaHeld (s : State) (ctx : Nat) : Bool :=
  let c := s.context ctx
  c.flags.getLsbD 0 && !spanAll (fun va => !s.ctxBlocked 0 ctx va) c.imageBase c.imageSize.toNat (c.imageSize.toNat / 65536 + 2)

/-- CONTEXT_DESTROY (R74, R75): refused with cause 50 while the context is resident. -/
def execContextDestroy (ctx : Nat) (s : State) : Out :=
  let st := (s.context ctx).state
  .next (if st = 2 then s.firmwareNote 0 50 ctx 0 0xFFFFFFFF 2
    else if st = 1 ∨ st = 3 ∨ st = 4 then
      let s := s.letLeave (s.membersIn ctx)
      if (s.membersIn ctx).isEmpty && !s.areaHeld ctx then s.destroyContext ctx else s
    else s)

/-- CONTEXT_FAULT_CLEAR (R74): a faulted context whose strands have left is created again, its images discarded. -/
def execContextFaultClear (ctx : Nat) (s : State) : Out :=
  .next (if (s.context ctx).state = 4 then
      let s := s.letLeave (s.membersIn ctx)
      if (s.membersIn ctx).isEmpty then (s.dropGroups ctx).setContext ctx { s.context ctx with state := 1 } else s
    else s)

/-- CONTEXT_DECLARED_FAILED (R74). -/
def execContextDeclaredFailed (ctx : Nat) (s : State) : Out :=
  .next (if (s.context ctx).state = 2 ∨ (s.context ctx).state = 3 then s.contextFault ctx none else s)

/-! ## Pre-emption (R119, R123, R124) -/

/-- GROUP_PREEMPT (R123 step 1). -/
def execGroupPreempt (k : GroupKey) (s : State) : Out := .next (s.preempt k)

/-- A store that failed while a strand's work was brought to memory. -/
structure FlushFail where
  src : Nat
  store : StoreFail
  deriving DecidableEq, Repr

/-- Bring the work of strands to memory, up to the first store that fails. -/
def State.flushAll (s : State) (srcs : List Nat) : State × Option FlushFail :=
  match srcs with
  | [] => (s, none)
  | src :: r =>
    match s.flush src with
    | (s, []) => State.flushAll s r
    | (s, f :: _) => (s, some ⟨src, f⟩)

/-- Write the images of strands: the state, and whether one failed (R73, R77). -/
def State.saveAll (s : State) (srcs : List Nat) : State × Bool :=
  match srcs with
  | [] => (s, false)
  | src :: r =>
    match s.saveImage src with
    | .ok s => State.saveAll s r
    | .error _ => ((State.saveAll s r).1, true)

/-- R132: a pre-empted group's entries are assigned, and hold what was reached; they return to their reset values if the group is
ended or abandoned before firmware writes them again (R119). -/
def State.unbindBarriers (s : State) (k : GroupKey) : State :=
  { s with clusters := s.clusters.map (fun (p : Nat × Cluster) =>
      (p.1, { p.2 with barriers := p.2.barriers.map (fun (q : Nat × Barrier) =>
        (q.1, if q.2.owner = some k then { q.2 with bound := false } else q.2)) })) }

/-- Steps 2 to 4 of R123. -/
def State.saveGroup (s : State) (k : GroupKey) : State :=
  let g := s.group k
  let srcs := g.members.map Prod.snd
  match s.flushAll srcs with
  | (s, some f) => s.storesFailed f.src [f.store]
  | (s, none) =>
    let (s, bad) := s.saveAll srcs
    let s := srcs.foldl State.vacate s
    let s := (s.unbindBarriers k).setGroup k { s.group k with state := .saved }
    let s : State := { s with mgmt := s.mgmt ++ [.saved k g.ended] }
    if bad then s.contextFault g.ctx none else s.refreshContext g.ctx

/-- GROUP_SAVED (R119, R123): the strands that stopped leave their slots, once nothing keeps them there: with their images
for a pre-empted group and in a faulted context, without for a launch that was ended (R118, R152). -/
def execGroupSaved (k : GroupKey) (s : State) : Out :=
  let g := s.group k
  let srcs := g.members.map Prod.snd
  .next (match g.state with
    | .saving => if srcs.all (fun src => s.settled src && !s.imageHeld src) then s.saveGroup k else s
    | .abandoned => (s.letLeave srcs).refreshContext g.ctx
    | .ended =>
      let (s, fails) := s.leaveAll srcs
      s.lastCommits k.launch fails |>.refreshContext g.ctx
    | .unplaced | .resident | .halted | .saved => s)

/-! ## Resumption in place (R132, R301, R302, R307) -/

/-- A halting record of a group waits for queue space (R305). -/
def State.recordWaits (s : State) (k : GroupKey) : Bool :=
  s.waitingRecs.any (fun (c, r) => c == (s.group k).ctx && r.halted && r.launch == k.launch.lid && r.gix == k.gix)

/-- A strand of a resumed group goes on: as it was before the halt. -/
def Strand.resume (t : Strand) (waited : Bool) : Strand :=
  let t := { t with vecHeld := false, cpHeld := false, mxHeld := false }
  if t.st = .halted then
    (if waited then { t with st := .waiting } else { t with st := .running, wait := .none })
  else t

/-- R132: R131 is applied to the bits set while the group's barriers were held. -/
def State.releaseBarriers (s : State) (k : GroupKey) : State :=
  { s with clusters := s.clusters.map (fun (p : Nat × Cluster) =>
      (p.1, { p.2 with barriers := p.2.barriers.map (fun (q : Nat × Barrier) =>
        (q.1, if q.2.bound && q.2.owner == some k then q.2.complete else q.2)) })) }

/-- A strand of a resumed group goes on; a stopped member holds the translation it stopped at (R228). -/
def State.resumeStrand (s : State) (waited : Bool) (src : Nat) : State :=
  s.updAt src (fun t => { t.resume waited with viq := t.viq.map (s.holdAt src) })

/-- Arrivals deferred while a group was held are made, in the order of (GTC, source number) (R132). -/
def State.deferredArrivals (s : State) (srcs : List Nat) : State :=
  let due := srcs.filterMap (fun src => (s.strand src).barDue.map (fun d => (d.2, src)))
  (arrivalOrder due).foldl (fun s d => s.arriveDue d.2) s

/-- GROUP_RESUME (R307, R118, R132): a halted group none of whose records waits. -/
def execGroupResume (k : GroupKey) (s : State) : Out :=
  let g := s.group k
  let srcs := g.members.map Prod.snd
  .next (if g.state ≠ .halted ∨ s.recordWaits k then s
    else
      let s := (s.releaseBarriers k).setGroup k { g with state := .resident, waiting := [] }
      (srcs.foldl (fun s src => s.resumeStrand (g.waiting.contains src) src) s).deferredArrivals srcs)

/-- The oldest convoy with a stop that has been taken: in one of its members, its copy or its matrix operation. -/
def Strand.stoppedAt (t : Strand) : Option Nat :=
  ((if t.vecHeld then (t.viq.head?.map Convoy.seq).toList else []) ++ (if t.cpHeld then (t.cpq.head?.map CpOp.seq).toList else [])
    ++ (if t.mxHeld then (t.mxq.head?.map MxOp.seq).toList else [])).min?

/-- Registers of a discarded engine operation: the slices and lines it committed stay (R295, R300), and they read full again. -/
def MxOp.dropInto (o : MxOp) (into : Nat → Bool) (x : VecState) : VecState :=
  o.acc.zipIdx.foldl (fun (x : VecState) (r, j) =>
    if into (o.vd + j) then
      { x with v := if o.begun then x.v.set (o.vd + j) r else x.v, full := x.full.set (o.vd + j) 0xFFFF }
    else x) x

/-- Convoys from number `q` on are discarded with their copies and matrix operations: the registers are as they were before what
of their results can be discarded; an operation of an older convoy, and a landing, fill what is theirs there (R302, R66). -/
def Strand.discard (t : Strand) (q : Nat) : Strand :=
  let lost := t.viq.filter (fun c => decide (q ≤ c.seq))
  let kept := lost.findSome? Convoy.snap
  let into := t.inForce kept
  let x := match kept with | some p => p.vec | none => t.vec
  let x := (t.cpq.filter (fun o => decide (q ≤ o.seq))).foldl (fun x o => o.unloadInto (into o.seq) x) x
  let x := (t.mxq.filter (fun o => decide (q ≤ o.seq))).foldl (fun x o => o.dropInto (into o.seq) x) x
  let rest := t.viq.filter (fun c => decide (c.seq < q))
  let mx := (t.mxq.filter (fun o => decide (o.seq < q))).map (fun o =>
    { o with live := (List.range o.acc.length).map (· + o.vd) |>.filter (into o.seq) })
  let cp := (t.cpq.filter (fun o => decide (o.seq < q))).map (fun o =>
    { o with live := (List.range o.regs).map (· + o.dst) |>.filter (into o.seq) })
  let lands := t.lands.map (fun l => { l with live := into l.seq l.reg })
  { ({ t with mxq := mx, cpq := cp }).returnNumbers lost with vec := x, viq := rest, lands := lands }

/-- What the scalar side behind the queued convoys waits for: one that writes a scalar register (R10, R59), or an acquire-release
atomic (R264 note d). -/
def Strand.behind (t : Strand) : Wait :=
  match t.viq.getLast? with
  | none => .none
  | some c =>
    if t.viq.any (fun c => c.words.any (fun w => classOf w == some .scalarResult)) then .retired c.seq
    else if t.viq.any (fun c => c.words.any isAcqRel) then .vecMem c.seq
    else .none

/-- R302: the stopped convoy and every later one are discarded; ESTART, DONEMASK and MXPROG stay. The scalar side waits for the scalar
result of a convoy that stays queued (R10). -/
def Strand.redirect (t : Strand) (pc : Word) : Strand :=
  let t := match t.stoppedAt with
    | some q => { t.discard q with vecHeld := false, cpHeld := false, mxHeld := false }
    | none => t
  { t with pc := pc, replay := none, barTok := none, barDue := none, scalarExempt := false, wait := t.behind }

/-- RESUME_AT_NEW_PC (R152, R302): the strand runs at the new PC when its group resumes. -/
def execResumeAtNewPc (src : Nat) (pc : Word) (s : State) : Out :=
  let k := (s.strand src).group
  let g := s.group k
  .next (if g.state = .halted ∧ (s.strand src).st = .halted then
      let s := (s.updAt src (fun t => t.redirect pc)).disown src
      let rest := g.waiting.filter (· != src)
      s.setGroup k { g with waiting := if (s.strand src).wait = .none then rest else src :: rest }
    else s)

/-! ## A bind batch (R98, R99) -/

/-- Slots of a mask. -/
def slotsOf (mask : Nat) : List Nat := (List.range 16).filter (fun t => mask / 2 ^ t % 2 == 1)

/-- Source number of a slot of a cluster (R98). -/
def slotSrc (die cluster t : Nat) : Nat := die * 128 + cluster * 16 + t

/-- A batch: what the commit word says, with the records of its slots. -/
structure Batch where
  die : Nat
  cluster : Nat
  batch : Nat
  ended : Nat
  slots : List Nat
  recs : List BindRecord

/-- The first record. -/
def Batch.first (b : Batch) : BindRecord := b.recs.headD {}
/-- Index of the cluster. -/
def Batch.cl (b : Batch) : Nat := b.die * 4 + b.cluster
/-- Source numbers of the slots. -/
def Batch.srcs (b : Batch) : List Nat := b.slots.map (slotSrc b.die b.cluster)
/-- Cores of the slots. -/
def Batch.cores (b : Batch) : List Nat := (b.srcs.map coreOf).dedup
/-- The group the batch binds (assumption 8). -/
def Batch.key (b : Batch) : GroupKey := ⟨⟨b.first.queueId.toNat, b.first.launchId.toNat⟩, b.first.groupIx.toNat⟩
def Batch.ctx (b : Batch) : Nat := b.first.ctxid.toNat
def Batch.size (b : Batch) : Nat := b.first.groupSz.toNat
/-- BFLAGS bit 1. -/
def restores (r : BindRecord) : Bool := r.bflags.getLsbD 1

/-- Strands of a cluster's or core's positions that are not free. -/
def State.busy (s : State) (p : Nat → Bool) : Bool := s.strands.any (fun (k, t) => p k && t.st != .unbound)

/-- The launch header a batch is checked with: the launch's snapshot (R109), else the header its record names; where that cannot be
read, a header of zeros (assumption 82). -/
def State.batchHeader (s : State) (b : Batch) : Header :=
  match look s.launches b.key.launch with
  | some l => l.header
  | none => match s.readHeader b.die b.ctx b.first.header b.first.paramBase with
    | .ok h => h
    | .error _ => {}

/-- R80: the VLB the batch runs at. -/
def State.batchVlb (s : State) (b : Batch) (h : Header) : Nat :=
  let c := s.context b.ctx
  let want := if h.vlb = 0 then 8192 else h.vlb
  if c.vlb ≠ 0 then c.vlb.toNat
  else if h.det then want
  else (b.cores.map (fun k => (s.core k).laneCap)).foldl min want

/-- The barrier entry firmware assigned to a batch for a local number (R129). -/
def State.entryFor (s : State) (b : Batch) (local_ : Nat) : Option Nat :=
  ((s.cluster b.cl).barriers.find? (fun (_, e) => e.v && !e.bound && e.local_ == local_ && e.batch == b.batch && e.size == b.size)).map Prod.fst

/-- Check 1 for a slot: a free slot, and a valid record of the batch. A slot of a core that is absent or disabled counts as not ready
(assumption 82). -/
def State.slotReady (s : State) (b : Batch) (src : Nat) (r : BindRecord) : Bool :=
  (s.strand src).st == .unbound && (s.core (coreOf src)).present && r.bflags.getLsbD 0 && r.batch.toNat == b.batch

/-- Check 2. -/
def recordsAgree (r q : BindRecord) : Bool :=
  r.ctxid == q.ctxid && r.launchId == q.launchId && r.groupIx == q.groupIx && r.groupSz == q.groupSz && r.header == q.header
    && restores r == restores q

/-- Check 3: records and ended strands are the strands of the group, each once. -/
def Batch.sizeOk (b : Batch) : Bool :=
  let ix := b.recs.map (fun r => r.strandIx.toNat) ++ slotsOf b.ended
  ix.length == b.size && decide (ix.Nodup) && ix.all (fun j => decide (j < b.size)) && (b.ended == 0 || restores b.first)

/-- Check 4 (R74, R73, R76). -/
def State.contextBinds (s : State) (b : Batch) : Bool :=
  let c := s.context b.ctx
  (c.state == 1 || c.state == 2 || c.state == 3) && c.flags.toNat / 8 == 0 && !(c.flags.getLsbD 0 && c.imageSize == 0)
    && b.cores.all (fun k => (s.core k).world == c.flags.getLsbD 0)

/-- Check 5 (R80); a DETMODE header takes no other VLB than its own (R354). -/
def State.vlbHeld (s : State) (b : Batch) (h : Header) : Bool :=
  let n := s.batchVlb b h
  (!h.det || n == h.vlb) && b.cores.all (fun k => decide (max 512 n ≤ (s.core k).laneCap))

/-- Check 7 (R112). -/
def State.l1Agrees (s : State) (b : Batch) (h : Header) : Bool :=
  (!s.busy (fun k => clusterOf k == b.cl) || (s.cluster b.cl).fused == h.fuse)
    && b.cores.all (fun k => !s.busy (fun j => coreOf j == k) || (s.core k).ways == h.spWays)

/-- The order number of the first check of R99 that fails, from 1 on. -/
def State.batchFails (s : State) (b : Batch) (h : Header) : Option Nat :=
  if !(List.zipWith (s.slotReady b) b.srcs b.recs).all id then some 1
  else if !b.recs.all (fun r => recordsAgree r b.first) then some 2
  else if !b.sizeOk then some 3
  else if !s.contextBinds b then some 4
  else if !s.vlbHeld b h then some 5
  else if 2 ≤ b.size ∧ !((s.entryFor b 0).isSome && (s.entryFor b 1).isSome) then some 6
  else if !s.l1Agrees b h then some 7
  else if h.matrix ∧ (List.range 4).any (fun k => (s.core (b.die * 16 + b.cluster * 4 + k)).engineFailed) then some 8
  else none

/-! ## Starting and restoring a strand (R69, R85, R86, R110) -/

/-- What a bind gives a strand (R82, R98, R110). -/
def Batch.binding (b : Batch) (r : BindRecord) (c : ContextDesc) (h : Header) : Binding :=
  { ctx := b.ctx, launch := b.key.launch, queue := r.queueId.toNat, gix := b.key.gix, ix := r.strandIx.toNat, gsize := b.size, ngroups := r.nGroups.toNat,
    paramBase := r.paramBase, prio := r.prio.toNat, weight := r.weight.toNat, secure := c.flags.getLsbD 0,
    privileged := c.flags.getLsbD 1, det := h.det, matrix := h.matrix }

/-- A strand as a fresh bind starts it. -/
def Batch.fresh (b : Batch) (r : BindRecord) (c : ContextDesc) (h : Header) (vlb : Nat) : Strand :=
  { st := .running, bind := b.binding r c h, pc := r.entryPc
    s := [(1, r.paramBase), (2, r.groupIx.zeroExtend 64), (3, r.strandIx.zeroExtend 64)]
    csr := { indmask := h.indmask.zeroExtend 64 &&& csrMask 0x010, rngseed := h.rngseed, vlcap := BitVec.ofNat 64 vlb,
             tlbase := r.tlBase &&& csrMask 0x044, rchk := r.rchk.truncate 2 } }

/-- R246: the counters are read at TLBASE; one that cannot be read counts as 0 (assumption 23). -/
def State.readCounters (s : State) (src : Nat) (t : Strand) : Strand :=
  (List.range 3).foldl (fun t k =>
    let n : Word := match s.ctxRead (dieOf src) t.bind.ctx (t.counterVa k) 8 with
      | .ok bs => BitVec.ofNat 64 (leNat bs)
      | .error _ => 0
    t.setTimeline k ⟨n, n, []⟩) t

/-- The words of a queued-convoy entry pass R56 steps 2 to 6 as one convoy that ends at its last member. -/
def entryWordsOk (before ws : List (BitVec 32)) : Bool :=
  match ws with
  | [] => true
  | w :: r =>
    let w' := w &&& 0x7FFFFFFF
    convoyCapable w' && (match checkMember before w' with | .ok _ => true | .error _ => false) && entryWordsOk (before ++ [w']) r

/-- R86: an entry is accepted. -/
def entryOk (k : Nat) (c : Convoy) (reserved : Bool) : Bool :=
  reserved && !(c.resumed && k != 0) && (!c.mxInterrupted || c.words.any usesMxq) && (c.cpLine.isNone || c.words.any usesCpq)
    && entryWordsOk [] c.words

/-- R86: an image is accepted. One that says it holds more entries than the 40 of R85 is refused too (assumption 76). -/
def imageOk (c : ContextDesc) (bs : List Byte) : Bool :=
  let n := cutN bs 0x22 1
  cutN bs 0 4 == 1 && cutN bs 8 4 == c.ctxid.toNat && cutN bs 4 4 == c.vlb.toNat
    && zeroAt bs 0x23 1 && zeroAt bs 0x28 216 && cutN bs 0x0C 4 / 16 == 0 && zeroAt bs 0x540 192 && decide (n ≤ 40)
    && ((entriesOf bs n 0 0x600).zipIdx.all (fun ((c, ok), k) => entryOk k c ok))

/-- Bytes of a strand's image, where they can be read (R73, R77). -/
def State.readImage (s : State) (die ctx ix : Nat) (matrix : Bool) : Option (List Byte) :=
  let c := s.context ctx
  let size := imageSize c.vlb.toNat matrix
  let va := imageAt c ix
  if !imageFits c ix size then none
  else if c.flags.getLsbD 0 && !spanAll (s.pageSecure die ctx) va size (size / 65536 + 2) then none
  else match s.ctxReadSpan die ctx true va size (size / 65536 + 2) with
    | .ok bs => if imageOk c bs then some bs else none
    | .error _ => none

/-- Slot lines of an image that are poisoned (R321). -/
def State.slotMarks (s : State) (die ctx : Nat) (va : Word) : List Nat :=
  if s.poison.isEmpty then []
  else (List.range 8192).filter (fun l =>
    match s.translate die ctx true .read (va + BitVec.ofNat 64 (64 * l)) with
    | .ok x => (match x.place with | some p => s.poisoned p 64 | none => false)
    | .error _ => false)

/-- CSRs of an image with their reserved bits cleared (R6). -/
def Csrs.clean (r : Csrs) : Csrs :=
  { r with
    fctl := r.fctl &&& csrMask 0x004, indmask := r.indmask &&& csrMask 0x010, qcfg := r.qcfg &&& csrMask 0x012
    rfdesc := r.rfdesc &&& csrMask 0x014, tlbase := r.tlbase &&& csrMask 0x044, mxcfg := r.mxcfg &&& csrMask 0x080
    mxzpa := r.mxzpa &&& csrMask 0x081, mxprog := r.mxprog &&& 0x3FFFFFFFF, watch := r.watch.map (fun (k, w) => (k, w &&& csrMask 0x100))
    watchctl := r.watchctl &&& csrMask 0x108, samplectl := r.samplectl &&& csrMask 0x10A, tracectl := r.tracectl &&& csrMask 0x10B }

/-- The convoys of an image re-enter the VIQ in order, and their members are counted (R351); an ESTART of all ones says that the member
it is for is complete (R8, R301). -/
def Strand.rejoin (t : Strand) (strip : Nat) (cs : List Convoy) : Strand :=
  match cs with
  | [] => t
  | c :: r =>
    let (l, n) := sampleSlots t.csr.samplectl c.words 0 t.sampleCount
    Strand.rejoin (({ t with sampleCount := n } : Strand).join
      { c with strip := strip, sampled := l, skip := c.resumed && t.csr.estart == BitVec.allOnes 64 }) strip r

/-- The scalar side of a restored strand stands behind its convoys. -/
def Strand.standBehind (t : Strand) : Strand := if t.behind = .none then t else { t with st := .waiting, wait := t.behind }

/-- A strand as its image restores it, over what the bind gives (R85, R312). `marks`: poisoned slot lines. -/
def State.restored (s : State) (src : Nat) (t : Strand) (vlb : Nat) (bs : List Byte) (marks : List Nat) : Strand :=
  let st := cutW bs (0x200 + 8 * 13)
  let isOpen := bitN st 0
  let x := vecOfImage bs vlb
  let hi : BitVec 16 := BitVec.ofNat 16 (65536 - 2 ^ (vlb / 512))
  let t := { t with
    pc := cutW bs 0x10, s := wordsOf bs 0x108 1 31, deficit := toSigned 32 (cutN bs 0x24 4)
    vec := { x with full := x.full.map (fun (k, f) => (k, f ||| hi)) }
    csr := (csrsOfImage bs t.csr).clean
    rolls := BitVec.ofNat 32 (bitsN st 32 32), why := 6
    strips := if isOpen then [⟨1, 0, [], 6, false⟩] else []
    openStrip := if isOpen then some 1 else none, nextStrip := 2
    slots := if t.bind.matrix then Memory.listed 0 (cut bs (0x2E00 + 80 * (vlb / 8)) 524288) else []
    slotPoison := marks }
  ((s.readCounters src t).rejoin (if isOpen then 1 else 0) ((entriesOf bs (cutN bs 0x22 1) 0 0x600).map Prod.fst)).standBehind

/-- The strands of a batch as they start; `none` where a restore is refused (R86). -/
def State.batchStrands (s : State) (b : Batch) (h : Header) (vlb : Nat) (l : List (Nat × BindRecord)) : Option (List (Nat × Strand)) :=
  match l with
  | [] => some []
  | (src, r) :: rest =>
    let c := s.context b.ctx
    let t := b.fresh r c h vlb
    let one : Option Strand :=
      if restores r then
        match s.readImage b.die b.ctx t.bind.ix t.bind.matrix with
        | none => none
        | some bs =>
          let va := imageAt c t.bind.ix + BitVec.ofNat 64 (0x2E00 + 80 * (vlb / 8))
          some (s.restored src t vlb bs (if t.bind.matrix then s.slotMarks b.die b.ctx va else []))
      else some (s.readCounters src t)
    match one, State.batchStrands s b h vlb rest with
    | some t, some ts => some ((src, t) :: ts)
    | _, _ => none

/-- Dirty lines of the L1s of a cluster leave them (R112). -/
def State.leaveCluster (s : State) (cl : Nat) : State :=
  ((s.l1.filter (fun l => l.core / 4 == cl)).map L1Line.line).foldl State.leaveL1 s

/-- R112: an idle cluster and idle cores take the header's settings, the lines of an L1 that is fused or taken apart being written
back; scratchpad then reads as zero. A core that already has a resident strand keeps its scratchpad bytes, also at a restore
(assumption 81). -/
def State.takeL1 (s : State) (b : Batch) (h : Header) : State :=
  let s := if s.busy (fun k => clusterOf k == b.cl) || (s.cluster b.cl).fused == h.fuse then s
    else (s.leaveCluster b.cl).setCluster b.cl { s.cluster b.cl with fused := h.fuse }
  b.cores.foldl (fun s k => if s.busy (fun j => coreOf j == k) then s
    else (s.setCore k { s.core k with ways := h.spWays, scratch := [], scratchPoison := [] }).fitCore k) s

/-- R132: the group's entries are bound and used as firmware wrote them. -/
def State.bindBarrier (s : State) (b : Batch) (local_ : Nat) : State :=
  match s.entryFor b local_ with
  | none => s
  | some ix =>
    let e := (s.cluster b.cl).barriers.getD ix {}
    s.setBarrier b.cl ix ({ e with bound := true, owner := some b.key } : Barrier).complete

/-- Entries that a saved group was taken from are no longer its own once it is bound again (R132). -/
def State.forgetBarriers (s : State) (k : GroupKey) : State :=
  { s with clusters := s.clusters.map (fun (p : Nat × Cluster) =>
      (p.1, { p.2 with barriers := p.2.barriers.map (fun (q : Nat × Barrier) =>
        (q.1, if q.2.owner = some k then { q.2 with owner := none } else q.2)) })) }

/-- A strand that takes a slot does not take over the turn of the strand that was there (R100). -/
def State.newTurn (s : State) (src : Nat) : State :=
  let c := s.core (coreOf src)
  if c.turn = some src then s.setCore (coreOf src) { c with turnOver := true, turnCharge := 0 } else s

/-- The batch starts or restores its strands (R99, R119). Its records stay valid in their slots (assumption 76). -/
def State.startBatch (s : State) (b : Batch) (h : Header) (vlb : Nat) (ts : List (Nat × Strand)) : State :=
  let s := s.takeL1 b h
  let s := s.setContext b.ctx { s.context b.ctx with state := 2, vlb := BitVec.ofNat 16 vlb }
  let s := s.setGroup b.key
    { state := .resident, ctx := b.ctx, size := b.size, die := b.die, cluster := b.cluster, ended := BitVec.ofNat 16 b.ended
      members := ts.foldl (fun m (src, t) => m.set t.bind.ix src) [] }
  let s := s.forgetBarriers b.key
  let s := if 2 ≤ b.size then (s.bindBarrier b 0).bindBarrier b 1 else s
  ts.foldl (fun s (src, t) => (s.newTurn src).setStrand src { t with lastBraid := (s.strand src).lastBraid }) s

/-- The batch a commit word names. -/
def State.batchOf (s : State) (die cluster : Nat) (w : Word) : Batch :=
  let slots := slotsOf (bitsN w 0 16)
  { die := die, cluster := cluster, batch := bitsN w 16 16, ended := bitsN w 48 16, slots := slots,
    recs := slots.map (fun t => (s.cluster (die * 4 + cluster)).records.getD t {}) }

/-- A header, an image or a counter that the batch reads lies on a PC that is being copied (R211). -/
def State.batchHeld (s : State) (b : Batch) : Bool :=
  let c := s.context b.ctx
  let held (va : Word) (n : Nat) : Bool := !spanAll (fun a => !s.accessHeld b.die b.ctx true .read a) va n (n / 65536 + 2)
  s.copying && (held b.first.header 128 || held b.first.paramBase 65536 || b.recs.any (fun r =>
    if restores r then held (imageAt c r.strandIx.toNat) (imageSize c.vlb.toNat true) else held (r.tlBase &&& csrMask 0x044) 24))

/-- BATCH_COMMIT (R99): the checks in their order; the batch starts whole or not at all. It waits while it needs a PC that is being
copied (R211); in minimal mode no cluster runs (R359). -/
def execBatchCommit (die cluster : Nat) (w : Word) (s : State) : Out :=
  let b := s.batchOf (die % 8) (cluster % 4) w
  if s.batchHeld b || s.boot.minimal then .next s else
  let s := s.setCluster b.cl { s.cluster b.cl with commit := w }
  let h := s.batchHeader b
  let fails := if !bitN w 32 || bitsN w 33 15 != 0 || b.slots.isEmpty then some 0 else s.batchFails b h
  .next (match fails with
    | some n => s.firmwareNote b.die 48 b.ctx (BitVec.ofNat 64 (b.batch + b.cluster * 65536)) 0xFFFFFFFF (BitVec.ofNat 64 n)
    | none =>
      let vlb := s.batchVlb b h
      match s.batchStrands b h vlb (b.srcs.zip b.recs) with
      | some ts => s.startBatch b h vlb ts
      | none => s.contextFault b.ctx none)

/-! ## Barrier entries (R130) -/

/-- BARRIER_ENTRY_WRITE (R130): refused with cause 51 while the entry is bound. -/
def execBarrierEntryWrite (die cluster entry : Nat) (w0 w1 : Word) (s : State) : Out :=
  let d := die % 8
  let c := cluster % 4
  let ix := entry % 16
  let old := (s.cluster (d * 4 + c)).barriers.getD ix {}
  .next (if old.bound then s.firmwareNote d 51 0 (BitVec.ofNat 64 (c * 65536 + ix)) 0xFFFFFFFF 0
    else s.setBarrier (d * 4 + c) ix
      { v := bitN w0 63, bound := false, local_ := bitsN w0 56 1, size := bitsN w0 48 5, batch := bitsN w0 32 16,
        phase := BitVec.ofNat 16 (bitsN w0 16 16), ended := BitVec.ofNat 16 (bitsN w1 16 16), arr := BitVec.ofNat 16 (bitsN w1 0 16) })

end Sys2Proof.Machine
end

