-- ==== Sys2Proof/Machine/Braid.lean ====
section
/-! DEFINITION. Braid lines (R214, R215, R240 to R243), cache operations (R244) and `l1cfg` (R245). -/

namespace Sys2Proof.Machine

/-! ## Tags and replicas (R214, R215) -/

/-- R215: tag `x` is newer than tag `y`: timestamps at <63:10>, source numbers at <9:0>. -/
def newerTag (x y : Word) : Bool :=
  let d := (bitsN x 10 54 + 2 ^ 54 - bitsN y 10 54) % 2 ^ 54
  if d = 0 then decide (bitsN y 0 10 < bitsN x 0 10)
  else if d = 2 ^ 53 then
    if bitsN x 0 10 = bitsN y 0 10 then bitN x 63 else decide (bitsN y 0 10 < bitsN x 0 10)
  else decide (d < 2 ^ 53)

/-- The replica can answer: its PC and stack are not lost (R211, R242). -/
def State.answers (s : State) (r : Nat × Nat) : Bool := !(s.die r.1).lostPcs.contains (pcOfOffset r.2)

/-- A replica whose copy is uncorrectable does not answer, and counts as the oldest for repairs (R320, R242). -/
def State.replicaBad (s : State) (r : Nat × Nat) : Bool := s.poison.contains (lineOf (replicaPlace r).key)

/-- Tag and data of a replica. -/
def State.replicaTag (s : State) (r : Nat × Nat) : Word := s.braidTag.getD (lineOf (replicaPlace r).key) 0
def State.replicaData (s : State) (r : Nat × Nat) : BitVec 512 := BitVec.ofNat 512 (leNat (s.readPlace (replicaPlace r) 64))

/-- A conditional write reaches a replica: it takes effect where its tag is newer (R241, R242). -/
def State.writeReplica (s : State) (r : Nat × Nat) (data : BitVec 512) (tag : Word) : State :=
  if s.replicaBad r || newerTag tag (s.replicaTag r) then
    { s.writePlace (replicaPlace r) (leBytes 64 data.toNat) with
      braidTag := s.braidTag.set (lineOf (replicaPlace r).key) tag }
  else s

/-- The newer of two replicas' answers. -/
def State.newerReplica (s : State) (a b : Nat × Nat) : Nat × Nat :=
  if newerTag (s.replicaTag b) (s.replicaTag a) then b else a

/-- A replica of a line, by its number. -/
structure Replica where
  k : Nat
  at_ : Nat × Nat

/-- The replicas of a line that are not lost, in the order in which they answer this access: the schedule's choice of the first
two, then the third (assumption 1). -/
def State.replicaOrder (s : State) (w : BraidWindow) (l : Nat) : List Replica :=
  let (a, b) := s.replicaPick.headD (0, 1)
  let order := if a < 3 ∧ b < 3 ∧ a ≠ b then [a, b, 3 - a - b] else [0, 1, 2]
  (order.map (fun k => (⟨k, w.replica l k⟩ : Replica))).filter (fun r => s.answers r.at_)

/-- Those that answer, and those whose copy is uncorrectable (R320). -/
def State.goodReplicas (s : State) (w : BraidWindow) (l : Nat) : List Replica := (s.replicaOrder w l).filter (fun r => !s.replicaBad r.at_)
def State.badReplicas (s : State) (w : BraidWindow) (l : Nat) : List Replica := (s.replicaOrder w l).filter (fun r => s.replicaBad r.at_)

/-- The schedule's choice has been used. -/
def State.picked (s : State) : State := { s with replicaPick := s.replicaPick.drop 1 }

/-! ## The lines of an instruction (R240) -/

/-- A line of a braid window. -/
structure BraidLine where
  j : Nat
  win : Nat
  line : Nat
  xl : Xl
  deriving DecidableEq, Repr

/-- The window of a line. -/
def State.windowOf (s : State) (b : BraidLine) : BraidWindow := s.braidWindows.getD b.win ⟨0, []⟩

/-- Line `j` at `va`, or how the member ends there: R205, "not braid" (R240), the loss of two replicas (R243), and the
copy of a PC (R211). A line past the end of its window has no location (assumption 21). -/
def State.lineMeet (s : State) (acc : Access) (watched : Bool) (hold : Option Hold) (j : Nat) (va : Word) : Except ElemEnd BraidLine :=
  let t := s.me
  if watched then .error (.stop j 37)
  else if bitsN va 48 16 ≠ 0 then .error (.stop j Cause.addressRange)
  else if hold.isNone && s.walkBusy (dieOf s.cur.src) t.bind.ctx va.toNat (some (coreOf s.cur.src)) then .error .wait
  else match s.translateHeld hold (dieOf s.cur.src) t.bind.ctx t.bind.secure acc va (some (coreOf s.cur.src)) with
    | .error c => .error (if c = Cause.poison then .error j else .stop j c)
    | .ok x =>
      if x.fme.kind ≠ 4 then .error (.stop j Cause.notBraid)
      else
        let l := (x.fme.loc + x.fa % 65536) / 64
        let w := s.braidWindows.getD x.fme.braid ⟨0, []⟩
        if w.size ≤ l * 64 then .error (.stop j Cause.frameFault)
        else if (List.range 3).any (fun k => s.placeBusy (replicaPlace (w.replica l k))) then .error .wait
        else if (s.goodReplicas w l).length < 2 then .error (.stop j Cause.memLost)
        else .ok ⟨j, x.fme.braid, l, x⟩

/-- The walk of a braid instruction: lines of 64 bytes from `base` (R240, R344). -/
def braidWalk (acc : Access) (base : Word) : Walk :=
  { acc := acc, kind := 13, n := 64, scratch := false, addr := fun j => base + BitVec.ofNat 64 (64 * j) }

/-- The lines of a list in order, up to the first that does not complete. -/
def State.walkLines (s : State) (v : View) (w : Walk) (srcs : List Src) (l : List Nat) : List BraidLine × ElemEnd :=
  match l with
  | [] => ([], .all)
  | j :: r =>
    match v.meets srcs j with
    | some (.empty i k) => ([], .empty i k)
    | some _ => ([], .wait)
    | none => match s.lineMeet w.acc (s.elemWatched v w j) (if v.resumed && j == v.first then s.cur.hold else none) j (w.addr j) with
      | .error e => ([], e)
      | .ok b =>
        let (l, e) := State.walkLines s v w srcs r
        (b :: l, e)

/-- Lines of a braid instruction. -/
def View.lineCount (v : View) : Nat := v.vl * v.ew / 512

/-- A braid instruction: the lines from ESTART on that it may perform, in order; a misaligned base stops at line 0, after a watch match
of that line (R345). -/
def State.braid (s : State) (i : Instr) (acc : Access) (srcs : List Src) (k : View → Walk → List BraidLine → ElemEnd → Out) : Out :=
  s.vmemOf i View.lineCount (fun v =>
    let v := { v with vl := v.lineCount }
    let w := braidWalk acc s.cur.op0
    if s.cur.op0.toNat % 64 ≠ 0 then
      (if 0 < v.vl && s.elemWatched v w 0 then s.elemEnd v 0 w (.stop 0 37)
        else .next (s.stopAtElem Cause.misaligned 13 s.cur.op0 0 0))
    else
      let (l, e) := s.walkLines v w srcs ((List.range v.vl).filter (fun j => decide (v.first ≤ j)))
      if e = .wait then s.memWait v w else k v w l e)

/-- Bookkeeping of the lines accessed (R208); earlier loads have been performed (R262). -/
def State.touchLines (s : State) (w : Walk) (l : List BraidLine) : State :=
  l.foldl (fun s b => s.see s.cur.src (w.addr b.j) b.xl) (s.upd Strand.fixReads)

/-! ## mjld (R242) -/

/-- The load of one line: the newer of the first two answers, the older of them repaired; the third answer is still to
come, and an uncorrectable replica still to be repaired (R320). -/
def State.loadLine (s : State) (b : BraidLine) : State × BitVec 512 :=
  let bad := s.badReplicas (s.windowOf b) b.line
  match s.goodReplicas (s.windowOf b) b.line with
  | p :: q :: r =>
    let n := s.newerReplica p.at_ q.at_
    let data := s.replicaData n
    let tag := s.replicaTag n
    let s := ((s.writeReplica p.at_ data tag).writeReplica q.at_ data tag).picked
    ({ s with braidAnswers := s.braidAnswers ++ (r ++ bad).map (fun k => ⟨b.win, b.line, k.k, tag, data⟩) }, data)
  | _ => (s, 0)

/-- The loads of lines, and their data by line. -/
def State.loadLines (s : State) (l : List BraidLine) : State × List (Nat × Nat × Nat) :=
  match l with
  | [] => (s, [])
  | b :: r =>
    let (s, data) := s.loadLine b
    let (s, l) := State.loadLines s r
    (s, (b.j, data.toNat, 0) :: l)

def execMjld (x : BraidOp) (s : State) : Out :=
  s.braid (.mjld x) .braidRead [] (fun v w l e =>
    let d : VDst := ⟨x.vd.toNat, v.g, 512⟩
    if s.regsBusy d.base d.regs || !v.oldReady d (l.map BraidLine.j) then s.memWait v w
    else
      let (s, vals) := (s.touchLines w l).loadLines l
      (s.writeGroup v.vlb d.base d.regs
        (putLanes (v.x.grp v.vlb d.base d.regs) 512 v.first (e.stopAt (v.size d)) v.zero vals) (v.vl * 128)).elemEnd v 0 w e)

/-! ## mjst (R241) -/

/-- The store of one line: two replicas answer, the write to the third is on its way. -/
def State.storeBraid (s : State) (b : BraidLine) (data : BitVec 512) (tag : Word) : State :=
  let bad := s.badReplicas (s.windowOf b) b.line
  match s.goodReplicas (s.windowOf b) b.line with
  | p :: q :: r =>
    let s := ((s.writeReplica p.at_ data tag).writeReplica q.at_ data tag).picked
    { s with braidWrites := s.braidWrites ++ (r ++ bad).map (fun k => ⟨k.at_.1, k.at_.2, data, tag⟩) }
  | _ => s

/-- The timestamp a braid store takes: GTC<53:0>. -/
def State.braidStamp (s : State) : Word := BitVec.ofNat 64 ((s.gtcOf s.cur.src).toNat % 2 ^ 54)

/-- `mjst`: one tag for the whole instruction, kept over stops; a source that has used the timestamp waits one tick. -/
def execMjst (x : BraidOp) (s : State) : Out :=
  s.braid (.mjst x) .braidWrite [⟨x.vd.toNat, 512, x.ex == 1, id⟩] (fun v w l e =>
    let ts := s.braidStamp
    let kept := v.resumed && (decide (0 < v.first) || s.cur.resval != 0)
    if !kept && s.me.lastBraid == some ts then s.memWait v w
    else
      let tag : Word := if kept then s.cur.resval else ts * 1024 + BitVec.ofNat 64 s.cur.src
      let s := if kept then s else s.upd (fun t => { t with lastBraid := some ts })
      (l.foldl (fun s b => s.storeBraid b (BitVec.ofNat 512 (elem (v.src x.vd) 512 b.j)) tag)
        ((s.markMember 7).touchLines w l)).elemEnd v 0 w e tag)

/-! ## mjrep (R242) -/

/-- Every replica that answers gets the newest data. -/
def State.repairLine (s : State) (b : BraidLine) : State :=
  let bad := (s.badReplicas (s.windowOf b) b.line).map Replica.at_
  match (s.goodReplicas (s.windowOf b) b.line).map Replica.at_ with
  | p :: r =>
    let n := r.foldl s.newerReplica p
    let data := s.replicaData n
    let tag := s.replicaTag n
    (p :: r ++ bad).foldl (fun s k => s.writeReplica k data tag) s
  | [] => s

def execMjrep (x : SAddrOp) (s : State) : Out :=
  s.braid (.mjrep x) .braidRead [] (fun v w l e => (l.foldl State.repairLine (s.touchLines w l)).elemEnd v 0 w e 0 true)

/-! ## cflush and cinv (R244) -/

/-- Lines of the range from `a` of `n` bytes. -/
def rangeLines (a n : Word) : Nat := if n = 0 then 0 else (a.toNat + n.toNat - 1) / 64 - a.toNat / 64 + 1

/-- The lines of a range in order, up to the first that stops, or that has to wait for a PC copy (R211); braid lines are passed over. -/
def State.cacheLines (s : State) (acc : Access) (w : Walk) (hold : Option Hold) (l : List Nat) : List (Nat × Xl × Place) × ElemEnd :=
  match l with
  | [] => ([], .all)
  | j :: r =>
    let t := s.me
    if hold.isNone && s.walkBusy (dieOf s.cur.src) t.bind.ctx (w.addr j).toNat (some (coreOf s.cur.src)) then ([], .part j)
    else match s.translateHeld hold (dieOf s.cur.src) t.bind.ctx t.bind.secure acc (w.addr j) (some (coreOf s.cur.src)) with
    | .error c =>
      if c = Cause.braidAccess then State.cacheLines s acc w none r
      else ([], if c = Cause.poison then .error j else .stop j c)
    | .ok x => match x.place with
      | none => State.cacheLines s acc w none r
      | some p =>
        if !p.exists then ([], .beyond)
        else if s.placeBusy p then ([], .part j)
        else
        let (l, e) := State.cacheLines s acc w none r
        ((j, x, p) :: l, e)

/-- A cache instruction: `f` acts on each line at its address, once the strand's own writes have reached their homes. -/
def State.cacheOp (s : State) (i : Instr) (acc : Access) (f : State → Word → Xl → Nat → State) : Out :=
  s.vmemOf i (fun _ => rangeLines s.cur.op0 s.cur.op1) (fun v =>
    let n := rangeLines s.cur.op0 s.cur.op1
    let base := s.cur.op0 - BitVec.ofNat 64 (s.cur.op0.toNat % 64)
    let w : Walk := { acc := acc, kind := 17, n := 64, scratch := false, addr := fun j => base + BitVec.ofNat 64 (64 * j) }
    if s.flying s.cur.src then s.memWait v w
    else
      let (l, e) := s.cacheLines acc w (if v.resumed then s.cur.hold else none) ((List.range n).filter (fun j => decide (v.first ≤ j)))
      match l, e with
      | [], .part _ => s.memWait v w
      | _, _ =>
        let s := l.foldl (fun s r => f (s.see s.cur.src (w.addr r.1) r.2.1) (w.addr r.1) r.2.1 (lineOf r.2.2.key)) s
        s.elemEnd { v with vl := n } 0 w e 0 true)

/-- The line is written back behind the stores that the strand's buffer holds (R262, R273). -/
def State.flushLater (s : State) (all : Bool) (va : Word) (x : Xl) : State :=
  let n : BufLine := { fa := x.fa / 64 * 64, replica := x.replica (dieOf s.cur.src), mask := 0, data := 0, strip := s.memberStrip.getD 0
                       va := va, op := .flush all }
  s.upd (fun t => { t with buf := bufPut t.buf n })

/-- `cflush`: level 00 writes a line back from the L1s to its home, level 01 on to memory (R244); a reader count is cleared
(R238). It is kept behind the strand's buffered stores (R262), and so takes effect with them (R273). -/
def execCflush (x : CacheOp) (s : State) : Out :=
  s.cacheOp (.cflush x) .read (fun s va xl k =>
    if s.me.buf.isEmpty then s.evictLine k (x.level = 1 || (s.counted.find k).isSome) else s.flushLater (x.level = 1) va xl)

/-- A line the strand has stored to since is dropped with those stores (R244, R262): a streaming store is not in the L1 (R226). -/
def State.dropStores (s : State) (all : Bool) (x : Xl) : State :=
  let same (b : BufLine) : Bool := b.fa == x.fa / 64 * 64 && b.replica == x.replica (dieOf s.cur.src) && (all || !b.stream)
  if s.me.buf.any same then s.upd (fun t => { t with buf := t.buf.map (fun b => if same b then b.without (BitVec.allOnes 128) else b) }) else s

/-- `cinv`: a line is dropped from the L1s, at level 01 from the MSC too, with what it held dirty (R244). -/
def execCinv (x : CacheOp) (s : State) : Out :=
  s.cacheOp (.cinv x) .write (fun s _ xl k =>
    let s := s.dropStores (x.level = 1) xl
    if x.level = 1 then s.dropLine k else s.dropL1 k)

/-! ## l1cfg (R245) -/

/-- Every strand resident on the core belongs to the launch. -/
def State.coreAlone (s : State) (src : Nat) : Bool :=
  s.strands.all (fun (k, t) => coreOf k != coreOf src || t.st == .unbound || (s.strand src).bind.launch == t.bind.launch)

/-- Scratchpad ways of a core change: those that stay keep their bytes, new ones read as zero. -/
def Core.setWays (c : Core) (n : Nat) : Core :=
  { c with ways := n, scratch := c.scratch.filter (fun b => decide ((16 - min c.ways n) * 65536 ≤ b.1))
           scratchPoison := c.scratchPoison.filter (fun l => decide ((16 - min c.ways n) * 1024 ≤ l)) }

def execL1cfg (x : SAddrOp) (s : State) : Out :=
  s.vmemOf (.l1cfg x) (fun _ => 1) (fun _ =>
    let s0 := s
    let s := s.drain s.cur.src
    if s0.gone s s.cur.src then .next s
    else if !s.me.ssq.isEmpty || !s.me.lands.isEmpty || !s.me.cpq.isEmpty || s.flying s.cur.src then .next s.memberWait
    else if !s.coreAlone s.cur.src then .next (s.stopWhole 22 0 0 0)
    else
      let k := coreOf s.cur.src
      .next (((s.setCore k ((s.core k).setWays s.cur.op0.toNat)).fitCore k).memberDone true))

end Sys2Proof.Machine
end

