-- ==== Sys2Proof/Machine/Health.lean ====
section
/-! DEFINITION. Steps of the memory itself: braid replicas and the scrubber (R215, R241, R242, R340), writes that reach their
homes (R268), pseudo-channels and stacks that fail (R211, R361). -/

namespace Sys2Proof.Machine

/-! ## Braid replicas -/

/-- Source number of a die's scrubber (R12). -/
def scrubSource (die : Nat) : Nat := die * 128 + 98

/-- A line is found uncorrectable, at eviction or by the scrubber: it is poisoned, and a record of cause 47 goes to the management
core of its home die (R320), which is die 0 for a host location (R222). -/
def State.foundBad (s : State) (line : Nat) : State :=
  let d := lineHome line
  (s.setPoison line true).toMgmt d
    { gtc := (s.die d).gtc, source := scrubSource d, cause := 47, detail := BitVec.ofNat 64 (line * 64) } 0

/-- SCRUB_PASS (R215, R320): the lines the scrubber finds uncorrectable are poisoned; the newest of a line's replicas is written to
all of them under source 98 with a fresh tag, each write being conditional (R340). In a tick in which a source above has stored the
line, the scrubber waits for the next. A line with no copy left that can be read stays as it is. -/
def execScrubPass (window : Nat) (at_ : ScrubbedLine) (s : State) : Out :=
  let line := at_.line
  let s := at_.bad.foldl State.foundBad s
  let w := s.braidWindows.getD window ⟨0, []⟩
  if w.size ≤ line * 64 then .next s
  else
    let all := ((List.range 3).map (w.replica line)).filter s.answers
    if all.any (fun r => s.placeBusy (replicaPlace r)) then .next s else
    match all.filter (fun r => !s.replicaBad r) with
    | [] => .next s
    | p :: r =>
      let n := r.foldl s.newerReplica p
      let data := s.replicaData n
      let die := line % 8
      let tag : Word := BitVec.ofNat 64 ((s.die die).gtc.toNat % 2 ^ 54 * 1024 + scrubSource die)
      .next (if newerTag tag (s.replicaTag n) then all.foldl (fun s k => s.writeReplica k data tag) s else s)

/-- REPLICA_ANSWER (R242): the third answer of a braid load arrives, and an older replica is repaired. -/
def execReplicaAnswer (ix : Nat) (s : State) : Out :=
  match s.braidAnswers[ix]? with
  | none => .next s
  | some a =>
    let r := (s.braidWindows.getD a.window ⟨0, []⟩).replica a.line a.replica
    if s.placeBusy (replicaPlace r) then .next s else
    let s : State := { s with braidAnswers := s.braidAnswers.eraseIdx ix }
    .next (if s.answers r then s.writeReplica r a.data a.tag else s)

/-- REPLICA_WRITE (R241, R340): a write of a braid line reaches its replica, and is applied when its tag is newer. -/
def execReplicaWrite (ix : Nat) (s : State) : Out :=
  match s.braidWrites[ix]? with
  | none => .next s
  | some b =>
    if s.placeBusy (replicaPlace (b.die, b.off)) then .next s else
    let s : State := { s with braidWrites := s.braidWrites.eraseIdx ix }
    .next (if s.answers (b.die, b.off) then s.writeReplica (b.die, b.off) b.data b.tag else s)

/-! ## Homes (R268) -/

/-- A write waits for another on its way to the same home: one that its clock names, or an earlier one of its die. -/
def FlyWrite.after (f g : FlyWrite) : Bool :=
  g.home == f.home && decide (g.count g.fromDie ≤ f.count g.fromDie) && !(g.fromDie == f.fromDie && g.count g.fromDie == f.count g.fromDie)

/-- An earlier write of the same strand is still on its way, to whatever home: the order of R264 is kept. -/
def State.sourceBehind (s : State) (f : FlyWrite) : Bool := (s.flyWrites.takeWhile (fun g => g != f)).any (fun g => g.source == f.source)

/-- A partial write that comes to a poisoned line at its home fails as a store at commit does (R321, R315), for the launch it was
made for. -/
def State.flyFails (s : State) (f : FlyWrite) : State :=
  let s : State := { s with flyWrites := s.flyWrites.erase f }
  let t := s.strand f.source
  let va := f.va + BitVec.ofNat 64 (maskFirst f.mask)
  if t.st ≠ .unbound ∧ t.bind = f.bind then
    s.storesFailed f.source [⟨Cause.poison, f.kind, va⟩]
  else
    let r : FRec := { gtc := s.gtcOf f.source, source := f.source, cause := 46, ctx := f.bind.ctx, kind := f.kind, va := va,
                      elem := 0xFFFFFFFF, slot := 0, pc := 0, launch := f.bind.launch.lid, gix := f.bind.gix, ix := f.bind.ix,
                      detail := BitVec.ofNat 64 Cause.poison, halted := true }
    let st := (s.context f.bind.ctx).state
    if st = 2 ∨ st = 3 then (s.post r.die r).contextFault f.bind.ctx (some f.bind.launch) else s.toMgmt r.die r 0

/-- HOME_WRITE_APPLY (R268): the `ix`-th write on its way to the homes of a die is applied, once every write its clock names
has been, and every earlier write of its strand (R264); it waits while its PC is being copied (R211). -/
def execHomeWriteApply (die ix : Nat) (s : State) : Out :=
  let k := die % 8
  match (s.flyWrites.filter (fun f => f.home == k))[ix]? with
  | none => .next s
  | some f =>
    if s.flyWrites.any (fun g => f.after g) || s.sourceBehind f || s.lineBusy f.line then .next s
    else .next (if s.flyPoisoned f then s.flyFails f else s.applyFly f)

/-! ## Pseudo-channels and stacks (R211, R361) -/

/-- PCs that give "memory lost" from now on. -/
def Die.lose (d : Die) (pcs : List Nat) : Die :=
  { d with lostPcs := d.lostPcs ++ pcs.filter (fun p => !d.lostPcs.contains p) }

/-- A PC is retired onto the free spare, or lost; `true`: it was lost. -/
def Die.failPc (d : Die) (pc : Nat) : Die × Bool :=
  if pc = 127 then ({ d.lose (127 :: d.spareFor.toList) with spareCopying := false }, true)
  else if d.spareFor.isNone && !d.lostPcs.contains 127 then ({ d with spareFor := some pc, spareCopying := true }, false)
  else (d.lose [pc], true)

/-- PC_FAILURE (R211): the first failing PC of a die moves to PC 127; a second one, or PC 127 itself, is lost and the part asks
to be replaced. -/
def execPcFailure (die pc : Nat) (s : State) : Out :=
  let k := die % 8
  let n := pc % 128
  let d := s.die k
  if d.lostPcs.contains n || d.spareFor == some n then .next s
  else
    let (d', lost) := d.failPc n
    let s : State := { s.setDie k d' with flash := { s.flash with pcs := s.flash.pcs ++ [(k, n)] } }
    .next (if lost then s.replace 0 else s)

/-- A line of a die's deep or shallow space on a PC. -/
def lineOnPc (die pc line : Nat) : Bool :=
  let k := line * 64
  decide (k < 2 ^ 44) && decide (k / 2 ^ 40 % 8 = die) && decide (pcOfOffset (k % 2 ^ 40) = pc)

/-- SPARE_COPY_COMPLETE (R211, R320): the spare serves the PC; lines the copy could not correct are poisoned. -/
def execSpareCopyComplete (die : Nat) (bad : List Nat) (s : State) : Out :=
  let k := die % 8
  let d := s.die k
  match d.spareFor, d.spareCopying with
  | some pc, true =>
    let s := s.setDie k { d with spareCopying := false }
    .next ((bad.filter (lineOnPc k pc)).foldl (fun s l => s.setPoison l true) s)
  | _, _ => .next s

/-- The PCs of a stack, with the PC that PC 127 serves where the stack holds PC 127. -/
def Die.stackPcs (d : Die) (odd : Bool) : List Nat :=
  if odd then (List.range 64).map (· + 64) ++ d.spareFor.toList else List.range 64

/-- STACK_LOST (R361): its PCs give "memory lost", its bit of STACKMAP clears, and the part asks to be replaced. -/
def execStackLost (stack : Nat) (s : State) : Out :=
  let n := stack % 16
  if !s.boot.stackmap.getLsbD n then .next s
  else
    let k := n / 2
    let d := s.die k
    let s := s.setDie k { d.lose (d.stackPcs (n % 2 == 1)) with spareCopying := d.spareCopying && n % 2 == 0 }
    let s : State := { s with boot := { s.boot with stackmap := s.boot.stackmap &&& ~~~(BitVec.ofNat 16 (2 ^ n)) } }
    .next (s.replace 2)

end Sys2Proof.Machine
end

