-- ==== Sys2Proof/Machine/Sign.lean ====
section
/-! DEFINITION. ECDSA over P-256 (FIPS 186-4, as R96 and R78 name it), with the device identity key. -/

namespace Sys2Proof.Machine

/-! ## The curve -/

/-- The field, the order of the base point, and the curve's coefficient b; its coefficient a is -3. -/
def curveP : Nat := 2 ^ 256 - 2 ^ 224 + 2 ^ 192 + 2 ^ 96 - 1
def curveN : Nat := 0xFFFFFFFF00000000FFFFFFFFFFFFFFFFBCE6FAADA7179E84F3B9CAC2FC632551

/-- A point: none at infinity. -/
abbrev Point := Option (Nat × Nat)

/-- The base point. -/
def curveG : Point :=
  some (0x6B17D1F2E12C4247F8BCE6E563A440F277037D812DEB33A0F4A13945D898C296,
        0x4FE342E2FE1A7F9B8EE7EB4A7C0F9E162BCE33576B315ECECBB6406837BF51F5)

/-- `b ^ e` modulo `m`, by the low `n` bits of `e`. -/
def powMod (m b e n : Nat) : Nat :=
  match n with
  | 0 => 1
  | k + 1 =>
    let h := powMod m (b * b % m) (e / 2) k
    if e % 2 = 1 then b * h % m else h

/-- The inverse modulo a prime. -/
def invMod (m x : Nat) : Nat := powMod m (x % m) (m - 2) 256

/-- The chord or tangent of slope `l` through two points meets the curve again; its mirror image is their sum. -/
def meetLine (l x1 y1 x2 : Nat) : Point :=
  let x := (l * l + 2 * curveP - x1 - x2) % curveP
  some (x, (l * (x1 + curveP - x) + curveP - y1) % curveP)

/-- The sum of two points. -/
def addPoint (p q : Point) : Point :=
  match p, q with
  | none, q => q
  | p, none => p
  | some (x1, y1), some (x2, y2) =>
    if x1 = x2 then
      if (y1 + y2) % curveP = 0 then none
      else meetLine ((3 * x1 * x1 + curveP - 3) * invMod curveP (2 * y1) % curveP) x1 y1 x2
    else meetLine ((y2 + curveP - y1) * invMod curveP (x2 + curveP - x1) % curveP) x1 y1 x2

/-- A multiple of a point, by the low `n` bits of `k`. -/
def mulPoint (k : Nat) (p : Point) (n : Nat) : Point :=
  match n with
  | 0 => none
  | j + 1 =>
    let h := mulPoint (k / 2) p j
    let twice := addPoint h h
    if k % 2 = 1 then addPoint twice p else twice

/-! ## The device identity key and its signatures -/

/-- A secret of the curve from 256 free bits: 1 to the order less 1. -/
def curveSecret (w : BitVec 256) : Nat := w.toNat % (curveN - 1) + 1

/-- The device identity public key, x then y, 32 bytes each with the most significant first (R96, R360; assumption 11). -/
def identityKey : BitVec 512 :=
  match mulPoint (curveSecret Config.identitySecret) curveG 256 with
  | some (x, y) => BitVec.ofNat 512 (x * 2 ^ 256 + y)
  | none => 0

/-- r and s of a digest under a secret and a per-signature secret; none where another per-signature secret is needed. -/
def ecdsa (secret z nonce : Nat) : Option (Nat × Nat) :=
  match mulPoint nonce curveG 256 with
  | none => none
  | some (x, _) =>
    let r := x % curveN
    let s := invMod curveN nonce * (z + r * secret) % curveN
    if r = 0 ∨ s = 0 then none else some (r, s)

/-- The signature of a digest with the device identity key: r, then s. Its per-signature secrets are free values, drawn from
number `n` on (R96; assumption 12). -/
def signDigest (digest : BitVec 256) (n : Nat) : Nat × Nat :=
  ((List.range 4).findSome? (fun k => ecdsa (curveSecret Config.identitySecret) digest.toNat (curveSecret (Config.signNonce (n + k))))).getD (0, 0)

/-- R96: a signature is one of a digest under a public key. -/
def signatureOk (key : Point) (digest : BitVec 256) (r s : Nat) : Bool :=
  let w := invMod curveN s
  decide (1 ≤ r ∧ r < curveN ∧ 1 ≤ s ∧ s < curveN) &&
    (match addPoint (mulPoint (digest.toNat * w % curveN) curveG 256) (mulPoint (r * w % curveN) key 256) with
     | some (x, _) => x % curveN == r
     | none => false)

end Sys2Proof.Machine
end

