-- ==== Sys2Proof/Machine/Queue.lean ====
section
/-! DEFINITION. The queue front-end: queues and their states (R87 to R89, R93, R94), the commands (R90 to R92), launches that
complete (R115), the running hash and its reports (R95, R96), doorbells and messages (R333, R337). -/

namespace Sys2Proof.Machine

/-! ## Accesses of a queue's front-end -/

/-- Queues of the device (R87). -/
def queueLimit : Nat := 1024

/-- The die whose front-end walks the queue. -/
def Queue.home (q : Queue) : Nat := q.desc.homeDie.toNat % 8
/-- The queue's context. -/
def Queue.ctx (q : Queue) : Nat := q.desc.ctxid.toNat

/-- Bytes at an address of a queue's context. -/
def State.qRead (s : State) (q : Queue) (va : Word) (n : Nat) : Except Nat (List Byte) :=
  s.ctxReadSpan q.home q.ctx false va n (n / 65536 + 2)

/-- Write bytes at an address of a queue's context; the front-end passes over a write that fails (assumption 24). -/
def State.qWrite (s : State) (q : Queue) (va : Word) (bs : List Byte) : State :=
  match s.ctxWriteSpan q.home q.ctx va bs (bs.length / 65536 + 2) with
  | .ok s' => s'
  | .error _ => s

/-- A write to `n` bytes waits while a frame of theirs moves (R216) or their PC is copied (R211). -/
def State.qBlocked (s : State) (q : Queue) (va : Word) (n : Nat) : Bool :=
  !spanAll (fun a => !s.ctxBlocked q.home q.ctx a) va n (n / 65536 + 2)

/-- A read of `n` bytes waits while their PC is copied (R211). -/
def State.qHeld (s : State) (q : Queue) (va : Word) (n : Nat) : Bool :=
  !spanAll (fun a => !s.accessHeld q.home q.ctx true .read a) va n (n / 65536 + 2)

/-- Source number under which a queue's front-end issues (R12). -/
def Queue.source (q : Queue) : Nat := q.home * 128 + 96

/-- Every page of a range can be accessed; `copy`: poison and lost memory are met while a COPY runs (R92). -/
def State.qMapped (s : State) (q : Queue) (acc : Access) (copy : Bool) (va : Word) (n : Nat) : Bool :=
  spanAll (fun a =>
    match s.translate q.home q.ctx ((s.context q.ctx).flags.getLsbD 0) acc a with
    | .ok _ => true
    | .error c => copy && (c == Cause.memLost || c == Cause.poison)) va n (n / 65536 + 2)

/-- A 64-bit word of a queue's context; 0 where it cannot be read (assumption 24). -/
def State.qWord (s : State) (q : Queue) (va : Word) : Nat :=
  match s.qRead q va 8 with
  | .ok bs => leNat bs
  | .error _ => 0

/-! ## Commands -/

/-- Offset past the named operands of an OP (R90). The chunk number of a COPY is a named operand whether or not it decrypts
(assumption 75). -/
def namedEnd (op : Nat) : Nat :=
  match op with
  | 0 => 0x10 | 1 => 0x28 | 2 => 0x30 | 3 => 0x28 | 4 => 0x21 | 5 => 0x38 | _ => 0x11

/-- R91: WAITC, SIGNAL, HASH and FENCE hold back what follows. -/
def gating (op : Nat) : Bool := decide (3 ≤ op)

def Command.outstanding (c : Command) : Bool := c.started && !c.complete

/-- The command that is fetched and not started: the last one. -/
def Queue.waitingCmd (q : Queue) : Option Command :=
  match q.cmds.getLast? with
  | some c => if c.started || c.complete then none else some c
  | none => none

/-- R91: the conditions on which a command starts, every other command fetched being earlier. -/
def Queue.mayStart (q : Queue) (c : Command) : Bool :=
  let left := q.cmds.filter (fun e => e.index != c.index && !e.complete)
  if c.bar || (4 ≤ c.op) then left.isEmpty
  else !left.any (fun e => gating e.op) && (!(c.op == 1 || c.op == 2) || decide ((left.filter (fun e => e.op == 1 || e.op == 2)).length < 8))

/-- Change the command at an index. -/
def Queue.updCmd (q : Queue) (ix : Nat) (f : Command → Command) : Queue :=
  { q with cmds := q.cmds.map (fun c => if c.index = ix then f c else c) }

/-- R93: a draining queue with nothing outstanding has stopped. -/
def Queue.settle (q : Queue) : Queue :=
  if q.desc.state = 4 ∧ !q.cmds.any Command.outstanding then { q with desc := { q.desc with state := 1 } } else q

/-- Change a queue. -/
def State.updQueue (s : State) (k : Nat) (f : Queue → Queue) : State := s.setQueue k (f (s.queue k)).settle

/-- A command has completed with a completion word and a digest. -/
def Command.finish (c : Command) (cw : Word) (digest : BitVec 256) : Command :=
  { c with started := true, complete := true, cw := cw, digest := digest }

/-- The command at an index completes. -/
def State.finishCmd (s : State) (k ix : Nat) (cw : Word) (digest : BitVec 256) : State :=
  s.updQueue k (fun q => q.updCmd ix (fun c => c.finish cw digest))

/-- R92: the queue stops at an entry: error, ERR, and a record of cause 49; not while ERR lies in a frame that moves (R216). -/
def State.queueError (s : State) (k : Nat) (e : QueueStop) : State :=
  let q := s.queue k
  if s.qBlocked q (q.desc.qcb + 0x30) 8 then s else
  let s := s.qWrite q (q.desc.qcb + 0x30) (leBytes 8 (e.index % 2 ^ 32 + e.cause * 2 ^ 32))
  let s := s.setQueue k { q with desc := { q.desc with state := 5 }, cmds := q.cmds.filter (fun c => c.index != e.index), err := some e }
  s.firmwareNote q.home 49 q.ctx (BitVec.ofNat 64 k) (BitVec.ofNat 32 e.index) (BitVec.ofNat 64 e.cause)

/-- The queue stops at a command it had fetched. -/
def State.stopCmd (s : State) (k : Nat) (c : Command) (cause : Nat) : State :=
  s.queueError k ⟨c.index, cause, c.entryAddr, some c.bytes⟩

/-- R92 causes 1 and 2 of an entry's bytes. -/
def entryFails (bs : List Byte) : Option Nat :=
  let op := cutN bs 0 1
  let a := cutN bs 0x10 8
  let n := cutN bs 0x20 4
  if op > 6 ∨ cutN bs 1 1 / 2 ≠ 0 ∨ !zeroAt bs 2 6 ∨ !zeroAt bs (namedEnd op) 48 ∨ (op = 2 ∧ cutN bs 0x24 4 / 2 ≠ 0) then some 1
  else if cutN bs 8 8 % 64 ≠ 0 ∨ ((op = 1 ∨ op = 2) ∧ ¬(1 ≤ n ∧ n ≤ 2 ^ 20)) ∨ ((op = 3 ∨ op = 4) ∧ a % 8 ≠ 0)
      ∨ (op = 4 ∧ cutN bs 0x20 1 > 1) ∨ (op = 5 ∧ a % 64 ≠ 0) ∨ (op = 6 ∧ ¬(2 ≤ cutN bs 0x10 1 ∧ cutN bs 0x10 1 ≤ 4)) then some 2
  else none

/-- R92 cause 3 of the addresses a command other than a LAUNCH names. -/
def State.entryMapped (s : State) (q : Queue) (bs : List Byte) : Bool :=
  let a := cutW bs 0x10
  match cutN bs 0 1 with
  | 2 =>
    let n := cutN bs 0x20 4
    s.qMapped q .write true a n && s.qMapped q .read true (cutW bs 0x18) (if cutN bs 0x24 1 % 2 = 1 then n + 16 else n)
  | 3 => s.qMapped q .read false a 8
  | 4 => s.qMapped q .write false a 8
  | 5 => s.qMapped q .write false a 192
  | _ => true

/-- The cause an entry stops its queue with when it is fetched, in the order of R92. -/
def State.entryStop (s : State) (q : Queue) (bs : List Byte) : Option Nat :=
  match entryFails bs with
  | some c => some c
  | none =>
    let sec := q.desc.flags.getLsbD 0
    if (s.context q.ctx).flags.getLsbD 0 ≠ sec ∨ (cutN bs 0 1 = 2 ∧ cutN bs 0x24 1 % 2 = 1 ∧ !sec) then some 4
    else if !s.entryMapped q bs then some 3
    else none

/-- ENTRY_FETCH (R89, R92): entry n is read once, when TAIL exceeds n and the commands before it have started. -/
def execEntryFetch (k : Nat) (s : State) : Out :=
  let q := s.queue k
  .next (if q.desc.state ≠ 2 ∨ !q.noticed ∨ q.waitingCmd.isSome then s
    else if s.qHeld q q.desc.qcb 8 || s.qHeld q q.nextAddr 64 then s
    else if s.qWord q q.desc.qcb ≤ q.next then s.setQueue k { q with noticed := false }
    else match s.qRead q q.nextAddr 64 with
      | .error _ => s.queueError k ⟨q.next, 3, q.nextAddr, none⟩
      | .ok bs =>
        match s.entryStop q bs with
        | some c => s.queueError k ⟨q.next, c, q.nextAddr, some bs⟩
        | none =>
          let c : Command := { index := q.next, entryAddr := q.nextAddr, op := cutN bs 0 1, bar := cutN bs 1 1 == 1, bytes := bs,
                               lid := if cutN bs 0 1 = 1 then cutN bs 0x24 4 else 0 }
          s.setQueue k { q with next := q.next + 1, nextAddr := cutW bs 8, cmds := q.cmds ++ [c] })

/-- The fetched command of a running queue, where it has the OP and may start. -/
def State.startable (s : State) (k op : Nat) : Option Command :=
  let q := s.queue k
  if q.desc.state ≠ 2 then none
  else match q.waitingCmd with
    | some c => if c.op = op ∧ q.mayStart c then some c else none
    | none => none

/-- NOP_CMD (R91). -/
def execNopCmd (k : Nat) (s : State) : Out :=
  .next (match s.startable k 0 with
    | some c => s.finishCmd k c.index 0 0
    | none => s)

/-- Unit 96 of a die, which carries out the commands of its queues (R12). -/
def isFrontEnd (source : Nat) : Bool := source % 128 == 96

/-- What earlier commands of a queue wrote is performed at a scope (R91, R259, R335): no write made for a launch of it is on its way to
a home, whatever holds its strand's slot by now; and at system scope every link has acknowledged those and the front-end's. -/
def State.queueQuiet (s : State) (k scope : Nat) : Bool :=
  !s.flyWrites.any (fun f => f.bind.launch.queue == k)
    && (decide (scope < 4) || !s.ports.any (fun (_, p) => p.inflight.any (fun r => r.isWrite && (r.launch.queue == k || isFrontEnd r.source))))

/-- FENCE_COMMAND (R91): every earlier command has completed, and what it wrote is visible at the scope. -/
def execFenceCommand (k : Nat) (s : State) : Out :=
  .next (match s.startable k 6 with
    | some c => if s.queueQuiet k (cutN c.bytes 0x10 1) then s.finishCmd k c.index 0 0 else s
    | none => s)

/-! ## WAITC, SIGNAL, HASH (R91, R92, R96) -/

/-- The counter of a WAITC has reached its value. -/
def State.waitcMet (s : State) (q : Queue) (c : Command) : Bool := decide (cutN c.bytes 0x18 8 ≤ s.qWord q (cutW c.bytes 0x10))

/-- Put a queue into a state. -/
def Queue.to (q : Queue) (st : BitVec 8) : Queue := { q with desc := { q.desc with state := st } }

/-- WAITC (R91, R93). -/
def execWaitcCmd (k : Nat) (s : State) : Out :=
  let q := s.queue k
  .next (match s.startable k 3 with
    | none => s
    | some c =>
      if s.qHeld q (cutW c.bytes 0x10) 8 then s
      else if s.waitcMet q c then s.finishCmd k c.index 0 0
      else s.updQueue k (fun q => (q.updCmd c.index (fun c => { c with started := true, since := (s.die q.home).gtc })).to 3))

/-- The WAITC a waiting queue waits for. -/
def Queue.waitc (q : Queue) : Option Command :=
  if q.desc.state = 3 then q.cmds.find? (fun c => c.op == 3 && c.outstanding) else none

/-- A waiting queue reads the counter of its WAITC again (R91). -/
def State.recheck (s : State) (k : Nat) : State :=
  let q := s.queue k
  match q.waitc with
  | none => s
  | some c => if !s.qHeld q (cutW c.bytes 0x10) 8 && s.waitcMet q c then (s.updQueue k (fun q => q.to 2)).finishCmd k c.index 0 0 else s

/-- So does every queue of a die (R91). -/
def State.recheckDie (s : State) (die : Nat) : State :=
  ((s.queues.map Prod.fst).filter (fun j => (s.queue j).home == die)).foldl State.recheck s

/-- WAITC_RECHECK (R91). -/
def execWaitcRecheck (k : Nat) (s : State) : Out := .next (s.recheck k)

/-- WAITC_TIMEOUT (R92): cause 5 once the timeout has elapsed. -/
def execWaitcTimeout (k : Nat) (s : State) : Out :=
  let q := s.queue k
  .next (match q.waitc with
    | none => s
    | some c =>
      let limit := cutN c.bytes 0x20 8
      if limit = 0 ∨ ((s.die q.home).gtc - c.since).toNat < limit then s else s.stopCmd k c 5)

/-- SIGNAL (R91): an atomic store or add, once what earlier commands wrote is performed at system scope; one that meets poison or
a lost location stops the queue (assumption 24). It acts on the replica its die reaches (assumption 75). The queues of its die that
wait for a counter then read it again. -/
def execSignalCmd (k : Nat) (s : State) : Out :=
  let q := s.queue k
  .next (match s.startable k 4 with
    | none => s
    | some c =>
      let a := cutW c.bytes 0x10
      let v := cutN c.bytes 0x18 8
      if s.qBlocked q a 8 || !s.queueQuiet k 4 then s
      else
        let old : Except Nat Nat := if cutN c.bytes 0x20 1 = 1 then (match s.qRead q a 8 with | .ok bs => .ok (leNat bs) | .error e => .error e)
          else .ok 0
        match old with
        | .error _ => s.stopCmd k c 3
        | .ok n =>
          match s.ctxWrite q.home q.ctx a (leBytes 8 ((n + v) % 2 ^ 64)) with
          | .error _ => s.stopCmd k c 3
          | .ok s => (s.finishCmd k c.index 0 0).recheckDie q.home)

/-- The first 0x80 bytes of a report (R96). -/
def reportBody (k : Nat) (q : Queue) (gtc : Word) (nonce : List Byte) : List Byte :=
  leBytes 4 1 ++ leBytes 4 k ++ leBytes 8 q.done.toNat ++ leBytes 8 gtc.toNat ++ leBytes 16 Config.serial.toNat
    ++ nonce ++ digestBytes q.h ++ leBytes 24 0

/-- HASH (R96): the report of H after the sequence before its own, once DONE has reached that sequence, signed with the device
identity key. -/
def execHashCmd (k : Nat) (s : State) : Out :=
  let q := s.queue k
  .next (match s.startable k 5 with
    | none => s
    | some c =>
      let a := cutW c.bytes 0x10
      if q.done.toNat ≠ c.index ∨ s.qBlocked q a 192 then s
      else
        let body := reportBody k q (s.die q.home).gtc (cut c.bytes 0x18 32)
        let sig := signDigest (sha256 body) s.freeDraws
        let report := body ++ bigBytes 32 sig.1 ++ bigBytes 32 sig.2
        match s.ctxWriteSpan q.home q.ctx a report 3 with
        | .error _ => s.stopCmd k c 3
        | .ok s => { s with freeDraws := s.freeDraws + 4 }.finishCmd k c.index 0 (sha256 report))

/-! ## COPY (R91, R92, R78) -/

/-- Destination lines of a copy: offset and length of each, split at 64-byte lines. -/
def copySegs (dst off n fuel : Nat) : List (Nat × Nat) :=
  match fuel with
  | 0 => []
  | f + 1 =>
    if n ≤ off then []
    else
      let k := min (n - off) (64 - (dst + off) % 64)
      (off, k) :: copySegs dst (off + k) n f

/-- A line of a COPY's source: offset at the destination, bytes, whether a source line is poisoned. -/
structure SegBytes where
  off : Nat
  bytes : List Byte
  bad : Bool

/-- Read the source of every line in order, up to the first that cannot be read: what was read, and the cause. -/
def State.segReads (s : State) (q : Queue) (src : Word) (segs : List (Nat × Nat)) : List SegBytes × Option Nat :=
  match segs with
  | [] => ([], none)
  | (off, n) :: r =>
    let va := src + BitVec.ofNat 64 off
    match s.ctxReadSpan q.home q.ctx true va n 3 with
    | .error c => ([], some c)
    | .ok bs =>
      let bad := (match s.qRead q va n with | .ok _ => false | .error _ => true)
      let (l, e) := State.segReads s q src r
      (⟨off, bs, bad⟩ :: l, e)

/-- The tracker counts one line of a COPY at an address (R218). -/
def State.qCount (s : State) (q : Queue) (va : Word) : State :=
  match s.translate q.home q.ctx true .read va with
  | .ok x => s.countAccess q.home q.source x
  | .error _ => s

/-- A line of a COPY was written at an address: it counts, and a link owes its acknowledgement (R218, R335). -/
def State.qWrote (s : State) (q : Queue) (va : Word) : State :=
  match s.translate q.home q.ctx true .write va with
  | .ok x => (match x.place with | some p => s.linkNote q.source va p | none => s).countAccess q.home q.source x
  | .error _ => s

/-- The tracker counts the lines of a COPY's source (R218). -/
def State.qCounts (s : State) (q : Queue) (vas : List Word) : State := vas.foldl (fun s va => s.qCount q va) s

/-- Mark the line at an address of a queue's context poisoned (R321). -/
def State.qPoison (s : State) (q : Queue) (va : Word) : State :=
  match s.translate q.home q.ctx true .read va with
  | .ok x => (match x.place with | some p => s.setPoison (lineOf p.key) true | none => s)
  | .error _ => s

/-- Write lines in order, up to the first that cannot be written: the number written, and the cause. -/
def State.segWrites (s : State) (q : Queue) (dst : Word) (l : List SegBytes) (i : Nat) : State × Option (Nat × Nat) :=
  match l with
  | [] => (s, none)
  | b :: r =>
    let va := dst + BitVec.ofNat 64 b.off
    match s.ctxWrite q.home q.ctx va b.bytes with
    | .error c => (s, some (i, c))
    | .ok s => State.segWrites ((if b.bad then s.qPoison q va else s).qWrote q va) q dst r (i + 1)

/-- The completion word of a COPY that stopped at a line (R92). -/
def copyWord (line cause : Nat) : Word := BitVec.ofNat 64 (line * 2 ^ 32 + cause % 256 * 2 ^ 24 + 20 * 256 + 1)

/-- A plain COPY: the state and the completion word. The whole source is read before the destination is written, so that one that
overlaps is copied as it stood; where both ends of a line fail, the source's cause is reported (assumption 75). -/
def State.copyPlain (s : State) (q : Queue) (dst src : Word) (n : Nat) : State × Word :=
  let segs := copySegs dst.toNat 0 n (n + 1)
  let (l, e) := s.segReads q src segs
  match (s.qCounts q (l.map (fun b => src + BitVec.ofNat 64 b.off))).segWrites q dst l 0 with
  | (s, some (i, c)) => (s, copyWord i c)
  | (s, none) => match e with
    | some c => (s, copyWord l.length c)
    | none => (s, 0)

/-- R78: the notice of a seal that failed. -/
def State.sealNotice (s : State) (q : Queue) (dst chunk : Word) : State :=
  s.post q.home { gtc := (s.die q.home).gtc, source := q.home * 128 + 96, cause := 38, ctx := q.ctx, kind := 15, va := dst, elem := 0,
                  detail := chunk }

/-- A decrypting COPY (R78): one chunk with its tag, into secure locations; a tag that fails leaves zeros. -/
def State.copySealed (s : State) (q : Queue) (dst src chunk : Word) (n : Nat) : State × Word :=
  let c := s.context q.ctx
  if !spanAll (s.pageSecure q.home q.ctx) dst n (n / 65536 + 2) then (s, copyWord 0 Cause.world)
  else match s.qRead q src (n + 16) with
    | .error e => (s, copyWord 0 e)
    | .ok bs =>
      let plain := if c.flags.getLsbD 2 then openChunk (s.keys.getD c.keySlot.toNat 0) chunk (bs.take n) (bs.drop n) else none
      let out := plain.getD (List.replicate n 0)
      let l := (copySegs dst.toNat 0 n (n + 1)).map (fun (off, k) => (⟨off, (out.drop off).take k, false⟩ : SegBytes))
      let from_ := (List.range ((n + 79) / 64)).map (fun i => src + BitVec.ofNat 64 (64 * i))
      match (s.qCounts q from_).segWrites q dst l 0 with
      | (s, some (i, e)) => (s, copyWord i e)
      | (s, none) => if plain.isSome then (s, 0) else (s.sealNotice q dst chunk, BitVec.ofNat 64 (17 * 256 + 1))

/-- COPY (R91, R92): the bytes are copied, and the command is outstanding until COPY_COMMAND_COMPLETE. -/
def execCopyCmd (k : Nat) (s : State) : Out :=
  let q := s.queue k
  .next (match s.startable k 2 with
    | none => s
    | some c =>
      let dst := cutW c.bytes 0x10
      let src := cutW c.bytes 0x18
      let n := cutN c.bytes 0x20 4
      if s.qBlocked q dst n || s.qHeld q src (n + 16) then s
      else
        let (s, cw) := if cutN c.bytes 0x24 1 % 2 = 1 then s.copySealed q dst src (cutW c.bytes 0x28) n else s.copyPlain q dst src n
        s.updQueue k (fun q => q.updCmd c.index (fun c => { c with started := true, cw := cw })))

/-- COPY_COMMAND_COMPLETE (R92, R95): the last byte is written, over a link too (R335): the completion word, and the digest of the
destination as it stands. -/
def execCopyCommandComplete (k : Nat) (s : State) : Out :=
  let q := s.queue k
  .next (match q.cmds.find? (fun c => c.op == 2 && c.outstanding) with
    | none => s
    | some c =>
      let at_ := c.entryAddr + 0x38
      if s.qBlocked q at_ 8 || s.linkPending q.source || s.qHeld q (cutW c.bytes 0x10) (cutN c.bytes 0x20 4) then s
      else
        let s := s.qWrite q at_ (leBytes 8 c.cw.toNat)
        s.finishCmd k c.index c.cw (sha256 (s.readRanges q.home q.ctx [(cutW c.bytes 0x10, cutN c.bytes 0x20 4)])))

/-! ## LAUNCH (R91, R92, R109, R115) -/

/-- Some cluster can hold a group of the launch (R92 cause 6, R80, R121, R128), and a DETMODE launch at no other VLB than its header's
(R354): the answer that the model takes firmware to give
(assumption 75). -/
def State.placeable (s : State) (ctx : Nat) (h : Header) : Bool :=
  let c := s.context ctx
  let need := if c.vlb ≠ 0 then c.vlb.toNat else if h.det then h.vlb else 512
  (c.state == 1 || c.state == 2 || c.state == 3) && (!h.det || need == h.vlb) && (List.range 32).any (fun cl =>
    let cores := (List.range 4).map (fun k => s.core (cl * 4 + k))
    !(h.matrix && cores.any Core.engineFailed)
      && decide (h.groupSz ≤ 4 * cores.countP (fun k => k.present && decide (need ≤ k.laneCap))))

/-- R113: the launch count of the header's kernel, where the loader mapped it. -/
def State.countLaunch (s : State) (ctx : Nat) (header : Word) (up : Bool) : State :=
  { s with loaded := s.loaded.map (fun (o : Loaded) =>
      if o.ctx = ctx then
        { o with kernels := o.kernels.map (fun (p : Nat × Nat) => (p.1, if p.1 = header.toNat then (if up then p.2 + 1 else p.2 - 1) else p.2)) }
      else o) }

/-- LAUNCH (R109): the snapshot and its checks, then its groups can be placed. A launch whose queue has one outstanding under
the same LAUNCHID waits for that one (assumption 8). -/
def execLaunchCmd (k : Nat) (s : State) : Out :=
  let q := s.queue k
  .next (match s.startable k 1 with
    | none => s
    | some c =>
      let key : LaunchKey := ⟨k, c.lid⟩
      let header := cutW c.bytes 0x10
      let params := cutW c.bytes 0x18
      if (look s.launches key).isSome || s.qHeld q header 128 then s
      else match s.readHeader q.home q.ctx header params with
        | .error e => s.stopCmd k c e
        | .ok h =>
          if !s.qMapped q .read false params 1 then s.stopCmd k c 3
          else if !s.placeable q.ctx h then s.stopCmd k c 6
          else
            let s := s.setLaunch key { ctx := q.ctx, header := h, headerAddr := header, paramBase := params,
                                       ngroups := cutN c.bytes 0x20 4, index := c.index }
            (s.countLaunch q.ctx header true).updQueue k (fun q => q.updCmd c.index (fun c => { c with started := true })))

/-- Every strand of every group has ended, or has been stopped and has left (R114, R118, R152). -/
def State.launchOver (s : State) (k : LaunchKey) (l : Launch) : Bool :=
  let gs := s.groups.filter (fun (g, _) => decide (g.launch = k))
  gs.all (fun (_, g) => g.members.isEmpty)
    && (l.stopped || (gs.length == l.ngroups && gs.all (fun (_, g) => g.state == .ended)))

/-- The launch completion word (R115). -/
def Launch.word (l : Launch) : Word :=
  BitVec.ofNat 64 (l.strands.toNat * 2 ^ 32 + l.flags.toNat * 2 ^ 16 + l.cause.toNat * 256 + (if l.eddy then 4 else 0)
    + (if l.rollbk then 2 else 0) + (if l.cause = 0 then 0 else 1))

/-- LAUNCH_COMPLETE (R115): the digest, the completion word in the entry; the launch and its groups are forgotten. -/
def execLaunchComplete (k : LaunchKey) (s : State) : Out :=
  .next (match look s.launches k with
    | none => s
    | some l =>
      let q := s.queue k.queue
      match q.cmds.find? (fun c => c.op == 1 && c.lid == k.lid && c.outstanding) with
      | none =>
        if s.launchOver k l then
          { s.countLaunch l.ctx l.headerAddr false with
            launches := s.launches.filter (fun (j, _) => decide (j ≠ k)), groups := s.groups.filter (fun (g, _) => decide (g.launch ≠ k)) }
        else s
      | some c =>
        let at_ := c.entryAddr + 0x38
        if !s.launchOver k l || s.qBlocked q at_ 8 || l.header.outs.any (fun r => s.qHeld q r.1 r.2) then s
        else
          let digest := sha256 (s.readRanges q.home q.ctx l.header.outs)
          let s := (s.qWrite q at_ (leBytes 8 l.word.toNat)).countLaunch l.ctx l.headerAddr false
          let s : State := { s with
            launches := s.launches.filter (fun (j, _) => decide (j ≠ k)), groups := s.groups.filter (fun (g, _) => decide (g.launch ≠ k)) }
          s.finishCmd k.queue c.index l.word digest)

/-! ## DONE (R88, R91, R95, R337) -/

/-- H after a command of sequence `n` (R95). -/
def chainHash (h : BitVec 256) (n : Nat) (c : Command) : BitVec 256 :=
  sha256 (digestBytes h ++ leBytes 8 n ++ leBytes 8 c.lid ++ leBytes 8 c.cw.toNat ++ digestBytes c.digest)

/-- The message of a queue's DONE (R337). -/
def doneMessage (k : Nat) (done : Word) : Word := BitVec.ofNat 64 (done.toNat % 2 ^ 48 * 2 ^ 16 + k % 1024)

/-- DONE_ADVANCE (R91, R95, R88, R337): DONE is written with release at system scope, and the message it sends goes to NOTIFY as it
stands then. -/
def execDoneAdvance (k : Nat) (s : State) : Out :=
  let q := s.queue k
  .next (match q.cmds with
    | [] => s
    | c :: r =>
      if !c.complete || q.desc.state = 0 || c.index ≠ q.done.toNat || s.qBlocked q q.desc.qcb 64 || !s.queueQuiet k 4 then s
      else
        let n := c.index + 1
        let done : Word := BitVec.ofNat 64 n
        let h := chainHash q.h n c
        let s := (s.qWrite q (q.desc.qcb + 0x10) (digestBytes h)).qWrite q (q.desc.qcb + 8) (leBytes 8 n)
        s.updQueue k (fun q => { q with cmds := r, h := h, done := done,
                                        pending := if q.notify = 0 then q.pending else some (q.notify, doneMessage k done) }))

/-- NOTIFY_MESSAGE (R337): the waiting message leaves by the host link. -/
def execNotifyMessage (k : Nat) (s : State) : Out :=
  let q := s.queue k
  .next (match q.pending with
    | none => s
    | some m =>
      if !(s.port 16).usable then s
      else (s.setQueue k { q with pending := none }).hostMessage m.1 m.2)

/-! ## What firmware and the host ask (R87, R88, R93, R94, R333) -/

/-- QUEUE_CREATE (R87, R88, R93): a free queue takes the descriptor and is stopped; DONE, ERR and H are written 0. NOTIFY and a message that
waits stay (assumption 45). -/
def execQueueCreate (d : QueueDesc) (s : State) : Out :=
  let k := d.queueId.toNat
  let old := s.queue k
  let q : Queue := { desc := { d with state := 1 }, nextAddr := d.first, notify := old.notify, pending := old.pending }
  .next (if queueLimit ≤ k ∨ old.desc.state ≠ 0 ∨ s.qBlocked q (d.qcb + 8) 48 then s
    else (s.qWrite q (d.qcb + 8) (leBytes 48 0)).setQueue k q)

/-- QUEUE_START (R93). -/
def execQueueStart (k : Nat) (s : State) : Out :=
  let q := s.queue k
  .next (if q.desc.state = 1 then s.setQueue k { q.to 2 with noticed := true } else s)

/-- QUEUE_STOP (R93): nothing new starts; a waiting WAITC is abandoned unstarted. -/
def execQueueStop (k : Nat) (s : State) : Out :=
  let q := s.queue k
  .next (if q.desc.state = 2 ∨ q.desc.state = 3 then
      s.updQueue k (fun q => { q.to 4 with cmds := q.cmds.map (fun c => if c.op = 3 ∧ c.outstanding then { c with started := false } else c) })
    else s)

/-- The address of the entry after the one that stopped the queue (R94): its own NEXT where that was read and is aligned. -/
def QueueStop.after (e : QueueStop) (given : Word) : Word :=
  match e.entry with
  | some bs => if cutN bs 8 8 % 64 = 0 then cutW bs 8 else given
  | none => given

/-- The command a skipped entry counts as (R94, R95). -/
def QueueStop.skipped (e : QueueStop) : Command :=
  let bs := e.entry.getD []
  { index := e.index, entryAddr := e.addr, op := cutN bs 0 1, bar := false, bytes := bs, started := true, complete := true,
    cw := BitVec.ofNat 64 (1 + e.cause * 256), lid := if cutN bs 0 1 = 1 then cutN bs 0x24 4 else 0 }

/-- QUEUE_SKIP (R93, R94): the entry gets its sequence number with an error, and the queue runs on. -/
def execQueueSkip (k : Nat) (next : Word) (s : State) : Out :=
  let q := s.queue k
  .next (match q.err with
    | none => s
    | some e =>
      if q.desc.state ≠ 5 then s
      else s.setQueue k { q.to 2 with next := e.index + 1, nextAddr := e.after next, cmds := q.cmds ++ [e.skipped], err := none, noticed := true })

/-- QUEUE_RETRY (R93): the entry is fetched again. -/
def execQueueRetry (k : Nat) (s : State) : Out :=
  let q := s.queue k
  .next (match q.err with
    | none => s
    | some e => if q.desc.state ≠ 5 then s else s.setQueue k { q.to 2 with next := e.index, nextAddr := e.addr, err := none, noticed := true })

/-- QUEUE_DESTROY (R93): a stopped or failed queue is free. -/
def execQueueDestroy (k : Nat) (s : State) : Out :=
  let q := s.queue k
  .next (if q.desc.state = 1 ∨ q.desc.state = 5 then s.setQueue k { notify := q.notify, pending := q.pending } else s)

/-- TAIL_STORE_NOTICED (R89): a plain store raised TAIL. -/
def execTailStoreNoticed (k : Nat) (s : State) : Out :=
  let q := s.queue k
  .next (if q.desc.state ≠ 0 ∧ s.qHeld q q.desc.qcb 8 = false ∧ q.next < s.qWord q q.desc.qcb then s.setQueue k { q with noticed := true } else s)

end Sys2Proof.Machine
end

