-- ==== Sys2Proof/Machine/Host.lean ====
section
/-! DEFINITION. Bytes at frame addresses for the device's own units (R206), and what comes in by the links: the memory
aperture (R334) and the doorbells (R333), in the order of each port (R331). -/

namespace Sys2Proof.Machine

/-! ## Bytes at frame addresses -/

/-- Bytes at a frame address; none where the entry is unusable, the place lost, or a line poisoned. -/
def State.frameRead (s : State) (die fa n : Nat) : Option (List Byte) :=
  match s.resolve die true .read fa with
  | .error _ => none
  | .ok x => match x.place with
    | none => none
    | some p => if p.exists && !s.poisoned p n then some (s.readPlace p n) else none

/-- The PC behind a frame address is being copied (R211). -/
def State.frameBusy (s : State) (die fa : Nat) : Bool :=
  match (s.fme die (fa / 65536)).place die (fa % 65536) with
  | some p => s.placeBusy p
  | none => false

/-- A write at a frame address waits (R216, R211). -/
def State.frameBlocked (s : State) (die fa : Nat) : Bool := (s.fme die (fa / 65536)).w || s.frameBusy die fa

/-- Write bytes at a frame address; a write that cannot be made is passed over (assumption 24). -/
def State.frameWrite (s : State) (die fa : Nat) (bs : List Byte) : State :=
  match s.resolve die true .write fa with
  | .error _ => s
  | .ok x => match x.place with
    | none => s
    | some p => if p.exists then (s.clockTo die p).writePlace p bs else s

/-! ## The control aperture (R328, R332, R333, R360) -/

/-- Number of ports: 16 peer ports and the host link (R332). -/
def portLimit : Nat := 17

/-- The port carries flits. -/
def Port.running (q : Port) : Bool := q.state == .up || q.state == .degraded

/-- The state code LINKSTAT shows (R328). -/
def LinkState.code : LinkState → Nat
  | .reset => 0 | .training => 1 | .up => 2 | .degraded => 3 | .fenced => 4 | .down => 5

/-- LINKSTAT of a port (R328). -/
def Port.linkstat (q : Port) : Word :=
  BitVec.ofNat 64 (q.state.code + (if q.world then 8 else 0) + (if q.running then q.lanes * 2 ^ 16 else 0)
    + q.retry.toNat * 2 ^ 32 + q.errcnt.toNat * 2 ^ 48)

/-- A word of which the three low bits are not kept: 8-byte aligned addresses (R333, R360). -/
def aligned8 (w : Word) : Word := w &&& ~~~7#64

/-- STATUS (R360). -/
def Boot.status (b : Boot) : Word :=
  BitVec.ofNat 64 ((if b.minimal then 1 else 0) + (if b.repl then 2 else 0) + b.replwhy.toNat * 2 ^ 8
    + b.stage * 2 ^ 16 + b.bootcnt % 256 * 2 ^ 24)

/-- COREMAP (R360). -/
def State.coremap (s : State) : Nat := (List.range 128).foldl (fun a k => if (s.core k).present then a + 2 ^ k else a) 0

/-- Eight bytes of the device block; offsets not listed read as zero, and readings are free values (assumption 13). -/
def State.deviceBlock (s : State) (off : Nat) : Word :=
  if off = 0x000 then 0x01A80001
  else if off = 0x010 ∨ off = 0x018 then BitVec.ofNat 64 (Config.serial.toNat / 2 ^ (8 * (off - 0x010)))
  else if 0x020 ≤ off ∧ off < 0x060 then
    BitVec.ofNat 64 (leNat ((leBytes 64 identityKey.toNat).reverse.drop (off - 0x020) |>.take 8))
  else if off = 0x060 then BitVec.ofNat 64 s.coremap
  else if off = 0x068 then BitVec.ofNat 64 (s.coremap / 2 ^ 64)
  else if off = 0x070 then s.boot.stackmap.setWidth 64
  else if off = 0x078 then s.boot.status
  else if off = 0x080 then
    BitVec.ofNat 64 (s.boot.reason % 256 + (if s.boot.minimal then Config.minimalLoadAddr.toNat * 2 ^ 32 else 0))
  else if off = 0x090 then s.boot.replNotify
  else if off = 0x0A0 then BitVec.ofNat 64 (s.boot.clockMHz % 2 ^ 16 + s.boot.capW.toNat * 2 ^ 32)
  else if off = 0x098 ∨ (0x0C0 ≤ off ∧ off < 0x120) then Config.reading (s.steps * 4096 + off)
  else 0

/-- Eight bytes of the control aperture at an 8-byte aligned offset (R332, R333). -/
def State.control (s : State) (off : Nat) : Word :=
  if off < 0x1000 then s.deviceBlock off
  else if off < 0x1000 + 8 * portLimit then (s.port ((off - 0x1000) / 8)).linkstat
  else if 0x10000 ≤ off ∧ off < 0x20000 then
    if off % 64 = 8 then (s.queue ((off - 0x10000) / 64)).done
    else if off % 64 = 16 then (s.queue ((off - 0x10000) / 64)).notify
    else 0
  else 0

/-! ## Requests of the host and of peers -/

/-- A request is answered with an error: ERRCNT of the port counts it (R328, R333, R334). -/
def State.countError (s : State) (p : Nat) : State :=
  let q := s.port p
  s.setPort p { q with errcnt := if q.errcnt = BitVec.allOnes 16 then q.errcnt else q.errcnt + 1 }

/-- The place a request of a port reaches, as an access on die 0; none where it gets an error completion: a poisoned line answers no
write either, not even one that replaces it whole (R334). -/
def State.aperture (s : State) (port : Nat) (acc : Access) (fa n : Nat) : Option Place :=
  match s.resolve 0 (s.port port).world acc fa with
  | .error _ => none
  | .ok x => match x.place with
    | none => none
    | some p =>
      if !p.exists || s.poisoned p n then none else some p

/-- The port a request came in by. -/
def HostPost.port (h : HostPost) : Nat :=
  match h with
  | .write p _ _ | .masked p _ _ _ | .read p _ _ | .atomic p _ _ _ _ _ => p
  | .tail _ _ | .notify _ _ | .replNotify _ | .linkstat _ _ | .control _ => 16

/-- The request waits while the frame it writes moves (R216, R333), or the PC it reaches is being copied (R211). -/
def State.postBlocked (s : State) (h : HostPost) : Bool :=
  match h with
  | .write _ fa _ | .atomic _ fa _ _ _ _ => s.frameBlocked 0 fa
  | .masked _ line _ _ => s.frameBlocked 0 (line * 64)
  | .read _ fa _ => s.frameBusy 0 fa
  | .tail k _ =>
    let q := s.queue k
    q.desc.state != 0 && s.qBlocked q q.desc.qcb 8
  | .notify _ _ | .replNotify _ | .linkstat _ _ | .control _ => false

/-- TAIL rises to the value and the front-end is told; for a free queue the write is discarded and counted (R333). -/
def State.doorbell (s : State) (k : Nat) (v : Word) : State :=
  let q := s.queue k
  if q.desc.state = 0 then s.countError 16
  else match s.qRead q q.desc.qcb 8 with
    | .error _ => s
    | .ok bs => (s.qWrite q q.desc.qcb (leBytes 8 (max (leNat bs) v.toNat))).setQueue k { q with noticed := true }

/-- Nibbles of the bytes a mask names. -/
def byteMask (m : BitVec 64) : BitVec 128 :=
  BitVec.ofNat 128 ((List.range 64).foldl (fun a k => if m.getLsbD k then a + 3 * 2 ^ (2 * k) else a) 0)

/-- A completion of `n` bytes for a request of a port. -/
def State.completion (s : State) (port : Nat) (bs : List Byte) : State := { s with hostIn := s.hostIn ++ [(port, bs)] }

/-- An error completion of a request that reads (R334). -/
def State.failRead (s : State) (port n : Nat) : State := (s.countError port).completion port (List.replicate n 0xFF)

/-- NOTIFY of a doorbell is written; for a free queue the write is discarded and counted (R333). -/
def State.setNotify (s : State) (k : Nat) (v : Word) : State :=
  if (s.queue k).desc.state = 0 then s.countError 16 else s.setQueue k { s.queue k with notify := aligned8 v }

/-- Written 1s clear ERRCNT and RETRY of a port; the other fields are read only (R328). -/
def State.clearLinkstat (s : State) (p : Nat) (w : Word) : State :=
  let q := s.port p
  s.setPort p { q with errcnt := q.errcnt &&& ~~~(w.extractLsb' 48 16), retry := q.retry &&& ~~~(w.extractLsb' 32 16) }

/-- A host write in minimal mode: the image goes to the address that REASON names; there is no other memory to write (R359;
assumption 27). -/
def State.imageWrite (s : State) (port fa : Nat) (bs : List Byte) : State :=
  if port = 16 ∧ Config.minimalLoadAddr.toNat ≤ fa then { s with hostImage := Memory.writeBytes s.hostImage fa bs } else s.countError port

/-- A request is performed and answered (R333, R334): an error completion reads as all ones, and writes nothing. An atomic acts as one
step at its home, and is answered with what it found; one that is not of 4 or 8 bytes at a multiple of its size gets an error
completion (R147, R330; assumption 83). -/
def State.performPost (s : State) (h : HostPost) : State :=
  match h with
  | .tail k v => s.doorbell k v
  | .read port fa n => match s.aperture port .read fa n with
    | none => s.failRead port n
    | some p => s.completion port (s.readPlace p n)
  | .write port fa bs =>
    if s.boot.minimal then s.imageWrite port fa bs
    else match s.aperture port .write fa bs.length with
    | none => s.countError port
    | some p => (s.clockTo 0 p).writePlace p bs
  | .masked port line m d =>
    if s.boot.minimal then
      s.imageWrite port (line * 64) ((Memory.readBytes s.hostImage (line * 64) 64).zipIdx.map (fun (b, i) => lineByte (byteMask m) d i b))
    else match s.aperture port .write (line * 64) 64 with
    | none => s.countError port
    | some p => (s.clockTo 0 p).writeLine none (lineOf p.key) (byteMask m) d
  | .atomic port fa n op b e =>
    if !((n == 4 || n == 8) && fa % n == 0 && decide (op < 10)) then s.failRead port n
    else match s.aperture port .atomic fa n with
    | none => s.failRead port n
    | some p =>
      let s := s.payOwed 0 p
      let old := leNat (s.readPlace p n)
      (((s.clockFrom 0 p).clockTo 0 p).writePlace p (leBytes n (amoNew op (8 * n) old (b.toNat % 2 ^ (8 * n)) (e.toNat % 2 ^ (8 * n))))).completion
        port (leBytes n old)
  | .notify k v => s.setNotify k v
  | .replNotify v => { s with boot := { s.boot with replNotify := aligned8 v } }
  | .linkstat p w => s.clearLinkstat p w
  | .control off => s.completion 16 (leBytes 8 (s.control off).toNat)

/-- Perform waiting requests in the order they came; behind one that waits, those of its port wait (R331, R333). -/
def State.flushPosts (s : State) (stuck : List Nat) (l : List HostPost) : State :=
  match l with
  | [] => s
  | h :: r =>
    if stuck.contains h.port || s.postBlocked h then
      let s := State.flushPosts s (h.port :: stuck) r
      { s with hostPosts := h :: s.hostPosts }
    else State.flushPosts (s.performPost h) stuck r

/-- Perform what can be performed of the requests that wait. -/
def State.flushHost (s : State) : State :=
  match s.hostPosts with
  | [] => s
  | l => State.flushPosts { s with hostPosts := [] } [] l

/-- Requests come in behind those that wait. -/
def State.receive (s : State) (l : List HostPost) : State := { s with hostPosts := s.hostPosts ++ l }.flushHost

/-- Cut `n` bytes from `fa` at 64-byte lines: address, offset in the whole, and length of each piece. -/
def linePieces (fa off n fuel : Nat) : List (Nat × Nat × Nat) :=
  match fuel with
  | 0 => []
  | f + 1 => if n = 0 then [] else
    let k := min n (64 - fa % 64)
    (fa, off, k) :: linePieces (fa + k) (off + k) (n - k) f

/-- The request lies in the memory aperture and its port has a partner (R332, R334, R336). -/
def State.reaches (s : State) (p : Nat) (fa : Word) (n : Nat) : Bool :=
  decide (p ≤ 16) && (s.port p).usable && decide (fa.toNat + n ≤ 2 ^ 48)

/-- HOST_MEMORY_READ (R334). -/
def execHostMemoryRead (p : Nat) (fa : Word) (n : Nat) (s : State) : Out :=
  if s.reaches p fa n then .next (s.receive ((linePieces fa.toNat 0 n (n + 1)).map (fun x => .read p x.1 x.2.2)))
  else .next s

/-- HOST_MEMORY_WRITE (R334). -/
def execHostMemoryWrite (p : Nat) (fa : Word) (data : List Byte) (s : State) : Out :=
  if s.reaches p fa data.length then
    .next (s.receive ((linePieces fa.toNat 0 data.length (data.length + 1)).map
      (fun x => .write p x.1 ((data.drop x.2.1).take x.2.2))))
  else .next s

/-- The bytes of the memory aperture that a request names, where it names some: they lie in one line. -/
def HostPost.span (h : HostPost) : Option (Nat × Nat) :=
  match h with
  | .write _ fa bs => some (fa, bs.length)
  | .masked _ line _ _ => some (line * 64, 64)
  | .read _ fa n | .atomic _ fa n _ _ _ => some (fa, n)
  | .tail _ _ | .notify _ _ | .replNotify _ | .linkstat _ _ | .control _ => none

/-- A request of any form comes in by a link that has a partner (R330, R336). -/
def State.request (s : State) (h : HostPost) : State :=
  let fits := match h.span with
    | some (fa, n) => decide (fa % 64 + n ≤ 64) && s.reaches h.port (BitVec.ofNat 64 fa) n
    | none => (s.port 16).usable
  if fits then s.receive [h] else s

/-- DOORBELL_TAIL_WRITE (R333). -/
def execDoorbellTailWrite (k : Nat) (v : Word) (s : State) : Out :=
  if (s.port 16).usable then .next (s.receive [.tail (k % queueLimit) v]) else .next s

end Sys2Proof.Machine
end

