-- ==== Sys2Proof/Machine/Link.lean ====
section
/-! DEFINITION. Link ports: their states (R328, R329), flits (R330), and the answers to the device's own requests (R335). Port
16 is the host link. -/

namespace Sys2Proof.Machine

/-- Source number of what comes in by a port (R12): package port `p` is on die `p / 2`; the host link is unit 99 of die 0. No rule
has a port make a record of its own. -/
def portSource (p : Nat) : Nat := if p = 16 then 99 else p / 2 * 128 + 100 + p

/-- Full width of a port (R328). -/
def fullWidth (p : Nat) : Nat := if p = 16 then 64 else 16

/-- Largest width of R328 that the working lanes allow; 0 when there is none. -/
def widthOf (p lanes : Nat) : Nat :=
  if p = 16 then (if 64 ≤ lanes then 64 else if 32 ≤ lanes then 32 else if 16 ≤ lanes then 16 else 0)
  else (if 16 ≤ lanes then 16 else if 8 ≤ lanes then 8 else 0)

/-- The bound strand whose store this was meets an uncorrectable error at its next drain point (R335). -/
def State.loseStore (s : State) (r : LinkReq) : State :=
  if r.isWrite ∧ (s.strand r.source).st ≠ .unbound then
    s.updAt r.source (fun t => { t with lostStore := some (t.lostStore.getD r.va) })
  else s

/-- Requests still in flight through a port are never acknowledged (R335; assumption 26). -/
def State.dropFlights (s : State) (p : Nat) : State :=
  let q := s.port p
  q.inflight.foldl State.loseStore (s.setPort p { q with inflight := [] })

/-- A port runs at a width: full, or degraded; a host link below 64 lanes asks for a replacement (R329, R361). -/
def State.runAt (s : State) (p width : Nat) (st : LinkState) : State :=
  let s := s.setPort p { s.port p with state := st, lanes := width, attempts := 0 }
  if p = 16 ∧ width < 64 then s.replace 3 else s

/-- An attempt failed; the third in a row takes the port down (R329). -/
def State.failTraining (s : State) (p : Nat) : State :=
  let q := s.port p
  if q.attempts < 2 then s.setPort p { q with attempts := q.attempts + 1 }
  else s.setPort p { q with attempts := q.attempts + 1, state := .down }

/-- PORT_ENABLE (R329). In minimal mode the other dies are held in reset, with their ports (R359). -/
def execPortEnable (p : Nat) (s : State) : Out :=
  let q := s.port p
  .next (if portLimit ≤ p ∨ q.state ≠ .reset ∨ (s.boot.minimal ∧ p ≠ 16) then s
    else s.setPort p { q with state := .training, lanes := 0, attempts := 0 })

/-- TRAINING_COMPLETE (R329): up at full width, else degraded; too few lanes for any width are a failed attempt
(assumption 26). -/
def execTrainingComplete (p lanes : Nat) (s : State) : Out :=
  let w := widthOf p lanes
  .next (if portLimit ≤ p ∨ (s.port p).state ≠ .training then s
    else if w = 0 then s.failTraining p
    else s.runAt p w (if w = fullWidth p then .up else .degraded))

/-- TRAINING_FAILED (R329). -/
def execTrainingFailed (p : Nat) (s : State) : Out :=
  .next (if portLimit ≤ p ∨ (s.port p).state ≠ .training then s else s.failTraining p)

/-- The port has no partner (R329): down, and no request in flight is answered. -/
def State.takeDown (s : State) (p : Nat) : State :=
  let s := s.dropFlights p
  s.setPort p { s.port p with state := .down, lanes := 0 }

/-- LANES_LOST (R329): degraded at the width that is left; no request is lost. With no width left the partner is lost
(assumption 26). -/
def execLanesLost (p lanes : Nat) (s : State) : Out :=
  let q := s.port p
  let w := widthOf p lanes
  .next (if portLimit ≤ p ∨ !q.running ∨ q.lanes ≤ lanes then s
    else if w = 0 then s.takeDown p
    else s.runAt p w .degraded)

/-- PORT_FENCE (R329): requests in flight can still complete (R335; assumption 26). -/
def execPortFence (p : Nat) (s : State) : Out :=
  let q := s.port p
  .next (if portLimit ≤ p ∨ !q.running then s else s.setPort p { q with state := .fenced, lanes := 0 })

/-- REPLAY_LIMIT (R329): 4,096 flits replayed within 1 s fence the port, whatever RETRY holds. -/
def execReplayLimit (p : Nat) (s : State) : Out :=
  let q := s.port p
  let now := (s.die 0).gtc
  let recent := q.replays.filter (fun t => decide ((now - t).toNat < 1000000000))
  .next (if portLimit ≤ p ∨ !q.running ∨ recent.length < 4096 then s
    else s.setPort p { q with state := .fenced, lanes := 0, replays := [] })

/-- PORT_RETRAIN (R329): ERRCNT and RETRY are kept; what was in flight is never answered (assumption 26). -/
def execPortRetrain (p : Nat) (s : State) : Out :=
  .next (if portLimit ≤ p ∨ !((s.port p).state = .fenced ∨ (s.port p).state = .down) then s
    else
      let s := s.dropFlights p
      s.setPort p { s.port p with state := .training, lanes := 0, attempts := 0 })

/-- PARTNER_LOST (R329). -/
def execPartnerLost (p : Nat) (s : State) : Out := .next (if portLimit ≤ p then s else s.takeDown p)

/-- FLIT_CRC_FAILURE (R330, R328): the flit is replayed, and RETRY counts it, saturating. -/
def execFlitCrcFailure (p : Nat) (s : State) : Out :=
  let q := s.port p
  let now := (s.die 0).gtc
  .next (if portLimit ≤ p ∨ !q.running then s
    else s.setPort p { q with
      retry := if q.retry = BitVec.allOnes 16 then q.retry else q.retry + 1
      replays := q.replays.filter (fun t => decide ((now - t).toNat < 1000000000)) ++ [now] })

/-- LINKSTAT_CLEAR (R328): written 1s clear ERRCNT and RETRY, behind the host's earlier writes (R331). -/
def execLinkstatClear (p : Nat) (w : Word) (s : State) : Out := .next (if portLimit ≤ p then s else s.receive [.linkstat p w])

/-- LINK_COMPLETION (R335): the oldest request in flight is answered, and is performed at system scope. -/
def execLinkCompletion (p : Nat) (s : State) : Out :=
  let q := s.port p
  .next (s.setPort p { q with inflight := q.inflight.tail })

end Sys2Proof.Machine
end

