-- ==== Sys2Proof/Machine/Page.lean ====
section
/-! DEFINITION. The page instructions (R221), migration (R216), shadow slots (R212, R213). -/

namespace Sys2Proof.Machine

/-! ## The frame map as the device rewrites it (R208) -/

/-- Drop a frame from every die's frame-map cache. -/
def State.dropFrame (s : State) (frame : Nat) : State :=
  { s with dies := s.dies.map (fun (k, d) => (k, { d with fmCache := d.fmCache.erase frame })) }

/-- One frame-map write by the device: the entry, and no die keeps the old one. -/
def State.setFme (s : State) (frame : Nat) (f : Fme) : State := { s with fmap := s.fmap.set frame f }.dropFrame frame

/-- Set or clear W (R206 bit 3). -/
def Fme.withW (f : Fme) (on : Bool) : Fme := { f with w0 := if on then f.w0 ||| 8 else f.w0 &&& ~~~8#64 }

/-- The entry after a migration to `d`, in the layout of pgmig's operand (R216 step 4, R221): KIND d<2:0>, DIE d<6:4>,
LOC d<63:16>; S and P stay, W clears, T clears unless the new kind is host. -/
def Fme.moved (f : Fme) (d : Word) : Fme :=
  let kind := bitsN d 0 3
  { w0 := BitVec.ofNat 64 (kind + (if f.s then 16 else 0) + (if f.p then 32 else 0)
      + (if f.t && kind == 3 then 64 else 0) + (if kind == 3 then 0 else bitsN d 4 3 * 2 ^ 16))
    w1 := BitVec.ofNat 64 (bitsN d 16 48 * 65536) }

/-- The place of byte `off` of a migration's destination. -/
def destPlace (d : Word) (off : Nat) : Option Place :=
  match bitsN d 0 3 with
  | 1 => some (.deep (bitsN d 4 3) (bitsN d 16 48 * 65536 + off))
  | 2 => some (.shallow (bitsN d 4 3) (bitsN d 16 48 * 65536 + off))
  | 3 => some (.host (bitsN d 16 48 * 65536 + off))
  | _ => none

/-! ## Shadow slots (R212, R213) -/

/-- Promote block and band of a deep offset (R212). -/
def blockOf (off : Nat) : Nat := off / (127 * 1024)
def bandOf (block : Nat) : Nat := block / 480

/-- The slot that serves a block. -/
def Die.shadow? (d : Die) (block : Nat) : Option Shadow := d.shadows.find? (fun h => h.block == block)

/-- Replace the entry of a block's slot. -/
def Die.setShadow (d : Die) (h : Shadow) : Die :=
  { d with shadows := d.shadows.map (fun g => if g.block = h.block then h else g) }

/-- The lowest free slot of a band. -/
def Die.freeSlot (d : Die) (band : Nat) : Option Nat :=
  (List.range 16).find? (fun k => !d.shadows.any (fun h => h.band == band && h.slot == k))

/-- The unpinned slot of a band with the oldest stamp, the lower number on a tie. -/
def Die.victim (d : Die) (band : Nat) : Option Shadow :=
  (d.shadows.filter (fun h => h.band == band && !h.pinned)).foldl (fun best h =>
    match best with
    | none => some h
    | some b => if h.stamp.toNat < b.stamp.toNat ∨ (h.stamp = b.stamp ∧ h.slot < b.slot) then some h else best) none

/-- Pinned slots of a band. -/
def Die.pinnedIn (d : Die) (band : Nat) : Nat := d.shadows.countP (fun h => h.band == band && h.pinned)

/-- Put a block that has no slot into one (R213). -/
def Die.promote (d : Die) (block : Nat) : Die :=
  let band := bandOf block
  match d.freeSlot band with
  | some k => { d with shadows := d.shadows ++ [⟨band, k, block, false, d.gtc, true⟩] }
  | none => match d.victim band with
    | some v => { d with shadows := (d.shadows.filter (fun h => h.block != v.block)) ++ [⟨band, v.slot, block, false, d.gtc, true⟩] }
    | none => d

/-- `dpromo` on a deep block (R221, R213): op 0 promote, 1 promote and pin, 2 unpin; the status and the die after. -/
def Die.dpromo (d : Die) (block op : Nat) (priv : Bool) : Die × Nat :=
  let band := bandOf block
  match d.shadow? block with
  | some h =>
    if op = 2 then (if h.pinned then (d.setShadow { h with pinned := false }, 0) else (d, 1))
    else
      let h' := { h with stamp := d.gtc }
      if op = 0 then (d.setShadow h', 1)
      else if h.pinned then (d.setShadow h', if priv then 1 else 2)
      else if !priv || d.pinnedIn band ≥ 8 then (d.setShadow h', 2)
      else (d.setShadow { h' with pinned := true }, 1)
  | none =>
    if op = 2 then (d, 4)
    else
      let d' := d.promote block
      if op = 0 then (d', 0)
      else if !priv || d.pinnedIn band ≥ 8 then (d', 2)
      else match d'.shadow? block with
        | some h => (d'.setShadow { h with pinned := true }, 0)
        | none => (d', 2)

/-- `ddemo` on a deep block (R221, R213). -/
def Die.ddemo (d : Die) (block : Nat) (priv : Bool) : Die × Nat :=
  match d.shadow? block with
  | none => (d, 4)
  | some h => if h.pinned && !priv then (d, 2) else ({ d with shadows := d.shadows.filter (fun g => g.block != block) }, 0)

/-! ## The instructions (R221) -/

/-- Translate s[sa] as a read for a page instruction; `reportP`: the instruction reports P itself and does not take
cause 6 of R205. Its page-table walk waits as an access does (R211). -/
def State.pageAccess (s : State) (sa : BitVec 5) (reportP : Bool) (k : Xl → State) : Out :=
  let va := s.rd sa
  let core := some (coreOf s.cur.src)
  if s.walkBusy (dieOf s.cur.src) s.me.bind.ctx va.toNat core then .next s
  else match s.translate (dieOf s.cur.src) s.me.bind.ctx s.me.bind.secure (if reportP then .page else .shadow) va core with
  | .error c =>
    if c = Cause.poison then .next (s.consumeError s.cur.src c 2 va 0xFFFFFFFF 0 s.me.pc s.me.openStrip)
    else .next (s.scalarStop c 2 va 0)
  | .ok x => .next (k x)

/-- The deep die and offset a page instruction works on: KIND 1, or the local replica of KIND 5 (R221). -/
def Xl.deepOf (x : Xl) : Option (Nat × Nat) :=
  match x.fme.kind, x.place with
  | 1, some (.deep d o) => some (d, o)
  | 5, some (.deep d o) => some (d, o)
  | _, _ => none

def execPgstat (x : SReg2) (s : State) : Out :=
  s.pageAccess x.sa true (fun xl =>
    let f := xl.fme
    let sh := match f.kind, xl.place with
      | 1, some (.deep d o) => (s.die d).shadow? (blockOf o)
      | _, _ => none
    let v := f.kind + (if f.w then 8 else 0) + (if f.s then 16 else 0) + (if f.p then 32 else 0) + (if f.t then 64 else 0)
      + (if sh.isSome then 128 else 0) + (if (sh.map Shadow.pinned).getD false then 256 else 0)
      + (if f.kind = 1 ∨ f.kind = 2 then f.die * 512 else 0)
    s.wrNext x.sd (BitVec.ofNat 64 v))

def execPgcnt (x : SReg2) (s : State) : Out :=
  s.pageAccess x.sa true (fun xl =>
    let v := if xl.fme.kind ≠ 3 then 0 else
      match (s.die (dieOf s.cur.src)).counters.find xl.frame with
      | some (n, _) => n + 2 ^ 32
      | none => 0
    s.wrNext x.sd (BitVec.ofNat 64 v))

def execDpromo (x : SReg3) (s : State) : Out :=
  let op := bitsN (s.rd x.sb) 0 2
  if op = 3 then .next (s.scalarStop 5 0 0 5)
  else s.pageAccess x.sa false (fun xl =>
    match xl.deepOf with
      | none => s.wrNext x.sd 3
      | some (d, o) =>
        let (die', st) := (s.die d).dpromo (blockOf o) op s.me.bind.privileged
        (s.setDie d die').wrNext x.sd (BitVec.ofNat 64 st))

def execDdemo (x : SReg2) (s : State) : Out :=
  s.pageAccess x.sa false (fun xl =>
    match xl.deepOf with
    | none => s.wrNext x.sd 3
    | some (d, o) =>
      let (die', st) := (s.die d).ddemo (blockOf o) s.me.bind.privileged
      (s.setDie d die').wrNext x.sd (BitVec.ofNat 64 st))

/-- Statuses of pgmig before it starts (R221): 6, 5, 4, or none. -/
def State.pgmigStatus (s : State) (xl : Xl) (d : Word) : Option Nat :=
  let f := xl.fme
  if f.kind = 4 ∨ f.kind = 5 ∨ f.p then some 6
  else match destPlace d 0, destPlace d 65535 with
    | some p, some q =>
      if !p.exists || !q.exists then some 5
      else if (f.s || (match xl.place with | some o => s.regionSecure o | none => false)) && !s.regionSecure p then some 5
      else if f.w then some 4
      else none
    | _, _ => some 5

/-- A non-secure `pgmig` would write to a secure location (R77, R221). -/
def State.pgmigWorld (s : State) (d : Word) : Bool :=
  !s.me.bind.secure && (match destPlace d 0 with | some p => s.regionSecure p | none => false)

/-- `pgmig` (R221): W of the frame's own entry is set, whatever the die's cache holds of it (R220), and the strand waits for step 4 of
R216, which the migration's completion performs. Where no status is due and the destination is secure, a non-secure context stops
before anything moves (R77; assumption 79). -/
def execPgmig (x : SReg3) (s : State) : Out :=
  if !s.me.bind.privileged then .next (s.decodeTrap 4 (wordOf (.pgmig x)))
  else s.pageAccess x.sa true (fun xl =>
    if s.migrations.any (fun m => m.frame == xl.frame && m.owner == some s.cur.src && m.waits) then s.waitFor (.migration xl.frame)
    else match s.pgmigStatus xl (s.rd x.sb) with
      | some st => s.wrNext x.sd (BitVec.ofNat 64 st)
      | none =>
        if s.pgmigWorld (s.rd x.sb) then s.scalarStop Cause.world 2 (s.rd x.sa) 0
        else
          let s := s.setFme xl.frame ((s.fmap.getD xl.frame {}).withW true)
          let m : Migration := ⟨xl.frame, s.rd x.sb, some s.cur.src, dieOf s.cur.src, x.sd.toNat, 0, true⟩
          { s with migrations := s.migrations ++ [m] }.waitFor (.migration xl.frame))

end Sys2Proof.Machine
end

