-- ==== Sys2Proof/Machine/Tracker.lean ====
section
/-! DEFINITION. Migrations as they complete (R216), the hot-page tracker (R217 to R219, R280), and the frame map as firmware
rewrites it (R206, R208, R220). -/

namespace Sys2Proof.Machine

/-! ## Migration (R216) -/

/-- A write to the range of keys from `key` is still on its way to its home. -/
def State.flyingInto (s : State) (key n : Nat) : Bool :=
  s.flyWrites.any (fun f => decide (f.line * 64 < key + n) && decide (key < f.line * 64 + 64))

/-- A write to the range of system addresses from `a` is unacknowledged (R335). -/
def State.linkInto (s : State) (a n : Nat) : Bool :=
  s.ports.any (fun (_, p) => p.inflight.any (fun r => r.isWrite && decide (a ≤ r.addr) && decide (r.addr < a + n)))

/-- R216 step 2: some write translated through the old entry is unacknowledged. -/
def State.unacknowledged (s : State) (old : Place) : Bool :=
  s.flyingInto old.key 65536 || (match old with | .host a => s.linkInto a 65536 | _ => false)

/-- R216 step 3: 64 KiB move with their poison bits. -/
def State.copyFrame (s : State) (old new : Place) : State :=
  let bs := s.readPlace old 65536
  let from_ := lineOf old.key
  let dst := lineOf new.key
  let bad := s.poison.filter (fun l => decide (from_ ≤ l) && decide (l < from_ + 1024))
  let s := s.writePlace new bs
  { s with poison := bad.map (fun l => dst + (l - from_)) ++ s.poison.filter (fun l => !(decide (dst ≤ l) && decide (l < dst + 1024))) }

/-- Steps 3 and 4 of R216. -/
def State.finishMove (s : State) (frame : Nat) (dest : Word) (old new : Place) : State :=
  (s.copyFrame old new).setFme frame ((s.fmap.getD frame {}).moved dest)

/-! ## The notification ring (R219) -/

/-- Frame address of a die's ring header. -/
def State.ringAt (s : State) (die : Nat) : Nat := bitsN (s.die die).ntqbase 6 42 * 64

/-- The bytes of a record. -/
def Crossing.bytes (c : Crossing) : List Byte :=
  leBytes 8 (c.frame * 65536) ++ leBytes 4 c.count ++ leBytes 1 c.kind ++ leBytes 3 0
    ++ leBytes 8 c.gtc.toNat ++ leBytes 2 c.source ++ leBytes 2 0 ++ leBytes 4 c.extra

/-- Write a record at TAIL, and TAIL + 1; a full ring counts a drop. A ring that cannot be read, or whose LOG2N is not 4 to
16, takes no record. -/
def State.ringPost (s : State) (die : Nat) (c : Crossing) : State :=
  let hdr := s.ringAt die
  match s.frameRead die hdr 64 with
  | none => s
  | some h =>
    let head := cutN h 0x00 8
    let tail := cutN h 0x08 8
    let lg := cutN h 0x10 1
    if lg < 4 ∨ 16 < lg then s
    else if (tail + 2 ^ 64 - head) % 2 ^ 64 = 2 ^ lg then
      s.frameWrite die (hdr + 0x18) (leBytes 8 ((cutN h 0x18 8 + 1) % 2 ^ 64))
    else
      (s.frameWrite die (hdr + 0x40 + 32 * (tail % 2 ^ lg)) c.bytes).frameWrite die (hdr + 0x08) (leBytes 8 ((tail + 1) % 2 ^ 64))

/-- A write to the ring waits while its frame moves (R216). -/
def State.ringBlocked (s : State) (die : Nat) : Bool :=
  let hdr := s.ringAt die
  s.frameBlocked die hdr ||
    (match s.frameRead die hdr 64 with
     | none => false
     | some h => s.frameBlocked die (hdr + 0x40 + 32 * (cutN h 0x08 8 % 2 ^ cutN h 0x10 1)))

/-- Source number of a die's tracker (R12). -/
def trackerSource (die : Nat) : Nat := die * 128 + 97

/-- A die's tracker has something of its own to tell. -/
def State.tell (s : State) (die frame count kind extra : Nat) : State :=
  let d := s.die die
  s.setDie die { d with crossings := d.crossings ++ [(⟨frame, trackerSource die, d.gtc, count, kind, extra⟩ : Crossing)] }

/-- The oldest record of a die's tracker is posted. -/
def State.postOldest (s : State) (die : Nat) : State :=
  match (s.die die).crossings with
  | [] => s
  | c :: r => (s.setDie die { s.die die with crossings := r }).ringPost die c

/-- Records of a die's tracker are posted, oldest first, as far as the ring takes writes (R216, R282). -/
def State.postRing (s : State) (die fuel : Nat) : State :=
  match fuel with
  | 0 => s
  | f + 1 => if s.ringBlocked die then s else State.postRing (s.postOldest die) die f

/-- Every record that waits, as far as it goes. -/
def State.flushRing (s : State) (die : Nat) : State := s.postRing die (s.die die).crossings.length

/-- MIGRATION_COMPLETE (R216 steps 2 to 4, R220): the frame's bytes are at the new location, the waiting `pgmig` writes status
0, or the tracker tells of it with a record of kind 1; host writes that waited for the frame are made. Where firmware has cleared the
entry meanwhile, nothing moves and W clears. -/
def execMigrationComplete (frame : Nat) (s : State) : Out :=
  match s.migrations.find? (fun m => m.frame == frame) with
  | none => .next s
  | some m =>
    match (s.fmap.getD frame {}).place m.die 0, destPlace m.dest 0 with
    | some old, some new =>
      if s.unacknowledged old || s.spaceBusy old || s.spaceBusy new then .next s
      else
        let s : State := { s.finishMove frame m.dest old new with migrations := s.migrations.filter (fun r => r.frame != frame) }
        match m.owner with
        | none => .next ((s.tell m.die frame m.count 1 (bitsN m.dest 16 32)).flushRing m.die).flushHost
        | some src =>
          if m.waits ∧ (s.strand src).wait = .migration frame then
            .next (s.updAt src (fun t => { ((t.setReg m.sd 0).advance) with st := if t.st = .halted then .halted else .running })).flushHost
          else .next s.flushHost
    | _, _ => .next { s.setFme frame ((s.fmap.getD frame {}).withW false) with migrations := s.migrations.filter (fun r => r.frame != frame) }

/-! ## The tracker (R218, R280) -/

/-- TRACKER_THRESHOLD (R218, R282): the tracker's oldest record is posted, where it is that of the frame and source. -/
def execTrackerThreshold (die frame src : Nat) (s : State) : Out :=
  let k := die % 8
  match (s.die k).crossings.head? with
  | none => .next s
  | some c => .next (if c.frame = frame ∧ c.source = src ∧ !s.ringBlocked k then s.postOldest k else s)

/-- The pool slot that a ring header's POOLHEAD names (R219). -/
def poolSlot (h : List Byte) : Nat := (cutN h 0x20 8 + 8 * (cutN h 0x30 8 % cutN h 0x28 4)) % 2 ^ 48

/-- A read of the pool waits for a PC copy (R211). -/
def State.poolBusy (s : State) (die : Nat) : Bool :=
  match s.frameRead die (s.ringAt die) 64 with
  | none => false
  | some h => s.frameBusy die (poolSlot h)

/-- The next deep offset of the pool, and where POOLHEAD goes (R219). -/
def State.poolNext (s : State) (die : Nat) : Option (Nat × Nat) :=
  match s.frameRead die (s.ringAt die) 64 with
  | none => none
  | some h =>
    let head := cutN h 0x30 8
    if cutN h 0x38 8 ≤ head ∨ cutN h 0x28 4 = 0 ∨ 2 ^ 48 ≤ cutN h 0x20 8 then none
    else match s.frameRead die (poolSlot h) 8 with
      | none => none
      | some bs => some (leNat bs, head + 1)

/-- An automatic migration of a frame with its count (R218): W is set and the copy is under way, or a record of kind 2. -/
def State.autoMove (s : State) (die : Nat) (f : Nat × Nat) : State :=
  let e := s.fmap.getD f.1 {}
  if e.w || e.kind ≠ 3 then s.tell die f.1 f.2 2 0
  else match s.poolNext die with
    | none => s.tell die f.1 f.2 2 0
    | some (off, head) =>
      let s := s.frameWrite die (s.ringAt die + 0x30) (leBytes 8 (head % 2 ^ 64))
      let dest : Word := BitVec.ofNat 64 (1 + die * 16 + off / 65536 * 65536)
      if off % 65536 ≠ 0 ∨ Config.deepBytes < off + 65536 then s.tell die f.1 f.2 2 0
      else
        let s := s.setFme f.1 (e.withW true)
        { s with migrations := s.migrations ++ [⟨f.1, dest, none, die, 0, f.2, true⟩] }

/-- The migrations a period's end orders start one after the other; the next one waits while POOLHEAD cannot be written (R216) or the pool
cannot be read (R211). -/
def State.autoMoves (s : State) (die fuel : Nat) : State :=
  match fuel, (s.die die).moves with
  | f + 1, m :: r =>
    if s.ringBlocked die || s.poolBusy die then s
    else State.autoMoves ((s.setDie die { s.die die with moves := r }).autoMove die m) die f
  | _, _ => s

/-- TRACKER_PERIOD_END (R218, R280): the period ends, where it is over; and the automatic migrations its end ordered start. -/
def execTrackerPeriodEnd (die : Nat) (s : State) : Out :=
  let k := die % 8
  let d := s.die k
  let s := if d.periodOver then s.setDie k d.endDue else s
  .next ((s.autoMoves k (s.die k).moves.length).flushRing k)

/-! ## The frame map as firmware rewrites it (R206, R208, R220) -/

/-- Set P where the word written has it (R206 bit 5). -/
def Fme.orP (f : Fme) (w0 : Word) : Fme := { f with w0 := f.w0 ||| (w0 &&& 0x20) }

/-- FME_WRITE: one write of 16 bytes. W is the device's bit: of a frame that is migrating only P is set (R220), and
firmware's own write leaves W 0. The dies' caches keep the old entry until FMINV. -/
def execFmeWrite (frame : Nat) (w0 w1 : Word) (s : State) : Out :=
  let old := s.fmap.getD frame {}
  if 2 ^ 32 ≤ frame then .next s
  else if old.w then .next { s with fmap := s.fmap.set frame (old.orP w0) }
  else .next { s with fmap := s.fmap.set frame ({ w0 := w0, w1 := w1 : Fme }.withW false) }

/-- FMINV_WRITE (R208): every die's frame-map cache has dropped the frame. -/
def execFminvWrite (fa : Word) (s : State) : Out := .next (s.dropFrame (bitsN fa 16 32))

/-- PROMOTE_COPY_COMPLETE (R212, R221): the in-bank copy of a block is done. -/
def execPromoteCopyComplete (die block : Nat) (s : State) : Out :=
  let k := die % 8
  let d := s.die k
  match d.shadow? block with
  | none => .next s
  | some h => .next (s.setDie k (d.setShadow { h with copying := false }))

end Sys2Proof.Machine
end

