-- ==== Sys2Proof/Machine/Boot.lean ====
section
/-! DEFINITION. Start-up, restarts and trips (R357 to R359), the device block (R360), time and power (R362, R363), world bits
(R76), trace that leaves (R348), and registers without a row of their own (R6). -/

namespace Sys2Proof.Machine

/-! ## The package reset (R357, R359; assumption 27) -/

/-- What a core keeps over a reset: its fuses. -/
def Core.fuses (c : Core) : Core := { present := c.present, fusedLanes := c.fusedLanes }

/-- The caches hold nothing: what they held dirty is taken as written back (assumption 27). -/
def State.emptyCaches (s : State) : State :=
  (s.l1.map L1Line.line ++ s.msc.map Prod.fst ++ s.counted.map Prod.fst ++ s.aliasSeen).foldl (fun s l => s.evictLine l true) s

/-- Every clock stops and the package resets: fuses, flash, the always-on BOOTCNT and REASON stay, and so do the bytes of
memory, which host locations name the same bytes, and what the host has received. -/
def State.packageReset (s : State) : State :=
  let s := s.emptyCaches
  { State.reset with
    turns := s.turns, rot := s.rot, steps := s.steps, freeDraws := s.freeDraws, profDraws := s.profDraws
    replicaPick := s.replicaPick, flyHold := s.flyHold
    cores := s.cores.map (fun (p : Nat × Core) => (p.1, p.2.fuses))
    mem := s.mem, poison := s.poison, aliases := s.aliases, aliasMem := s.aliasMem, flash := s.flash
    hostIn := s.hostIn, hostMsgs := s.hostMsgs, fuses := s.fuses
    boot := { bootcnt := s.boot.bootcnt, reason := s.boot.reason } }

/-- The start ends; `reason`: it failed with that code (R359). -/
def State.endStart (s : State) (reason : Option Nat) : State :=
  let s := s.packageReset
  { s with boot := { s.boot with reason := reason.getD s.boot.reason } }

/-- A start is in a stage before running (R357). -/
def Boot.starting (b : Boot) : Bool := b.active && !b.minimal && !b.bootok

/-- Bytes of an image's header and body: 64, and LENGTH (R358). -/
def signedLength (i : BootImage) : Nat := 64 + cutN i.file 8 8

/-- The firmware key as a point of the curve. -/
def firmwareKey (i : BootImage) : Point := some (i.key.toNat / 2 ^ 256, i.key.toNat % 2 ^ 256)

/-- The signature behind the body, r then s, is one of header and body under the key whose hash is fused (R358). -/
def signatureHolds (i : BootImage) (f : Fuses) : Bool :=
  let n := signedLength i
  decide (n + 64 ≤ i.file.length) && sha256 (bigBytes 64 i.key.toNat) == f.keyHash
    && signatureOk (firmwareKey i) (sha256 (i.file.take n)) (bigNat (cut i.file n 32)) (bigNat (cut i.file (n + 32) 32))

/-- VERSION (R358). -/
def imageVersion (i : BootImage) : Nat := cutN i.file 4 4

/-- Why an image is refused (R358): reason 1 for its signature, 2 for its VERSION. FORMAT has no value that R358 asks for, and reserved
fields are ignored (R6). -/
def imageRefused (i : BootImage) (f : Fuses) : Option Nat :=
  if !signatureHolds i f then some 1 else if imageVersion i < f.minVersion then some 2 else none

/-- The image a start checks: the one in package flash, or the one the host wrote in minimal mode (R359; assumption 27). -/
def State.bootImage (s : State) (img : BootImage) : BootImage :=
  if s.hostImage.isEmpty then img
  else
    let a := Config.minimalLoadAddr.toNat
    let n := 64 + leNat (Memory.readBytes s.hostImage (a + 8) 8) + 64
    { img with file := Memory.readBytes s.hostImage a (min n (2 ^ 32)) }

/-- BOOT_START (R357 stage 0, R359). In minimal mode no stack is trained. -/
def execBootStart (img : BootImage) (s : State) : Out :=
  if s.boot.active then .next s
  else
    let img := s.bootImage img
    let s := s.packageReset
    if 3 ≤ s.boot.bootcnt then
      .next { s with boot := { s.boot with active := true, minimal := true, stage := 15, stackmap := 0 } }
    else
      let s : State := { s with boot := { s.boot with bootcnt := s.boot.bootcnt + 1, active := true, stage := 0 } }
      match imageRefused img s.fuses with
      | some r => .next (s.endStart (some r))
      | none => .next s

/-- Stage 1 applies the failures recorded in flash again, and each asks for a replacement; no message is sent (R361). -/
def State.reapply (s : State) : State :=
  let s := s.flash.pcs.foldl (fun (s : State) (p : Nat × Nat) =>
    let d := ((s.die p.1).failPc p.2).1
    (s.setDie p.1 { d with spareCopying := false }).replace 0 false) s
  let s := s.flash.lanes.foldl (fun (s : State) (p : Nat × Nat) =>
    let c := s.core p.1
    (s.setCore p.1 { c with retired := c.retired ||| BitVec.ofNat 16 (2 ^ p.2) }).replace 1 false) s
  s.flash.engines.foldl (fun (s : State) (k : Nat) => (s.setCore k { s.core k with engineFailed := true }).replace 4 false) s

/-- A stack that does not train (R361). -/
def State.untrained (s : State) (n : Nat) : State :=
  let k := n / 2
  let d := s.die k
  (s.setDie k (d.lose (d.stackPcs (n % 2 == 1)))).replace 2 false

/-- STAGE_1 (R357, R361, R362): the fabric and the stacks train, spares are applied, every replica's tag is 0, and every GTC
starts at 0. -/
def execStage1 (fabricOk : Bool) (trained : BitVec 16) (s : State) : Out :=
  if !s.boot.starting || s.boot.stage ≠ 0 then .next s
  else if !fabricOk then .next (s.endStart (some 3))
  else if (List.range 8).any (fun d => !trained.getLsbD (2 * d) && !trained.getLsbD (2 * d + 1)) then
    .next (s.endStart (some 4))
  else
    let s := s.reapply
    let s := ((List.range 16).filter (fun n => !trained.getLsbD n)).foldl State.untrained s
    .next { s with
      boot := { s.boot with stage := 1, stackmap := trained }
      braidTag := []
      dies := s.dies.map (fun (p : Nat × Die) => (p.1, { p.2 with gtc := 0 })) }

/-- STAGE_2 (R357, R358). -/
def execStage2 (img : BootImage) (s : State) : Out :=
  if !s.boot.starting || s.boot.stage ≠ 1 then .next s
  else match imageRefused img s.fuses with
    | some r => .next (s.endStart (some r))
    | none => .next { s with boot := { s.boot with stage := 2 } }

/-- BOOT_WATCHDOG (R357): 30 s passed in stages 0 to 2. -/
def execBootWatchdog (s : State) : Out := .next (if s.boot.starting then s.endStart (some 5) else s)

/-- POWER_FAULT (R357): the start ends, failed with reason 6 before BOOTOK. -/
def execPowerFault (s : State) : Out :=
  .next (s.endStart (if s.boot.active && !s.boot.bootok then some 6 else none))

/-- THERMAL_TRIP (R357, R363): the package resets, and the next start reports reason 7. -/
def execThermalTrip (s : State) : Out := .next (s.endStart (some 7))

/-- BOOTOK (R357): firmware sets CONTROL.BOOTOK after stage 2; the part runs, and BOOTCNT is 0. -/
def execBootok (s : State) : Out :=
  .next (if s.boot.starting ∧ s.boot.stage = 2 then
    { s with boot := { s.boot with bootok := true, stage := 3, bootcnt := 0 } } else s)

/-- A write of the host waits on its link: the host's later writes do not pass it (R331). -/
def State.hostWaits (s : State) : Bool := s.hostPosts.any (fun h => h.port == 16)

/-- CLRCNT (R359): clears BOOTCNT in minimal mode, and is ignored elsewhere. -/
def execClrcnt (s : State) : Out :=
  .next (if s.boot.minimal && !s.hostWaits then { s with boot := { s.boot with bootcnt := 0 } } else s)

/-- RESTART (R359): the start ends at the host's request, and the next one begins at stage 0, with the image the host wrote in minimal
mode. -/
def execRestart (s : State) : Out :=
  .next (if s.hostWaits then s else { s.endStart (some 8) with hostImage := if s.boot.minimal then s.hostImage else [] })

/-- STANDBY_POWER_LOSS (R359): even the always-on BOOTCNT is lost; of memory, what lies beyond the links stays
(assumption 27). -/
def execStandbyPowerLoss (s : State) : Out :=
  let s := s.packageReset
  .next { s with boot := {}, mem := s.mem.filter (fun c => decide (2 ^ 64 ≤ c.1)), poison := [] }

/-! ## Time and power (R362, R363) -/

/-- GTC_CORRECTION (R362): a copy that disagrees with die 0's is brought to agree, without stepping back. -/
def execGtcCorrection (die : Nat) (s : State) : Out :=
  let k := die % 8
  let d := s.die k
  .next (s.setDie k { d with correcting := d.gtc ≠ (s.die 0).gtc })

/-- POWER_CAP_STEP (R363): 100 MHz down, not below 1,200, or up, not above the 3.3 GHz of R11. -/
def execPowerCapStep (up : Bool) (s : State) : Out :=
  let f := s.boot.clockMHz
  .next { s with boot := { s.boot with clockMHz := if up then min 3300 (f + 100) else max 1200 (f - 100) } }

/-! ## World bits (R76) -/

/-- Strand positions of a core. -/
def corePositions (core : Nat) : List Nat := (List.range 4).map (fun j => core / 16 * 128 + core % 16 * 4 + j)

/-- The lines of a core's L1 leave it: dirty ones are written back to their homes (assumption 77). -/
def State.emptyL1 (s : State) (k : Nat) : State :=
  ((s.l1.filter (fun l => l.core == k)).map L1Line.line).foldl State.leaveL1 s

/-- A core's world changes: its L1, L1 TLB, weight buffers and registers are zero. -/
def State.setCoreWorld (s : State) (k : Nat) (on : Bool) : State :=
  if (s.core k).world = on then s
  else
    let s := s.emptyL1 k
    let d := s.die (k / 16)
    let s := s.setDie (k / 16) { d with l1Tlb := d.l1Tlb.erase (k % 16) }
    (corePositions k).foldl (fun s j => s.free j) (s.setCore k { s.core k with world := on, scratch := [], scratchPoison := [] })

/-- WORLD_BIT_WRITE (R76): the bit is set only while the block holds no resident work. -/
def execWorldBitWrite (b : WorldBlock) (secure : Bool) (s : State) : Out :=
  match b with
  | .core die core =>
    let k := die % 8 * 16 + core % 16
    .next (if (corePositions k).all (fun j => (s.strand j).st == .unbound) then s.setCoreWorld k secure else s)
  | .copyEngine die core =>
    let k := die % 8 * 16 + core % 16
    .next (if (corePositions k).all (fun j => (s.strand j).cpq.isEmpty) then
      s.setCore k { s.core k with copyWorld := secure } else s)
  | .queue q =>
    let k := q % queueLimit
    let x := s.queue k
    .next (if x.desc.state.toNat < 2 ∧ x.cmds.isEmpty then
      s.setQueue k { x with desc := { x.desc with flags := if secure then x.desc.flags ||| 1 else x.desc.flags &&& 0xFE } } else s)
  | .port p =>
    let x := s.port p
    .next (if p < portLimit ∧ (x.state = .reset ∨ x.state = .fenced ∨ x.state = .down) ∧ x.inflight.isEmpty
        ∧ !s.hostPosts.any (fun h => h.port == p) then
      s.setPort p { x with world := secure } else s)
  | .traceUnit die =>
    let k := die % 8
    .next (if (s.die k).trace.isEmpty then s.setDie k { s.die k with traceWorld := secure } else s)

/-! ## Trace (R348) -/

/-- The oldest record leaves by the sideband; a non-secure unit drains only while it is enabled (R348). -/
def State.drainTrace (s : State) (die : Nat) : State :=
  let d := s.die die
  match d.trace with
  | [] => s
  | r :: l => if d.traceWorld || d.sideband then s.setDie die { d with trace := l, traceOut := d.traceOut ++ [r] } else s

/-- TRACE_LOSS_RECORD (R348, R349 kind 5): space is there again, and the count clears. -/
def execTraceLossRecord (die : Nat) (s : State) : Out :=
  let k := die % 8
  let d := s.die k
  let room := decide ((d.trace.map TraceRec.size).sum + 32 ≤ 2 ^ 20)
  .next (if d.dropped = 0 || !room || !(d.traceWorld || d.sideband) then s
    else s.setDie k { d with
      trace := d.trace ++ [⟨d.gtc, k * 128 + 96, 5, false, 0, [BitVec.ofNat 64 d.dropped, d.firstDrop]⟩]
      dropped := 0, firstDrop := 0 })

/-! ## Registers without a row of their own (R6) -/

/-- The source number of a slot of a cluster (R98). -/
def slotSource (die cluster slot : Nat) : Nat := die * 128 + cluster * 16 + slot

/-- Firmware writes the fields of a context descriptor other than STATE, while the context may be written (R73). -/
def State.writeContext (s : State) (d : ContextDesc) : State :=
  let k := d.ctxid.toNat
  let st := (s.context k).state
  if k < contextLimit ∧ (st = 0 ∨ st = 1 ∨ st = 3) then s.setContext k { d with state := st } else s

/-- The bytes of a braid window's replicas are zero, with tag 0 (R215). -/
def State.clearBraid (s : State) (w : BraidWindow) : State :=
  let inside (k : Nat) : Bool := (w.bases.zipIdx).any (fun (b, d) => decide (d * 2 ^ 40 + b ≤ k) && decide (k < d * 2 ^ 40 + b + w.size * 3 / 8))
  { s with mem := s.mem.filter (fun c => !inside c.1)
           l1 := s.l1.filter (fun l => !inside (l.line * 64)), msc := s.msc.filter (fun e => !inside (e.1 * 64))
           counted := s.counted.filter (fun e => !inside (e.1 * 64))
           poison := s.poison.filter (fun l => !inside (l * 64))
           braidTag := s.braidTag.filter (fun e => !inside (e.1 * 64)) }

/-- Firmware moves the resume point of a halted strand: a value of the member's VL or above completes it (R301). -/
def Strand.writeEstart (t : Strand) (w : Word) : Strand :=
  let t := { t with csr := { t.csr with estart := w } }
  match t.viq with
  | c :: r => if t.vecHeld && c.resumed then { t with viq := { c with skip := decide (c.samp.vl ≤ w.toNat) } :: r } else t
  | [] => t

/-- REGISTER_WRITE (R6): the value is stored, and reserved bits are ignored. What the host writes stays behind its earlier writes
(R331). -/
def execRegisterWrite (r : RegWrite) (s : State) : Out :=
  match r with
  | .bindRecord die cluster slot b =>
    let k := die % 8 * 4 + cluster % 4
    .next (if (s.strand (slotSource (die % 8) (cluster % 4) (slot % 16))).st = .unbound then
      s.setCluster k { s.cluster k with records := (s.cluster k).records.set (slot % 16) b } else s)
  | .region die ix w =>
    let d := s.die (die % 8)
    .next (s.setDie (die % 8) { d with regions := d.regions.set (ix % 64) (w &&& 0xC000FFFFFFFFFFFF) })
  | .peerWindow die ix w =>
    let d := s.die (die % 8)
    .next (s.setDie (die % 8) { d with windows := d.windows.set (ix % 8) (w &&& 0x8F00FFFFFFFFFFFF0000FFFFFFFFFFFF) })
  | .trkcfg die w => .next (s.writeTrkcfg (die % 8) w)
  | .ntqbase die w => .next (s.setDie (die % 8) { s.die (die % 8) with ntqbase := w &&& csrMask 0x0C1 })
  | .tracePolicy die w => .next (s.setDie (die % 8) { s.die (die % 8) with allowSec := bitN w 0 })
  | .traceSideband die on => .next (s.setDie (die % 8) { s.die (die % 8) with sideband := on })
  | .contextDesc d => .next (s.writeContext d)
  | .queuePrio q prio weight =>
    let k := q % queueLimit
    let x := s.queue k
    .next (s.setQueue k { x with desc := { x.desc with prio := prio, weight := weight } })
  | .notify q addr => .next (s.receive [.notify (q % queueLimit) addr])
  | .replNotify addr => .next (s.receive [.replNotify addr])
  | .estart src w =>
    .next (if (s.strand src).st = .halted then s.updAt src (fun t => t.writeEstart w) else s)
  | .keySlot ix key => .next { s with keys := s.keys.set (ix % 16) key }
  | .braidWindow ix size bases =>
    let w : BraidWindow := ⟨size, bases⟩
    .next { s.clearBraid w with braidWindows := s.braidWindows.set (ix % 8) w }
  | .tlbInvalidate ctx page => .next (s.dropTlb ctx page)
  | .powerCap watts => .next { s with boot := { s.boot with capW := watts } }
  | .unlisted _ _ => .next s

end Sys2Proof.Machine
end

