-- ==== Sys2Proof/Machine/Cross.lean ====
section
/-! DEFINITION. Members that move or combine elements across lanes: permutes, compress and expand, vready, reductions
and scans (R171 to R175, R42 to R44). -/

namespace Sys2Proof.Machine

/-! ## Permutes (R171) -/

def execVslideup (x : VSlideOp) (s : State) : Out :=
  s.vec (.vslideup x) (fun v =>
    let ga := v.src x.va
    let k := s.cur.op0.toNat
    let l := (v.active x.mask).filter (fun i => decide (k ≤ i))
    s.crossOp v (v.dst x.vd) (v.fillAt v.ew) [(⟨x.va.toNat, v.ew, x.ea == 1, id⟩, l.map (fun i => i - k))] l
      (fun i => (elem ga v.ew (i - k), 0)))

def execVslidedn (x : VSlideOp) (s : State) : Out :=
  s.vec (.vslidedn x) (fun v =>
    let ga := v.src x.va
    let k := s.cur.op0.toNat
    let l := v.active x.mask
    s.crossOp v (v.dst x.vd) (v.fillAt v.ew)
      [(⟨x.va.toNat, v.ew, x.ea == 1, id⟩, (l.filter (fun i => decide (i + k < v.vl))).map (fun i => i + k))] l
      (fun i => (if i + k < v.vl then elem ga v.ew (i + k) else 0, 0)))

/-- Sort and drop repeats, for the elements a permute reads. -/
def ascending (n : Nat) (l : List Nat) : List Nat := (List.range n).filter l.contains

def execVperm (x : V3NoKb) (s : State) : Out :=
  s.vec (.vperm x) (fun v =>
    let ga := v.src x.va
    let gb := v.src x.vb
    let l := v.active x.mask
    let ix (i : Nat) : Nat := elem gb v.ew i
    let srcB : Src × List Nat := (⟨x.vb.toNat, v.ew, x.eb == 1, id⟩, l)
    match v.wholeMeets [srcB] with
    | some _ => s.whole v [srcB] id
    | none =>
      s.crossOp v (v.dst x.vd) (v.fillAt v.ew) [srcB, (⟨x.va.toNat, v.ew, x.ea == 1, id⟩, ascending v.vl (l.map ix))] l
        (fun i => (if ix i < v.vl then elem ga v.ew (ix i) else 0, 0)))

def execVid (x : VIdOp) (s : State) : Out :=
  s.vec (.vid x) (fun v => s.crossOp v (v.dst x.vd) (v.fillAt v.ew) [] (v.active x.mask) (fun i => (i % 2 ^ v.ew, 0)))

/-! ## Compress, expand, vready (R172, R173) -/

/-- The elements a selector mask names, below VL. -/
def View.selected (v : View) (m : BitVec 3) : List Nat := (List.range v.vl).filter (fun i => v.bit m.toNat i)

def execVcompress (x : VSelMOp) (s : State) : Out :=
  s.vec (.vcompress x) (fun v =>
    let ga := v.src x.va
    let sel := v.selected x.mb
    s.crossOp v (v.dst x.vd) (sel.length * v.ew / 4) [(⟨x.va.toNat, v.ew, x.ea == 1, id⟩, sel)]
      ((List.range sel.length).filter (fun i => decide (v.first ≤ i))) (fun n => (elem ga v.ew (sel.getD n 0), 0)))

def execVexpand (x : VSelMOp) (s : State) : Out :=
  s.vec (.vexpand x) (fun v =>
    let ga := v.src x.va
    let sel := v.selected x.mb
    s.crossOp v (v.dst x.vd) (v.fillAt v.ew) [(⟨x.va.toNat, v.ew, x.ea == 1, id⟩, List.range sel.length)]
      (sel.filter (fun i => decide (v.first ≤ i))) (fun i => (elem ga v.ew (sel.countP (fun j => decide (j < i))), 0)))

def execVready (x : VReadyOp) (s : State) : Out :=
  s.vec (.vready x) (fun v => s.scalarResult x.sd ((v.x.fullOf x.va.toNat).zeroExtend 64))

/-! ## Reductions (R42 to R44, R174) -/

/-- Combine a list of 2^k elements with the tree of R42: the halves, element by element, then the rest. -/
def tree (op : Nat → Nat → Nat × Nat) (k : Nat) (l : List Nat) (fl : Nat) : Nat × Nat :=
  match k with
  | 0 => (l.headD 0, fl)
  | j + 1 =>
    let h := (l.take (2 ^ j)).zipWith op (l.drop (2 ^ j))
    tree op j (h.map Prod.fst) (h.foldl (fun f r => f ||| r.2) fl)

/-- The least k with 2^k at or above n. -/
def log2Up (n : Nat) : Nat := if n ≤ 1 then 0 else Nat.log2 (n - 1) + 1

/-- `reduce` of R42: every element below VL is its value where active, else the identity. -/
def reduceList (op : Nat → Nat → Nat × Nat) (ident vl : Nat) (val : Nat → Option Nat) : Nat × Nat :=
  let k := log2Up vl
  tree op k ((List.range (2 ^ k)).map (fun i => if i < vl then (val i).getD ident else ident)) 0

/-- A reduction: the operation and its identity at the type (R43). -/
def State.reduce (s : State) (i : Instr) (x : V3) (op : View → Nat → Nat → Nat × Nat) (ident : View → Nat) : Out :=
  s.vec i (fun v =>
    let ga := v.src x.va
    let gb := v.src x.vb
    let act := (List.range v.vl).filter (fun j => v.bit x.mask.toNat j)
    let d := v.dst x.vd
    let l := if v.first = 0 then [0] else []
    let srcs : List (Src × List Nat) := (⟨x.va.toNat, v.ew, x.ea == 1, id⟩, act)
      :: (if x.kb = 1 then [] else [(⟨x.vb.toNat, v.ew, x.eb == 1, id⟩, [0])])
    s.crossOp v d (v.ew / 4) srcs l (fun _ =>
      let (t, fl) := reduceList (op v) (ident v) v.vl (fun j => if v.bit x.mask.toNat j then some (elem ga v.ew j) else none)
      let (y, fl') := op v (s.lastSrc v x.kb gb 0) t
      (y, fl ||| fl')))

/-- a ≤ b, signed for iN and unsigned for nN. -/
def View.le (v : View) (a b : Nat) : Bool :=
  if isSignedInt v.code then decide (toSigned v.ew a ≤ toSigned v.ew b) else decide (a ≤ b)
/-- Greatest and least pattern of the VTYPE type. -/
def View.typeMax (v : View) : Nat := if isSignedInt v.code then 2 ^ (v.ew - 1) - 1 else 2 ^ v.ew - 1
def View.typeMin (v : View) : Nat := if isSignedInt v.code then 2 ^ (v.ew - 1) else 0
/-- Sum, minimum and maximum of the VTYPE type. -/
def View.sumOp (v : View) (a b : Nat) : Nat × Nat := ((a + b) % 2 ^ v.ew, 0)
def View.minOp (v : View) (a b : Nat) : Nat × Nat := (if v.le a b then a else b, 0)
def View.maxOp (v : View) (a b : Nat) : Nat × Nat := (if v.le a b then b else a, 0)
/-- The format of the VTYPE type. -/
def View.ffmt (v : View) : FFmt := (Sys2Proof.Machine.ffmt v.code).getD fp32

def execVredsum (x : V3) (s : State) : Out := s.reduce (.vredsum x) x View.sumOp (fun _ => 0)
def execVredmin (x : V3) (s : State) : Out := s.reduce (.vredmin x) x View.minOp View.typeMax
def execVredmax (x : V3) (s : State) : Out := s.reduce (.vredmax x) x View.maxOp View.typeMin
def execVfredsum (x : V3) (s : State) : Out :=
  s.reduce (.vfredsum x) x (fun v a b => v.ffmt.add rne a b) (fun v => v.ffmt.signBit true)
def execVredand (x : V3) (s : State) : Out := s.reduce (.vredand x) x (fun _ a b => (a &&& b, 0)) (fun v => 2 ^ v.ew - 1)
def execVredor (x : V3) (s : State) : Out := s.reduce (.vredor x) x (fun _ a b => (a ||| b, 0)) (fun _ => 0)
def execVredxor (x : V3) (s : State) : Out := s.reduce (.vredxor x) x (fun _ a b => (a ^^^ b, 0)) (fun _ => 0)
def execVfredmax (x : V3) (s : State) : Out :=
  s.reduce (.vfredmax x) x (fun v a b => v.ffmt.minMax true a b) (fun v => v.ffmt.nanBits)

/-! ## Scans (R175) -/

/-- The running values of a scan over elements in order, from `t`: element, value, classes, value before it. -/
def scanList (op : Nat → Nat → Nat × Nat) (val : Nat → Nat) (t : Nat) (l : List Nat) : List (Nat × Nat × Nat × Nat) :=
  match l with
  | [] => []
  | i :: r =>
    let (y, fl) := op t (val i)
    (i, y, fl, t) :: scanList op val y r

/-- A scan: one that stopped at an element goes on from the value kept for it, whatever ESTART has become since (R175). -/
def State.scan (s : State) (i : Instr) (x : V3) (op : View → Nat → Nat → Nat × Nat) : Out :=
  s.vec i (fun v =>
    let ga := v.src x.va
    let gb := v.src x.vb
    let l := v.active x.mask
    let kept := v.resumed && !v.force
    let start := if kept then s.cur.resval.toNat % 2 ^ v.ew else s.lastSrc v x.kb gb 0
    let d := v.dst x.vd
    let srcs : List (Src × List Nat) := (⟨x.va.toNat, v.ew, x.ea == 1, id⟩, l)
      :: (if x.kb = 1 || kept then [] else [(⟨x.vb.toNat, v.ew, x.eb == 1, id⟩, [0])])
    if s.regsBusy d.base d.regs || !v.oldReady d l then s.memberWait
    else s.whole v srcs (fun s =>
      let run := scanList (op v) (fun j => elem ga v.ew j) start l
      let at_ (j : Nat) : Nat × Nat × Nat := ((run.find? (fun r => r.1 == j)).map Prod.snd).getD (0, 0, 0)
      let (res, e) := v.run [] (fun j => ((at_ j).1, (at_ j).2.1)) l
      match e with
      | .trap j k fl =>
        if j ≤ v.first then (s.upd (fun t => { t with vec := t.vec.credit j fl })).memberStop
            { estart := BitVec.ofNat 64 j, resval := BitVec.ofNat 64 (at_ j).2.2 } [s.memberRec (26 + k) 0 0 j 0]
        else
          let s := s.writePart v.vlb d (putLanes (v.x.grp v.vlb d.base d.regs) d.ew v.first j v.zero res) j
          let s := s.upd (fun t => { t with vec := (t.vec.creditAll res).credit j fl })
          s.memberStop { estart := BitVec.ofNat 64 j, resval := BitVec.ofNat 64 (at_ j).2.2 } [s.memberRec (26 + k) 0 0 j 0]
      | e => s.vecResult v d (v.fillAt v.ew) res e))

def execVscan (x : V3) (s : State) : Out := s.scan (.vscan x) x View.sumOp
def execVfscan (x : V3) (s : State) : Out := s.scan (.vfscan x) x (fun v a b => v.ffmt.add rne a b)
def execVscanmax (x : V3) (s : State) : Out := s.scan (.vscanmax x) x View.maxOp

end Sys2Proof.Machine
end

