-- ==== Sys2Proof/Machine/Loader.lean ====
section
/-! DEFINITION. The loader (R101 to R107, R113): the checks of an object's header, sections and relocations, the values written,
the padding of text, the mapping of pages and their unmapping. -/

namespace Sys2Proof.Machine

/-! ## Reading the file (R101 to R104) -/

/-- The name at an offset of the string table: the bytes before the next NUL. -/
def nameAt (bs : List Byte) (off : Nat) : List Byte := (bs.drop off).takeWhile (· != 0)

/-- The `k`-th section entry of a table at `off`; contents past the end of the file are left to read as zero. -/
def readSection (bs : List Byte) (off str k : Nat) : ObjSection :=
  let e := cut bs (off + 32 * k) 32
  { name := nameAt bs (str + cutN e 0 4), kind := cutN e 4 1, reserved := cutN e 5 3, offset := cutN e 8 8, fileOff := cutN e 0x10 8
    size := cutN e 0x18 8, bytes := cut bs (cutN e 0x10 8) (cutN e 0x18 8) }

/-- The `k`-th symbol entry. -/
def readSymbol (bs : List Byte) (off str k : Nat) : ObjSymbol :=
  let e := cut bs (off + 24 * k) 24
  { name := nameAt bs (str + cutN e 0 4), sect := cutN e 4 2, skind := cutN e 6 1, bind := cutN e 7 1, value := cutN e 8 8
    size := cutN e 0x10 8 }

/-- The `k`-th relocation record. -/
def readReloc (bs : List Byte) (off k : Nat) : ObjReloc :=
  let e := cut bs (off + 24 * k) 24
  { place := cutN e 0 8, sym := cutN e 8 4, kind := cutN e 12 1, reserved := cutN e 13 3, addend := toSigned 64 (cutN e 0x10 8) }

/-- The object a file holds: its header, then its tables. -/
def readObject (f : ObjFile) : Obj :=
  let b := f.bytes
  let nsect := cutN b 0x06 2
  let nsym := cutN b 0x08 4
  let nreloc := cutN b 0x0C 4
  let sectOff := cutN b 0x20 8
  let symOff := cutN b 0x28 8
  let relOff := cutN b 0x30 8
  let strOff := cutN b 0x38 8
  let inside (off n : Nat) : Bool := n == 0 || decide (off + n ≤ b.length)
  let whole := inside 0 64 && inside sectOff (32 * nsect) && inside symOff (24 * nsym) && inside relOff (24 * nreloc)
  { magic := cutN b 0 4, version := cutN b 4 2, prefBase := cutN b 0x10 8, imageSize := cutN b 0x18 8, whole := whole
    base := f.base, ctxid := f.ctxid, frames := f.frames
    sections := if whole then (List.range nsect).map (readSection b sectOff strOff) else []
    symbols := if whole then (List.range nsym).map (readSymbol b symOff strOff) else []
    relocs := if whole then (List.range nreloc).map (readReloc b relOff) else [] }

/-! ## Sections (R101, R102, R107) -/

/-- Bytes of padding after a text section of `n` bytes (R107): to a multiple of 64, at least 4. -/
def textPad (n : Nat) : Nat := if 64 - n % 64 < 4 then 128 - n % 64 else 64 - n % 64

/-- Bytes a section takes in memory. -/
def ObjSection.room (x : ObjSection) : Nat := if x.kind = 0 then x.size + textPad x.size else x.size

/-- A test holds of every two members of a list. -/
def everyPair {α : Type} (p : α → α → Bool) (l : List α) : Bool :=
  match l with
  | [] => true
  | x :: r => r.all (p x) && everyPair p r

/-- Two sections do not overlap, and share a page only where their kinds agree (R102). -/
def sectionsApart (x y : ObjSection) : Bool :=
  let a := ObjSection.room x
  let b := ObjSection.room y
  a == 0 || b == 0 ||
    (if x.kind = y.kind then decide (x.offset + a ≤ y.offset) || decide (y.offset + b ≤ x.offset)
     else decide ((x.offset + a - 1) / 65536 < y.offset / 65536) || decide ((y.offset + b - 1) / 65536 < x.offset / 65536))

/-- R106 code 6; a table that does not lie within the file is refused with it (assumption 72). -/
def headerAccepted (o : Obj) : Bool :=
  o.whole && o.magic == 0x01464F4C && o.version == 1 && o.base % 65536 == 0 && o.prefBase % 65536 == 0
    && o.sections.all (fun x => decide (x.kind ≤ 2) && x.reserved == 0) && everyPair sectionsApart o.sections

/-- Contents of a section with its zeros and its padding. -/
def sectionBytes (x : ObjSection) : List Byte :=
  (x.bytes.take x.size) ++ List.replicate (ObjSection.room x - (x.bytes.take x.size).length) 0

/-- Offset past the image: IMAGESIZE, or past the last section with its padding (R101, R107). -/
def imageEnd (o : Obj) : Nat := (o.sections.map (fun x => x.offset + ObjSection.room x)).foldl max o.imageSize

/-! ## Symbols and relocations (R103 to R106) -/

/-- The loaded address of a symbol (R103): an external one takes that of a global symbol of an object loaded before, the
earliest where several objects of the context have one of that name (assumption 72). -/
def symbolAddr (known : List (List Byte × Nat)) (o : Obj) (k : Nat) : Option Nat :=
  match o.symbols[k]? with
  | none => none
  | some y =>
    match o.sections[y.sect]? with
    | some x => some (o.base + x.offset + y.value)
    | none => if y.sect = 0xFFFF then (known.find? (fun (n, _) => n == y.name)).map Prod.snd else none

/-- Symbols that GOT records name, in order of first reference (R105). -/
def gotSymbols (o : Obj) : List Nat :=
  (o.relocs.filter (fun r => r.kind == 7)).foldl (fun l r => if l.contains r.sym then l else l ++ [r.sym]) []

/-- Offset of the GOT: the first 64 KiB boundary after the image. -/
def gotOffset (o : Obj) : Nat := (imageEnd o + 65535) / 65536 * 65536

/-- Address of a symbol's GOT slot. -/
def gotSlot (o : Obj) (k : Nat) : Nat := o.base + gotOffset o + 8 * (gotSymbols o).idxOf k

/-- A field the loader writes: where, in how many bytes, which bits, what. -/
structure Patch where
  place : Nat
  bytes : Nat
  bits : Nat
  value : Nat
  deriving DecidableEq, Repr

/-- `n` bytes at an offset lie in a section. -/
def placeIn (o : Obj) (place n : Nat) : Option ObjSection :=
  o.sections.find? (fun x => decide (x.offset ≤ place) && decide (place + n ≤ x.offset + x.size))

/-- The major opcode of the word at an offset. -/
def majorAt (o : Obj) (place : Nat) : Option Nat :=
  (placeIn o place 4).map (fun x => cutN (sectionBytes x) (place - x.offset) 4 / 2 ^ 25 % 64)

/-- The patched word's major holds the field the kind writes (R104, R53). -/
def fieldHeld (o : Obj) (r : ObjReloc) : Bool :=
  let at_ (p : Nat) (l : List Nat) : Bool := match majorAt o p with | some m => l.contains m | none => false
  match r.kind with
  | 0 => (placeIn o r.place 8).isSome
  | 1 => at_ r.place [0x04, 0x05]
  | 2 | 4 => at_ r.place [0x00, 0x01, 0x03, 0x06, 0x07, 0x0C, 0x0D]
  | 3 => at_ r.place [0x05]
  | 5 => at_ r.place [0x09, 0x0A]
  | 6 => at_ r.place [0x0B]
  | 7 => at_ r.place [0x05] && at_ (r.place + 4) [0x06]
  | _ => false

/-- A signed value that fits in `n` bits. -/
def fitsSigned (n : Nat) (v : Int) : Bool := decide (-(2 ^ (n - 1) : Nat) ≤ v) && decide (v < (2 ^ (n - 1) : Nat))

/-- The upper part of an offset: (V + 0x800) >> 12 (R104). -/
def hiPart (v : Int) : Int := (v + 0x800) / 4096

/-- What the PCHI20 record on the `pcui` at an address gives a PCLO12 record (R105): its S + A - P; none where there is no such
`pcui` with its record. Where that record's own symbol is unresolved it fails itself (R106), and nothing is left to write. -/
def pcHiValue (known : List (List Byte × Nat)) (o : Obj) (addr : Nat) : Option (Option Int) :=
  match o.relocs.find? (fun r => r.kind == 3 && o.base + r.place == addr && fieldHeld o r) with
  | none => none
  | some r => some ((symbolAddr known o r.sym).map (fun x => (x : Int) + r.addend - (addr : Int)))

/-- The fields a record writes, or the code of R106. Codes of one record are taken in the order 5, 3, 4, 2, 1 (assumption 25). A SYM
that is not below NSYM is code 5, and a symbol whose SECT names neither a section nor 0xFFFF is code 3 (assumption 72). -/
def relocate (known : List (List Byte × Nat)) (o : Obj) (r : ObjReloc) : Except Nat (List Patch) :=
  if r.kind > 7 ∨ r.reserved ≠ 0 ∨ o.symbols.length ≤ r.sym ∨ !fieldHeld o r then .error 5
  else match symbolAddr known o r.sym with
    | none => .error 3
    | some x =>
      let p : Int := ((o.base + r.place : Nat) : Int)
      let v : Int := (x : Int) + r.addend
      let field (n : Nat) (y : Int) : Patch := ⟨r.place, 4, 2 ^ n - 1, wrapInt n y⟩
      match r.kind with
      | 0 => if 0 ≤ v ∧ v < (2 ^ 48 : Nat) then .ok [⟨r.place, 8, 2 ^ 64 - 1, v.toNat⟩] else .error 1
      | 1 => if fitsSigned 20 (hiPart v) then .ok [field 20 (hiPart v)] else .error 1
      | 2 => .ok [field 12 v]
      | 3 => if fitsSigned 20 (hiPart (v - p)) then .ok [field 20 (hiPart (v - p))] else .error 1
      | 4 => match pcHiValue known o x with
        | none => .error 4
        | some none => .ok []
        | some (some y) => .ok [field 12 y]
      | 5 => if (v - p) % 4 ≠ 0 then .error 2 else if fitsSigned 12 ((v - p) / 4) then .ok [field 12 ((v - p) / 4)] else .error 1
      | 6 => if (v - p) % 4 ≠ 0 then .error 2 else if fitsSigned 20 ((v - p) / 4) then .ok [field 20 ((v - p) / 4)] else .error 1
      | _ =>
        let g : Int := ((gotSlot o r.sym : Nat) : Int) - p
        if fitsSigned 20 (hiPart g) then .ok [field 20 (hiPart g), ⟨r.place + 4, 4, 2 ^ 12 - 1, wrapInt 12 g⟩] else .error 1

/-- All records, or the index and code of the lowest that fails (R106). -/
def relocateAll (known : List (List Byte × Nat)) (o : Obj) (i : Nat) (rs : List ObjReloc) : Except (Nat × Nat) (List Patch) :=
  match rs with
  | [] => .ok []
  | r :: rest =>
    match relocate known o r with
    | .error c => .error (i, c)
    | .ok ps => match relocateAll known o (i + 1) rest with
      | .error e => .error e
      | .ok qs => .ok (ps ++ qs)

/-- Apply a patch to the contents of a section at `offset`. -/
def Patch.apply (q : Patch) (offset : Nat) (bs : List Byte) : List Byte :=
  if q.place < offset ∨ offset + bs.length < q.place + q.bytes then bs
  else
    let k := q.place - offset
    let old := cutN bs k q.bytes
    bs.take k ++ leBytes q.bytes (old - old % (q.bits + 1) + q.value) ++ bs.drop (k + q.bytes)

/-- A part of the loaded image: kind, offset, contents. -/
structure Part where
  kind : Nat
  offset : Nat
  bytes : List Byte

/-- The parts of an object as they are loaded, the GOT last. -/
def loadParts (known : List (List Byte × Nat)) (o : Obj) (ps : List Patch) : List Part :=
  let secs := o.sections.map (fun x => (⟨x.kind, x.offset, ps.foldl (fun bs q => q.apply x.offset bs) (sectionBytes x)⟩ : Part))
  let got := (gotSymbols o).flatMap (fun k => leBytes 8 ((symbolAddr known o k).getD 0))
  if got.isEmpty then secs else secs ++ [⟨1, gotOffset o, got⟩]

/-! ## Mapping (R106, R204) -/

/-- Pages a part covers. -/
def Part.pages (p : Part) : List Nat :=
  if p.bytes.isEmpty then [] else (List.range ((p.offset + p.bytes.length - 1) / 65536 + 1 - p.offset / 65536)).map (· + p.offset / 65536)

/-- R, W and X bits of a section kind in a table entry (R102, R204). -/
def kindBits (k : Nat) : Nat := match k with | 0 => 16 + 64 | 1 => 16 | _ => 16 + 32

/-- Write bytes at an offset of a frame, in every replica of it. -/
def State.framePut (s : State) (frame off : Nat) (bs : List Byte) : State :=
  let f := s.fme 0 frame
  if f.bad then s
  else if f.kind = 5 then f.replicaDies.foldl (fun s d => s.writePlace (.deep d (f.loc + off)) bs) s
  else match f.place 0 off with
    | some p => s.writePlace p bs
    | none => s

/-- The table below an entry, made from a spare frame where there is none. -/
def State.tableUnder (s : State) (table ix : Nat) (spare : List Nat) : Option (State × List Nat × Nat) :=
  let fa := table + 8 * ix
  match s.tableEntry 0 fa with
  | none => none
  | some e =>
    if bitN e 0 then (if bitN e 1 then none else some (s, spare, pteFa e))
    else match spare with
      | [] => none
      | f :: r =>
        let s := (s.framePut f 0 (List.replicate 65536 0)).framePut (fa / 65536) (fa % 65536) (leBytes 8 (f * 65536 + 1))
        some (s, r, f * 65536)

/-- Write the level-2 entry of a page of a context. -/
def State.setPte (s : State) (ctx va entry : Nat) (spare : List Nat) : Option (State × List Nat) :=
  let root := (s.context ctx).ptRoot.toNat / 65536 * 65536
  match s.tableUnder root (va / 2 ^ 42 % 64) spare with
  | none => none
  | some (s, spare, t1) =>
    match s.tableUnder t1 (va / 2 ^ 29 % 8192) spare with
    | none => none
    | some (s, spare, t2) =>
      let fa := t2 + 8 * (va / 2 ^ 16 % 8192)
      some (s.framePut (fa / 65536) (fa % 65536) (leBytes 8 entry), spare)

/-- Map pages of a part list: each page with the frame firmware gave it. -/
def State.mapPages (s : State) (ctx base : Nat) (kindOf : Nat → Nat) (l : List (Nat × Nat)) (spare : List Nat) : Option State :=
  match l with
  | [] => some s
  | (page, frame) :: r =>
    let s := s.framePut frame 0 (List.replicate 65536 0)
    match s.setPte ctx (base + 65536 * page) (frame * 65536 + kindBits (kindOf page) + 3) spare with
    | none => none
    | some (s, spare) => State.mapPages s ctx base kindOf r spare

/-- Write a part's bytes into the frames of its pages. -/
def State.writeChunk (s : State) (frameOf : Nat → Nat) (offset : Nat) (bs : List Byte) (fuel : Nat) : State :=
  match fuel with
  | 0 => s
  | f + 1 =>
    if bs.isEmpty then s else
    let k := 65536 - offset % 65536
    State.writeChunk (s.framePut (frameOf (offset / 65536)) (offset % 65536) (bs.take k)) frameOf (offset + k) (bs.drop k) f

/-- Global symbols known in a context (R103). -/
def State.knownSymbols (s : State) (ctx : Nat) : List (List Byte × Nat) :=
  (s.loaded.filter (fun o => o.ctx == ctx)).flatMap Loaded.globals

/-- The pages an object's parts cover, in order. -/
def pagesOf (parts : List Part) : List Nat := (parts.flatMap Part.pages).dedup.mergeSort (fun a b => decide (a ≤ b))

/-- The record of a loaded object. -/
def loadedOf (known : List (List Byte × Nat)) (o : Obj) (size : Nat) (pages : List Nat) : Loaded :=
  { ctx := o.ctxid, base := o.base, size := size, frames := o.frames, pages := pages
    globals := (o.symbols.zipIdx.filter (fun (y, _) => y.bind == 1 && y.sect != 0xFFFF)).filterMap (fun (y, k) =>
      (symbolAddr known o k).map (fun a => (y.name, a)))
    kernels := (o.symbols.zipIdx.filter (fun (y, _) => y.skind == 2 && y.sect != 0xFFFF)).filterMap (fun (_, k) =>
      (symbolAddr known o k).map (fun a => (a, 0))) }

/-- Map and write the parts of an object; without frames enough for its pages and their tables nothing is done, and nothing either
where a page lies under a block entry or a table that cannot be read (assumption 47). -/
def State.mapObject (s : State) (o : Obj) (parts : List Part) : Option State :=
  let pages := pagesOf parts
  if o.frames.length < pages.length then none
  else
    let kindOf (k : Nat) : Nat := match parts.find? (fun p => p.pages.contains k) with | some p => p.kind | none => 1
    let frameOf (k : Nat) : Nat := o.frames.getD (pages.idxOf k) 0
    match s.mapPages o.ctxid o.base kindOf (pages.zip o.frames) (o.frames.drop pages.length) with
    | none => none
    | some s => some (parts.foldl (fun s p => s.writeChunk frameOf p.offset p.bytes (p.bytes.length / 65536 + 2)) s)

/-- OBJECT_LOAD (R106, R107): every check first; a rejected object maps nothing and is reported. The loader waits while rows are being
copied into a spare PC (R211). -/
def execObjectLoad (f : ObjFile) (s : State) : Out :=
  if s.copying then .next s else
  let o := readObject f
  let known := s.knownSymbols o.ctxid
  let reject (index code : Nat) : State := { s with mgmt := s.mgmt ++ [.objectRejected o.ctxid index code] }
  .next (if !headerAccepted o then reject 0xFFFFFFFF 6
    else match relocateAll known o 0 o.relocs with
      | .error (i, c) => reject i c
      | .ok ps =>
        let parts := loadParts known o ps
        match s.mapObject o parts with
        | none => s
        | some s =>
          let size := (parts.map (fun p => p.offset + p.bytes.length)).foldl max 0
          { s with loaded := s.loaded ++ [loadedOf known o size (pagesOf parts)] })

/-- Unmap a page: its table entry and TLB entries (R113, R208). -/
def State.unmapPage (s : State) (ctx va : Nat) : State :=
  let s := match s.walk 0 (s.context ctx).ptRoot.toNat va with
    | .ok _ => (match s.setPte ctx va 0 [] with | some (s, _) => s | none => s)
    | .error _ => s
  s.dropTlb ctx (some (va / 65536))

/-- OBJECT_UNLOAD (R113): the object's own pages are unmapped; refused while a kernel of it is launched. The
loader waits while rows are being copied into a spare PC (R211). -/
def execObjectUnload (ctx base : Nat) (s : State) : Out :=
  if s.copying then .next s else
  .next (match s.loaded.find? (fun o => o.ctx == ctx && o.base == base) with
    | none => s
    | some o =>
      if o.kernels.any (fun (_, n) => n != 0) then { s with mgmt := s.mgmt ++ [.unloadRefused ctx base] }
      else { o.pages.foldl (fun s k => s.unmapPage ctx (base + 65536 * k)) s with
             loaded := s.loaded.filter (fun o => !(o.ctx == ctx && o.base == base)) })

end Sys2Proof.Machine
end

