-- ==== Sys2Proof/Machine/Vector.lean ====
section
/-! DEFINITION. Plain vector arithmetic, compares, masks and moves (R164 to R170). -/

namespace Sys2Proof.Machine

/-! ## Integer arithmetic, logic, shifts, saturation (R164) -/

/-- A member with two sources: `f` takes the width and both elements. -/
def State.int3 (s : State) (i : Instr) (x : V3) (f : Nat → Nat → Nat → Nat × Nat) : Out :=
  s.vec i (fun v =>
    let ga := v.src x.va
    let gb := v.src x.vb
    s.laneOp v (v.dst x.vd) (v.fillAt v.ew) (v.srcs3 x) (v.active x.mask)
      (fun j => f v.ew (elem ga v.ew j) (s.lastSrc v x.kb gb j)))

/-- A member with one source. -/
def State.int2 (s : State) (i : Instr) (x : V3U) (f : Nat → Nat → Nat × Nat) : Out :=
  s.vec i (fun v =>
    let ga := v.src x.va
    s.laneOp v (v.dst x.vd) (v.fillAt v.ew) [⟨x.va.toNat, v.ew, x.ea == 1, id⟩] (v.active x.mask)
      (fun j => f v.ew (elem ga v.ew j)))

/-- A shift count (R164). -/
def count (w b : Nat) : Nat := b % w

def execVadd (x : V3) (s : State) : Out := s.int3 (.vadd x) x (fun w a b => ((a + b) % 2 ^ w, 0))
def execVsub (x : V3) (s : State) : Out := s.int3 (.vsub x) x (fun w a b => ((a + 2 ^ w - b) % 2 ^ w, 0))
def execVmul (x : V3) (s : State) : Out := s.int3 (.vmul x) x (fun w a b => (a * b % 2 ^ w, 0))
def execVmulh (x : V3) (s : State) : Out := s.int3 (.vmulh x) x (fun w a b => (wrapInt w (toSigned w a * toSigned w b / ((2 ^ w : Nat) : Int)), 0))
def execVmulhn (x : V3) (s : State) : Out := s.int3 (.vmulhn x) x (fun w a b => (a * b / 2 ^ w, 0))
def execVdiv (x : V3) (s : State) : Out := s.int3 (.vdiv x) x (fun w a b => divElem true false w a b)
def execVdivn (x : V3) (s : State) : Out := s.int3 (.vdivn x) x (fun w a b => divElem false false w a b)
def execVrem (x : V3) (s : State) : Out := s.int3 (.vrem x) x (fun w a b => divElem true true w a b)
def execVremn (x : V3) (s : State) : Out := s.int3 (.vremn x) x (fun w a b => divElem false true w a b)
def execVmin (x : V3) (s : State) : Out := s.int3 (.vmin x) x (fun w a b => (if toSigned w a ≤ toSigned w b then a else b, 0))
def execVmax (x : V3) (s : State) : Out := s.int3 (.vmax x) x (fun w a b => (if toSigned w a ≤ toSigned w b then b else a, 0))
def execVminn (x : V3) (s : State) : Out := s.int3 (.vminn x) x (fun _ a b => (min a b, 0))
def execVmaxn (x : V3) (s : State) : Out := s.int3 (.vmaxn x) x (fun _ a b => (max a b, 0))
def execVabsd (x : V3) (s : State) : Out := s.int3 (.vabsd x) x (fun w a b => ((toSigned w a - toSigned w b).natAbs, 0))
def execVand (x : V3) (s : State) : Out := s.int3 (.vand x) x (fun _ a b => (a &&& b, 0))
def execVor (x : V3) (s : State) : Out := s.int3 (.vor x) x (fun _ a b => (a ||| b, 0))
def execVxor (x : V3) (s : State) : Out := s.int3 (.vxor x) x (fun _ a b => (a ^^^ b, 0))
def execVsll (x : V3) (s : State) : Out := s.int3 (.vsll x) x (fun w a b => (a * 2 ^ count w b % 2 ^ w, 0))
def execVsrl (x : V3) (s : State) : Out := s.int3 (.vsrl x) x (fun w a b => (a / 2 ^ count w b, 0))
def execVsra (x : V3) (s : State) : Out := s.int3 (.vsra x) x (fun w a b => (wrapInt w (toSigned w a / ((2 ^ count w b : Nat) : Int)), 0))
def execVrot (x : V3) (s : State) : Out := s.int3 (.vrot x) x (fun w a b => ((a * 2 ^ count w b ||| a / 2 ^ (w - count w b)) % 2 ^ w, 0))
def execVsadd (x : V3) (s : State) : Out := s.int3 (.vsadd x) x (fun w a b => clampElem true w (toSigned w a + toSigned w b))
def execVssub (x : V3) (s : State) : Out := s.int3 (.vssub x) x (fun w a b => clampElem true w (toSigned w a - toSigned w b))
def execVsaddn (x : V3) (s : State) : Out := s.int3 (.vsaddn x) x (fun w a b => clampElem false w ((a : Int) + b))
def execVssubn (x : V3) (s : State) : Out := s.int3 (.vssubn x) x (fun w a b => clampElem false w ((a : Int) - b))
def execVabs (x : V3U) (s : State) : Out := s.int2 (.vabs x) x (fun w a => (wrapInt w ((toSigned w a).natAbs : Int), 0))
def execVneg (x : V3U) (s : State) : Out := s.int2 (.vneg x) x (fun w a => ((2 ^ w - a) % 2 ^ w, 0))
def execVnot (x : V3U) (s : State) : Out := s.int2 (.vnot x) x (fun w a => (2 ^ w - 1 - a, 0))

/-! ## Widening (R165) -/

/-- A widening member: `f` takes both elements, extended as `signed` says, and the old destination element. -/
def State.wide3 (s : State) (i : Instr) (x : V3) (signed : View → Bool) (readsVd : Bool) (f : Int → Int → Int → Int) : Out :=
  s.vec i (fun v =>
    let ga := v.src x.va
    let gb := v.src x.vb
    let d : VDst := ⟨x.vd.toNat, 2 * v.g, 2 * v.ew⟩
    let gd := if readsVd then v.x.grp v.vlb d.base d.regs else 0
    let ext (y : Nat) : Int := if signed v then toSigned v.ew y else (y : Int)
    s.laneOp v d (v.fillAt (2 * v.ew)) (v.srcs3 x ++ if readsVd then [⟨d.base, d.ew, false, id⟩] else []) (v.active x.mask)
      (fun j => (wrapInt (2 * v.ew) (f (ext (elem ga v.ew j)) (ext (s.lastSrc v x.kb gb j)) (elem gd (2 * v.ew) j)), 0)))

def execVwmac (x : V3) (s : State) : Out := s.wide3 (.vwmac x) x (fun _ => true) true (fun a b c => c + a * b)
def execVwmacn (x : V3) (s : State) : Out := s.wide3 (.vwmacn x) x (fun _ => false) true (fun a b c => c + a * b)
def execVwmul (x : V3) (s : State) : Out := s.wide3 (.vwmul x) x (fun v => isSignedInt v.code) false (fun a b _ => a * b)
def execVwadd (x : V3) (s : State) : Out := s.wide3 (.vwadd x) x (fun v => isSignedInt v.code) false (fun a b _ => a + b)

/-! ## Floating point (R166) -/

/-- The format of the VTYPE type. -/
def View.fmt (v : View) : FFmt := (Sys2Proof.Machine.ffmt v.code).getD fp32

/-- A floating-point member with two sources; `readsVd` also reads the old destination element. -/
def State.flt3 (s : State) (i : Instr) (x : V3) (readsVd : Bool) (f : FFmt → Rnd → Nat → Nat → Nat → Nat × Nat) : Out :=
  s.vec i (fun v =>
    let ga := v.src x.va
    let gb := v.src x.vb
    let gd := if readsVd then v.src x.vd else 0
    s.laneOp v (v.dst x.vd) (v.fillAt v.ew) (v.srcs3 x ++ if readsVd then [⟨x.vd.toNat, v.ew, false, id⟩] else []) (v.active x.mask)
      (fun j => f v.fmt (s.rnd s.cur.samp.rm j) (elem ga v.ew j) (s.lastSrc v x.kb gb j) (elem gd v.ew j)))

/-- A floating-point member with one source. -/
def State.flt2 (s : State) (i : Instr) (x : V3U) (f : FFmt → Rnd → Nat → Nat × Nat) : Out :=
  s.vec i (fun v =>
    let ga := v.src x.va
    s.laneOp v (v.dst x.vd) (v.fillAt v.ew) [⟨x.va.toNat, v.ew, x.ea == 1, id⟩] (v.active x.mask)
      (fun j => f v.fmt (s.rnd s.cur.samp.rm j) (elem ga v.ew j)))

def execVfadd (x : V3) (s : State) : Out := s.flt3 (.vfadd x) x false (fun f r a b _ => f.add r a b)
def execVfsub (x : V3) (s : State) : Out := s.flt3 (.vfsub x) x false (fun f r a b _ => f.sub r a b)
def execVfmul (x : V3) (s : State) : Out := s.flt3 (.vfmul x) x false (fun f r a b _ => f.mul r a b)
def execVfdiv (x : V3) (s : State) : Out := s.flt3 (.vfdiv x) x false (fun f r a b _ => f.div r a b)
def execVfma (x : V3) (s : State) : Out := s.flt3 (.vfma x) x true (fun f r a b c => f.fma r false a b c)
def execVfms (x : V3) (s : State) : Out := s.flt3 (.vfms x) x true (fun f r a b c => f.fma r true a b c)
def execVfmin (x : V3) (s : State) : Out := s.flt3 (.vfmin x) x false (fun f _ a b _ => f.minMax false a b)
def execVfmax (x : V3) (s : State) : Out := s.flt3 (.vfmax x) x false (fun f _ a b _ => f.minMax true a b)
def execVfsqrt (x : V3U) (s : State) : Out := s.flt2 (.vfsqrt x) x (fun f r a => f.sqrt r a)
def execVfabs (x : V3U) (s : State) : Out := s.flt2 (.vfabs x) x (fun f _ a => (a % 2 ^ (f.w - 1), 0))
def execVfneg (x : V3U) (s : State) : Out := s.flt2 (.vfneg x) x (fun f _ a => (a ^^^ 2 ^ (f.w - 1), 0))
def execVfclass (x : V3U) (s : State) : Out := s.flt2 (.vfclass x) x (fun f _ a => (f.classOf a, 0))

/-! ## Compares (R167) -/

/-- A compare: `f` gives the relation and the classes raised. -/
def State.compare (s : State) (i : Instr) (x : V3Cmp) (f : View → Nat → Nat → Bool × Nat) : Out :=
  s.vec i (fun v =>
    let ga := v.src x.va
    let gb := v.src x.vb
    let srcs : List Src := ⟨x.va.toNat, v.ew, x.ea == 1, id⟩ :: (if x.kb = 1 then [] else [⟨x.vb.toNat, v.ew, x.eb == 1, id⟩])
    let (res, e) := v.run srcs (fun j =>
      let (b, fl) := f v (elem ga v.ew j) (s.lastSrc v x.kb gb j)
      (if b then 1 else 0, fl)) (v.active x.mask)
    s.maskResult v x.md.toNat res e)

def execVcmpeq (x : V3Cmp) (s : State) : Out := s.compare (.vcmpeq x) x (fun _ a b => (a == b, 0))
def execVcmpne (x : V3Cmp) (s : State) : Out := s.compare (.vcmpne x) x (fun _ a b => (a != b, 0))
def execVcmplt (x : V3Cmp) (s : State) : Out := s.compare (.vcmplt x) x (fun v a b => (decide (toSigned v.ew a < toSigned v.ew b), 0))
def execVcmple (x : V3Cmp) (s : State) : Out := s.compare (.vcmple x) x (fun v a b => (decide (toSigned v.ew a ≤ toSigned v.ew b), 0))
def execVcmpltn (x : V3Cmp) (s : State) : Out := s.compare (.vcmpltn x) x (fun _ a b => (decide (a < b), 0))
def execVcmplen (x : V3Cmp) (s : State) : Out := s.compare (.vcmplen x) x (fun _ a b => (decide (a ≤ b), 0))
def execVfcmpeq (x : V3Cmp) (s : State) : Out := s.compare (.vfcmpeq x) x (fun v a b => v.fmt.cmp 0 a b)
def execVfcmplt (x : V3Cmp) (s : State) : Out := s.compare (.vfcmplt x) x (fun v a b => v.fmt.cmp 1 a b)
def execVfcmple (x : V3Cmp) (s : State) : Out := s.compare (.vfcmple x) x (fun v a b => v.fmt.cmp 2 a b)
def execVfcmpun (x : V3Cmp) (s : State) : Out := s.compare (.vfcmpun x) x (fun v a b => v.fmt.cmp 3 a b)

/-! ## Masks (R168, R169) -/

/-- A mask instruction: `f` takes the bits of both sources. -/
def State.mask3 (s : State) (i : Instr) (md : BitVec 3) (mk : BitVec 2) (f : View → Nat → Bool) : Out :=
  s.vec i (fun v => s.maskResult v md.toNat ((v.active mk).map (fun j => (j, if f v j then 1 else 0, 0))) .all)

def execMand (x : M3) (s : State) : Out := s.mask3 (.mand x) x.md x.mask (fun v j => v.bit x.ma.toNat j && v.bit x.mb.toNat j)
def execMor (x : M3) (s : State) : Out := s.mask3 (.mor x) x.md x.mask (fun v j => v.bit x.ma.toNat j || v.bit x.mb.toNat j)
def execMxor (x : M3) (s : State) : Out := s.mask3 (.mxor x) x.md x.mask (fun v j => v.bit x.ma.toNat j != v.bit x.mb.toNat j)
def execMnot (x : M2) (s : State) : Out := s.mask3 (.mnot x) x.md x.mask (fun v j => !v.bit x.ma.toNat j)
def execMset (x : M1) (s : State) : Out := s.mask3 (.mset x) x.md x.mask (fun _ _ => true)
def execMclr (x : M1) (s : State) : Out := s.mask3 (.mclr x) x.md x.mask (fun _ _ => false)

/-- The active elements whose bit of m[ma] is set, from element 0 on. -/
def View.hits (v : View) (mk : BitVec 2) (ma : BitVec 3) : List Nat :=
  (List.range v.vl).filter (fun i => v.bit mk.toNat i && v.bit ma.toNat i)

def execMpop (x : MCount) (s : State) : Out :=
  s.vec (.mpop x) (fun v => s.scalarResult x.sd (BitVec.ofNat 64 (v.hits x.mask x.ma).length))
def execMfirst (x : MCount) (s : State) : Out :=
  s.vec (.mfirst x) (fun v => s.scalarResult x.sd (match v.hits x.mask x.ma with
    | i :: _ => BitVec.ofNat 64 i
    | [] => BitVec.allOnes 64))

/-! ## Moves (R170) -/

def execVsel (x : V3) (s : State) : Out :=
  s.vec (.vsel x) (fun v =>
    let ga := v.src x.va
    let gb := v.src x.vb
    let d := v.dst x.vd
    let sel (j : Nat) : Bool := v.bit x.mask.toNat j
    if s.regsBusy d.base d.regs || !v.oldReady d v.lanes then s.memberWait
    else
      let one (j : Nat) : List Src :=
        if sel j then [⟨x.va.toNat, v.ew, x.ea == 1, id⟩] else if x.kb = 1 then [] else [⟨x.vb.toNat, v.ew, x.eb == 1, id⟩]
      let met := v.lanes.find? (fun j => (v.meets (one j) j).isSome)
      let done := match met with | some k => v.lanes.filter (fun j => decide (j < k)) | none => v.lanes
      let e := match met with | some k => (v.meets (one k) k).getD .all | none => .all
      s.vecResult v d (v.fillAt v.ew) (done.map (fun j => (j, if sel j then elem ga v.ew j else s.lastSrc v x.kb gb j, 0))) e)

def execVbcast (x : VBcastOp) (s : State) : Out :=
  s.vec (.vbcast x) (fun v =>
    let gb := v.src x.vb
    let y := s.lastSrc v x.kb gb 0
    let d := v.dst x.vd
    let srcs : List Src := if x.kb = 1 then [] else [⟨x.vb.toNat, v.ew, x.eb == 1, fun _ => 0⟩]
    if s.regsBusy d.base d.regs || !v.oldReady d (v.active x.mask) then s.memberWait
    else match v.meets srcs 0 with
      | some .wait => s.memberWait
      | some e => s.vecResult v d (v.fillAt v.ew) [] e
      | none => s.vecResult v d (v.fillAt v.ew) ((v.active x.mask).map (fun j => (j, y, 0))) .all)

def execVmvs (x : VMvsOp) (s : State) : Out :=
  s.vec (.vmvs x) (fun v =>
    let y := elem (v.src x.va) v.ew 0
    match v.meets [⟨x.va.toNat, v.ew, x.ea == 1, id⟩] 0 with
    | some .wait => s.memberWait
    | some e => s.laneStop e
    | none => s.scalarResult x.sd (if isSignedInt v.code then BitVec.ofInt 64 (toSigned v.ew y) else BitVec.ofNat 64 y))

def execVmsv (x : VMsvOp) (s : State) : Out :=
  s.vec (.vmsv x) (fun v =>
    s.laneOp v (v.dst x.vd) (v.fillAt v.ew) [] ((v.active x.mask).filter (· == 0))
      (fun _ => (s.cur.op0.toNat % 2 ^ v.ew, 0)))

end Sys2Proof.Machine
end

