-- ==== Sys2Proof/Machine/Dispatch.lean ====
section
/-! DEFINITION. The meaning of every instruction, one arm per constructor. -/

namespace Sys2Proof.Machine

/-- What an instruction does. -/
def exec (i : Instr) (s : State) : Host.Outcome State Fault Refusal :=
  match i with
  | .illegalInstruction slot w => Sys2Proof.Machine.execIllegalInstruction slot w s
  | .trap x => Sys2Proof.Machine.execTrap x s
  | .eret => Sys2Proof.Machine.execEret s
  | .endStrand => Sys2Proof.Machine.execEndStrand s
  | .yield => Sys2Proof.Machine.execYield s
  | .brk x => Sys2Proof.Machine.execBrk x s
  | .mark x => Sys2Proof.Machine.execMark x s
  | .halt => Sys2Proof.Machine.execHalt s
  | .fence x => Sys2Proof.Machine.execFence x s
  | .fsv x => Sys2Proof.Machine.execFsv x s
  | .fvs x => Sys2Proof.Machine.execFvs x s
  | .fmx x => Sys2Proof.Machine.execFmx x s
  | .fcp x => Sys2Proof.Machine.execFcp x s
  | .add x => Sys2Proof.Machine.execAdd x s
  | .sub x => Sys2Proof.Machine.execSub x s
  | .mul x => Sys2Proof.Machine.execMul x s
  | .mulh x => Sys2Proof.Machine.execMulh x s
  | .mulhn x => Sys2Proof.Machine.execMulhn x s
  | .div x => Sys2Proof.Machine.execDiv x s
  | .divn x => Sys2Proof.Machine.execDivn x s
  | .rem x => Sys2Proof.Machine.execRem x s
  | .remn x => Sys2Proof.Machine.execRemn x s
  | .and_ x => Sys2Proof.Machine.execAnd_ x s
  | .or_ x => Sys2Proof.Machine.execOr_ x s
  | .xor_ x => Sys2Proof.Machine.execXor_ x s
  | .sll x => Sys2Proof.Machine.execSll x s
  | .srl x => Sys2Proof.Machine.execSrl x s
  | .sra x => Sys2Proof.Machine.execSra x s
  | .slt x => Sys2Proof.Machine.execSlt x s
  | .sltn x => Sys2Proof.Machine.execSltn x s
  | .min_ x => Sys2Proof.Machine.execMin_ x s
  | .max_ x => Sys2Proof.Machine.execMax_ x s
  | .minn x => Sys2Proof.Machine.execMinn x s
  | .maxn x => Sys2Proof.Machine.execMaxn x s
  | .clz x => Sys2Proof.Machine.execClz x s
  | .ctz x => Sys2Proof.Machine.execCtz x s
  | .pop x => Sys2Proof.Machine.execPop x s
  | .addi x => Sys2Proof.Machine.execAddi x s
  | .andi x => Sys2Proof.Machine.execAndi x s
  | .ori x => Sys2Proof.Machine.execOri x s
  | .xori x => Sys2Proof.Machine.execXori x s
  | .slti x => Sys2Proof.Machine.execSlti x s
  | .sltni x => Sys2Proof.Machine.execSltni x s
  | .slli x => Sys2Proof.Machine.execSlli x s
  | .srli x => Sys2Proof.Machine.execSrli x s
  | .srai x => Sys2Proof.Machine.execSrai x s
  | .sui x => Sys2Proof.Machine.execSui x s
  | .pcui x => Sys2Proof.Machine.execPcui x s
  | .ldi8 x => Sys2Proof.Machine.execLdi8 x s
  | .ldi16 x => Sys2Proof.Machine.execLdi16 x s
  | .ldi32 x => Sys2Proof.Machine.execLdi32 x s
  | .ldi64 x => Sys2Proof.Machine.execLdi64 x s
  | .ldn8 x => Sys2Proof.Machine.execLdn8 x s
  | .ldn16 x => Sys2Proof.Machine.execLdn16 x s
  | .ldn32 x => Sys2Proof.Machine.execLdn32 x s
  | .st8 x => Sys2Proof.Machine.execSt8 x s
  | .st16 x => Sys2Proof.Machine.execSt16 x s
  | .st32 x => Sys2Proof.Machine.execSt32 x s
  | .st64 x => Sys2Proof.Machine.execSt64 x s
  | .amoadd x => Sys2Proof.Machine.execAmoadd x s
  | .amoswap x => Sys2Proof.Machine.execAmoswap x s
  | .amocas x => Sys2Proof.Machine.execAmocas x s
  | .amomin x => Sys2Proof.Machine.execAmomin x s
  | .amomax x => Sys2Proof.Machine.execAmomax x s
  | .amominn x => Sys2Proof.Machine.execAmominn x s
  | .amomaxn x => Sys2Proof.Machine.execAmomaxn x s
  | .amoand x => Sys2Proof.Machine.execAmoand x s
  | .amoor x => Sys2Proof.Machine.execAmoor x s
  | .amoxor x => Sys2Proof.Machine.execAmoxor x s
  | .beq x => Sys2Proof.Machine.execBeq x s
  | .bne x => Sys2Proof.Machine.execBne x s
  | .blt x => Sys2Proof.Machine.execBlt x s
  | .bge x => Sys2Proof.Machine.execBge x s
  | .bltn x => Sys2Proof.Machine.execBltn x s
  | .bgen x => Sys2Proof.Machine.execBgen x s
  | .bany x => Sys2Proof.Machine.execBany x s
  | .ball x => Sys2Proof.Machine.execBall x s
  | .bnone x => Sys2Proof.Machine.execBnone x s
  | .bgz x => Sys2Proof.Machine.execBgz x s
  | .bgnz x => Sys2Proof.Machine.execBgnz x s
  | .jal x => Sys2Proof.Machine.execJal x s
  | .jalr x => Sys2Proof.Machine.execJalr x s
  | .csrrw x => Sys2Proof.Machine.execCsrrw x s
  | .csrrs x => Sys2Proof.Machine.execCsrrs x s
  | .csrrc x => Sys2Proof.Machine.execCsrrc x s
  | .csrr x => Sys2Proof.Machine.execCsrr x s
  | .gget x => Sys2Proof.Machine.execGget x s
  | .gset x => Sys2Proof.Machine.execGset x s
  | .gclr x => Sys2Proof.Machine.execGclr x s
  | .qpost x => Sys2Proof.Machine.execQpost x s
  | .qhash x => Sys2Proof.Machine.execQhash x s
  | .bar x => Sys2Proof.Machine.execBar x s
  | .bararr x => Sys2Proof.Machine.execBararr x s
  | .barwt x => Sys2Proof.Machine.execBarwt x s
  | .tlwait x => Sys2Proof.Machine.execTlwait x s
  | .tlget x => Sys2Proof.Machine.execTlget x s
  | .pgmig x => Sys2Proof.Machine.execPgmig x s
  | .pgcnt x => Sys2Proof.Machine.execPgcnt x s
  | .pgstat x => Sys2Proof.Machine.execPgstat x s
  | .dpromo x => Sys2Proof.Machine.execDpromo x s
  | .ddemo x => Sys2Proof.Machine.execDdemo x s
  | .setvl x => Sys2Proof.Machine.execSetvl x s
  | .rpt x => Sys2Proof.Machine.execRpt x s
  | .vadd x => Sys2Proof.Machine.execVadd x s
  | .vsub x => Sys2Proof.Machine.execVsub x s
  | .vmul x => Sys2Proof.Machine.execVmul x s
  | .vmulh x => Sys2Proof.Machine.execVmulh x s
  | .vmulhn x => Sys2Proof.Machine.execVmulhn x s
  | .vdiv x => Sys2Proof.Machine.execVdiv x s
  | .vdivn x => Sys2Proof.Machine.execVdivn x s
  | .vrem x => Sys2Proof.Machine.execVrem x s
  | .vremn x => Sys2Proof.Machine.execVremn x s
  | .vmin x => Sys2Proof.Machine.execVmin x s
  | .vmax x => Sys2Proof.Machine.execVmax x s
  | .vminn x => Sys2Proof.Machine.execVminn x s
  | .vmaxn x => Sys2Proof.Machine.execVmaxn x s
  | .vabs x => Sys2Proof.Machine.execVabs x s
  | .vneg x => Sys2Proof.Machine.execVneg x s
  | .vabsd x => Sys2Proof.Machine.execVabsd x s
  | .vand x => Sys2Proof.Machine.execVand x s
  | .vor x => Sys2Proof.Machine.execVor x s
  | .vxor x => Sys2Proof.Machine.execVxor x s
  | .vnot x => Sys2Proof.Machine.execVnot x s
  | .vsll x => Sys2Proof.Machine.execVsll x s
  | .vsrl x => Sys2Proof.Machine.execVsrl x s
  | .vsra x => Sys2Proof.Machine.execVsra x s
  | .vrot x => Sys2Proof.Machine.execVrot x s
  | .vsadd x => Sys2Proof.Machine.execVsadd x s
  | .vssub x => Sys2Proof.Machine.execVssub x s
  | .vsaddn x => Sys2Proof.Machine.execVsaddn x s
  | .vssubn x => Sys2Proof.Machine.execVssubn x s
  | .vwmac x => Sys2Proof.Machine.execVwmac x s
  | .vwmacn x => Sys2Proof.Machine.execVwmacn x s
  | .vwmul x => Sys2Proof.Machine.execVwmul x s
  | .vwadd x => Sys2Proof.Machine.execVwadd x s
  | .vfadd x => Sys2Proof.Machine.execVfadd x s
  | .vfsub x => Sys2Proof.Machine.execVfsub x s
  | .vfmul x => Sys2Proof.Machine.execVfmul x s
  | .vfdiv x => Sys2Proof.Machine.execVfdiv x s
  | .vfma x => Sys2Proof.Machine.execVfma x s
  | .vfms x => Sys2Proof.Machine.execVfms x s
  | .vfmin x => Sys2Proof.Machine.execVfmin x s
  | .vfmax x => Sys2Proof.Machine.execVfmax x s
  | .vfsqrt x => Sys2Proof.Machine.execVfsqrt x s
  | .vfabs x => Sys2Proof.Machine.execVfabs x s
  | .vfneg x => Sys2Proof.Machine.execVfneg x s
  | .vfclass x => Sys2Proof.Machine.execVfclass x s
  | .vcmpeq x => Sys2Proof.Machine.execVcmpeq x s
  | .vcmpne x => Sys2Proof.Machine.execVcmpne x s
  | .vcmplt x => Sys2Proof.Machine.execVcmplt x s
  | .vcmple x => Sys2Proof.Machine.execVcmple x s
  | .vcmpltn x => Sys2Proof.Machine.execVcmpltn x s
  | .vcmplen x => Sys2Proof.Machine.execVcmplen x s
  | .vfcmpeq x => Sys2Proof.Machine.execVfcmpeq x s
  | .vfcmplt x => Sys2Proof.Machine.execVfcmplt x s
  | .vfcmple x => Sys2Proof.Machine.execVfcmple x s
  | .vfcmpun x => Sys2Proof.Machine.execVfcmpun x s
  | .mand x => Sys2Proof.Machine.execMand x s
  | .mor x => Sys2Proof.Machine.execMor x s
  | .mxor x => Sys2Proof.Machine.execMxor x s
  | .mnot x => Sys2Proof.Machine.execMnot x s
  | .mpop x => Sys2Proof.Machine.execMpop x s
  | .mfirst x => Sys2Proof.Machine.execMfirst x s
  | .mset x => Sys2Proof.Machine.execMset x s
  | .mclr x => Sys2Proof.Machine.execMclr x s
  | .vsel x => Sys2Proof.Machine.execVsel x s
  | .vbcast x => Sys2Proof.Machine.execVbcast x s
  | .vmvs x => Sys2Proof.Machine.execVmvs x s
  | .vmsv x => Sys2Proof.Machine.execVmsv x s
  | .vslideup x => Sys2Proof.Machine.execVslideup x s
  | .vslidedn x => Sys2Proof.Machine.execVslidedn x s
  | .vperm x => Sys2Proof.Machine.execVperm x s
  | .vid x => Sys2Proof.Machine.execVid x s
  | .vcompress x => Sys2Proof.Machine.execVcompress x s
  | .vexpand x => Sys2Proof.Machine.execVexpand x s
  | .vready x => Sys2Proof.Machine.execVready x s
  | .vredsum x => Sys2Proof.Machine.execVredsum x s
  | .vredmin x => Sys2Proof.Machine.execVredmin x s
  | .vredmax x => Sys2Proof.Machine.execVredmax x s
  | .vfredsum x => Sys2Proof.Machine.execVfredsum x s
  | .vredand x => Sys2Proof.Machine.execVredand x s
  | .vredor x => Sys2Proof.Machine.execVredor x s
  | .vredxor x => Sys2Proof.Machine.execVredxor x s
  | .vfredmax x => Sys2Proof.Machine.execVfredmax x s
  | .vscan x => Sys2Proof.Machine.execVscan x s
  | .vfscan x => Sys2Proof.Machine.execVfscan x s
  | .vscanmax x => Sys2Proof.Machine.execVscanmax x s
  | .vcvt x => Sys2Proof.Machine.execVcvt x s
  | .vqblk x => Sys2Proof.Machine.execVqblk x s
  | .vdqblk x => Sys2Proof.Machine.execVdqblk x s
  | .vldg x => Sys2Proof.Machine.execVldg x s
  | .vstg x => Sys2Proof.Machine.execVstg x s
  | .rdec x => Sys2Proof.Machine.execRdec x s
  | .renc x => Sys2Proof.Machine.execRenc x s
  | .radd x => Sys2Proof.Machine.execRadd x s
  | .rsub x => Sys2Proof.Machine.execRsub x s
  | .rmin x => Sys2Proof.Machine.execRmin x s
  | .rmax x => Sys2Proof.Machine.execRmax x s
  | .fdec x => Sys2Proof.Machine.execFdec x s
  | .fenc x => Sys2Proof.Machine.execFenc x s
  | .rdsum x => Sys2Proof.Machine.execRdsum x s
  | .rlen x => Sys2Proof.Machine.execRlen x s
  | .rpos x => Sys2Proof.Machine.execRpos x s
  | .rfilt x => Sys2Proof.Machine.execRfilt x s
  | .vld x => Sys2Proof.Machine.execVld x s
  | .vlds x => Sys2Proof.Machine.execVlds x s
  | .vldx x => Sys2Proof.Machine.execVldx x s
  | .vlda x => Sys2Proof.Machine.execVlda x s
  | .vst x => Sys2Proof.Machine.execVst x s
  | .vsts x => Sys2Proof.Machine.execVsts x s
  | .vstx x => Sys2Proof.Machine.execVstx x s
  | .vstm x => Sys2Proof.Machine.execVstm x s
  | .vamoadd x => Sys2Proof.Machine.execVamoadd x s
  | .vamoswap x => Sys2Proof.Machine.execVamoswap x s
  | .vamocas x => Sys2Proof.Machine.execVamocas x s
  | .vamomin x => Sys2Proof.Machine.execVamomin x s
  | .vamomax x => Sys2Proof.Machine.execVamomax x s
  | .vstrc x => Sys2Proof.Machine.execVstrc x s
  | .vwait x => Sys2Proof.Machine.execVwait x s
  | .mjld x => Sys2Proof.Machine.execMjld x s
  | .mjst x => Sys2Proof.Machine.execMjst x s
  | .mjrep x => Sys2Proof.Machine.execMjrep x s
  | .cflush x => Sys2Proof.Machine.execCflush x s
  | .cinv x => Sys2Proof.Machine.execCinv x s
  | .l1cfg x => Sys2Proof.Machine.execL1cfg x s
  | .cpy x => Sys2Proof.Machine.execCpy x s
  | .cpyv x => Sys2Proof.Machine.execCpyv x s
  | .cpyw x => Sys2Proof.Machine.execCpyw x s
  | .mma x => Sys2Proof.Machine.execMma x s
  | .mmaz x => Sys2Proof.Machine.execMmaz x s
  | .mxsum x => Sys2Proof.Machine.execMxsum x s
  | .convoyRetire src => Sys2Proof.Machine.execConvoyRetire src s
  | .elementGroupLand src ix => Sys2Proof.Machine.execElementGroupLand src ix s
  | .conditionClears src => Sys2Proof.Machine.execConditionClears src s
  | .eddyRecheck src v => Sys2Proof.Machine.execEddyRecheck src v s
  | .eddyCheckLimit src => Sys2Proof.Machine.execEddyCheckLimit src s
  | .laneGroupRetire die core lane => Sys2Proof.Machine.execLaneGroupRetire die core lane s
  | .disagreementCountClear die => Sys2Proof.Machine.execDisagreementCountClear die s
  | .stripCommit src => Sys2Proof.Machine.execStripCommit src s
  | .bufferOverflow src => Sys2Proof.Machine.execBufferOverflow src s
  | .uncorrectableError src error elem addr => Sys2Proof.Machine.execUncorrectableError src error elem addr s
  | .haltingRecordPost ctx => Sys2Proof.Machine.execHaltingRecordPost ctx s
  | .copyEngineStart src => Sys2Proof.Machine.execCopyEngineStart src s
  | .followOnIssue src => Sys2Proof.Machine.execFollowOnIssue src s
  | .timelineCounterWrite src k => Sys2Proof.Machine.execTimelineCounterWrite src k s
  | .matrixSlice src v => Sys2Proof.Machine.execMatrixSlice src v s
  | .matrixEngineFailed at_ => Sys2Proof.Machine.execMatrixEngineFailed at_ s
  | .contextCreate d => Sys2Proof.Machine.execContextCreate d s
  | .batchCommit die cluster w => Sys2Proof.Machine.execBatchCommit die cluster w s
  | .contextDestroy ctx => Sys2Proof.Machine.execContextDestroy ctx s
  | .contextFaultClear ctx => Sys2Proof.Machine.execContextFaultClear ctx s
  | .contextDeclaredFailed ctx => Sys2Proof.Machine.execContextDeclaredFailed ctx s
  | .groupPreempt k => Sys2Proof.Machine.execGroupPreempt k s
  | .groupSaved k => Sys2Proof.Machine.execGroupSaved k s
  | .groupResume k => Sys2Proof.Machine.execGroupResume k s
  | .resumeAtNewPc src pc => Sys2Proof.Machine.execResumeAtNewPc src pc s
  | .queueCreate d => Sys2Proof.Machine.execQueueCreate d s
  | .queueStart q => Sys2Proof.Machine.execQueueStart q s
  | .queueStop q => Sys2Proof.Machine.execQueueStop q s
  | .queueSkip q next => Sys2Proof.Machine.execQueueSkip q next s
  | .queueRetry q => Sys2Proof.Machine.execQueueRetry q s
  | .queueDestroy q => Sys2Proof.Machine.execQueueDestroy q s
  | .tailStoreNoticed q => Sys2Proof.Machine.execTailStoreNoticed q s
  | .entryFetch q => Sys2Proof.Machine.execEntryFetch q s
  | .nopCmd q => Sys2Proof.Machine.execNopCmd q s
  | .launchCmd q => Sys2Proof.Machine.execLaunchCmd q s
  | .copyCmd q => Sys2Proof.Machine.execCopyCmd q s
  | .waitcCmd q => Sys2Proof.Machine.execWaitcCmd q s
  | .signalCmd q => Sys2Proof.Machine.execSignalCmd q s
  | .hashCmd q => Sys2Proof.Machine.execHashCmd q s
  | .fenceCommand q => Sys2Proof.Machine.execFenceCommand q s
  | .waitcRecheck q => Sys2Proof.Machine.execWaitcRecheck q s
  | .waitcTimeout q => Sys2Proof.Machine.execWaitcTimeout q s
  | .launchComplete k => Sys2Proof.Machine.execLaunchComplete k s
  | .copyCommandComplete q => Sys2Proof.Machine.execCopyCommandComplete q s
  | .doneAdvance q => Sys2Proof.Machine.execDoneAdvance q s
  | .notifyMessage q => Sys2Proof.Machine.execNotifyMessage q s
  | .doorbellTailWrite q v => Sys2Proof.Machine.execDoorbellTailWrite q v s
  | .objectLoad o => Sys2Proof.Machine.execObjectLoad o s
  | .objectUnload ctx base => Sys2Proof.Machine.execObjectUnload ctx base s
  | .barrierEntryWrite die cluster entry w0 w1 => Sys2Proof.Machine.execBarrierEntryWrite die cluster entry w0 w1 s
  | .migrationComplete frame => Sys2Proof.Machine.execMigrationComplete frame s
  | .trackerThreshold die frame src => Sys2Proof.Machine.execTrackerThreshold die frame src s
  | .trackerPeriodEnd die => Sys2Proof.Machine.execTrackerPeriodEnd die s
  | .fmeWrite frame w0 w1 => Sys2Proof.Machine.execFmeWrite frame w0 w1 s
  | .fminvWrite fa => Sys2Proof.Machine.execFminvWrite fa s
  | .promoteCopyComplete die block => Sys2Proof.Machine.execPromoteCopyComplete die block s
  | .scrubPass window at_ => Sys2Proof.Machine.execScrubPass window at_ s
  | .pcFailure die pc => Sys2Proof.Machine.execPcFailure die pc s
  | .spareCopyComplete die bad => Sys2Proof.Machine.execSpareCopyComplete die bad s
  | .stackLost stack => Sys2Proof.Machine.execStackLost stack s
  | .replicaAnswer ix => Sys2Proof.Machine.execReplicaAnswer ix s
  | .replicaWrite ix => Sys2Proof.Machine.execReplicaWrite ix s
  | .homeWriteApply die ix => Sys2Proof.Machine.execHomeWriteApply die ix s
  | .portEnable p => Sys2Proof.Machine.execPortEnable p s
  | .trainingComplete p lanes => Sys2Proof.Machine.execTrainingComplete p lanes s
  | .trainingFailed p => Sys2Proof.Machine.execTrainingFailed p s
  | .lanesLost p lanes => Sys2Proof.Machine.execLanesLost p lanes s
  | .portFence p => Sys2Proof.Machine.execPortFence p s
  | .replayLimit p => Sys2Proof.Machine.execReplayLimit p s
  | .portRetrain p => Sys2Proof.Machine.execPortRetrain p s
  | .partnerLost p => Sys2Proof.Machine.execPartnerLost p s
  | .flitCrcFailure p => Sys2Proof.Machine.execFlitCrcFailure p s
  | .linkstatClear p w => Sys2Proof.Machine.execLinkstatClear p w s
  | .hostMemoryRead p fa n => Sys2Proof.Machine.execHostMemoryRead p fa n s
  | .hostMemoryWrite p fa data => Sys2Proof.Machine.execHostMemoryWrite p fa data s
  | .linkCompletion p => Sys2Proof.Machine.execLinkCompletion p s
  | .worldBitWrite b secure => Sys2Proof.Machine.execWorldBitWrite b secure s
  | .traceLossRecord die => Sys2Proof.Machine.execTraceLossRecord die s
  | .bootStart img => Sys2Proof.Machine.execBootStart img s
  | .stage1 fabricOk trained => Sys2Proof.Machine.execStage1 fabricOk trained s
  | .stage2 img => Sys2Proof.Machine.execStage2 img s
  | .bootWatchdog => Sys2Proof.Machine.execBootWatchdog s
  | .powerFault => Sys2Proof.Machine.execPowerFault s
  | .thermalTrip => Sys2Proof.Machine.execThermalTrip s
  | .bootok => Sys2Proof.Machine.execBootok s
  | .clrcnt => Sys2Proof.Machine.execClrcnt s
  | .restart => Sys2Proof.Machine.execRestart s
  | .gtcCorrection die => Sys2Proof.Machine.execGtcCorrection die s
  | .powerCapStep up => Sys2Proof.Machine.execPowerCapStep up s
  | .registerWrite r => Sys2Proof.Machine.execRegisterWrite r s
  | .convoyIssue die core => Sys2Proof.Machine.execConvoyIssue die core s
  | .standbyPowerLoss => Sys2Proof.Machine.execStandbyPowerLoss s

end Sys2Proof.Machine
end

