-- ==== Sys2Proof/Machine/Place.lean ====
section
/-! DEFINITION. Placing an instruction where the next step fetches it: strand 0 runs at a mapped, executable page
whose first word is the instruction (assumption 19). -/

namespace Sys2Proof.Machine

/-- The address of the placed word. -/
def placedPc : Word := 0x10000

/-- Strand position 0 runs at the placed word, in its context's page at frame 1 of die 0's deep space. A row without
a word is offered as the schedule's turn only when the table gives it bits, which it does not. -/
def State.placeWord (s : State) (nbits w : Nat) : State :=
  let d := s.die 0
  let fme : Fme := { w0 := 1, w1 := 0x10000 }
  let e : TlbEntry := { ctx := (s.strand 0).bind.ctx, vpage := 1, fa := 0x10000, r := true, w := true, x := true }
  let s := s.setDie 0 { d with
    tlb := e :: d.tlb, l1Tlb := d.l1Tlb.set 0 (e :: d.l1Tlb.getD 0 []), fmCache := d.fmCache.set 1 fme }
  let s := { s with fmap := s.fmap.set 1 fme }
  let s := { s with mem := Memory.writeBytes s.mem (Place.deep 0 0x10000).key (leBytes 4 (w % 2 ^ nbits)) }
  let s := s.updAt 0 (fun t => { t with st := .running, wait := .none, pc := placedPc, skip := 0, viq := [], vecHeld := false })
  { s with turns := .fetch 0 :: s.turns }

end Sys2Proof.Machine
end

