-- ==== Sys2Proof/Machine/Policy.lean ====
section
/-! DEFINITION. Whose turn it is: the schedule that State holds, and the rotation where it names nothing
(assumption 1). -/

namespace Sys2Proof.Machine

/-- The row is one with a word. -/
def isWord (i : Instr) : Bool := (encode i).isSome

/-! ## Turns -/

/-- What an instruction of a strand that `before` has halted comes to: it is taken where the strand faults, in the clock in which its
group halted, and otherwise it was not issued (R120). -/
def trialOutcome (src : Nat) (before : State) (o : Out) : Out :=
  match o with
  | .next after => .next (before.ifFaulted after src)
  | .fault _ => .next before
  | .refused _ => .next before

/-- Turns of a strand's own agents: its scalar and vector sides, its engines, its strips. -/
def strandOffers (k : Nat) : List (State → Pick) :=
  [fun s => s.fetchTurn k,
   fun s => .took (execConvoyIssue (dieOf k) (coreOf k % 16) s),
   fun s => s.memberTurn k,
   fun s => .done (s.drainOne k),
   fun s => .took (execCopyEngineStart k s),
   fun s => .took (execFollowOnIssue k s),
   fun s => .took (execMatrixSlice k .ok s),
   fun s => .took (execElementGroupLand k 0 s),
   fun s => .took (execTimelineCounterWrite k 0 s),
   fun s => .took (execTimelineCounterWrite k 1 s),
   fun s => .took (execTimelineCounterWrite k 2 s),
   fun s => .took (execEddyRecheck k .agree s),
   fun s => .took (execEddyCheckLimit k s),
   fun s => .took (execConvoyRetire k s),
   fun s => .took (execStripCommit k s),
   fun s => .took (execConditionClears k s)]

/-- Turns of a queue's front-end. -/
def queueOffers (k : Nat) : List (State → Pick) :=
  [fun s => .took (execTailStoreNoticed k s),
   fun s => .took (execEntryFetch k s),
   fun s => .took (execNopCmd k s),
   fun s => .took (execFenceCommand k s),
   fun s => .took (execWaitcCmd k s),
   fun s => .took (execWaitcRecheck k s),
   fun s => .took (execWaitcTimeout k s),
   fun s => .took (execSignalCmd k s),
   fun s => .took (execHashCmd k s),
   fun s => .took (execCopyCmd k s),
   fun s => .took (execLaunchCmd k s),
   fun s => .took (execCopyCommandComplete k s),
   fun s => .took (execDoneAdvance k s),
   fun s => .took (execNotifyMessage k s)]

/-- Turns of a die's tracker and trace unit, and of its homes. -/
def dieOffers (d : Nat) : List (State → Pick) :=
  [fun s => .took (match (s.die d).crossings with
     | [] => .next s
     | c :: _ => execTrackerThreshold d c.frame c.source s),
   fun s => .took (execTrackerPeriodEnd d s),
   fun s => .took (if s.flyHold then .next s else execHomeWriteApply d 0 s),
   fun s => .took (execTraceLossRecord d s),
   fun s => .done (s.drainTrace d)]

/-- What is offered when the schedule names nothing: every agent in rotation (assumption 1). -/
def State.offers (s : State) : List (State → Pick) :=
  ((s.strands.filter (fun p => p.2.st != .unbound)).map Prod.fst).flatMap strandOffers
  ++ ((s.queues.filter (fun p => p.2.desc.state != 0)).map Prod.fst).flatMap queueOffers
  ++ (s.dies.map Prod.fst).flatMap dieOffers
  ++ (s.launches.map Prod.fst).map (fun k (s : State) => Pick.took (execLaunchComplete k s))
  ++ ((s.groups.filter (fun p => p.2.state == .saving)).map Prod.fst).map (fun k (s : State) => Pick.took (execGroupSaved k s))
  ++ (s.waitingRecs.map Prod.fst).map (fun c (s : State) => Pick.took (execHaltingRecordPost c s))
  ++ (s.migrations.map Migration.frame).map (fun f (s : State) => Pick.took (execMigrationComplete f s))
  ++ ((s.ports.filter (fun p => !p.2.inflight.isEmpty)).map Prod.fst).map (fun p (s : State) => Pick.took (execLinkCompletion p s))
  ++ [fun s => .took (execReplicaWrite 0 s), fun s => .took (execReplicaAnswer 0 s), fun s => .done s.flushHost]

/-- A cache gives up a line on its own (R225, R238); a dirty one may be found uncorrectable then (R320). -/
def State.evictTurn (s : State) (line : Nat) (all bad : Bool) : State :=
  let dirty := (s.inL1 line).isSome || (all && (s.msc.find line).isSome)
  let s := s.evictLine line all
  if bad && dirty then s.foundBad line else s

/-- Carry out one turn. -/
def State.takeTurn (s : State) (t : Turn) : Pick :=
  match t with
  | .fetch src => s.fetchTurn src
  | .enter src => s.fetchTurn src true
  | .member src => s.memberTurn src
  | .memberPart src n => s.memberTurn src (some n)
  | .copyPart src n => .took (s.copyTurn src (some n))
  | .evict line all bad => .done (s.evictTurn line all bad)
  | .event i => if isWord i then .refuse else .run i s
  | .drain src => .done (s.drainOne src)
  | .keepStores src on => .done (if (s.strand src).st = .unbound then s else s.updAt src (fun t => { t with hold := on }))
  | .keepWrites on => .done { s with flyHold := on }
  | .readLate src ix => .done (s.readLate src ix)
  | .request h => .done (s.request h)
  | .traceOut die => .done (s.drainTrace (die % 8))
  | .store fa bs => .done (if s.frameBlocked 0 fa then s else s.frameWrite 0 fa bs)

/-- A GTC copy after `e` ns, where die 0's then reads `ref`: one tick each ns; a copy being corrected is held while it is
ahead, and advances by two each ns while it is behind (R13, R362). -/
def Die.count (d : Die) (e : Nat) (ref : Word) : Die :=
  if !d.correcting then { d with gtc := d.gtc + BitVec.ofNat 64 e }
  else if ref.toNat ≤ d.gtc.toNat then { d with correcting := d.gtc ≠ ref }
  else { d with gtc := BitVec.ofNat 64 (min ref.toNat (d.gtc.toNat + 2 * e)), correcting := decide (d.gtc.toNat + 2 * e < ref.toNat) }

/-- The GTC copies count (R13, R362), but for those of dies held in reset (R359); the model's step counter moves. -/
def State.tick (s : State) : State :=
  let e := Config.elapsed s.steps
  let ref := (s.die 0).gtc + BitVec.ofNat 64 e
  { ((List.range (if s.boot.minimal then 1 else 8)).foldl (fun s d => s.setDie d ((s.die d).count e ref)) s) with steps := s.steps + 1 }

/-- The turn a step takes: the schedule's first, or the next in rotation. -/
def State.pick (s : State) : Pick :=
  match s.turns with
  | t :: r => ({ s with turns := r }).takeTurn t
  | [] =>
    let l := s.offers
    match l[s.rot % l.length]? with
    | some f => f { s with rot := s.rot + 1 }
    | none => .done s

end Sys2Proof.Machine
end

