-- ==== Sys2Proof/Machine/Step.lean ====
section
/-! DEFINITION. One step of the package: time passes, one turn is taken, and the instruction it comes to is executed. -/

namespace Sys2Proof.Machine

/-- One step. -/
def step (s : State) : Host.Outcome State Fault Refusal :=
  match s.tick.pick with
  | .run i t => Sys2Proof.Machine.exec i t
  | .trial i src t before => trialOutcome src before (Sys2Proof.Machine.exec i t)
  | .done t => .next t
  | .took o => o
  | .refuse => .refused .notAnEvent

/-- The state with an instruction placed where the next step fetches it (assumption 19). -/
def State.withFetchWord (s : State) (nbits w : Nat) : State := s.placeWord nbits w

end Sys2Proof.Machine
end

