-- ==== Sys2Proof/Safety.lean ====
section
/-! DEFINITION. What a safe run is: a step goes on, and memory keeps its canonical form. -/

namespace Sys2Proof

/-- The step answers a next state. -/
def Goes (s : Machine.State) : Prop := ∃ t, Machine.step s = .next t

/-- The bytes of memory are in canonical form. -/
def MemOk (s : Machine.State) : Prop := Machine.Memory.wf s.mem = true

/-- Every translation of a list names a whole page (R204). -/
def WholePages (l : List Machine.TlbEntry) : Prop := ∀ e ∈ l, e.fa % 65536 = 0

/-- Every cached translation names a whole page, in a die's TLB and in the L1 TLB of each of its cores (R204, R208). -/
def MapsOk (s : Machine.State) : Prop := ∀ k, WholePages (s.die k).tlb ∧ ∀ c, WholePages ((s.die k).l1Tlb.getD c [])

/-- The bytes of every core's scratchpad are in canonical form (R226). -/
def ScratchOk (s : Machine.State) : Prop := ∀ k, Machine.Memory.wf (s.core k).scratch = true

/-- A line with a reader count remembers a whole line (R238). -/
def CountsOk (s : Machine.State) : Prop := ∀ l c, s.counted.find l = some c → c.old.length = 64

/-- A line that a cache holds dirty has a whole line under it (R222, R225). -/
def LinesOk (s : Machine.State) : Prop :=
  (∀ l ∈ s.l1, l.under.length = 64) ∧ ∀ l bs, s.msc.find l = some bs → bs.length = 64

/-- What every step keeps. -/
def StateOk (s : Machine.State) : Prop := MemOk s ∧ MapsOk s ∧ ScratchOk s ∧ CountsOk s ∧ LinesOk s

end Sys2Proof
end

