-- ==== Sys2Proof/Certificates/Slice0/Obligations.lean ====
section
/-! DEFINITION. The statements for the provers. The helper predicates in Sys2Proof.Claims say, for a step from `s` to `t`, what
stayed as it was; each obligation names the rules of spec/ it rests on. -/

namespace Sys2Proof.Claims
open Machine

/-! ## What stayed as it was -/

/-- Every byte of memory reads as before. -/
def MemSame (s t : State) : Prop := ∀ a, Memory.read t.mem a = Memory.read s.mem a

/-- Every byte of memory but the `n` from key `lo` on reads as before. -/
def MemSameBut (s t : State) (lo n : Nat) : Prop := ∀ a, a < lo ∨ lo + n ≤ a → Memory.read t.mem a = Memory.read s.mem a

/-- Nothing outside strand `k` changed: every other strand, and every other part of the package. -/
def OnlyStrand (k : Nat) (s t : State) : Prop :=
  { t with strands := s.strands } = s ∧ ∀ j, j ≠ k → t.strand j = s.strand j

/-- Of strand `k`, only scalar registers, the PC and the state of waiting may have changed. -/
def OnlyScalars (k : Nat) (s t : State) : Prop :=
  { t.strand k with s := (s.strand k).s, pc := (s.strand k).pc, st := (s.strand k).st, wait := (s.strand k).wait,
                    scalarExempt := (s.strand k).scalarExempt } = s.strand k

/-- Every scalar register of the executing strand but `sd` is as before, and s0 reads zero (R61). -/
def RegsBut (s t : State) (sd : BitVec 5) : Prop := (∀ n, n ≠ sd → t.rd n = s.rd n) ∧ t.rd 0 = 0

/-- The strand runs on at `pc`. -/
def RunsAt (t : State) (pc : Word) : Prop := t.me.pc = pc ∧ t.me.st = .running ∧ t.me.wait = .none

/-- The frame of a scalar instruction that writes `sd` and goes on at `pc`: nothing else changed. -/
def ScalarStep (s t : State) (sd : BitVec 5) (pc : Word) : Prop :=
  OnlyStrand s.cur.src s t ∧ MemSame s t ∧ OnlyScalars s.cur.src s t ∧ RegsBut s t sd ∧ RunsAt t pc

/-- The instruction completes: it writes a value with property `P` to `sd` (a write to s0 is discarded), moves the PC past
itself, and changes nothing else. -/
def WritesSuch (i : Instr) (s : State) (sd : BitVec 5) (P : Word → Prop) : Prop :=
  ∃ t, exec i s = .next t ∧ ScalarStep s t sd (s.me.pc + 4) ∧ (sd ≠ 0 → P (t.rd sd))

/-- The instruction completes with the number `v` in `sd`. -/
def Writes (i : Instr) (s : State) (sd : BitVec 5) (v : Nat) : Prop := WritesSuch i s sd (fun w => w.toNat = v)

/-- The instruction completes, and goes to `target` exactly where `c` holds. -/
def Branches (i : Instr) (s : State) (c : Prop) (target : Word) : Prop :=
  ∃ t, exec i s = .next t ∧ (c → ScalarStep s t 0 target) ∧ (¬c → ScalarStep s t 0 (s.me.pc + 4))

/-- The executing strand waits at the instruction, and nothing else changed. -/
def Waits (i : Instr) (s : State) : Prop :=
  ∃ t, exec i s = .next t ∧ OnlyStrand s.cur.src s t ∧ t.me.st = .waiting ∧ t.me.pc = s.me.pc ∧
    { t.me with st := s.me.st, wait := s.me.wait } = s.me

/-- An integer wrapped to 64 bits (R4). -/
def wrap64 (n : Int) : Nat := (n % 2 ^ 64).toNat

/-- `PC + 4 × sext(off)` (R148, R150). -/
def target (s : State) (off : Int) : Word := BitVec.ofInt 64 (s.me.pc.toInt + 4 * off)

/-- A truth value as the number a comparison writes. -/
def oneIf (c : Prop) [Decidable c] : Nat := if c then 1 else 0

end Sys2Proof.Claims

open Sys2Proof Sys2Proof.Machine Sys2Proof.Claims

/-! ## Scalar arithmetic -/

/-- R141 with R29, for every function of the ALU major and every operand: the exact result is computed on integers and wrapped;
no other register, no flag, no memory changes, and the divide corners do not trap. -/
def Sys2Proof.Claims.AluRegisterResults : Prop :=
  ∀ (s : State) (x : SReg3) (y : SReg2),
    let a := s.rd x.sa
    let b := s.rd x.sb
    let c := s.rd y.sa
    Writes (.add x) s x.sd (wrap64 (a.toInt + b.toInt)) ∧
    Writes (.sub x) s x.sd (wrap64 (a.toInt - b.toInt)) ∧
    Writes (.mul x) s x.sd (wrap64 (a.toInt * b.toInt)) ∧
    Writes (.mulh x) s x.sd (wrap64 (a.toInt * b.toInt / 2 ^ 64)) ∧
    Writes (.mulhn x) s x.sd (a.toNat * b.toNat / 2 ^ 64) ∧
    Writes (.div x) s x.sd (if b = 0 then 2 ^ 64 - 1 else wrap64 (a.toInt.tdiv b.toInt)) ∧
    Writes (.divn x) s x.sd (if b = 0 then 2 ^ 64 - 1 else a.toNat / b.toNat) ∧
    Writes (.rem x) s x.sd (if b = 0 then a.toNat else wrap64 (a.toInt.tmod b.toInt)) ∧
    Writes (.remn x) s x.sd (if b = 0 then a.toNat else a.toNat % b.toNat) ∧
    Writes (.and_ x) s x.sd (a.toNat &&& b.toNat) ∧
    Writes (.or_ x) s x.sd (a.toNat ||| b.toNat) ∧
    Writes (.xor_ x) s x.sd (a.toNat ^^^ b.toNat) ∧
    Writes (.sll x) s x.sd (a.toNat * 2 ^ (b.toNat % 64) % 2 ^ 64) ∧
    Writes (.srl x) s x.sd (a.toNat / 2 ^ (b.toNat % 64)) ∧
    Writes (.sra x) s x.sd (wrap64 (a.toInt / 2 ^ (b.toNat % 64))) ∧
    Writes (.slt x) s x.sd (oneIf (a.toInt < b.toInt)) ∧
    Writes (.sltn x) s x.sd (oneIf (a.toNat < b.toNat)) ∧
    WritesSuch (.min_ x) s x.sd (fun w => w.toInt = min a.toInt b.toInt) ∧
    WritesSuch (.max_ x) s x.sd (fun w => w.toInt = max a.toInt b.toInt) ∧
    Writes (.minn x) s x.sd (min a.toNat b.toNat) ∧
    Writes (.maxn x) s x.sd (max a.toNat b.toNat) ∧
    Writes (.clz y) s y.sd (if c = 0 then 64 else 63 - Nat.log2 c.toNat) ∧
    WritesSuch (.ctz y) s y.sd (fun w => if c = 0 then w = 64 else 2 ^ w.toNat ∣ c.toNat ∧ ¬ 2 ^ (w.toNat + 1) ∣ c.toNat) ∧
    Writes (.pop y) s y.sd ((List.range 64).countP (fun k => c.getLsbD k))

/-- R142: every immediate form, with the immediate sign-extended first. -/
def Sys2Proof.Claims.AluImmediateResults : Prop :=
  ∀ (s : State) (x : SImm) (h : SShift),
    let a := s.rd x.sa
    let i := x.imm.toInt
    let b := s.rd h.sa
    let n := h.amount.toNat
    Writes (.addi x) s x.sd (wrap64 (a.toInt + i)) ∧
    Writes (.andi x) s x.sd (a.toNat &&& wrap64 i) ∧
    Writes (.ori x) s x.sd (a.toNat ||| wrap64 i) ∧
    Writes (.xori x) s x.sd (a.toNat ^^^ wrap64 i) ∧
    Writes (.slti x) s x.sd (oneIf (a.toInt < i)) ∧
    Writes (.sltni x) s x.sd (oneIf (a.toNat < wrap64 i)) ∧
    Writes (.slli h) s h.sd (b.toNat * 2 ^ n % 2 ^ 64) ∧
    Writes (.srli h) s h.sd (b.toNat / 2 ^ n) ∧
    Writes (.srai h) s h.sd (wrap64 (b.toInt / 2 ^ n))

/-- R143: the two upper-immediate forms, and that they have no illegal value. -/
def Obligations.UpperImmediateResults : Prop :=
  ∀ (s : State) (u : SUpper),
    Writes (.sui u) s u.sd (wrap64 (u.imm20.toInt * 2 ^ 12)) ∧
    Writes (.pcui u) s u.sd (wrap64 (s.me.pc.toInt + u.imm20.toInt * 2 ^ 12)) ∧
    (∃ w, encode (.sui u) = some w ∧ decode w = .ok (.sui u)) ∧ ∃ w, encode (.pcui u) = some w ∧ decode w = .ok (.pcui u)

/-! ## Branches, jumps, grants -/

/-- R148: where each branch goes, and that nothing but the PC changes; a taken branch to itself loops; the two unassigned conditions
are illegal; a target that is not mapped executable gives the fetch fault there, after the branch. -/
def Obligations.ConditionalBranchResults : Prop :=
  ∀ (s : State) (x : BranchOp) (w : BitVec 32) (pc : Word) (c k : Nat),
    let a := s.rd x.sa
    let b := s.rd x.sb
    let to_ := target s x.off.toInt
    Branches (.beq x) s (a = b) to_ ∧
    Branches (.bne x) s (a ≠ b) to_ ∧
    Branches (.blt x) s (a.toInt < b.toInt) to_ ∧
    Branches (.bge x) s (b.toInt ≤ a.toInt) to_ ∧
    Branches (.bltn x) s (a.toNat < b.toNat) to_ ∧
    Branches (.bgen x) s (b.toNat ≤ a.toNat) to_ ∧
    (x.off = 0 → to_ = s.me.pc) ∧
    (w.extractLsb' 25 6 = 0x09 → 6 ≤ (w.extractLsb' 12 3).toNat → ∃ e, decode w = .error e) ∧
    (s.translate (dieOf s.cur.src) s.me.bind.ctx s.me.bind.secure .exec pc (some (coreOf s.cur.src)) = .error c → c = 8 ∨ c = 10 ∨ c = 11 →
      ∃ e, s.fetchWord s.cur.src pc k = .error e ∧ e.cause = 7 ∧ e.va = pc)

/-- R150: where each jump goes; the word after the jump's goes to the link register. -/
def Sys2Proof.Claims.JumpResults : Prop :=
  ∀ (s : State) (j : JalOp) (r : SImm),
    (∃ t, exec (.jal j) s = .next t ∧ ScalarStep s t j.sd (target s j.off20.toInt) ∧ (j.sd ≠ 0 → t.rd j.sd = s.me.pc + 4)) ∧
    (∃ t, exec (.jalr r) s = .next t ∧ ScalarStep s t r.sd (BitVec.ofInt 64 ((s.rd r.sa).toInt + r.imm.toInt)) ∧
      (r.sd ≠ 0 → t.rd r.sd = s.me.pc + 4))

/-- R149: a mask branch tests mask bits 0 to VL - 1 and a grant branch bits <15:0> of its grant, once no queued convoy writes
the register; while one does, it waits and has not executed. -/
def Sys2Proof.Claims.MaskAndGrantBranches : Prop :=
  ∀ (s : State) (x : MBranchOp),
    let n := x.reg.toNat
    let m := s.me.vec.mask n
    let vl := s.me.csr.vl
    let to_ := target s x.off.toInt
    ((∀ c ∈ s.me.viq, ∀ w ∈ c.words, maskWritten w ≠ some n) →
      Branches (.bany x) s (∃ i, i < vl ∧ m.getLsbD i = true) to_ ∧
      Branches (.ball x) s (∀ i, i < vl → m.getLsbD i = true) to_ ∧
      Branches (.bnone x) s (∀ i, i < vl → m.getLsbD i = false) to_) ∧
    ((∀ c ∈ s.me.viq, ∀ w ∈ c.words, grantWritten w ≠ some n) →
      Branches (.bgz x) s ((s.me.vec.grant n).toNat % 2 ^ 16 = 0) to_ ∧
      Branches (.bgnz x) s ((s.me.vec.grant n).toNat % 2 ^ 16 ≠ 0) to_) ∧
    ((∃ c ∈ s.me.viq, ∃ w ∈ c.words, maskWritten w = some n) →
      Waits (.bany x) s ∧ Waits (.ball x) s ∧ Waits (.bnone x) s) ∧
    ((∃ c ∈ s.me.viq, ∃ w ∈ c.words, grantWritten w = some n) → Waits (.bgz x) s ∧ Waits (.bgnz x) s)

namespace Sys2Proof.Claims
open Machine

/-- Of the executing strand only its grant registers and the PC may have changed, and of those only grant `n`. -/
def GrantStep (s t : State) (n : Nat) : Prop :=
  OnlyStrand s.cur.src s t ∧ MemSame s t ∧ RunsAt t (s.me.pc + 4) ∧
  (∀ k, k ≠ n → t.me.vec.grant k = s.me.vec.grant k) ∧
  { t.me with vec := { t.me.vec with g := s.me.vec.g }, pc := s.me.pc, st := s.me.st, wait := s.me.wait,
              scalarExempt := s.me.scalarExempt } = s.me

/-- No queued convoy writes grant `n`. -/
def GrantFree (s : State) (n : Nat) : Prop := ∀ c ∈ s.me.viq, ∀ w ∈ c.words, grantWritten w ≠ some n

end Sys2Proof.Claims

/-- R151: `gget` reads a field of a grant, `gset` replaces one field and leaves the others, `gclr` writes zero, once no queued convoy
writes the register, and they wait while one does; the encodings it names are illegal; its example. -/
def Obligations.GrantRegisterAccess : Prop :=
  ∀ (s : State) (x : GGetOp) (y : GSetOp) (z : GClrOp) (w : BitVec 32),
    let fn := (w.extractLsb' 0 10).toNat
    let sb := (w.extractLsb' 10 5).toNat
    let sa := (w.extractLsb' 15 5).toNat
    let sd := (w.extractLsb' 20 5).toNat
    (GrantFree s x.grant.toNat → x.field.toNat ≤ 4 →
      Writes (.gget x) s x.sd
        (if x.field.toNat = 4 then (s.me.vec.grant x.grant.toNat).toNat
         else (s.me.vec.grant x.grant.toNat).toNat / 2 ^ (16 * x.field.toNat) % 2 ^ 16)) ∧
    (GrantFree s y.grant.toNat → y.field.toNat ≤ 4 →
      ∃ t, exec (.gset y) s = .next t ∧ GrantStep s t y.grant.toNat ∧
        (y.field.toNat = 4 → t.me.vec.grant y.grant.toNat = s.rd y.sa) ∧
        (y.field.toNat ≠ 4 → ∀ f, f < 4 → (t.me.vec.grant y.grant.toNat).toNat / 2 ^ (16 * f) % 2 ^ 16 =
          if f = y.field.toNat then (s.rd y.sa).toNat % 2 ^ 16
          else (s.me.vec.grant y.grant.toNat).toNat / 2 ^ (16 * f) % 2 ^ 16)) ∧
    (GrantFree s z.grant.toNat →
      ∃ t, exec (.gclr z) s = .next t ∧ GrantStep s t z.grant.toNat ∧ t.me.vec.grant z.grant.toNat = 0) ∧
    (¬GrantFree s x.grant.toNat → Waits (.gget x) s) ∧ (¬GrantFree s y.grant.toNat → Waits (.gset y) s) ∧
    (¬GrantFree s z.grant.toNat → Waits (.gclr z) s) ∧
    (w.extractLsb' 25 6 = 0x0E →
      3 ≤ fn ∨ (fn ≤ 1 ∧ 5 ≤ sb) ∨ (fn = 0 ∧ 8 ≤ sa) ∨ (1 ≤ fn ∧ 8 ≤ sd) ∨ (fn = 2 ∧ (sa ≠ 0 ∨ sb ≠ 0)) →
      ∃ e, decode w = .error e) ∧
    decode 0x1C508400 = .ok (.gget ⟨5, 1, 1⟩)

/-! ## CSRs -/

namespace Sys2Proof.Claims

/-- CSRs a program writes whole, reserved bits apart (R82). -/
def plainCsrs : List Nat :=
  [0x003, 0x004, 0x005, 0x008, 0x009, 0x00A, 0x00B, 0x00C, 0x00D, 0x00E, 0x010, 0x012, 0x013, 0x014, 0x015, 0x043, 0x044,
   0x045, 0x047, 0x080, 0x081, 0x0C1, 0x100, 0x101, 0x102, 0x103, 0x104, 0x105, 0x106, 0x107, 0x108, 0x10A, 0x10B]

/-- The frame of a CSR instruction: no other strand, no byte of memory, no scalar register but `sd`, no vector, mask or grant
register changed; the strand runs on past the instruction; every CSR but `n` reads as before. -/
def CsrStep (s t : State) (n : Nat) (sd : BitVec 5) : Prop :=
  (∀ j, j ≠ s.cur.src → t.strand j = s.strand j) ∧ MemSame s t ∧ RegsBut s t sd ∧ RunsAt t (s.me.pc + 4) ∧
  { t.me.vec with fstat := s.me.vec.fstat, evix := s.me.vec.evix } = s.me.vec ∧ t.me.viq = s.me.viq ∧
  ∀ m, m ≠ n → t.csrRead m = s.csrRead m

/-- A CSR instruction that writes `new` completes: `sd` takes the value before, and the CSR then reads `new` without the reserved
bits. -/
def CsrWrites (i : Instr) (s : State) (n : Nat) (sd : BitVec 5) (new : Word) : Prop :=
  ∃ t, exec i s = .next t ∧ CsrStep s t n sd ∧ (sd ≠ 0 → t.rd sd = s.csrRead n) ∧ t.csrRead n = new &&& csrMask n

end Sys2Proof.Claims

/-- R84 for every CSR that is written whole: `csrrw`, `csrrs` and `csrrc` return the value before and write the new one, with
reserved bits cleared, where R82 to R84 let the strand access it and R83 leaves nothing to wait for. -/
def Sys2Proof.Claims.CsrReadModifyWrite : Prop :=
  ∀ (s : State) (x : CsrOp),
    let n := x.csr.toNat
    n ∈ plainCsrs → (csrPriv n = true → s.me.bind.privileged = true) → s.csrWait n true = .none →
    CsrWrites (.csrrw x) s n x.sd (s.rd x.sa) ∧
    (x.sa ≠ 0 → CsrWrites (.csrrs x) s n x.sd (s.csrRead n ||| s.rd x.sa)) ∧
    (x.sa ≠ 0 → CsrWrites (.csrrc x) s n x.sd (s.csrRead n &&& ~~~ s.rd x.sa))

/-- R84: a CSR instruction that only reads returns the value and changes nothing; while R83 makes it wait, it waits. -/
def Sys2Proof.Claims.CsrReadsChangeNothing : Prop :=
  ∀ (s : State) (x : CsrROp) (y : CsrOp),
    let n := x.csr.toNat
    let m := y.csr.toNat
    ((csrPriv n = true → s.me.bind.privileged = true) → s.csrWait n false = .none →
      Writes (.csrr x) s x.sd (s.csrRead n).toNat) ∧
    ((csrPriv n = true → s.me.bind.privileged = true) → s.csrWait n false ≠ .none → Waits (.csrr x) s) ∧
    (y.sa = 0 → (csrPriv m = true → s.me.bind.privileged = true) → s.csrWait m false = .none →
      Writes (.csrrs y) s y.sd (s.csrRead m).toNat ∧ Writes (.csrrc y) s y.sd (s.csrRead m).toNat)

/-- R80: a VLCAP write of a privileged strand outside DETMODE, with nothing queued and its engines quiet, stores the largest power
of two not above the value, clamped to 512 to 8,192. -/
def Sys2Proof.Claims.VlcapWriteIsClampedPowerOfTwo : Prop :=
  ∀ (s : State) (x : CsrOp), x.csr = 0x042 → s.me.bind.privileged = true → s.me.bind.det = false → s.me.viq = [] →
    s.me.enginesDone true true true = true →
    ∃ t k, exec (.csrrw x) s = .next t ∧ (t.csrRead 0x042).toNat = 2 ^ k ∧ 9 ≤ k ∧ k ≤ 13 ∧
      (k = 9 ∨ 2 ^ k ≤ (s.rd x.sa).toNat) ∧ (k = 13 ∨ (s.rd x.sa).toNat < 2 ^ (k + 1)) ∧
      RegsBut s t x.sd ∧ (x.sd ≠ 0 → t.rd x.sd = s.csrRead 0x042) ∧ MemSame s t

/-! ## Taking an exception -/

namespace Sys2Proof.Claims
open Machine

/-- The fault record a stop of the scalar side writes (R304). -/
def scalarRec (s : State) (cause kind : Nat) (va pc detail : Word) : FRec :=
  { gtc := (s.die (dieOf s.cur.src)).gtc, source := s.cur.src, cause := cause, ctx := s.me.bind.ctx, kind := kind,
    halted := true, more := false, va := va, elem := 0xFFFFFFFF, slot := 0, pc := pc, launch := s.me.bind.launch.lid,
    gix := s.me.bind.gix, ix := s.me.bind.ix, detail := detail }

/-- The exception is taken: the record `r` is posted as R305 posts it, the strand stands at `resume` with its scalar registers as
they were, it and every running or waiting member of its resident group are halted, and no other byte of memory is written. -/
def TakesException (i : Instr) (s : State) (resume : Word) (r : FRec) : Prop :=
  ∀ u, s.me.st = .running → s.me.wait = .none → (s.context r.ctx).state ≠ 4 → s.sourceWaits r = false →
    s.tryPost (dieOf s.cur.src) r.ctx r = .posted u →
    ∃ t, exec i s = .next t ∧ t.mem = u.mem ∧ t.me.pc = resume ∧ t.me.st = .halted ∧ (∀ n, t.rd n = s.rd n) ∧
      t.me.vec = s.me.vec ∧ t.me.csr = s.me.csr ∧
      ∀ g, look s.groups s.me.group = some g → g.state = .resident → ∀ m ∈ g.members.map Prod.snd,
        (s.strand m).wait ≠ .ending → ((s.strand m).st = .running ∨ (s.strand m).st = .waiting) → (t.strand m).st = .halted

end Sys2Proof.Claims

/-- R152, R120: `trap`, `brk`, `eret` and, in a privileged context, `halt` write their record with the code in VA, leave the
strand at PC + 4, PC, PC and PC + 4, and halt its group, once every earlier convoy has retired. The launch-ending `trap 0` is in
TrapZeroEndsTheLaunch. -/
def Sys2Proof.Claims.ServiceInstructionsHaltTheGroup : Prop :=
  ∀ (s : State) (x : Code12), s.me.viq = [] →
    let pc := s.me.pc
    (x.code ≠ 0 ∨ look s.launches s.me.bind.launch = none →
      TakesException (.trap x) s (pc + 4) (scalarRec s 33 0 (x.code.zeroExtend 64) pc 0)) ∧
    TakesException (.brk x) s pc (scalarRec s 34 0 (x.code.zeroExtend 64) pc 0) ∧
    TakesException .eret s pc (scalarRec s 35 0 0 pc 0) ∧
    (s.me.bind.privileged = true → TakesException .halt s (pc + 4) (scalarRec s 36 0 0 pc 0))

/-- R55, R56, R84, R152: an illegal word, a write to a read-only CSR, and a privileged form in an unprivileged context take the
trap of their cause (1, 1, 4), with the word in VA, before anything is written. -/
def Sys2Proof.Claims.DecodeTrapsTakeTheirException : Prop :=
  ∀ (s : State) (w : BitVec 32) (x : CsrOp) (y : SReg3), s.me.viq = [] →
    let pc := s.me.pc
    let n := x.csr.toNat
    TakesException (.illegalInstruction 0 w) s pc (scalarRec s 1 0 (w.zeroExtend 64) pc 0) ∧
    (csrReadOnly n = true →
      TakesException (.csrrw x) s pc (scalarRec s 1 0 ((wordOf (.csrrw x)).zeroExtend 64) pc 0)) ∧
    (csrReadOnly n = false → csrPriv n = true → s.me.bind.privileged = false →
      TakesException (.csrrw x) s pc (scalarRec s 4 0 ((wordOf (.csrrw x)).zeroExtend 64) pc 0)) ∧
    (s.me.bind.privileged = false →
      TakesException .halt s pc (scalarRec s 4 0 ((wordOf .halt).zeroExtend 64) pc 0) ∧
      TakesException (.pgmig y) s pc (scalarRec s 4 0 ((wordOf (.pgmig y)).zeroExtend 64) pc 0))

namespace Sys2Proof.Claims
open Machine

/-- An access of `n` bytes that no watch range matches stops with cause 8 where its address lies above bit 47, and with cause 9 where
it is not a multiple of `n`; `kind` is the kind of its record. -/
def BadAddress (i : Instr) (s : State) (acc : Access) (kind n : Nat) (va : Word) : Prop :=
  s.scalarWatched acc va n = false →
    (2 ^ 48 ≤ va.toNat → TakesException i s s.me.pc (scalarRec s 8 kind va s.me.pc 0)) ∧
    (va.toNat < 2 ^ 48 → va.toNat % n ≠ 0 → TakesException i s s.me.pc (scalarRec s 9 kind va s.me.pc 0))

end Sys2Proof.Claims

/-- R144, R145, R147: an address above bit 47 stops every scalar load, store and atomic with cause 8, and one that is not a multiple of
the access's width with cause 9, before a register or a byte is written; an atomic that releases does so once the strand's earlier vector
memory operations are performed. -/
def Obligations.BadScalarAddressesStop : Prop :=
  ∀ (s : State) (x : SImm) (y : SStore) (z : AmoOp),
    let a := s.rd x.sa + x.imm.signExtend 64
    let b := s.rd y.sa + y.imm.signExtend 64
    let load := fun (i : Instr) (n : Nat) => BadAddress i s .read 2 n a
    let store := fun (i : Instr) (n : Nat) => BadAddress i s .write 3 n b
    let atomic := fun (i : Instr) => BadAddress i s .atomic 4 (if z.wide = 1 then 8 else 4) (s.rd z.sa)
    load (.ldi8 x) 1 ∧ load (.ldi16 x) 2 ∧ load (.ldi32 x) 4 ∧ load (.ldi64 x) 8 ∧
    load (.ldn8 x) 1 ∧ load (.ldn16 x) 2 ∧ load (.ldn32 x) 4 ∧
    store (.st8 y) 1 ∧ store (.st16 y) 2 ∧ store (.st32 y) 4 ∧ store (.st64 y) 8 ∧
    ((releases z.order = true → ∀ c ∈ s.me.viq, ∀ w ∈ c.words.drop c.next, isVecMem w = false) →
      atomic (.amoadd z) ∧ atomic (.amoswap z) ∧ atomic (.amocas z) ∧ atomic (.amomin z) ∧ atomic (.amomax z) ∧
      atomic (.amominn z) ∧ atomic (.amomaxn z) ∧ atomic (.amoand z) ∧ atomic (.amoor z) ∧ atomic (.amoxor z))

/-- R303, R305: a record is posted as 64 bytes in slot TAIL mod 2^LOG2N of the context's queue, TAIL grows by one, firmware is
told, and no other byte of memory changes; a queue that is full takes nothing; one in a migrating frame is tried again (R216), and a
poisoned slot cannot be written (R306). -/
def Obligations.RecordsPostToTheContextQueue : Prop :=
  ∀ (s : State) (die ctx : Nat) (r : FRec) (h : List Byte) (slot : Word) (xs xb : Xl) (ps pb : Place),
    let base := (s.context ctx).frqBase
    let sec := (s.context ctx).flags.getLsbD 0
    let head := leNat ((h.drop 0).take 8)
    let tail := leNat ((h.drop 8).take 8)
    let lg := leNat ((h.drop 16).take 1)
    MemOk s → s.ctxRead die ctx base 32 = .ok h → 6 ≤ lg → lg ≤ 16 → head ≤ tail →
    slot = base + 0x40 + BitVec.ofNat 64 (64 * (tail % 2 ^ lg)) →
    (∃ e, (s.die die).cached none ctx ((base + 8).toNat / 65536) = some e) →
    s.translate die ctx sec .write slot = .ok xs → xs.place = some ps → ps.key % 64 = 0 →
    s.translate die ctx sec .write (base + 8) = .ok xb → xb.place = some pb → s.poisoned pb 8 = false →
    (pb.key + 8 ≤ ps.key ∨ ps.key + 64 ≤ pb.key) →
    (∀ f ∈ s.flyWrites, s.owed die ps f = false ∧ s.owed die pb f = false) →
    (s.ctxBlocked die ctx base = true → s.tryPost die ctx r = .held) ∧
    (s.ctxBlocked die ctx base = false → tail - head = 2 ^ lg → s.tryPost die ctx r = .full) ∧
    (s.ctxBlocked die ctx base = false → s.ctxBlocked die ctx slot = true → tail - head < 2 ^ lg → s.tryPost die ctx r = .held) ∧
    (s.ctxBlocked die ctx base = false → s.ctxBlocked die ctx slot = false → s.poisoned ps 64 = true → tail - head < 2 ^ lg →
      s.tryPost die ctx r = .unwritable 18) ∧
    (s.ctxBlocked die ctx base = false → s.ctxBlocked die ctx slot = false → s.poisoned ps 64 = false → tail - head < 2 ^ lg →
      ∃ u, s.tryPost die ctx r = .posted u ∧
        (∀ i, i < 64 → some (Memory.read u.mem (ps.key + i)) = (r.bytes (sec && !s.ctxSecure die ctx slot))[i]?) ∧
        (∀ i, i < 8 → some (Memory.read u.mem (pb.key + i)) = (leBytes 8 ((tail + 1) % 2 ^ 64))[i]?) ∧
        (∀ a, (a < ps.key ∨ ps.key + 64 ≤ a) → (a < pb.key ∨ pb.key + 8 ≤ a) → Memory.read u.mem a = Memory.read s.mem a) ∧
        u.mgmt = s.mgmt ++ [.signal die])

/-! ## Scalar memory -/

namespace Sys2Proof.Claims
open Machine

/-- A scalar access of `n` bytes at `va` passes every check of R144, R147, R205, R211, R216, R320 and R345, at place `p`. -/
def Reaches (s : State) (acc : Access) (va : Word) (n : Nat) (x : Xl) (p : Place) : Prop :=
  s.scalarWatched acc va n = false ∧ va.toNat < 2 ^ 48 ∧ va.toNat % n = 0 ∧
  s.walkBusy (dieOf s.cur.src) s.me.bind.ctx va.toNat (some (coreOf s.cur.src)) = false ∧
  s.translate (dieOf s.cur.src) s.me.bind.ctx s.me.bind.secure acc va (some (coreOf s.cur.src)) = .ok x ∧
  x.place = some p ∧ p.exists = true ∧
  (acc.needsW = true → x.fme.w = false) ∧ s.placeBusy p = false ∧ s.poisoned p n = false ∧
  (acc = .atomic → x.fme.kind ≠ 5)

/-- Of a die, only the cached maps (R208), the tracker's counters and period (R218, R280) and the vector clock (R268) may have
changed. -/
def OnlyTraffic (d e : Die) : Prop :=
  { e with tlb := d.tlb, l1Tlb := d.l1Tlb, fmCache := d.fmCache, counters := d.counters, crossings := d.crossings, moves := d.moves,
           periodStart := d.periodStart, periodLen := d.periodLen, clock := d.clock } = d

/-- Of the package, only strands, maps and counters of the dies, memory and the caches' lines over it, poison marks, link requests and
writes in flight may have changed. -/
def OnlyMemorySide (s t : State) : Prop :=
  { t with strands := s.strands, dies := s.dies, mem := s.mem, counted := s.counted, l1 := s.l1, msc := s.msc, aliasSeen := s.aliasSeen,
           aliasMem := s.aliasMem, poison := s.poison, ports := s.ports, flyWrites := s.flyWrites } = s ∧
  ∀ d, OnlyTraffic (s.die d) (t.die d)

/-- The frame of a scalar memory access that writes `sd`: of the executing strand, only `sd`, its place in the program and its stores
under way may have changed; no other strand has. -/
def AccessStep (s t : State) (sd : BitVec 5) : Prop :=
  OnlyMemorySide s t ∧ (∀ j, j ≠ s.cur.src → t.strand j = s.strand j) ∧
  { t.me with s := s.me.s, pc := s.me.pc, st := s.me.st, wait := s.me.wait, scalarExempt := s.me.scalarExempt,
              ssq := s.me.ssq, buf := s.me.buf, fsvMarks := s.me.fsvMarks } = s.me ∧
  RegsBut s t sd ∧ RunsAt t (s.me.pc + 4)

/-- The number that `n` bytes of memory from key `k` on hold, least significant byte first (R2). -/
def memNat (s : State) (k n : Nat) : Nat :=
  match n with
  | 0 => 0
  | j + 1 => (Memory.read s.mem k).toNat + 256 * memNat s (k + 1) j

/-- A number of `n` bytes read as two's complement, or as it is. -/
def extended (signed : Bool) (n v : Nat) : Int := if signed && decide (2 ^ (8 * n) ≤ 2 * v) then (v : Int) - 2 ^ (8 * n) else v

/-- The stores a strand has queued, without what the tracker counts behind them. -/
def queuedStores (t : Strand) : List QStore := t.ssq.map (fun q => { q with after := [] })
/-- The entries of its strip buffer that do something else than count an access (R280). -/
def bufferedWork (t : Strand) : List BufLine := t.buf.filter (fun b => b.op != .count)

/-- A scalar load completes: `sd` takes the value the strand reads, extended; with no store of its own pending, that is the
value of memory's bytes. No byte of memory changes, but where the line carries a reader count (R238). The strand's stores under way stay
as they are; a load of a frame that the tracker counts may be counted behind them (R280). -/
def Loads (i : Instr) (s : State) (sd : BitVec 5) (va : Word) (n : Nat) (signed : Bool) : Prop :=
  ∀ x p, MemOk s → Reaches s .read va n x p →
    ∃ t, exec i s = .next t ∧ AccessStep s t sd ∧ queuedStores t.me = queuedStores s.me ∧ bufferedWork t.me = bufferedWork s.me ∧
      ((s.die (dieOf s.cur.src)).tracks x.fme = false → t.me.ssq = s.me.ssq ∧ t.me.buf = s.me.buf) ∧ t.l1 = s.l1 ∧ t.msc = s.msc ∧
      (s.counted.find (lineOf p.key) = none → MemSame s t) ∧
      (sd ≠ 0 → (t.rd sd).toNat = wrap64 (extended signed n (leNat (s.scalarBytes x p n)))) ∧
      (s.me.ssq = [] → s.me.buf = [] → s.flyWrites = [] → leNat (s.scalarBytes x p n) = memNat s p.key n)

/-- No write of another die that the strand's die knows of, or that the home of the place does, is still on its way to that home
(R268). -/
def NoneOwed (s : State) (p : Place) : Prop :=
  ∀ f ∈ s.flyWrites, f.home = p.home → f.fromDie = dieOf s.cur.src ∨
    ((s.die (dieOf s.cur.src)).clock.getD f.fromDie 0 < f.count f.fromDie ∧ (s.die p.home).clock.getD f.fromDie 0 < f.count f.fromDie)

/-- A store performed at once leaves for its own home: no strip is open, and nothing keeps it in flight. -/
def Direct (s : State) (p : Place) : Prop :=
  s.me.openStrip = none ∧ (p.home = dieOf s.cur.src ∨ s.flyHold = false) ∧ s.flying s.cur.src = false ∧ NoneOwed s p

/-- Where the store is not the 513th entry of a strip's buffer (R311), it changes only what an access may, and no register. -/
def StoreFrame (s t : State) : Prop :=
  s.me.hold = true ∨ s.me.openStrip = none ∨ s.me.buf.length < 512 → AccessStep s t 0

/-- A scalar store completes. With nothing queued before it: outside a strip its `n` bytes are in memory and every other byte
reads as before; while the schedule holds it, it stands in the scalar store queue and memory is untouched; inside a strip whose
buffer has room it is buffered and memory is untouched. -/
def Stores (i : Instr) (s : State) (ss : BitVec 5) (va : Word) (n : Nat) : Prop :=
  ∀ x p, StateOk s → Reaches s .write va n x p → s.me.ssq = [] →
    ∃ t, exec i s = .next t ∧ StoreFrame s t ∧
      (s.me.hold = true → MemSame s t ∧ t.me.buf = s.me.buf ∧
        t.me.ssq = [⟨va, x.fa, leBytes n (s.rd ss).toNat, s.me.openStrip, []⟩]) ∧
      (s.me.hold = false → Direct s p → t.me.ssq = [] ∧ ((∀ b ∈ s.me.buf, b.fa ≠ x.fa / 64 * 64) → t.me.buf = s.me.buf) ∧
        memNat t p.key n = (s.rd ss).toNat % 2 ^ (8 * n) ∧ MemSameBut s t p.key n) ∧
      (s.me.hold = false → s.me.openStrip ≠ none → s.me.buf.length < 512 → t.me.ssq = [] ∧ MemSame s t)

/-- The state once a release has made the reads of long-latency loads, where the instruction is one (R264). -/
def readsMade (s : State) (released : Bool) : State := if released then s.upd Strand.fixReads else s

/-- A scalar atomic completes with nothing of the strand pending: `sd` takes the old value sign-extended, the home holds the new
one, and every other byte reads as before. -/
def Swaps (i : Instr) (s : State) (x : AmoOp) (new : Nat → Nat → Nat → Nat → Nat) : Prop :=
  let n := if x.wide = 1 then 8 else 4
  let va := s.rd x.sa
  ∀ xl p, MemOk s → Reaches s .atomic va n xl p → s.me.ssq = [] → s.me.openStrip = none → s.flying s.cur.src = false →
    (releases x.order = true → ∀ c ∈ s.me.viq, ∀ w ∈ c.words.drop c.next, isVecMem w = false) →
    s.counted.find (lineOf p.key) = none → NoneOwed s p →
    ∃ t, exec i s = .next t ∧ AccessStep (readsMade s (releases x.order)) t x.sd ∧
      (x.sd ≠ 0 → (t.rd x.sd).toNat = wrap64 (extended true n (memNat s p.key n))) ∧
      memNat t p.key n = new n (memNat s p.key n) ((s.rd x.sb).toNat % 2 ^ (8 * n)) ((s.rd x.sd).toNat % 2 ^ (8 * n)) ∧
      MemSameBut s t p.key n

end Sys2Proof.Claims

/-- R144: every scalar load form, its width and its extension. -/
def Sys2Proof.Claims.ScalarLoadResults : Prop :=
  ∀ (s : State) (x : SImm),
    let va := s.rd x.sa + x.imm.signExtend 64
    Loads (.ldi8 x) s x.sd va 1 true ∧ Loads (.ldi16 x) s x.sd va 2 true ∧ Loads (.ldi32 x) s x.sd va 4 true ∧
    Loads (.ldi64 x) s x.sd va 8 true ∧ Loads (.ldn8 x) s x.sd va 1 false ∧ Loads (.ldn16 x) s x.sd va 2 false ∧
    Loads (.ldn32 x) s x.sd va 4 false

/-- R144, R146, R229: every scalar store form: which bytes it writes and when it is buffered. -/
def Sys2Proof.Claims.ScalarStoreResults : Prop :=
  ∀ (s : State) (x : SStore),
    let va := s.rd x.sa + x.imm.signExtend 64
    Stores (.st8 x) s x.ss va 1 ∧ Stores (.st16 x) s x.ss va 2 ∧ Stores (.st32 x) s x.ss va 4 ∧ Stores (.st64 x) s x.ss va 8

/-- R144, R145, R205: each scalar load and each scalar store whose access passes every check completes, and the strand goes on at the next
instruction: a load has its value in `sd`, extended; a store has its bytes in memory, or, in an open strip or while it waits in
the scalar store queue (R146, R229), memory as before. -/
def Obligations.ScalarAccessesComplete : Prop :=
  ∀ (s : State) (x : SImm) (y : SStore) (a : Xl) (p : Place),
    let va := s.rd x.sa + x.imm.signExtend 64
    let wa := s.rd y.sa + y.imm.signExtend 64
    let quiet := s.me.ssq = [] ∧ s.me.buf = [] ∧ s.flyWrites = []
    let goesOn := fun (t : State) (sd : BitVec 5) => RunsAt t (s.me.pc + 4) ∧ RegsBut s t sd
    let loaded := fun (t : State) (n : Nat) (signed : Bool) => goesOn t x.sd ∧ (s.counted.find (lineOf p.key) = none → MemSame s t) ∧
      (quiet → x.sd ≠ 0 → (t.rd x.sd).toNat = wrap64 (extended signed n (memNat s p.key n)))
    let stored := fun (t : State) (n : Nat) => goesOn t 0 ∧ memNat t p.key n = (s.rd y.ss).toNat % 2 ^ (8 * n) ∧ MemSameBut s t p.key n
    let kept := fun (t : State) (n : Nat) => goesOn t 0 ∧ n ≤ 8 ∧ MemSame s t
    (StateOk s →
      (Reaches s .read va 1 a p → ∃ t, exec (.ldi8 x) s = .next t ∧ loaded t 1 true) ∧
      (Reaches s .read va 2 a p → ∃ t, exec (.ldi16 x) s = .next t ∧ loaded t 2 true) ∧
      (Reaches s .read va 4 a p → ∃ t, exec (.ldi32 x) s = .next t ∧ loaded t 4 true) ∧
      (Reaches s .read va 8 a p → ∃ t, exec (.ldi64 x) s = .next t ∧ loaded t 8 true) ∧
      (Reaches s .read va 1 a p → ∃ t, exec (.ldn8 x) s = .next t ∧ loaded t 1 false) ∧
      (Reaches s .read va 2 a p → ∃ t, exec (.ldn16 x) s = .next t ∧ loaded t 2 false) ∧
      (Reaches s .read va 4 a p → ∃ t, exec (.ldn32 x) s = .next t ∧ loaded t 4 false)) ∧
    (StateOk s → s.me.ssq = [] → s.me.hold = false → Direct s p →
      (Reaches s .write wa 1 a p → ∃ t, exec (.st8 y) s = .next t ∧ stored t 1) ∧
      (Reaches s .write wa 2 a p → ∃ t, exec (.st16 y) s = .next t ∧ stored t 2) ∧
      (Reaches s .write wa 4 a p → ∃ t, exec (.st32 y) s = .next t ∧ stored t 4) ∧
      (Reaches s .write wa 8 a p → ∃ t, exec (.st64 y) s = .next t ∧ stored t 8)) ∧
    (StateOk s → s.me.ssq = [] → s.me.hold = true ∨ (s.me.openStrip ≠ none ∧ s.me.buf.length < 512) →
      (Reaches s .write wa 1 a p → ∃ t, exec (.st8 y) s = .next t ∧ kept t 1) ∧
      (Reaches s .write wa 2 a p → ∃ t, exec (.st16 y) s = .next t ∧ kept t 2) ∧
      (Reaches s .write wa 4 a p → ∃ t, exec (.st32 y) s = .next t ∧ kept t 4) ∧
      (Reaches s .write wa 8 a p → ∃ t, exec (.st64 y) s = .next t ∧ kept t 8))

/-- R147: every scalar atomic, both widths: the value written, computed on integers, and the old value returned. -/
def Obligations.ScalarAtomicResults : Prop :=
  ∀ (s : State) (x : AmoOp),
    let sg := fun (n v : Nat) => extended true n v
    Swaps (.amoadd x) s x (fun n o b _ => (o + b) % 2 ^ (8 * n)) ∧
    Swaps (.amoswap x) s x (fun _ _ b _ => b) ∧
    Swaps (.amocas x) s x (fun _ o b e => if o = e then b else o) ∧
    Swaps (.amomin x) s x (fun n o b _ => if sg n b < sg n o then b else o) ∧
    Swaps (.amomax x) s x (fun n o b _ => if sg n o < sg n b then b else o) ∧
    Swaps (.amominn x) s x (fun _ o b _ => min o b) ∧
    Swaps (.amomaxn x) s x (fun _ o b _ => max o b) ∧
    Swaps (.amoand x) s x (fun _ o b _ => o &&& b) ∧
    Swaps (.amoor x) s x (fun _ o b _ => o ||| b) ∧
    Swaps (.amoxor x) s x (fun _ o b _ => o ^^^ b)

/-! ## Fences, waits, barriers, strips -/

namespace Sys2Proof.Claims
open Machine

/-- Nothing of the strand is outstanding: its sluices, engines, queues, markers and writes are done. -/
def Idle (s : State) : Prop :=
  s.me.viq = [] ∧ s.me.ssq = [] ∧ s.me.fsvMarks = [] ∧ s.me.enginesDone true true true = true ∧ s.me.lostStore = none ∧
  s.flying s.cur.src = false ∧ s.linkPending s.cur.src = false

/-- No event of R229 finds an open strip. -/
def NoStrip (s : State) : Prop := s.me.openStrip = none

/-- The instruction completes and changes nothing but the PC. -/
def Passes (i : Instr) (s : State) : Prop := ∃ t, exec i s = .next t ∧ ScalarStep s t 0 (s.me.pc + 4)

/-- It completes, and changes nothing but the PC and that long-latency loads have made their reads. -/
def PassesRead (i : Instr) (s : State) : Prop := ∃ t, exec i s = .next t ∧ ScalarStep (readsMade s true) t 0 (s.me.pc + 4)

/-- The operand check fails: cause 5 with the given DETAIL, and nothing is written. -/
def IllegalOperand (i : Instr) (s : State) (detail : Word) : Prop :=
  TakesException i s s.me.pc (scalarRec s 5 0 0 s.me.pc detail)

end Sys2Proof.Claims

/-- R254, R255: a fence whose earlier work is done completes and changes nothing; of strand scope it does so inside a strip too, of
wider scope here outside one (R229), an `fsv` where no buffered store is held back (R216). -/
def Sys2Proof.Claims.FencesCompleteWhenWorkIsDone : Prop :=
  ∀ (s : State) (x : FenceOp) (y : ScopeOp), Idle s →
    (x.scope = 0 ∨ NoStrip s → PassesRead (.fence x) s) ∧
    (y.scope = 0 ∨ NoStrip s → PassesRead (.fvs y) s ∧ Passes (.fmx y) s ∧ Passes (.fcp y) s) ∧
    (y.scope = 0 ∨ (NoStrip s ∧ s.bufHeld s.cur.src = false) → Passes (.fsv y) s)

/-- R254, R255: the directional fences wait for exactly the side they name: `fvs` for queued vector memory members, `fmx` for the
matrix timeline and `fcp` for the copy timeline, their counters included; `fsv` does not stall, and marks the place behind which
later vector memory members wait. -/
def Sys2Proof.Claims.DirectionalFencesWaitForTheirSide : Prop :=
  ∀ (s : State) (y : ScopeOp),
    ((∃ c ∈ s.me.viq, ∃ w ∈ c.words.drop c.next, isVecMem w = true) → Waits (.fvs y) s) ∧
    (s.me.enginesDone false true false = false → Waits (.fmx y) s) ∧
    (s.me.enginesDone true false false = false → Waits (.fcp y) s) ∧
    (s.me.lostStore = none → s.me.fsvMarks = [] → s.me.ssq ≠ [] →
      ∃ t, exec (.fsv y) s = .next t ∧ OnlyStrand s.cur.src s t ∧ RunsAt t (s.me.pc + 4) ∧
        (∃ m, t.me.fsvMarks = [m] ∧ m.seq = s.me.nextSeq ∧ m.scope = y.scope ∧ m.left = s.me.ssq.length) ∧
        (∀ c : Convoy, isVecMem c.word = true → (t.me.marked c = true ↔ s.me.nextSeq ≤ c.seq)) ∧
        t.me.ssq = s.me.ssq ∧ t.me.viq = s.me.viq ∧ (∀ n, t.rd n = s.rd n))

/-- R247: `tlget` gives the number of the last operation issued on a timeline; `tlwait` completes with the counter's value when it
has reached s[sb], and waits while it has not. -/
def Obligations.TimelineReadsAndWaits : Prop :=
  ∀ (s : State) (x : SReg2) (y : SReg3) (xl : Xl) (p : Place),
    let k := s.rd x.sa
    let va := s.rd y.sa
    (k = 0 → Writes (.tlget x) s x.sd s.me.tlCopy.issued.toNat) ∧
    (k = 1 → Writes (.tlget x) s x.sd s.me.tlMatrix.issued.toNat) ∧
    (k = 2 → Writes (.tlget x) s x.sd s.me.tlAsync.issued.toNat) ∧
    (2 < k.toNat → IllegalOperand (.tlget x) s 5) ∧
    (va.toNat < 2 ^ 48 → va.toNat % 8 = 0 →
      s.walkBusy (dieOf s.cur.src) s.me.bind.ctx va.toNat (some (coreOf s.cur.src)) = false →
      s.translate (dieOf s.cur.src) s.me.bind.ctx s.me.bind.secure .read va (some (coreOf s.cur.src)) = .ok xl →
      xl.place = some p → p.exists = true → s.placeBusy p = false → s.poisoned p 8 = false →
      ((s.rd y.sb).toNat ≤ leNat (s.scalarBytes xl p 8) → s.counted.find (lineOf p.key) = none →
        ∃ t, exec (.tlwait y) s = .next t ∧ AccessStep s t y.sd ∧ MemSame s t ∧
          (y.sd ≠ 0 → (t.rd y.sd).toNat = leNat (s.scalarBytes xl p 8))) ∧
      (leNat (s.scalarBytes xl p 8) < (s.rd y.sb).toNat → Waits (.tlwait y) s))

namespace Sys2Proof.Claims
open Machine

/-- The barrier entry a strand's barrier instruction means (R133). -/
def HasBarrier (s : State) (b ix : Nat) (e : Barrier) : Prop :=
  s.barrierOf (clusterOf s.cur.src) s.me.group b = some (ix, e)

/-- After the arrival of strand `j` every strand of the group has arrived or ended (R131). -/
def Last (e : Barrier) (j : Nat) : Prop := ∀ k, k < e.size → k = j ∨ e.arr.getLsbD k = true ∨ e.ended.getLsbD k = true

/-- The table entry after an arrival: the arrival counted, or, where it is the last, the phase over and no arrival left (R131). -/
def Arrived (s t : State) (ix : Nat) (e : Barrier) : Prop :=
  let j := s.me.bind.ix
  let e' := (t.cluster (clusterOf s.cur.src)).barriers.getD ix {}
  (Last e j → e'.phase = e.phase + 1 ∧ e'.arr = 0) ∧
  (¬Last e j → e'.phase = e.phase ∧ ∀ k, k < 16 → e'.arr.getLsbD k = (e.arr.getLsbD k || decide (k = j))) ∧
  e'.ended = e.ended ∧ e'.size = e.size ∧ e'.owner = e.owner

/-- The frame of an arrival: of the package only the executing strand's record and the cluster's barriers changed. -/
def BarrierStep (s t : State) : Prop :=
  { t with strands := s.strands, clusters := s.clusters } = s ∧ (∀ j, j ≠ s.cur.src → t.strand j = s.strand j) ∧
  (∀ k, k ≠ clusterOf s.cur.src → t.cluster k = s.cluster k) ∧ MemSame s t

end Sys2Proof.Claims

/-- R131, R133, R134: in a group of more than one strand, an arrival of an idle strand is counted and returns the phase before it;
the last arrival of the phase ends it, and its `bar` completes at once with the new phase; an earlier `bar` waits with its token
kept; a `barwt` completes with the phase when it is 1 to 32,768 past the token, waits at 0, and stops beyond; in a group of one
strand every form writes 0 at once, whatever the strand has outstanding. -/
def Obligations.BarrierArrivalsAndPhases : Prop :=
  ∀ (s : State) (x : SReg2) (y : SReg3) (ix : Nat) (e : Barrier),
    let b := (s.rd x.sa).toNat
    let c := (s.rd y.sa).toNat
    (Idle s → NoStrip s → s.held = false → s.me.barTok = none → 1 < s.me.bind.gsize → s.me.bind.ix < 16 → b ≤ 1 → HasBarrier s b ix e →
      (∃ t, exec (.bararr x) s = .next t ∧ BarrierStep s t ∧ Arrived s t ix e ∧ RegsBut s t x.sd ∧ RunsAt t (s.me.pc + 4) ∧
        (x.sd ≠ 0 → (t.rd x.sd).toNat = e.phase.toNat)) ∧
      ∃ t, exec (.bar x) s = .next t ∧ BarrierStep s t ∧ Arrived s t ix e ∧
        (Last e s.me.bind.ix → RegsBut s t x.sd ∧ RunsAt t (s.me.pc + 4) ∧ t.me.barTok = none ∧
          (x.sd ≠ 0 → (t.rd x.sd).toNat = (e.phase.toNat + 1) % 65536)) ∧
        (¬Last e s.me.bind.ix → t.me.st = .waiting ∧ t.me.pc = s.me.pc ∧ t.me.barTok = some (b, e.phase.toNat))) ∧
    (1 < s.me.bind.gsize → c ≤ 1 → s.me.barTok = none → HasBarrier s c ix e →
      let d := (e.phase.toNat + 65536 - (s.rd y.sb).toNat % 65536) % 65536
      (1 ≤ d → d ≤ 32768 → Writes (.barwt y) s y.sd e.phase.toNat) ∧
      (d = 0 → Waits (.barwt y) s) ∧
      (32768 < d → IllegalOperand (.barwt y) s 5)) ∧
    (NoStrip s → s.me.bind.gsize ≤ 1 →
      (b ≤ 1 → Writes (.bar x) s x.sd 0 ∧ Writes (.bararr x) s x.sd 0) ∧ (c ≤ 1 → Writes (.barwt y) s y.sd 0)) ∧
    (1 < b → IllegalOperand (.bar x) s 5 ∧ IllegalOperand (.bararr x) s 5) ∧ (1 < c → IllegalOperand (.barwt y) s 5)

/-- R157, R311: `setvl` sets VL to the smaller of the request and VLB × G / EW, sets VTYPE, writes VL to sd and opens a strip that
checkpoints the scalars INDMASK names as they then stand; a reserved type is an illegal operand; with two strips uncommitted it
waits. -/
def Obligations.SetvlOpensAStrip : Prop :=
  ∀ (s : State) (x : SetvlOp),
    let vlb := s.vlb s.cur.src
    let vt := x.etype ++ x.group ++ x.policy
    (∀ ew, ewOf x.etype.toNat = some ew → s.me.strips.length < 2 →
      let vl := min (s.rd x.sa).toNat (vlb * 2 ^ x.group.toNat / ew)
      ∃ t, exec (.setvl x) s = .next t ∧ OnlyStrand s.cur.src s t ∧ RegsBut s t x.sd ∧ RunsAt t (s.me.pc + 4) ∧
        (x.sd ≠ 0 → (t.rd x.sd).toNat = vl % 2 ^ 64) ∧ t.me.csr = { s.me.csr with vl := vl, vtype := vt } ∧
        t.me.vec = s.me.vec ∧ t.me.viq = s.me.viq ∧ t.me.buf = s.me.buf ∧ t.me.openStrip = some s.me.nextStrip ∧
        (∀ r ∈ s.me.strips, { r with closed := true } ∈ t.me.strips) ∧
        ∃ r ∈ t.me.strips, r.id = s.me.nextStrip ∧ r.pc = s.me.pc ∧ r.why = 0 ∧
          ∀ n, n < 32 → ((n, t.me.reg n) ∈ r.ckpt ↔ n ≠ 0 ∧ s.me.csr.indmask.getLsbD n = true)) ∧
    (ewOf x.etype.toNat = none → IllegalOperand (.setvl x) s 1) ∧
    (ewOf x.etype.toNat ≠ none → 2 ≤ s.me.strips.length → Waits (.setvl x) s)

/-- R125, R153: `yield` moves on with the deficit at most 0, the turn passed and 16 fetch turns to skip; `mark` moves on, and with
tracing of markers off changes nothing else, and no register or byte of memory with it on. -/
def Sys2Proof.Claims.YieldAndMark : Prop :=
  ∀ (s : State) (x : Code12),
    (∃ t, exec .yield s = .next t ∧ (∀ n, t.rd n = s.rd n) ∧ RunsAt t (s.me.pc + 4) ∧ t.me.skip = 16 ∧
      t.me.deficit = min s.me.deficit 0 ∧
      ((t.core (coreOf s.cur.src)).turn = some s.cur.src → (t.core (coreOf s.cur.src)).turnOver = true) ∧ t.me.vec = s.me.vec ∧
      t.me.csr = s.me.csr ∧ (∀ j, j ≠ s.cur.src → t.strand j = s.strand j) ∧ MemSame s t) ∧
    (s.me.csr.tracectl.getLsbD 1 = false → Passes (.mark x) s) ∧
    (∃ t, exec (.mark x) s = .next t ∧ (∀ n, t.rd n = s.rd n) ∧ RunsAt t (s.me.pc + 4) ∧
      (∀ j, j ≠ s.cur.src → t.strand j = s.strand j) ∧ MemSame s t)

/-- R114, R119: the `end` of a quiet strand frees its slot, sets its ENDED bit in its group, ends the group with its last strand,
and adds one to the launch's STRANDS and the strand's FSTAT to its FLAGS; it waits while an engine or a sluice is busy. -/
def Sys2Proof.Claims.EndFreesTheStrand : Prop :=
  ∀ (s : State) (g : Group) (l : Launch),
    (s.me.quiet = true → Idle s → s.me.buf = [] → look s.groups s.me.group = some g → look s.launches s.me.bind.launch = some l →
      ∃ t g' l', exec .endStrand s = .next t ∧ t.me.st = .unbound ∧ (∀ j, j ≠ s.cur.src → t.strand j = s.strand j) ∧ MemSame s t ∧
        look t.groups s.me.group = some g' ∧ g'.ended = g.ended ||| BitVec.ofNat 16 (2 ^ s.me.bind.ix) ∧
        g'.members = g.members.erase s.me.bind.ix ∧ (g.members.erase s.me.bind.ix = [] → g'.state = .ended) ∧
        look t.launches s.me.bind.launch = some l' ∧ l'.strands = l.strands + 1 ∧ l'.flags = l.flags ||| s.me.vec.fstat) ∧
    (s.me.quiet = false → Waits .endStrand s)

/-! ## Queue and page instructions -/

namespace Sys2Proof.Claims
open Machine

/-- The queue s[sa] names is one the strand's context may post to (R97). -/
def MayPost (s : State) (q : Nat) : Prop :=
  q ≤ 1023 ∧ (s.queue q).desc.state ≠ 0 ∧ (s.queue q).desc.postCtx.toNat = s.me.bind.ctx

end Sys2Proof.Claims

/-- R97: `qpost` adds s[sb] to the queue's TAIL in its QCB as one atomic, tells the front-end and returns the new TAIL; a queue that is
free or another context's, or above 1,023, is a queue-access stop (cause 23) with the number in VA; so is a QCB in a frame that takes no
atomic, with DETAIL 16; a count above 255 is an illegal operand. -/
def Sys2Proof.Claims.QpostAdvancesTheTail : Prop :=
  ∀ (s : State) (x : SReg3) (xl : Xl) (p : Place),
    let q := (s.rd x.sa).toNat
    let die := dieOf s.cur.src
    let ctx := (s.queue q).desc.ctxid.toNat
    let qcb := (s.queue q).desc.qcb
    let sec := (s.context ctx).flags.getLsbD 0
    let new := (memNat s p.key 8 + (s.rd x.sb).toNat) % 2 ^ 64
    (MayPost s q → (s.rd x.sb).toNat ≤ 255 → Idle s → NoStrip s → s.accessHeld die ctx sec .atomic qcb = false →
      (MemOk s → s.translate die ctx sec .atomic qcb = .ok xl → xl.place = some p → xl.fme.kind ≠ 5 → s.poisoned p 8 = false →
        s.counted.find (lineOf p.key) = none → NoneOwed s p →
        ∃ t, exec (.qpost x) s = .next t ∧ memNat t p.key 8 = new ∧ MemSameBut s t p.key 8 ∧ (t.queue q).noticed = true ∧
          (∀ k, k ≠ q → t.queue k = s.queue k) ∧ RegsBut s t x.sd ∧ RunsAt t (s.me.pc + 4) ∧
          (x.sd ≠ 0 → (t.rd x.sd).toNat = new) ∧ (∀ j, j ≠ s.cur.src → t.strand j = s.strand j) ∧ t.me.vec = s.me.vec) ∧
      ((s.translate die ctx sec .atomic qcb = .ok xl ∧ xl.place = some p ∧ xl.fme.kind = 5) ∨
          s.translate die ctx sec .atomic qcb = .error 16 →
        TakesException (.qpost x) s s.me.pc (scalarRec s 23 0 (s.rd x.sa) s.me.pc 16))) ∧
    (¬MayPost s q → TakesException (.qpost x) s s.me.pc (scalarRec s 23 0 (s.rd x.sa) s.me.pc 0) ∧
      TakesException (.qhash x) s s.me.pc (scalarRec s 23 0 (s.rd x.sa) s.me.pc 0)) ∧
    (MayPost s q → 255 < (s.rd x.sb).toNat → IllegalOperand (.qpost x) s 5)

/-- R97: `qhash` returns DONE and stores DONE, a zero word and the four words of H, as six scalar stores of the strand in order. -/
def Sys2Proof.Claims.QhashStoresTheChain : Prop :=
  ∀ (s : State) (x : SReg3) (bs : List Byte) (xl : Nat → Xl),
    let q := (s.rd x.sa).toNat
    let va := s.rd x.sb
    let word := fun (o : Nat) => leNat ((bs.drop o).take 8)
    let l1 := (s.die (dieOf s.cur.src)).l1Tlb.getD (coreOf s.cur.src % 16) []
    MayPost s q → va.toNat % 8 = 0 → s.me.hold = true →
    s.accessHeld (dieOf s.cur.src) (s.queue q).desc.ctxid.toNat true .read (s.queue q).desc.qcb = false →
    s.ctxRead (dieOf s.cur.src) (s.queue q).desc.ctxid.toNat (s.queue q).desc.qcb 64 = .ok bs →
    (∀ j, j < 6 → (∃ p, Reaches s .write (va + BitVec.ofNat 64 (8 * j)) 8 (xl j) p) ∧
      ∃ e ∈ l1, e.covers s.me.bind.ctx ((va + BitVec.ofNat 64 (8 * j)).toNat / 65536) = true) →
    ∃ t, exec (.qhash x) s = .next t ∧ AccessStep s t x.sd ∧ MemSame s t ∧ (x.sd ≠ 0 → (t.rd x.sd).toNat = word 8) ∧
      t.me.ssq = s.me.ssq ++ ([(0, word 8), (1, 0), (2, word 16), (3, word 24), (4, word 32), (5, word 40)].map
        (fun (j, w) => (⟨va + BitVec.ofNat 64 (8 * j), (xl j).fa, leBytes 8 w, s.me.openStrip, []⟩ : QStore)))

namespace Sys2Proof.Claims
open Machine

/-- s[sa] names a frame a page instruction can work on, and no table read of its walk waits (R211). -/
def PageAt (s : State) (sa : BitVec 5) (xl : Xl) : Prop :=
  s.walkBusy (dieOf s.cur.src) s.me.bind.ctx (s.rd sa).toNat (some (coreOf s.cur.src)) = false ∧
  s.translate (dieOf s.cur.src) s.me.bind.ctx s.me.bind.secure .page (s.rd sa) (some (coreOf s.cur.src)) = .ok xl

/-- The frame of `dpromo` and `ddemo`: of the package only the executing strand's scalars and the shadow slots of one die changed,
and no byte of memory. -/
def ShadowStep (s t : State) (sd : BitVec 5) (die : Nat) : Prop :=
  { t with strands := s.strands, dies := s.dies } = s ∧ (∀ j, j ≠ s.cur.src → t.strand j = s.strand j) ∧
  (∀ d, d ≠ die → t.die d = s.die d) ∧ { t.die die with shadows := (s.die die).shadows } = s.die die ∧ MemSame s t ∧
  RegsBut s t sd ∧ RunsAt t (s.me.pc + 4)

end Sys2Proof.Claims

/-- R221: `pgstat` gives the frame's KIND, W, S, P, T, promotion and die in their bits; `pgcnt` gives the tracker's count with bit
32, or 0; neither changes anything. -/
def Sys2Proof.Claims.PageStatusAndCount : Prop :=
  ∀ (s : State) (x : SReg2) (xl : Xl), PageAt s x.sa xl →
    WritesSuch (.pgstat x) s x.sd (fun w =>
      w.toNat % 8 = xl.fme.kind ∧ w.getLsbD 3 = xl.fme.w ∧ w.getLsbD 4 = xl.fme.s ∧ w.getLsbD 5 = xl.fme.p ∧
      w.getLsbD 6 = xl.fme.t ∧ (xl.fme.kind ≠ 1 → w.getLsbD 7 = false ∧ w.getLsbD 8 = false) ∧
      (∀ d o, xl.fme.kind = 1 → xl.place = some (.deep d o) →
        w.getLsbD 7 = ((s.die d).shadow? (blockOf o)).isSome ∧ (w.getLsbD 8 = true ↔
          ∃ h, (s.die d).shadow? (blockOf o) = some h ∧ h.pinned = true)) ∧
      w.toNat / 512 = if xl.fme.kind = 1 ∨ xl.fme.kind = 2 then xl.fme.die else 0) ∧
    (xl.fme.kind ≠ 3 → Writes (.pgcnt x) s x.sd 0) ∧
    (∀ n c, xl.fme.kind = 3 → (s.die (dieOf s.cur.src)).counters.find xl.frame = some (n, c) → n < 2 ^ 32 →
      Writes (.pgcnt x) s x.sd (2 ^ 32 + n)) ∧
    (xl.fme.kind = 3 → (s.die (dieOf s.cur.src)).counters.find xl.frame = none → Writes (.pgcnt x) s x.sd 0)

/-- R213, R221: `dpromo` and `ddemo` on a deep block: the status for each state of its shadow slot, and that slot afterwards;
status 3 where the location is not deep; an operation 3 is an illegal operand. -/
def Sys2Proof.Claims.ShadowPromotionStatuses : Prop :=
  ∀ (s : State) (x : SReg3) (y : SReg2) (xl yl : Xl),
    let op := (s.rd x.sb).toNat % 4
    (op = 3 → IllegalOperand (.dpromo x) s 5) ∧
    (PageAt s x.sa xl → xl.fme.p = false → op ≠ 3 → (∀ d o, xl.deepOf ≠ some (d, o)) → Writes (.dpromo x) s x.sd 3) ∧
    (PageAt s y.sa yl → yl.fme.p = false → (∀ d o, yl.deepOf ≠ some (d, o)) → Writes (.ddemo y) s y.sd 3) ∧
    (∀ d o, PageAt s x.sa xl → xl.fme.p = false → xl.deepOf = some (d, o) →
      let blk := blockOf o
      (op ≠ 3 → ∃ t, exec (.dpromo x) s = .next t ∧ ShadowStep s t x.sd d ∧
        ((s.die d).shadow? blk = none → op = 2 → (x.sd ≠ 0 → t.rd x.sd = 4) ∧ t.die d = s.die d) ∧
        ((s.die d).shadow? blk = none → op = 0 → (x.sd ≠ 0 → t.rd x.sd = 0)) ∧
        (∀ k, (s.die d).shadow? blk = none → op = 0 → (s.die d).freeSlot (bandOf blk) = some k →
          (t.die d).shadow? blk = some ⟨bandOf blk, k, blk, false, (s.die d).gtc, true⟩) ∧
        (∀ h, (s.die d).shadow? blk = some h → op = 0 → (x.sd ≠ 0 → t.rd x.sd = 1) ∧
          (t.die d).shadow? blk = some { h with stamp := (s.die d).gtc }) ∧
        (∀ h, (s.die d).shadow? blk = some h → op = 2 →
          (h.pinned = true → (x.sd ≠ 0 → t.rd x.sd = 0) ∧ (t.die d).shadow? blk = some { h with pinned := false }) ∧
          (h.pinned = false → (x.sd ≠ 0 → t.rd x.sd = 1) ∧ t.die d = s.die d)))) ∧
    (∀ d o, PageAt s y.sa yl → yl.fme.p = false → yl.deepOf = some (d, o) →
      let blk := blockOf o
      ∃ t, exec (.ddemo y) s = .next t ∧ ShadowStep s t y.sd d ∧
        ((s.die d).shadow? blk = none → (y.sd ≠ 0 → t.rd y.sd = 4) ∧ t.die d = s.die d) ∧
        (∀ h, (s.die d).shadow? blk = some h →
          (h.pinned = true → s.me.bind.privileged = false → (y.sd ≠ 0 → t.rd y.sd = 2) ∧ t.die d = s.die d) ∧
          (h.pinned = false ∨ s.me.bind.privileged = true → (y.sd ≠ 0 → t.rd y.sd = 0) ∧ (t.die d).shadow? blk = none)))

/-- R77, R216, R221: a privileged `pgmig` returns 6, 5 or 4 where the frame cannot migrate, and otherwise sets W in the frame-map entry
and waits for the migration it has started; memory is untouched. A non-secure one that no status is due to, and whose destination lies in
a secure region, stops with cause 13 before anything moves: that it is tested behind the statuses is the model's reading (log 79). -/
def Sys2Proof.Claims.PgmigStartsTheMigration : Prop :=
  ∀ (s : State) (x : SReg3) (xl : Xl), s.me.bind.privileged = true → PageAt s x.sa xl →
    (∀ m ∈ s.migrations, ¬(m.frame = xl.frame ∧ m.owner = some s.cur.src ∧ m.waits = true)) →
    let d := s.rd x.sb
    (xl.fme.kind = 4 ∨ xl.fme.kind = 5 ∨ xl.fme.p = true → Writes (.pgmig x) s x.sd 6) ∧
    (xl.fme.kind ≠ 4 → xl.fme.kind ≠ 5 → xl.fme.p = false →
      (d.toNat % 8 = 0 ∨ 4 ≤ d.toNat % 8 → Writes (.pgmig x) s x.sd 5) ∧
      (∀ p q, destPlace d 0 = some p → destPlace d 65535 = some q → p.exists = true → q.exists = true →
        (xl.fme.s = false) → (∀ o, xl.place = some o → s.regionSecure o = false) →
        (xl.fme.w = true → Writes (.pgmig x) s x.sd 4) ∧
        (xl.fme.w = false → s.me.bind.secure = false → s.regionSecure p = true →
          TakesException (.pgmig x) s s.me.pc (scalarRec s 13 2 (s.rd x.sa) s.me.pc 0)) ∧
        (xl.fme.w = false → s.me.bind.secure = true ∨ s.regionSecure p = false →
          ∃ t, exec (.pgmig x) s = .next t ∧ t.me.st = .waiting ∧ t.me.wait = .migration xl.frame ∧
          t.me.pc = s.me.pc ∧ (∀ n, t.rd n = s.rd n) ∧ t.mem = s.mem ∧ (t.fmap.getD xl.frame {}).w = true ∧
          ∃ m ∈ t.migrations, m.frame = xl.frame ∧ m.dest = d ∧ m.owner = some s.cur.src)))

/-! ## trap 0, rpt -/

/-- R152: `trap 0` in a running launch whose strands have no store to commit ends the launch: CAUSE 19, FLAGS with the strand's FSTAT,
every group of it ended, no further group placed, and firmware told. -/
def Sys2Proof.Claims.TrapZeroEndsTheLaunch : Prop :=
  ∀ (s u : State) (x : Code12) (l : Launch),
    let k := s.me.bind.launch
    x.code = 0 → s.me.viq = [] → s.me.st = .running → s.me.wait = .none → look s.launches k = some l →
    (s.context s.me.bind.ctx).state ≠ 4 → s.sourceWaits (scalarRec s 33 0 0 s.me.pc 0) = false →
    s.tryPost (dieOf s.cur.src) s.me.bind.ctx (scalarRec s 33 0 0 s.me.pc 0) = .posted u →
    (∀ p ∈ s.groups, p.1.launch = k → ∀ m ∈ p.2.members.map Prod.snd, (s.strand m).buf = [] ∧ (s.strand m).ssq = [] ∧ (s.strand m).lostStore = none) →
    ∃ t l', exec (.trap x) s = .next t ∧ look t.launches k = some l' ∧ l'.cause = 19 ∧ l'.stopped = true ∧
      l'.flags = l.flags ||| s.me.vec.fstat ∧ l'.strands = l.strands ∧ MgmtNote.launchEnded k ∈ t.mgmt ∧
      (∀ key g, look s.groups key = some g → key.launch = k → ∃ g', look t.groups key = some g' ∧ g'.state = .ended) ∧
      (∀ key m, key ≠ k → look s.launches key = some m → look t.launches key = some m)

/-- R162: in all the replays of an `rpt` together, each word of the body executes exactly as often as the trip count says, whatever
its stage. -/
def Sys2Proof.Claims.RptIssuesEachWordTripCountTimes : Prop :=
  ∀ (map : Word) (c f i : Nat), i < f → (List.range (replays map c f)).countP (fun r => executes map c r i) = c

/-- R162, R163, R64: `rpt` issues the convoys of the replay its index names, counts the index up, and stays at its PC; after the last
replay it clears the index and goes past the body; a trip count above 2^32 - 4 is an illegal operand. -/
def Sys2Proof.Claims.RptReplaysItsBody : Prop :=
  ∀ (s : State) (x : RptOp) (ws : List (BitVec 32)) (xs : List (Word × Xl)),
    let c := (s.rd x.sa).toNat
    let map := s.rd x.sb
    let r := map.toNat / 2 ^ 32
    let f := x.fm1.toNat + 1
    let convoys := replayConvoys map c r x.stagger.toNat 0 ws []
    (s.me.replay = none → 2 ^ 32 - 4 < c → IllegalOperand (.rpt x) s 5) ∧
    (s.me.replay = none → c ≤ 2 ^ 32 - 4 →
      s.fetchHeld s.cur.src (s.me.pc + 4) (s.me.pc + 4 + BitVec.ofNat 64 (4 * x.fm1.toNat)) = false →
      s.bodyWords s.cur.src (s.me.pc + 4) f = .ok (ws, xs) →
      (replays map c f ≤ r →
        ∃ t, exec (.rpt x) s = .next t ∧ RunsAt t (s.me.pc + BitVec.ofNat 64 (4 + 4 * f)) ∧ RegsBut s t x.sb ∧
          (x.sb ≠ 0 → (t.rd x.sb).toNat = map.toNat % 2 ^ 32) ∧ t.me.viq = s.me.viq ∧ t.me.replay = none ∧ MemSame s t) ∧
      (r < replays map c f → (∀ p ∈ convoys, convoyBreaks [] p.2 = none) →
        (∀ p ∈ convoys, issueStop s.me.modes (p.2.map (s.givenOf s.cur.src)) 0 = none) →
        s.me.sluiceRoom convoys.length 0 0 0 = true →
        ∃ t, exec (.rpt x) s = .next t ∧ RunsAt t s.me.pc ∧ RegsBut s t x.sb ∧
          (x.sb ≠ 0 → (t.rd x.sb).toNat = map.toNat % 2 ^ 32 + (r + 1) * 2 ^ 32) ∧
          t.me.viq.map Convoy.words = s.me.viq.map Convoy.words ++ convoys.map Prod.snd ∧ MemSame s t))

/-! ## Vector members -/

namespace Sys2Proof.Claims
open Machine

def vlbOf (s : State) : Nat := s.vlb s.cur.src
def ewS (s : State) : Nat := vtEw s.cur.samp.vtype
def gS (s : State) : Nat := vtGroup s.cur.samp.vtype
def vlS (s : State) : Nat := s.cur.samp.vl

/-- Element `j` of the group of `regs` registers at `base`, at width `w` (R63). -/
def el (s : State) (base : BitVec 6) (regs w j : Nat) : Nat := elem (s.me.vec.grp (vlbOf s) base.toNat regs) w j

/-- The member in execution resumes nothing, is not complete by ESTART (R301), and is performed whole in this turn. -/
def Anew (s : State) : Prop :=
  s.cur.resumed = false ∧ s.cur.skip = false ∧ s.cur.first = 0 ∧ s.cur.from_ = 0 ∧ s.cur.limit = none ∧ s.cur.forceBlock = false

/-- A member that starts afresh: it passes the checks at issue of R159, VLB is one of the lengths of R79, VL fits the group, and it
resumes nothing. -/
def Begins (i : Instr) (s : State) : Prop :=
  issueCheck i s.cur.samp s.given = none ∧ Anew s ∧ (∃ k, 9 ≤ k ∧ k ≤ 13 ∧ vlbOf s = 2 ^ k) ∧ vlS s ≤ vlbOf s * gS s / ewS s

/-- The convoy of the member in execution is the oldest, and nothing keeps a stop of it waiting: the eddy checks none of it, and no
member of it has a scalar result (R191, R316). -/
def Oldest (s : State) : Prop :=
  ∃ c r, s.me.viq = c :: r ∧ c.seq = s.cur.seq ∧ c.samp.rchk = 0 ∧ c.eddyDue = [] ∧ c.pendScalar = none

/-- It starts afresh, every register has landed, and no matrix operation waits on its registers. -/
def Fresh (i : Instr) (s : State) : Prop :=
  Begins i s ∧ (∀ n, s.me.vec.fullOf n = 0xFFFF) ∧ s.me.mxq = []

/-- The member is complete: its convoy goes on at the next slot. Of the package only the executing strand changed, and of it only
vector state, the VIQ entry, and which outstanding producers a later write supersedes (R66). -/
def MemberStep (s t : State) : Prop :=
  OnlyStrand s.cur.src s t ∧ MemSame s t ∧
  { t.me with vec := s.me.vec, viq := s.me.viq, lands := s.me.lands, cpq := s.me.cpq } = s.me ∧
  t.me.viq.map (fun c => (c.seq, c.words, c.next, c.snap)) =
    s.me.viq.map (fun c => (c.seq, c.words, if c.seq = s.cur.seq then c.next + 1 else c.next, c.snap))

/-- Of the vector registers only the `regs` at `base` changed, which are full and hold `fill` granules (R65, R66, R158); masks and
grants are as before. -/
def GroupStep (s t : State) (base : BitVec 6) (regs fill : Nat) : Prop :=
  let b := base.toNat
  (∀ n, n < b ∨ b + regs ≤ n →
    t.me.vec.reg n = s.me.vec.reg n ∧ t.me.vec.fillOf n = s.me.vec.fillOf n ∧ t.me.vec.fullOf n = s.me.vec.fullOf n) ∧
  (∀ k, k < regs → t.me.vec.fullOf (b + k) = 0xFFFF ∧ t.me.vec.fillOf (b + k) = min (fill - k * (vlbOf s / 4)) (vlbOf s / 4)) ∧
  t.me.vec.m = s.me.vec.m ∧ t.me.vec.g = s.me.vec.g

/-- FSTAT gathers the classes of the elements that raised them, and each class's event index falls to the lowest such element
(R27, R28). -/
def FlagStep (s t : State) (act : Nat → Prop) (fl : Nat → Nat) : Prop :=
  ∀ k, k < 7 →
    (t.me.vec.fstat.getLsbD k = true ↔ s.me.vec.fstat.getLsbD k = true ∨ ∃ j, act j ∧ (fl j).testBit k = true) ∧
    (∀ j, act j → (fl j).testBit k = true → (t.me.vec.evixOf k).toNat ≤ j) ∧
    (t.me.vec.evixOf k = s.me.vec.evixOf k ∨ ∃ j, act j ∧ (fl j).testBit k = true ∧ (t.me.vec.evixOf k).toNat = j)

/-- A member with a vector destination of `regs` registers at `base`, element width `w`, completes: the elements of `act` take
`res`, every other keeps its value or is zero as the policy says (R158), flags are credited, and nothing else changed. -/
def Lanes (i : Instr) (s : State) (base : BitVec 6) (regs w fill : Nat) (act : Nat → Prop) (res fl : Nat → Nat) : Prop :=
  Fresh i s → (∀ j, act j → trapClass (fl j) (trapEn s.cur.samp.fctl) = none) →
    ∃ t, exec i s = .next t ∧ MemberStep s t ∧ GroupStep s t base regs fill ∧ FlagStep s t act fl ∧
      ∀ j, j < vlbOf s * regs / w →
        (act j → el t base regs w j = res j % 2 ^ w) ∧
        (¬act j → el t base regs w j = if vtZero s.cur.samp.vtype then 0 else el s base regs w j)

/-- A member that writes mask `md` completes (R158, R67). -/
def MaskLanes (i : Instr) (s : State) (md : BitVec 3) (act : Nat → Prop) (res : Nat → Prop) (fl : Nat → Nat) : Prop :=
  Fresh i s → (∀ j, act j → trapClass (fl j) (trapEn s.cur.samp.fctl) = none) →
    ∃ t, exec i s = .next t ∧ MemberStep s t ∧ FlagStep s t act fl ∧
      t.me.vec.v = s.me.vec.v ∧ t.me.vec.fill = s.me.vec.fill ∧ t.me.vec.full = s.me.vec.full ∧ t.me.vec.g = s.me.vec.g ∧
      (∀ n, n ≠ md.toNat → t.me.vec.mask n = s.me.vec.mask n) ∧ t.me.vec.mask 0 = BitVec.allOnes 16384 ∧
      ∀ j, md ≠ 0 → j < 2 * vlbOf s →
        (act j → ((t.me.vec.mask md.toNat).getLsbD j = true ↔ res j)) ∧
        (¬act j → (t.me.vec.mask md.toNat).getLsbD j =
          if vtZero s.cur.samp.vtype then false else (s.me.vec.mask md.toNat).getLsbD j)

/-- A member with a scalar result completes: the value is kept with its convoy, which writes it on retiring (R59). -/
def ScalarMember (i : Instr) (s : State) (sd : BitVec 5) (v : Word) : Prop :=
  Fresh i s →
    ∃ t, exec i s = .next t ∧ MemberStep s t ∧ t.me.vec = s.me.vec ∧
      ∀ c ∈ t.me.viq, c.seq = s.cur.seq → c.pendScalar = some (sd.toNat, v)

/-- The active elements (R158). -/
def act (s : State) (mk : BitVec 2) (j : Nat) : Prop := j < vlS s ∧ (s.me.vec.mask mk.toNat).getLsbD j = true

/-- The last source of a member: the captured scalar, or an element (R160). -/
def lastEl (s : State) (x : V3) (j : Nat) : Nat :=
  if x.kb = 1 then s.cur.op0.toNat % 2 ^ ewS s else el s x.vb (gS s) (ewS s) j

/-- An element as a signed number. -/
def sgn (w n : Nat) : Int := if 2 * n < 2 ^ w then n else (n : Int) - 2 ^ w
/-- A number wrapped to `w` bits (R4). -/
def wrapN (w : Nat) (n : Int) : Nat := (n % 2 ^ w).toNat
/-- A number clamped to a range, with SAT where it was outside (R16). -/
def clampTo (w : Nat) (lo hi v : Int) : Nat × Nat := (wrapN w (max lo (min hi v)), if v < lo ∨ hi < v then 32 else 0)
def loS (w : Nat) : Int := -(2 : Int) ^ (w - 1)
def hiS (w : Nat) : Int := (2 : Int) ^ (w - 1) - 1
def hiU (w : Nat) : Int := (2 : Int) ^ w - 1

/-- A member of the plain families with two sources. -/
def Int3 (i : Instr) (s : State) (x : V3) (f : Nat → Nat → Nat → Nat × Nat) : Prop :=
  let w := ewS s
  let r := fun j => f w (el s x.va (gS s) w j) (lastEl s x j)
  Lanes i s x.vd (gS s) w (vlS s * w / 4) (act s x.mask) (fun j => (r j).1) (fun j => (r j).2)

/-- A member of the plain families with one source. -/
def Int2 (i : Instr) (s : State) (x : V3U) (f : Nat → Nat → Nat) : Prop :=
  let w := ewS s
  Lanes i s x.vd (gS s) w (vlS s * w / 4) (act s x.mask) (fun j => f w (el s x.va (gS s) w j)) (fun _ => 0)

end Sys2Proof.Claims

/-- R164, R16, R29, R158: every integer, logic, shift and saturating form: what each active element becomes, computed on integers,
the classes it raises, and that nothing else changes. -/
def Sys2Proof.Claims.VectorIntegerResults : Prop :=
  ∀ (s : State) (x : V3) (y : V3U),
    Int3 (.vadd x) s x (fun w a b => (wrapN w (a + b : Nat), 0)) ∧
    Int3 (.vsub x) s x (fun w a b => (wrapN w ((a : Int) - b), 0)) ∧
    Int3 (.vmul x) s x (fun w a b => (wrapN w (a * b : Nat), 0)) ∧
    Int3 (.vmulh x) s x (fun w a b => (wrapN w (sgn w a * sgn w b / 2 ^ w), 0)) ∧
    Int3 (.vmulhn x) s x (fun w a b => (a * b / 2 ^ w, 0)) ∧
    Int3 (.vdiv x) s x (fun w a b =>
      if b = 0 then (2 ^ w - 1, 2) else (wrapN w ((sgn w a).tdiv (sgn w b)), if sgn w a = loS w ∧ sgn w b = -1 then 4 else 0)) ∧
    Int3 (.vdivn x) s x (fun w a b => if b = 0 then (2 ^ w - 1, 2) else (a / b, 0)) ∧
    Int3 (.vrem x) s x (fun w a b =>
      if b = 0 then (a, 2) else (wrapN w ((sgn w a).tmod (sgn w b)), if sgn w a = loS w ∧ sgn w b = -1 then 4 else 0)) ∧
    Int3 (.vremn x) s x (fun _ a b => if b = 0 then (a, 2) else (a % b, 0)) ∧
    Int3 (.vmin x) s x (fun w a b => (wrapN w (min (sgn w a) (sgn w b)), 0)) ∧
    Int3 (.vmax x) s x (fun w a b => (wrapN w (max (sgn w a) (sgn w b)), 0)) ∧
    Int3 (.vminn x) s x (fun _ a b => (min a b, 0)) ∧
    Int3 (.vmaxn x) s x (fun _ a b => (max a b, 0)) ∧
    Int3 (.vabsd x) s x (fun w a b => ((sgn w a - sgn w b).natAbs, 0)) ∧
    Int3 (.vand x) s x (fun _ a b => (a &&& b, 0)) ∧
    Int3 (.vor x) s x (fun _ a b => (a ||| b, 0)) ∧
    Int3 (.vxor x) s x (fun _ a b => (a ^^^ b, 0)) ∧
    Int3 (.vsll x) s x (fun w a b => (a * 2 ^ (b % w), 0)) ∧
    Int3 (.vsrl x) s x (fun w a b => (a / 2 ^ (b % w), 0)) ∧
    Int3 (.vsra x) s x (fun w a b => (wrapN w (sgn w a / 2 ^ (b % w)), 0)) ∧
    Int3 (.vrot x) s x (fun w a b => (a * 2 ^ (b % w) % 2 ^ w + a / 2 ^ (w - b % w), 0)) ∧
    Int3 (.vsadd x) s x (fun w a b => clampTo w (loS w) (hiS w) (sgn w a + sgn w b)) ∧
    Int3 (.vssub x) s x (fun w a b => clampTo w (loS w) (hiS w) (sgn w a - sgn w b)) ∧
    Int3 (.vsaddn x) s x (fun w a b => clampTo w 0 (hiU w) ((a : Int) + b)) ∧
    Int3 (.vssubn x) s x (fun w a b => clampTo w 0 (hiU w) ((a : Int) - b)) ∧
    Int2 (.vabs y) s y (fun w a => wrapN w |sgn w a|) ∧
    Int2 (.vneg y) s y (fun w a => wrapN w (-(a : Int))) ∧
    Int2 (.vnot y) s y (fun w a => 2 ^ w - 1 - a)

namespace Sys2Proof.Claims
open Machine

/-- A widening member (R165): the destination is a group of twice the registers and twice the width. -/
def Wide (i : Instr) (s : State) (x : V3) (ext : Nat → Int) (f : Int → Int → Nat → Int) : Prop :=
  let w := ewS s
  let g := 2 * gS s
  Lanes i s x.vd g (2 * w) (vlS s * (2 * w) / 4) (act s x.mask)
    (fun j => wrapN (2 * w) (f (ext (el s x.va (gS s) w j)) (ext (lastEl s x j)) (el s x.vd g (2 * w) j))) (fun _ => 0)

/-- A floating-point member with two sources and the old destination element. -/
def Flt3 (i : Instr) (s : State) (x : V3) (f : FFmt → Rnd → Nat → Nat → Nat → Nat × Nat) : Prop :=
  let w := ewS s
  let fm := (ffmt (vtCode s.cur.samp.vtype)).getD fp32
  let r := fun j => f fm (s.rnd s.cur.samp.rm j) (el s x.va (gS s) w j) (lastEl s x j) (el s x.vd (gS s) w j)
  Lanes i s x.vd (gS s) w (vlS s * w / 4) (act s x.mask) (fun j => (r j).1) (fun j => (r j).2)

/-- A floating-point member with one source. -/
def Flt2 (i : Instr) (s : State) (x : V3U) (f : FFmt → Rnd → Nat → Nat × Nat) : Prop :=
  let w := ewS s
  let fm := (ffmt (vtCode s.cur.samp.vtype)).getD fp32
  let r := fun j => f fm (s.rnd s.cur.samp.rm j) (el s x.va (gS s) w j)
  Lanes i s x.vd (gS s) w (vlS s * w / 4) (act s x.mask) (fun j => (r j).1) (fun j => (r j).2)

end Sys2Proof.Claims

/-- R165: the four widening forms, exact or wrapped at twice the width, with the extension each one names. -/
def Sys2Proof.Claims.VectorWideningResults : Prop :=
  ∀ (s : State) (x : V3),
    let w := ewS s
    let own := fun a : Nat => if vtCode s.cur.samp.vtype ≤ 3 then sgn w a else (a : Int)
    Wide (.vwmac x) s x (sgn w) (fun a b c => c + a * b) ∧
    Wide (.vwmacn x) s x (fun a => a) (fun a b c => c + a * b) ∧
    Wide (.vwmul x) s x own (fun a b _ => a * b) ∧
    Wide (.vwadd x) s x own (fun a b _ => a + b)

/-- R166, R27: the floating-point forms apply the format's operation to each active element in the element's rounding, write the
pattern it gives and credit the classes it raises. What `FFmt.add` gives is stated in FloatSumsAreRoundedOnce. -/
def Sys2Proof.Claims.VectorFloatResults : Prop :=
  ∀ (s : State) (x : V3) (y : V3U),
    Flt3 (.vfadd x) s x (fun f r a b _ => f.add r a b) ∧
    Flt3 (.vfsub x) s x (fun f r a b _ => f.sub r a b) ∧
    Flt3 (.vfmul x) s x (fun f r a b _ => f.mul r a b) ∧
    Flt3 (.vfdiv x) s x (fun f r a b _ => f.div r a b) ∧
    Flt3 (.vfma x) s x (fun f r a b c => f.fma r false a b c) ∧
    Flt3 (.vfms x) s x (fun f r a b c => f.fma r true a b c) ∧
    Flt3 (.vfmin x) s x (fun f _ a b _ => f.minMax false a b) ∧
    Flt3 (.vfmax x) s x (fun f _ a b _ => f.minMax true a b) ∧
    Flt2 (.vfsqrt y) s y (fun f r a => f.sqrt r a) ∧
    Flt2 (.vfabs y) s y (fun f _ a => (a % 2 ^ (f.w - 1), 0)) ∧
    Flt2 (.vfneg y) s y (fun f _ a => ((a + 2 ^ (f.w - 1)) % 2 ^ f.w, 0)) ∧
    Flt2 (.vfclass y) s y (fun f _ a => (f.classOf a, 0))

/-- R19, R20, R166: under RNE the sum of two finite numbers of fp16, bf16 or fp32 is a finite number within half a unit of the exact
sum, or is an infinity with OF and NX raised; NX is raised exactly where a finite result differs from the exact sum. -/
def Sys2Proof.Claims.FloatSumsAreRoundedOnce : Prop :=
  ∀ (code a b : Nat) (f : FFmt) (p q : Bool) (m n : Nat) (d e : Int),
    code ∈ [0x0A, 0x0B, 0x0C] → ffmt code = some f → a < 2 ^ f.w → b < 2 ^ f.w →
    f.value a = .fin p m d → f.value b = .fin q n e →
    let r := f.add rne a b
    let z := min d e
    let exact := scaled p m d z + scaled q n e z
    (∃ neg k u, f.value r.1 = .fin neg k u ∧
      (let y := min u z
       2 * (scaled neg k u y - exact * 2 ^ (z - y).toNat).natAbs ≤ 2 ^ (u - y).toNat ∧
       (r.2.testBit 4 = true ↔ scaled neg k u y ≠ exact * 2 ^ (z - y).toNat))) ∨
    (∃ neg, f.value r.1 = .inf neg ∧ r.2 = 4 + 16)

/-- R167: every compare writes its relation into the active bits of the mask, the others following the policy. -/
def Sys2Proof.Claims.VectorCompareResults : Prop :=
  ∀ (s : State) (x : V3Cmp),
    let w := ewS s
    let a := fun j => el s x.va (gS s) w j
    let b := fun j => if x.kb = 1 then s.cur.op0.toNat % 2 ^ w else el s x.vb (gS s) w j
    let fm := (ffmt (vtCode s.cur.samp.vtype)).getD fp32
    let int := fun (i : Instr) (r : Nat → Prop) => MaskLanes i s x.md (act s x.mask) r (fun _ => 0)
    let flt := fun (i : Instr) (k : Nat) =>
      MaskLanes i s x.md (act s x.mask) (fun j => (fm.cmp k (a j) (b j)).1 = true) (fun j => (fm.cmp k (a j) (b j)).2)
    int (.vcmpeq x) (fun j => a j = b j) ∧ int (.vcmpne x) (fun j => a j ≠ b j) ∧
    int (.vcmplt x) (fun j => sgn w (a j) < sgn w (b j)) ∧ int (.vcmple x) (fun j => sgn w (a j) ≤ sgn w (b j)) ∧
    int (.vcmpltn x) (fun j => a j < b j) ∧ int (.vcmplen x) (fun j => a j ≤ b j) ∧
    flt (.vfcmpeq x) 0 ∧ flt (.vfcmplt x) 1 ∧ flt (.vfcmple x) 2 ∧ flt (.vfcmpun x) 3

/-- R168, R169: the mask instructions on the active bits, and the two that count them. -/
def Sys2Proof.Claims.MaskInstructionResults : Prop :=
  ∀ (s : State) (x : M3) (y : M2) (z : M1) (c : MCount),
    let bit := fun (m : BitVec 3) (j : Nat) => (s.me.vec.mask m.toNat).getLsbD j = true
    let hit := fun j => act s c.mask j ∧ bit c.ma j
    MaskLanes (.mand x) s x.md (act s x.mask) (fun j => bit x.ma j ∧ bit x.mb j) (fun _ => 0) ∧
    MaskLanes (.mor x) s x.md (act s x.mask) (fun j => bit x.ma j ∨ bit x.mb j) (fun _ => 0) ∧
    MaskLanes (.mxor x) s x.md (act s x.mask) (fun j => ¬(bit x.ma j ↔ bit x.mb j)) (fun _ => 0) ∧
    MaskLanes (.mnot y) s y.md (act s y.mask) (fun j => ¬bit y.ma j) (fun _ => 0) ∧
    MaskLanes (.mset z) s z.md (act s z.mask) (fun _ => True) (fun _ => 0) ∧
    MaskLanes (.mclr z) s z.md (act s z.mask) (fun _ => False) (fun _ => 0) ∧
    (∀ l : List Nat, l.Pairwise (· < ·) → (∀ j, j ∈ l ↔ hit j) →
      ScalarMember (.mpop c) s c.sd (BitVec.ofNat 64 l.length) ∧
      ScalarMember (.mfirst c) s c.sd (match l with | j :: _ => BitVec.ofNat 64 j | [] => BitVec.allOnes 64))

/-- R170 to R173: moves, permutes, compress, expand and the readiness bits: which source element each destination element takes. -/
def Obligations.MoveAndPermuteResults : Prop :=
  ∀ (s : State) (x : V3) (b : VBcastOp) (o : VMvsOp) (i : VMsvOp) (u : VSlideOp) (p : V3NoKb) (d : VIdOp) (k : VSelMOp)
    (r : VReadyOp) (sel : List Nat),
    let w := ewS s
    let g := gS s
    let vl := vlS s
    let fill := vl * w / 4
    let none_ := fun _ : Nat => 0
    let n := s.cur.op0.toNat
    let pick := fun j => el s p.vb g w j
    Lanes (.vsel x) s x.vd g w fill (fun j => j < vl)
      (fun j => if (s.me.vec.mask x.mask.toNat).getLsbD j then el s x.va g w j else lastEl s x j) none_ ∧
    Lanes (.vbcast b) s b.vd g w fill (act s b.mask) (fun _ => if b.kb = 1 then n % 2 ^ w else el s b.vb g w 0) none_ ∧
    ScalarMember (.vmvs o) s o.sd
      (BitVec.ofInt 64 (if vtCode s.cur.samp.vtype ≤ 3 then sgn w (el s o.va g w 0) else (el s o.va g w 0 : Int))) ∧
    Lanes (.vmsv i) s i.vd g w fill (fun j => j = 0 ∧ act s i.mask 0) (fun _ => n % 2 ^ w) none_ ∧
    Lanes (.vslideup u) s u.vd g w fill (fun j => act s u.mask j ∧ n ≤ j) (fun j => el s u.va g w (j - n)) none_ ∧
    Lanes (.vslidedn u) s u.vd g w fill (act s u.mask) (fun j => if j + n < vl then el s u.va g w (j + n) else 0) none_ ∧
    Lanes (.vperm p) s p.vd g w fill (act s p.mask) (fun j => if pick j < vl then el s p.va g w (pick j) else 0) none_ ∧
    Lanes (.vid d) s d.vd g w fill (act s d.mask) (fun j => j) none_ ∧
    (sel.Pairwise (· < ·) → (∀ j, j ∈ sel ↔ j < vl ∧ (s.me.vec.mask k.mb.toNat).getLsbD j = true) →
      Lanes (.vcompress k) s k.vd g w (sel.length * w / 4) (fun j => j < sel.length) (fun j => el s k.va g w (sel.getD j 0)) none_ ∧
      Lanes (.vexpand k) s k.vd g w fill (fun j => j ∈ sel) (fun j => el s k.va g w (sel.idxOf j)) none_) ∧
    (Begins (.vready r) s → ∃ t, exec (.vready r) s = .next t ∧ MemberStep s t ∧ t.me.vec = s.me.vec ∧
      ∀ c ∈ t.me.viq, c.seq = s.cur.seq →
        c.pendScalar = some (r.sd.toNat, (s.me.vec.fullOf r.va.toNat).zeroExtend 64))

namespace Sys2Proof.Claims
open Machine

/-- The values of the active source elements, in rising order of element. -/
def actives (s : State) (x : V3) : List Nat :=
  ((List.range (vlS s)).filter (fun j => (s.me.vec.mask x.mask.toNat).getLsbD j)).map (el s x.va (gS s) (ewS s))

/-- A reduction: element 0 of the destination takes the result, the others follow the policy, and fill is one element (R174). -/
def Reduces (i : Instr) (s : State) (x : V3) (res fl : Nat) : Prop :=
  Lanes i s x.vd (gS s) (ewS s) (ewS s / 4) (fun j => j = 0) (fun _ => res) (fun _ => fl)

/-- A scan: each active element takes the running value over the active elements up to it (R175). -/
def Scans (i : Instr) (s : State) (x : V3) (op : Nat → Nat → Nat × Nat) : Prop :=
  let run := fun j => (((List.range j).filter (fun k => (s.me.vec.mask x.mask.toNat).getLsbD k)).map
    (el s x.va (gS s) (ewS s))).foldl (fun t a => (op t a).1) (lastEl s x 0)
  let r := fun j => op (run j) (el s x.va (gS s) (ewS s) j)
  Lanes i s x.vd (gS s) (ewS s) (vlS s * ewS s / 4) (act s x.mask) (fun j => (r j).1) (fun j => (r j).2)

end Sys2Proof.Claims

/-- R42, R43, R174: the integer reductions over the active elements and the initial value, whatever the tree's shape. -/
def Sys2Proof.Claims.IntegerReductionResults : Prop :=
  ∀ (s : State) (x : V3),
    let w := ewS s
    let i := lastEl s x 0
    let l := actives s x
    let key := fun a : Nat => if vtCode s.cur.samp.vtype ≤ 3 then sgn w a else (a : Int)
    Reduces (.vredsum x) s x ((i + l.sum) % 2 ^ w) 0 ∧
    Reduces (.vredmin x) s x (l.foldl (fun a b => if key b < key a then b else a) i) 0 ∧
    Reduces (.vredmax x) s x (l.foldl (fun a b => if key a < key b then b else a) i) 0 ∧
    Reduces (.vredand x) s x (l.foldl (· &&& ·) i) 0 ∧
    Reduces (.vredor x) s x (l.foldl (· ||| ·) i) 0 ∧
    Reduces (.vredxor x) s x (l.foldl (· ^^^ ·) i) 0

/-- R42 to R44, R174, R175: the floating-point reductions in the order of the tree of R42, and the scans in element order. -/
def Sys2Proof.Claims.FloatReductionAndScanResults : Prop :=
  ∀ (s : State) (x : V3),
    let w := ewS s
    let f := (ffmt (vtCode s.cur.samp.vtype)).getD fp32
    let val := fun j => if (s.me.vec.mask x.mask.toNat).getLsbD j then some (el s x.va (gS s) w j) else none
    let sum := reduceList (f.add rne) (f.signBit true) (vlS s) val
    let top := reduceList (f.minMax true) f.nanBits (vlS s) val
    let key := fun a : Nat => if vtCode s.cur.samp.vtype ≤ 3 then sgn w a else (a : Int)
    Reduces (.vfredsum x) s x (f.add rne (lastEl s x 0) sum.1).1 (sum.2 ||| (f.add rne (lastEl s x 0) sum.1).2) ∧
    Reduces (.vfredmax x) s x (f.minMax true (lastEl s x 0) top.1).1 (top.2 ||| (f.minMax true (lastEl s x 0) top.1).2) ∧
    Scans (.vscan x) s x (fun t a => ((t + a) % 2 ^ w, 0)) ∧
    Scans (.vfscan x) s x (fun t a => f.add rne t a) ∧
    Scans (.vscanmax x) s x (fun t a => (if key t ≤ key a then a else t, 0))

/-- R176 to R178: `vcvt` converts each active element to the named type; `vqblk` writes the nibbles and scale bytes of its blocks;
`vdqblk` decodes each nibble under its block's scale byte. -/
def Obligations.ConversionAndBlockResults : Prop :=
  ∀ (s : State) (x : VCvtOp) (q : V3NoMask) (d : V3NoKb),
    let w := ewS s
    let g := gS s
    let code := vtCode s.cur.samp.vtype
    let w' := (ewOf x.etype.toNat).getD 8
    let gn := max 1 (g * 4 / w)
    let cv := fun j => convertElem code x.etype.toNat (s.rnd s.cur.samp.rm j) (el s x.va g w j)
    let y := fun j => nibValue (elem (s.me.vec.grp (vlbOf s) d.vb.toNat 1) 8 (j / 32)) (el s d.va gn 4 j)
    let dq := fun j => packPlain code (s.rnd s.cur.samp.rm j) flRG (y j)
    let nb := (vlS s + 31) / 32
    let blocks := s.quantBlocks s.view (s.me.vec.grp (vlbOf s) q.va.toNat g)
    let nib := fun j => ((blocks.getD (j / 32) (0, [])).2).getD (j % 32) (0, 0)
    Lanes (.vcvt x) s x.vd (max 1 (g * w' / w)) w' (vlS s * w' / 4) (act s x.mask) (fun j => (cv j).1) (fun j => (cv j).2) ∧
    Lanes (.vdqblk d) s d.vd g w (vlS s * w / 4) (act s d.mask) (fun j => (dq j).1)
      (fun j => if (y j).isNan then flNV else (dq j).2) ∧
    (Fresh (.vqblk q) s → (∀ j, j < 32 * nb → trapClass (nib j).2 (trapEn s.cur.samp.fctl) = none) →
      ∃ t, exec (.vqblk q) s = .next t ∧ MemberStep s t ∧ FlagStep s t (fun j => j < 32 * nb) (fun j => (nib j).2) ∧
        (∀ j, j < 32 * nb → el t q.vd gn 4 j = (nib j).1 % 16) ∧
        (∀ b, b < nb → el t q.vb 1 8 b = (blocks.getD b (0, [])).1 % 256) ∧
        (∀ n, (n < q.vd.toNat ∨ q.vd.toNat + gn ≤ n) → n ≠ q.vb.toNat → t.me.vec.reg n = s.me.vec.reg n) ∧
        t.me.vec.m = s.me.vec.m ∧ t.me.vec.g = s.me.vec.g)

/-- R161, R300, R27: a flag whose trap is enabled stops the member at its element: elements below have their results, it and the later
ones keep their values, ESTART names it, its classes are recorded, and the group halts with cause 26 plus the class. -/
def Sys2Proof.Claims.FlagTrapsArePrecise : Prop :=
  ∀ (s u : State) (x : V3) (e k : Nat),
    let w := ewS s
    let a := fun j => el s x.va (gS s) w j
    let r := fun j => clampTo w (loS w) (hiS w) (sgn w (a j) + sgn w (lastEl s x j))
    Fresh (.vsadd x) s → Oldest s → s.me.st = .running → s.me.wait = .none → e < vlS s → act s x.mask e → trapClass (r e).2 (trapEn s.cur.samp.fctl) = some k →
    (∀ j, j < e → act s x.mask j → trapClass (r j).2 (trapEn s.cur.samp.fctl) = none) →
    (s.context s.me.bind.ctx).state ≠ 4 → s.waitingRecs = [] →
    s.tryPost (dieOf s.cur.src) s.me.bind.ctx
      { s.record s.cur.src (26 + k) 0 0 (BitVec.ofNat 32 e) s.cur.slot s.cur.pc 0 with halted := true } = .posted u →
    ∃ t, exec (.vsadd x) s = .next t ∧ t.mem = u.mem ∧ t.me.st = .halted ∧ t.me.csr.estart = BitVec.ofNat 64 e ∧
      (∀ j, j < vlbOf s * gS s / w →
        (e ≤ j → el t x.vd (gS s) w j = el s x.vd (gS s) w j) ∧
        (j < e → act s x.mask j → el t x.vd (gS s) w j = (r j).1 % 2 ^ w)) ∧
      (∀ c, c < 7 → (r e).2.testBit c = true → t.me.vec.fstat.getLsbD c = true)

/-! ## Rill members -/

namespace Sys2Proof.Claims
open Machine

/-- What a rill member leaves (R185, R186, R68): `len` granules of results, the rest of the group under the policy, its fill, the
grant, and nothing else changed but the flags. -/
def RillStep (s t : State) (vd : BitVec 6) (g : BitVec 3) (out len n cona conb prod : Nat) : Prop :=
  MemberStep s t ∧ t.me.vec.m = s.me.vec.m ∧
  (∀ k, k < vd.toNat ∨ vd.toNat + gS s ≤ k → t.me.vec.reg k = s.me.vec.reg k ∧ t.me.vec.fillOf k = s.me.vec.fillOf k) ∧
  (∀ k, k < gS s → t.me.vec.fullOf (vd.toNat + k) = 0xFFFF ∧
    t.me.vec.fillOf (vd.toNat + k) = min (len - k * (vlbOf s / 4)) (vlbOf s / 4)) ∧
  (∀ k, k ≠ g.toNat → t.me.vec.grant k = s.me.vec.grant k) ∧
  (t.me.vec.grant g.toNat).toNat =
    n % 2 ^ 16 + cona % 2 ^ 16 * 2 ^ 16 + conb % 2 ^ 16 * 2 ^ 32 + prod % 2 ^ 16 * 2 ^ 48 ∧
  ∀ j, j < vlbOf s * gS s / 4 →
    (j < len → el t vd (gS s) 4 j = out / 16 ^ j % 16) ∧
    (len ≤ j → out < 16 ^ len → el t vd (gS s) 4 j = if vtZero s.cur.samp.vtype then 0 else el s vd (gS s) 4 j)

/-- A rill source of the executing strand (R182, R185). -/
def rsrc (s : State) (r : BitVec 6) (plain : Option Nat) : RSrc :=
  ⟨s.me.vec.grp (vlbOf s) r.toNat (gS s), s.me.vec.groupFill (vlbOf s) r.toNat (gS s), plain⟩

/-- A rill member completes with what the loop of R185 gives over its sources, with no element where VL is 0 (R199); `w` is the width
of a plain destination. -/
def Rill (i : Instr) (s : State) (vd : BitVec 6) (g : BitVec 3) (w : Option Nat) (a : RSrc) (b : Option RSrc)
    (op : Nat → Nat → Nat → Code → Code → Nat × Nat × Nat) : Prop :=
  let rf := vtCode s.cur.samp.vtype == 0x12
  let f := bitsN s.cur.samp.rfdesc 8 3
  let r := if vlS s = 0 then grantNone a b rf f else grantLoop a b rf f (vlS s) (trapEn s.cur.samp.fctl) op {} (a.fill + 1)
  Fresh i s → r.stop = none →
    ∃ t, exec i s = .next t ∧
      RillStep s t vd g r.out (match w with | some w => r.n * w / 4 | none => r.pd) r.n r.pa r.pb
        (match w with | some _ => r.n | none => r.pd)

/-- Rill arithmetic on two coded sources (R193, R194). -/
def Rill2 (i : Instr) (s : State) (x : RArithOp) (op : Nat → Nat → Nat → Code → Code → Nat × Nat × Nat) : Prop :=
  Rill i s x.vd x.g none (rsrc s x.va none) (some (rsrc s x.vb none)) op

end Sys2Proof.Claims

/-- R35 to R37: the code of every 64-bit number is read back whole by `classify`, with its length and its value. -/
def Obligations.RillCodesReadBack : Prop :=
  ∀ u, u < 2 ^ 64 → classify (packGranules (rnCode u)) 0 (rnCode u).length false 0 = .ok (rnCode u).length u 0

/-- R183, R185 to R187, R192 to R198: every rill instruction that writes a group runs the loop of R185 over its sources with its own
operation, and leaves the results, the fill, the tail and the grant that the loop gives. -/
def Sys2Proof.Claims.RillInstructionResults : Prop :=
  ∀ (s : State) (x : RTypeOp) (y : RArithOp) (z : RUnOp) (f : RFiltOp),
    let kind := vtCode s.cur.samp.vtype
    let ty := x.etype.toNat
    let w := (ewOf ty).getD 8
    let m := s.cur.samp
    let a := rsrc s y.va none
    let b := rsrc s y.vb none
    let rnd := fun n => s.rnd m.rm n
    let draw := fun (stream : Nat) (n : Nat) => srDraw m.rngseed.toNat stream ((m.qbase.toNat + n) % 2 ^ 64)
    Rill (.rdec x) s x.vd x.g (some w) (rsrc s x.va none) none (fun n _ _ c _ =>
      let v := c.int kind
      let r := packPlain ty (rnd n) flRG (.fin (decide (v < 0)) v.natAbs 0)
      (r.1, w / 4, r.2)) ∧
    Rill (.renc x) s x.vd x.g none (rsrc s x.va (some w)) none (fun _ _ _ c _ =>
      rillClamp kind (if ty ≤ 3 then toSigned w c.val else (c.val : Int))) ∧
    Rill2 (.radd y) s y (fun n _ _ c d => s.rillSum false s.view n c d) ∧
    Rill2 (.rsub y) s y (fun n _ _ c d => s.rillSum true s.view n c d) ∧
    Rill2 (.rmin y) s y (fun _ p q c d =>
      if s.keepsA false s.view c d then (a.bits p c.len, c.len, 0) else (b.bits q d.len, d.len, 0)) ∧
    Rill2 (.rmax y) s y (fun _ p q c d =>
      if s.keepsA true s.view c d then (a.bits p c.len, c.len, 0) else (b.bits q d.len, d.len, 0)) ∧
    Rill (.fdec x) s x.vd x.g (some w) (rsrc s x.va none) none (fun n _ _ c _ =>
      let r := packPlain ty (rnd n) flRG (rfValue m.rfdesc c)
      (r.1, w / 4, r.2)) ∧
    Rill (.fenc x) s x.vd x.g none (rsrc s x.va (some w)) none (fun n _ _ c _ =>
      let r := rfCode m.rfdesc (draw (m.rfdesc.toNat / 2 ^ 16 % 2 ^ 16) n) (plainValue ty c.val)
      (packGranules r.1, r.1.length, r.2)) ∧
    Rill (.rlen z) s z.vd z.g (some 8) (rsrc s z.va none) none (fun _ _ _ c _ => (c.len, 2, 0)) ∧
    Rill (.rpos z) s z.vd z.g (some 16) (rsrc s z.va none) none (fun _ p _ _ _ => (p % 2 ^ 16, 4, 0)) ∧
    Rill (.rfilt f) s f.vd f.g none (rsrc s f.va none) none (fun n p _ c _ =>
      if (s.me.vec.mask f.mb.toNat).getLsbD n then ((rsrc s f.va none).bits p c.len, c.len, 0) else (0, 0, 0))

/-- R185, R196: `rdsum` adds the values of its source's codes to element 0 of its register, clamped to the stream's range with SAT
where it clamps, and grants what it consumed. -/
def Sys2Proof.Claims.RillSumAccumulates : Prop :=
  ∀ (s : State) (x : RUnOp),
    let kind := vtCode s.cur.samp.vtype
    let a := rsrc s x.va none
    let r := (sumCodes a kind {} 0 (a.fill + 1)).1
    let old := el s x.vd 1 64 0
    let sum := (if kind = 0x11 then (old : Int) else sgn 64 old) + (sumCodes a kind {} 0 (a.fill + 1)).2
    let lo : Int := if kind = 0x11 then 0 else -2 ^ 63
    let hi : Int := if kind = 0x11 then 2 ^ 64 - 1 else 2 ^ 63 - 1
    Fresh (.rdsum x) s → r.stop = none → s.cur.samp.fctl.getLsbD 9 = false →
      ∃ t, exec (.rdsum x) s = .next t ∧ MemberStep s t ∧ el t x.vd 1 64 0 = wrapN 64 (max lo (min hi sum)) ∧
        (∀ j, 0 < j → j < vlbOf s / 64 → el t x.vd 1 64 j = el s x.vd 1 64 j) ∧
        (∀ k, k ≠ x.vd.toNat → t.me.vec.reg k = s.me.vec.reg k) ∧ t.me.vec.m = s.me.vec.m ∧
        (t.me.vec.grant x.g.toNat).toNat = r.n % 2 ^ 16 + r.pa % 2 ^ 16 * 2 ^ 16 + 2 ^ 48 ∧
        (t.me.vec.fstat.getLsbD 5 = true ↔ s.me.vec.fstat.getLsbD 5 = true ∨ sum < lo ∨ hi < sum)

/-! ## Vector memory members -/

namespace Sys2Proof.Claims
open Machine

/-- The access of element `j`, `n` bytes at `va`, passes every check of R205, R211, R216, R228, R320 and R345, at place `p` and at
every replica it goes to (R235). -/
def ElemAt (s : State) (acc : Access) (va : Word) (n j : Nat) (x : Xl) (p : Place) : Prop :=
  (j ∈ s.cur.watchExempt ∨ s.me.watchHit acc.needsR acc.needsW va.toNat n = false) ∧ va.toNat < 2 ^ 48 ∧ va.toNat % n = 0 ∧
  s.walkBusy (dieOf s.cur.src) s.me.bind.ctx va.toNat (some (coreOf s.cur.src)) = false ∧
  s.translate (dieOf s.cur.src) s.me.bind.ctx s.me.bind.secure acc va (some (coreOf s.cur.src)) = .ok x ∧
  x.place = some p ∧ p.exists = true ∧ (acc.needsW = true → x.fme.w = false) ∧ (acc = .atomic → x.fme.kind ≠ 5) ∧
  ∀ q ∈ s.placesOf x.fme (dieOf s.cur.src) (x.fa % 65536) acc, s.placeBusy q = false ∧ s.poisoned q n = false

/-- The core of the executing strand. -/
def coreMe (s : State) : Core := s.core (coreOf s.cur.src)

/-- `n` aligned bytes at offset `va` of the scratchpad (R226), in lines without poison (R321). -/
def ScratchAt (s : State) (va : Word) (n : Nat) : Prop :=
  va.toNat + n ≤ 65536 * (coreMe s).ways ∧ va.toNat % n = 0 ∧ (coreMe s).scratchBad va.toNat n = false

/-- Every access of the elements `A` passes: to the scratchpad where `scr`, else to memory. -/
def AllReach (s : State) (acc : Access) (scr : Bool) (A : Nat → Prop) (addr : Nat → Word) (n : Nat) (x : Nat → Xl)
    (p : Nat → Place) : Prop :=
  ∀ j, A j → if scr = true then ScratchAt s (addr j) n else ElemAt s acc (addr j) n j (x j) (p j)

/-- What a read of element `j` finds: the strand's own view of memory (R229), or the scratchpad's bytes. -/
def found (s : State) (scr : Bool) (addr : Nat → Word) (n : Nat) (x : Nat → Xl) (p : Nat → Place) (j : Nat) : Nat :=
  if scr = true then leNat (Memory.readBytes (coreMe s).scratch ((coreMe s).scratchKey (addr j).toNat) n)
  else leNat (s.loadBytes s.cur.src (x j) (p j) n)

/-- The convoy of the member in execution goes on at the next slot, and the VIQ is otherwise as it was. -/
def Advanced (s t : State) : Prop :=
  t.me.viq.map (fun c => (c.seq, c.words, c.next)) =
    s.me.viq.map (fun c => (c.seq, c.words, if c.seq = s.cur.seq then c.next + 1 else c.next))

/-- The frame of a vector load: of the package only the executing strand's vector side, cached maps (R208), tracker counters
(R218), clocks (R268), reader counts (R238) and which lines with aliases a cache holds (R273) changed, and what the tracker counts behind
its buffered stores (R280); without a reader count no byte of memory did; no flag is raised. -/
def LoadStep (s t : State) (A : Nat → Prop) (p : Nat → Place) : Prop :=
  { t with strands := s.strands, dies := s.dies, mem := s.mem, counted := s.counted, aliasSeen := s.aliasSeen } = s ∧
  (∀ j, j ≠ s.cur.src → t.strand j = s.strand j) ∧ (∀ d, OnlyTraffic (s.die d) (t.die d)) ∧
  { t.me with vec := s.me.vec, viq := s.me.viq, lands := s.me.lands, cpq := s.me.cpq, tlAsync := s.me.tlAsync, buf := s.me.buf } = s.me ∧
  bufferedWork t.me = bufferedWork s.me ∧ Advanced s t ∧ ((∀ j, A j → s.counted.find (lineOf (p j).key) = none) → MemSame s t) ∧
  t.me.vec.fstat = s.me.vec.fstat ∧ t.me.vec.evix = s.me.vec.evix

/-- An element that a member does not write: it keeps its value, or is zero as the policy says (R158). -/
def Untouched (s t : State) (base : BitVec 6) (regs w j : Nat) : Prop :=
  el t base regs w j = if vtZero s.cur.samp.vtype then 0 else el s base regs w j

/-- A load completes: the active elements take the values found, fill is VL elements (R227, R228, R230). -/
def LoadsGroup (i : Instr) (s : State) (vd : BitVec 6) (mk : BitVec 2) (hint : BitVec 2) (addr : Nat → Word) : Prop :=
  let w := ewS s
  let scr := decide (hint = 2)
  ∀ x p, MemOk s → Fresh i s → AllReach s .read scr (act s mk) addr (w / 8) x p →
    ∃ t, exec i s = .next t ∧ LoadStep s t (act s mk) p ∧ GroupStep s t vd (gS s) (vlS s * w / 4) ∧
      ∀ j, j < vlbOf s * gS s / w →
        (act s mk j → el t vd (gS s) w j = found s scr addr (w / 8) x p j) ∧ (¬act s mk j → Untouched s t vd (gS s) w j)

/-- A long-latency load completes: its reads are performed and are to land; the element groups they land in are empty till then,
every other register and element group is full, fill is VL elements, the other elements follow the policy (R66, R231, R232). -/
def LoadsLater (i : Instr) (s : State) (vd : BitVec 6) (mk : BitVec 2) (hint : BitVec 2) (addr : Nat → Word) : Prop :=
  let w := ewS s
  let b := vd.toNat
  let scr := decide (hint = 2)
  ∀ x p, MemOk s → Fresh i s → AllReach s .read scr (act s mk) addr (w / 8) x p →
    ∃ t, exec i s = .next t ∧ LoadStep s t (act s mk) p ∧ t.me.vec.m = s.me.vec.m ∧ t.me.vec.g = s.me.vec.g ∧
      (∀ n, n < b ∨ b + gS s ≤ n →
        t.me.vec.reg n = s.me.vec.reg n ∧ t.me.vec.fillOf n = s.me.vec.fillOf n ∧ t.me.vec.fullOf n = s.me.vec.fullOf n) ∧
      (∀ k, k < gS s → t.me.vec.fillOf (b + k) = min (vlS s * w / 4 - k * (vlbOf s / 4)) (vlbOf s / 4)) ∧
      (∀ j, j < vlbOf s * gS s / w → ¬act s mk j → Untouched s t vd (gS s) w j) ∧
      (∀ j, act s mk j → ∃ l ∈ t.me.lands, l.seq = s.cur.seq ∧ l.reg = b + j * w / vlbOf s ∧ l.grp = j * w % vlbOf s / 512 ∧
        l.ew = w ∧ l.live = true ∧ (j * w % vlbOf s / w, found s scr addr (w / 8) x p j) ∈ l.elems ∧
        (t.me.vec.fullOf l.reg).getLsbD l.grp = false) ∧
      (∀ k q, k < gS s → q < vlbOf s / 512 →
        (∀ j, act s mk j → ¬(j * w / vlbOf s = k ∧ j * w % vlbOf s / 512 = q)) → (t.me.vec.fullOf (b + k)).getLsbD q = true)

/-- Contiguous, strided and indexed addresses (R230). -/
def unitA (s : State) (j : Nat) : Word := s.cur.op0 + BitVec.ofNat 64 (j * (ewS s / 8))
def strideA (s : State) (j : Nat) : Word := s.cur.op0 + BitVec.ofNat 64 j * s.cur.op1
def indexA (s : State) (vx : BitVec 6) (scaled : Bool) (j : Nat) : Word :=
  s.cur.op0 + BitVec.ofNat 64 (el s vx (gS s) (ewS s) j * (if scaled = true then ewS s / 8 else 1))

end Sys2Proof.Claims

/-- R228, R230 to R232, R226: every vector load form, from memory and from the scratchpad; what a read finds with no store of the
strand pending; and that a first element above bit 47 stops the load with cause 8 at that element, its destination untouched from
there on. -/
def Obligations.VectorLoadResults : Prop :=
  ∀ (s : State) (x : VMUnit) (y : VMStride) (z : VMIndex) (a : VMAsync),
    LoadsGroup (.vld x) s x.vd x.mask x.hint (unitA s) ∧
    LoadsGroup (.vlds y) s y.vd y.mask y.hint (strideA s) ∧
    LoadsLater (.vldx z) s z.vd z.mask z.hint (indexA s z.vx (decide (z.q = 1))) ∧
    LoadsLater (.vlda a) s a.vd a.mask a.hint (if a.q = 1 then strideA s else unitA s) ∧
    (∀ xl p n, MemOk s → s.me.buf = [] → s.flyWrites = [] → leNat (s.loadBytes s.cur.src xl p n) = memNat s p.key n) ∧
    (∀ u e, Fresh (.vld x) s → Oldest s → s.waitingRecs = [] → x.hint ≠ 2 → s.me.st = .running → s.me.wait = .none → act s x.mask e →
      (∀ j, j < e → ¬act s x.mask j) → 2 ^ 48 ≤ (unitA s e).toNat →
      (e ∈ s.cur.watchExempt ∨ s.me.watchHit true false (unitA s e).toNat (ewS s / 8) = false) →
      (s.context s.me.bind.ctx).state ≠ 4 →
      s.tryPost (dieOf s.cur.src) s.me.bind.ctx
        { s.record s.cur.src 8 5 (unitA s e) (BitVec.ofNat 32 e) s.cur.slot s.cur.pc 0 with halted := true } = .posted u →
      ∃ t, exec (.vld x) s = .next t ∧ t.mem = u.mem ∧ t.me.st = .halted ∧ t.me.csr.estart = BitVec.ofNat 64 e ∧
        ∀ j, e ≤ j → j < vlbOf s * gS s / ewS s → el t x.vd (gS s) (ewS s) j = el s x.vd (gS s) (ewS s) j)

namespace Sys2Proof.Claims
open Machine

/-- Memory `b` is memory `a` with the `n` bytes of `v j` at each key of `keys j`, for the elements `A` in rising order: a byte
that several write is the highest one's; every other byte is as before (R233, R234). -/
def StoredAt (a b : Memory) (A : Nat → Prop) (keys : Nat → List Nat) (n : Nat) (v : Nat → Nat) : Prop :=
  (∀ k, (∀ j, A j → ∀ q ∈ keys j, k < q ∨ q + n ≤ k) → Memory.read b k = Memory.read a k) ∧
  ∀ j k, A j → ∀ q ∈ keys j, q ≤ k → k < q + n → (∀ i, j < i → A i → ∀ r ∈ keys i, k < r ∨ r + n ≤ k) →
    Memory.read b k = BitVec.ofNat 8 (v j / 256 ^ (k - q))

/-- The locations an element is stored to: each replica of a replica set where `every` (R235), else the place it reaches. -/
def storeKeys (every : Bool) (x : Xl) (p : Place) : List Nat :=
  if every && x.fme.kind == 5 then
    x.fme.replicaDies.map (fun k => match p with | .deep _ o => (Place.deep k o).key | q => q.key)
  else [p.key]

/-- The frame of a vector store: of the package only the executing strand's queues and what a memory access touches changed, and of the
strand no register, mask, grant or flag. -/
def StoreStep (s t : State) : Prop :=
  OnlyMemorySide s t ∧ (∀ j, j ≠ s.cur.src → t.strand j = s.strand j) ∧
  { t.me with viq := s.me.viq, buf := s.me.buf, strips := s.me.strips } = s.me ∧ Advanced s t

/-- Stores leave for memory at once: the member's convoy has no strip, and nothing keeps a write in flight. -/
def AtOnce (s : State) : Prop :=
  s.memberStrip = none ∧ s.flyHold = false ∧ s.flying s.cur.src = false ∧ ∀ f ∈ s.flyWrites, ∀ p, s.owed (dieOf s.cur.src) p f = false

/-- A vector store completes. To the scratchpad: its bytes are there and memory is untouched. To memory outside a strip: its
bytes are in memory. Inside a strip whose buffer has room and holds no line back: memory is untouched, and the strand reads its own
stores back (R229). -/
def StoresGroup (i : Instr) (s : State) (vs : BitVec 6) (mk : BitVec 2) (hint : BitVec 2) (every : Bool) (addr : Nat → Word) :
    Prop :=
  let n := ewS s / 8
  let A := act s mk
  let v := el s vs (gS s) (ewS s)
  let k := coreOf s.cur.src
  let scr := decide (hint = 2)
  ∀ x p, StateOk s → Fresh i s → AllReach s (if every = true then .writeAll else .write) scr A addr n x p →
    (scr = true →
      ∃ t, exec i s = .next t ∧ StoreStep s { t with cores := s.cores } ∧ MemSame s t ∧ t.me.buf = s.me.buf ∧
        (∀ j, j ≠ k → t.core j = s.core j) ∧ { t.core k with scratch := (s.core k).scratch } = s.core k ∧
        StoredAt (s.core k).scratch (t.core k).scratch A (fun j => [(s.core k).scratchKey (addr j).toNat]) n v) ∧
    (scr = false → AtOnce s →
      ∃ t, exec i s = .next t ∧ StoreStep s t ∧ (s.me.buf = [] → t.me.buf = []) ∧ t.me.strips = s.me.strips ∧
        StoredAt s.mem t.mem A (fun j => storeKeys every (x j) (p j)) n v) ∧
    (∀ q, scr = false → s.memberStrip = some q → s.bufHeld s.cur.src = false →
      (∀ l : List Nat, l.Nodup → (∀ f ∈ l, ∃ j, A j ∧ f = (x j).fa / 64) →
        s.me.buf.length + (if every = true then 8 else 1) * l.length ≤ 512) →
      ∃ t, exec i s = .next t ∧ StoreStep s t ∧ MemSame s t ∧ t.me.strips = s.me.strips ∧
        (s.me.buf = [] → ∀ j, A j → (∀ h, j < h → A h → (x h).fa + n ≤ (x j).fa ∨ (x j).fa + n ≤ (x h).fa) →
          leNat (t.loadBytes s.cur.src (x j) (p j) n) = v j))

/-- A granule access (R180): the nibble a granule address names, odd addresses the high one (R5). -/
def nibbleOf (odd : Bool) (b : Byte) : Nat := if odd = true then b.toNat / 16 else b.toNat % 16

end Sys2Proof.Claims

/-- R226, R229, R233 to R235: every vector store form. -/
def Obligations.VectorStoreResults : Prop :=
  ∀ (s : State) (x : VMUnit) (y : VMStride) (z : VMIndex) (m : VMMulti),
    StoresGroup (.vst x) s x.vd x.mask x.hint false (unitA s) ∧
    StoresGroup (.vsts y) s y.vd y.mask y.hint false (strideA s) ∧
    StoresGroup (.vstx z) s z.vd z.mask z.hint false (indexA s z.vx (decide (z.q = 1))) ∧
    StoresGroup (.vstm m) s m.vd m.mask 0 true (unitA s)

/-- R180, R181, R5: `vldg` loads min(count, VL) granules from a granule address and grants them; `vstg` stores min(count, fill)
granules outside a strip, merging nibbles, and grants what it consumed. -/
def Obligations.GranuleLoadsAndStores : Prop :=
  ∀ (s : State) (x : VGranOp) (xl : Nat → Xl) (p : Nat → Place),
    let ga := s.cur.op0
    let at_ := fun j : Nat => (ga + BitVec.ofNat 64 j) >>> 1
    let odd := fun j : Nat => decide ((ga.toNat + j) % 2 = 1)
    let n := min s.cur.op1.toNat (vlS s)
    let k := min s.cur.op1.toNat (s.me.vec.groupFill (vlbOf s) x.vd.toNat (gS s))
    (MemOk s → Fresh (.vldg x) s → s.me.buf = [] → s.flyWrites = [] →
      (∀ j, j < n → ElemAt s .read (at_ j) 1 j (xl j) (p j)) →
      ∃ t, exec (.vldg x) s = .next t ∧ LoadStep s t (fun j => j < n) p ∧
        GroupStep s { t.upd (fun r => { r with vec := { r.vec with g := s.me.vec.g } }) with cur := s.cur } x.vd (gS s) n ∧
        (∀ h, h ≠ x.g.toNat → t.me.vec.grant h = s.me.vec.grant h) ∧ t.me.vec.grant x.g.toNat = grantWord n 0 0 n ∧
        ∀ j, j < vlbOf s * gS s / 4 →
          (j < n → el t x.vd (gS s) 4 j = nibbleOf (odd j) (Memory.read s.mem (p j).key)) ∧
          (n ≤ j → Untouched s t x.vd (gS s) 4 j)) ∧
    (StateOk s → Fresh (.vstg x) s → AtOnce s → (∀ j, j < k → ElemAt s .write (at_ j) 1 j (xl j) (p j)) →
      ∃ t, exec (.vstg x) s = .next t ∧
        StoreStep s (t.upd (fun r => { r with vec := { r.vec with g := s.me.vec.g } })) ∧
        (∀ h, h ≠ x.g.toNat → t.me.vec.grant h = s.me.vec.grant h) ∧ t.me.vec.grant x.g.toNat = grantWord k k 0 0 ∧
        (∀ a, (∀ j, j < k → (p j).key ≠ a) → Memory.read t.mem a = Memory.read s.mem a) ∧
        ∀ a h, (∃ j, j < k ∧ (p j).key = a) →
          (∀ j, j < k → (p j).key = a → odd j = h → (∀ i, j < i → i < k → (p i).key = a → odd i ≠ h) →
            nibbleOf h (Memory.read t.mem a) = el s x.vd (gS s) 4 j) ∧
          ((∀ j, j < k → (p j).key = a → odd j ≠ h) → nibbleOf h (Memory.read t.mem a) = nibbleOf h (Memory.read s.mem a)))

namespace Sys2Proof.Claims
open Machine

/-- A vector atomic completes outside a strip (R236, R237): the active elements in order each read the old value at their location
and put the new one there; the old values go to the destination where q = 1; the classes are credited. -/
def VectorSwaps (i : Instr) (s : State) (x : VAmoOp) (f : Nat → Nat → Nat → Nat → Nat × Nat) : Prop :=
  let w := ewS s
  let n := w / 8
  let A := act s x.mask
  let b := fun j => el s x.vd (gS s) w j
  let c := fun j => elem (s.me.vec.grp (vlbOf s) (x.vd.toNat + gS s) (gS s)) w j
  ∀ (xl : Nat → Xl) (p : Nat → Place), StateOk s → Fresh i s → AtOnce s → s.flyWrites = [] → s.me.ssq = [] →
    ¬(vtCode s.cur.samp.vtype = 0x0C ∧ s.me.bind.det = true) →
    (∀ j, A j → ElemAt s .atomic (indexA s x.vx false j) n j (xl j) (p j) ∧ s.counted.find (lineOf (p j).key) = none ∧
      (∀ o, trapClass (f w o (b j) (c j)).2 (trapEn s.cur.samp.fctl) = none) ∧
      ∃ e ∈ (s.die (dieOf s.cur.src)).l1Tlb.getD (coreOf s.cur.src % 16) [],
        e.covers s.me.bind.ctx ((indexA s x.vx false j).toNat / 65536) = true) →
    ∃ t, ∃ old : Nat → Nat, exec i s = .next t ∧
      StoreStep s (t.upd (fun r => { r with vec := s.me.vec, lands := s.me.lands, cpq := s.me.cpq })) ∧
      (∀ j, A j → (∀ h, h < j → A h → (p h).key ≠ (p j).key) → old j = memNat s (p j).key n) ∧
      (∀ h j, A h → A j → h < j → (p h).key = (p j).key → (∀ k, h < k → k < j → A k → (p k).key ≠ (p j).key) →
        old j = (f w (old h) (b h) (c h)).1) ∧
      StoredAt s.mem t.mem A (fun j => [(p j).key]) n (fun j => (f w (old j) (b j) (c j)).1) ∧
      FlagStep s t A (fun j => (f w (old j) (b j) (c j)).2) ∧
      (x.q = 1 → GroupStep s t x.vd (gS s) (vlS s * w / 4) ∧ ∀ j, j < vlbOf s * gS s / w →
        (A j → el t x.vd (gS s) w j = old j) ∧ (¬A j → Untouched s t x.vd (gS s) w j)) ∧
      (x.q = 0 → { t.me.vec with fstat := s.me.vec.fstat, evix := s.me.vec.evix } = s.me.vec)

end Sys2Proof.Claims

/-- R236 to R239: the five vector atomics; `vstrc` stores and records the reader count of each line it covers whole, with what
memory held before; `vwait` completes when the counter has reached s[sx], and waits while it has not. -/
def Obligations.VectorAtomicsCountsAndWaits : Prop :=
  ∀ (s : State) (x : VAmoOp) (y : VStrcOp) (z : VWaitOp),
    let fl := decide (vtCode s.cur.samp.vtype = 0x0C)
    let key := fun (w a : Nat) => if vtCode s.cur.samp.vtype ≤ 3 then sgn w a else (a : Int)
    VectorSwaps (.vamoadd x) s x (fun w o b _ => if fl = true then fp32.add rne o b else ((o + b) % 2 ^ w, 0)) ∧
    VectorSwaps (.vamoswap x) s x (fun _ _ b _ => (b, 0)) ∧
    VectorSwaps (.vamocas x) s x (fun _ o b c => (if o = c then b else o, 0)) ∧
    VectorSwaps (.vamomin x) s x (fun w o b _ => (if key w b < key w o then b else o, 0)) ∧
    VectorSwaps (.vamomax x) s x (fun w o b _ => (if key w o < key w b then b else o, 0)) ∧
    (∀ xl p, StateOk s → Fresh (.vstrc y) s → AtOnce s → s.counted = [] → AllReach s .write false (act s y.mask) (unitA s) (ewS s / 8) xl p →
      let n := ewS s / 8
      let A := act s y.mask
      let whole := fun L => ∀ a, 64 * L ≤ a → a < 64 * L + 64 → ∃ j, A j ∧ (p j).key ≤ a ∧ a < (p j).key + n
      ∃ t, exec (.vstrc y) s = .next t ∧ StoreStep s t ∧ (s.me.buf = [] → t.me.buf = []) ∧
        StoredAt s.mem t.mem A (fun j => [(p j).key]) n (el s y.vd (gS s) (ewS s)) ∧
        (∀ L, whole L → t.counted.find L = some ⟨s.cur.op1.toNat, s.memLine L⟩) ∧
        (∀ L, ¬whole L → t.counted.find L = none)) ∧
    (∀ xl p, Anew s → s.counted.find (lineOf p.key) = none → ElemAt s .read s.cur.op0 8 0 xl p →
      let v := leNat (s.loadBytes s.cur.src xl p 8)
      (s.cur.op1.toNat ≤ v →
        ∃ t, exec (.vwait z) s = .next t ∧ LoadStep s t (fun _ => False) (fun _ => p) ∧ t.me.vec = s.me.vec ∧ MemSame s t) ∧
      (v < s.cur.op1.toNat → exec (.vwait z) s = .next s))

/-! ## Braid lines, cache operations, the scratchpad -/

namespace Sys2Proof.Claims
open Machine

/-- Line `j` of a braid instruction passes its checks, and is `b` (R205, R240, R243, R344). -/
def LineAt (s : State) (acc : Access) (j : Nat) (b : BraidLine) : Prop :=
  let va := s.cur.op0 + BitVec.ofNat 64 (64 * j)
  s.me.watchHit acc.needsR acc.needsW va.toNat 64 = false ∧ s.lineMeet acc false none j va = .ok b

/-- Lines of the braid instruction in execution. -/
def linesS (s : State) : Nat := vlS s * ewS s / 512

/-- The frame of a braid instruction: of the package only the strand's record, cached maps, replicas with the caches' lines over them,
their tags, and the answers and writes still on their way changed, and of the strand only vector registers, the VIQ, outstanding producers, the strip's WHY
and its last timestamp. -/
def BraidStep (s t : State) : Prop :=
  { t with strands := s.strands, dies := s.dies, mem := s.mem, braidTag := s.braidTag, braidAnswers := s.braidAnswers,
           braidWrites := s.braidWrites, replicaPick := s.replicaPick, counted := s.counted, l1 := s.l1, msc := s.msc,
           aliasSeen := s.aliasSeen, poison := s.poison } = s ∧
  (∀ j, j ≠ s.cur.src → t.strand j = s.strand j) ∧ (∀ d, OnlyTraffic (s.die d) (t.die d)) ∧
  { t.me with vec := s.me.vec, viq := s.me.viq, lands := s.me.lands, cpq := s.me.cpq, strips := s.me.strips,
              lastBraid := s.me.lastBraid } = s.me ∧ Advanced s t

/-- Memory changed at most in the lines of the replicas listed. -/
def OnlyReplicas (s t : State) (l : List (Nat × Nat)) : Prop :=
  ∀ a, (∀ r ∈ l, a / 64 ≠ lineOf (replicaPlace r).key) → Memory.read t.mem a = Memory.read s.mem a

/-- The replicas that answer for a line, in the order they answer, and after them those whose copy is uncorrectable (R320). -/
def repl (s : State) (b : BraidLine) : List (Nat × Nat) :=
  (s.goodReplicas (s.windowOf b) b.line ++ s.badReplicas (s.windowOf b) b.line).map Replica.at_

/-- The window of a line has its replicas on line boundaries (R214). -/
def OnLines (s : State) (b : BraidLine) : Prop :=
  (s.windowOf b).size / 8 % 64 = 0 ∧ ∀ d, (s.windowOf b).bases.getD d 0 % 64 = 0

/-- Lines of the range a cache instruction names (R244). -/
def cacheCount (s : State) : Nat :=
  let a := s.cur.op0.toNat
  if s.cur.op1 = 0 then 0 else (a + s.cur.op1.toNat - 1) / 64 - a / 64 + 1

/-- The strand has no write on its way, and every line of the range translates, to place `p`, and waits for no PC copy (R211). -/
def CacheAt (s : State) (acc : Access) (x : Nat → Xl) (p : Nat → Place) : Prop :=
  s.flying s.cur.src = false ∧ ∀ j, j < cacheCount s →
    let va := s.cur.op0 - BitVec.ofNat 64 (s.cur.op0.toNat % 64) + BitVec.ofNat 64 (64 * j)
    s.walkBusy (dieOf s.cur.src) s.me.bind.ctx va.toNat (some (coreOf s.cur.src)) = false ∧
    s.translate (dieOf s.cur.src) s.me.bind.ctx s.me.bind.secure acc va (some (coreOf s.cur.src)) = .ok (x j) ∧
    (x j).place = some (p j) ∧ (p j).exists = true ∧ s.placeBusy (p j) = false

/-- The MSCs have room for every line that the L1s hold (R225). -/
def MscRoom (s : State) : Prop := s.msc.length + s.l1.length + s.counted.length ≤ mscCapacity

/-- No line names the bytes of another (R273). -/
def NoAliases (s : State) : Prop := s.aliases = [] ∧ s.aliasMem = [] ∧ s.aliasSeen = []

/-- The frame of a cache operation: of the package only the executing strand's VIQ and buffer, cached maps, memory, and what the caches
hold. -/
def CacheStep (s t : State) : Prop :=
  { t with strands := s.strands, dies := s.dies, mem := s.mem, counted := s.counted, l1 := s.l1, msc := s.msc } = s ∧
  (∀ j, j ≠ s.cur.src → t.strand j = s.strand j) ∧ (∀ d, OnlyTraffic (s.die d) (t.die d)) ∧
  { t.me with viq := s.me.viq, buf := s.me.buf } = s.me ∧ Advanced s t

end Sys2Proof.Claims

/-- R215, R240 to R242: of two different tags exactly one is newer; a braid instruction on whole lines completes; a load of one
line takes the newer of the first two answers and brings both replicas to its tag; a store of one line puts its data and tag in
the first two replicas whose tags are older and leaves the rest on its way, and waits where its timestamp was used; a repair
leaves every replica that answers with the newest tag among them. -/
def Obligations.BraidReadsWritesAndRepairs : Prop :=
  ∀ (s : State) (x : BraidOp) (y : SAddrOp) (b : Nat → BraidLine),
    let p := (repl s (b 0)).getD 0 (0, 0)
    let q := (repl s (b 0)).getD 1 (0, 0)
    let ts := s.braidStamp
    let tag : Word := ts * 1024 + BitVec.ofNat 64 s.cur.src
    let data := BitVec.ofNat 512 (el s x.vd (gS s) 512 0)
    (∀ u v : Word, u ≠ v → (newerTag u v = true ↔ newerTag v u = false)) ∧
    (StateOk s → OnLines s (b 0) → Fresh (.mjld x) s → s.cur.op0.toNat % 64 = 0 → (∀ j, j < linesS s → LineAt s .braidRead j (b j)) →
      ∃ t, exec (.mjld x) s = .next t ∧ BraidStep s t ∧ GroupStep s t x.vd (gS s) (vlS s * ewS s / 4) ∧
        (linesS s = 1 →
          let n := s.newerReplica p q
          el t x.vd (gS s) 512 0 = (s.replicaData n).toNat ∧ OnlyReplicas s t [p, q] ∧
          t.replicaTag p = s.replicaTag n ∧ t.replicaTag q = s.replicaTag n ∧
          ∀ j, 0 < j → j < vlbOf s * gS s / 512 → Untouched s t x.vd (gS s) 512 j)) ∧
    (StateOk s → OnLines s (b 0) → Fresh (.mjst x) s → s.cur.op0.toNat % 64 = 0 → (∀ j, j < linesS s → LineAt s .braidWrite j (b j)) →
      (s.me.lastBraid = some ts → exec (.mjst x) s = .next s) ∧
      (s.me.lastBraid ≠ some ts → ∃ t, exec (.mjst x) s = .next t ∧ BraidStep s t ∧ t.me.vec = s.me.vec ∧
        t.me.lastBraid = some ts ∧ (∀ k, (t.replicaTag k = s.replicaTag k ∨ t.replicaTag k = tag)) ∧
        (linesS s = 1 → OnlyReplicas s t [p, q] ∧
          (∀ k ∈ [p, q], s.replicaBad k = true ∨ newerTag tag (s.replicaTag k) = true →
            t.replicaTag k = tag ∧ t.replicaData k = data) ∧
          (∀ k ∈ [p, q], s.replicaBad k = false → newerTag tag (s.replicaTag k) = false →
            t.replicaTag k = s.replicaTag k ∧ t.replicaData k = s.replicaData k) ∧
          t.braidWrites = s.braidWrites ++ ((repl s (b 0)).drop 2).map (fun k => ⟨k.1, k.2, data, tag⟩)))) ∧
    (StateOk s → OnLines s (b 0) → Begins (.mjrep y) s → s.cur.op0.toNat % 64 = 0 → (∀ j, j < linesS s → LineAt s .braidRead j (b j)) →
      ∃ t, exec (.mjrep y) s = .next t ∧ BraidStep s t ∧ t.me.vec = s.me.vec ∧
        (linesS s = 1 → OnlyReplicas s t (repl s (b 0)) ∧
          ∀ m ∈ repl s (b 0), s.replicaBad m = false →
            (∀ k ∈ repl s (b 0), s.replicaBad k = true ∨ s.replicaTag k = s.replicaTag m ∨
              newerTag (s.replicaTag m) (s.replicaTag k) = true) →
            ∀ k ∈ repl s (b 0), t.replicaTag k = s.replicaTag m))

/-- R244, R245, R238, R262, R273: over every line of its range `cflush` writes back what the L1s hold dirty, at level 01 what the MSCs hold
too, and changes no byte that a read returns; behind stores that the strand has buffered it takes its place in their order; `cinv` drops what the L1s hold dirty, at level 01 all that lies over memory, so that reads
return what was under it, and of the strand's buffered stores what they put there; lines outside the range stay as they are; a line with aliases that is written back and then dropped under its
other name reads as written; `l1cfg` sets the scratchpad's ways, whose remaining bytes stay and whose new ones are zero, and is refused
with cause 22 beside another launch. -/
def Obligations.CacheAndScratchpadControl : Prop :=
  ∀ (s : State) (x : CacheOp) (y : SAddrOp) (xl : Nat → Xl) (p : Nat → Place),
    let hit := fun a : Nat => ∃ j, j < cacheCount s ∧ lineOf (p j).key = a / 64
    let k := coreOf s.cur.src
    let n := s.cur.op0.toNat
    (NoAliases s → Begins (.cflush x) s → CacheAt s .read xl p → s.me.buf ≠ [] →
      ∃ t, exec (.cflush x) s = .next t ∧ CacheStep s t ∧ t.mem = s.mem ∧ t.l1 = s.l1 ∧ t.msc = s.msc ∧ t.counted = s.counted ∧
        bufLines t.me.buf = bufLines s.me.buf ∧
        ∀ j, j < cacheCount s → ∃ b ∈ t.me.buf, b.op = .flush (decide (x.level = 1)) ∧ b.fa = (xl j).fa / 64 * 64) ∧
    (NoAliases s → Begins (.cflush x) s → CacheAt s .read xl p → s.me.buf = [] → MscRoom s →
      ∃ t, exec (.cflush x) s = .next t ∧ CacheStep s t ∧ MemSame s t ∧
        (∀ a, hit a → t.inL1 (a / 64) = none ∧ t.counted.find (a / 64) = none ∧ (x.level = 1 → t.msc.find (a / 64) = none)) ∧
        (∀ a, ¬hit a → t.inL1 (a / 64) = s.inL1 (a / 64) ∧ t.counted.find (a / 64) = s.counted.find (a / 64) ∧
          t.msc.find (a / 64) = s.msc.find (a / 64))) ∧
    (StateOk s → NoAliases s → Begins (.cinv x) s → CacheAt s .write xl p →
      ∃ t, exec (.cinv x) s = .next t ∧ CacheStep s t ∧ (∀ a, ¬hit a → Memory.read t.mem a = Memory.read s.mem a) ∧
        (x.level ≠ 1 → t.counted = s.counted ∧ t.msc = s.msc ∧ ∀ a, hit a → some (Memory.read t.mem a) =
          (match s.inL1 (a / 64) with | some l => l.under[a % 64]? | none => some (Memory.read s.mem a))) ∧
        (x.level = 1 → (∀ a, hit a → some (Memory.read t.mem a) = (s.memLine (a / 64))[a % 64]?) ∧
          ∀ j, j < cacheCount s → ∀ b ∈ t.me.buf, b.fa = (xl j).fa / 64 * 64 → b.replica = (xl j).replica (dieOf s.cur.src) → b.mask = 0)) ∧
    (∀ a b, StateOk s → a ≠ b → s.aliasOf a = a → s.aliases.find b = some a → ((s.inL1 a).isSome ∨ (s.msc.find a).isSome) →
      ((s.writeBack a).dropLine b).lineBytes b = s.lineBytes a) ∧
    (Begins (.l1cfg y) s → s.me.ssq = [] → s.me.lands = [] → s.me.cpq = [] → s.flying s.cur.src = false →
      ((∀ e ∈ s.strands, coreOf e.1 = k → e.2.st = .unbound ∨ e.2.bind.launch = s.me.bind.launch) →
        StateOk s →
        ∃ t, exec (.l1cfg y) s = .next t ∧ { t with strands := s.strands, cores := s.cores, l1 := s.l1, msc := s.msc } = s ∧
          t.me.vec = s.me.vec ∧
          Advanced s t ∧ (∀ j, j ≠ k → t.core j = s.core j) ∧ (t.core k).ways = n ∧
          ∀ a, Memory.read (t.core k).scratch a =
            if (16 - min (s.core k).ways n) * 65536 ≤ a then Memory.read (s.core k).scratch a else 0) ∧
      (∀ u, (∃ e ∈ s.strands, coreOf e.1 = k ∧ e.2.st ≠ .unbound ∧ e.2.bind.launch ≠ s.me.bind.launch) →
        Oldest s → s.waitingRecs = [] → s.me.st = .running → s.me.wait = .none → (s.context s.me.bind.ctx).state ≠ 4 →
        s.tryPost (dieOf s.cur.src) s.me.bind.ctx
          { s.record s.cur.src 22 0 0 0xFFFFFFFF s.cur.slot s.cur.pc 0 with halted := true } = .posted u →
        ∃ t, exec (.l1cfg y) s = .next t ∧ t.mem = u.mem ∧ t.me.st = .halted ∧ (t.core k).ways = (s.core k).ways))

/-! ## Copies, landings, timelines, matrix operations -/

namespace Sys2Proof.Claims
open Machine

/-- The frame of an engine member: it joins its queue; of the package only the executing strand changed, and of it only vector
registers, the VIQ, the queues and outstanding producers. -/
def EngineStep (s t : State) : Prop :=
  OnlyStrand s.cur.src s t ∧ MemSame s t ∧ Advanced s t ∧
  { t.me with vec := s.me.vec, viq := s.me.viq, cpq := s.me.cpq, mxq := s.me.mxq, lands := s.me.lands } = s.me ∧
  t.me.vec.m = s.me.vec.m ∧ t.me.vec.g = s.me.vec.g ∧ t.me.vec.fstat = s.me.vec.fstat

/-- An engine member starts with nothing of the strand's scalar stores queued or on its way and no strip of its own. -/
def Issues (i : Instr) (s : State) : Prop :=
  Fresh i s ∧ s.me.ssq = [] ∧ s.memberStrip = none ∧ s.cur.cpLine = none ∧ s.flying s.cur.src = false

/-- The number the member's convoy holds. -/
def copyNum (s : State) : Nat := (s.convoy?.bind Convoy.nCp).getD 0
def mxNum (s : State) : Nat := (s.convoy?.bind Convoy.nMx).getD 0

/-- The page of an address is cached on the strand's die. -/
def Cached (s : State) (src : Nat) (va : Word) : Prop :=
  ∃ e ∈ (s.die (dieOf src)).tlb, e.covers (s.strand src).bind.ctx (va.toNat / 65536) = true

/-- Lines of a copy (R249). -/
def copyLines (o : CpOp) : Nat := (o.len + 63) / 64

/-- A strand's first copy moves plain bytes from its start, none of its writes waits for an acknowledgement, and its source lines read
`bs`, free of poison (R249, R253, R321). -/
def Reads (s : State) (src : Nat) (o : CpOp) (bs : Nat → List Byte) (rest : List CpOp) : Prop :=
  (s.strand src).cpq = o :: rest ∧ (∀ c ∈ rest, c.num ≠ o.num) ∧ (s.strand src).cpHeld = false ∧ o.decrypt = false ∧ o.line = 0 ∧
  o.hint ≠ 2 ∧ o.sent = false ∧ s.copyAcked src o.num = true ∧ s.counted = [] ∧ s.flyWrites = [] ∧ StateOk s ∧
  ∀ i, i < copyLines o → ∃ ps, s.pieces src .read (o.src + BitVec.ofNat 64 (64 * i)) (min 64 (o.len - 64 * i)) = .ok ps ∧
    bs i = ps.flatMap (fun q => s.readPlace q.p q.n) ∧ ∀ q ∈ ps, s.poisoned q.p q.n = false ∧ Cached s src q.va

/-- A copy is complete: it has left the CPQ, its number is complete, and its strand runs as before. -/
def CopyEnds (s t : State) (src : Nat) (o : CpOp) (rest : List CpOp) : Prop :=
  (∀ j, j ≠ src → t.strand j = s.strand j) ∧ (∀ d, OnlyTraffic (s.die d) (t.die d)) ∧ (t.strand src).cpq = rest ∧
  (t.strand src).tlCopy = { (s.strand src).tlCopy with complete := (s.strand src).tlCopy.complete ++ [o.num] } ∧
  (t.strand src).viq.map (fun c => { c with snap := none }) = (s.strand src).viq.map (fun c => { c with snap := none }) ∧
  { t.strand src with cpq := (s.strand src).cpq, tlCopy := (s.strand src).tlCopy, vec := (s.strand src).vec, viq := (s.strand src).viq,
                      slots := (s.strand src).slots, slotPoison := (s.strand src).slotPoison } = s.strand src

end Sys2Proof.Claims

/-- R248, R251, R252: each copy member joins the CPQ with its number, source, destination and length; `cpyv` sets the fill of its
group at issue and empties the element groups its lines are to fill. -/
def Sys2Proof.Claims.CopyMembersJoinTheQueue : Prop :=
  ∀ (s : State) (x : CpyOp) (y : CpyvOp) (z : CpywOp),
    let lines := (vlS s * (ewS s / 8) + 63) / 64
    let g := fun (k q : Nat) => ∃ i, i < lines ∧ i * 512 / vlbOf s = k ∧ i * 512 % vlbOf s / 512 = q
    (Issues (.cpy x) s → ∃ t o, exec (.cpy x) s = .next t ∧ EngineStep s t ∧ t.me.vec = s.me.vec ∧ t.me.cpq = s.me.cpq ++ [o] ∧
      o.num = copyNum s ∧ o.kind = .cpy ∧ o.src = s.cur.op0 ∧ o.dst = s.cur.cpyDst.toNat ∧ o.len = s.cur.op1.toNat ∧ o.line = 0 ∧
      o.decrypt = (x.q == 1) ∧ o.chunk = s.cur.cpyChunk ∧ o.hint = x.hint.toNat) ∧
    (Issues (.cpyv y) s → ∃ t o, exec (.cpyv y) s = .next t ∧ EngineStep s t ∧ (∃ q, t.me.cpq = q ++ [o]) ∧ o.num = copyNum s ∧
      o.kind = .cpyv ∧ o.src = s.cur.op0 ∧ o.dst = y.vd.toNat ∧ o.len = vlS s * (ewS s / 8) ∧
      (∀ k, k < gS s → t.me.vec.fillOf (y.vd.toNat + k) = min (vlS s * ewS s / 4 - k * (vlbOf s / 4)) (vlbOf s / 4)) ∧
      (∀ k q, k < gS s → q < vlbOf s / 512 → ((t.me.vec.fullOf (y.vd.toNat + k)).getLsbD q = true ↔ ¬g k q)) ∧
      (∀ n, n < y.vd.toNat ∨ y.vd.toNat + gS s ≤ n →
        t.me.vec.reg n = s.me.vec.reg n ∧ t.me.vec.fillOf n = s.me.vec.fillOf n ∧ t.me.vec.fullOf n = s.me.vec.fullOf n)) ∧
    (Issues (.cpyw z) s → ∃ t o, exec (.cpyw z) s = .next t ∧ EngineStep s t ∧ t.me.vec = s.me.vec ∧ t.me.cpq = s.me.cpq ++ [o] ∧
      o.num = copyNum s ∧ o.kind = .cpyw ∧ o.src = s.cur.op0 ∧ o.dst = z.slot.toNat ∧ o.len = s.cur.op1.toNat)

/-- R248, R249, R251, R252, R272: the copy engine carries out the strand's first copy: a `cpy` leaves its source's bytes at its
destination, though they overlap, and every other byte as it was, and is complete where no acknowledgement of a write is outstanding;
a `cpyv` writes each line into the registers no later write has superseded and marks
its element group full; a `cpyw` writes its slot. -/
def Sys2Proof.Claims.CopyEngineMovesBytes : Prop :=
  ∀ (s : State) (src : Nat) (o : CpOp) (bs : Nat → List Byte) (rest : List CpOp) (pw : Nat → List Piece),
    let u := s.strand src
    let vlb := s.vlb src
    (∀ o', u.cpq = o' :: rest → (∀ c ∈ rest, c.num ≠ o'.num) → u.cpHeld = false → o'.kind = .cpy → o'.sent = true →
      (s.copyAcked src o'.num = true → ∃ t, exec (.copyEngineStart src) s = .next t ∧ CopyEnds s t src o' rest ∧ MemSame s t) ∧
      (s.copyAcked src o'.num = false → ∃ t, exec (.copyEngineStart src) s = .next t ∧ (t.strand src).cpq = u.cpq ∧ MemSame s t)) ∧
    (Reads s src o bs rest →
    (o.kind = .cpy →
      (∀ i, i < copyLines o → s.pieces src .write (BitVec.ofNat 64 (o.dst + 64 * i)) (bs i).length = .ok (pw i) ∧
        ∀ q ∈ pw i, s.poisoned q.p q.n = false ∧ Cached s src q.va ∧ ∀ a, q.p ≠ .host a) →
      (∀ i j, i < copyLines o → j < copyLines o → ∀ q ∈ pw i, ∀ r ∈ pw j,
        (i = j ∧ q = r) ∨ q.p.key + q.n ≤ r.p.key ∨ r.p.key + r.n ≤ q.p.key) →
      ∃ t, exec (.copyEngineStart src) s = .next t ∧ CopyEnds s t src o rest ∧ (t.strand src).vec = u.vec ∧
        (t.strand src).slots = u.slots ∧
        (∀ i, i < copyLines o → ∀ q ∈ pw i, ∀ k, k < q.n →
          some (Memory.read t.mem (q.p.key + k)) = (bs i)[q.off + k]?) ∧
        (∀ a, (∀ i, i < copyLines o → ∀ q ∈ pw i, a < q.p.key ∨ q.p.key + q.n ≤ a) → Memory.read t.mem a = Memory.read s.mem a)) ∧
    (o.kind = .cpyv → o.src.toNat % (o.ew / 8) = 0 → o.live.Nodup → (∃ k, 9 ≤ k ∧ k ≤ 13 ∧ vlb = 2 ^ k) →
      ∃ t, exec (.copyEngineStart src) s = .next t ∧ CopyEnds s t src o rest ∧ MemSame s t ∧ (t.strand src).slots = u.slots ∧
        (∀ i, i < copyLines o → o.dst + i * 512 / vlb ∈ o.live →
          elem ((t.strand src).vec.reg (o.dst + i * 512 / vlb)).toNat 512 (i * 512 % vlb / 512) % 2 ^ (8 * (bs i).length) = leNat (bs i) ∧
          ((t.strand src).vec.fullOf (o.dst + i * 512 / vlb)).getLsbD (i * 512 % vlb / 512) = true) ∧
        (∀ n, n ∉ o.live → (t.strand src).vec.reg n = u.vec.reg n ∧ (t.strand src).vec.fullOf n = u.vec.fullOf n)) ∧
    (o.kind = .cpyw → u.slotRead o = false → Memory.wf u.slots = true → u.slotPoison = [] →
      ∃ t, exec (.copyEngineStart src) s = .next t ∧ CopyEnds s t src o rest ∧ MemSame s t ∧ (t.strand src).vec = u.vec ∧
        (∀ i k, i < copyLines o → k < (bs i).length →
          some (Memory.read (t.strand src).slots (o.dst * 32768 + 64 * i + k)) = (bs i)[k]?) ∧
        (∀ a, a < o.dst * 32768 ∨ o.dst * 32768 + o.len ≤ a → Memory.read (t.strand src).slots a = Memory.read u.slots a)))

/-- R66, R231, R246: a landing writes its elements into its register and marks its element group full, unless a later write has
superseded it; the counter of a timeline takes the largest number up to which all are complete, and is written to memory. -/
def Sys2Proof.Claims.LandingsAndTimelineCounters : Prop :=
  ∀ (s w : State) (src ix k n : Nat) (l : Landing),
    let u := s.strand src
    let tl := u.timeline k
    (u.lands[ix]? = some l →
      ∃ t, exec (.elementGroupLand src ix) s = .next t ∧ OnlyStrand src s t ∧ MemSame s t ∧
        (t.strand src).lands = u.lands.eraseIdx ix ∧ (t.strand src).s = u.s ∧ (t.strand src).pc = u.pc ∧
        (∀ r, r ≠ l.reg → (t.strand src).vec.reg r = u.vec.reg r ∧ (t.strand src).vec.fullOf r = u.vec.fullOf r) ∧
        (l.live = false → (t.strand src).vec = u.vec) ∧
        (l.live = true → (t.strand src).vec.fullOf l.reg = (u.vec.fullOf l.reg ||| BitVec.ofNat 16 (2 ^ l.grp)) ∧
          (0 < l.ew → (l.elems.map Prod.fst).Nodup → (∀ e ∈ l.elems, (e.1 + 1) * l.ew ≤ 8192) → ∀ e ∈ l.elems,
            elem ((t.strand src).vec.reg l.reg).toNat l.ew e.1 = e.2 % 2 ^ l.ew))) ∧
    (k < 3 → tl.counter.toNat < n → n < 2 ^ 64 → (∀ m, tl.counter.toNat < m → m ≤ n → m ∈ tl.complete) → n + 1 ∉ tl.complete →
      s.ctxBlocked (dieOf src) u.bind.ctx (u.counterVa k) = false →
      s.ctxWrite (dieOf src) u.bind.ctx (u.counterVa k) (leBytes 8 n) = .ok w →
      ∃ t, exec (.timelineCounterWrite src k) s = .next t ∧ t.mem = w.mem ∧ ((t.strand src).timeline k).counter.toNat = n ∧
        ((t.strand src).timeline k).issued = tl.issued ∧ (∀ j, j < 3 → j ≠ k → (t.strand src).timeline j = u.timeline j) ∧
        (t.strand src).vec = u.vec ∧ (∀ j, j ≠ src → t.strand j = s.strand j))

namespace Sys2Proof.Claims
open Machine

/-- Strand `src` takes an exception with record `r`: the record is posted, the strand halts at its PC. -/
def HaltsAt (i : Instr) (s : State) (src : Nat) (r : FRec) : Prop :=
  ∀ u, s.waitingRecs = [] → (s.strand src).st = .running → (s.strand src).wait = .none → (s.context r.ctx).state ≠ 4 →
    s.tryPost (dieOf src) r.ctx { r with halted := true } = .posted u →
    ∃ t, exec i s = .next t ∧ t.mem = u.mem ∧ (t.strand src).st = .halted ∧ (t.strand src).pc = (s.strand src).pc ∧
      ∀ n, (t.strand src).reg n = (s.strand src).reg n

/-- A matrix member joins the MXQ: it has read its A group, scale register and accumulators, which are marked empty and hold a
full fill (R293, R66). -/
def MatrixJoins (i : Instr) (s : State) (x : V3NoMask) (kind : MxKind) : Prop :=
  let cfg := s.cur.samp.mxcfg
  let d := x.vd.toNat
  let n := if kind = .mxsum then 1 else mxCGroup cfg
  Issues i s → s.cur.follow = none → (∀ c, s.convoy? = some c → c.mxInterrupted = false) →
    ∃ t o, exec i s = .next t ∧ EngineStep s t ∧ t.me.mxq = [o] ∧ t.me.vec.v = s.me.vec.v ∧
      o.num = mxNum s ∧ o.kind = kind ∧ o.vd = d ∧ o.slot = x.vb.toNat ∧ o.cfg = cfg ∧ o.zpa = s.cur.samp.mxzpa ∧
      o.begun = false ∧ o.slice = 0 ∧ o.elem = 0 ∧ o.follow = none ∧
      (∃ c, o.captured = some c ∧ c.a = (List.range (mxAGroup cfg)).map (fun j => s.me.vec.reg (x.va.toNat + j)) ∧
        c.scale = s.me.vec.reg (x.va.toNat + mxAGroup cfg)) ∧
      o.acc = (List.range n).map (fun j => s.me.vec.reg (d + j)) ∧ o.live = (List.range n).map (d + ·) ∧
      (∀ j, j < n → t.me.vec.fillOf (d + j) = vlbOf s / 4 ∧ ∀ q, q < vlbOf s / 512 → (t.me.vec.fullOf (d + j)).getLsbD q = false) ∧
      (∀ r, r < d ∨ d + n ≤ r → t.me.vec.fillOf r = s.me.vec.fillOf r ∧ t.me.vec.fullOf r = s.me.vec.fullOf r)

/-- The first matrix operation of a strand can take a slice: nothing holds it, its operands are captured, its slot is filled, its
engine works, its slot is sound, and its strand is not leaving its position (R298). -/
def SliceReady (s : State) (src : Nat) (o : MxOp) (rest : List MxOp) : Prop :=
  let u := s.strand src
  u.mxq = o :: rest ∧ u.mxHeld = false ∧ o.captured ≠ none ∧ u.slotFilling o = false ∧
  (s.core (coreOf src)).engineFailed = false ∧ s.leaving src = false ∧ o.elem = 0 ∧ o.exempt = false ∧ o.acc.length = o.regs ∧
  o.live = (List.range o.regs).map (o.vd + ·) ∧ (∃ k, 9 ≤ k ∧ k ≤ 13 ∧ s.vlb src = 2 ^ k) ∧
  s.slotCheck src o = none

/-- The bytes of an operation's slot. -/
def slotBytes (s : State) (src : Nat) (o : MxOp) : List Byte := Memory.readBytes (s.strand src).slots (o.slot * 32768) 32768

/-- The rows of A' and columns of B' an operation multiplies (R286, R291, R292). -/
def mxRow (s : State) (src : Nat) (o : MxOp) (i : Nat) : List Fv := (o.rows (s.vlb src)).getD i []
def mxCol (s : State) (src : Nat) (o : MxOp) (j : Nat) : List Fv := ((o.cols (s.vlb src) (slotBytes s src o)).getD []).getD j []

/-- The part of a row or column in the slice. -/
def inSlice (o : MxOp) (l : List Fv) : List Fv := (l.drop (o.slice * o.pairing.1)).take o.pairing.1

/-- An exact integer as a term of a sum. -/
def intTerm (a : Int) : Fv := .fin (decide (a < 0)) a.natAbs 0

end Sys2Proof.Claims

/-- R293, R111: the three matrix members join the MXQ; without matrix use declared they stop with cause 21. -/
def Sys2Proof.Claims.MatrixMembersJoinTheQueue : Prop :=
  ∀ (s : State) (x : V3NoMask),
    MatrixJoins (.mma x) s x .mma ∧ MatrixJoins (.mmaz x) s x .mmaz ∧ MatrixJoins (.mxsum x) s x .mxsum ∧
    (s.me.bind.matrix = false → Anew s → Oldest s →
      HaltsAt (.mma x) s s.cur.src (s.record s.cur.src 21 0 0 0xFFFFFFFF s.cur.slot s.cur.pc 0) ∧
      HaltsAt (.mmaz x) s s.cur.src (s.record s.cur.src 21 0 0 0xFFFFFFFF s.cur.slot s.cur.pc 0) ∧
      HaltsAt (.mxsum x) s s.cur.src (s.record s.cur.src 21 0 0 0xFFFFFFFF s.cur.slot s.cur.pc 0))

/-- R45, R46, R293, R294, R297, R128: a slice adds to each accumulator element the exact sum of its products, rounded or wrapped
once; the last slice writes the accumulators and completes the number; `mxsum` gives the row and column sums; a follow-on reads its
A operands once its copy is complete; a failed engine is marked and stops its operation. -/
def Obligations.MatrixEngineResults : Prop :=
  ∀ (s : State) (src : Nat) (o : MxOp) (rest : List MxOp),
    let u := s.strand src
    let vlb := s.vlb src
    let n := o.n vlb
    let old := fun e => if o.begun = false ∧ o.kind = .mmaz then 0 else elem (joinRegs vlb o.acc) 32 e
    let r := fun e => mxAcc o.i32 (old e)
      (mxSum (List.zipWith mxProd (inSlice o (mxRow s src o (e / n))) (inSlice o (mxCol s src o (e % n)))))
    let trapen := trapEn (((u.viq.find? (fun c => c.seq == o.seq)).map Convoy.samp).getD {}).fctl
    let done := fun t => ((t.strand src).mxq = rest ∧ (t.strand src).csr.mxprog = 0 ∧
      (t.strand src).tlMatrix = { u.tlMatrix with complete := u.tlMatrix.complete ++ [o.num] } ∧
      ∀ j, j < o.regs → (t.strand src).vec.fullOf (o.vd + j) = 0xFFFF)
    (∀ (l : List (Int × Int)) (c : Nat), c < 2 ^ 32 →
      let sum := sgn 32 c + (l.map (fun p => p.1 * p.2)).sum
      mxAcc true c (mxSum (l.map (fun p => mxProd (intTerm p.1) (intTerm p.2)))) =
        (wrapN 32 sum, if sum < -2 ^ 31 ∨ 2 ^ 31 ≤ sum then 4 else 0)) ∧
    (SliceReady s src o rest → o.kind ≠ .mxsum → 0 < n → (∀ e, e < 16 * n → trapClass (r e).2 trapen = none) →
      ∃ t, exec (.matrixSlice src .ok) s = .next t ∧ OnlyStrand src s t ∧ MemSame s t ∧
        (∀ k, k < 7 → ((t.strand src).vec.fstat.getLsbD k = true ↔
          u.vec.fstat.getLsbD k = true ∨ ∃ e, e < 16 * n ∧ (r e).2.testBit k = true)) ∧
        (o.slice + 1 < o.slices vlb → ∃ p, (t.strand src).mxq = p :: rest ∧ p.slice = o.slice + 1 ∧ p.begun = true ∧
          p.num = o.num ∧ p.captured = o.captured ∧ ∀ e, e < 16 * n → elem (joinRegs vlb p.acc) 32 e = (r e).1 % 2 ^ 32) ∧
        (o.slices vlb ≤ o.slice + 1 → done t ∧
          ∀ e, e < 16 * n → elem ((t.strand src).vec.grp vlb o.vd o.regs) 32 e = (r e).1 % 2 ^ 32)) ∧
    (SliceReady s src o rest → o.kind = .mxsum → o.begun = false →
      ∃ t, exec (.matrixSlice src .ok) s = .next t ∧ OnlyStrand src s t ∧ MemSame s t ∧ done t ∧
        ∀ e, e < 16 + n → 32 * (e + 1) ≤ vlb →
          elem ((t.strand src).vec.grp vlb o.vd 1) 32 e =
            (mxRound o.i32 (mxSum (if e < 16 then mxRow s src o e else mxCol s src o (e - 16)))).1 % 2 ^ 32) ∧
    (u.mxq = o :: rest → u.mxHeld = false → o.captured ≠ none → u.slotFilling o = false → o.begun = true →
      (s.core (coreOf src)).engineFailed = true →
      HaltsAt (.matrixSlice src .ok) s src
        { s.record src 41 16 (BitVec.ofNat 64 (o.slice % 2 ^ 16 * 2 ^ 24)) 0xFFFFFFFF o.member o.pc 0 with source := matrixSource src }) ∧
    (∀ fails, u.mxq = [] → ∃ t, exec (.matrixEngineFailed ⟨src, fails⟩) s = .next t ∧ (t.core (coreOf src)).engineFailed = true ∧
      (∀ k, k ≠ coreOf src → t.core k = s.core k) ∧ MgmtNote.engineFailed (dieOf src) (coreOf src % 16) ∈ t.mgmt ∧
      coreOf src ∈ t.flash.engines ∧ t.boot.repl = true ∧ t.boot.replwhy = s.boot.replwhy ||| 16 ∧ t.strands = s.strands) ∧
    (∀ f, u.mxq = o :: rest → o.follow = some f → u.mxHeld = false → (∀ c ∈ u.cpq, c.num ≠ f) → (∀ k, u.vec.fullOf k = 0xFFFF) →
      (∃ k, 9 ≤ k ∧ k ≤ 13 ∧ vlb = 2 ^ k) → o.va < 64 →
      ∃ t, exec (.followOnIssue src) s = .next t ∧ OnlyStrand src s t ∧ MemSame s t ∧ (t.strand src).vec = u.vec ∧
        (t.strand src).mxq = { o with follow := none, captured := some ⟨(List.range o.ga).map (fun j => u.vec.reg (o.va + j)),
          u.vec.reg (o.va + o.ga)⟩ } :: rest)

/-! ## Convoys, strips and errors -/

namespace Sys2Proof.Claims
open Machine

/-- An event of strand `src` leaves every other part of the package, and its scalar registers, PC and vector registers. -/
def StrandEvent (s t : State) (src : Nat) : Prop :=
  OnlyStrand src s t ∧ MemSame s t ∧ (t.strand src).s = (s.strand src).s ∧ (t.strand src).pc = (s.strand src).pc ∧
  (t.strand src).vec = (s.strand src).vec

/-- The oldest convoy is finished (R10, R59, R316, R317): issued, every member performed, the eddy has decided, no stop of it is to be
taken, and the copy and matrix numbers it took are covered by their counters. -/
def HeadDone (t : Strand) (c : Convoy) : Prop :=
  t.vecHeld = false ∧ c.issued = true ∧ c.words.length ≤ c.next ∧ c.eddyDue = [] ∧ c.pendStop = none ∧
  (∀ k, c.nCp = some k → k ≤ t.tlCopy.counter.toNat) ∧ (∀ k, c.nMx = some k → k ≤ t.tlMatrix.counter.toNat)

/-- The buffered lines of the strips in `sel` can be performed at once, and lie in different lines of memory. -/
def CanCommit (s : State) (src : Nat) (sel : Nat → Bool) (p : BufLine → Place) : Prop :=
  let l := (s.strand src).buf.filter (fun b => sel b.strip)
  MemOk s ∧ s.flyHold = false ∧ s.flyWrites = [] ∧ l.Nodup ∧
  (∀ b ∈ l, b.op = .store ∧ b.fa % 64 = 0 ∧ s.bufPlace src b = .ok (p b) ∧ s.poisoned (p b) 64 = false) ∧
  ∀ b ∈ l, ∀ c ∈ l, b ≠ c → lineOf (p b).key ≠ lineOf (p c).key

/-- The buffered lines of the strips in `sel` are in memory, nibble by nibble under their masks, and have left the buffer; every
other byte is as before (R229, R311). -/
def Committed (s t : State) (src : Nat) (sel : Nat → Bool) (p : BufLine → Place) : Prop :=
  let l := (s.strand src).buf.filter (fun b => sel b.strip)
  (t.strand src).buf = (s.strand src).buf.filter (fun b => !sel b.strip) ∧
  (∀ b ∈ l, ∀ i, i < 64 → ∀ h : Bool,
    nibbleOf h (Memory.read t.mem ((p b).key + i)) =
      if b.mask.getLsbD (2 * i + if h = true then 1 else 0) = true then
        b.data.toNat / 2 ^ (8 * i + if h = true then 4 else 0) % 16
      else nibbleOf h (Memory.read s.mem ((p b).key + i))) ∧
  ∀ a, (∀ b ∈ l, lineOf (p b).key ≠ a / 64) → Memory.read t.mem a = Memory.read s.mem a

end Sys2Proof.Claims

/-- R59, R118, R100, R316, R132, R135: retirement writes the pending scalar result and frees the oldest convoy once it is finished, and takes a
stop found in it once the eddy has decided; a wait ends when what it waits for has come about, and a barrier instruction whose phase is
over finishes; an arrival that comes due in a halted group is kept with its time; the turn holder of a core issues its oldest convoy and is charged for it; where the turn has passed, the next strand of
the level in slot order takes it with its quantum. -/
def Obligations.RetirementWaitsAndIssue : Prop :=
  ∀ (s w : State) (src die core : Nat) (c : Convoy) (r : List Convoy) (p : PendStop) (q : FRec),
    let u := s.strand src
    let k := die % 8 * 16 + core % 16
    let sat := fun (d : Int) (w : Nat) => max (-(2 ^ 31)) (min (16 * 64 * (w : Int)) d)
    let issued := fun (t : Strand) (e : Convoy) (d : Int) => { t with
      viq := t.viq.map (fun f => if f.seq = e.seq then { f with issued := true } else f)
      deficit := sat (d - (e.charge : Int)) t.bind.weight }
    (u.viq = c :: r → u.csr.tracectl.getLsbD 0 = false → c.samples = [] → HeadDone u c →
      ∃ t, exec (.convoyRetire src) s = .next t ∧ OnlyStrand src s t ∧ (t.strand src).viq = r ∧ (t.strand src).pc = u.pc ∧
        (t.strand src).vec = u.vec ∧ (c.pendScalar = none → ∀ n, (t.strand src).reg n = u.reg n) ∧
        ∀ d w, c.pendScalar = some (d, w) →
          (d ≠ 0 → (t.strand src).reg d = w) ∧ ∀ n, n ≠ d → (t.strand src).reg n = u.reg n) ∧
    (u.viq = c :: r → ¬HeadDone u c → c.pendStop = none ∨ c.eddyDue ≠ [] → exec (.convoyRetire src) s = .next s) ∧
    (u.viq = c :: r → (∀ d ∈ r, d.seq ≠ c.seq) → c.pendStop = some p → c.eddyDue = [] → c.pendScalar = none → p.recs = [q] → q.ctx = u.bind.ctx →
      u.st = .running → u.wait = .none → s.waitingRecs = [] → (s.context q.ctx).state ≠ 4 →
      s.tryPost (dieOf src) q.ctx { q with gtc := (s.die (dieOf src)).gtc, halted := true, more := false } = .posted w →
      ∃ t, exec (.convoyRetire src) s = .next t ∧ t.mem = w.mem ∧ (t.strand src).st = .halted ∧ (t.strand src).pc = u.pc ∧
        (t.strand src).csr = { u.csr with estart := p.at_.estart, donemask := p.at_.donemask } ∧ (t.strand src).vec = u.vec ∧
        (∀ n, (t.strand src).reg n = u.reg n) ∧
        ∃ c', (t.strand src).viq = c' :: r ∧ c'.words = c.words ∧ c'.pendStop = none ∧
          c'.next = (if p.at_.ended = true then c.next + 1 else c.next)) ∧
    (u.st = .waiting → (∀ sd b tok, u.wait ≠ .barrier sd b tok) → s.waitOver src = true →
      ∃ t, exec (.conditionClears src) s = .next t ∧ OnlyStrand src s t ∧
        t.strand src = { u with st := .running, wait := .none }) ∧
    (∀ sd b tok e ix, u.st = .waiting → u.wait = .barrier sd b tok → s.barrierOf (clusterOf src) u.group b = some (ix, e) →
      e.phase.toNat ≠ tok →
      ∃ t, exec (.conditionClears src) s = .next t ∧ OnlyStrand src s t ∧ (t.strand src).st = .running ∧
        (t.strand src).wait = .none ∧ (t.strand src).pc = u.pc + 4 ∧ (t.strand src).barTok = none ∧
        (sd ≠ 0 → (t.strand src).reg sd.toNat = e.phase.zeroExtend 64) ∧
        ∀ n, n ≠ sd.toNat → (t.strand src).reg n = u.reg n) ∧
    ((u.st ≠ .waiting ∧ u.st ≠ .halted) ∨ s.waitOver src = false → exec (.conditionClears src) s = .next s) ∧
    (u.st = .halted → (∀ a q, u.wait ≠ .arrival a q) → exec (.conditionClears src) s = .next s) ∧
    (∀ a q, u.st = .halted → u.wait = .arrival a q → (s.group u.group).state = .halted → u.barDue = none → s.waitOver src = true →
      u.lastOpen = none → u.lostStore = none → u.ssq = [] → u.openStrip = none → s.flying src = false →
      ∃ t, exec (.conditionClears src) s = .next t ∧ OnlyStrand src s t ∧ (t.strand src).st = .halted ∧ (t.strand src).pc = u.pc ∧
        (t.strand src).barDue = some (a, (s.die (dieOf src)).gtc) ∧ (t.strand src).vec = u.vec ∧ t.clusters = s.clusters) ∧
    (∀ q, u.wait = .retired q → (s.waitOver src = true ↔ ∀ d ∈ u.viq, q < d.seq)) ∧
    (u.wait = .strips → (s.waitOver src = true ↔ u.strips.length < 2)) ∧
    (∀ sd b tok e ix, u.wait = .barrier sd b tok → s.barrierOf (clusterOf src) u.group b = some (ix, e) →
      (s.waitOver src = true ↔ e.phase.toNat ≠ tok)) ∧
    (s.topPrio k Strand.ready = some u.bind.prio → s.holds k u.bind.prio = true → (s.core k).turn = some src → u.usable = true →
      u.viq.find? (fun e => !e.issued) = some c →
      ∃ t, exec (.convoyIssue die core) s = .next t ∧ { t with strands := s.strands, cores := s.cores } = s ∧
        (∀ j, j ≠ src → t.strand j = s.strand j) ∧ (∀ j, j ≠ k → t.core j = s.core j) ∧ t.strand src = issued u c u.deficit) ∧
    (s.topPrio k Strand.ready = some u.bind.prio → s.holds k u.bind.prio = false →
      nextHolder (s.levelOf k u.bind.prio) (s.core k).turn = some src → u.usable = true →
      0 < sat (u.deficit + 64 * (u.bind.weight : Int)) u.bind.weight → u.viq.find? (fun e => !e.issued) = some c →
      ∃ t, exec (.convoyIssue die core) s = .next t ∧ { t with strands := s.strands, cores := s.cores } = s ∧
        (∀ j, j ≠ src → t.strand j = s.strand j) ∧ (∀ j, j ≠ k → t.core j = s.core j) ∧ (t.core k).turn = some src ∧
        t.strand src = issued u c (sat (u.deficit + 64 * (u.bind.weight : Int)) u.bind.weight))

/-- R311, R229: the oldest strip commits once it is closed and its convoys have retired; a full buffer commits every strip and
makes the open one non-rewindable. -/
def Obligations.StripsCommitToMemory : Prop :=
  ∀ (s : State) (src : Nat) (n : Strip) (rest : List Strip) (p : BufLine → Place),
    let u := s.strand src
    let mine := fun i => i == n.id
    (u.strips = n :: rest → n.closed = true → u.lostStore = none → (∀ c ∈ u.viq, n.id < c.strip) → (∀ q ∈ u.ssq, ∀ i, q.strip = some i → n.id < i) →
      CanCommit s src mine p →
      (∀ b ∈ u.buf, b.strip = n.id → s.bufBlocked src b = false) →
      ∃ t, exec (.stripCommit src) s = .next t ∧ Committed s t src mine p ∧ (t.strand src).s = u.s ∧ (t.strand src).pc = u.pc ∧
        (t.strand src).vec = u.vec ∧ (t.strand src).viq = u.viq ∧ (t.strand src).strips = rest.filter (fun q => q.id != n.id) ∧
        ∀ j, j ≠ src → t.strand j = s.strand j) ∧
    (u.strips = n :: rest → n.closed = false ∨ (∃ c ∈ u.viq, c.strip ≤ n.id) → exec (.stripCommit src) s = .next s) ∧
    (∀ i, u.openStrip = some i → 512 ≤ bufLines u.buf → s.bufHeld src = false → CanCommit s src (fun _ => true) p →
      ∃ t, exec (.bufferOverflow src) s = .next t ∧ Committed s t src (fun _ => true) p ∧ (t.strand src).buf = [] ∧
        (t.strand src).s = u.s ∧ (t.strand src).vec = u.vec ∧
        (t.strand src).strips = u.strips.map (fun q => if q.id = i ∧ q.why = 0 then { q with why := 5 } else q)) ∧
    (u.openStrip = none ∨ bufLines u.buf < 512 ∨ s.bufHeld src = true → exec (.bufferOverflow src) s = .next s)

/-- R313, R315, R305: an error that its strip can rewind takes the strand back to the strip's setvl: later convoys and buffered
stores are gone, the checkpointed scalars and the PC are back, a notice is posted; one it cannot rewind faults the context and ends
the launch with CAUSE 16; a halting record that waited is posted when there is space. -/
def Obligations.ErrorsRewindOrFaultTheContext : Prop :=
  ∀ (s w : State) (src kind elem ctx : Nat) (addr : Word) (c : Convoy) (r : List Convoy) (n : Strip) (q : FRec),
    let u := s.strand src
    let slot := c.slotOf (min c.next (c.words.length - 1))
    let rcd := fun cause : Nat => s.record src cause kind addr (BitVec.ofNat 32 elem) slot c.pc
    (u.st = .running → u.viq = c :: r → kind = 0 ∨ 4 < kind → s.waitingRecs = [] → c.strip ≠ 0 → u.strips.find? (fun e => e.id == c.strip && e.why == 0) = some n →
      (n.ckpt.map Prod.fst).Nodup → (s.context u.bind.ctx).state ≠ 4 → u.csr.tracectl.getLsbD 2 = false →
      s.tryPost (dieOf src) u.bind.ctx { rcd 45 19 with kind := 0, va := 0 } = .posted w →
      ∃ t, exec (.uncorrectableError src ⟨19, kind⟩ elem addr) s = .next t ∧ t.mem = w.mem ∧ (t.strand src).pc = n.pc ∧
        (t.strand src).st = .running ∧ (t.strand src).openStrip = some n.id ∧
        (∀ k v, k ≠ 0 → (k, v) ∈ n.ckpt → (t.strand src).reg k = v) ∧
        (∀ k, k ∉ n.ckpt.map Prod.fst → (t.strand src).reg k = u.reg k) ∧
        (t.strand src).viq = u.viq.filter (fun e => decide (e.strip < n.id)) ∧
        (t.strand src).buf = u.buf.filter (fun b => decide (b.strip < n.id)) ∧ (t.strand src).vec = u.vec ∧
        (∀ j, j ≠ src → t.strand j = s.strand j)) ∧
    (u.st ≠ .unbound → u.viq = c :: r → kind = 0 ∨ 4 < kind → (c.strip = 0 ∨ u.strips.find? (fun e => e.id == c.strip && e.why == 0) = none) →
      s.tryPost (dieOf src) u.bind.ctx { rcd 46 19 with halted := true } = .posted w →
      ∃ t, exec (.uncorrectableError src ⟨19, kind⟩ elem addr) s = .next t ∧ (t.context u.bind.ctx).state = 4 ∧
        ∀ l, look s.launches u.bind.launch = some l → l.ctx = u.bind.ctx → l.stopped = false →
          ∃ l', look t.launches u.bind.launch = some l' ∧ l'.cause = 16 ∧ l'.stopped = true) ∧
    (s.waitingRecs.find? (fun e => e.1 == ctx) = some (ctx, q) → (s.context ctx).state ≠ 4 →
      (s.tryPost (q.source / 128) ctx q = .posted w →
        exec (.haltingRecordPost ctx) s = .next { w with waitingRecs := s.waitingRecs.erase (ctx, q) }) ∧
      (s.tryPost (q.source / 128) ctx q = .full → q.halted = true → exec (.haltingRecordPost ctx) s = .next s) ∧
      (s.tryPost (q.source / 128) ctx q = .held → exec (.haltingRecordPost ctx) s = .next s))

/-- R317 to R319, R361: the verdicts of the eddy on the oldest member that awaits one, of which a majority charges each lane group that
lost, and, as the model reads R318 (log 67, DEDUCED), leaves the strand's registers as the first run left them; the check limit of opportunistic recheck; a lane group with four disagreements is
retired and recorded; the counts of a die are cleared every 2^32 ticks. -/
def Obligations.EddyVerdictsAndLaneGroups : Prop :=
  ∀ (s w : State) (src e g lane m die core : Nat) (losers : List (Nat × Nat)) (c : Convoy) (r : List Convoy),
    let u := s.strand src
    let waits := u.viq = c :: r ∧ m ∈ c.eddyDue ∧ (∀ j ∈ c.eddyDue, m ≤ j) ∧ c.pendStop = none ∧ u.vecHeld = false
    let with_ := fun (missed : Bool) => { u with viq := u.viq.map (fun d =>
      if d.seq = c.seq then { d with eddyDue := d.eddyDue.filter (· != m), eddyMiss := d.eddyMiss || missed } else d) }
    let slot := c.slotOf m
    let k := die % 8 * 16 + core % 16
    (waits → ∃ t, exec (.eddyRecheck src .agree) s = .next t ∧ OnlyStrand src s t ∧ t.strand src = with_ false) ∧
    (waits → s.waitingRecs = [] → (s.context u.bind.ctx).state ≠ 4 → u.csr.tracectl.getLsbD 2 = false →
      s.tryPost (dieOf src) u.bind.ctx (s.record src 43 0 0 (BitVec.ofNat 32 e) slot c.pc
        (BitVec.ofNat 64 (g % 16 + lane % 16 * 16 + slot % 16 * 256))) = .posted w →
      ∃ t, exec (.eddyRecheck src (.majority e ((g, lane) :: losers))) s = .next t ∧ t.mem = w.mem ∧ t.strand src = with_ false ∧
        (∀ l, (t.core (coreOf src)).disagree.getD l 0 = (s.core (coreOf src)).disagree.getD l 0 +
          if l ∈ lane :: losers.map Prod.snd then 1 else 0) ∧
        ∀ l, look s.launches u.bind.launch = some l → ∃ l', look t.launches u.bind.launch = some l' ∧ l'.eddy = true) ∧
    (waits → c.samp.rchk = 1 → ∃ t, exec (.eddyCheckLimit src) s = .next t ∧ OnlyStrand src s t ∧ t.strand src = with_ true) ∧
    (waits → c.samp.rchk ≠ 1 → exec (.eddyCheckLimit src) s = .next s) ∧
    ((s.core k).disagree.getD (lane % 16) 0 < 4 → exec (.laneGroupRetire die core lane) s = .next s) ∧
    (4 ≤ (s.core k).disagree.getD (lane % 16) 0 → (s.core k).laneDis.getLsbD (lane % 16) = false →
      (∀ j ∈ coreStrands k, (s.strand j).st = .unbound) →
      ∃ t, exec (.laneGroupRetire die core lane) s = .next t ∧ (t.core k).retired.getLsbD (lane % 16) = true ∧
        (∀ j, j ≠ k → t.core j = s.core j) ∧ (k, lane % 16) ∈ t.flash.lanes ∧ t.boot.repl = true ∧
        t.boot.replwhy = s.boot.replwhy ||| 2 ∧ t.strands = s.strands) ∧
    (2 ^ 32 ≤ ((s.die (die % 8)).gtc - (s.die (die % 8)).disagreeClear).toNat →
      ∃ t, exec (.disagreementCountClear die) s = .next t ∧ MemSame s t ∧ t.strands = s.strands ∧
        (∀ j, j / 16 = die % 8 → t.core j = { s.core j with disagree := [] }) ∧ (∀ j, j / 16 ≠ die % 8 → t.core j = s.core j) ∧
        (t.die (die % 8)).disagreeClear = (s.die (die % 8)).gtc) ∧
    (((s.die (die % 8)).gtc - (s.die (die % 8)).disagreeClear).toNat < 2 ^ 32 →
      exec (.disagreementCountClear die) s = .next s)

/-! ## Contexts, groups, barrier entries -/

namespace Sys2Proof.Claims
open Machine

/-- Firmware is told, by one more note, and nothing else changed. -/
def OnlyTold (s t : State) (n : MgmtNote) : Prop := t = { s with mgmt := s.mgmt ++ [n] }

/-- No strand of a context is in a slot. -/
def NoStrands (s : State) (ctx : Nat) : Prop := ∀ p ∈ s.groups, p.2.ctx = ctx → p.2.members = []

/-- Nothing of a strand is under way: no convoy, engine operation, landing, or store, none lost, and its counters stand. -/
def AtRest (s : State) (src : Nat) : Prop :=
  let t := s.strand src
  t.viq = [] ∧ t.cpq = [] ∧ t.mxq = [] ∧ t.lands = [] ∧ t.buf = [] ∧ t.ssq = [] ∧ t.lostStore = none ∧ ∀ k, k < 3 → t.counterTo k = none

end Sys2Proof.Claims

/-- R73 to R75, R118: creating, destroying, clearing and failing a context. That the queued records a destruction discards leave no byte
of memory changed is the model's reading (log 44, DEDUCED). -/
def Obligations.ContextLifecycle : Prop :=
  ∀ (s : State) (d : ContextDesc) (ctx : Nat),
    let k := d.ctxid.toNat
    let c := s.context ctx
    (k < 4096 → (s.context k).state = 0 →
      ∃ t, exec (.contextCreate d) s = .next t ∧ { t with contexts := s.contexts } = s ∧ t.context k = { d with state := 1 } ∧
        ∀ j, j ≠ k → t.context j = s.context j) ∧
    (4096 ≤ k ∨ (s.context k).state ≠ 0 → exec (.contextCreate d) s = .next s) ∧
    (c.state = 2 → ∃ t r, exec (.contextDestroy ctx) s = .next t ∧ OnlyTold s t (.rcd 0 r 0) ∧ r.cause = 50 ∧ r.ctx = ctx) ∧
    (c.state = 1 ∨ c.state = 3 ∨ c.state = 4 → NoStrands s ctx → c.flags.getLsbD 0 = false →
      ∃ t, exec (.contextDestroy ctx) s = .next t ∧ (t.context ctx).state = 0 ∧ (t.context ctx).vlb = 0 ∧ MemSame s t ∧
        (∀ j, j ≠ ctx → t.context j = s.context j) ∧ (∀ p ∈ t.groups, p.2.ctx ≠ ctx) ∧ (∀ r ∈ t.waitingRecs, r.1 ≠ ctx) ∧
        (∀ n, (∀ e ∈ (t.die n).tlb, e.ctx ≠ ctx) ∧ ∀ j, ∀ e ∈ (t.die n).l1Tlb.getD j [], e.ctx ≠ ctx) ∧ t.strands = s.strands) ∧
    (c.state = 4 → NoStrands s ctx →
      ∃ t, exec (.contextFaultClear ctx) s = .next t ∧ t.context ctx = { c with state := 1 } ∧ MemSame s t ∧
        (∀ j, j ≠ ctx → t.context j = s.context j) ∧ (∀ p ∈ t.groups, p.2.ctx ≠ ctx) ∧ t.strands = s.strands) ∧
    (c.state ≠ 4 → exec (.contextFaultClear ctx) s = .next s) ∧
    (c.state = 2 ∨ c.state = 3 →
      ∃ t, exec (.contextDeclaredFailed ctx) s = .next t ∧ (t.context ctx).state = 4 ∧
        (∀ l m, look s.launches l = some m → m.ctx = ctx → m.stopped = false →
          ∃ m', look t.launches l = some m' ∧ m'.stopped = true ∧ m'.cause = 18) ∧
        ∀ l m, look s.launches l = some m → m.ctx ≠ ctx → look t.launches l = some m) ∧
    (c.state ≠ 2 → c.state ≠ 3 → exec (.contextDeclaredFailed ctx) s = .next s)

/-- R98, R99, R110, R119, R130: where what it reads waits for no PC copy (R211) and no minimal mode holds the clusters (R359), a batch of
one fresh strand that passes the checks starts it with its registers; a batch that fails
one starts nothing and is reported; a barrier entry takes what firmware writes, unless it is bound. -/
def Obligations.BatchesBindStrands : Prop :=
  ∀ (s : State) (die cluster slot entry : Nat) (w w0 w1 : Word) (n : Nat),
    let d := die % 8
    let c := cluster % 4
    let cl := d * 4 + c
    let src := d * 128 + c * 16 + slot
    let r := (s.cluster cl).records.getD slot {}
    let b := s.batchOf d c w
    let s1 := s.setCluster cl { s.cluster cl with commit := w }
    let h := s1.batchHeader b
    let ix := entry % 16
    let old := (s.cluster cl).barriers.getD ix {}
    let takes := s.batchHeld b = false ∧ s.boot.minimal = false
    (takes → slot < 16 → w.toNat % 2 ^ 16 = 2 ^ slot → w.getLsbD 32 = true → w.toNat / 2 ^ 33 = 0 → r.groupSz = 1 → r.bflags.getLsbD 1 = false →
      s1.batchFails b h = none →
      ∃ t, exec (.batchCommit die cluster w) s = .next t ∧ MemSame s t ∧ (t.cluster cl).commit = w ∧
        (t.strand src).st = .running ∧ (t.strand src).pc = r.entryPc ∧ (t.strand src).reg 1 = r.paramBase ∧
        (t.strand src).reg 2 = r.groupIx.zeroExtend 64 ∧ (t.strand src).reg 3 = r.strandIx.zeroExtend 64 ∧
        (∀ k, k = 0 ∨ 3 < k → (t.strand src).reg k = 0) ∧ (t.strand src).csr.vl = 0 ∧ (t.strand src).vec = {} ∧
        (t.strand src).viq = [] ∧ (t.strand src).bind.ctx = r.ctxid.toNat ∧ (t.strand src).bind.weight = r.weight.toNat ∧
        (∀ j, j ≠ src → t.strand j = s.strand j) ∧ (t.context r.ctxid.toNat).state = 2 ∧
        ∃ g, look t.groups b.key = some g ∧ g.state = .resident ∧ g.members = [(r.strandIx.toNat, src)]) ∧
    (takes → w.getLsbD 32 = true → w.toNat / 2 ^ 33 % 2 ^ 15 = 0 → w.toNat % 2 ^ 16 ≠ 0 → s1.batchFails b h = some n →
      ∃ t q, exec (.batchCommit die cluster w) s = .next t ∧ OnlyTold s1 t (.rcd d q 0) ∧ q.cause = 48 ∧
        q.detail = BitVec.ofNat 64 n ∧ q.ctx = b.ctx) ∧
    (old.bound = true →
      ∃ t q, exec (.barrierEntryWrite die cluster entry w0 w1) s = .next t ∧ OnlyTold s t (.rcd d q 0) ∧ q.cause = 51) ∧
    (old.bound = false →
      ∃ t e, exec (.barrierEntryWrite die cluster entry w0 w1) s = .next t ∧ { t with clusters := s.clusters } = s ∧
        (t.cluster cl).barriers.getD ix {} = e ∧ e.v = w0.getLsbD 63 ∧ e.bound = false ∧ e.local_ = w0.toNat / 2 ^ 56 % 2 ∧
        e.size = w0.toNat / 2 ^ 48 % 32 ∧ e.batch = w0.toNat / 2 ^ 32 % 2 ^ 16 ∧ e.phase.toNat = w0.toNat / 2 ^ 16 % 2 ^ 16 ∧
        e.ended.toNat = w1.toNat / 2 ^ 16 % 2 ^ 16 ∧ e.arr.toNat = w1.toNat % 2 ^ 16 ∧
        ∀ j, j ≠ ix → (t.cluster cl).barriers.getD j {} = (s.cluster cl).barriers.getD j {})

/-- R118, R119, R120, R123, R302, R307: pre-emption stops the strands of a group; the save writes a resting strand's image and frees its
slot; a halted group resumes, its strands as they were; a strand redirected to a new PC keeps its scalar registers, and the stopped
convoy and the later ones are gone. That a strand which had stopped at none keeps its queued convoys is the model's reading (log 57,
DEDUCED). -/
def Obligations.GroupsPreemptSaveAndResume : Prop :=
  ∀ (s w : State) (k : GroupKey) (g : Group) (src : Nat) (pc : Word),
    let u := s.strand src
    let ms := g.members.map Prod.snd
    (look s.groups k = some g → g.state = .resident ∨ g.state = .halted → ms.Nodup →
      ∃ t g', exec (.groupPreempt k) s = .next t ∧ MemSame s t ∧ look t.groups k = some g' ∧ g' = { g with state := .saving } ∧
        (∀ m ∈ ms, (t.strand m).st = .halted ∧ (t.strand m).vec = (s.strand m).vec ∧ (t.strand m).viq = (s.strand m).viq) ∧
        ∀ j, j ∉ ms → t.strand j = s.strand j) ∧
    (look s.groups k = some g → g.state = .saving → g.members = [(u.bind.ix, src)] → u.group = k → AtRest s src →
      s.settled src = true → s.imageHeld src = false → (s.flush src).1.saveImage src = .ok w →
      ∃ t g', exec (.groupSaved k) s = .next t ∧ t.mem = w.mem ∧ (t.strand src).st = .unbound ∧ look t.groups k = some g' ∧
        g'.state = .saved ∧ g'.members = [] ∧ g'.ended = g.ended ∧ MgmtNote.saved k g.ended ∈ t.mgmt) ∧
    (look s.groups k = some g → g.state = .halted → s.recordWaits k = false → ms.Nodup → (∀ m ∈ ms, (s.strand m).barDue = none) →
      ∃ t g', exec (.groupResume k) s = .next t ∧ MemSame s t ∧ look t.groups k = some g' ∧ g'.state = .resident ∧
        (∀ m ∈ ms, (s.strand m).st = .halted →
          (t.strand m).st = (if m ∈ g.waiting then .waiting else .running) ∧ (t.strand m).pc = (s.strand m).pc ∧
          (t.strand m).s = (s.strand m).s ∧ (t.strand m).vec = (s.strand m).vec ∧ (t.strand m).vecHeld = false) ∧
        ∀ j, j ∉ ms → t.strand j = s.strand j) ∧
    (s.recordWaits k = true → exec (.groupResume k) s = .next s) ∧
    (look s.groups u.group = some g → g.state = .halted → u.st = .halted →
      ∃ t, exec (.resumeAtNewPc src pc) s = .next t ∧ MemSame s t ∧ (∀ j, j ≠ src → t.strand j = s.strand j) ∧
        (t.strand src).pc = pc ∧ (t.strand src).st = .halted ∧ (t.strand src).s = u.s ∧
        (∀ q, u.stoppedAt = some q →
          (t.strand src).viq = u.viq.filter (fun c => decide (c.seq < q)) ∧
          (t.strand src).cpq.map CpOp.num = (u.cpq.filter (fun o => decide (o.seq < q))).map CpOp.num ∧
          (t.strand src).mxq.map MxOp.num = (u.mxq.filter (fun o => decide (o.seq < q))).map MxOp.num ∧
          (t.strand src).vecHeld = false ∧ (t.strand src).cpHeld = false ∧ (t.strand src).mxHeld = false) ∧
        (u.stoppedAt = none → (t.strand src).viq = u.viq ∧ (t.strand src).vec = u.vec))

/-! ## Queues -/

namespace Sys2Proof.Claims
open Machine

/-- Only the record of queue `k` changed. -/
def OnlyQueue (k : Nat) (s t : State) : Prop := { t with queues := s.queues } = s ∧ ∀ j, j ≠ k → t.queue j = s.queue j

/-- Of the dies, only the vector clocks may have changed (R268). -/
def OnlyClocks (s t : State) : Prop := ∀ d, { t.die d with clock := (s.die d).clock } = s.die d

/-- Of the package only queues, memory, what the caches hold of the lines written, and the dies' vector clocks changed. -/
def QueueMemory (s t : State) : Prop :=
  { t with queues := s.queues, dies := s.dies, mem := s.mem, counted := s.counted, l1 := s.l1, msc := s.msc, aliasSeen := s.aliasSeen,
           poison := s.poison } = s ∧ OnlyClocks s t

/-- So has it, and of the queues only the record of `k`. -/
def QueueStep (k : Nat) (s t : State) : Prop := QueueMemory s t ∧ ∀ j, j ≠ k → t.queue j = s.queue j

/-- The frame of a COPY: the tracker's counters too (R218), and the link requests its writes leave (R335). -/
def CopyStep (k : Nat) (s t : State) : Prop :=
  { t with queues := s.queues, dies := s.dies, ports := s.ports, mem := s.mem, counted := s.counted, l1 := s.l1, msc := s.msc,
           aliasSeen := s.aliasSeen, poison := s.poison } = s ∧
  (∀ j, j ≠ k → t.queue j = s.queue j) ∧ ∀ d, OnlyTraffic (s.die d) (t.die d)

/-- `n` bytes at an address of a queue's context lie in one page, at place `p`, free of poison; and for a write, none that the queue's
die knows of is still on its way to that home (R268). -/
def QAt (s : State) (q : Queue) (acc : Access) (va : Word) (n : Nat) (p : Place) : Prop :=
  va.toNat % 65536 + n ≤ 65536 ∧ s.poisoned p n = false ∧ (acc = .write → ∀ f ∈ s.flyWrites, s.owed q.home p f = false) ∧
  ∃ x, s.translate q.home q.ctx ((s.context q.ctx).flags.getLsbD 0) acc va = .ok x ∧ x.place = some p

/-- The die of a queue's front-end holds the translation of an address in its TLB (R208). -/
def QCached (s : State) (q : Queue) (va : Word) : Prop :=
  ∃ e ∈ (s.die q.home).tlb, e.covers q.ctx (va.toNat / 65536) = true

/-- Memory holds the bytes `bs` from key `k` on. -/
def Holds (s : State) (k : Nat) (bs : List Byte) : Prop := ∀ i, i < bs.length → some (Memory.read s.mem (k + i)) = bs[i]?

/-- The queue has stopped at an entry with a cause (R92): its state is error, ERR names both, and firmware is told by a note of
cause 49. `p`: the place of ERR. -/
def QueueFails (s t : State) (k ix cause : Nat) (p : Place) : Prop :=
  let q := s.queue k
  QueueStep k s { t with mgmt := s.mgmt } ∧ (t.queue k).desc = { q.desc with state := 5 } ∧
  (t.queue k).cmds = q.cmds.filter (fun c => c.index != ix) ∧ (t.queue k).done = q.done ∧ (t.queue k).h = q.h ∧
  (∃ e, (t.queue k).err = some e ∧ e.index = ix ∧ e.cause = cause) ∧
  Holds t p.key (leBytes 8 (ix % 2 ^ 32 + cause * 2 ^ 32)) ∧ MemSameBut s t p.key 8 ∧
  ∃ r, t.mgmt = s.mgmt ++ [.rcd q.home r 0] ∧ r.cause = 49 ∧ r.ctx = q.ctx ∧ r.va = BitVec.ofNat 64 k ∧
    r.elem = BitVec.ofNat 32 ix ∧ r.detail = BitVec.ofNat 64 cause

/-- ERR of the queue can be written, at place `p`. -/
def ErrAt (s : State) (k : Nat) (p : Place) : Prop :=
  MemOk s ∧ s.qBlocked (s.queue k) ((s.queue k).desc.qcb + 0x30) 8 = false ∧
  QAt s (s.queue k) .write ((s.queue k).desc.qcb + 0x30) 8 p

end Sys2Proof.Claims

/-- R87, R88, R93, R94: creating, starting, stopping, skipping, retrying and destroying a queue. That NOTIFY and a message that waits
stay as a queue is created and destroyed is the model's reading (log 45, DEDUCED). -/
def Obligations.QueueLifecycle : Prop :=
  ∀ (s : State) (d : QueueDesc) (k : Nat) (p : Place) (e : QueueStop) (next : Word),
    let n := d.queueId.toNat
    let new : Queue := { desc := { d with state := 1 }, nextAddr := d.first, notify := (s.queue n).notify, pending := (s.queue n).pending }
    let q := s.queue k
    let halted := q.cmds.map (fun c => if c.op = 3 ∧ c.outstanding = true then { c with started := false } else c)
    (MemOk s → n < 1024 → (s.queue n).desc.state = 0 → s.qBlocked new (d.qcb + 8) 48 = false → QAt s new .write (d.qcb + 8) 48 p →
      ∃ t, exec (.queueCreate d) s = .next t ∧ QueueStep n s t ∧ t.queue n = new ∧ Holds t p.key (List.replicate 48 0) ∧
        MemSameBut s t p.key 48) ∧
    (1024 ≤ n ∨ (s.queue n).desc.state ≠ 0 → exec (.queueCreate d) s = .next s) ∧
    (q.desc.state = 1 → ∃ t, exec (.queueStart k) s = .next t ∧ OnlyQueue k s t ∧
      t.queue k = { q with desc := { q.desc with state := 2 }, noticed := true }) ∧
    (q.desc.state ≠ 1 → exec (.queueStart k) s = .next s) ∧
    (q.desc.state = 2 ∨ q.desc.state = 3 →
      ∃ t st, exec (.queueStop k) s = .next t ∧ OnlyQueue k s t ∧
        t.queue k = { q with desc := { q.desc with state := st }, cmds := halted } ∧ (st = 1 ∨ st = 4) ∧
        (st = 1 ↔ ∀ c ∈ q.cmds, c.op ≠ 3 → c.outstanding = false)) ∧
    (q.desc.state ≠ 2 → q.desc.state ≠ 3 → exec (.queueStop k) s = .next s) ∧
    (q.desc.state = 5 → q.err = some e →
      (∃ t c, exec (.queueSkip k next) s = .next t ∧ OnlyQueue k s t ∧
        { t.queue k with nextAddr := q.nextAddr } =
          { q with desc := { q.desc with state := 2 }, next := e.index + 1, cmds := q.cmds ++ [c], err := none, noticed := true } ∧
        c.index = e.index ∧ c.started = true ∧ c.complete = true ∧ c.cw = BitVec.ofNat 64 (1 + e.cause * 256) ∧ c.digest = 0 ∧
        (∀ bs, e.entry = some bs → cutN bs 8 8 % 64 = 0 → (t.queue k).nextAddr = cutW bs 8) ∧
        ((e.entry = none ∨ ∃ bs, e.entry = some bs ∧ cutN bs 8 8 % 64 ≠ 0) → (t.queue k).nextAddr = next)) ∧
      ∃ t, exec (.queueRetry k) s = .next t ∧ OnlyQueue k s t ∧
        t.queue k = { q with desc := { q.desc with state := 2 }, next := e.index, nextAddr := e.addr, err := none, noticed := true }) ∧
    (q.desc.state ≠ 5 → exec (.queueSkip k next) s = .next s ∧ exec (.queueRetry k) s = .next s) ∧
    (q.desc.state = 1 ∨ q.desc.state = 5 → ∃ t, exec (.queueDestroy k) s = .next t ∧ OnlyQueue k s t ∧ (t.queue k).desc.state = 0 ∧
      (t.queue k).cmds = [] ∧ (t.queue k).notify = q.notify ∧ (t.queue k).pending = q.pending) ∧
    (q.desc.state ≠ 1 → q.desc.state ≠ 5 → exec (.queueDestroy k) s = .next s)

/-- R89, R92, R333: a plain store to TAIL is noticed; a doorbell raises TAIL to its value and never lowers it; an entry is fetched
when TAIL exceeds its index, and one that fails a check stops the queue. -/
def Obligations.EntriesAreFetchedOnce : Prop :=
  ∀ (s : State) (k n : Nat) (v : Word) (p pe pr : Place),
    let q := s.queue k
    let tail := memNat s p.key 8
    let bs := s.readPlace pe 64
    let b := n % 1024
    let x := s.queue b
    let ready := q.desc.state = 2 ∧ q.noticed = true ∧ (∀ c, q.cmds.getLast? = some c → c.started = true ∨ c.complete = true)
    (MemOk s → QAt s q .read q.desc.qcb 8 p → s.qHeld q q.desc.qcb 8 = false → q.desc.state ≠ 0 → q.next < tail →
      ∃ t, exec (.tailStoreNoticed k) s = .next t ∧ OnlyQueue k s t ∧ t.queue k = { q with noticed := true }) ∧
    (MemOk s → (s.port 16).usable = true → s.hostPosts = [] → x.desc.state ≠ 0 → s.qBlocked x x.desc.qcb 8 = false →
      QAt s x .read x.desc.qcb 8 p → QAt s x .write x.desc.qcb 8 p →
      ∃ t, exec (.doorbellTailWrite n v) s = .next t ∧ QueueStep b s t ∧ t.queue b = { x with noticed := true } ∧
        Holds t p.key (leBytes 8 (max tail v.toNat)) ∧ MemSameBut s t p.key 8) ∧
    ((s.port 16).usable = true → s.hostPosts = [] → x.desc.state = 0 →
      ∃ t, exec (.doorbellTailWrite n v) s = .next t ∧ { t with ports := s.ports } = s ∧
        ((s.port 16).errcnt ≠ 0xFFFF → (t.port 16).errcnt = (s.port 16).errcnt + 1)) ∧
    (MemOk s → ready → QAt s q .read q.desc.qcb 8 p → s.qHeld q q.desc.qcb 8 = false → s.qHeld q q.nextAddr 64 = false →
      (tail ≤ q.next → ∃ t, exec (.entryFetch k) s = .next t ∧ OnlyQueue k s t ∧ t.queue k = { q with noticed := false }) ∧
      (q.next < tail → QAt s q .read q.nextAddr 64 pe →
        (s.entryStop q bs = none →
          ∃ t c, exec (.entryFetch k) s = .next t ∧ OnlyQueue k s t ∧
            t.queue k = { q with next := q.next + 1, nextAddr := cutW bs 8, cmds := q.cmds ++ [c] } ∧
            c.index = q.next ∧ c.entryAddr = q.nextAddr ∧ c.op = cutN bs 0 1 ∧ (c.bar = true ↔ cutN bs 1 1 = 1) ∧ c.bytes = bs ∧
            c.started = false ∧ c.complete = false) ∧
        (∀ cause, s.entryStop q bs = some cause → ErrAt s k pr →
          ∃ t, exec (.entryFetch k) s = .next t ∧ QueueFails s t k q.next cause pr) ∧
        (6 < cutN bs 0 1 → s.entryStop q bs = some 1) ∧
        (cutN bs 0 1 ≤ 6 → (cutN bs 1 1 < 2 ∧ cutN bs 2 6 = 0 ∧ zeroAt bs (namedEnd (cutN bs 0 1)) 48 = true) →
          (cutN bs 0 1 = 2 → cutN bs 0x24 4 < 2) → cutN bs 8 8 % 64 ≠ 0 → s.entryStop q bs = some 2)) ∧
      (∀ c, s.translate q.home q.ctx ((s.context q.ctx).flags.getLsbD 0) .read q.nextAddr = .error c → q.next < tail → ErrAt s k pr →
        ∃ t, exec (.entryFetch k) s = .next t ∧ QueueFails s t k q.next 3 pr))

namespace Sys2Proof.Claims
open Machine

/-- The command `c` with a given OP is the last fetched of a running queue, and R91 lets it start. -/
def Ready (s : State) (k op : Nat) (pre : List Command) (c : Command) : Prop :=
  let q := s.queue k
  let left := pre.filter (fun e => !e.complete)
  q.desc.state = 2 ∧ q.cmds = pre ++ [c] ∧ c.op = op ∧ c.started = false ∧ c.complete = false ∧ (∀ e ∈ pre, e.index ≠ c.index) ∧
  (c.bar = true ∨ 4 ≤ op → left = []) ∧
  (c.bar = false → op < 4 → (∀ e ∈ left, e.op < 3) ∧ (op = 1 ∨ op = 2 → (left.filter (fun e => e.op == 1 || e.op == 2)).length < 8))

/-- The command has completed, with a completion word and a digest; nothing else of its queue changed. -/
def Finished (s t : State) (k : Nat) (pre : List Command) (c : Command) (cw : Word) (digest : BitVec 256) : Prop :=
  t.queue k = { s.queue k with cmds := pre ++ [{ c with started := true, complete := true, cw := cw, digest := digest }] }

/-- A WAITC of a waiting queue (R91, R93). -/
def Pending (s : State) (k : Nat) (pre : List Command) (c : Command) : Prop :=
  let q := s.queue k
  q.desc.state = 3 ∧ q.cmds = pre ++ [c] ∧ c.op = 3 ∧ c.started = true ∧ c.complete = false ∧ (∀ e ∈ pre, e.index ≠ c.index) ∧
  ∀ e ∈ pre, e.op = 3 → e.outstanding = false

end Sys2Proof.Claims

/-- R91, R92, R95, R96: NOP and FENCE complete; WAITC completes when its counter has reached its value, waits while it has not, and
stops its queue at its timeout; SIGNAL stores or adds, and the queues of its die that wait read their counters again; HASH writes the
report of H; DONE advances with H and its message, which goes to NOTIFY as it stood then. The model's choices: the secret of the
report's signature is drawn from a free value, four draws of it (log 12, DESIGN CHOICE); a SIGNAL to a line with replicas acts on the one
its die reaches (log 75, DESIGN CHOICE). -/
def Obligations.QueueCommandsRun : Prop :=
  ∀ (s : State) (k : Nat) (pre : List Command) (c : Command) (p pr ph : Place),
    let q := s.queue k
    let others := fun t : State => ∀ j, j ≠ k →
      ((s.queue j).home ≠ q.home ∨ (s.queue j).waitc = none → t.queue j = s.queue j) ∧
      (∀ w, (s.queue j).home = q.home → (s.queue j).waitc = some w →
        t.queue j = if t.qHeld (s.queue j) (cutW w.bytes 0x10) 8 = false ∧
              cutN w.bytes 0x18 8 ≤ t.qWord (s.queue j) (cutW w.bytes 0x10) then
            { s.queue j with desc := { (s.queue j).desc with state := 2 }
                             cmds := (s.queue j).cmds.map (fun e => if e.index = w.index then e.finish 0 0 else e) }
          else s.queue j)
    let a := cutW c.bytes 0x10
    let v := cutN c.bytes 0x18 8
    let met := v ≤ memNat s p.key 8
    let limit := cutN c.bytes 0x20 8
    let spent := ((s.die q.home).gtc - c.since).toNat
    let body := reportBody k q (s.die q.home).gtc (cut c.bytes 0x18 32)
    let sig := signDigest (sha256 body) s.freeDraws
    let report := body ++ bigBytes 32 sig.1 ++ bigBytes 32 sig.2
    (Ready s k 0 pre c → ∃ t, exec (.nopCmd k) s = .next t ∧ OnlyQueue k s t ∧ Finished s t k pre c 0 0) ∧
    (Ready s k 6 pre c → s.queueQuiet k (cutN c.bytes 0x10 1) = true → ∃ t, exec (.fenceCommand k) s = .next t ∧ OnlyQueue k s t ∧ Finished s t k pre c 0 0) ∧
    (MemOk s → Ready s k 3 pre c → QAt s q .read a 8 p → s.qHeld q a 8 = false →
      (met → ∃ t, exec (.waitcCmd k) s = .next t ∧ OnlyQueue k s t ∧ Finished s t k pre c 0 0) ∧
      (¬met → ∃ t, exec (.waitcCmd k) s = .next t ∧ OnlyQueue k s t ∧
        t.queue k = { q with desc := { q.desc with state := 3 }
                             cmds := pre ++ [{ c with started := true, since := (s.die q.home).gtc }] })) ∧
    (MemOk s → Pending s k pre c → QAt s q .read a 8 p → s.qHeld q a 8 = false →
      (met → ∃ t, exec (.waitcRecheck k) s = .next t ∧ OnlyQueue k s t ∧
        t.queue k = { q with desc := { q.desc with state := 2 }, cmds := pre ++ [c.finish 0 0] }) ∧
      (¬met → exec (.waitcRecheck k) s = .next s)) ∧
    (Pending s k pre c → ErrAt s k pr →
      (limit ≠ 0 → limit ≤ spent → ∃ t, exec (.waitcTimeout k) s = .next t ∧ QueueFails s t k c.index 5 pr) ∧
      (limit = 0 ∨ spent < limit → exec (.waitcTimeout k) s = .next s)) ∧
    (MemOk s → Ready s k 4 pre c → s.qBlocked q a 8 = false → s.queueQuiet k 4 = true →
      (cutN c.bytes 0x20 1 = 1 → QAt s q .read a 8 p) → QAt s q .write a 8 p →
      ∃ t, exec (.signalCmd k) s = .next t ∧ QueueMemory s t ∧ others t ∧ Finished s t k pre c 0 0 ∧ MemSameBut s t p.key 8 ∧
        Holds t p.key (leBytes 8 (if cutN c.bytes 0x20 1 = 1 then (memNat s p.key 8 + v) % 2 ^ 64 else v))) ∧
    (MemOk s → Ready s k 5 pre c → q.done.toNat = c.index → s.qBlocked q a 192 = false → QAt s q .write a 192 p →
      ∃ t, exec (.hashCmd k) s = .next t ∧ QueueStep k s { t with freeDraws := s.freeDraws } ∧ Finished s t k pre c 0 (sha256 report) ∧
        MemSameBut s t p.key 192 ∧ Holds t p.key report ∧ t.freeDraws = s.freeDraws + 4) ∧
    (∀ r, MemOk s → q.cmds = c :: r → c.complete = true → q.desc.state ≠ 0 → c.index = q.done.toNat → s.qBlocked q q.desc.qcb 64 = false →
      s.queueQuiet k 4 = true →
      QAt s q .write (q.desc.qcb + 8) 8 p → QAt s q .write (q.desc.qcb + 0x10) 32 ph → QCached s q (q.desc.qcb + 8) →
      ph.key = p.key + 8 →
      let h := sha256 (digestBytes q.h ++ leBytes 8 (c.index + 1) ++ leBytes 8 c.lid ++ leBytes 8 c.cw.toNat ++ digestBytes c.digest)
      ∃ t, exec (.doneAdvance k) s = .next t ∧ QueueStep k s t ∧ MemSameBut s t p.key 40 ∧
        Holds t ph.key (digestBytes h) ∧ Holds t p.key (leBytes 8 (c.index + 1)) ∧
        (t.queue k).h = h ∧ (t.queue k).done = q.done + 1 ∧ (t.queue k).cmds = r ∧
        (t.queue k).pending = (if q.notify = 0 then q.pending
          else some (q.notify, BitVec.ofNat 64 ((q.done + 1).toNat % 2 ^ 48 * 2 ^ 16 + k % 1024))) ∧
        (q.desc.state ≠ 4 → (t.queue k).desc = q.desc)) ∧
    (∀ m, MemOk s → q.pending = some m → (s.port 16).usable = true →
      ∃ t, exec (.notifyMessage k) s = .next t ∧ t.queue k = { q with pending := none } ∧ (∀ j, j ≠ k → t.queue j = s.queue j) ∧
        t.hostMsgs = s.hostMsgs ++ [m] ∧ Holds t (2 ^ 64 + m.1.toNat) (leBytes 8 m.2.toNat) ∧
        MemSameBut s t (2 ^ 64 + m.1.toNat) 8 ∧ t.strands = s.strands) ∧
    (q.pending = none → exec (.notifyMessage k) s = .next s)

/-- R78, R91, R92, R95: a COPY's destination takes its source's bytes, or the chunk that its tag authenticates; completing it writes
the completion word into its entry, with the digest of the destination as it stands. The model's choice (log 75, DESIGN CHOICE): the
source of ranges that overlap is taken as it stood. -/
def Sys2Proof.Claims.CopyCommandsMoveBytes : Prop :=
  ∀ (s : State) (k : Nat) (pre : List Command) (c : Command) (ps pd : Nat → Place) (pc : Place) (bs plain : List Byte),
    let q := s.queue k
    let x := s.context q.ctx
    let dst := cutW c.bytes 0x10
    let src := cutW c.bytes 0x18
    let n := cutN c.bytes 0x20 4
    let sealed := cutN c.bytes 0x24 1 % 2 = 1
    let started := fun cw : Word => { q with cmds := pre ++ [{ c with started := true, cw := cw }] }
    let dstOk := ∀ i, i < n → QAt s q .write (dst + BitVec.ofNat 64 i) 1 (pd i) ∧ QCached s q (dst + BitVec.ofNat 64 i) ∧
      ∀ j, j < n → (pd i).key = (pd j).key → i = j
    (StateOk s → Ready s k 2 pre c → s.qBlocked q dst n = false → s.qHeld q src (n + 16) = false → dstOk → ¬sealed →
      (∀ i, i < n → QAt s q .read (src + BitVec.ofNat 64 i) 1 (ps i)) →
      ∃ t, exec (.copyCmd k) s = .next t ∧ CopyStep k s t ∧ t.queue k = started 0 ∧
        (∀ i, i < n → Memory.read t.mem (pd i).key = Memory.read s.mem (ps i).key) ∧
        ∀ a, (∀ i, i < n → (pd i).key ≠ a) → Memory.read t.mem a = Memory.read s.mem a) ∧
    (StateOk s → Ready s k 2 pre c → s.qBlocked q dst n = false → s.qHeld q src (n + 16) = false → dstOk → sealed →
      spanAll (s.pageSecure q.home q.ctx) dst n (n / 65536 + 2) = true → s.qRead q src (n + 16) = .ok bs → x.flags.getLsbD 2 = true →
      openChunk (s.keys.getD x.keySlot.toNat 0) (cutW c.bytes 0x28) (bs.take n) (bs.drop n) = some plain → plain.length = n →
      ∃ t, exec (.copyCmd k) s = .next t ∧ CopyStep k s t ∧ t.queue k = started 0 ∧
        (∀ i, i < n → some (Memory.read t.mem (pd i).key) = plain[i]?) ∧
        ∀ a, (∀ i, i < n → (pd i).key ≠ a) → Memory.read t.mem a = Memory.read s.mem a) ∧
    (q.desc.state ≠ 4 → q.cmds.find? (fun e => e.op == 2 && e.outstanding) = some c → s.qBlocked q (c.entryAddr + 0x38) 8 = false →
      s.linkPending q.source = false → s.qHeld q dst n = false → MemOk s → QAt s q .write (c.entryAddr + 0x38) 8 pc →
      ∃ t, exec (.copyCommandComplete k) s = .next t ∧ QueueStep k s t ∧ MemSameBut s t pc.key 8 ∧ Holds t pc.key (leBytes 8 c.cw.toNat) ∧
        t.queue k = { q with cmds := q.cmds.map (fun e => if e.index = c.index then
          { e with started := true, complete := true, cw := c.cw, digest := sha256 (t.readRanges q.home q.ctx [(dst, n)]) } else e) })

/-- R92, R108, R109, R115: a LAUNCH takes its snapshot when its header, its parameter block and a cluster for its groups are
there, and stops its queue with cause 1, 2, 3 or 6 where not (3 for a PARAMBASE that is not mapped: log 64, DEDUCED; what a cluster can
hold, which firmware answers: log 75, DESIGN CHOICE); a launch all of whose groups are over completes with its
completion word and the digest of its declared outputs. -/
def Sys2Proof.Claims.LaunchesStartAndComplete : Prop :=
  ∀ (s : State) (k : Nat) (pre : List Command) (c : Command) (h : Header) (l : Launch) (pr pc : Place),
    let q := s.queue k
    let key : LaunchKey := ⟨k, c.lid⟩
    let header := cutW c.bytes 0x10
    let params := cutW c.bytes 0x18
    let word : Word := BitVec.ofNat 64 (l.strands.toNat * 2 ^ 32 + l.flags.toNat * 2 ^ 16 + l.cause.toNat * 256 +
      (if l.eddy = true then 4 else 0) + (if l.rollbk = true then 2 else 0) + (if l.cause = 0 then 0 else 1))
    let stops := fun n : Nat => ∃ t, exec (.launchCmd k) s = .next t ∧ QueueFails s t k c.index n pr
    (Ready s k 1 pre c → look s.launches key = none → s.qHeld q header 128 = false → s.readHeader q.home q.ctx header params = .ok h →
      s.qMapped q .read false params 1 = true → s.placeable q.ctx h = true →
      ∃ t, exec (.launchCmd k) s = .next t ∧ { t with queues := s.queues, launches := s.launches, loaded := s.loaded } = s ∧
        (∀ j, j ≠ k → t.queue j = s.queue j) ∧ t.queue k = { q with cmds := pre ++ [{ c with started := true }] } ∧
        (∀ j, j ≠ key → look t.launches j = look s.launches j) ∧
        ∃ m, look t.launches key = some m ∧ m.ctx = q.ctx ∧ m.header = h ∧ m.paramBase = params ∧ m.ngroups = cutN c.bytes 0x20 4 ∧
          m.strands = 0 ∧ m.flags = 0 ∧ m.cause = 0 ∧ m.stopped = false) ∧
    (Ready s k 1 pre c → look s.launches key = none → s.qHeld q header 128 = false → ErrAt s k pr →
      (header.toNat % 64 ≠ 0 → stops 2) ∧
      (∀ n, s.readHeader q.home q.ctx header params = .error n → stops n) ∧
      (s.readHeader q.home q.ctx header params = .ok h → s.qMapped q .read false params 1 = false → stops 3) ∧
      (s.readHeader q.home q.ctx header params = .ok h → s.qMapped q .read false params 1 = true → s.placeable q.ctx h = false →
        stops 6)) ∧
    (MemOk s → q.desc.state ≠ 4 → look s.launches key = some l → s.launchOver key l = true →
      q.cmds.find? (fun e => e.op == 1 && e.lid == c.lid && e.outstanding) = some c → s.qBlocked q (c.entryAddr + 0x38) 8 = false →
      (∀ r ∈ l.header.outs, s.qHeld q r.1 r.2 = false) → QAt s q .write (c.entryAddr + 0x38) 8 pc →
      ∃ t, exec (.launchComplete key) s = .next t ∧ MemSameBut s t pc.key 8 ∧ Holds t pc.key (leBytes 8 word.toNat) ∧
        look t.launches key = none ∧ (∀ g ∈ t.groups, g.1.launch ≠ key) ∧
        t.queue k = { q with cmds := q.cmds.map (fun e => if e.index = c.index then
          { e with started := true, complete := true, cw := word, digest := sha256 (s.readRanges q.home q.ctx l.header.outs) } else e) } ∧
        t.strands = s.strands) ∧
    (look s.launches key = none → exec (.launchComplete key) s = .next s) ∧
    (look s.launches key = some l → s.launchOver key l = false → exec (.launchComplete key) s = .next s)

/-! ## The loader -/

/-- R101 to R107, R113: how a relocation record stands in the file; what the loader refuses and reports; the lowest failing record names
the code; the values written into the fields; a patch changes its own bits alone; loading maps an object, and unloading drops the
translations of its pages, unless a kernel of it is launched; both wait while rows are copied into a spare (R211). That a file whose
tables do not lie within it is refused with code 6 is the model's choice (log 72, DESIGN CHOICE). -/
def Obligations.ObjectsLoadAndUnload : Prop :=
  ∀ (s w : State) (f : ObjFile) (i c : Nat) (ps : List Patch) (r : ObjReloc) (x : Nat) (q : Patch) (off : Nat) (bs : List Byte)
    (ctx base : Nat) (l : Loaded),
    let o := readObject f
    let known := s.knownSymbols o.ctxid
    let v : Int := (x : Int) + r.addend
    let d : Int := v - ((o.base + r.place : Nat) : Int)
    let held := r.reserved = 0 ∧ r.sym < o.symbols.length ∧ fieldHeld o r = true ∧ symbolAddr known o r.sym = some x
    let at_ := q.place - off
    let out := q.apply off bs
    let mine := fun e : Loaded => e.ctx == ctx && e.base == base
    (∀ pre post : List Byte, r.place < 2 ^ 64 → r.sym < 2 ^ 32 → r.kind < 2 ^ 8 → r.reserved < 2 ^ 24 → -(2 ^ 63) ≤ r.addend →
      r.addend < 2 ^ 63 →
      readReloc (pre ++ leBytes 8 r.place ++ leBytes 4 r.sym ++ leBytes 1 r.kind ++ leBytes 3 r.reserved
        ++ leBytes 8 (r.addend % 2 ^ 64).toNat ++ post) pre.length 0 = r) ∧
    (s.copying = true → exec (.objectLoad f) s = .next s ∧ exec (.objectUnload ctx base) s = .next s) ∧
    (s.copying = false → headerAccepted o = false →
      ∃ t, exec (.objectLoad f) s = .next t ∧ OnlyTold s t (.objectRejected o.ctxid 0xFFFFFFFF 6)) ∧
    (s.copying = false → headerAccepted o = true → relocateAll known o 0 o.relocs = .error (i, c) →
      (∃ t, exec (.objectLoad f) s = .next t ∧ OnlyTold s t (.objectRejected o.ctxid i c)) ∧
      (∃ b, o.relocs[i]? = some b ∧ relocate known o b = .error c) ∧
      ∀ j b, j < i → o.relocs[j]? = some b → ∃ qs, relocate known o b = .ok qs) ∧
    (held →
      (r.kind = 0 → 0 ≤ v → v < 2 ^ 48 → relocate known o r = .ok [⟨r.place, 8, 2 ^ 64 - 1, v.toNat⟩]) ∧
      (r.kind = 0 → v < 0 ∨ 2 ^ 48 ≤ v → relocate known o r = .error 1) ∧
      (r.kind = 1 → -(2 ^ 19) ≤ (v + 2048) / 4096 → (v + 2048) / 4096 < 2 ^ 19 →
        relocate known o r = .ok [⟨r.place, 4, 2 ^ 20 - 1, ((v + 2048) / 4096 % 2 ^ 20).toNat⟩]) ∧
      (r.kind = 2 → relocate known o r = .ok [⟨r.place, 4, 2 ^ 12 - 1, (v % 4096).toNat⟩]) ∧
      (r.kind = 3 → -(2 ^ 19) ≤ (d + 2048) / 4096 → (d + 2048) / 4096 < 2 ^ 19 →
        relocate known o r = .ok [⟨r.place, 4, 2 ^ 20 - 1, ((d + 2048) / 4096 % 2 ^ 20).toNat⟩]) ∧
      (r.kind = 4 → ∀ y, pcHiValue known o x = some (some y) →
        relocate known o r = .ok [⟨r.place, 4, 2 ^ 12 - 1, (y % 4096).toNat⟩]) ∧
      (r.kind = 4 → pcHiValue known o x = none → relocate known o r = .error 4) ∧
      (r.kind = 5 ∨ r.kind = 6 → d % 4 ≠ 0 → relocate known o r = .error 2) ∧
      (r.kind = 5 → d % 4 = 0 → -(2 ^ 11) ≤ d / 4 → d / 4 < 2 ^ 11 →
        relocate known o r = .ok [⟨r.place, 4, 2 ^ 12 - 1, (d / 4 % 2 ^ 12).toNat⟩]) ∧
      (r.kind = 6 → d % 4 = 0 → -(2 ^ 19) ≤ d / 4 → d / 4 < 2 ^ 19 →
        relocate known o r = .ok [⟨r.place, 4, 2 ^ 20 - 1, (d / 4 % 2 ^ 20).toNat⟩])) ∧
    (∀ a : Int, 4096 * hiPart a + toSigned 12 (wrapInt 12 a) = a) ∧
    (∀ n, (n + textPad n) % 64 = 0 ∧ 4 ≤ textPad n ∧ (n % 4 = 0 → textPad n ≤ 64) ∧ (n % 64 = 0 → textPad n = 64)) ∧
    (off ≤ q.place → q.place + q.bytes ≤ off + bs.length → q.value ≤ q.bits → (∃ m, q.bits + 1 = 2 ^ m ∧ m ≤ 8 * q.bytes) →
      out.length = bs.length ∧ cutN out at_ q.bytes % (q.bits + 1) = q.value ∧
      cutN out at_ q.bytes / (q.bits + 1) = cutN bs at_ q.bytes / (q.bits + 1) ∧
      ∀ j, j < at_ ∨ at_ + q.bytes ≤ j → out[j]? = bs[j]?) ∧
    (s.copying = false → headerAccepted o = true → relocateAll known o 0 o.relocs = .ok ps → s.mapObject o (loadParts known o ps) = some w →
      ∃ t m, exec (.objectLoad f) s = .next t ∧ t.mem = w.mem ∧ t.loaded = s.loaded ++ [m] ∧ m.ctx = o.ctxid ∧ m.base = o.base ∧
        m.frames = o.frames ∧ t.strands = s.strands ∧ t.mgmt = s.mgmt) ∧
    (s.copying = false → s.loaded.find? mine = some l → (∃ k ∈ l.kernels, k.2 ≠ 0) →
      ∃ t, exec (.objectUnload ctx base) s = .next t ∧ OnlyTold s t (.unloadRefused ctx base)) ∧
    (s.copying = false → s.loaded.find? mine = some l → (∀ k ∈ l.kernels, k.2 = 0) →
      ∃ t, exec (.objectUnload ctx base) s = .next t ∧ t.loaded = s.loaded.filter (fun e => !mine e) ∧ t.strands = s.strands ∧
        ∀ j ∈ l.pages, ∀ n, (∀ e ∈ (t.die n).tlb, e.covers ctx (base / 65536 + j) = false) ∧
          ∀ m, ∀ e ∈ (t.die n).l1Tlb.getD m [], e.covers ctx (base / 65536 + j) = false)

/-! ## Migration, the tracker, the frame map -/

namespace Sys2Proof.Claims
open Machine

/-- A die's unit can write at a frame address, at place `p`: it is there, and no write that the die knows of is still on its way to
that home (R268). -/
def FrameAt (s : State) (die fa : Nat) (p : Place) : Prop :=
  ∃ x, s.resolve die true .write fa = .ok x ∧ x.place = some p ∧ p.exists = true ∧ ∀ f ∈ s.flyWrites, s.owed die p f = false

/-- The notification ring of a die has room, and its next record and its TAIL are at places that can be written (R219). -/
def RingAt (s : State) (die : Nat) (h : List Byte) (pr pt : Place) : Prop :=
  let hdr := bitsN (s.die die).ntqbase 6 42 * 64
  let tail := cutN h 8 8
  let lg := cutN h 0x10 1
  MemOk s ∧ s.frameRead die hdr 64 = some h ∧ s.ringBlocked die = false ∧ 4 ≤ lg ∧ lg ≤ 16 ∧
  (tail + 2 ^ 64 - cutN h 0 8) % 2 ^ 64 ≠ 2 ^ lg ∧ FrameAt s die (hdr + 0x40 + 32 * (tail % 2 ^ lg)) pr ∧ FrameAt s die (hdr + 8) pt ∧
  (pr.key + 32 ≤ pt.key ∨ pt.key + 8 ≤ pr.key)

/-- The ring has taken a record of 32 bytes, and TAIL has grown by one; no other byte changed (R219). -/
def RingTakes (s t : State) (h : List Byte) (pr pt : Place) (c : Crossing) : Prop :=
  Holds t pr.key (leBytes 8 (c.frame * 65536) ++ leBytes 4 c.count ++ leBytes 1 c.kind ++ leBytes 3 0
    ++ leBytes 8 c.gtc.toNat ++ leBytes 2 c.source ++ leBytes 2 0 ++ leBytes 4 c.extra) ∧
  Holds t pt.key (leBytes 8 ((cutN h 8 8 + 1) % 2 ^ 64)) ∧
  ∀ a, (a < pr.key ∨ pr.key + 32 ≤ a) → (a < pt.key ∨ pt.key + 8 ≤ a) → Memory.read t.mem a = Memory.read s.mem a

end Sys2Proof.Claims

/-- R216, R220, R221: a migration ends with the frame's bytes and poison at the new location, an entry that names it with W
clear, no cached copy of the old one, and status 0 for the `pgmig` that waits; while a write through the old entry is
unacknowledged it does not end. -/
def Sys2Proof.Claims.MigrationMovesTheFrame : Prop :=
  ∀ (s : State) (frame src : Nat) (m : Migration) (old new : Place),
    let f := s.fmap.getD frame {}
    let u := s.strand src
    s.migrations.find? (fun r => r.frame == frame) = some m → f.place m.die 0 = some old → destPlace m.dest 0 = some new →
    (s.unacknowledged old = true → exec (.migrationComplete frame) s = .next s) ∧
    (s.unacknowledged old = false → s.spaceBusy old = false → s.spaceBusy new = false → MemOk s → s.hostPosts = [] → m.owner = some src →
      ∃ t g, exec (.migrationComplete frame) s = .next t ∧
        (∀ i, i < 65536 → Memory.read t.mem (new.key + i) = Memory.read s.mem (old.key + i)) ∧ MemSameBut s t new.key 65536 ∧
        (∀ n, n < 1024 → (lineOf new.key + n ∈ t.poison ↔ lineOf old.key + n ∈ s.poison)) ∧
        t.fmap.getD frame {} = g ∧ (∀ d, g.place d 0 = some new) ∧ g.w = false ∧ g.s = f.s ∧ g.p = f.p ∧
        (∀ j, j ≠ frame → t.fmap.getD j {} = s.fmap.getD j {}) ∧ (∀ d, (t.die d).fmCache.find frame = none) ∧
        (∀ r ∈ t.migrations, r.frame ≠ frame) ∧ (∀ j, j ≠ src → t.strand j = s.strand j) ∧
        (m.waits = true → u.wait = .migration frame → (t.strand src).pc = u.pc + 4 ∧ (t.strand src).wait = .none ∧ (t.strand src).reg m.sd = 0 ∧
          (∀ n, n ≠ m.sd → (t.strand src).reg n = u.reg n) ∧
          (t.strand src).st = (if u.st = .halted then .halted else .running)) ∧
        (m.waits = false ∨ u.wait ≠ .migration frame → t.strand src = u))

/-- R217 to R219, R280, R282: an access counts, and the one that first reaches THRESH in its period makes a record with its time, source
and count; records are posted oldest first, and a full ring counts a drop; a period that is over clears the counters and starts the
next, for the access that comes after its end as well, and with automatic migration moves the hottest host frames: higher counts first, the lower frame on a tie. -/
def Obligations.TrackerReportsAndMigrates : Prop :=
  ∀ (s : State) (die frame src : Nat) (h : List Byte) (pr pt pd : Place) (x : Xl) (off head n : Nat) (hit : Bool) (c : Crossing)
    (rest : List Crossing),
    let k := die % 8
    let d := s.die k
    let over_ := bitN d.trkcfg 0 = true ∧ 2 ^ d.periodLen ≤ (d.gtc - d.periodStart).toNat
    let next := d.periodStart + BitVec.ofNat 64 (2 ^ d.periodLen)
    let len := bitsN d.trkcfg 8 8
    let hdr := bitsN d.ntqbase 6 42 * 64
    let limit := max 1 (bitsN d.trkcfg 48 16)
    let e := (s.countAccess k src x).die k
    (bitN d.trkcfg 0 = true → x.fme.kind = 3 → x.fme.t = true → over_ → e.counters = [(x.frame, (1, decide (limit ≤ 1)))]) ∧
    (bitN d.trkcfg 0 = true → x.fme.kind = 3 → x.fme.t = true → ¬over_ → d.counters.find x.frame = some (n, hit) → n + 1 < 2 ^ 32 →
      e.counters.find x.frame = some (n + 1, hit || decide (limit ≤ n + 1)) ∧
      (hit = false → limit ≤ n + 1 → e.crossings = d.crossings ++ [⟨x.frame, src, d.gtc, n + 1, 0, 0⟩]) ∧
      (hit = true ∨ n + 1 < limit → e.crossings = d.crossings)) ∧
    (bitN d.trkcfg 0 = false ∨ x.fme.kind ≠ 3 ∨ x.fme.t = false → s.countAccess k src x = s) ∧
    (d.crossings = c :: rest → RingAt s k h pr pt →
      ∃ t, exec (.trackerThreshold die c.frame c.source) s = .next t ∧ RingTakes s t h pr pt c ∧ (t.die k).crossings = rest ∧
        t.strands = s.strands) ∧
    (d.crossings = c :: rest → c.frame ≠ frame ∨ c.source ≠ src → exec (.trackerThreshold die frame src) s = .next s) ∧
    (d.crossings = [] → exec (.trackerThreshold die frame src) s = .next s) ∧
    (d.crossings = c :: rest → c.frame = frame → c.source = src → MemOk s → s.ringBlocked k = false → s.frameRead k hdr 64 = some h → 4 ≤ cutN h 0x10 1 → cutN h 0x10 1 ≤ 16 →
      (cutN h 8 8 + 2 ^ 64 - cutN h 0 8) % 2 ^ 64 = 2 ^ cutN h 0x10 1 →
      FrameAt s k (hdr + 0x18) pd →
      ∃ t, exec (.trackerThreshold die frame src) s = .next t ∧ Holds t pd.key (leBytes 8 ((cutN h 0x18 8 + 1) % 2 ^ 64)) ∧
        MemSameBut s t pd.key 8 ∧ (t.die k).crossings = rest) ∧
    (over_ → ∃ t, exec (.trackerPeriodEnd die) s = .next t ∧ (t.die k).counters = [] ∧
      (t.die k).periodStart = next + BitVec.ofNat 64 ((d.gtc - next).toNat / 2 ^ len * 2 ^ len) ∧ (t.die k).periodLen = len ∧
      t.strands = s.strands ∧ (bitN d.trkcfg 1 = false → d.crossings = [] → d.moves = [] → { t with dies := s.dies } = s) ∧
      (bitN d.trkcfg 1 = true → d.crossings = [] → d.moves = [] → s.ringBlocked k = false → s.poolBusy k = false → 1 ≤ bitsN d.trkcfg 36 6 → (∃ n, d.hottest = [(frame, n)]) → (s.fmap.getD frame {}).w = false →
        (s.fmap.getD frame {}).kind = 3 → s.poolNext k = some (off, head) → off % 65536 = 0 → off + 65536 ≤ Config.deepBytes →
        (t.fmap.getD frame {}).w = true ∧ ∃ m, t.migrations = s.migrations ++ [m] ∧ m.frame = frame ∧ m.owner = none ∧
          destPlace m.dest 0 = some (.deep k off))) ∧
    (¬over_ → d.crossings = [] → d.moves = [] → exec (.trackerPeriodEnd die) s = .next s) ∧
    d.hottest.Pairwise (fun a b => b.2 < a.2 ∨ (b.2 = a.2 ∧ a.1 ≤ b.1)) ∧
    (∀ f n, (f, n) ∈ d.hottest ↔ (f, (n, true)) ∈ d.counters)

/-- R206, R208, R212, R220, R221: firmware's write of a frame-map entry leaves every cache alone. That it sets P of a migrating frame and
nothing else, and leaves W of another 0, is the model's reading (log 48, DEDUCED). FMINV drops the frame from every die's cache; the in-bank copy of a block ends. -/
def Sys2Proof.Claims.FrameMapWritesAndInvalidates : Prop :=
  ∀ (s : State) (frame die block : Nat) (w0 w1 fa : Word) (h : Shadow),
    let old := s.fmap.getD frame {}
    let n := fa.toNat / 65536 % 2 ^ 32
    let k := die % 8
    (old.w = false → frame < 2 ^ 32 →
      ∃ t, exec (.fmeWrite frame w0 w1) s = .next t ∧ { t with fmap := s.fmap } = s ∧
        t.fmap.getD frame {} = ⟨w0 &&& ~~~8#64, w1⟩ ∧ ∀ j, j ≠ frame → t.fmap.getD j {} = s.fmap.getD j {}) ∧
    (old.w = true → frame < 2 ^ 32 →
      ∃ t, exec (.fmeWrite frame w0 w1) s = .next t ∧ { t with fmap := s.fmap } = s ∧
        t.fmap.getD frame {} = ⟨old.w0 ||| (w0 &&& 0x20), old.w1⟩ ∧ ∀ j, j ≠ frame → t.fmap.getD j {} = s.fmap.getD j {}) ∧
    (2 ^ 32 ≤ frame → exec (.fmeWrite frame w0 w1) s = .next s) ∧
    (∃ t, exec (.fminvWrite fa) s = .next t ∧ { t with dies := s.dies } = s ∧
      ∀ d, (t.die d).fmCache.find n = none ∧ (∀ j, j ≠ n → (t.die d).fmCache.find j = (s.die d).fmCache.find j) ∧
        { t.die d with fmCache := (s.die d).fmCache } = s.die d) ∧
    ((s.die k).shadow? block = some h →
      ∃ t, exec (.promoteCopyComplete die block) s = .next t ∧ { t with dies := s.dies } = s ∧
        (t.die k).shadow? block = some { h with copying := false } ∧ (∀ j, j ≠ k → t.die j = s.die j) ∧
        { t.die k with shadows := (s.die k).shadows } = s.die k) ∧
    ((s.die k).shadow? block = none → exec (.promoteCopyComplete die block) s = .next s)

/-! ## Braid replicas, homes, pseudo-channels and stacks -/

/-- R215, R241, R242, R320, R340: lines the scrubber finds uncorrectable are poisoned and reported with cause 47 to their home die; it
writes one readable replica's data, the newest where one is newest, to all three under a fresh tag of its own, and waits in a tick in
which a source above has stored the line; an answer or a write on its way takes effect where its tag is newer. That the scrubber of a
line is that of die L mod 8 is the model's reading (log 61, DEDUCED). -/
def Sys2Proof.Claims.ReplicasAreScrubbedAndWritten : Prop :=
  ∀ (s : State) (window line ix l : Nat) (bad : List Nat) (a : BraidAnswer) (b : BraidWrite),
    let w := s.braidWindows.getD window ⟨0, []⟩
    let all := [w.replica line 0, w.replica line 1, w.replica line 2]
    let tag : Word := BitVec.ofNat 64 ((s.die (line % 8)).gtc.toNat % 2 ^ 54 * 1024 + (line % 8 * 128 + 98))
    let lands := fun (t : State) (r : Nat × Nat) (data : BitVec 512) (tg : Word) =>
      (s.replicaBad r = true ∨ newerTag tg (s.replicaTag r) = true → t.replicaTag r = tg ∧ t.replicaData r = data) ∧
      (s.replicaBad r = false → newerTag tg (s.replicaTag r) = false → t.replicaTag r = s.replicaTag r ∧ MemSame s t) ∧
      OnlyReplicas s t [r] ∧ t.strands = s.strands
    (MemOk s → line * 64 < w.size → w.size / 8 % 64 = 0 → (∀ d, w.bases.getD d 0 % 64 = 0) →
      (∀ r ∈ all, s.answers r = true ∧ s.replicaBad r = false ∧ s.placeBusy (replicaPlace r) = false) →
      ((∀ r ∈ all, newerTag tag (s.replicaTag r) = false) → exec (.scrubPass window ⟨line, []⟩) s = .next s) ∧
      ((∀ r ∈ all, newerTag tag (s.replicaTag r) = true) → ∃ t, exec (.scrubPass window ⟨line, []⟩) s = .next t ∧ OnlyReplicas s t all ∧ t.strands = s.strands ∧ t.mgmt = s.mgmt ∧
        (∀ r ∈ all, t.replicaTag r = tag) ∧ (∃ n ∈ all, ∀ r ∈ all, t.replicaData r = s.replicaData n) ∧
        ∀ n ∈ all, (∀ m ∈ all, m = n ∨ newerTag (s.replicaTag n) (s.replicaTag m) = true) →
          ∀ r ∈ all, t.replicaData r = s.replicaData n)) ∧
    (w.size ≤ line * 64 →
      ∃ t, exec (.scrubPass window ⟨line, bad⟩) s = .next t ∧ { t with poison := s.poison, mgmt := s.mgmt } = s ∧
        (∀ m, m ∈ t.poison ↔ m ∈ s.poison ∨ m ∈ bad) ∧
        (bad = [l] → ∃ q, t.mgmt = s.mgmt ++ [.rcd (lineHome l) q 0] ∧ q.cause = 47 ∧ q.source = lineHome l * 128 + 98)) ∧
    (MemOk s → s.braidAnswers[ix]? = some a →
      let r := (s.braidWindows.getD a.window ⟨0, []⟩).replica a.line a.replica
      r.2 % 64 = 0 → s.answers r = true → s.placeBusy (replicaPlace r) = false →
      ∃ t, exec (.replicaAnswer ix) s = .next t ∧ t.braidAnswers = s.braidAnswers.eraseIdx ix ∧ lands t r a.data a.tag) ∧
    (s.braidAnswers[ix]? = none → exec (.replicaAnswer ix) s = .next s) ∧
    (MemOk s → s.braidWrites[ix]? = some b → b.off % 64 = 0 → s.answers (b.die, b.off) = true →
      s.placeBusy (replicaPlace (b.die, b.off)) = false →
      ∃ t, exec (.replicaWrite ix) s = .next t ∧ t.braidWrites = s.braidWrites.eraseIdx ix ∧ lands t (b.die, b.off) b.data b.tag) ∧
    (s.braidWrites[ix]? = none → exec (.replicaWrite ix) s = .next s)

/-- R181, R211, R264, R268, R320, R361: a write reaches its home once every write it knows of and every earlier one of its strand has,
and changes the nibbles it names; the first pseudo-channel of a die that
fails is copied to the spare, the next is lost and the part asks to be replaced, and so does one that loses a stack. That PC 127, failing
while it serves none, counts as a second failure is the model's reading (log 62, DEDUCED). -/
def Sys2Proof.Claims.HomesAndFailures : Prop :=
  ∀ (s : State) (die ix pc stack : Nat) (f : FlyWrite) (bad : List Nat),
    let k := die % 8
    let d := s.die k
    let n := pc % 128
    let m := stack % 16
    let asks := fun (t : State) (bit : BitVec 5) => t.boot.repl = true ∧ t.boot.replwhy = s.boot.replwhy ||| bit
    (MemOk s → (s.flyWrites.filter (fun g => g.home == k))[ix]? = some f → (∀ g ∈ s.flyWrites, f.after g = false) →
      s.sourceBehind f = false → s.lineBusy f.line = false → s.flyPoisoned f = false →
      ∃ t, exec (.homeWriteApply die ix) s = .next t ∧ MemSameBut s t (f.line * 64) 64 ∧
        (∀ j, j < 128 →
          nibbleOf (j % 2 == 1) (Memory.read t.mem (f.line * 64 + j / 2)) =
            if f.mask.getLsbD j = true then f.data.toNat / 2 ^ (4 * j) % 16
            else nibbleOf (j % 2 == 1) (Memory.read s.mem (f.line * 64 + j / 2))) ∧
        t.flyWrites = s.flyWrites.erase f ∧ t.strands = s.strands ∧
        ∀ j, j < 8 → (t.die k).clock.getD j 0 = max (d.clock.getD j 0) (f.clock.getD j 0)) ∧
    ((s.flyWrites.filter (fun g => g.home == k))[ix]? = some f → (∀ g ∈ s.flyWrites, f.after g = false) →
      s.sourceBehind f = false → s.lineBusy f.line = false → s.flyPoisoned f = true → (s.strand f.source).st = .unbound →
      (s.context f.bind.ctx).state ≠ 2 → (s.context f.bind.ctx).state ≠ 3 →
      ∃ t r, exec (.homeWriteApply die ix) s = .next t ∧ OnlyTold { s with flyWrites := s.flyWrites.erase f } t (.rcd (f.source / 128) r 0) ∧
        r.cause = 46 ∧ r.ctx = f.bind.ctx ∧ r.source = f.source ∧ r.detail = BitVec.ofNat 64 Cause.poison) ∧
    ((s.flyWrites.filter (fun g => g.home == k))[ix]? = some f → (∃ g ∈ s.flyWrites, f.after g = true) ∨ s.sourceBehind f = true ∨ s.lineBusy f.line = true →
      exec (.homeWriteApply die ix) s = .next s) ∧
    (n ≠ 127 → n ∉ d.lostPcs → 127 ∉ d.lostPcs → d.spareFor = none →
      ∃ t, exec (.pcFailure die pc) s = .next t ∧ { t with dies := s.dies, flash := s.flash } = s ∧
        t.die k = { d with spareFor := some n, spareCopying := true } ∧ t.flash.pcs = s.flash.pcs ++ [(k, n)]) ∧
    (n ≠ 127 → n ∉ d.lostPcs → d.spareFor ≠ none → d.spareFor ≠ some n →
      ∃ t, exec (.pcFailure die pc) s = .next t ∧ n ∈ (t.die k).lostPcs ∧ (t.die k).spareFor = d.spareFor ∧ asks t 1 ∧
        t.flash.pcs = s.flash.pcs ++ [(k, n)] ∧ t.strands = s.strands) ∧
    (n = 127 → n ∉ d.lostPcs → d.spareFor ≠ some n →
      ∃ t, exec (.pcFailure die pc) s = .next t ∧ n ∈ (t.die k).lostPcs ∧ (∀ j, d.spareFor = some j → j ∈ (t.die k).lostPcs) ∧ asks t 1) ∧
    (n ∈ d.lostPcs ∨ d.spareFor = some n → exec (.pcFailure die pc) s = .next s) ∧
    (d.spareFor = some pc → d.spareCopying = true →
      ∃ t, exec (.spareCopyComplete die bad) s = .next t ∧ { t with dies := s.dies, poison := s.poison } = s ∧
        t.die k = { d with spareCopying := false } ∧ ∀ l, l ∈ t.poison ↔ l ∈ s.poison ∨ (l ∈ bad ∧ lineOnPc k pc l = true)) ∧
    (d.spareCopying = false → exec (.spareCopyComplete die bad) s = .next s) ∧
    (s.boot.stackmap.getLsbD m = true →
      ∃ t, exec (.stackLost stack) s = .next t ∧ asks t 4 ∧ t.boot.stackmap.getLsbD m = false ∧
        (∀ j, j ≠ m → t.boot.stackmap.getLsbD j = s.boot.stackmap.getLsbD j) ∧ t.strands = s.strands ∧
        (m % 2 = 0 → ∀ j, j < 64 → j ∈ (t.die (m / 2)).lostPcs) ∧
        (m % 2 = 1 → ∀ j, 64 ≤ j → j < 128 → j ∈ (t.die (m / 2)).lostPcs)) ∧
    (s.boot.stackmap.getLsbD m = false → exec (.stackLost stack) s = .next s)

/-! ## Links and the host -/

namespace Sys2Proof.Claims
open Machine

/-- Only port `p` changed. -/
def OnlyPort (p : Nat) (s t : State) : Prop := { t with ports := s.ports } = s ∧ ∀ j, j ≠ p → t.port j = s.port j

/-- Every request that was in flight by a port is unanswered for good: each bound strand with a write among them meets an error at
its next drain point, and nothing else of any strand changed (R335; assumption 26). -/
def Unanswered (p : Nat) (s t : State) : Prop :=
  (t.port p).inflight = [] ∧ (∀ j, j ≠ p → t.port j = s.port j) ∧ MemSame s t ∧
  (∀ r ∈ (s.port p).inflight, r.isWrite = true → (s.strand r.source).st ≠ .unbound → (t.strand r.source).lostStore ≠ none) ∧
  (∀ k, (∀ r ∈ (s.port p).inflight, r.isWrite = true → r.source ≠ k) → t.strand k = s.strand k) ∧
  ∀ k, { t.strand k with lostStore := (s.strand k).lostStore } = s.strand k

/-- A link carries flits (R328). -/
def Carries (q : Port) : Prop := q.state = .up ∨ q.state = .degraded

/-- The width a port trains to: the largest of R328 for its kind that the working lanes allow, 0 for none. -/
def trained (p lanes : Nat) : Nat :=
  if p = 16 then (if 64 ≤ lanes then 64 else if 32 ≤ lanes then 32 else if 16 ≤ lanes then 16 else 0)
  else (if 16 ≤ lanes then 16 else if 8 ≤ lanes then 8 else 0)

end Sys2Proof.Claims

/-- R328 to R330, R335, R361: every transition of a link port; a host link below 64 lanes asks for a replacement. The
model's choice (assumption 26): requests in flight are lost when a port retrains or loses its partner. -/
def Sys2Proof.Claims.PortsTrainFenceAndFail : Prop :=
  ∀ (s : State) (p lanes : Nat) (w : Word),
    let q := s.port p
    let full := if p = 16 then 64 else 16
    let n := trained p lanes
    let now := (s.die 0).gtc
    let recent := q.replays.filter (fun t => decide ((now - t).toNat < 1000000000))
    p ≤ 16 →
    (q.state = .reset → s.boot.minimal = true → p ≠ 16 → exec (.portEnable p) s = .next s) ∧
    (q.state = .reset → s.boot.minimal = false ∨ p = 16 → ∃ t, exec (.portEnable p) s = .next t ∧ OnlyPort p s t ∧
      t.port p = { q with state := .training, lanes := 0, attempts := 0 }) ∧
    (q.state ≠ .reset → exec (.portEnable p) s = .next s) ∧
    (q.state = .training → n ≠ 0 →
      ∃ t, exec (.trainingComplete p lanes) s = .next t ∧ (∀ j, j ≠ p → t.port j = s.port j) ∧ t.strands = s.strands ∧
        t.port p = { q with state := if n = full then .up else .degraded, lanes := n, attempts := 0 } ∧
        (p = 16 → n < 64 → t.boot.repl = true ∧ t.boot.replwhy = s.boot.replwhy ||| 8) ∧ (p ≠ 16 → OnlyPort p s t)) ∧
    (q.state = .training →
      (q.attempts < 2 → ∃ t, exec (.trainingFailed p) s = .next t ∧ OnlyPort p s t ∧
        t.port p = { q with attempts := q.attempts + 1 }) ∧
      (2 ≤ q.attempts → ∃ t, exec (.trainingFailed p) s = .next t ∧ OnlyPort p s t ∧ (t.port p).state = .down)) ∧
    (q.state ≠ .training → exec (.trainingComplete p lanes) s = .next s ∧ exec (.trainingFailed p) s = .next s) ∧
    (Carries q → lanes < q.lanes → n ≠ 0 →
      ∃ t, exec (.lanesLost p lanes) s = .next t ∧ (∀ j, j ≠ p → t.port j = s.port j) ∧ t.strands = s.strands ∧
        t.port p = { q with state := .degraded, lanes := n, attempts := 0 }) ∧
    (Carries q → ∃ t, exec (.portFence p) s = .next t ∧ OnlyPort p s t ∧ t.port p = { q with state := .fenced, lanes := 0 }) ∧
    (Carries q → 4096 ≤ recent.length → ∃ t, exec (.replayLimit p) s = .next t ∧ OnlyPort p s t ∧ (t.port p).state = .fenced ∧
      (t.port p).inflight = q.inflight ∧ (t.port p).retry = q.retry) ∧
    (Carries q → recent.length < 4096 → exec (.replayLimit p) s = .next s) ∧
    (q.state = .fenced ∨ q.state = .down → ∃ t, exec (.portRetrain p) s = .next t ∧ Unanswered p s t ∧
      t.port p = { q with state := .training, lanes := 0, attempts := 0, inflight := [] }) ∧
    (∃ t, exec (.partnerLost p) s = .next t ∧ Unanswered p s t ∧ t.port p = { q with state := .down, lanes := 0, inflight := [] }) ∧
    (Carries q → ∃ t, exec (.flitCrcFailure p) s = .next t ∧ OnlyPort p s t ∧
      (t.port p).retry.toNat = min 65535 (q.retry.toNat + 1) ∧ (t.port p).errcnt = q.errcnt ∧ (t.port p).state = q.state) ∧
    (s.hostPosts = [] → ∃ t, exec (.linkstatClear p w) s = .next t ∧ OnlyPort p s t ∧
      t.port p = { q with errcnt := q.errcnt &&& ~~~(w.extractLsb' 48 16), retry := q.retry &&& ~~~(w.extractLsb' 32 16) }) ∧
    (∃ t, exec (.linkCompletion p) s = .next t ∧ OnlyPort p s t ∧ t.port p = { q with inflight := q.inflight.drop 1 }) ∧
    (¬Carries q → exec (.portFence p) s = .next s ∧ exec (.lanesLost p lanes) s = .next s ∧ exec (.replayLimit p) s = .next s ∧
      exec (.flitCrcFailure p) s = .next s)

/-- R331 to R336, R216: a request of the host or a peer within one line of the memory aperture reads or writes the bytes at its frame
address in the world of its port, or operates on them in one step and is answered with what was there; one that gets an error completion,
for a poisoned line too, reads all ones, writes nothing and counts in ERRCNT; a write into a migrating frame waits. -/
def Sys2Proof.Claims.HostMemoryRequests : Prop :=
  ∀ (s : State) (p n : Nat) (fa : Word) (data : List Byte) (x : Xl) (pl : Place) (c : Nat),
    let a := fa.toNat
    let q := s.port p
    let reach := p ≤ 16 ∧ q.usable = true ∧ s.hostPosts = [] ∧ MemOk s
    let one := fun k : Nat => 1 ≤ k ∧ a % 64 + k ≤ 64 ∧ a + k ≤ 2 ^ 48
    let counts := fun t : State => (q.errcnt ≠ 0xFFFF → (t.port p).errcnt = q.errcnt + 1) ∧ (q.errcnt = 0xFFFF → (t.port p).errcnt = 0xFFFF)
    let bad := fun (acc : Access) (k : Nat) => s.resolve 0 q.world acc a = .error c ∨
      (s.resolve 0 q.world acc a = .ok x ∧ x.place = some pl ∧ s.poisoned pl k = true)
    let good := fun (acc : Access) (k : Nat) => s.resolve 0 q.world acc a = .ok x ∧ x.place = some pl ∧ pl.exists = true ∧
      s.poisoned pl k = false
    let quiet := s.boot.minimal = false ∧ ∀ f ∈ s.flyWrites, s.owed 0 pl f = false
    let at_ := fun (k : Nat) => memNat s pl.key k
    (reach → one n → s.frameBusy 0 a = false → good .read n →
      ∃ t bs, exec (.hostMemoryRead p fa n) s = .next t ∧ { t with hostIn := s.hostIn } = s ∧ t.hostIn = s.hostIn ++ [(p, bs)] ∧
        bs.length = n ∧ ∀ i, i < n → bs[i]? = some (Memory.read s.mem (pl.key + i))) ∧
    (reach → one n → s.frameBusy 0 a = false → bad .read n →
      ∃ t, exec (.hostMemoryRead p fa n) s = .next t ∧ { t with hostIn := s.hostIn, ports := s.ports } = s ∧
        t.hostIn = s.hostIn ++ [(p, List.replicate n 0xFF)] ∧ counts t) ∧
    (reach → one data.length → s.frameBlocked 0 a = false → good .write data.length → quiet →
      ∃ t, exec (.hostMemoryWrite p fa data) s = .next t ∧ QueueStep 0 s t ∧ t.queues = s.queues ∧
        Holds t pl.key data ∧
        MemSameBut s t pl.key data.length) ∧
    (reach → one data.length → s.frameBlocked 0 a = false → s.boot.minimal = false → bad .write data.length →
      ∃ t, exec (.hostMemoryWrite p fa data) s = .next t ∧ { t with ports := s.ports } = s ∧ counts t) ∧
    (∀ op b e, reach → n = 4 ∨ n = 8 → a % n = 0 → a + n ≤ 2 ^ 48 → op < 10 → s.frameBlocked 0 a = false → good .atomic n → quiet →
      (∀ f ∈ s.flyWrites, f.home = pl.home → f.fromDie = 0 ∨ (s.die pl.home).clock.getD f.fromDie 0 < f.count f.fromDie) →
      ∃ t, s.request (.atomic p a n op b e) = t ∧ QueueStep 0 s { t with hostIn := s.hostIn } ∧ t.queues = s.queues ∧
        t.hostIn = s.hostIn ++ [(p, leBytes n (at_ n))] ∧
        Holds t pl.key (leBytes n (amoNew op (8 * n) (at_ n) (b.toNat % 2 ^ (8 * n)) (e.toNat % 2 ^ (8 * n)))) ∧
        MemSameBut s t pl.key n) ∧
    (reach → one data.length → s.frameBlocked 0 a = true →
      ∃ t, exec (.hostMemoryWrite p fa data) s = .next t ∧ t = { s with hostPosts := [.write p a data] })

/-! ## World bits, trace, start-up, time and power -/

/-- R76: the world bit of a block is written while the block holds no work, and a core whose world changes keeps nothing in its
scratchpad or its strand positions; a block with work keeps its bit. That dirty lines of the core's L1 are written back first, so that no
byte of memory changes, is the model's choice (log 77, DESIGN CHOICE). -/
def Sys2Proof.Claims.WorldBitsNeedIdleBlocks : Prop :=
  ∀ (s : State) (die core j p : Nat) (on : Bool),
    let k := die % 8 * 16 + core % 16
    let pos := fun i => die % 8 * 128 + core % 16 * 4 + i
    let x := s.queue (j % 1024)
    let q := s.port p
    ((∀ i, i < 4 → (s.strand (pos i)).st = .unbound) →
      ∃ t, exec (.worldBitWrite (.core die core) on) s = .next t ∧ (t.core k).world = on ∧ (∀ i, i ≠ k → t.core i = s.core i) ∧
        MemSame s t ∧ ((s.core k).world ≠ on → (t.core k).scratch = [] ∧ (∀ l ∈ t.l1, l.core ≠ k) ∧
          (t.die (die % 8)).l1Tlb.getD (core % 16) [] = [] ∧ ∀ i, i < 4 → t.strand (pos i) = { lastBraid := (s.strand (pos i)).lastBraid }) ∧
        ((s.core k).world = on → t = s)) ∧
    ((∃ i, i < 4 ∧ (s.strand (pos i)).st ≠ .unbound) → exec (.worldBitWrite (.core die core) on) s = .next s) ∧
    ((∀ i, i < 4 → (s.strand (pos i)).cpq = []) →
      ∃ t, exec (.worldBitWrite (.copyEngine die core) on) s = .next t ∧ { t with cores := s.cores } = s ∧
        t.core k = { s.core k with copyWorld := on } ∧ ∀ i, i ≠ k → t.core i = s.core i) ∧
    (x.desc.state = 0 ∨ x.desc.state = 1 → x.cmds = [] →
      ∃ t, exec (.worldBitWrite (.queue j) on) s = .next t ∧ OnlyQueue (j % 1024) s t ∧
        (t.queue (j % 1024)).desc.flags.getLsbD 0 = on ∧
        ∀ b, b ≠ 0 → (t.queue (j % 1024)).desc.flags.getLsbD b = x.desc.flags.getLsbD b) ∧
    (x.cmds ≠ [] → exec (.worldBitWrite (.queue j) on) s = .next s) ∧
    (p ≤ 16 → q.state = .reset ∨ q.state = .fenced ∨ q.state = .down → q.inflight = [] → (∀ h ∈ s.hostPosts, h.port ≠ p) →
      ∃ t, exec (.worldBitWrite (.port p) on) s = .next t ∧ OnlyPort p s t ∧ t.port p = { q with world := on }) ∧
    (q.state = .training ∨ Carries q ∨ (∃ h ∈ s.hostPosts, h.port = p) → exec (.worldBitWrite (.port p) on) s = .next s) ∧
    ((s.die (die % 8)).trace = [] →
      ∃ t, exec (.worldBitWrite (.traceUnit die) on) s = .next t ∧ { t with dies := s.dies } = s ∧
        t.die (die % 8) = { s.die (die % 8) with traceWorld := on } ∧ ∀ i, i ≠ die % 8 → t.die i = s.die i) ∧
    ((s.die (die % 8)).trace ≠ [] → exec (.worldBitWrite (.traceUnit die) on) s = .next s)

namespace Sys2Proof.Claims
open Machine

/-- The package has been reset: no strand, queue, context, group or launch is left, every register of a die, a port and a core is
at its reset value; fuses, flash, BOOTCNT `n` and the bytes of memory stay (R359; assumption 27). -/
def PackageReset (s t : State) : Prop :=
  t.strands = [] ∧ t.queues = [] ∧ t.contexts = [] ∧ t.groups = [] ∧ t.launches = [] ∧ t.clusters = [] ∧ t.fmap = [] ∧ t.keys = [] ∧
  (∀ d, t.die d = {}) ∧ (∀ p, t.port p = {}) ∧
  (∀ k, t.core k = { present := (s.core k).present, fusedLanes := (s.core k).fusedLanes }) ∧
  (NoAliases s → t.mem = s.mem) ∧ t.l1 = [] ∧ t.msc = [] ∧ t.poison = s.poison ∧ t.flash = s.flash ∧ t.fuses = s.fuses

/-- The start has ended: the package is reset, and the device block keeps BOOTCNT and shows a reason. -/
def StartEnds (s t : State) (bootcnt reason : Nat) : Prop :=
  PackageReset s t ∧ t.boot = { bootcnt := bootcnt, reason := reason }

/-- A start has not yet come to run. -/
def Starting (s : State) (stage : Nat) : Prop :=
  s.boot.active = true ∧ s.boot.minimal = false ∧ s.boot.bootok = false ∧ s.boot.stage = stage

end Sys2Proof.Claims

/-- R357 to R359, R361, R363: the stages of a start, the signature and version that its image is checked for, the reasons with which it
fails, the failures recorded in flash that ask for a replacement again, minimal mode after three failures, and what the watchdog, a power fault, a thermal trip, RESTART, CLRCNT, BOOTOK and the loss of standby power leave. The model's choice
(assumption 27): which state a package reset keeps. -/
def Sys2Proof.Claims.StartUpAndTrips : Prop :=
  ∀ (s : State) (img : BootImage) (map : BitVec 16),
    let b := s.boot
    let signed := fun i : BootImage =>
      let n := 64 + cutN i.file 8 8
      n + 64 ≤ i.file.length ∧ sha256 (bigBytes 64 i.key.toNat) = s.fuses.keyHash ∧
        signatureOk (some (i.key.toNat / 2 ^ 256, i.key.toNat % 2 ^ 256)) (sha256 (i.file.take n)) (bigNat (cut i.file n 32))
          (bigNat (cut i.file (n + 32) 32)) = true
    let old := fun i : BootImage => cutN i.file 4 4 < s.fuses.minVersion
    let refused := fun (i : BootImage) (why : Nat) => (¬signed i ∧ why = 1) ∨ (signed i ∧ old i ∧ why = 2)
    let first := s.bootImage img
    let quiet := ∀ h ∈ s.hostPosts, h.port ≠ 16
    let dead := ∃ d, d < 8 ∧ map.getLsbD (2 * d) = false ∧ map.getLsbD (2 * d + 1) = false
    (s.hostImage = [] → first = img) ∧
    (b.active = false →
      (3 ≤ b.bootcnt → ∃ t, exec (.bootStart img) s = .next t ∧ PackageReset s t ∧ t.boot.minimal = true ∧ t.boot.stage = 15 ∧
        t.boot.stackmap = 0 ∧ t.boot.bootcnt = b.bootcnt) ∧
      (∀ why, b.bootcnt < 3 → refused first why → ∃ t, exec (.bootStart img) s = .next t ∧ StartEnds s t (b.bootcnt + 1) why) ∧
      (b.bootcnt < 3 → signed first → ¬old first → ∃ t, exec (.bootStart img) s = .next t ∧ PackageReset s t ∧
        t.boot = { bootcnt := b.bootcnt + 1, active := true, reason := b.reason })) ∧
    (b.active = true → exec (.bootStart img) s = .next s) ∧
    (Starting s 0 →
      (∃ t, exec (.stage1 false map) s = .next t ∧ StartEnds s t b.bootcnt 3) ∧
      (dead → ∃ t, exec (.stage1 true map) s = .next t ∧ StartEnds s t b.bootcnt 4) ∧
      (¬dead → ∃ t, exec (.stage1 true map) s = .next t ∧ t.boot.stage = 1 ∧ t.boot.stackmap = map ∧ t.boot.bootcnt = b.bootcnt ∧
        t.braidTag = [] ∧ (∀ d, (t.die d).gtc = 0) ∧ (map ≠ 0xFFFF → t.boot.repl = true) ∧
        (s.flash.pcs ≠ [] → t.boot.repl = true ∧ t.boot.replwhy.getLsbD 0 = true) ∧ t.hostMsgs = s.hostMsgs ∧ t.strands = s.strands ∧ t.mem = s.mem)) ∧
    (Starting s 1 →
      (∀ why, refused img why → ∃ t, exec (.stage2 img) s = .next t ∧ StartEnds s t b.bootcnt why) ∧
      (signed img → ¬old img → ∃ t, exec (.stage2 img) s = .next t ∧ t = { s with boot := { b with stage := 2 } })) ∧
    (∀ n, Starting s n → ∃ t, exec .bootWatchdog s = .next t ∧ StartEnds s t b.bootcnt 5) ∧
    (Starting s 2 → ∃ t, exec .bootok s = .next t ∧ t = { s with boot := { b with bootok := true, stage := 3, bootcnt := 0 } }) ∧
    (b.bootok = true → exec .bootWatchdog s = .next s ∧ exec .bootok s = .next s) ∧
    (∃ t, exec .powerFault s = .next t ∧
      StartEnds s t b.bootcnt (if b.active = true ∧ b.bootok = false then 6 else b.reason)) ∧
    (∃ t, exec .thermalTrip s = .next t ∧ StartEnds s t b.bootcnt 7) ∧
    (quiet → ∃ t, exec .restart s = .next t ∧ StartEnds s t b.bootcnt 8 ∧ (b.minimal = true → t.hostImage = s.hostImage)) ∧
    (b.minimal = true → quiet → ∃ t, exec .clrcnt s = .next t ∧ t = { s with boot := { b with bootcnt := 0 } }) ∧
    (b.minimal = false → exec .clrcnt s = .next s) ∧
    (¬quiet → exec .restart s = .next s ∧ exec .clrcnt s = .next s) ∧
    (MemOk s → NoAliases s → ∃ t, exec .standbyPowerLoss s = .next t ∧ t.boot = {} ∧ t.strands = [] ∧ t.flash = s.flash ∧
      ∀ a, Memory.read t.mem a = if a < 2 ^ 64 then 0 else Memory.read s.mem a)

/-- R348, R349, R362, R363: a GTC copy that disagrees with die 0's is marked to be brought to agree; the clock steps by 100 MHz within
its bounds; a trace unit with space again records how many records it dropped and when the first was; the first 16 bytes of a record. -/
def Sys2Proof.Claims.TimePowerAndTraceLoss : Prop :=
  ∀ (s : State) (die : Nat) (up : Bool) (x : TraceRec),
    let k := die % 8
    let d := s.die k
    let h := x.bytes
    let f := s.boot.clockMHz
    let sum := (d.trace.map (fun r => 16 + 8 * r.body.length)).sum
    let goes := d.traceWorld = true ∨ d.sideband = true
    (∃ t, exec (.gtcCorrection die) s = .next t ∧ { t with dies := s.dies } = s ∧
      t.die k = { d with correcting := decide (d.gtc ≠ (s.die 0).gtc) } ∧ ∀ j, j ≠ k → t.die j = s.die j) ∧
    (∃ t, exec (.powerCapStep up) s = .next t ∧
      t = { s with boot := { s.boot with clockMHz := if up = true then min 3300 (f + 100) else max 1200 (f - 100) } }) ∧
    (d.dropped ≠ 0 → sum + 32 ≤ 2 ^ 20 → goes →
      ∃ t r, exec (.traceLossRecord die) s = .next t ∧ { t with dies := s.dies } = s ∧
        t.die k = { d with trace := d.trace ++ [r], dropped := 0, firstDrop := 0 } ∧ r.gtc = d.gtc ∧ r.kind = 5 ∧
        r.body = [BitVec.ofNat 64 d.dropped, d.firstDrop] ∧ ∀ j, j ≠ k → t.die j = s.die j) ∧
    (d.dropped = 0 ∨ 2 ^ 20 < sum + 32 ∨ ¬goes → exec (.traceLossRecord die) s = .next s) ∧
    (h.length = 16 + 8 * x.body.length ∧ cutW h 0 = x.gtc ∧ cutN h 8 2 = x.source % 2 ^ 16 ∧ cutN h 10 1 = x.kind % 256 ∧
      cutN h 11 1 = x.secure.toNat ∧ cutN h 12 2 = x.ctx % 2 ^ 16 ∧ cutN h 14 2 = 0)

/-- R6, R73, R77, R78, R87, R98, R208, R214, R215, R217, R301, R333, R336, R350, R360: what a write to each register without a row of
its own stores, with reserved bits ignored, and what it leaves. That a write of a braid window makes the bytes and tags of its replicas
zero is the model's choice (log 63, DESIGN CHOICE). -/
def Sys2Proof.Claims.RegisterWritesAreStored : Prop :=
  ∀ (s : State) (die cluster slot ix src n : Nat) (b : BindRecord) (w : Word) (w2 : BitVec 128) (d : ContextDesc) (p q : BitVec 8)
    (key : BitVec 256) (bases : List Nat) (ctx : Nat) (page : Option Nat) (watts : BitVec 16) (on : Bool),
    let k := die % 8
    let cl := k * 4 + cluster % 4
    let pos := k * 128 + cluster % 4 * 16 + slot % 16
    let dc := s.context d.ctxid.toNat
    let Only := fun (t : State) (e : Die) => { t with dies := s.dies } = s ∧ t.die k = e ∧ ∀ j, j ≠ k → t.die j = s.die j
    let gone := fun e : TlbEntry => (page = none ∧ e.ctx = ctx) ∨ ∃ p, page = some p ∧ e.covers ctx p = true
    ((s.strand pos).st = .unbound → ∃ t, exec (.registerWrite (.bindRecord die cluster slot b)) s = .next t ∧
      { t with clusters := s.clusters } = s ∧
      t.cluster cl = { s.cluster cl with records := (s.cluster cl).records.set (slot % 16) b }) ∧
    ((s.strand pos).st ≠ .unbound → exec (.registerWrite (.bindRecord die cluster slot b)) s = .next s) ∧
    (∃ t, exec (.registerWrite (.region die ix w)) s = .next t ∧
      Only t { s.die k with regions := (s.die k).regions.set (ix % 64) (w &&& 0xC000FFFFFFFFFFFF) }) ∧
    (∃ t, exec (.registerWrite (.peerWindow die ix w2)) s = .next t ∧
      Only t { s.die k with windows := (s.die k).windows.set (ix % 8) (w2 &&& 0x8F00FFFFFFFFFFFF0000FFFFFFFFFFFF) }) ∧
    (∃ t, exec (.registerWrite (.trkcfg die w)) s = .next t ∧ { t with dies := s.dies } = s ∧
      bitN (t.die k).trkcfg 0 = bitN w 0 ∧ bitsN (t.die k).trkcfg 48 16 = bitsN w 48 16 ∧
      (bitN w 0 = true → bitN (s.die k).trkcfg 0 = false → (t.die k).counters = [] ∧ (t.die k).periodStart = (s.die k).gtc) ∧
      (bitN (s.die k).trkcfg 0 = true → (s.die k).periodOver = false → (t.die k).counters = (s.die k).counters) ∧
      ((s.die k).periodOver = true → (t.die k).counters = [])) ∧
    (∃ t, exec (.registerWrite (.ntqbase die w)) s = .next t ∧ Only t { s.die k with ntqbase := w &&& 0xFFFFFFFFFFC0 }) ∧
    (∃ t, exec (.registerWrite (.tracePolicy die w)) s = .next t ∧ Only t { s.die k with allowSec := bitN w 0 }) ∧
    (∃ t, exec (.registerWrite (.traceSideband die on)) s = .next t ∧ Only t { s.die k with sideband := on }) ∧
    (d.ctxid.toNat < 4096 → dc.state = 0 ∨ dc.state = 1 ∨ dc.state = 3 → ∃ t, exec (.registerWrite (.contextDesc d)) s = .next t ∧
      { t with contexts := s.contexts } = s ∧ t.context d.ctxid.toNat = { d with state := dc.state } ∧
      ∀ j, j ≠ d.ctxid.toNat → t.context j = s.context j) ∧
    (dc.state = 2 ∨ dc.state = 4 → exec (.registerWrite (.contextDesc d)) s = .next s) ∧
    (∃ t, exec (.registerWrite (.queuePrio n p q)) s = .next t ∧ OnlyQueue (n % 1024) s t ∧ t.queue (n % 1024) =
      { s.queue (n % 1024) with desc := { (s.queue (n % 1024)).desc with prio := p, weight := q } }) ∧
    (s.hostPosts = [] → (s.queue (n % 1024)).desc.state ≠ 0 → ∃ t, exec (.registerWrite (.notify n w)) s = .next t ∧
      OnlyQueue (n % 1024) s t ∧ t.queue (n % 1024) = { s.queue (n % 1024) with notify := w &&& ~~~7#64 }) ∧
    (s.hostPosts = [] → (s.queue (n % 1024)).desc.state = 0 → ∃ t, exec (.registerWrite (.notify n w)) s = .next t ∧
      OnlyPort 16 s t ∧ ((s.port 16).errcnt ≠ 0xFFFF → (t.port 16).errcnt = (s.port 16).errcnt + 1)) ∧
    (s.hostPosts = [] → ∃ t, exec (.registerWrite (.replNotify w)) s = .next t ∧ t = { s with boot := { s.boot with replNotify := w &&& ~~~7#64 } }) ∧
    ((s.strand src).st = .halted → ∃ t, exec (.registerWrite (.estart src w)) s = .next t ∧ OnlyStrand src s t ∧
      { t.strand src with viq := (s.strand src).viq } = { s.strand src with csr := { (s.strand src).csr with estart := w } } ∧
      (∀ c r, (s.strand src).viq = c :: r → (s.strand src).vecHeld = true → c.resumed = true →
        (t.strand src).viq = { c with skip := decide (c.samp.vl ≤ w.toNat) } :: r) ∧
      ((s.strand src).vecHeld = false → (t.strand src).viq = (s.strand src).viq)) ∧
    ((s.strand src).st ≠ .halted → exec (.registerWrite (.estart src w)) s = .next s) ∧
    (∃ t, exec (.registerWrite (.keySlot ix key)) s = .next t ∧ { t with keys := s.keys } = s ∧ t.keys.getD (ix % 16) 0 = key ∧
      ∀ j, j ≠ ix % 16 → t.keys.getD j 0 = s.keys.getD j 0) ∧
    (MemOk s → ∃ t, exec (.registerWrite (.braidWindow ix n bases)) s = .next t ∧ t.braidWindows.find (ix % 8) = some ⟨n, bases⟩ ∧
      t.strands = s.strands ∧ ∀ j base, bases[j]? = some base → ∀ a, j * 2 ^ 40 + base ≤ a → a < j * 2 ^ 40 + base + n * 3 / 8 →
        Memory.read t.mem a = 0 ∧ (base % 64 = 0 → t.braidTag.getD (a / 64) 0 = 0)) ∧
    (∃ t, exec (.registerWrite (.tlbInvalidate ctx page)) s = .next t ∧ { t with dies := s.dies } = s ∧
      ∀ j, { t.die j with tlb := (s.die j).tlb, l1Tlb := (s.die j).l1Tlb } = s.die j ∧
        (∀ e, e ∈ (t.die j).tlb ↔ e ∈ (s.die j).tlb ∧ ¬gone e) ∧
        ∀ m e, e ∈ (t.die j).l1Tlb.getD m [] ↔ e ∈ (s.die j).l1Tlb.getD m [] ∧ ¬gone e) ∧
    (∃ t, exec (.registerWrite (.powerCap watts)) s = .next t ∧ t = { s with boot := { s.boot with capW := watts } }) ∧
    exec (.registerWrite (.unlisted n w)) s = .next s

/-! ## Encodings, the step, reset and the invariant -/

/-- Words the spec writes out (R52 to R54, R84, R97, R133, R144, R151, R162, R166, R200, R230 and the worked encodings of its other
sections) decode to the instructions they stand for. -/
def Obligations.WorkedEncodingsDecode : Prop :=
  decode 0x00000000 = .ok (.trap ⟨0⟩) ∧ decode 0x00002000 = .ok .endStrand ∧ decode 0x0000403F = .ok (.brk ⟨0x3F⟩) ∧
  decode 0x02000010 = .ok (.fence ⟨2, 0⟩) ∧ decode 0x02001002 = .ok (.fsv ⟨2⟩) ∧
  decode 0x04529800 = .ok (.add ⟨5, 5, 6⟩) ∧ decode 0x06420FD1 = .ok (.addi ⟨4, 4, 0xFD1⟩) ∧
  decode 0x0653683F = .ok (.srai ⟨5, 6, 63⟩) ∧ decode 0x08400013 = .ok (.sui ⟨4, 0x13⟩) ∧
  decode 0x0C532FF8 = .ok (.ldi32 ⟨5, 6, 0xFF8⟩) ∧ decode 0x0E533010 = .ok (.st64 ⟨5, 6, 0x010⟩) ∧
  decode 0x105399D0 = .ok (.amoadd ⟨5, 7, 6, 3, 2, 1⟩) ∧ decode 0x12601FFE = .ok (.bne ⟨6, 0, 0xFFE⟩) ∧
  decode 0x14104FFD = .ok (.bgnz ⟨1, 0xFFD⟩) ∧ decode 0x17F00002 = .ok (.jal ⟨31, 2⟩) ∧
  decode 0x180F8000 = .ok (.jalr ⟨0, 31, 0⟩) ∧ decode 0x1A03A003 = .ok (.csrrc ⟨0, 7, 3⟩) ∧
  decode 0x1C508400 = .ok (.gget ⟨5, 1, 1⟩) ∧ decode 0x1E531C00 = .ok (.qpost ⟨5, 6, 7⟩) ∧
  decode 0x1E530002 = .ok (.bar ⟨5, 6⟩) ∧ decode 0x20531C00 = .ok (.tlwait ⟨5, 6, 7⟩) ∧
  decode 0x22531C00 = .ok (.pgmig ⟨5, 6, 7⟩) ∧ decode 0x28521880 = .ok (.setvl ⟨5, 4, 0x0C, 1, 0⟩) ∧
  decode 0x28638882 = .ok (.rpt ⟨6, 7, 2, 2⟩) ∧ decode 0x2A210490 = .ok (.vadd ⟨0, 4, 8, 9, 0, 1, 0, 0⟩) ∧
  decode 0x38418700 = .ok (.vwmac ⟨0, 8, 12, 14, 0, 0, 0, 0⟩) ∧ decode 0xBA184204 = .ok (.vfadd ⟨1, 3, 2, 4, 0, 0, 0, 1⟩) ∧
  decode 0x3A286323 = .ok (.vfdiv ⟨0, 5, 3, 6, 1, 0, 0, 0⟩) ∧ decode 0x401062AA = .ok (.vcmplt ⟨0, 2, 3, 5, 1, 0, 1, 0⟩) ∧
  decode 0x46084180 = .ok (.mand ⟨0, 1, 2, 3, 0⟩) ∧ decode 0x48284020 = .ok (.mpop ⟨0, 5, 2, 1⟩) ∧
  decode 0x4C210190 = .ok (.vslideup ⟨0, 4, 8, 3, 0, 0⟩) ∧ decode 0x4E108280 = .ok (.vcompress ⟨0, 2, 4, 5, 0⟩) ∧
  decode 0x50084183 = .ok (.vfredsum ⟨0, 1, 2, 3, 0, 0, 0, 0⟩) ∧ decode 0x56404500 = .ok (.vcvt ⟨0, 8, 2, 0x0A, 0, 0⟩) ∧
  decode 0x56800C01 = .ok (.vqblk ⟨0, 16, 0, 24, 0⟩) ∧ decode 0x58008290 = .ok (.vldg ⟨0, 0, 4, 5, 1⟩) ∧
  decode 0xDA400218 = .ok (.radd ⟨1, 8, 0, 4, 1, 1, 0⟩) ∧ decode 0x5C604631 = .ok (.fenc ⟨0, 12, 2, 0x0C, 3, 0⟩) ∧
  decode 0x60414C06 = .ok (.vldx ⟨0, 8, 5, 12, 0, 0, 0, 1⟩) ∧ decode 0xE2214020 = .ok (.vst ⟨1, 4, 5, 0, 1, 0⟩) ∧
  decode 0x64414C0C = .ok (.vamoadd ⟨0, 8, 5, 12, 0, 0, 1, 1⟩) ∧ decode 0x68214001 = .ok (.mjst ⟨0, 4, 5, 0⟩) ∧
  decode 0x6A014608 = .ok (.cflush ⟨0, 5, 6, 1⟩) ∧ decode 0x6C194602 = .ok (.cpyw ⟨0, 3, 5, 6⟩)

/-- R47 to R55: the decoder reads every field of every well-formed instruction back from its word, and whatever word it accepts is the
word of the well-formed instruction it gives: no bit of a word is dropped, and no two instructions share a word. -/
def Obligations.DecodeAndEncodeAgree : Prop :=
  (∀ i w, fieldError i = none → encode i = some w → decode w = .ok i) ∧
  ∀ w i, decode w = .ok i → fieldError i = none ∧ encode i = some w

/-- R13, R47, R56, R10: a step lets time pass and takes one turn. A fetch turn executes the instruction decoded from the four bytes at
the PC, or illegal-instruction where they decode to none; a convoy of a strand whose VIQ is not empty enters it; a strand that has
yielded lets a ready one of its core go first (R125); a member turn executes the decoded next member; an event turn executes the
event; a request turn hands in what came by a link. The model's choice (assumption 1): State holds whose turn it is. -/
def Obligations.StepRunsTheDecodedInstruction : Prop :=
  ∀ (s : State) (rest : List Turn) (src : Nat) (w : BitVec 32) (x : Xl) (i : Instr) (c : Convoy) (ws : List (BitVec 32)) (y : Xl) (e : DecodeError)
    (enters : Bool) (limit : Option Nat),
    let u : State := { s.tick with turns := rest }
    let t := u.strand src
    let v : State := { u with cur := { src := src, pc := t.pc, samp := t.modes } }
    let word := v.see src t.pc x
    let turn := s.turns = (if enters = true then .enter src else .fetch src) :: rest ∧ t.st = .running ∧
      u.fetchHeld src t.pc (t.pc + 12) = false
    let fetches := turn ∧ t.skip = 0 ∧ v.fetchWord src t.pc 0 = .ok (w, x)
    { s.tick with dies := s.dies, steps := s.steps } = s ∧
    (∀ d, d < 8 → (s.die d).correcting = false → (s.tick.die d).gtc = (s.die d).gtc + BitVec.ofNat 64 (Config.elapsed s.steps)) ∧
    (MemOk s → v.fetchWord src t.pc 0 = .ok (w, x) → t.pc.toNat % 4 = 0 ∧ ∃ p, x.place = some p ∧ w.toNat = memNat s p.key 4) ∧
    (fetches → decode w = .ok i → convoyCapable w = false → step s = exec i word) ∧
    (fetches → decode w = .error e → step s = exec (.illegalInstruction 0 w) word) ∧
    (fetches → decode w = .ok i → convoyCapable w = true → word.fetchConvoy src t.pc [] 4 = .ok (ws, y) →
      issueStop t.modes (ws.map ((word.see src (t.pc + BitVec.ofNat 64 (4 * ws.length - 4)) y).givenOf src)) 0 = none →
      t.sluiceRoom 1 (ws.countP usesVmq) (ws.countP usesMxq) (ws.countP usesCpq) = true → t.viq ≠ [] ∨ enters = true →
      ∃ z d, step s = .next z ∧ (z.strand src).viq = t.viq ++ [d] ∧ d.words = ws ∧ d.pc = t.pc ∧ d.seq = t.nextSeq ∧
        (z.strand src).pc = t.pc + BitVec.ofNat 64 (4 * ws.length) ∧ (z.strand src).s = t.s ∧ (z.strand src).vec = t.vec ∧
        ∀ j, j ≠ src → z.strand j = u.strand j) ∧
    (turn → 0 < t.skip → u.otherReady src = true →
      ∃ z, step s = .next z ∧ { z with strands := u.strands } = u ∧ z.strand src = { t with skip := t.skip - 1 } ∧
        ∀ j, j ≠ src → z.strand j = u.strand j) ∧
    (s.turns = (match limit with | none => .member src | some n => .memberPart src n) :: rest → t.vecHeld = false → t.st ≠ .unbound →
      t.fsvMarks = [] → t.pending = some c → c.issued = true → t.barred c = false →
      decode (c.words.getD c.next 0) = .ok i → step s = exec i (u.openMember src c limit)) ∧
    (s.turns = .event i :: rest → encode i = none → step s = exec i u) ∧
    ∀ h, s.turns = .request h :: rest → step s = .next (u.request h)

/-- Every step that goes on keeps the invariant: memory and the scratchpads stay in canonical form, cached translations name whole
pages (R204, R208), and lines with a reader count (R238) or dirty in a cache (R222, R225) have whole lines under them. -/
def Obligations.EveryStepKeepsTheInvariant : Prop := ∀ s t : State, StateOk s → step s = .next t → StateOk t

/-- The invariant holds after power-on. -/
def Sys2Proof.Claims.ResetMeetsTheInvariant : Prop := StateOk State.reset

/-- R74, R87, R217, R328, R357 to R362: what power-on leaves where the spec gives it: no strand bound, every context and queue free,
every link in reset, every TRKCFG at its reset value, every GTC at 0, BOOTCNT 0, no start in progress. -/
def Sys2Proof.Claims.PowerOnState : Prop :=
  (∀ k, (State.reset.strand k).st = .unbound) ∧ (∀ c, (State.reset.context c).state = 0) ∧ (∀ q, (State.reset.queue q).desc.state = 0) ∧
  (∀ p, (State.reset.port p).state = .reset ∧ (State.reset.port p).errcnt = 0 ∧ (State.reset.port p).retry = 0) ∧
  (∀ d, (State.reset.die d).trkcfg = 0x0100000000001400 ∧ (State.reset.die d).gtc = 0) ∧
  (∀ k j, ((State.reset.cluster k).barriers.getD j {}).v = false) ∧
  State.reset.boot.bootcnt = 0 ∧ State.reset.boot.active = false ∧ State.reset.boot.repl = false

/-! ## Groups of statements -/

/-- R141, R142, R29: every function of the ALU major and every immediate form. -/
def Obligations.ScalarArithmeticResults : Prop := AluRegisterResults ∧ AluImmediateResults

/-- R149, R150: the jumps, and the branches on masks and grants. -/
def Obligations.JumpsMaskAndGrantBranches : Prop := JumpResults ∧ MaskAndGrantBranches

/-- R80, R82 to R84: reading and writing CSRs, and the clamped VLCAP. That TLBASE reads back without its low three bits is the model's
choice (log 71, DESIGN CHOICE). -/
def Obligations.CsrAccesses : Prop := CsrReadModifyWrite ∧ CsrReadsChangeNothing ∧ VlcapWriteIsClampedPowerOfTwo

/-- R55, R56, R84, R120, R152: the service instructions, the traps at decode, and the launch-ending trap 0. -/
def Obligations.ExceptionsAreTaken : Prop := ServiceInstructionsHaltTheGroup ∧ DecodeTrapsTakeTheirException ∧ TrapZeroEndsTheLaunch

/-- R144, R146, R229: scalar loads and stores. -/
def Obligations.ScalarLoadsAndStores : Prop := ScalarLoadResults ∧ ScalarStoreResults

/-- R254, R255: the five fences. -/
def Obligations.FencesWaitAndComplete : Prop := FencesCompleteWhenWorkIsDone ∧ DirectionalFencesWaitForTheirSide

/-- R114, R125, R347: `yield`, `mark`, and `end` of a strand with an empty strip buffer. That the 16 clocks of R125 are 16 fetch turns of
the strand is the model's choice (log 39, DESIGN CHOICE). -/
def Obligations.YieldMarkAndEnd : Prop := YieldAndMark ∧ EndFreesTheStrand

/-- R97: `qpost` and `qhash`. -/
def Obligations.QueueInstructions : Prop := QpostAdvancesTheTail ∧ QhashStoresTheChain

/-- R216, R221: the five page instructions. -/
def Obligations.PageInstructions : Prop := PageStatusAndCount ∧ ShadowPromotionStatuses ∧ PgmigStartsTheMigration

/-- R162: `rpt`. -/
def Obligations.RptReplays : Prop := RptIssuesEachWordTripCountTimes ∧ RptReplaysItsBody

/-- R164, R165: integer and widening arithmetic. -/
def Obligations.VectorIntegerAndWideningResults : Prop := VectorIntegerResults ∧ VectorWideningResults

/-- R20, R27, R166: floating-point arithmetic, its single rounding, and flag traps. -/
def Obligations.VectorFloatResultsAndFlags : Prop := VectorFloatResults ∧ FloatSumsAreRoundedOnce ∧ FlagTrapsArePrecise

/-- R167 to R169, R173: compares and mask instructions. -/
def Obligations.CompareAndMaskResults : Prop := VectorCompareResults ∧ MaskInstructionResults

/-- R174 to R176: reductions and scans. -/
def Obligations.ReductionAndScanResults : Prop := IntegerReductionResults ∧ FloatReductionAndScanResults

/-- R185 to R198: the rill instructions. That a VL of 0 tests the first codes all the same is the model's reading (log 58, DEDUCED). -/
def Obligations.RillResults : Prop := RillInstructionResults ∧ RillSumAccumulates

/-- R248, R251, R252, R293: copy and matrix members join their queues. -/
def Obligations.EngineMembersJoinTheirQueues : Prop := CopyMembersJoinTheQueue ∧ MatrixMembersJoinTheQueue

/-- R232, R246, R249 to R253: what the copy engine writes, loads that land, and timeline counters. -/
def Obligations.CopiesLandingsAndCounters : Prop := CopyEngineMovesBytes ∧ LandingsAndTimelineCounters

/-- R216, R328 to R336, R361: link ports, and requests of the host and of peers. -/
def Obligations.LinksAndHostRequests : Prop := PortsTrainFenceAndFail ∧ HostMemoryRequests

/-- R78, R91, R92, R95, R108, R109, R115: the COPY and LAUNCH commands. The model's: stop 3 for a PARAMBASE that is not mapped (log 64,
DEDUCED); stop 6 by what a cluster can hold, and the source of ranges that overlap as it stood (log 75, DESIGN CHOICE). -/
def Obligations.CopyAndLaunchCommands : Prop := CopyCommandsMoveBytes ∧ LaunchesStartAndComplete

/-- R206, R208, R212, R216, R220, R221: migration, the frame map and its caches. That FME_WRITE of a migrating frame sets P and nothing
else, and leaves W of another 0, is the model's reading (log 48, DEDUCED). -/
def Obligations.MigrationAndTheFrameMap : Prop := MigrationMovesTheFrame ∧ FrameMapWritesAndInvalidates

/-- R211, R215, R241, R242, R268, R320, R340, R361: replicas, homes, pseudo-channels and stacks. The model's readings: the scrubber of a
line is that of die L mod 8 (log 61, DEDUCED), and an unused spare that fails counts as a second failure (log 62, DEDUCED). -/
def Obligations.ReplicasHomesAndFailures : Prop := ReplicasAreScrubbedAndWritten ∧ HomesAndFailures

/-- R6, R73, R76 to R78, R87, R98, R208, R215, R217, R301, R350, R360: registers without a row of their own, and world bits. The model's
choices: a braid window's write zeroes its replicas and their tags (log 63, DESIGN CHOICE), and dirty L1 lines are written back at a
core's change of world (log 77, DESIGN CHOICE). -/
def Obligations.RegisterAndWorldBitWrites : Prop := RegisterWritesAreStored ∧ WorldBitsNeedIdleBlocks

/-- R348, R357 to R363: start-up, trips, time, power and lost trace. -/
def Obligations.StartUpPowerAndTime : Prop := StartUpAndTrips ∧ TimePowerAndTraceLoss

/-- R357 to R362: what power-on leaves, and that it meets the invariant. -/
def Obligations.ResetState : Prop := ResetMeetsTheInvariant ∧ PowerOnState
end

