-- ==== Sys2Proof/Laws/Memory.lean ====
section
/-! SUPPORT. Laws of tables and of memory: what a read finds after a write, and that every operation keeps the canonical
form. -/

namespace Sys2Proof

/-! ## Tables -/

@[simp] theorem Tbl.getD_set_self {α : Type} (t : Tbl α) (k : Nat) (x d : α) : Tbl.getD (Tbl.set t k x) k d = x := by
  induction t with
  | nil => simp [Tbl.set, Tbl.getD]
  | cons p r ih => obtain ⟨j, y⟩ := p; simp only [Tbl.set]; split <;> [skip; split] <;> simp_all [Tbl.getD]

theorem Tbl.getD_set_ne {α : Type} (t : Tbl α) (k m : Nat) (x d : α) (h : m ≠ k) :
    Tbl.getD (Tbl.set t k x) m d = Tbl.getD t m d := by
  induction t with
  | nil => simp [Tbl.set, Tbl.getD, h.symm]
  | cons p r ih =>
    obtain ⟨j, y⟩ := p; simp only [Tbl.set]; split
    · next e => subst e; simp [Tbl.getD, h.symm]
    · split <;> simp [Tbl.getD, h.symm, ih]

theorem Tbl.getD_set {α : Type} (t : Tbl α) (k m : Nat) (x d : α) :
    Tbl.getD (Tbl.set t k x) m d = if m = k then x else Tbl.getD t m d := by
  split
  · next h => subst h; simp
  · next h => exact Tbl.getD_set_ne t k m x d h

theorem Tbl.getD_eq_find {α : Type} (t : Tbl α) (k : Nat) (d : α) : Tbl.getD t k d = (Tbl.find t k).getD d := by
  induction t with
  | nil => rfl
  | cons p r ih => obtain ⟨j, y⟩ := p; simp only [Tbl.getD, Tbl.find]; split <;> simp [ih]

theorem Tbl.find_set {α : Type} (t : Tbl α) (k m : Nat) (x : α) :
    Tbl.find (Tbl.set t k x) m = if m = k then some x else Tbl.find t m := by
  induction t with
  | nil => simp only [Tbl.set, Tbl.find, eq_comm]
  | cons p r ih =>
    obtain ⟨j, y⟩ := p; simp only [Tbl.set]; split
    · next e => subst e; simp only [Tbl.find, eq_comm (a := m)]; split <;> rfl
    · split
      · simp only [Tbl.find, eq_comm (a := m)]
      · next h _ => simp only [Tbl.find, ih]; split <;> split <;> simp_all

theorem Tbl.find_erase {α : Type} (t : Tbl α) (k m : Nat) :
    Tbl.find (Tbl.erase t k) m = if m = k then none else Tbl.find t m := by
  induction t with
  | nil => simp [Tbl.erase, Tbl.find]
  | cons p r ih =>
    obtain ⟨j, y⟩ := p; simp only [Tbl.erase]; split
    · next e => subst e; simp only [ih, Tbl.find, eq_comm (a := m)]; split <;> rfl
    · next h => simp only [Tbl.find, ih]; split <;> split <;> simp_all

namespace Machine

/-! ## The canonical form -/

theorem Memory.wfFrom_iff (lo : Option Nat) (m : Memory) :
    Memory.wfFrom lo m = true ↔ (∀ l, lo = some l → ∀ c ∈ m, l < c.1) ∧ m.Pairwise (fun a b => a.1 < b.1) ∧
      ∀ c ∈ m, c.2 ≠ Memory.unlisted := by
  induction m generalizing lo with
  | nil => simp [Memory.wfFrom]
  | cons c r ih =>
    obtain ⟨b, x⟩ := c
    have h1 : Memory.wfFrom lo ((b, x) :: r) = true ↔
        (∀ l, lo = some l → l < b) ∧ x ≠ Memory.unlisted ∧ Memory.wfFrom (some b) r = true := by
      cases lo <;> simp [Memory.wfFrom, and_assoc]
    rw [h1, ih]
    simp only [List.mem_cons, forall_eq_or_imp, List.pairwise_cons, Option.some.injEq, forall_eq']
    constructor
    · rintro ⟨h1, h2, h3, h4, h5⟩
      exact ⟨fun l e => ⟨h1 l e, fun c hc => lt_trans (h1 l e) (h3 c hc)⟩, ⟨h3, h4⟩, h2, h5⟩
    · rintro ⟨h1, ⟨h3, h4⟩, h2, h5⟩
      exact ⟨fun l e => (h1 l e).1, h2, h3, h4, h5⟩

theorem Memory.wf_iff (m : Memory) :
    Memory.wf m = true ↔ m.Pairwise (fun a b => a.1 < b.1) ∧ ∀ c ∈ m, c.2 ≠ Memory.unlisted := by
  simp [Memory.wf, Memory.wfFrom_iff]

theorem Memory.wf_nil : Memory.wf [] = true := rfl

theorem Memory.wf_filter (m : Memory) (p : Host.Cell → Bool) (h : Memory.wf m = true) : Memory.wf (m.filter p) = true := by
  rw [Memory.wf_iff] at *
  exact ⟨h.1.filter p, fun c hc => h.2 c (List.mem_filter.mp hc).1⟩

theorem Memory.write_key (m : Memory) (a : Nat) (x : Byte) (c : Host.Cell) (h : c ∈ Memory.write m a x) :
    (c = (a, x) ∧ x ≠ Memory.unlisted) ∨ c ∈ m := by
  induction m with
  | nil => simp only [Memory.write] at h; split at h <;> simp_all
  | cons d r ih =>
    obtain ⟨b, y⟩ := d
    simp only [Memory.write] at h
    split at h
    · split at h <;> simp_all; tauto
    · split at h
      · split at h <;> simp_all
      · rcases List.mem_cons.mp h with h | h
        · simp [h]
        · rcases ih h with h | h <;> simp [h]

theorem Memory.wf_write (m : Memory) (a : Nat) (x : Byte) (h : Memory.wf m = true) : Memory.wf (Memory.write m a x) = true := by
  rw [Memory.wf_iff] at *
  obtain ⟨h, hn⟩ := h
  induction m with
  | nil => simp only [Memory.write]; split <;> simp_all
  | cons d r ih =>
    obtain ⟨b, y⟩ := d
    have hr := List.pairwise_cons.mp h
    have hb : y ≠ Memory.unlisted := hn _ List.mem_cons_self
    have hnr : ∀ c ∈ r, c.2 ≠ Memory.unlisted := fun c hc => hn c (List.mem_cons_of_mem _ hc)
    simp only [Memory.write]
    split
    · next e =>
      subst e
      split
      · exact ⟨hr.2, hnr⟩
      · next hx => refine ⟨List.pairwise_cons.mpr ⟨hr.1, hr.2⟩, ?_⟩; simpa using ⟨hx, fun p q hc => hnr (p, q) hc⟩
    · split
      · next hl =>
        split
        · exact ⟨h, hn⟩
        · next hx =>
          refine ⟨List.pairwise_cons.mpr ⟨?_, h⟩, ?_⟩
          · intro c hc
            rcases List.mem_cons.mp hc with hc | hc
            · simpa [hc] using hl
            · exact lt_trans hl (hr.1 c hc)
          · intro c hc
            rcases List.mem_cons.mp hc with hc | hc
            · simpa [hc] using hx
            · exact hn c hc
      · next hne hl =>
        have := ih hr.2 hnr
        refine ⟨List.pairwise_cons.mpr ⟨?_, this.1⟩, ?_⟩
        · intro c hc
          rcases Memory.write_key r a x c hc with ⟨hc, -⟩ | hc
          · subst hc; simp only; omega
          · exact hr.1 c hc
        · intro c hc
          rcases List.mem_cons.mp hc with hc | hc
          · simpa [hc] using hb
          · exact this.2 c hc

theorem Memory.mem_below (m : Memory) (a : Nat) (c : Host.Cell) (h : c ∈ m.below a) : c ∈ m ∧ c.1 < a := by
  induction m with
  | nil => simp [Memory.below] at h
  | cons d r ih =>
    obtain ⟨b, x⟩ := d
    simp only [Memory.below] at h
    split at h
    · next hb =>
      rcases List.mem_cons.mp h with h | h
      · simp [h, hb]
      · exact ⟨List.mem_cons_of_mem _ (ih h).1, (ih h).2⟩
    · simp at h

theorem Memory.mem_upFrom (m : Memory) (a : Nat) (hm : m.Pairwise (fun p q => p.1 < q.1)) (c : Host.Cell) :
    c ∈ m.upFrom a ↔ c ∈ m ∧ a ≤ c.1 := by
  induction m with
  | nil => simp [Memory.upFrom]
  | cons d r ih =>
    obtain ⟨b, x⟩ := d
    have hr := List.pairwise_cons.mp hm
    simp only [Memory.upFrom]
    split
    · next hb =>
      rw [ih hr.2]
      simp only [List.mem_cons]
      constructor
      · rintro ⟨h1, h2⟩; exact ⟨.inr h1, h2⟩
      · rintro ⟨h1 | h1, h2⟩
        · subst h1; simp only at h2; omega
        · exact ⟨h1, h2⟩
    · next hb =>
      refine ⟨fun h => ⟨h, ?_⟩, fun h => h.1⟩
      rcases List.mem_cons.mp h with h | h
      · subst h; simp only; omega
      · have := hr.1 c h; simp only at this; omega

theorem Memory.mem_below_iff (m : Memory) (a : Nat) (hm : m.Pairwise (fun p q => p.1 < q.1)) (c : Host.Cell) :
    c ∈ m.below a ↔ c ∈ m ∧ c.1 < a := by
  refine ⟨Memory.mem_below m a c, fun h => ?_⟩
  induction m with
  | nil => simp at h
  | cons d r ih =>
    obtain ⟨b, x⟩ := d
    have hr := List.pairwise_cons.mp hm
    simp only [Memory.below]
    rcases List.mem_cons.mp h.1 with h1 | h1
    · subst h1; simp [h.2]
    · have hlt := hr.1 c h1
      simp only at hlt
      rw [if_pos (by omega)]
      exact List.mem_cons_of_mem _ (ih hr.2 ⟨h1, h.2⟩)

theorem Memory.mem_listed (a : Nat) (bs : List Byte) (c : Host.Cell) :
    c ∈ Memory.listed a bs ↔ c.2 ≠ Memory.unlisted ∧ ∃ i, i < bs.length ∧ c.1 = a + i ∧ bs[i]? = some c.2 := by
  induction bs generalizing a with
  | nil => simp [Memory.listed]
  | cons b r ih =>
    have key : (∃ i, i < (b :: r).length ∧ c.1 = a + i ∧ (b :: r)[i]? = some c.2) ↔
        (c = (a, b) ∨ ∃ i, i < r.length ∧ c.1 = a + 1 + i ∧ r[i]? = some c.2) := by
      constructor
      · rintro ⟨i, hi, h1, h2⟩
        cases i with
        | zero => left; ext1 <;> simp_all
        | succ j => right; exact ⟨j, by simpa using hi, by omega, by simpa using h2⟩
      · rintro (h | ⟨i, hi, h1, h2⟩)
        · subst h; exact ⟨0, by simp, by simp, by simp⟩
        · exact ⟨i + 1, by simpa using hi, by omega, by simpa using h2⟩
    rw [key]
    simp only [Memory.listed]
    split
    · next e =>
      rw [ih]
      constructor
      · rintro ⟨h1, h2⟩; exact ⟨h1, .inr h2⟩
      · rintro ⟨h1, h2 | h2⟩
        · subst h2; exact absurd e h1
        · exact ⟨h1, h2⟩
    · next e =>
      rw [List.mem_cons, ih]
      constructor
      · rintro (h | h)
        · subst h; exact ⟨e, .inl rfl⟩
        · exact ⟨h.1, .inr h.2⟩
      · rintro ⟨h1, h2 | h2⟩
        · exact .inl h2
        · exact .inr ⟨h1, h2⟩

theorem Memory.pairwise_listed (a : Nat) (bs : List Byte) : (Memory.listed a bs).Pairwise (fun p q => p.1 < q.1) := by
  induction bs generalizing a with
  | nil => simp [Memory.listed]
  | cons b r ih =>
    simp only [Memory.listed]
    split
    · exact ih _
    · refine List.pairwise_cons.mpr ⟨fun c hc => ?_, ih _⟩
      obtain ⟨-, i, -, h, -⟩ := (Memory.mem_listed _ _ _).mp hc
      simp only; omega

theorem Memory.pairwise_below (m : Memory) (a : Nat) (hm : m.Pairwise (fun p q => p.1 < q.1)) :
    (m.below a).Pairwise (fun p q => p.1 < q.1) := by
  induction m with
  | nil => simp [Memory.below]
  | cons d r ih =>
    obtain ⟨b, x⟩ := d
    have hr := List.pairwise_cons.mp hm
    simp only [Memory.below]
    split
    · exact List.pairwise_cons.mpr ⟨fun c hc => hr.1 c (Memory.mem_below r a c hc).1, ih hr.2⟩
    · simp

theorem Memory.pairwise_upFrom (m : Memory) (a : Nat) (hm : m.Pairwise (fun p q => p.1 < q.1)) :
    (m.upFrom a).Pairwise (fun p q => p.1 < q.1) := by
  induction m with
  | nil => simp [Memory.upFrom]
  | cons d r ih =>
    obtain ⟨b, x⟩ := d
    simp only [Memory.upFrom]
    split
    · exact ih (List.pairwise_cons.mp hm).2
    · exact hm

theorem Memory.mem_writeBytes (m : Memory) (a : Nat) (bs : List Byte) (hm : Memory.wf m = true) (c : Host.Cell) :
    c ∈ Memory.writeBytes m a bs ↔
      (c ∈ m ∧ (c.1 < a ∨ a + bs.length ≤ c.1)) ∨ (c.2 ≠ Memory.unlisted ∧ ∃ i, i < bs.length ∧ c.1 = a + i ∧ bs[i]? = some c.2) := by
  have hp := ((Memory.wf_iff m).mp hm).1
  simp only [Memory.writeBytes, List.mem_append, Memory.mem_below_iff m a hp, Memory.mem_listed, Memory.mem_upFrom m _ hp]
  generalize (c.2 ≠ Memory.unlisted ∧ ∃ i, i < bs.length ∧ c.1 = a + i ∧ bs[i]? = some c.2) = P
  constructor
  · rintro (⟨h, l⟩ | h | ⟨h, g⟩)
    exacts [.inl ⟨h, .inl l⟩, .inr h, .inl ⟨h, .inr g⟩]
  · rintro (⟨h, l | g⟩ | h)
    exacts [.inl ⟨h, l⟩, .inr (.inr ⟨h, g⟩), .inr (.inl h)]

theorem Memory.wf_writeBytes (m : Memory) (a : Nat) (bs : List Byte) (h : Memory.wf m = true) :
    Memory.wf (Memory.writeBytes m a bs) = true := by
  have hw := (Memory.wf_iff m).mp h
  rw [Memory.wf_iff]
  refine ⟨?_, fun c hc => ?_⟩
  · refine List.pairwise_append.mpr ⟨Memory.pairwise_below m a hw.1, List.pairwise_append.mpr
      ⟨Memory.pairwise_listed a bs, Memory.pairwise_upFrom m _ hw.1, ?_⟩, ?_⟩
    · intro c hc d hd
      obtain ⟨-, i, hi, h1, -⟩ := (Memory.mem_listed _ _ _).mp hc
      have := ((Memory.mem_upFrom m _ hw.1 d).mp hd).2
      omega
    · intro c hc d hd
      have h1 := (Memory.mem_below m a c hc).2
      rcases List.mem_append.mp hd with hd | hd
      · obtain ⟨-, i, -, h2, -⟩ := (Memory.mem_listed _ _ _).mp hd; omega
      · have := ((Memory.mem_upFrom m _ hw.1 d).mp hd).2; omega
  · rcases (Memory.mem_writeBytes m a bs h c).mp hc with hc | hc
    · exact hw.2 c hc.1
    · exact hc.1

/-! ## Reads -/

theorem Memory.read_of_mem (m : Memory) (hm : Memory.wf m = true) (c : Host.Cell) (h : c ∈ m) : Memory.read m c.1 = c.2 := by
  have hp := ((Memory.wf_iff m).mp hm).1
  clear hm
  induction m with
  | nil => simp at h
  | cons d r ih =>
    obtain ⟨b, x⟩ := d
    have hr := List.pairwise_cons.mp hp
    simp only [Memory.read]
    rcases List.mem_cons.mp h with h | h
    · subst h; simp
    · have := hr.1 c h
      simp only at this
      rw [if_neg (by omega), if_neg (by omega)]
      exact ih h hr.2

theorem Memory.read_of_not_mem (m : Memory) (a : Nat) (h : ∀ c ∈ m, c.1 ≠ a) : Memory.read m a = Memory.unlisted := by
  induction m with
  | nil => rfl
  | cons d r ih =>
    obtain ⟨b, x⟩ := d
    have hb : b ≠ a := h (b, x) List.mem_cons_self
    simp only [Memory.read, if_neg hb, ih (fun c hc => h c (List.mem_cons_of_mem _ hc)), ite_self]

/-- What a read finds after bytes were written. -/
theorem Memory.read_writeBytes (m : Memory) (hm : Memory.wf m = true) (a : Nat) (bs : List Byte) (k : Nat) :
    Memory.read (Memory.writeBytes m a bs) k = if a ≤ k ∧ k < a + bs.length then bs.getD (k - a) 0 else Memory.read m k := by
  have hw := Memory.wf_writeBytes m a bs hm
  have hin := fun c => Memory.mem_writeBytes m a bs hm c
  by_cases hc : ∃ x, (k, x) ∈ Memory.writeBytes m a bs
  · obtain ⟨x, hx⟩ := hc
    rw [show Memory.read (Memory.writeBytes m a bs) k = x from Memory.read_of_mem _ hw (k, x) hx]
    rcases (hin _).mp hx with ⟨h1, h2⟩ | ⟨-, i, h2, h3, h4⟩
    · simp only at h2
      rw [if_neg (by omega)]
      exact (Memory.read_of_mem m hm (k, x) h1).symm
    · simp only at h3 h4
      rw [if_pos (by omega), show k - a = i by omega, List.getD_eq_getElem?_getD, h4, Option.getD_some]
  · rw [Memory.read_of_not_mem _ k (fun c hc2 e => hc ⟨c.2, by rw [← e]; exact hc2⟩)]
    split
    · next h =>
      have hlt : k - a < bs.length := by omega
      by_contra hne
      refine hc ⟨bs.getD (k - a) 0, (hin _).mpr (.inr ⟨fun e => hne e.symm, k - a, hlt, by simp only; omega, ?_⟩)⟩
      simp [List.getD_eq_getElem?_getD, hlt]
    · next h =>
      refine (Memory.read_of_not_mem m k (fun c hc2 e => hc ⟨c.2, (hin _).mpr (.inl ⟨by rw [← e]; exact hc2, by simp only; omega⟩)⟩)).symm

theorem Memory.run_eq (m : Memory) (hm : Memory.wf m = true) (a n : Nat) (h : ∀ c ∈ m, a ≤ c.1) :
    Memory.run m a n = (List.range n).map (fun i => Memory.read m (a + i)) := by
  induction n generalizing m a with
  | zero => cases m <;> rfl
  | succ k ih =>
    rw [List.range_succ_eq_map, List.map_cons, List.map_map]
    cases m with
    | nil =>
      simp only [Memory.run, Memory.read]
      rw [ih [] hm _ (by simp)]
      rfl
    | cons d r =>
      obtain ⟨b, x⟩ := d
      have hw := (Memory.wf_iff _).mp hm
      have hr := List.pairwise_cons.mp hw.1
      have hwr : Memory.wf r = true := (Memory.wf_iff r).mpr ⟨hr.2, fun c hc => hw.2 c (List.mem_cons_of_mem _ hc)⟩
      have hb := h (b, x) List.mem_cons_self
      simp only at hb
      simp only [Memory.run]
      split
      · next e =>
        subst e
        rw [ih r hwr (b + 1) (fun c hc => by have := hr.1 c hc; simp only at this; omega)]
        refine List.cons_eq_cons.mpr ⟨by simp [Memory.read], List.map_congr_left (fun i _ => ?_)⟩
        simp only [Function.comp_apply, Memory.read, show b + 1 + i = b + (i + 1) by omega, Nat.succ_eq_add_one]
        rw [if_neg (by omega), if_neg (by omega)]
      · next e =>
        rw [ih ((b, x) :: r) hm (a + 1) (fun c hc => by
          rcases List.mem_cons.mp hc with hc | hc
          · subst hc; simp only; omega
          · have := hr.1 c hc; simp only at this; omega)]
        refine List.cons_eq_cons.mpr ⟨?_, List.map_congr_left (fun i _ => ?_)⟩
        · simp only [Memory.read, Nat.add_zero, if_neg e]; rw [if_pos (by omega)]
        · simp only [Function.comp_apply, show a + 1 + i = a + (i + 1) by omega, Nat.succ_eq_add_one]

/-- A read of many bytes is the bytes one by one. -/
theorem Memory.readBytes_eq (m : Memory) (hm : Memory.wf m = true) (a n : Nat) :
    Memory.readBytes m a n = (List.range n).map (fun i => Memory.read m (a + i)) := by
  have hw := (Memory.wf_iff m).mp hm
  have hu : Memory.wf (m.upFrom a) = true :=
    (Memory.wf_iff _).mpr ⟨Memory.pairwise_upFrom m a hw.1, fun c hc => hw.2 c ((Memory.mem_upFrom m a hw.1 c).mp hc).1⟩
  rw [Memory.readBytes, Memory.run_eq _ hu a n (fun c hc => ((Memory.mem_upFrom m a hw.1 c).mp hc).2)]
  refine List.map_congr_left (fun i _ => ?_)
  by_cases hc : ∃ x, (a + i, x) ∈ m
  · obtain ⟨x, hx⟩ := hc
    rw [show Memory.read m (a + i) = x from Memory.read_of_mem m hm (a + i, x) hx]
    exact Memory.read_of_mem _ hu (a + i, x) ((Memory.mem_upFrom m a hw.1 _).mpr ⟨hx, by simp only; omega⟩)
  · rw [Memory.read_of_not_mem m _ (fun c hc2 e => hc ⟨c.2, by rw [← e]; exact hc2⟩)]
    exact Memory.read_of_not_mem _ _ (fun c hc2 e => hc ⟨c.2, by rw [← e]; exact ((Memory.mem_upFrom m a hw.1 c).mp hc2).1⟩)

@[simp] theorem leBytes_length (n x : Nat) : (leBytes n x).length = n := by
  induction n generalizing x with
  | zero => rfl
  | succ k ih => simp [leBytes, ih]

@[simp] theorem leNat_leBytes (n x : Nat) : leNat (leBytes n x) = x % 256 ^ n := by
  induction n generalizing x with
  | zero => simp [leBytes, leNat, Nat.mod_one]
  | succ k ih =>
    have h (y : Nat) : (BitVec.ofNat 8 y).toNat = y % 256 := BitVec.toNat_ofNat y 8
    rw [leBytes, leNat, ih, h, Nat.pow_succ, Nat.mul_comm (256 ^ k) 256, Nat.mod_mul]

/-! ## Caches change no byte when a line is written -/

@[simp] theorem State.fitMsc_mem (s : State) (line : Nat) : (s.fitMsc line).mem = s.mem := by
  unfold State.fitMsc
  split
  · rfl
  · split <;> rfl

@[simp] theorem State.leaveL1_mem (s : State) (line : Nat) : (s.leaveL1 line).mem = s.mem := by
  unfold State.leaveL1; split <;> simp

@[simp] theorem State.fitL1_mem (s : State) (core line : Nat) : (s.fitL1 core line).mem = s.mem := by
  simp only [State.fitL1]; split
  · rfl
  · split <;> simp

@[simp] theorem State.takeLine_mem (s : State) (core : Option Nat) (line : Nat) : (s.takeLine core line).mem = s.mem := by
  unfold State.takeLine
  split
  · rfl
  · cases core with
    | some k => dsimp only; rw [State.fitL1_mem]; split <;> split <;> rfl
    | none => dsimp only; split <;> simp <;> split <;> rfl

@[simp] theorem State.takeLines_mem (s : State) (core : Option Nat) (lo n : Nat) : (s.takeLines core lo n).mem = s.mem := by
  induction n generalizing s lo with
  | zero => rfl
  | succ k ih => simp [State.takeLines, ih]

/-- What the write of bytes at a key does to memory. -/
@[simp] theorem State.writeAt_mem (s : State) (key : Nat) (bs : List Byte) (core : Option Nat) :
    (s.writeAt key bs core).mem = Memory.writeBytes s.mem key bs := by
  simp only [State.writeAt]
  split <;> simp

theorem State.reset_mem_wf : Memory.wf State.reset.mem = true := rfl

end Machine
end Sys2Proof
end

