-- ==== Sys2Proof/Laws/State.lean ====
section
/-! SUPPORT. What each update of State leaves in every other field and unit, and the laws of the registers of a strand. -/

namespace Sys2Proof.Machine

/-! ## One field per update -/

@[simp] theorem State.setStrand_cur (s : State) (k : Nat) (x : Strand) : (s.setStrand k x).cur = s.cur := rfl
@[simp] theorem State.setStrand_turns (s : State) (k : Nat) (x : Strand) : (s.setStrand k x).turns = s.turns := rfl
@[simp] theorem State.setStrand_rot (s : State) (k : Nat) (x : Strand) : (s.setStrand k x).rot = s.rot := rfl
@[simp] theorem State.setStrand_steps (s : State) (k : Nat) (x : Strand) : (s.setStrand k x).steps = s.steps := rfl
@[simp] theorem State.setStrand_freeDraws (s : State) (k : Nat) (x : Strand) : (s.setStrand k x).freeDraws = s.freeDraws := rfl
@[simp] theorem State.setStrand_profDraws (s : State) (k : Nat) (x : Strand) : (s.setStrand k x).profDraws = s.profDraws := rfl
@[simp] theorem State.setStrand_replicaPick (s : State) (k : Nat) (x : Strand) : (s.setStrand k x).replicaPick = s.replicaPick := rfl
@[simp] theorem State.setStrand_cores (s : State) (k : Nat) (x : Strand) : (s.setStrand k x).cores = s.cores := rfl
@[simp] theorem State.setStrand_clusters (s : State) (k : Nat) (x : Strand) : (s.setStrand k x).clusters = s.clusters := rfl
@[simp] theorem State.setStrand_dies (s : State) (k : Nat) (x : Strand) : (s.setStrand k x).dies = s.dies := rfl
@[simp] theorem State.setStrand_ports (s : State) (k : Nat) (x : Strand) : (s.setStrand k x).ports = s.ports := rfl
@[simp] theorem State.setStrand_mem (s : State) (k : Nat) (x : Strand) : (s.setStrand k x).mem = s.mem := rfl
@[simp] theorem State.setStrand_poison (s : State) (k : Nat) (x : Strand) : (s.setStrand k x).poison = s.poison := rfl
@[simp] theorem State.setStrand_counted (s : State) (k : Nat) (x : Strand) : (s.setStrand k x).counted = s.counted := rfl
@[simp] theorem State.setStrand_l1 (s : State) (k : Nat) (x : Strand) : (s.setStrand k x).l1 = s.l1 := rfl
@[simp] theorem State.setStrand_msc (s : State) (k : Nat) (x : Strand) : (s.setStrand k x).msc = s.msc := rfl
@[simp] theorem State.setStrand_aliases (s : State) (k : Nat) (x : Strand) : (s.setStrand k x).aliases = s.aliases := rfl
@[simp] theorem State.setStrand_aliasMem (s : State) (k : Nat) (x : Strand) : (s.setStrand k x).aliasMem = s.aliasMem := rfl
@[simp] theorem State.setStrand_aliasSeen (s : State) (k : Nat) (x : Strand) : (s.setStrand k x).aliasSeen = s.aliasSeen := rfl
@[simp] theorem State.setStrand_braidTag (s : State) (k : Nat) (x : Strand) : (s.setStrand k x).braidTag = s.braidTag := rfl
@[simp] theorem State.setStrand_braidWindows (s : State) (k : Nat) (x : Strand) : (s.setStrand k x).braidWindows = s.braidWindows := rfl
@[simp] theorem State.setStrand_fmap (s : State) (k : Nat) (x : Strand) : (s.setStrand k x).fmap = s.fmap := rfl
@[simp] theorem State.setStrand_contexts (s : State) (k : Nat) (x : Strand) : (s.setStrand k x).contexts = s.contexts := rfl
@[simp] theorem State.setStrand_keys (s : State) (k : Nat) (x : Strand) : (s.setStrand k x).keys = s.keys := rfl
@[simp] theorem State.setStrand_queues (s : State) (k : Nat) (x : Strand) : (s.setStrand k x).queues = s.queues := rfl
@[simp] theorem State.setStrand_launches (s : State) (k : Nat) (x : Strand) : (s.setStrand k x).launches = s.launches := rfl
@[simp] theorem State.setStrand_groups (s : State) (k : Nat) (x : Strand) : (s.setStrand k x).groups = s.groups := rfl
@[simp] theorem State.setStrand_waitingRecs (s : State) (k : Nat) (x : Strand) : (s.setStrand k x).waitingRecs = s.waitingRecs := rfl
@[simp] theorem State.setStrand_mgmt (s : State) (k : Nat) (x : Strand) : (s.setStrand k x).mgmt = s.mgmt := rfl
@[simp] theorem State.setStrand_migrations (s : State) (k : Nat) (x : Strand) : (s.setStrand k x).migrations = s.migrations := rfl
@[simp] theorem State.setStrand_braidWrites (s : State) (k : Nat) (x : Strand) : (s.setStrand k x).braidWrites = s.braidWrites := rfl
@[simp] theorem State.setStrand_braidAnswers (s : State) (k : Nat) (x : Strand) : (s.setStrand k x).braidAnswers = s.braidAnswers := rfl
@[simp] theorem State.setStrand_flyWrites (s : State) (k : Nat) (x : Strand) : (s.setStrand k x).flyWrites = s.flyWrites := rfl
@[simp] theorem State.setStrand_flyHold (s : State) (k : Nat) (x : Strand) : (s.setStrand k x).flyHold = s.flyHold := rfl
@[simp] theorem State.setStrand_loaded (s : State) (k : Nat) (x : Strand) : (s.setStrand k x).loaded = s.loaded := rfl
@[simp] theorem State.setStrand_boot (s : State) (k : Nat) (x : Strand) : (s.setStrand k x).boot = s.boot := rfl
@[simp] theorem State.setStrand_flash (s : State) (k : Nat) (x : Strand) : (s.setStrand k x).flash = s.flash := rfl
@[simp] theorem State.setStrand_fuses (s : State) (k : Nat) (x : Strand) : (s.setStrand k x).fuses = s.fuses := rfl
@[simp] theorem State.setStrand_hostImage (s : State) (k : Nat) (x : Strand) : (s.setStrand k x).hostImage = s.hostImage := rfl
@[simp] theorem State.setStrand_hostIn (s : State) (k : Nat) (x : Strand) : (s.setStrand k x).hostIn = s.hostIn := rfl
@[simp] theorem State.setStrand_hostMsgs (s : State) (k : Nat) (x : Strand) : (s.setStrand k x).hostMsgs = s.hostMsgs := rfl
@[simp] theorem State.setStrand_hostPosts (s : State) (k : Nat) (x : Strand) : (s.setStrand k x).hostPosts = s.hostPosts := rfl

@[simp] theorem State.setCore_cur (s : State) (k : Nat) (x : Core) : (s.setCore k x).cur = s.cur := rfl
@[simp] theorem State.setCore_turns (s : State) (k : Nat) (x : Core) : (s.setCore k x).turns = s.turns := rfl
@[simp] theorem State.setCore_rot (s : State) (k : Nat) (x : Core) : (s.setCore k x).rot = s.rot := rfl
@[simp] theorem State.setCore_steps (s : State) (k : Nat) (x : Core) : (s.setCore k x).steps = s.steps := rfl
@[simp] theorem State.setCore_freeDraws (s : State) (k : Nat) (x : Core) : (s.setCore k x).freeDraws = s.freeDraws := rfl
@[simp] theorem State.setCore_profDraws (s : State) (k : Nat) (x : Core) : (s.setCore k x).profDraws = s.profDraws := rfl
@[simp] theorem State.setCore_replicaPick (s : State) (k : Nat) (x : Core) : (s.setCore k x).replicaPick = s.replicaPick := rfl
@[simp] theorem State.setCore_strands (s : State) (k : Nat) (x : Core) : (s.setCore k x).strands = s.strands := rfl
@[simp] theorem State.setCore_clusters (s : State) (k : Nat) (x : Core) : (s.setCore k x).clusters = s.clusters := rfl
@[simp] theorem State.setCore_dies (s : State) (k : Nat) (x : Core) : (s.setCore k x).dies = s.dies := rfl
@[simp] theorem State.setCore_ports (s : State) (k : Nat) (x : Core) : (s.setCore k x).ports = s.ports := rfl
@[simp] theorem State.setCore_mem (s : State) (k : Nat) (x : Core) : (s.setCore k x).mem = s.mem := rfl
@[simp] theorem State.setCore_poison (s : State) (k : Nat) (x : Core) : (s.setCore k x).poison = s.poison := rfl
@[simp] theorem State.setCore_counted (s : State) (k : Nat) (x : Core) : (s.setCore k x).counted = s.counted := rfl
@[simp] theorem State.setCore_l1 (s : State) (k : Nat) (x : Core) : (s.setCore k x).l1 = s.l1 := rfl
@[simp] theorem State.setCore_msc (s : State) (k : Nat) (x : Core) : (s.setCore k x).msc = s.msc := rfl
@[simp] theorem State.setCore_aliases (s : State) (k : Nat) (x : Core) : (s.setCore k x).aliases = s.aliases := rfl
@[simp] theorem State.setCore_aliasMem (s : State) (k : Nat) (x : Core) : (s.setCore k x).aliasMem = s.aliasMem := rfl
@[simp] theorem State.setCore_aliasSeen (s : State) (k : Nat) (x : Core) : (s.setCore k x).aliasSeen = s.aliasSeen := rfl
@[simp] theorem State.setCore_braidTag (s : State) (k : Nat) (x : Core) : (s.setCore k x).braidTag = s.braidTag := rfl
@[simp] theorem State.setCore_braidWindows (s : State) (k : Nat) (x : Core) : (s.setCore k x).braidWindows = s.braidWindows := rfl
@[simp] theorem State.setCore_fmap (s : State) (k : Nat) (x : Core) : (s.setCore k x).fmap = s.fmap := rfl
@[simp] theorem State.setCore_contexts (s : State) (k : Nat) (x : Core) : (s.setCore k x).contexts = s.contexts := rfl
@[simp] theorem State.setCore_keys (s : State) (k : Nat) (x : Core) : (s.setCore k x).keys = s.keys := rfl
@[simp] theorem State.setCore_queues (s : State) (k : Nat) (x : Core) : (s.setCore k x).queues = s.queues := rfl
@[simp] theorem State.setCore_launches (s : State) (k : Nat) (x : Core) : (s.setCore k x).launches = s.launches := rfl
@[simp] theorem State.setCore_groups (s : State) (k : Nat) (x : Core) : (s.setCore k x).groups = s.groups := rfl
@[simp] theorem State.setCore_waitingRecs (s : State) (k : Nat) (x : Core) : (s.setCore k x).waitingRecs = s.waitingRecs := rfl
@[simp] theorem State.setCore_mgmt (s : State) (k : Nat) (x : Core) : (s.setCore k x).mgmt = s.mgmt := rfl
@[simp] theorem State.setCore_migrations (s : State) (k : Nat) (x : Core) : (s.setCore k x).migrations = s.migrations := rfl
@[simp] theorem State.setCore_braidWrites (s : State) (k : Nat) (x : Core) : (s.setCore k x).braidWrites = s.braidWrites := rfl
@[simp] theorem State.setCore_braidAnswers (s : State) (k : Nat) (x : Core) : (s.setCore k x).braidAnswers = s.braidAnswers := rfl
@[simp] theorem State.setCore_flyWrites (s : State) (k : Nat) (x : Core) : (s.setCore k x).flyWrites = s.flyWrites := rfl
@[simp] theorem State.setCore_flyHold (s : State) (k : Nat) (x : Core) : (s.setCore k x).flyHold = s.flyHold := rfl
@[simp] theorem State.setCore_loaded (s : State) (k : Nat) (x : Core) : (s.setCore k x).loaded = s.loaded := rfl
@[simp] theorem State.setCore_boot (s : State) (k : Nat) (x : Core) : (s.setCore k x).boot = s.boot := rfl
@[simp] theorem State.setCore_flash (s : State) (k : Nat) (x : Core) : (s.setCore k x).flash = s.flash := rfl
@[simp] theorem State.setCore_fuses (s : State) (k : Nat) (x : Core) : (s.setCore k x).fuses = s.fuses := rfl
@[simp] theorem State.setCore_hostImage (s : State) (k : Nat) (x : Core) : (s.setCore k x).hostImage = s.hostImage := rfl
@[simp] theorem State.setCore_hostIn (s : State) (k : Nat) (x : Core) : (s.setCore k x).hostIn = s.hostIn := rfl
@[simp] theorem State.setCore_hostMsgs (s : State) (k : Nat) (x : Core) : (s.setCore k x).hostMsgs = s.hostMsgs := rfl
@[simp] theorem State.setCore_hostPosts (s : State) (k : Nat) (x : Core) : (s.setCore k x).hostPosts = s.hostPosts := rfl

@[simp] theorem State.setCluster_cur (s : State) (k : Nat) (x : Cluster) : (s.setCluster k x).cur = s.cur := rfl
@[simp] theorem State.setCluster_turns (s : State) (k : Nat) (x : Cluster) : (s.setCluster k x).turns = s.turns := rfl
@[simp] theorem State.setCluster_rot (s : State) (k : Nat) (x : Cluster) : (s.setCluster k x).rot = s.rot := rfl
@[simp] theorem State.setCluster_steps (s : State) (k : Nat) (x : Cluster) : (s.setCluster k x).steps = s.steps := rfl
@[simp] theorem State.setCluster_freeDraws (s : State) (k : Nat) (x : Cluster) : (s.setCluster k x).freeDraws = s.freeDraws := rfl
@[simp] theorem State.setCluster_profDraws (s : State) (k : Nat) (x : Cluster) : (s.setCluster k x).profDraws = s.profDraws := rfl
@[simp] theorem State.setCluster_replicaPick (s : State) (k : Nat) (x : Cluster) : (s.setCluster k x).replicaPick = s.replicaPick := rfl
@[simp] theorem State.setCluster_strands (s : State) (k : Nat) (x : Cluster) : (s.setCluster k x).strands = s.strands := rfl
@[simp] theorem State.setCluster_cores (s : State) (k : Nat) (x : Cluster) : (s.setCluster k x).cores = s.cores := rfl
@[simp] theorem State.setCluster_dies (s : State) (k : Nat) (x : Cluster) : (s.setCluster k x).dies = s.dies := rfl
@[simp] theorem State.setCluster_ports (s : State) (k : Nat) (x : Cluster) : (s.setCluster k x).ports = s.ports := rfl
@[simp] theorem State.setCluster_mem (s : State) (k : Nat) (x : Cluster) : (s.setCluster k x).mem = s.mem := rfl
@[simp] theorem State.setCluster_poison (s : State) (k : Nat) (x : Cluster) : (s.setCluster k x).poison = s.poison := rfl
@[simp] theorem State.setCluster_counted (s : State) (k : Nat) (x : Cluster) : (s.setCluster k x).counted = s.counted := rfl
@[simp] theorem State.setCluster_l1 (s : State) (k : Nat) (x : Cluster) : (s.setCluster k x).l1 = s.l1 := rfl
@[simp] theorem State.setCluster_msc (s : State) (k : Nat) (x : Cluster) : (s.setCluster k x).msc = s.msc := rfl
@[simp] theorem State.setCluster_aliases (s : State) (k : Nat) (x : Cluster) : (s.setCluster k x).aliases = s.aliases := rfl
@[simp] theorem State.setCluster_aliasMem (s : State) (k : Nat) (x : Cluster) : (s.setCluster k x).aliasMem = s.aliasMem := rfl
@[simp] theorem State.setCluster_aliasSeen (s : State) (k : Nat) (x : Cluster) : (s.setCluster k x).aliasSeen = s.aliasSeen := rfl
@[simp] theorem State.setCluster_braidTag (s : State) (k : Nat) (x : Cluster) : (s.setCluster k x).braidTag = s.braidTag := rfl
@[simp] theorem State.setCluster_braidWindows (s : State) (k : Nat) (x : Cluster) : (s.setCluster k x).braidWindows = s.braidWindows := rfl
@[simp] theorem State.setCluster_fmap (s : State) (k : Nat) (x : Cluster) : (s.setCluster k x).fmap = s.fmap := rfl
@[simp] theorem State.setCluster_contexts (s : State) (k : Nat) (x : Cluster) : (s.setCluster k x).contexts = s.contexts := rfl
@[simp] theorem State.setCluster_keys (s : State) (k : Nat) (x : Cluster) : (s.setCluster k x).keys = s.keys := rfl
@[simp] theorem State.setCluster_queues (s : State) (k : Nat) (x : Cluster) : (s.setCluster k x).queues = s.queues := rfl
@[simp] theorem State.setCluster_launches (s : State) (k : Nat) (x : Cluster) : (s.setCluster k x).launches = s.launches := rfl
@[simp] theorem State.setCluster_groups (s : State) (k : Nat) (x : Cluster) : (s.setCluster k x).groups = s.groups := rfl
@[simp] theorem State.setCluster_waitingRecs (s : State) (k : Nat) (x : Cluster) : (s.setCluster k x).waitingRecs = s.waitingRecs := rfl
@[simp] theorem State.setCluster_mgmt (s : State) (k : Nat) (x : Cluster) : (s.setCluster k x).mgmt = s.mgmt := rfl
@[simp] theorem State.setCluster_migrations (s : State) (k : Nat) (x : Cluster) : (s.setCluster k x).migrations = s.migrations := rfl
@[simp] theorem State.setCluster_braidWrites (s : State) (k : Nat) (x : Cluster) : (s.setCluster k x).braidWrites = s.braidWrites := rfl
@[simp] theorem State.setCluster_braidAnswers (s : State) (k : Nat) (x : Cluster) : (s.setCluster k x).braidAnswers = s.braidAnswers := rfl
@[simp] theorem State.setCluster_flyWrites (s : State) (k : Nat) (x : Cluster) : (s.setCluster k x).flyWrites = s.flyWrites := rfl
@[simp] theorem State.setCluster_flyHold (s : State) (k : Nat) (x : Cluster) : (s.setCluster k x).flyHold = s.flyHold := rfl
@[simp] theorem State.setCluster_loaded (s : State) (k : Nat) (x : Cluster) : (s.setCluster k x).loaded = s.loaded := rfl
@[simp] theorem State.setCluster_boot (s : State) (k : Nat) (x : Cluster) : (s.setCluster k x).boot = s.boot := rfl
@[simp] theorem State.setCluster_flash (s : State) (k : Nat) (x : Cluster) : (s.setCluster k x).flash = s.flash := rfl
@[simp] theorem State.setCluster_fuses (s : State) (k : Nat) (x : Cluster) : (s.setCluster k x).fuses = s.fuses := rfl
@[simp] theorem State.setCluster_hostImage (s : State) (k : Nat) (x : Cluster) : (s.setCluster k x).hostImage = s.hostImage := rfl
@[simp] theorem State.setCluster_hostIn (s : State) (k : Nat) (x : Cluster) : (s.setCluster k x).hostIn = s.hostIn := rfl
@[simp] theorem State.setCluster_hostMsgs (s : State) (k : Nat) (x : Cluster) : (s.setCluster k x).hostMsgs = s.hostMsgs := rfl
@[simp] theorem State.setCluster_hostPosts (s : State) (k : Nat) (x : Cluster) : (s.setCluster k x).hostPosts = s.hostPosts := rfl

@[simp] theorem State.setDie_cur (s : State) (k : Nat) (x : Die) : (s.setDie k x).cur = s.cur := rfl
@[simp] theorem State.setDie_turns (s : State) (k : Nat) (x : Die) : (s.setDie k x).turns = s.turns := rfl
@[simp] theorem State.setDie_rot (s : State) (k : Nat) (x : Die) : (s.setDie k x).rot = s.rot := rfl
@[simp] theorem State.setDie_steps (s : State) (k : Nat) (x : Die) : (s.setDie k x).steps = s.steps := rfl
@[simp] theorem State.setDie_freeDraws (s : State) (k : Nat) (x : Die) : (s.setDie k x).freeDraws = s.freeDraws := rfl
@[simp] theorem State.setDie_profDraws (s : State) (k : Nat) (x : Die) : (s.setDie k x).profDraws = s.profDraws := rfl
@[simp] theorem State.setDie_replicaPick (s : State) (k : Nat) (x : Die) : (s.setDie k x).replicaPick = s.replicaPick := rfl
@[simp] theorem State.setDie_strands (s : State) (k : Nat) (x : Die) : (s.setDie k x).strands = s.strands := rfl
@[simp] theorem State.setDie_cores (s : State) (k : Nat) (x : Die) : (s.setDie k x).cores = s.cores := rfl
@[simp] theorem State.setDie_clusters (s : State) (k : Nat) (x : Die) : (s.setDie k x).clusters = s.clusters := rfl
@[simp] theorem State.setDie_ports (s : State) (k : Nat) (x : Die) : (s.setDie k x).ports = s.ports := rfl
@[simp] theorem State.setDie_mem (s : State) (k : Nat) (x : Die) : (s.setDie k x).mem = s.mem := rfl
@[simp] theorem State.setDie_poison (s : State) (k : Nat) (x : Die) : (s.setDie k x).poison = s.poison := rfl
@[simp] theorem State.setDie_counted (s : State) (k : Nat) (x : Die) : (s.setDie k x).counted = s.counted := rfl
@[simp] theorem State.setDie_l1 (s : State) (k : Nat) (x : Die) : (s.setDie k x).l1 = s.l1 := rfl
@[simp] theorem State.setDie_msc (s : State) (k : Nat) (x : Die) : (s.setDie k x).msc = s.msc := rfl
@[simp] theorem State.setDie_aliases (s : State) (k : Nat) (x : Die) : (s.setDie k x).aliases = s.aliases := rfl
@[simp] theorem State.setDie_aliasMem (s : State) (k : Nat) (x : Die) : (s.setDie k x).aliasMem = s.aliasMem := rfl
@[simp] theorem State.setDie_aliasSeen (s : State) (k : Nat) (x : Die) : (s.setDie k x).aliasSeen = s.aliasSeen := rfl
@[simp] theorem State.setDie_braidTag (s : State) (k : Nat) (x : Die) : (s.setDie k x).braidTag = s.braidTag := rfl
@[simp] theorem State.setDie_braidWindows (s : State) (k : Nat) (x : Die) : (s.setDie k x).braidWindows = s.braidWindows := rfl
@[simp] theorem State.setDie_fmap (s : State) (k : Nat) (x : Die) : (s.setDie k x).fmap = s.fmap := rfl
@[simp] theorem State.setDie_contexts (s : State) (k : Nat) (x : Die) : (s.setDie k x).contexts = s.contexts := rfl
@[simp] theorem State.setDie_keys (s : State) (k : Nat) (x : Die) : (s.setDie k x).keys = s.keys := rfl
@[simp] theorem State.setDie_queues (s : State) (k : Nat) (x : Die) : (s.setDie k x).queues = s.queues := rfl
@[simp] theorem State.setDie_launches (s : State) (k : Nat) (x : Die) : (s.setDie k x).launches = s.launches := rfl
@[simp] theorem State.setDie_groups (s : State) (k : Nat) (x : Die) : (s.setDie k x).groups = s.groups := rfl
@[simp] theorem State.setDie_waitingRecs (s : State) (k : Nat) (x : Die) : (s.setDie k x).waitingRecs = s.waitingRecs := rfl
@[simp] theorem State.setDie_mgmt (s : State) (k : Nat) (x : Die) : (s.setDie k x).mgmt = s.mgmt := rfl
@[simp] theorem State.setDie_migrations (s : State) (k : Nat) (x : Die) : (s.setDie k x).migrations = s.migrations := rfl
@[simp] theorem State.setDie_braidWrites (s : State) (k : Nat) (x : Die) : (s.setDie k x).braidWrites = s.braidWrites := rfl
@[simp] theorem State.setDie_braidAnswers (s : State) (k : Nat) (x : Die) : (s.setDie k x).braidAnswers = s.braidAnswers := rfl
@[simp] theorem State.setDie_flyWrites (s : State) (k : Nat) (x : Die) : (s.setDie k x).flyWrites = s.flyWrites := rfl
@[simp] theorem State.setDie_flyHold (s : State) (k : Nat) (x : Die) : (s.setDie k x).flyHold = s.flyHold := rfl
@[simp] theorem State.setDie_loaded (s : State) (k : Nat) (x : Die) : (s.setDie k x).loaded = s.loaded := rfl
@[simp] theorem State.setDie_boot (s : State) (k : Nat) (x : Die) : (s.setDie k x).boot = s.boot := rfl
@[simp] theorem State.setDie_flash (s : State) (k : Nat) (x : Die) : (s.setDie k x).flash = s.flash := rfl
@[simp] theorem State.setDie_fuses (s : State) (k : Nat) (x : Die) : (s.setDie k x).fuses = s.fuses := rfl
@[simp] theorem State.setDie_hostImage (s : State) (k : Nat) (x : Die) : (s.setDie k x).hostImage = s.hostImage := rfl
@[simp] theorem State.setDie_hostIn (s : State) (k : Nat) (x : Die) : (s.setDie k x).hostIn = s.hostIn := rfl
@[simp] theorem State.setDie_hostMsgs (s : State) (k : Nat) (x : Die) : (s.setDie k x).hostMsgs = s.hostMsgs := rfl
@[simp] theorem State.setDie_hostPosts (s : State) (k : Nat) (x : Die) : (s.setDie k x).hostPosts = s.hostPosts := rfl

@[simp] theorem State.setPort_cur (s : State) (k : Nat) (x : Port) : (s.setPort k x).cur = s.cur := rfl
@[simp] theorem State.setPort_turns (s : State) (k : Nat) (x : Port) : (s.setPort k x).turns = s.turns := rfl
@[simp] theorem State.setPort_rot (s : State) (k : Nat) (x : Port) : (s.setPort k x).rot = s.rot := rfl
@[simp] theorem State.setPort_steps (s : State) (k : Nat) (x : Port) : (s.setPort k x).steps = s.steps := rfl
@[simp] theorem State.setPort_freeDraws (s : State) (k : Nat) (x : Port) : (s.setPort k x).freeDraws = s.freeDraws := rfl
@[simp] theorem State.setPort_profDraws (s : State) (k : Nat) (x : Port) : (s.setPort k x).profDraws = s.profDraws := rfl
@[simp] theorem State.setPort_replicaPick (s : State) (k : Nat) (x : Port) : (s.setPort k x).replicaPick = s.replicaPick := rfl
@[simp] theorem State.setPort_strands (s : State) (k : Nat) (x : Port) : (s.setPort k x).strands = s.strands := rfl
@[simp] theorem State.setPort_cores (s : State) (k : Nat) (x : Port) : (s.setPort k x).cores = s.cores := rfl
@[simp] theorem State.setPort_clusters (s : State) (k : Nat) (x : Port) : (s.setPort k x).clusters = s.clusters := rfl
@[simp] theorem State.setPort_dies (s : State) (k : Nat) (x : Port) : (s.setPort k x).dies = s.dies := rfl
@[simp] theorem State.setPort_mem (s : State) (k : Nat) (x : Port) : (s.setPort k x).mem = s.mem := rfl
@[simp] theorem State.setPort_poison (s : State) (k : Nat) (x : Port) : (s.setPort k x).poison = s.poison := rfl
@[simp] theorem State.setPort_counted (s : State) (k : Nat) (x : Port) : (s.setPort k x).counted = s.counted := rfl
@[simp] theorem State.setPort_l1 (s : State) (k : Nat) (x : Port) : (s.setPort k x).l1 = s.l1 := rfl
@[simp] theorem State.setPort_msc (s : State) (k : Nat) (x : Port) : (s.setPort k x).msc = s.msc := rfl
@[simp] theorem State.setPort_aliases (s : State) (k : Nat) (x : Port) : (s.setPort k x).aliases = s.aliases := rfl
@[simp] theorem State.setPort_aliasMem (s : State) (k : Nat) (x : Port) : (s.setPort k x).aliasMem = s.aliasMem := rfl
@[simp] theorem State.setPort_aliasSeen (s : State) (k : Nat) (x : Port) : (s.setPort k x).aliasSeen = s.aliasSeen := rfl
@[simp] theorem State.setPort_braidTag (s : State) (k : Nat) (x : Port) : (s.setPort k x).braidTag = s.braidTag := rfl
@[simp] theorem State.setPort_braidWindows (s : State) (k : Nat) (x : Port) : (s.setPort k x).braidWindows = s.braidWindows := rfl
@[simp] theorem State.setPort_fmap (s : State) (k : Nat) (x : Port) : (s.setPort k x).fmap = s.fmap := rfl
@[simp] theorem State.setPort_contexts (s : State) (k : Nat) (x : Port) : (s.setPort k x).contexts = s.contexts := rfl
@[simp] theorem State.setPort_keys (s : State) (k : Nat) (x : Port) : (s.setPort k x).keys = s.keys := rfl
@[simp] theorem State.setPort_queues (s : State) (k : Nat) (x : Port) : (s.setPort k x).queues = s.queues := rfl
@[simp] theorem State.setPort_launches (s : State) (k : Nat) (x : Port) : (s.setPort k x).launches = s.launches := rfl
@[simp] theorem State.setPort_groups (s : State) (k : Nat) (x : Port) : (s.setPort k x).groups = s.groups := rfl
@[simp] theorem State.setPort_waitingRecs (s : State) (k : Nat) (x : Port) : (s.setPort k x).waitingRecs = s.waitingRecs := rfl
@[simp] theorem State.setPort_mgmt (s : State) (k : Nat) (x : Port) : (s.setPort k x).mgmt = s.mgmt := rfl
@[simp] theorem State.setPort_migrations (s : State) (k : Nat) (x : Port) : (s.setPort k x).migrations = s.migrations := rfl
@[simp] theorem State.setPort_braidWrites (s : State) (k : Nat) (x : Port) : (s.setPort k x).braidWrites = s.braidWrites := rfl
@[simp] theorem State.setPort_braidAnswers (s : State) (k : Nat) (x : Port) : (s.setPort k x).braidAnswers = s.braidAnswers := rfl
@[simp] theorem State.setPort_flyWrites (s : State) (k : Nat) (x : Port) : (s.setPort k x).flyWrites = s.flyWrites := rfl
@[simp] theorem State.setPort_flyHold (s : State) (k : Nat) (x : Port) : (s.setPort k x).flyHold = s.flyHold := rfl
@[simp] theorem State.setPort_loaded (s : State) (k : Nat) (x : Port) : (s.setPort k x).loaded = s.loaded := rfl
@[simp] theorem State.setPort_boot (s : State) (k : Nat) (x : Port) : (s.setPort k x).boot = s.boot := rfl
@[simp] theorem State.setPort_flash (s : State) (k : Nat) (x : Port) : (s.setPort k x).flash = s.flash := rfl
@[simp] theorem State.setPort_fuses (s : State) (k : Nat) (x : Port) : (s.setPort k x).fuses = s.fuses := rfl
@[simp] theorem State.setPort_hostImage (s : State) (k : Nat) (x : Port) : (s.setPort k x).hostImage = s.hostImage := rfl
@[simp] theorem State.setPort_hostIn (s : State) (k : Nat) (x : Port) : (s.setPort k x).hostIn = s.hostIn := rfl
@[simp] theorem State.setPort_hostMsgs (s : State) (k : Nat) (x : Port) : (s.setPort k x).hostMsgs = s.hostMsgs := rfl
@[simp] theorem State.setPort_hostPosts (s : State) (k : Nat) (x : Port) : (s.setPort k x).hostPosts = s.hostPosts := rfl

@[simp] theorem State.setContext_cur (s : State) (k : Nat) (x : ContextDesc) : (s.setContext k x).cur = s.cur := rfl
@[simp] theorem State.setContext_turns (s : State) (k : Nat) (x : ContextDesc) : (s.setContext k x).turns = s.turns := rfl
@[simp] theorem State.setContext_rot (s : State) (k : Nat) (x : ContextDesc) : (s.setContext k x).rot = s.rot := rfl
@[simp] theorem State.setContext_steps (s : State) (k : Nat) (x : ContextDesc) : (s.setContext k x).steps = s.steps := rfl
@[simp] theorem State.setContext_freeDraws (s : State) (k : Nat) (x : ContextDesc) : (s.setContext k x).freeDraws = s.freeDraws := rfl
@[simp] theorem State.setContext_profDraws (s : State) (k : Nat) (x : ContextDesc) : (s.setContext k x).profDraws = s.profDraws := rfl
@[simp] theorem State.setContext_replicaPick (s : State) (k : Nat) (x : ContextDesc) : (s.setContext k x).replicaPick = s.replicaPick := rfl
@[simp] theorem State.setContext_strands (s : State) (k : Nat) (x : ContextDesc) : (s.setContext k x).strands = s.strands := rfl
@[simp] theorem State.setContext_cores (s : State) (k : Nat) (x : ContextDesc) : (s.setContext k x).cores = s.cores := rfl
@[simp] theorem State.setContext_clusters (s : State) (k : Nat) (x : ContextDesc) : (s.setContext k x).clusters = s.clusters := rfl
@[simp] theorem State.setContext_dies (s : State) (k : Nat) (x : ContextDesc) : (s.setContext k x).dies = s.dies := rfl
@[simp] theorem State.setContext_ports (s : State) (k : Nat) (x : ContextDesc) : (s.setContext k x).ports = s.ports := rfl
@[simp] theorem State.setContext_mem (s : State) (k : Nat) (x : ContextDesc) : (s.setContext k x).mem = s.mem := rfl
@[simp] theorem State.setContext_poison (s : State) (k : Nat) (x : ContextDesc) : (s.setContext k x).poison = s.poison := rfl
@[simp] theorem State.setContext_counted (s : State) (k : Nat) (x : ContextDesc) : (s.setContext k x).counted = s.counted := rfl
@[simp] theorem State.setContext_l1 (s : State) (k : Nat) (x : ContextDesc) : (s.setContext k x).l1 = s.l1 := rfl
@[simp] theorem State.setContext_msc (s : State) (k : Nat) (x : ContextDesc) : (s.setContext k x).msc = s.msc := rfl
@[simp] theorem State.setContext_aliases (s : State) (k : Nat) (x : ContextDesc) : (s.setContext k x).aliases = s.aliases := rfl
@[simp] theorem State.setContext_aliasMem (s : State) (k : Nat) (x : ContextDesc) : (s.setContext k x).aliasMem = s.aliasMem := rfl
@[simp] theorem State.setContext_aliasSeen (s : State) (k : Nat) (x : ContextDesc) : (s.setContext k x).aliasSeen = s.aliasSeen := rfl
@[simp] theorem State.setContext_braidTag (s : State) (k : Nat) (x : ContextDesc) : (s.setContext k x).braidTag = s.braidTag := rfl
@[simp] theorem State.setContext_braidWindows (s : State) (k : Nat) (x : ContextDesc) : (s.setContext k x).braidWindows = s.braidWindows := rfl
@[simp] theorem State.setContext_fmap (s : State) (k : Nat) (x : ContextDesc) : (s.setContext k x).fmap = s.fmap := rfl
@[simp] theorem State.setContext_keys (s : State) (k : Nat) (x : ContextDesc) : (s.setContext k x).keys = s.keys := rfl
@[simp] theorem State.setContext_queues (s : State) (k : Nat) (x : ContextDesc) : (s.setContext k x).queues = s.queues := rfl
@[simp] theorem State.setContext_launches (s : State) (k : Nat) (x : ContextDesc) : (s.setContext k x).launches = s.launches := rfl
@[simp] theorem State.setContext_groups (s : State) (k : Nat) (x : ContextDesc) : (s.setContext k x).groups = s.groups := rfl
@[simp] theorem State.setContext_waitingRecs (s : State) (k : Nat) (x : ContextDesc) : (s.setContext k x).waitingRecs = s.waitingRecs := rfl
@[simp] theorem State.setContext_mgmt (s : State) (k : Nat) (x : ContextDesc) : (s.setContext k x).mgmt = s.mgmt := rfl
@[simp] theorem State.setContext_migrations (s : State) (k : Nat) (x : ContextDesc) : (s.setContext k x).migrations = s.migrations := rfl
@[simp] theorem State.setContext_braidWrites (s : State) (k : Nat) (x : ContextDesc) : (s.setContext k x).braidWrites = s.braidWrites := rfl
@[simp] theorem State.setContext_braidAnswers (s : State) (k : Nat) (x : ContextDesc) : (s.setContext k x).braidAnswers = s.braidAnswers := rfl
@[simp] theorem State.setContext_flyWrites (s : State) (k : Nat) (x : ContextDesc) : (s.setContext k x).flyWrites = s.flyWrites := rfl
@[simp] theorem State.setContext_flyHold (s : State) (k : Nat) (x : ContextDesc) : (s.setContext k x).flyHold = s.flyHold := rfl
@[simp] theorem State.setContext_loaded (s : State) (k : Nat) (x : ContextDesc) : (s.setContext k x).loaded = s.loaded := rfl
@[simp] theorem State.setContext_boot (s : State) (k : Nat) (x : ContextDesc) : (s.setContext k x).boot = s.boot := rfl
@[simp] theorem State.setContext_flash (s : State) (k : Nat) (x : ContextDesc) : (s.setContext k x).flash = s.flash := rfl
@[simp] theorem State.setContext_fuses (s : State) (k : Nat) (x : ContextDesc) : (s.setContext k x).fuses = s.fuses := rfl
@[simp] theorem State.setContext_hostImage (s : State) (k : Nat) (x : ContextDesc) : (s.setContext k x).hostImage = s.hostImage := rfl
@[simp] theorem State.setContext_hostIn (s : State) (k : Nat) (x : ContextDesc) : (s.setContext k x).hostIn = s.hostIn := rfl
@[simp] theorem State.setContext_hostMsgs (s : State) (k : Nat) (x : ContextDesc) : (s.setContext k x).hostMsgs = s.hostMsgs := rfl
@[simp] theorem State.setContext_hostPosts (s : State) (k : Nat) (x : ContextDesc) : (s.setContext k x).hostPosts = s.hostPosts := rfl

@[simp] theorem State.setQueue_cur (s : State) (k : Nat) (x : Queue) : (s.setQueue k x).cur = s.cur := rfl
@[simp] theorem State.setQueue_turns (s : State) (k : Nat) (x : Queue) : (s.setQueue k x).turns = s.turns := rfl
@[simp] theorem State.setQueue_rot (s : State) (k : Nat) (x : Queue) : (s.setQueue k x).rot = s.rot := rfl
@[simp] theorem State.setQueue_steps (s : State) (k : Nat) (x : Queue) : (s.setQueue k x).steps = s.steps := rfl
@[simp] theorem State.setQueue_freeDraws (s : State) (k : Nat) (x : Queue) : (s.setQueue k x).freeDraws = s.freeDraws := rfl
@[simp] theorem State.setQueue_profDraws (s : State) (k : Nat) (x : Queue) : (s.setQueue k x).profDraws = s.profDraws := rfl
@[simp] theorem State.setQueue_replicaPick (s : State) (k : Nat) (x : Queue) : (s.setQueue k x).replicaPick = s.replicaPick := rfl
@[simp] theorem State.setQueue_strands (s : State) (k : Nat) (x : Queue) : (s.setQueue k x).strands = s.strands := rfl
@[simp] theorem State.setQueue_cores (s : State) (k : Nat) (x : Queue) : (s.setQueue k x).cores = s.cores := rfl
@[simp] theorem State.setQueue_clusters (s : State) (k : Nat) (x : Queue) : (s.setQueue k x).clusters = s.clusters := rfl
@[simp] theorem State.setQueue_dies (s : State) (k : Nat) (x : Queue) : (s.setQueue k x).dies = s.dies := rfl
@[simp] theorem State.setQueue_ports (s : State) (k : Nat) (x : Queue) : (s.setQueue k x).ports = s.ports := rfl
@[simp] theorem State.setQueue_mem (s : State) (k : Nat) (x : Queue) : (s.setQueue k x).mem = s.mem := rfl
@[simp] theorem State.setQueue_poison (s : State) (k : Nat) (x : Queue) : (s.setQueue k x).poison = s.poison := rfl
@[simp] theorem State.setQueue_counted (s : State) (k : Nat) (x : Queue) : (s.setQueue k x).counted = s.counted := rfl
@[simp] theorem State.setQueue_l1 (s : State) (k : Nat) (x : Queue) : (s.setQueue k x).l1 = s.l1 := rfl
@[simp] theorem State.setQueue_msc (s : State) (k : Nat) (x : Queue) : (s.setQueue k x).msc = s.msc := rfl
@[simp] theorem State.setQueue_aliases (s : State) (k : Nat) (x : Queue) : (s.setQueue k x).aliases = s.aliases := rfl
@[simp] theorem State.setQueue_aliasMem (s : State) (k : Nat) (x : Queue) : (s.setQueue k x).aliasMem = s.aliasMem := rfl
@[simp] theorem State.setQueue_aliasSeen (s : State) (k : Nat) (x : Queue) : (s.setQueue k x).aliasSeen = s.aliasSeen := rfl
@[simp] theorem State.setQueue_braidTag (s : State) (k : Nat) (x : Queue) : (s.setQueue k x).braidTag = s.braidTag := rfl
@[simp] theorem State.setQueue_braidWindows (s : State) (k : Nat) (x : Queue) : (s.setQueue k x).braidWindows = s.braidWindows := rfl
@[simp] theorem State.setQueue_fmap (s : State) (k : Nat) (x : Queue) : (s.setQueue k x).fmap = s.fmap := rfl
@[simp] theorem State.setQueue_contexts (s : State) (k : Nat) (x : Queue) : (s.setQueue k x).contexts = s.contexts := rfl
@[simp] theorem State.setQueue_keys (s : State) (k : Nat) (x : Queue) : (s.setQueue k x).keys = s.keys := rfl
@[simp] theorem State.setQueue_launches (s : State) (k : Nat) (x : Queue) : (s.setQueue k x).launches = s.launches := rfl
@[simp] theorem State.setQueue_groups (s : State) (k : Nat) (x : Queue) : (s.setQueue k x).groups = s.groups := rfl
@[simp] theorem State.setQueue_waitingRecs (s : State) (k : Nat) (x : Queue) : (s.setQueue k x).waitingRecs = s.waitingRecs := rfl
@[simp] theorem State.setQueue_mgmt (s : State) (k : Nat) (x : Queue) : (s.setQueue k x).mgmt = s.mgmt := rfl
@[simp] theorem State.setQueue_migrations (s : State) (k : Nat) (x : Queue) : (s.setQueue k x).migrations = s.migrations := rfl
@[simp] theorem State.setQueue_braidWrites (s : State) (k : Nat) (x : Queue) : (s.setQueue k x).braidWrites = s.braidWrites := rfl
@[simp] theorem State.setQueue_braidAnswers (s : State) (k : Nat) (x : Queue) : (s.setQueue k x).braidAnswers = s.braidAnswers := rfl
@[simp] theorem State.setQueue_flyWrites (s : State) (k : Nat) (x : Queue) : (s.setQueue k x).flyWrites = s.flyWrites := rfl
@[simp] theorem State.setQueue_flyHold (s : State) (k : Nat) (x : Queue) : (s.setQueue k x).flyHold = s.flyHold := rfl
@[simp] theorem State.setQueue_loaded (s : State) (k : Nat) (x : Queue) : (s.setQueue k x).loaded = s.loaded := rfl
@[simp] theorem State.setQueue_boot (s : State) (k : Nat) (x : Queue) : (s.setQueue k x).boot = s.boot := rfl
@[simp] theorem State.setQueue_flash (s : State) (k : Nat) (x : Queue) : (s.setQueue k x).flash = s.flash := rfl
@[simp] theorem State.setQueue_fuses (s : State) (k : Nat) (x : Queue) : (s.setQueue k x).fuses = s.fuses := rfl
@[simp] theorem State.setQueue_hostImage (s : State) (k : Nat) (x : Queue) : (s.setQueue k x).hostImage = s.hostImage := rfl
@[simp] theorem State.setQueue_hostIn (s : State) (k : Nat) (x : Queue) : (s.setQueue k x).hostIn = s.hostIn := rfl
@[simp] theorem State.setQueue_hostMsgs (s : State) (k : Nat) (x : Queue) : (s.setQueue k x).hostMsgs = s.hostMsgs := rfl
@[simp] theorem State.setQueue_hostPosts (s : State) (k : Nat) (x : Queue) : (s.setQueue k x).hostPosts = s.hostPosts := rfl

@[simp] theorem State.setGroup_cur (s : State) (k : GroupKey) (x : Group) : (s.setGroup k x).cur = s.cur := rfl
@[simp] theorem State.setGroup_turns (s : State) (k : GroupKey) (x : Group) : (s.setGroup k x).turns = s.turns := rfl
@[simp] theorem State.setGroup_rot (s : State) (k : GroupKey) (x : Group) : (s.setGroup k x).rot = s.rot := rfl
@[simp] theorem State.setGroup_steps (s : State) (k : GroupKey) (x : Group) : (s.setGroup k x).steps = s.steps := rfl
@[simp] theorem State.setGroup_freeDraws (s : State) (k : GroupKey) (x : Group) : (s.setGroup k x).freeDraws = s.freeDraws := rfl
@[simp] theorem State.setGroup_profDraws (s : State) (k : GroupKey) (x : Group) : (s.setGroup k x).profDraws = s.profDraws := rfl
@[simp] theorem State.setGroup_replicaPick (s : State) (k : GroupKey) (x : Group) : (s.setGroup k x).replicaPick = s.replicaPick := rfl
@[simp] theorem State.setGroup_strands (s : State) (k : GroupKey) (x : Group) : (s.setGroup k x).strands = s.strands := rfl
@[simp] theorem State.setGroup_cores (s : State) (k : GroupKey) (x : Group) : (s.setGroup k x).cores = s.cores := rfl
@[simp] theorem State.setGroup_clusters (s : State) (k : GroupKey) (x : Group) : (s.setGroup k x).clusters = s.clusters := rfl
@[simp] theorem State.setGroup_dies (s : State) (k : GroupKey) (x : Group) : (s.setGroup k x).dies = s.dies := rfl
@[simp] theorem State.setGroup_ports (s : State) (k : GroupKey) (x : Group) : (s.setGroup k x).ports = s.ports := rfl
@[simp] theorem State.setGroup_mem (s : State) (k : GroupKey) (x : Group) : (s.setGroup k x).mem = s.mem := rfl
@[simp] theorem State.setGroup_poison (s : State) (k : GroupKey) (x : Group) : (s.setGroup k x).poison = s.poison := rfl
@[simp] theorem State.setGroup_counted (s : State) (k : GroupKey) (x : Group) : (s.setGroup k x).counted = s.counted := rfl
@[simp] theorem State.setGroup_l1 (s : State) (k : GroupKey) (x : Group) : (s.setGroup k x).l1 = s.l1 := rfl
@[simp] theorem State.setGroup_msc (s : State) (k : GroupKey) (x : Group) : (s.setGroup k x).msc = s.msc := rfl
@[simp] theorem State.setGroup_aliases (s : State) (k : GroupKey) (x : Group) : (s.setGroup k x).aliases = s.aliases := rfl
@[simp] theorem State.setGroup_aliasMem (s : State) (k : GroupKey) (x : Group) : (s.setGroup k x).aliasMem = s.aliasMem := rfl
@[simp] theorem State.setGroup_aliasSeen (s : State) (k : GroupKey) (x : Group) : (s.setGroup k x).aliasSeen = s.aliasSeen := rfl
@[simp] theorem State.setGroup_braidTag (s : State) (k : GroupKey) (x : Group) : (s.setGroup k x).braidTag = s.braidTag := rfl
@[simp] theorem State.setGroup_braidWindows (s : State) (k : GroupKey) (x : Group) : (s.setGroup k x).braidWindows = s.braidWindows := rfl
@[simp] theorem State.setGroup_fmap (s : State) (k : GroupKey) (x : Group) : (s.setGroup k x).fmap = s.fmap := rfl
@[simp] theorem State.setGroup_contexts (s : State) (k : GroupKey) (x : Group) : (s.setGroup k x).contexts = s.contexts := rfl
@[simp] theorem State.setGroup_keys (s : State) (k : GroupKey) (x : Group) : (s.setGroup k x).keys = s.keys := rfl
@[simp] theorem State.setGroup_queues (s : State) (k : GroupKey) (x : Group) : (s.setGroup k x).queues = s.queues := rfl
@[simp] theorem State.setGroup_launches (s : State) (k : GroupKey) (x : Group) : (s.setGroup k x).launches = s.launches := rfl
@[simp] theorem State.setGroup_waitingRecs (s : State) (k : GroupKey) (x : Group) : (s.setGroup k x).waitingRecs = s.waitingRecs := rfl
@[simp] theorem State.setGroup_mgmt (s : State) (k : GroupKey) (x : Group) : (s.setGroup k x).mgmt = s.mgmt := rfl
@[simp] theorem State.setGroup_migrations (s : State) (k : GroupKey) (x : Group) : (s.setGroup k x).migrations = s.migrations := rfl
@[simp] theorem State.setGroup_braidWrites (s : State) (k : GroupKey) (x : Group) : (s.setGroup k x).braidWrites = s.braidWrites := rfl
@[simp] theorem State.setGroup_braidAnswers (s : State) (k : GroupKey) (x : Group) : (s.setGroup k x).braidAnswers = s.braidAnswers := rfl
@[simp] theorem State.setGroup_flyWrites (s : State) (k : GroupKey) (x : Group) : (s.setGroup k x).flyWrites = s.flyWrites := rfl
@[simp] theorem State.setGroup_flyHold (s : State) (k : GroupKey) (x : Group) : (s.setGroup k x).flyHold = s.flyHold := rfl
@[simp] theorem State.setGroup_loaded (s : State) (k : GroupKey) (x : Group) : (s.setGroup k x).loaded = s.loaded := rfl
@[simp] theorem State.setGroup_boot (s : State) (k : GroupKey) (x : Group) : (s.setGroup k x).boot = s.boot := rfl
@[simp] theorem State.setGroup_flash (s : State) (k : GroupKey) (x : Group) : (s.setGroup k x).flash = s.flash := rfl
@[simp] theorem State.setGroup_fuses (s : State) (k : GroupKey) (x : Group) : (s.setGroup k x).fuses = s.fuses := rfl
@[simp] theorem State.setGroup_hostImage (s : State) (k : GroupKey) (x : Group) : (s.setGroup k x).hostImage = s.hostImage := rfl
@[simp] theorem State.setGroup_hostIn (s : State) (k : GroupKey) (x : Group) : (s.setGroup k x).hostIn = s.hostIn := rfl
@[simp] theorem State.setGroup_hostMsgs (s : State) (k : GroupKey) (x : Group) : (s.setGroup k x).hostMsgs = s.hostMsgs := rfl
@[simp] theorem State.setGroup_hostPosts (s : State) (k : GroupKey) (x : Group) : (s.setGroup k x).hostPosts = s.hostPosts := rfl

@[simp] theorem State.setLaunch_cur (s : State) (k : LaunchKey) (x : Launch) : (s.setLaunch k x).cur = s.cur := rfl
@[simp] theorem State.setLaunch_turns (s : State) (k : LaunchKey) (x : Launch) : (s.setLaunch k x).turns = s.turns := rfl
@[simp] theorem State.setLaunch_rot (s : State) (k : LaunchKey) (x : Launch) : (s.setLaunch k x).rot = s.rot := rfl
@[simp] theorem State.setLaunch_steps (s : State) (k : LaunchKey) (x : Launch) : (s.setLaunch k x).steps = s.steps := rfl
@[simp] theorem State.setLaunch_freeDraws (s : State) (k : LaunchKey) (x : Launch) : (s.setLaunch k x).freeDraws = s.freeDraws := rfl
@[simp] theorem State.setLaunch_profDraws (s : State) (k : LaunchKey) (x : Launch) : (s.setLaunch k x).profDraws = s.profDraws := rfl
@[simp] theorem State.setLaunch_replicaPick (s : State) (k : LaunchKey) (x : Launch) : (s.setLaunch k x).replicaPick = s.replicaPick := rfl
@[simp] theorem State.setLaunch_strands (s : State) (k : LaunchKey) (x : Launch) : (s.setLaunch k x).strands = s.strands := rfl
@[simp] theorem State.setLaunch_cores (s : State) (k : LaunchKey) (x : Launch) : (s.setLaunch k x).cores = s.cores := rfl
@[simp] theorem State.setLaunch_clusters (s : State) (k : LaunchKey) (x : Launch) : (s.setLaunch k x).clusters = s.clusters := rfl
@[simp] theorem State.setLaunch_dies (s : State) (k : LaunchKey) (x : Launch) : (s.setLaunch k x).dies = s.dies := rfl
@[simp] theorem State.setLaunch_ports (s : State) (k : LaunchKey) (x : Launch) : (s.setLaunch k x).ports = s.ports := rfl
@[simp] theorem State.setLaunch_mem (s : State) (k : LaunchKey) (x : Launch) : (s.setLaunch k x).mem = s.mem := rfl
@[simp] theorem State.setLaunch_poison (s : State) (k : LaunchKey) (x : Launch) : (s.setLaunch k x).poison = s.poison := rfl
@[simp] theorem State.setLaunch_counted (s : State) (k : LaunchKey) (x : Launch) : (s.setLaunch k x).counted = s.counted := rfl
@[simp] theorem State.setLaunch_l1 (s : State) (k : LaunchKey) (x : Launch) : (s.setLaunch k x).l1 = s.l1 := rfl
@[simp] theorem State.setLaunch_msc (s : State) (k : LaunchKey) (x : Launch) : (s.setLaunch k x).msc = s.msc := rfl
@[simp] theorem State.setLaunch_aliases (s : State) (k : LaunchKey) (x : Launch) : (s.setLaunch k x).aliases = s.aliases := rfl
@[simp] theorem State.setLaunch_aliasMem (s : State) (k : LaunchKey) (x : Launch) : (s.setLaunch k x).aliasMem = s.aliasMem := rfl
@[simp] theorem State.setLaunch_aliasSeen (s : State) (k : LaunchKey) (x : Launch) : (s.setLaunch k x).aliasSeen = s.aliasSeen := rfl
@[simp] theorem State.setLaunch_braidTag (s : State) (k : LaunchKey) (x : Launch) : (s.setLaunch k x).braidTag = s.braidTag := rfl
@[simp] theorem State.setLaunch_braidWindows (s : State) (k : LaunchKey) (x : Launch) : (s.setLaunch k x).braidWindows = s.braidWindows := rfl
@[simp] theorem State.setLaunch_fmap (s : State) (k : LaunchKey) (x : Launch) : (s.setLaunch k x).fmap = s.fmap := rfl
@[simp] theorem State.setLaunch_contexts (s : State) (k : LaunchKey) (x : Launch) : (s.setLaunch k x).contexts = s.contexts := rfl
@[simp] theorem State.setLaunch_keys (s : State) (k : LaunchKey) (x : Launch) : (s.setLaunch k x).keys = s.keys := rfl
@[simp] theorem State.setLaunch_queues (s : State) (k : LaunchKey) (x : Launch) : (s.setLaunch k x).queues = s.queues := rfl
@[simp] theorem State.setLaunch_groups (s : State) (k : LaunchKey) (x : Launch) : (s.setLaunch k x).groups = s.groups := rfl
@[simp] theorem State.setLaunch_waitingRecs (s : State) (k : LaunchKey) (x : Launch) : (s.setLaunch k x).waitingRecs = s.waitingRecs := rfl
@[simp] theorem State.setLaunch_mgmt (s : State) (k : LaunchKey) (x : Launch) : (s.setLaunch k x).mgmt = s.mgmt := rfl
@[simp] theorem State.setLaunch_migrations (s : State) (k : LaunchKey) (x : Launch) : (s.setLaunch k x).migrations = s.migrations := rfl
@[simp] theorem State.setLaunch_braidWrites (s : State) (k : LaunchKey) (x : Launch) : (s.setLaunch k x).braidWrites = s.braidWrites := rfl
@[simp] theorem State.setLaunch_braidAnswers (s : State) (k : LaunchKey) (x : Launch) : (s.setLaunch k x).braidAnswers = s.braidAnswers := rfl
@[simp] theorem State.setLaunch_flyWrites (s : State) (k : LaunchKey) (x : Launch) : (s.setLaunch k x).flyWrites = s.flyWrites := rfl
@[simp] theorem State.setLaunch_flyHold (s : State) (k : LaunchKey) (x : Launch) : (s.setLaunch k x).flyHold = s.flyHold := rfl
@[simp] theorem State.setLaunch_loaded (s : State) (k : LaunchKey) (x : Launch) : (s.setLaunch k x).loaded = s.loaded := rfl
@[simp] theorem State.setLaunch_boot (s : State) (k : LaunchKey) (x : Launch) : (s.setLaunch k x).boot = s.boot := rfl
@[simp] theorem State.setLaunch_flash (s : State) (k : LaunchKey) (x : Launch) : (s.setLaunch k x).flash = s.flash := rfl
@[simp] theorem State.setLaunch_fuses (s : State) (k : LaunchKey) (x : Launch) : (s.setLaunch k x).fuses = s.fuses := rfl
@[simp] theorem State.setLaunch_hostImage (s : State) (k : LaunchKey) (x : Launch) : (s.setLaunch k x).hostImage = s.hostImage := rfl
@[simp] theorem State.setLaunch_hostIn (s : State) (k : LaunchKey) (x : Launch) : (s.setLaunch k x).hostIn = s.hostIn := rfl
@[simp] theorem State.setLaunch_hostMsgs (s : State) (k : LaunchKey) (x : Launch) : (s.setLaunch k x).hostMsgs = s.hostMsgs := rfl
@[simp] theorem State.setLaunch_hostPosts (s : State) (k : LaunchKey) (x : Launch) : (s.setLaunch k x).hostPosts = s.hostPosts := rfl

@[simp] theorem State.upd_cur (s : State) (f : Strand → Strand) : (s.upd f).cur = s.cur := rfl
@[simp] theorem State.upd_turns (s : State) (f : Strand → Strand) : (s.upd f).turns = s.turns := rfl
@[simp] theorem State.upd_rot (s : State) (f : Strand → Strand) : (s.upd f).rot = s.rot := rfl
@[simp] theorem State.upd_steps (s : State) (f : Strand → Strand) : (s.upd f).steps = s.steps := rfl
@[simp] theorem State.upd_freeDraws (s : State) (f : Strand → Strand) : (s.upd f).freeDraws = s.freeDraws := rfl
@[simp] theorem State.upd_profDraws (s : State) (f : Strand → Strand) : (s.upd f).profDraws = s.profDraws := rfl
@[simp] theorem State.upd_replicaPick (s : State) (f : Strand → Strand) : (s.upd f).replicaPick = s.replicaPick := rfl
@[simp] theorem State.upd_cores (s : State) (f : Strand → Strand) : (s.upd f).cores = s.cores := rfl
@[simp] theorem State.upd_clusters (s : State) (f : Strand → Strand) : (s.upd f).clusters = s.clusters := rfl
@[simp] theorem State.upd_dies (s : State) (f : Strand → Strand) : (s.upd f).dies = s.dies := rfl
@[simp] theorem State.upd_ports (s : State) (f : Strand → Strand) : (s.upd f).ports = s.ports := rfl
@[simp] theorem State.upd_mem (s : State) (f : Strand → Strand) : (s.upd f).mem = s.mem := rfl
@[simp] theorem State.upd_poison (s : State) (f : Strand → Strand) : (s.upd f).poison = s.poison := rfl
@[simp] theorem State.upd_counted (s : State) (f : Strand → Strand) : (s.upd f).counted = s.counted := rfl
@[simp] theorem State.upd_l1 (s : State) (f : Strand → Strand) : (s.upd f).l1 = s.l1 := rfl
@[simp] theorem State.upd_msc (s : State) (f : Strand → Strand) : (s.upd f).msc = s.msc := rfl
@[simp] theorem State.upd_aliases (s : State) (f : Strand → Strand) : (s.upd f).aliases = s.aliases := rfl
@[simp] theorem State.upd_aliasMem (s : State) (f : Strand → Strand) : (s.upd f).aliasMem = s.aliasMem := rfl
@[simp] theorem State.upd_aliasSeen (s : State) (f : Strand → Strand) : (s.upd f).aliasSeen = s.aliasSeen := rfl
@[simp] theorem State.upd_braidTag (s : State) (f : Strand → Strand) : (s.upd f).braidTag = s.braidTag := rfl
@[simp] theorem State.upd_braidWindows (s : State) (f : Strand → Strand) : (s.upd f).braidWindows = s.braidWindows := rfl
@[simp] theorem State.upd_fmap (s : State) (f : Strand → Strand) : (s.upd f).fmap = s.fmap := rfl
@[simp] theorem State.upd_contexts (s : State) (f : Strand → Strand) : (s.upd f).contexts = s.contexts := rfl
@[simp] theorem State.upd_keys (s : State) (f : Strand → Strand) : (s.upd f).keys = s.keys := rfl
@[simp] theorem State.upd_queues (s : State) (f : Strand → Strand) : (s.upd f).queues = s.queues := rfl
@[simp] theorem State.upd_launches (s : State) (f : Strand → Strand) : (s.upd f).launches = s.launches := rfl
@[simp] theorem State.upd_groups (s : State) (f : Strand → Strand) : (s.upd f).groups = s.groups := rfl
@[simp] theorem State.upd_waitingRecs (s : State) (f : Strand → Strand) : (s.upd f).waitingRecs = s.waitingRecs := rfl
@[simp] theorem State.upd_mgmt (s : State) (f : Strand → Strand) : (s.upd f).mgmt = s.mgmt := rfl
@[simp] theorem State.upd_migrations (s : State) (f : Strand → Strand) : (s.upd f).migrations = s.migrations := rfl
@[simp] theorem State.upd_braidWrites (s : State) (f : Strand → Strand) : (s.upd f).braidWrites = s.braidWrites := rfl
@[simp] theorem State.upd_braidAnswers (s : State) (f : Strand → Strand) : (s.upd f).braidAnswers = s.braidAnswers := rfl
@[simp] theorem State.upd_flyWrites (s : State) (f : Strand → Strand) : (s.upd f).flyWrites = s.flyWrites := rfl
@[simp] theorem State.upd_flyHold (s : State) (f : Strand → Strand) : (s.upd f).flyHold = s.flyHold := rfl
@[simp] theorem State.upd_loaded (s : State) (f : Strand → Strand) : (s.upd f).loaded = s.loaded := rfl
@[simp] theorem State.upd_boot (s : State) (f : Strand → Strand) : (s.upd f).boot = s.boot := rfl
@[simp] theorem State.upd_flash (s : State) (f : Strand → Strand) : (s.upd f).flash = s.flash := rfl
@[simp] theorem State.upd_fuses (s : State) (f : Strand → Strand) : (s.upd f).fuses = s.fuses := rfl
@[simp] theorem State.upd_hostImage (s : State) (f : Strand → Strand) : (s.upd f).hostImage = s.hostImage := rfl
@[simp] theorem State.upd_hostIn (s : State) (f : Strand → Strand) : (s.upd f).hostIn = s.hostIn := rfl
@[simp] theorem State.upd_hostMsgs (s : State) (f : Strand → Strand) : (s.upd f).hostMsgs = s.hostMsgs := rfl
@[simp] theorem State.upd_hostPosts (s : State) (f : Strand → Strand) : (s.upd f).hostPosts = s.hostPosts := rfl

@[simp] theorem State.updAt_cur (s : State) (k : Nat) (f : Strand → Strand) : (s.updAt k f).cur = s.cur := rfl
@[simp] theorem State.updAt_turns (s : State) (k : Nat) (f : Strand → Strand) : (s.updAt k f).turns = s.turns := rfl
@[simp] theorem State.updAt_rot (s : State) (k : Nat) (f : Strand → Strand) : (s.updAt k f).rot = s.rot := rfl
@[simp] theorem State.updAt_steps (s : State) (k : Nat) (f : Strand → Strand) : (s.updAt k f).steps = s.steps := rfl
@[simp] theorem State.updAt_freeDraws (s : State) (k : Nat) (f : Strand → Strand) : (s.updAt k f).freeDraws = s.freeDraws := rfl
@[simp] theorem State.updAt_profDraws (s : State) (k : Nat) (f : Strand → Strand) : (s.updAt k f).profDraws = s.profDraws := rfl
@[simp] theorem State.updAt_replicaPick (s : State) (k : Nat) (f : Strand → Strand) : (s.updAt k f).replicaPick = s.replicaPick := rfl
@[simp] theorem State.updAt_cores (s : State) (k : Nat) (f : Strand → Strand) : (s.updAt k f).cores = s.cores := rfl
@[simp] theorem State.updAt_clusters (s : State) (k : Nat) (f : Strand → Strand) : (s.updAt k f).clusters = s.clusters := rfl
@[simp] theorem State.updAt_dies (s : State) (k : Nat) (f : Strand → Strand) : (s.updAt k f).dies = s.dies := rfl
@[simp] theorem State.updAt_ports (s : State) (k : Nat) (f : Strand → Strand) : (s.updAt k f).ports = s.ports := rfl
@[simp] theorem State.updAt_mem (s : State) (k : Nat) (f : Strand → Strand) : (s.updAt k f).mem = s.mem := rfl
@[simp] theorem State.updAt_poison (s : State) (k : Nat) (f : Strand → Strand) : (s.updAt k f).poison = s.poison := rfl
@[simp] theorem State.updAt_counted (s : State) (k : Nat) (f : Strand → Strand) : (s.updAt k f).counted = s.counted := rfl
@[simp] theorem State.updAt_l1 (s : State) (k : Nat) (f : Strand → Strand) : (s.updAt k f).l1 = s.l1 := rfl
@[simp] theorem State.updAt_msc (s : State) (k : Nat) (f : Strand → Strand) : (s.updAt k f).msc = s.msc := rfl
@[simp] theorem State.updAt_aliases (s : State) (k : Nat) (f : Strand → Strand) : (s.updAt k f).aliases = s.aliases := rfl
@[simp] theorem State.updAt_aliasMem (s : State) (k : Nat) (f : Strand → Strand) : (s.updAt k f).aliasMem = s.aliasMem := rfl
@[simp] theorem State.updAt_aliasSeen (s : State) (k : Nat) (f : Strand → Strand) : (s.updAt k f).aliasSeen = s.aliasSeen := rfl
@[simp] theorem State.updAt_braidTag (s : State) (k : Nat) (f : Strand → Strand) : (s.updAt k f).braidTag = s.braidTag := rfl
@[simp] theorem State.updAt_braidWindows (s : State) (k : Nat) (f : Strand → Strand) : (s.updAt k f).braidWindows = s.braidWindows := rfl
@[simp] theorem State.updAt_fmap (s : State) (k : Nat) (f : Strand → Strand) : (s.updAt k f).fmap = s.fmap := rfl
@[simp] theorem State.updAt_contexts (s : State) (k : Nat) (f : Strand → Strand) : (s.updAt k f).contexts = s.contexts := rfl
@[simp] theorem State.updAt_keys (s : State) (k : Nat) (f : Strand → Strand) : (s.updAt k f).keys = s.keys := rfl
@[simp] theorem State.updAt_queues (s : State) (k : Nat) (f : Strand → Strand) : (s.updAt k f).queues = s.queues := rfl
@[simp] theorem State.updAt_launches (s : State) (k : Nat) (f : Strand → Strand) : (s.updAt k f).launches = s.launches := rfl
@[simp] theorem State.updAt_groups (s : State) (k : Nat) (f : Strand → Strand) : (s.updAt k f).groups = s.groups := rfl
@[simp] theorem State.updAt_waitingRecs (s : State) (k : Nat) (f : Strand → Strand) : (s.updAt k f).waitingRecs = s.waitingRecs := rfl
@[simp] theorem State.updAt_mgmt (s : State) (k : Nat) (f : Strand → Strand) : (s.updAt k f).mgmt = s.mgmt := rfl
@[simp] theorem State.updAt_migrations (s : State) (k : Nat) (f : Strand → Strand) : (s.updAt k f).migrations = s.migrations := rfl
@[simp] theorem State.updAt_braidWrites (s : State) (k : Nat) (f : Strand → Strand) : (s.updAt k f).braidWrites = s.braidWrites := rfl
@[simp] theorem State.updAt_braidAnswers (s : State) (k : Nat) (f : Strand → Strand) : (s.updAt k f).braidAnswers = s.braidAnswers := rfl
@[simp] theorem State.updAt_flyWrites (s : State) (k : Nat) (f : Strand → Strand) : (s.updAt k f).flyWrites = s.flyWrites := rfl
@[simp] theorem State.updAt_flyHold (s : State) (k : Nat) (f : Strand → Strand) : (s.updAt k f).flyHold = s.flyHold := rfl
@[simp] theorem State.updAt_loaded (s : State) (k : Nat) (f : Strand → Strand) : (s.updAt k f).loaded = s.loaded := rfl
@[simp] theorem State.updAt_boot (s : State) (k : Nat) (f : Strand → Strand) : (s.updAt k f).boot = s.boot := rfl
@[simp] theorem State.updAt_flash (s : State) (k : Nat) (f : Strand → Strand) : (s.updAt k f).flash = s.flash := rfl
@[simp] theorem State.updAt_fuses (s : State) (k : Nat) (f : Strand → Strand) : (s.updAt k f).fuses = s.fuses := rfl
@[simp] theorem State.updAt_hostImage (s : State) (k : Nat) (f : Strand → Strand) : (s.updAt k f).hostImage = s.hostImage := rfl
@[simp] theorem State.updAt_hostIn (s : State) (k : Nat) (f : Strand → Strand) : (s.updAt k f).hostIn = s.hostIn := rfl
@[simp] theorem State.updAt_hostMsgs (s : State) (k : Nat) (f : Strand → Strand) : (s.updAt k f).hostMsgs = s.hostMsgs := rfl
@[simp] theorem State.updAt_hostPosts (s : State) (k : Nat) (f : Strand → Strand) : (s.updAt k f).hostPosts = s.hostPosts := rfl

/-! ## One unit per update -/

@[simp] theorem State.setStrand_core (s : State) (k : Nat) (x : Strand) (j : Nat) : (s.setStrand k x).core j = s.core j := rfl
@[simp] theorem State.setStrand_cluster (s : State) (k : Nat) (x : Strand) (j : Nat) : (s.setStrand k x).cluster j = s.cluster j := rfl
@[simp] theorem State.setStrand_die (s : State) (k : Nat) (x : Strand) (j : Nat) : (s.setStrand k x).die j = s.die j := rfl
@[simp] theorem State.setStrand_port (s : State) (k : Nat) (x : Strand) (j : Nat) : (s.setStrand k x).port j = s.port j := rfl
@[simp] theorem State.setStrand_context (s : State) (k : Nat) (x : Strand) (j : Nat) : (s.setStrand k x).context j = s.context j := rfl
@[simp] theorem State.setStrand_queue (s : State) (k : Nat) (x : Strand) (j : Nat) : (s.setStrand k x).queue j = s.queue j := rfl
@[simp] theorem State.setStrand_group (s : State) (k : Nat) (x : Strand) (j : GroupKey) : (s.setStrand k x).group j = s.group j := rfl
@[simp] theorem State.setStrand_launch (s : State) (k : Nat) (x : Strand) (j : LaunchKey) : (s.setStrand k x).launch j = s.launch j := rfl

@[simp] theorem State.setCore_strand (s : State) (k : Nat) (x : Core) (j : Nat) : (s.setCore k x).strand j = s.strand j := rfl
@[simp] theorem State.setCore_cluster (s : State) (k : Nat) (x : Core) (j : Nat) : (s.setCore k x).cluster j = s.cluster j := rfl
@[simp] theorem State.setCore_die (s : State) (k : Nat) (x : Core) (j : Nat) : (s.setCore k x).die j = s.die j := rfl
@[simp] theorem State.setCore_port (s : State) (k : Nat) (x : Core) (j : Nat) : (s.setCore k x).port j = s.port j := rfl
@[simp] theorem State.setCore_context (s : State) (k : Nat) (x : Core) (j : Nat) : (s.setCore k x).context j = s.context j := rfl
@[simp] theorem State.setCore_queue (s : State) (k : Nat) (x : Core) (j : Nat) : (s.setCore k x).queue j = s.queue j := rfl
@[simp] theorem State.setCore_me (s : State) (k : Nat) (x : Core) : (s.setCore k x).me = s.me := rfl
@[simp] theorem State.setCore_group (s : State) (k : Nat) (x : Core) (j : GroupKey) : (s.setCore k x).group j = s.group j := rfl
@[simp] theorem State.setCore_launch (s : State) (k : Nat) (x : Core) (j : LaunchKey) : (s.setCore k x).launch j = s.launch j := rfl

@[simp] theorem State.setCluster_strand (s : State) (k : Nat) (x : Cluster) (j : Nat) : (s.setCluster k x).strand j = s.strand j := rfl
@[simp] theorem State.setCluster_core (s : State) (k : Nat) (x : Cluster) (j : Nat) : (s.setCluster k x).core j = s.core j := rfl
@[simp] theorem State.setCluster_die (s : State) (k : Nat) (x : Cluster) (j : Nat) : (s.setCluster k x).die j = s.die j := rfl
@[simp] theorem State.setCluster_port (s : State) (k : Nat) (x : Cluster) (j : Nat) : (s.setCluster k x).port j = s.port j := rfl
@[simp] theorem State.setCluster_context (s : State) (k : Nat) (x : Cluster) (j : Nat) : (s.setCluster k x).context j = s.context j := rfl
@[simp] theorem State.setCluster_queue (s : State) (k : Nat) (x : Cluster) (j : Nat) : (s.setCluster k x).queue j = s.queue j := rfl
@[simp] theorem State.setCluster_me (s : State) (k : Nat) (x : Cluster) : (s.setCluster k x).me = s.me := rfl
@[simp] theorem State.setCluster_group (s : State) (k : Nat) (x : Cluster) (j : GroupKey) : (s.setCluster k x).group j = s.group j := rfl
@[simp] theorem State.setCluster_launch (s : State) (k : Nat) (x : Cluster) (j : LaunchKey) : (s.setCluster k x).launch j = s.launch j := rfl

@[simp] theorem State.setDie_strand (s : State) (k : Nat) (x : Die) (j : Nat) : (s.setDie k x).strand j = s.strand j := rfl
@[simp] theorem State.setDie_core (s : State) (k : Nat) (x : Die) (j : Nat) : (s.setDie k x).core j = s.core j := rfl
@[simp] theorem State.setDie_cluster (s : State) (k : Nat) (x : Die) (j : Nat) : (s.setDie k x).cluster j = s.cluster j := rfl
@[simp] theorem State.setDie_port (s : State) (k : Nat) (x : Die) (j : Nat) : (s.setDie k x).port j = s.port j := rfl
@[simp] theorem State.setDie_context (s : State) (k : Nat) (x : Die) (j : Nat) : (s.setDie k x).context j = s.context j := rfl
@[simp] theorem State.setDie_queue (s : State) (k : Nat) (x : Die) (j : Nat) : (s.setDie k x).queue j = s.queue j := rfl
@[simp] theorem State.setDie_me (s : State) (k : Nat) (x : Die) : (s.setDie k x).me = s.me := rfl
@[simp] theorem State.setDie_group (s : State) (k : Nat) (x : Die) (j : GroupKey) : (s.setDie k x).group j = s.group j := rfl
@[simp] theorem State.setDie_launch (s : State) (k : Nat) (x : Die) (j : LaunchKey) : (s.setDie k x).launch j = s.launch j := rfl

@[simp] theorem State.setPort_strand (s : State) (k : Nat) (x : Port) (j : Nat) : (s.setPort k x).strand j = s.strand j := rfl
@[simp] theorem State.setPort_core (s : State) (k : Nat) (x : Port) (j : Nat) : (s.setPort k x).core j = s.core j := rfl
@[simp] theorem State.setPort_cluster (s : State) (k : Nat) (x : Port) (j : Nat) : (s.setPort k x).cluster j = s.cluster j := rfl
@[simp] theorem State.setPort_die (s : State) (k : Nat) (x : Port) (j : Nat) : (s.setPort k x).die j = s.die j := rfl
@[simp] theorem State.setPort_context (s : State) (k : Nat) (x : Port) (j : Nat) : (s.setPort k x).context j = s.context j := rfl
@[simp] theorem State.setPort_queue (s : State) (k : Nat) (x : Port) (j : Nat) : (s.setPort k x).queue j = s.queue j := rfl
@[simp] theorem State.setPort_me (s : State) (k : Nat) (x : Port) : (s.setPort k x).me = s.me := rfl
@[simp] theorem State.setPort_group (s : State) (k : Nat) (x : Port) (j : GroupKey) : (s.setPort k x).group j = s.group j := rfl
@[simp] theorem State.setPort_launch (s : State) (k : Nat) (x : Port) (j : LaunchKey) : (s.setPort k x).launch j = s.launch j := rfl

@[simp] theorem State.setContext_strand (s : State) (k : Nat) (x : ContextDesc) (j : Nat) : (s.setContext k x).strand j = s.strand j := rfl
@[simp] theorem State.setContext_core (s : State) (k : Nat) (x : ContextDesc) (j : Nat) : (s.setContext k x).core j = s.core j := rfl
@[simp] theorem State.setContext_cluster (s : State) (k : Nat) (x : ContextDesc) (j : Nat) : (s.setContext k x).cluster j = s.cluster j := rfl
@[simp] theorem State.setContext_die (s : State) (k : Nat) (x : ContextDesc) (j : Nat) : (s.setContext k x).die j = s.die j := rfl
@[simp] theorem State.setContext_port (s : State) (k : Nat) (x : ContextDesc) (j : Nat) : (s.setContext k x).port j = s.port j := rfl
@[simp] theorem State.setContext_queue (s : State) (k : Nat) (x : ContextDesc) (j : Nat) : (s.setContext k x).queue j = s.queue j := rfl
@[simp] theorem State.setContext_me (s : State) (k : Nat) (x : ContextDesc) : (s.setContext k x).me = s.me := rfl
@[simp] theorem State.setContext_group (s : State) (k : Nat) (x : ContextDesc) (j : GroupKey) : (s.setContext k x).group j = s.group j := rfl
@[simp] theorem State.setContext_launch (s : State) (k : Nat) (x : ContextDesc) (j : LaunchKey) : (s.setContext k x).launch j = s.launch j := rfl

@[simp] theorem State.setQueue_strand (s : State) (k : Nat) (x : Queue) (j : Nat) : (s.setQueue k x).strand j = s.strand j := rfl
@[simp] theorem State.setQueue_core (s : State) (k : Nat) (x : Queue) (j : Nat) : (s.setQueue k x).core j = s.core j := rfl
@[simp] theorem State.setQueue_cluster (s : State) (k : Nat) (x : Queue) (j : Nat) : (s.setQueue k x).cluster j = s.cluster j := rfl
@[simp] theorem State.setQueue_die (s : State) (k : Nat) (x : Queue) (j : Nat) : (s.setQueue k x).die j = s.die j := rfl
@[simp] theorem State.setQueue_port (s : State) (k : Nat) (x : Queue) (j : Nat) : (s.setQueue k x).port j = s.port j := rfl
@[simp] theorem State.setQueue_context (s : State) (k : Nat) (x : Queue) (j : Nat) : (s.setQueue k x).context j = s.context j := rfl
@[simp] theorem State.setQueue_me (s : State) (k : Nat) (x : Queue) : (s.setQueue k x).me = s.me := rfl
@[simp] theorem State.setQueue_group (s : State) (k : Nat) (x : Queue) (j : GroupKey) : (s.setQueue k x).group j = s.group j := rfl
@[simp] theorem State.setQueue_launch (s : State) (k : Nat) (x : Queue) (j : LaunchKey) : (s.setQueue k x).launch j = s.launch j := rfl

@[simp] theorem State.setGroup_strand (s : State) (k : GroupKey) (x : Group) (j : Nat) : (s.setGroup k x).strand j = s.strand j := rfl
@[simp] theorem State.setGroup_core (s : State) (k : GroupKey) (x : Group) (j : Nat) : (s.setGroup k x).core j = s.core j := rfl
@[simp] theorem State.setGroup_cluster (s : State) (k : GroupKey) (x : Group) (j : Nat) : (s.setGroup k x).cluster j = s.cluster j := rfl
@[simp] theorem State.setGroup_die (s : State) (k : GroupKey) (x : Group) (j : Nat) : (s.setGroup k x).die j = s.die j := rfl
@[simp] theorem State.setGroup_port (s : State) (k : GroupKey) (x : Group) (j : Nat) : (s.setGroup k x).port j = s.port j := rfl
@[simp] theorem State.setGroup_context (s : State) (k : GroupKey) (x : Group) (j : Nat) : (s.setGroup k x).context j = s.context j := rfl
@[simp] theorem State.setGroup_queue (s : State) (k : GroupKey) (x : Group) (j : Nat) : (s.setGroup k x).queue j = s.queue j := rfl
@[simp] theorem State.setGroup_me (s : State) (k : GroupKey) (x : Group) : (s.setGroup k x).me = s.me := rfl
@[simp] theorem State.setGroup_launch (s : State) (k : GroupKey) (x : Group) (j : LaunchKey) : (s.setGroup k x).launch j = s.launch j := rfl

@[simp] theorem State.setLaunch_strand (s : State) (k : LaunchKey) (x : Launch) (j : Nat) : (s.setLaunch k x).strand j = s.strand j := rfl
@[simp] theorem State.setLaunch_core (s : State) (k : LaunchKey) (x : Launch) (j : Nat) : (s.setLaunch k x).core j = s.core j := rfl
@[simp] theorem State.setLaunch_cluster (s : State) (k : LaunchKey) (x : Launch) (j : Nat) : (s.setLaunch k x).cluster j = s.cluster j := rfl
@[simp] theorem State.setLaunch_die (s : State) (k : LaunchKey) (x : Launch) (j : Nat) : (s.setLaunch k x).die j = s.die j := rfl
@[simp] theorem State.setLaunch_port (s : State) (k : LaunchKey) (x : Launch) (j : Nat) : (s.setLaunch k x).port j = s.port j := rfl
@[simp] theorem State.setLaunch_context (s : State) (k : LaunchKey) (x : Launch) (j : Nat) : (s.setLaunch k x).context j = s.context j := rfl
@[simp] theorem State.setLaunch_queue (s : State) (k : LaunchKey) (x : Launch) (j : Nat) : (s.setLaunch k x).queue j = s.queue j := rfl
@[simp] theorem State.setLaunch_me (s : State) (k : LaunchKey) (x : Launch) : (s.setLaunch k x).me = s.me := rfl
@[simp] theorem State.setLaunch_group (s : State) (k : LaunchKey) (x : Launch) (j : GroupKey) : (s.setLaunch k x).group j = s.group j := rfl

@[simp] theorem State.upd_core (s : State) (f : Strand → Strand) (j : Nat) : (s.upd f).core j = s.core j := rfl
@[simp] theorem State.upd_cluster (s : State) (f : Strand → Strand) (j : Nat) : (s.upd f).cluster j = s.cluster j := rfl
@[simp] theorem State.upd_die (s : State) (f : Strand → Strand) (j : Nat) : (s.upd f).die j = s.die j := rfl
@[simp] theorem State.upd_port (s : State) (f : Strand → Strand) (j : Nat) : (s.upd f).port j = s.port j := rfl
@[simp] theorem State.upd_context (s : State) (f : Strand → Strand) (j : Nat) : (s.upd f).context j = s.context j := rfl
@[simp] theorem State.upd_queue (s : State) (f : Strand → Strand) (j : Nat) : (s.upd f).queue j = s.queue j := rfl
@[simp] theorem State.upd_group (s : State) (f : Strand → Strand) (j : GroupKey) : (s.upd f).group j = s.group j := rfl
@[simp] theorem State.upd_launch (s : State) (f : Strand → Strand) (j : LaunchKey) : (s.upd f).launch j = s.launch j := rfl

@[simp] theorem State.updAt_core (s : State) (k : Nat) (f : Strand → Strand) (j : Nat) : (s.updAt k f).core j = s.core j := rfl
@[simp] theorem State.updAt_cluster (s : State) (k : Nat) (f : Strand → Strand) (j : Nat) : (s.updAt k f).cluster j = s.cluster j := rfl
@[simp] theorem State.updAt_die (s : State) (k : Nat) (f : Strand → Strand) (j : Nat) : (s.updAt k f).die j = s.die j := rfl
@[simp] theorem State.updAt_port (s : State) (k : Nat) (f : Strand → Strand) (j : Nat) : (s.updAt k f).port j = s.port j := rfl
@[simp] theorem State.updAt_context (s : State) (k : Nat) (f : Strand → Strand) (j : Nat) : (s.updAt k f).context j = s.context j := rfl
@[simp] theorem State.updAt_queue (s : State) (k : Nat) (f : Strand → Strand) (j : Nat) : (s.updAt k f).queue j = s.queue j := rfl
@[simp] theorem State.updAt_group (s : State) (k : Nat) (f : Strand → Strand) (j : GroupKey) : (s.updAt k f).group j = s.group j := rfl
@[simp] theorem State.updAt_launch (s : State) (k : Nat) (f : Strand → Strand) (j : LaunchKey) : (s.updAt k f).launch j = s.launch j := rfl

@[simp] theorem State.strand_setStrand (s : State) (k : Nat) (x : Strand) : (s.setStrand k x).strand k = x := Tbl.getD_set_self _ _ _ _
theorem State.strand_setStrand_ne (s : State) (k : Nat) (x : Strand) (j : Nat) (h : j ≠ k) : (s.setStrand k x).strand j = s.strand j := Tbl.getD_set_ne _ _ _ _ _ h
@[simp] theorem State.core_setCore (s : State) (k : Nat) (x : Core) : (s.setCore k x).core k = x := Tbl.getD_set_self _ _ _ _
theorem State.core_setCore_ne (s : State) (k : Nat) (x : Core) (j : Nat) (h : j ≠ k) : (s.setCore k x).core j = s.core j := Tbl.getD_set_ne _ _ _ _ _ h
@[simp] theorem State.cluster_setCluster (s : State) (k : Nat) (x : Cluster) : (s.setCluster k x).cluster k = x := Tbl.getD_set_self _ _ _ _
theorem State.cluster_setCluster_ne (s : State) (k : Nat) (x : Cluster) (j : Nat) (h : j ≠ k) : (s.setCluster k x).cluster j = s.cluster j := Tbl.getD_set_ne _ _ _ _ _ h
@[simp] theorem State.die_setDie (s : State) (k : Nat) (x : Die) : (s.setDie k x).die k = x := Tbl.getD_set_self _ _ _ _
theorem State.die_setDie_ne (s : State) (k : Nat) (x : Die) (j : Nat) (h : j ≠ k) : (s.setDie k x).die j = s.die j := Tbl.getD_set_ne _ _ _ _ _ h
@[simp] theorem State.port_setPort (s : State) (k : Nat) (x : Port) : (s.setPort k x).port k = x := Tbl.getD_set_self _ _ _ _
theorem State.port_setPort_ne (s : State) (k : Nat) (x : Port) (j : Nat) (h : j ≠ k) : (s.setPort k x).port j = s.port j := Tbl.getD_set_ne _ _ _ _ _ h
@[simp] theorem State.context_setContext (s : State) (k : Nat) (x : ContextDesc) : (s.setContext k x).context k = x := Tbl.getD_set_self _ _ _ _
theorem State.context_setContext_ne (s : State) (k : Nat) (x : ContextDesc) (j : Nat) (h : j ≠ k) : (s.setContext k x).context j = s.context j := Tbl.getD_set_ne _ _ _ _ _ h
@[simp] theorem State.queue_setQueue (s : State) (k : Nat) (x : Queue) : (s.setQueue k x).queue k = x := Tbl.getD_set_self _ _ _ _
theorem State.queue_setQueue_ne (s : State) (k : Nat) (x : Queue) (j : Nat) (h : j ≠ k) : (s.setQueue k x).queue j = s.queue j := Tbl.getD_set_ne _ _ _ _ _ h

/-! ## The executing strand -/

@[simp] theorem State.me_setStrand (s : State) (x : Strand) : (s.setStrand s.cur.src x).me = x := Tbl.getD_set_self _ _ _ _
@[simp] theorem State.me_upd (s : State) (f : Strand → Strand) : (s.upd f).me = f s.me := Tbl.getD_set_self _ _ _ _
@[simp] theorem State.strand_updAt (s : State) (k : Nat) (f : Strand → Strand) : (s.updAt k f).strand k = f (s.strand k) :=
  Tbl.getD_set_self _ _ _ _
theorem State.strand_updAt_ne (s : State) (k j : Nat) (f : Strand → Strand) (h : j ≠ k) : (s.updAt k f).strand j = s.strand j :=
  Tbl.getD_set_ne _ _ _ _ _ h
theorem State.strand_upd_ne (s : State) (j : Nat) (f : Strand → Strand) (h : j ≠ s.cur.src) : (s.upd f).strand j = s.strand j :=
  Tbl.getD_set_ne _ _ _ _ _ h

/-- An update of the executing strand changes nothing outside its record. -/
theorem State.upd_only (s : State) (f : Strand → Strand) : { s.upd f with strands := s.strands } = s := rfl

/-! ## Scalar registers -/

@[simp] theorem Strand.reg_zero (t : Strand) : t.reg 0 = 0 := rfl
@[simp] theorem State.rd_zero (s : State) : s.rd 0 = 0 := rfl

theorem Strand.reg_setReg (t : Strand) (n m : Nat) (w : Word) :
    (t.setReg n w).reg m = if m = 0 then 0 else if m = n then w else t.reg m := by
  by_cases hm : m = 0 <;> by_cases hn : n = 0 <;> simp_all [Strand.setReg, Strand.reg, Tbl.getD_set]

@[simp] theorem Strand.setReg_st (t : Strand) (n : Nat) (w : Word) : (t.setReg n w).st = t.st := by
  unfold Strand.setReg; split <;> rfl
@[simp] theorem Strand.setReg_wait (t : Strand) (n : Nat) (w : Word) : (t.setReg n w).wait = t.wait := by
  unfold Strand.setReg; split <;> rfl
@[simp] theorem Strand.setReg_bind (t : Strand) (n : Nat) (w : Word) : (t.setReg n w).bind = t.bind := by
  unfold Strand.setReg; split <;> rfl
@[simp] theorem Strand.setReg_pc (t : Strand) (n : Nat) (w : Word) : (t.setReg n w).pc = t.pc := by
  unfold Strand.setReg; split <;> rfl
@[simp] theorem Strand.setReg_vec (t : Strand) (n : Nat) (w : Word) : (t.setReg n w).vec = t.vec := by
  unfold Strand.setReg; split <;> rfl
@[simp] theorem Strand.setReg_csr (t : Strand) (n : Nat) (w : Word) : (t.setReg n w).csr = t.csr := by
  unfold Strand.setReg; split <;> rfl
@[simp] theorem Strand.setReg_nextSeq (t : Strand) (n : Nat) (w : Word) : (t.setReg n w).nextSeq = t.nextSeq := by
  unfold Strand.setReg; split <;> rfl
@[simp] theorem Strand.setReg_viq (t : Strand) (n : Nat) (w : Word) : (t.setReg n w).viq = t.viq := by
  unfold Strand.setReg; split <;> rfl
@[simp] theorem Strand.setReg_mxq (t : Strand) (n : Nat) (w : Word) : (t.setReg n w).mxq = t.mxq := by
  unfold Strand.setReg; split <;> rfl
@[simp] theorem Strand.setReg_cpq (t : Strand) (n : Nat) (w : Word) : (t.setReg n w).cpq = t.cpq := by
  unfold Strand.setReg; split <;> rfl
@[simp] theorem Strand.setReg_lands (t : Strand) (n : Nat) (w : Word) : (t.setReg n w).lands = t.lands := by
  unfold Strand.setReg; split <;> rfl
@[simp] theorem Strand.setReg_tlCopy (t : Strand) (n : Nat) (w : Word) : (t.setReg n w).tlCopy = t.tlCopy := by
  unfold Strand.setReg; split <;> rfl
@[simp] theorem Strand.setReg_tlMatrix (t : Strand) (n : Nat) (w : Word) : (t.setReg n w).tlMatrix = t.tlMatrix := by
  unfold Strand.setReg; split <;> rfl
@[simp] theorem Strand.setReg_tlAsync (t : Strand) (n : Nat) (w : Word) : (t.setReg n w).tlAsync = t.tlAsync := by
  unfold Strand.setReg; split <;> rfl
@[simp] theorem Strand.setReg_slots (t : Strand) (n : Nat) (w : Word) : (t.setReg n w).slots = t.slots := by
  unfold Strand.setReg; split <;> rfl
@[simp] theorem Strand.setReg_slotPoison (t : Strand) (n : Nat) (w : Word) : (t.setReg n w).slotPoison = t.slotPoison := by
  unfold Strand.setReg; split <;> rfl
@[simp] theorem Strand.setReg_strips (t : Strand) (n : Nat) (w : Word) : (t.setReg n w).strips = t.strips := by
  unfold Strand.setReg; split <;> rfl
@[simp] theorem Strand.setReg_openStrip (t : Strand) (n : Nat) (w : Word) : (t.setReg n w).openStrip = t.openStrip := by
  unfold Strand.setReg; split <;> rfl
@[simp] theorem Strand.setReg_nextStrip (t : Strand) (n : Nat) (w : Word) : (t.setReg n w).nextStrip = t.nextStrip := by
  unfold Strand.setReg; split <;> rfl
@[simp] theorem Strand.setReg_why (t : Strand) (n : Nat) (w : Word) : (t.setReg n w).why = t.why := by
  unfold Strand.setReg; split <;> rfl
@[simp] theorem Strand.setReg_rolls (t : Strand) (n : Nat) (w : Word) : (t.setReg n w).rolls = t.rolls := by
  unfold Strand.setReg; split <;> rfl
@[simp] theorem Strand.setReg_buf (t : Strand) (n : Nat) (w : Word) : (t.setReg n w).buf = t.buf := by
  unfold Strand.setReg; split <;> rfl
@[simp] theorem Strand.setReg_ssq (t : Strand) (n : Nat) (w : Word) : (t.setReg n w).ssq = t.ssq := by
  unfold Strand.setReg; split <;> rfl
@[simp] theorem Strand.setReg_hold (t : Strand) (n : Nat) (w : Word) : (t.setReg n w).hold = t.hold := by
  unfold Strand.setReg; split <;> rfl
@[simp] theorem Strand.setReg_fsvMarks (t : Strand) (n : Nat) (w : Word) : (t.setReg n w).fsvMarks = t.fsvMarks := by
  unfold Strand.setReg; split <;> rfl
@[simp] theorem Strand.setReg_deficit (t : Strand) (n : Nat) (w : Word) : (t.setReg n w).deficit = t.deficit := by
  unfold Strand.setReg; split <;> rfl
@[simp] theorem Strand.setReg_skip (t : Strand) (n : Nat) (w : Word) : (t.setReg n w).skip = t.skip := by
  unfold Strand.setReg; split <;> rfl
@[simp] theorem Strand.setReg_barTok (t : Strand) (n : Nat) (w : Word) : (t.setReg n w).barTok = t.barTok := by
  unfold Strand.setReg; split <;> rfl
@[simp] theorem Strand.setReg_barDue (t : Strand) (n : Nat) (w : Word) : (t.setReg n w).barDue = t.barDue := by
  unfold Strand.setReg; split <;> rfl
@[simp] theorem Strand.setReg_lastBraid (t : Strand) (n : Nat) (w : Word) : (t.setReg n w).lastBraid = t.lastBraid := by
  unfold Strand.setReg; split <;> rfl
@[simp] theorem Strand.setReg_sampleCount (t : Strand) (n : Nat) (w : Word) : (t.setReg n w).sampleCount = t.sampleCount := by
  unfold Strand.setReg; split <;> rfl
@[simp] theorem Strand.setReg_replay (t : Strand) (n : Nat) (w : Word) : (t.setReg n w).replay = t.replay := by
  unfold Strand.setReg; split <;> rfl
@[simp] theorem Strand.setReg_vecHeld (t : Strand) (n : Nat) (w : Word) : (t.setReg n w).vecHeld = t.vecHeld := by
  unfold Strand.setReg; split <;> rfl
@[simp] theorem Strand.setReg_cpHeld (t : Strand) (n : Nat) (w : Word) : (t.setReg n w).cpHeld = t.cpHeld := by
  unfold Strand.setReg; split <;> rfl
@[simp] theorem Strand.setReg_mxHeld (t : Strand) (n : Nat) (w : Word) : (t.setReg n w).mxHeld = t.mxHeld := by
  unfold Strand.setReg; split <;> rfl
@[simp] theorem Strand.setReg_lostStore (t : Strand) (n : Nat) (w : Word) : (t.setReg n w).lostStore = t.lostStore := by
  unfold Strand.setReg; split <;> rfl
@[simp] theorem Strand.setReg_scalarExempt (t : Strand) (n : Nat) (w : Word) : (t.setReg n w).scalarExempt = t.scalarExempt := by
  unfold Strand.setReg; split <;> rfl
@[simp] theorem Strand.advance_bind (t : Strand) : t.advance.bind = t.bind := rfl
@[simp] theorem Strand.advance_s (t : Strand) : t.advance.s = t.s := rfl
@[simp] theorem Strand.advance_vec (t : Strand) : t.advance.vec = t.vec := rfl
@[simp] theorem Strand.advance_csr (t : Strand) : t.advance.csr = t.csr := rfl
@[simp] theorem Strand.advance_nextSeq (t : Strand) : t.advance.nextSeq = t.nextSeq := rfl
@[simp] theorem Strand.advance_viq (t : Strand) : t.advance.viq = t.viq := rfl
@[simp] theorem Strand.advance_mxq (t : Strand) : t.advance.mxq = t.mxq := rfl
@[simp] theorem Strand.advance_cpq (t : Strand) : t.advance.cpq = t.cpq := rfl
@[simp] theorem Strand.advance_lands (t : Strand) : t.advance.lands = t.lands := rfl
@[simp] theorem Strand.advance_tlCopy (t : Strand) : t.advance.tlCopy = t.tlCopy := rfl
@[simp] theorem Strand.advance_tlMatrix (t : Strand) : t.advance.tlMatrix = t.tlMatrix := rfl
@[simp] theorem Strand.advance_tlAsync (t : Strand) : t.advance.tlAsync = t.tlAsync := rfl
@[simp] theorem Strand.advance_slots (t : Strand) : t.advance.slots = t.slots := rfl
@[simp] theorem Strand.advance_slotPoison (t : Strand) : t.advance.slotPoison = t.slotPoison := rfl
@[simp] theorem Strand.advance_strips (t : Strand) : t.advance.strips = t.strips := rfl
@[simp] theorem Strand.advance_openStrip (t : Strand) : t.advance.openStrip = t.openStrip := rfl
@[simp] theorem Strand.advance_nextStrip (t : Strand) : t.advance.nextStrip = t.nextStrip := rfl
@[simp] theorem Strand.advance_why (t : Strand) : t.advance.why = t.why := rfl
@[simp] theorem Strand.advance_rolls (t : Strand) : t.advance.rolls = t.rolls := rfl
@[simp] theorem Strand.advance_buf (t : Strand) : t.advance.buf = t.buf := rfl
@[simp] theorem Strand.advance_ssq (t : Strand) : t.advance.ssq = t.ssq := rfl
@[simp] theorem Strand.advance_hold (t : Strand) : t.advance.hold = t.hold := rfl
@[simp] theorem Strand.advance_fsvMarks (t : Strand) : t.advance.fsvMarks = t.fsvMarks := rfl
@[simp] theorem Strand.advance_deficit (t : Strand) : t.advance.deficit = t.deficit := rfl
@[simp] theorem Strand.advance_skip (t : Strand) : t.advance.skip = t.skip := rfl
@[simp] theorem Strand.advance_barTok (t : Strand) : t.advance.barTok = t.barTok := rfl
@[simp] theorem Strand.advance_barDue (t : Strand) : t.advance.barDue = t.barDue := rfl
@[simp] theorem Strand.advance_lastBraid (t : Strand) : t.advance.lastBraid = t.lastBraid := rfl
@[simp] theorem Strand.advance_sampleCount (t : Strand) : t.advance.sampleCount = t.sampleCount := rfl
@[simp] theorem Strand.advance_replay (t : Strand) : t.advance.replay = t.replay := rfl
@[simp] theorem Strand.advance_vecHeld (t : Strand) : t.advance.vecHeld = t.vecHeld := rfl
@[simp] theorem Strand.advance_cpHeld (t : Strand) : t.advance.cpHeld = t.cpHeld := rfl
@[simp] theorem Strand.advance_mxHeld (t : Strand) : t.advance.mxHeld = t.mxHeld := rfl
@[simp] theorem Strand.advance_lostStore (t : Strand) : t.advance.lostStore = t.lostStore := rfl
@[simp] theorem Strand.advance_pc (t : Strand) : t.advance.pc = t.pc + 4 := rfl
@[simp] theorem Strand.advance_wait (t : Strand) : t.advance.wait = .none := rfl
@[simp] theorem Strand.advance_st (t : Strand) : t.advance.st = .running := rfl
@[simp] theorem Strand.advance_reg (t : Strand) (n : Nat) : t.advance.reg n = t.reg n := rfl

/-! ## Completing, going on, waiting -/

/-- What writing sd and going on does to the executing strand. -/
@[simp] theorem State.me_wrNext (s : State) (n : BitVec 5) (w : Word) : (s.wrNext n w).me = (s.me.setReg n.toNat w).advance :=
  State.me_upd _ _
@[simp] theorem State.me_goNext (s : State) : s.goNext.me = s.me.advance := State.me_upd _ _
@[simp] theorem State.me_waitFor (s : State) (w : Wait) : (s.waitFor w).me = { s.me with st := .waiting, wait := w } :=
  State.me_upd _ _

/-- Writing sd and going on: what every scalar register of the strand then holds. -/
theorem State.rd_wrNext (s : State) (n m : BitVec 5) (w : Word) :
    (s.wrNext n w).rd m = if m = 0 then 0 else if m = n then w else s.rd m := by
  have h0 : (m.toNat = 0) = (m = 0) := by rw [← BitVec.toNat_inj]; rfl
  simp only [State.rd, State.me_wrNext, Strand.advance_reg, Strand.reg_setReg, BitVec.toNat_inj, h0]

@[simp] theorem State.rd_goNext (s : State) (m : BitVec 5) : s.goNext.rd m = s.rd m := by simp [State.rd]
@[simp] theorem State.rd_waitFor (s : State) (w : Wait) (m : BitVec 5) : (s.waitFor w).rd m = s.rd m := by simp [State.rd, Strand.reg]

/-- Writing sd and going on changes no other strand and no other part of the package. -/
theorem State.wrNext_only (s : State) (n : BitVec 5) (w : Word) :
    { s.wrNext n w with strands := s.strands } = s ∧ ∀ j, j ≠ s.cur.src → (s.wrNext n w).strand j = s.strand j :=
  ⟨rfl, fun _ h => State.strand_upd_ne _ _ _ h⟩
theorem State.goNext_only (s : State) :
    { s.goNext with strands := s.strands } = s ∧ ∀ j, j ≠ s.cur.src → s.goNext.strand j = s.strand j :=
  ⟨rfl, fun _ h => State.strand_upd_ne _ _ _ h⟩
theorem State.waitFor_only (s : State) (w : Wait) :
    { s.waitFor w with strands := s.strands } = s ∧ ∀ j, j ≠ s.cur.src → (s.waitFor w).strand j = s.strand j :=
  ⟨rfl, fun _ h => State.strand_upd_ne _ _ _ h⟩

/-- A complete member changes no other strand and no other part of the package. -/
theorem State.memberDone_only (s : State) (firm : Bool) :
    { s.memberDone firm with strands := s.strands } = s ∧ ∀ j, j ≠ s.cur.src → (s.memberDone firm).strand j = s.strand j :=
  ⟨rfl, fun _ h => State.strand_upd_ne _ _ _ h⟩

/-- Of the executing strand a complete member changes its queue entry, and ESTART and DONEMASK where it had resumed. -/
theorem State.memberDone_me (s : State) (firm : Bool) :
    { (s.memberDone firm).me with viq := s.me.viq, csr := s.me.csr } = s.me := by
  simp only [State.memberDone, State.me_upd, Strand.updConvoy, Strand.settle]
  cases firm <;> split <;> rfl

/-! ## Association lists -/

theorem look_put {κ α : Type} [DecidableEq κ] (l : List (κ × α)) (k j : κ) (x : α) :
    look (put l k x) j = if j = k then some x else look l j := by
  induction l with
  | nil => simp only [put, look, eq_comm]
  | cons p r ih =>
    obtain ⟨i, y⟩ := p
    simp only [put]
    split
    · subst_vars; simp only [look]; split <;> simp_all [eq_comm]
    · simp only [look, ih]; split <;> simp_all [eq_comm]

@[simp] theorem State.group_setGroup (s : State) (k : GroupKey) (g : Group) : (s.setGroup k g).group k = g := by
  simp [State.group, State.setGroup, look_put]
@[simp] theorem State.launch_setLaunch (s : State) (k : LaunchKey) (l : Launch) : (s.setLaunch k l).launch k = l := by
  simp [State.launch, State.setLaunch, look_put]

end Sys2Proof.Machine
end

