-- ==== Sys2Proof/Laws/Ops.lean ====
section
/-! SUPPORT. One lemma per shared operation of Mem.lean and Ops.lean: what it may change of the package, and that it keeps what
every step keeps (StateOk). The lemmas named `_only` are frames: the fields they put back are the only ones that may differ. -/

namespace Sys2Proof

open Machine

/-! ## What StateOk rests on -/

/-- StateOk looks at memory, cached translations, scratchpads, reader counts and dirty lines, and at nothing else. -/
theorem StateOk.congr {s t : State} (h : StateOk s) (hm : t.mem = s.mem) (hd : t.dies = s.dies) (hc : t.cores = s.cores)
    (hk : t.counted = s.counted) (hl : t.l1 = s.l1) (hn : t.msc = s.msc) : StateOk t := by
  obtain ⟨a, b, c, d, e⟩ := h
  refine ⟨?_, ?_, ?_, ?_, ?_⟩
  · unfold MemOk; rw [hm]; exact a
  · intro k; simpa [State.die, hd] using b k
  · intro k; have := c k; simpa [State.core, hc] using this
  · intro l x; rw [hk]; exact d l x
  · unfold LinesOk; rw [hl, hn]; exact e

theorem StateOk.setDie {s : State} (h : StateOk s) (k : Nat) (x : Die) (hx : WholePages x.tlb)
    (hy : ∀ c, WholePages (x.l1Tlb.getD c [])) : StateOk (s.setDie k x) := by
  obtain ⟨a, b, c, d, e⟩ := h
  refine ⟨a, fun j => ?_, c, d, e⟩
  by_cases hj : j = k
  · subst hj; simpa using ⟨hx, hy⟩
  · rw [State.die_setDie_ne _ _ _ _ hj]; exact b j

/-- A die keeps its translations: everything else of it is free to change. -/
theorem StateOk.setDie_same {s : State} (h : StateOk s) (k : Nat) (x : Die) (hx : x.tlb = (s.die k).tlb)
    (hy : x.l1Tlb = (s.die k).l1Tlb) : StateOk (s.setDie k x) :=
  h.setDie k x (by rw [hx]; exact (h.2.1 k).1) (by rw [hy]; exact (h.2.1 k).2)

theorem StateOk.setCore {s : State} (h : StateOk s) (k : Nat) (x : Core) (hx : Memory.wf x.scratch = true) :
    StateOk (s.setCore k x) := by
  obtain ⟨a, b, c, d, e⟩ := h
  refine ⟨a, b, fun j => ?_, d, e⟩
  by_cases hj : j = k
  · subst hj; simpa using hx
  · rw [State.core_setCore_ne _ _ _ _ hj]; exact c j

theorem StateOk.setStrand {s : State} (h : StateOk s) (k : Nat) (x : Strand) : StateOk (s.setStrand k x) := h
theorem StateOk.setCluster {s : State} (h : StateOk s) (k : Nat) (x : Cluster) : StateOk (s.setCluster k x) := h
theorem StateOk.setPort {s : State} (h : StateOk s) (k : Nat) (x : Port) : StateOk (s.setPort k x) := h
theorem StateOk.setContext {s : State} (h : StateOk s) (k : Nat) (x : ContextDesc) : StateOk (s.setContext k x) := h
theorem StateOk.setQueue {s : State} (h : StateOk s) (k : Nat) (x : Queue) : StateOk (s.setQueue k x) := h
theorem StateOk.setGroup {s : State} (h : StateOk s) (k : GroupKey) (x : Group) : StateOk (s.setGroup k x) := h
theorem StateOk.setLaunch {s : State} (h : StateOk s) (k : LaunchKey) (x : Launch) : StateOk (s.setLaunch k x) := h
theorem StateOk.updAt {s : State} (h : StateOk s) (k : Nat) (f : Strand → Strand) : StateOk (s.updAt k f) := h
theorem StateOk.upd {s : State} (h : StateOk s) (f : Strand → Strand) : StateOk (s.upd f) := h
theorem StateOk.wrNext {s : State} (h : StateOk s) (n : BitVec 5) (w : Word) : StateOk (s.wrNext n w) := h
theorem StateOk.goNext {s : State} (h : StateOk s) : StateOk s.goNext := h
theorem StateOk.waitFor {s : State} (h : StateOk s) (w : Wait) : StateOk (s.waitFor w) := h
theorem StateOk.toMgmt {s : State} (h : StateOk s) (die : Nat) (r : FRec) (c : Nat) : StateOk (s.toMgmt die r c) := h
theorem StateOk.setBarrier {s : State} (h : StateOk s) (cl ix : Nat) (b : Barrier) : StateOk (s.setBarrier cl ix b) := h
theorem StateOk.resetBarriers {s : State} (h : StateOk s) (k : GroupKey) : StateOk (s.resetBarriers k) := h
theorem StateOk.unassignBarriers {s : State} (h : StateOk s) (k : GroupKey) : StateOk (s.unassignBarriers k) := h
theorem StateOk.memberDone {s : State} (h : StateOk s) (firm : Bool) : StateOk (s.memberDone firm) := h
theorem StateOk.memberPart {s : State} (h : StateOk s) (i : Nat) (firm : Bool) : StateOk (s.memberPart i firm) := h
theorem StateOk.keepRecord {s : State} (h : StateOk s) (r : FRec) : StateOk (s.keepRecord r) := h

theorem StateOk.setPoison {s : State} (h : StateOk s) (line : Nat) (on : Bool) : StateOk (s.setPoison line on) := by
  unfold State.setPoison
  split
  · split
    · exact h
    · exact h
  · exact h

/-- Where both outcomes of a condition keep StateOk, its outcome does. -/
theorem StateOk.ite {c : Prop} [Decidable c] {s t : State} (hs : StateOk s) (ht : StateOk t) : StateOk (if c then s else t) := by
  by_cases h : c <;> simp only [h, if_true, if_false] <;> assumption

/-- A fold keeps StateOk when its step does. -/
theorem StateOk.foldl {β : Type} {f : State → β → State} (hf : ∀ t x, StateOk t → StateOk (f t x)) (l : List β) {s : State}
    (h : StateOk s) : StateOk (l.foldl f s) := by
  induction l generalizing s with
  | nil => exact h
  | cons x r ih => exact ih (hf _ _ h)

/-! ## The caches (R222, R225, R238, R244, R273) -/

@[simp] theorem Machine.Memory.run_length (m : Memory) (a n : Nat) : (Memory.run m a n).length = n := by
  induction n generalizing m a with
  | zero => cases m <;> rfl
  | succ k ih =>
    cases m with
    | nil => simp [Memory.run, ih]
    | cons c r => obtain ⟨b, x⟩ := c; simp only [Memory.run]; split <;> simp [ih]

@[simp] theorem Machine.Memory.readBytes_length (m : Memory) (a n : Nat) : (Memory.readBytes m a n).length = n :=
  Memory.run_length _ _ _

/-- A read of a line gives 64 bytes. -/
@[simp] theorem Machine.State.lineBytes_length (s : State) (line : Nat) : (s.lineBytes line).length = 64 := by
  simp [State.lineBytes]

/-- What the caches may change as lines are written or leave them: which lines they hold dirty, with reader counts, or at all. -/
def OnlyCaches (s t : State) : Prop :=
  { t with l1 := s.l1, msc := s.msc, counted := s.counted, aliasSeen := s.aliasSeen } = s

theorem OnlyCaches.refl (s : State) : OnlyCaches s s := rfl

theorem OnlyCaches.trans {s t u : State} (h : OnlyCaches s t) (g : OnlyCaches t u) : OnlyCaches s u := by
  unfold OnlyCaches at *
  conv_rhs => rw [← h, ← g]

/-- What holds of the caches' lines is all that a state which differs in them alone has to meet. -/
theorem OnlyCaches.ok {s t : State} (h : OnlyCaches s t) (hs : StateOk s) (hc : CountsOk t) (hl : LinesOk t) : StateOk t := by
  have hm : t.mem = s.mem := by have := congrArg State.mem h; exact this
  have hd : t.dies = s.dies := by have := congrArg State.dies h; exact this
  have hk : t.cores = s.cores := by have := congrArg State.cores h; exact this
  refine ⟨?_, ?_, ?_, hc, hl⟩
  · unfold MemOk; rw [hm]; exact hs.1
  · intro k; simpa [State.die, hd] using hs.2.1 k
  · intro k; simpa [State.core, hk] using hs.2.2.1 k

/-- Room in an MSC is made by lines that it writes back (R225). -/
theorem Machine.State.fitMsc_only (s : State) (line : Nat) : OnlyCaches s (s.fitMsc line) := by
  unfold State.fitMsc
  split
  · rfl
  · split <;> rfl

theorem StateOk.fitMsc {s : State} (h : StateOk s) (line : Nat) : StateOk (s.fitMsc line) := by
  unfold State.fitMsc
  split
  · exact h
  · split
    · refine OnlyCaches.ok (s := s) rfl h h.2.2.2.1 ⟨h.2.2.2.2.1, fun k bs hk => ?_⟩
      simp only [Tbl.find_erase] at hk
      split at hk
      · cases hk
      · exact h.2.2.2.2.2 k bs hk
    · exact h

theorem Machine.State.leaveL1_only (s : State) (line : Nat) : OnlyCaches s (s.leaveL1 line) := by
  unfold State.leaveL1
  split
  · rfl
  · refine OnlyCaches.trans ?_ (State.fitMsc_only _ _)
    rfl

theorem StateOk.leaveL1 {s : State} (h : StateOk s) (line : Nat) : StateOk (s.leaveL1 line) := by
  obtain ⟨p, q⟩ := h.2.2.2.2
  unfold State.leaveL1
  split
  · exact h
  · rename_i l hl
    refine StateOk.fitMsc ?_ _
    refine OnlyCaches.ok (s := s) rfl h h.2.2.2.1 ⟨fun x hx => p x (List.mem_filter.mp hx).1, ?_⟩
    dsimp only
    split
    · exact q
    · intro k bs hk
      simp only [Tbl.find_set] at hk
      split at hk
      · cases hk; exact p l (List.mem_of_find?_eq_some hl)
      · exact q k bs hk

theorem Machine.State.fitL1_only (s : State) (core line : Nat) : OnlyCaches s (s.fitL1 core line) := by
  simp only [State.fitL1]
  split
  · exact .refl s
  · split
    · exact .refl s
    · exact s.leaveL1_only _

theorem StateOk.fitL1 {s : State} (h : StateOk s) (core line : Nat) : StateOk (s.fitL1 core line) := by
  simp only [State.fitL1]
  split
  · exact h
  · split
    · exact h
    · exact h.leaveL1 _

theorem StateOk.fitCore {s : State} (h : StateOk s) (core : Nat) : StateOk (s.fitCore core) :=
  StateOk.foldl (fun _ _ ht => ht.fitL1 _ _) _ h

theorem OnlyCaches.setMsc {s t : State} (h : OnlyCaches s t) (m : Tbl (List Byte)) : OnlyCaches s { t with msc := m } := h.trans rfl

theorem Machine.State.takeLine_only (s : State) (core : Option Nat) (line : Nat) : OnlyCaches s (s.takeLine core line) := by
  unfold State.takeLine
  split
  · rfl
  · have hs : OnlyCaches s (if s.aliased line && !s.aliasSeen.contains line then { s with aliasSeen := line :: s.aliasSeen } else s) := by
      split <;> rfl
    revert hs
    generalize (if s.aliased line && !s.aliasSeen.contains line then { s with aliasSeen := line :: s.aliasSeen } else s) = t
    intro ht
    cases core with
    | some k =>
      refine ht.trans (OnlyCaches.trans ?_ (State.fitL1_only _ _ _))
      split <;> rfl
    | none =>
      dsimp only
      split
      · exact ht.trans (t.leaveL1_only _)
      · refine OnlyCaches.trans ?_ (State.fitMsc_only _ _)
        exact (ht.trans (t.leaveL1_only _)).setMsc _

theorem StateOk.takeLine {s : State} (h : StateOk s) (core : Option Nat) (line : Nat) : StateOk (s.takeLine core line) := by
  unfold State.takeLine
  split
  · refine OnlyCaches.ok (s := s) rfl h (fun l x hx => ?_) h.2.2.2.2
    simp only [Tbl.find_erase] at hx
    split at hx
    · cases hx
    · exact h.2.2.2.1 l x hx
  · have hs : StateOk (if s.aliased line && !s.aliasSeen.contains line then { s with aliasSeen := line :: s.aliasSeen } else s) := by
      split <;> exact h
    revert hs
    generalize (if s.aliased line && !s.aliasSeen.contains line then { s with aliasSeen := line :: s.aliasSeen } else s) = t
    intro ht
    cases core with
    | some k =>
      refine StateOk.fitL1 ?_ _ _
      split
      · rename_i l hl
        refine OnlyCaches.ok (s := t) rfl ht ht.2.2.2.1 ⟨fun x hx => ?_, ht.2.2.2.2.2⟩
        obtain ⟨y, hy, rfl⟩ := List.mem_map.mp hx
        split
        · exact ht.2.2.2.2.1 l (List.mem_of_find?_eq_some hl)
        · exact ht.2.2.2.2.1 y hy
      · refine OnlyCaches.ok (s := t) rfl ht ht.2.2.2.1 ⟨fun x hx => ?_, ht.2.2.2.2.2⟩
        rcases List.mem_append.mp hx with hx | hx
        · exact ht.2.2.2.2.1 x hx
        · simp only [List.mem_singleton] at hx; subst hx; simp
    | none =>
      have hu := ht.leaveL1 line
      dsimp only
      split
      · exact hu
      · refine StateOk.fitMsc ?_ _
        refine OnlyCaches.ok (s := t.leaveL1 line) rfl hu hu.2.2.2.1 ⟨hu.2.2.2.2.1, fun k bs hk => ?_⟩
        simp only [Tbl.find_set] at hk
        split at hk
        · cases hk; simp
        · exact hu.2.2.2.2.2 k bs hk

theorem Machine.State.takeLines_only (s : State) (core : Option Nat) (lo n : Nat) : OnlyCaches s (s.takeLines core lo n) := by
  induction n generalizing s lo with
  | zero => exact .refl s
  | succ k ih => exact (s.takeLine_only core lo).trans (ih _ _)

theorem StateOk.takeLines {s : State} (h : StateOk s) (core : Option Nat) (lo n : Nat) : StateOk (s.takeLines core lo n) := by
  induction n generalizing s lo with
  | zero => exact h
  | succ k ih => exact ih (h.takeLine core lo) _

/-- A memory that keeps its form may replace a state's. -/
theorem StateOk.setMem {s : State} (h : StateOk s) (m : Memory) (hm : Memory.wf m = true) : StateOk { s with mem := m } := ⟨hm, h.2⟩

theorem StateOk.spreadAlias {s : State} (h : StateOk s) (line : Nat) : StateOk (s.spreadAlias line) := by
  unfold State.spreadAlias
  refine StateOk.foldl (fun t y ht => ?_) _ ?_
  · split
    · exact ht
    · split
      · refine OnlyCaches.ok (s := t) rfl ht ht.2.2.2.1 ⟨ht.2.2.2.2.1, fun k bs hk => ?_⟩
        simp only [Tbl.find_set] at hk
        split at hk
        · cases hk; simp
        · exact ht.2.2.2.2.2 k bs hk
      · split
        · exact ht
        · exact ht.setMem _ (Memory.wf_writeBytes _ _ _ ht.1)
  · exact h.congr rfl rfl rfl rfl rfl rfl

theorem StateOk.writeBack {s : State} (h : StateOk s) (line : Nat) : StateOk (s.writeBack line) := by
  have hl := h.leaveL1 line
  have he : StateOk { s.leaveL1 line with msc := (s.leaveL1 line).msc.erase line, counted := (s.leaveL1 line).counted.erase line } := by
    refine OnlyCaches.ok (s := s.leaveL1 line) rfl hl (fun l x hx => ?_) ⟨hl.2.2.2.2.1, fun k bs hk => ?_⟩
    · simp only [Tbl.find_erase] at hx
      split at hx
      · cases hx
      · exact hl.2.2.2.1 l x hx
    · simp only [Tbl.find_erase] at hk
      split at hk
      · cases hk
      · exact hl.2.2.2.2.2 k bs hk
  unfold State.writeBack
  dsimp only
  split
  · exact he.spreadAlias _
  · exact he

theorem StateOk.dropL1 {s : State} (h : StateOk s) (line : Nat) : StateOk (s.dropL1 line) := by
  unfold State.dropL1
  split
  · exact h
  · exact ⟨Memory.wf_writeBytes _ _ _ h.1, h.2.1, h.2.2.1, h.2.2.2.1, fun x hx => h.2.2.2.2.1 x (List.mem_filter.mp hx).1, h.2.2.2.2.2⟩

theorem StateOk.dropLine {s : State} (h : StateOk s) (line : Nat) : StateOk (s.dropLine line) := by
  unfold State.dropLine
  dsimp only
  split
  · refine ⟨Memory.wf_writeBytes _ _ _ h.1, h.2.1, h.2.2.1, fun l x hx => ?_, fun x hx => h.2.2.2.2.1 x (List.mem_filter.mp hx).1,
      fun k bs hk => ?_⟩
    · simp only [Tbl.find_erase] at hx
      split at hx
      · cases hx
      · exact h.2.2.2.1 l x hx
    · simp only [Tbl.find_erase] at hk
      split at hk
      · cases hk
      · exact h.2.2.2.2.2 k bs hk
  · exact h

theorem StateOk.evictLine {s : State} (h : StateOk s) (line : Nat) (all : Bool) : StateOk (s.evictLine line all) := by
  unfold State.evictLine
  split
  · exact h.leaveL1 _
  · dsimp only
    split
    · exact (h.writeBack _).dropLine _
    · exact h.writeBack _

/-! ## Memory -/

/-- A write changes memory, the caches' lines, and the poison marks of its own lines (R238, R321). -/
theorem Machine.State.writeAt_only (s : State) (key : Nat) (bs : List Byte) (core : Option Nat) :
    { s.writeAt key bs core with mem := s.mem, poison := s.poison, l1 := s.l1, msc := s.msc, counted := s.counted,
                                 aliasSeen := s.aliasSeen } = s := by
  have h := s.takeLines_only core (lineOf key) ((key % 64 + bs.length + 63) / 64)
  have := congrArg (fun t : State => { t with mem := s.mem, poison := s.poison }) h
  unfold State.writeAt
  dsimp only
  split <;> exact this

/-- One byte of memory after a write. -/
theorem Machine.State.read_writeAt (s : State) (h : StateOk s) (key : Nat) (bs : List Byte) (core : Option Nat) (k : Nat) :
    Memory.read (s.writeAt key bs core).mem k = if key ≤ k ∧ k < key + bs.length then bs.getD (k - key) 0 else Memory.read s.mem k := by
  rw [State.writeAt_mem, Memory.read_writeBytes _ h.1]

theorem StateOk.writeAt {s : State} (h : StateOk s) (key : Nat) (bs : List Byte) (core : Option Nat) : StateOk (s.writeAt key bs core) := by
  have ht := h.takeLines core (lineOf key) ((key % 64 + bs.length + 63) / 64)
  have hm := Memory.wf_writeBytes _ key bs ht.1
  unfold State.writeAt
  dsimp only
  split <;> exact ⟨hm, ht.2⟩

theorem StateOk.writePlace {s : State} (h : StateOk s) (p : Place) (bs : List Byte) : StateOk (s.writePlace p bs) := h.writeAt _ _ _

/-- Masked nibbles of a line change memory, the caches' lines and the line's poison mark, and nothing else (R181, R222). -/
theorem Machine.State.writeLine_only (s : State) (core : Option Nat) (line : Nat) (m : BitVec 128) (d : BitVec 512) :
    { s.writeLine core line m d with mem := s.mem, poison := s.poison, l1 := s.l1, msc := s.msc, counted := s.counted,
                                     aliasSeen := s.aliasSeen } = s := by
  have := congrArg (fun t : State => { t with mem := s.mem, poison := s.poison }) (s.takeLine_only core line)
  unfold State.writeLine State.setPoison
  dsimp only
  split <;> exact this

/-- The bytes of a line after a write of masked nibbles; every other byte of memory is as it was. -/
theorem Machine.State.writeLine_mem (s : State) (core : Option Nat) (line : Nat) (m : BitVec 128) (d : BitVec 512) :
    (s.writeLine core line m d).mem =
      Memory.writeBytes s.mem (line * 64) ((s.lineBytes line).zipIdx.map (fun (b, i) => lineByte m d i b)) := by
  unfold State.writeLine State.setPoison
  dsimp only
  split <;> simp

theorem StateOk.writeLine {s : State} (h : StateOk s) (core : Option Nat) (line : Nat) (m : BitVec 128) (d : BitVec 512) :
    StateOk (s.writeLine core line m d) := by
  have hm := Memory.wf_writeBytes _ (line * 64) ((s.lineBytes line).zipIdx.map (fun (b, i) => lineByte m d i b)) h.1
  unfold State.writeLine
  dsimp only
  split
  · exact ((h.takeLine core line).setPoison line false).setMem _ (by simpa [State.setPoison] using hm)
  · exact (h.takeLine core line).setMem _ (by simpa using hm)

/-- A counted read changes reader counts and, when a count ends, memory (R238). -/
theorem Machine.State.countRead_only (s : State) (line : Nat) : { s.countRead line with mem := s.mem, counted := s.counted } = s := by
  unfold State.countRead
  split
  · rfl
  · split <;> rfl

/-- A line with no reader count is read without an effect. -/
theorem Machine.State.countRead_none (s : State) (line : Nat) (h : s.counted.find line = none) : s.countRead line = s := by
  simp [State.countRead, h]

theorem StateOk.countRead {s : State} (h : StateOk s) (line : Nat) : StateOk (s.countRead line) := by
  unfold State.countRead
  obtain ⟨a, b, c, d, e⟩ := h
  split
  · exact ⟨a, b, c, d, e⟩
  · rename_i x hx
    split
    · refine ⟨Memory.wf_writeBytes _ _ _ a, b, c, fun l y hy => ?_, e⟩
      simp only [Tbl.find_erase] at hy
      split at hy
      · cases hy
      · exact d l y hy
    · refine ⟨a, b, c, fun l y hy => ?_, e⟩
      simp only [Tbl.find_set] at hy
      split at hy
      · cases hy; exact d _ x hx
      · exact d l y hy

theorem Machine.State.countReads_only (s : State) (lines : List Nat) :
    { s.countReads lines with mem := s.mem, counted := s.counted } = s := by
  unfold State.countReads
  split
  · rfl
  · generalize lines.dedup = l
    have : ∀ (l : List Nat) (t : State), { t with mem := s.mem, counted := s.counted } = s →
        { l.foldl State.countRead t with mem := s.mem, counted := s.counted } = s := by
      intro l
      induction l with
      | nil => exact fun _ ht => ht
      | cons x r ih =>
        intro t ht
        refine ih _ ?_
        rw [← ht]
        exact congrArg (fun u : State => { u with mem := s.mem, counted := s.counted }) (t.countRead_only x)
    exact this l s rfl

theorem StateOk.countReads {s : State} (h : StateOk s) (lines : List Nat) : StateOk (s.countReads lines) := by
  unfold State.countReads
  split
  · exact h
  · exact StateOk.foldl (fun _ x ht => ht.countRead x) _ h

/-! ## Translation -/

/-- A walk names a whole page (R204). -/
theorem Machine.State.walk_page {s : State} {die root va : Nat} {e : TlbEntry} (h : s.walk die root va = .ok e) : e.fa % 65536 = 0 := by
  have hp : ∀ w, pteFa w % 65536 = 0 := fun w => by simp [pteFa]
  have hs : ∀ w k, (pteFa w - k * 65536) % 65536 = 0 := fun w k => by simp only [pteFa]; omega
  unfold State.walk at h
  dsimp only at h
  split at h
  · simp at h
  split at h
  · simp at h
  split at h
  · simp at h
  split at h
  · simp at h
  split at h
  · split at h
    · simp at h
    · rw [← Except.ok.inj h]; exact hp _
  split at h
  · simp at h
  split at h
  · simp at h
  split at h
  · simp only [ne_eq, not_true_eq_false, decide_false, Bool.false_and, Bool.false_eq_true, if_false] at h
    rw [← Except.ok.inj h]; exact hp _
  all_goals
    split at h
    · rw [← Except.ok.inj h]; exact hs _ _
    · rw [← Except.ok.inj h]; exact hp _

/-- A page that a TLB gives is one of its entries. -/
theorem Machine.Die.cached_page {d : Die} (ht : WholePages d.tlb) (hl : ∀ c, WholePages (d.l1Tlb.getD c [])) {core : Option Nat}
    {ctx page : Nat} {e : TlbEntry} (h : d.cached core ctx page = some e) : e.fa % 65536 = 0 := by
  unfold Die.cached at h
  rcases Option.or_eq_some_iff.mp h with h | ⟨-, h⟩
  · cases core with
    | none => simp at h
    | some k => exact hl _ _ (List.mem_of_find?_eq_some h)
  · exact ht _ (List.mem_of_find?_eq_some h)

theorem Machine.State.pageOf_page {s : State} (hs : StateOk s) {die ctx va : Nat} {core : Option Nat} {e : TlbEntry}
    (h : s.pageOf die ctx va core = .ok e) : e.fa % 65536 = 0 := by
  unfold State.pageOf at h
  split at h
  · rename_i e' hf; cases h; exact Die.cached_page (hs.2.1 die).1 (hs.2.1 die).2 hf
  · split at h
    · rename_i e' hw; cases h; exact State.walk_page (e := e') hw
    · cases h

/-- A TLB that takes a whole page holds whole pages. -/
theorem WholePages.fill {l : List TlbEntry} (h : WholePages l) (size ctx page : Nat) {r : Except Nat TlbEntry}
    (hr : ∀ e, r = .ok e → e.fa % 65536 = 0) : WholePages (fillTlb l size ctx page r) := by
  unfold fillTlb
  split
  · exact h
  · split
    · rename_i e
      intro x hx
      rcases List.mem_cons.mp (List.mem_of_mem_take hx) with rfl | h'
      · exact hr _ rfl
      · exact h x h'
    · exact h

/-- Caching a translation changes the three caches of one die (R208). -/
theorem Machine.State.cacheXl_only (s : State) (die ctx : Nat) (va : Word) (x : Xl) (core : Option Nat) :
    { s.cacheXl die ctx va x core with dies := s.dies } = s ∧
    ∀ k, { (s.cacheXl die ctx va x core).die k with
             tlb := (s.die k).tlb, l1Tlb := (s.die k).l1Tlb, fmCache := (s.die k).fmCache } = s.die k := by
  refine ⟨rfl, fun k => ?_⟩
  unfold State.cacheXl
  by_cases hk : k = die
  · subst hk; simp
  · simp [State.die_setDie_ne _ _ _ _ hk]

theorem StateOk.cacheXl {s : State} (h : StateOk s) (die ctx : Nat) (va : Word) (x : Xl) (core : Option Nat) :
    StateOk (s.cacheXl die ctx va x core) := by
  have hp : ∀ e, s.pageOf die ctx va.toNat core = .ok e → e.fa % 65536 = 0 := fun e he => State.pageOf_page h he
  unfold State.cacheXl
  refine h.setDie _ _ ((h.2.1 die).1.fill _ _ _ hp) fun c => ?_
  dsimp only
  split
  · rw [Tbl.getD_set]
    split
    · exact ((h.2.1 die).2 _).fill _ _ _ hp
    · exact (h.2.1 die).2 c
  · exact (h.2.1 die).2 c

/-- Two states of a die that differ in the tracker and the vector clock alone. -/
def OnlyCounts (d e : Die) : Prop :=
  { e with clock := d.clock, counters := d.counters, crossings := d.crossings, moves := d.moves, periodStart := d.periodStart,
           periodLen := d.periodLen } = d

theorem OnlyCounts.refl (d : Die) : OnlyCounts d d := rfl

theorem OnlyCounts.trans {d e f : Die} (h : OnlyCounts d e) (g : OnlyCounts e f) : OnlyCounts d f := by
  unfold OnlyCounts at *
  conv_rhs => rw [← h, ← g]

theorem OnlyCounts.tlb {d e : Die} (h : OnlyCounts d e) : e.tlb = d.tlb := by
  have := congrArg Die.tlb h
  exact this
theorem OnlyCounts.l1Tlb {d e : Die} (h : OnlyCounts d e) : e.l1Tlb = d.l1Tlb := by
  have := congrArg Die.l1Tlb h
  exact this

theorem Machine.Die.endDue_only (d : Die) : OnlyCounts d d.endDue := by
  unfold Die.endDue
  dsimp only
  split <;> rfl

theorem Machine.Die.countAt_only (d : Die) (src frame n : Nat) (c : Bool) : OnlyCounts d (d.countAt src frame n c) := rfl

/-- A die that differs in its tracker and clock alone. -/
theorem State.die_setDie_only {s : State} {die : Nat} {x : Die} (h : OnlyCounts (s.die die) x) (k : Nat) :
    OnlyCounts (s.die k) ((s.setDie die x).die k) := by
  by_cases hk : k = die
  · subst hk; simpa using h
  · rw [State.die_setDie_ne _ _ _ _ hk]; exact .refl _

theorem StateOk.setDie_only {s : State} (hs : StateOk s) {die : Nat} {x : Die} (h : OnlyCounts (s.die die) x) : StateOk (s.setDie die x) :=
  hs.setDie_same _ _ h.tlb h.l1Tlb

/-- Counting an access leaves the state as it is, or changes the tracker of one die (R218, R280). -/
theorem Machine.State.countAccess_cases (s : State) (die src : Nat) (x : Xl) :
    s.countAccess die src x = s ∨ ∃ d, OnlyCounts (s.die die) d ∧ s.countAccess die src x = s.setDie die d := by
  unfold State.countAccess
  split
  · exact .inl rfl
  · refine .inr ⟨_, ?_, rfl⟩
    repeat' split
    all_goals exact (s.die die).endDue_only

theorem StateOk.countAccess {s : State} (h : StateOk s) (die src : Nat) (x : Xl) : StateOk (s.countAccess die src x) := by
  obtain e | ⟨d, hd, e⟩ := s.countAccess_cases die src x
  · rw [e]; exact h
  · rw [e]; exact h.setDie_only hd

theorem StateOk.see {s : State} (h : StateOk s) (src : Nat) (va : Word) (x : Xl) : StateOk (s.see src va x) := h.cacheXl _ _ _ _ _

/-- A load is counted at once, or joins the strand's buffer behind the stores that it follows (R262, R280). -/
theorem Machine.State.countAfter_cases (s : State) (src : Nat) (strip : Option Nat) (fa : Nat) (f : Fme) :
    s.countAfter src strip fa f = s.countAccess (dieOf src) src ⟨fa / 65536, fa, f, none⟩ ∨
    ∃ n : BufLine, n.op = .count ∧ n.mask = 0 ∧
      s.countAfter src strip fa f = s.updAt src (fun t => { t with buf := bufPut t.buf n }) := by
  unfold State.countAfter
  dsimp only
  split
  · exact .inr ⟨_, rfl, rfl, rfl⟩
  · exact .inl rfl

theorem StateOk.countAfter {s : State} (h : StateOk s) (src : Nat) (strip : Option Nat) (fa : Nat) (f : Fme) :
    StateOk (s.countAfter src strip fa f) := by
  obtain e | ⟨n, -, -, e⟩ := s.countAfter_cases src strip fa f
  · rw [e]; exact h.countAccess _ _ _
  · rw [e]; exact h.updAt _ _

theorem StateOk.touch {s : State} (h : StateOk s) (src : Nat) (strip : Option Nat) (va : Word) (x : Xl) : StateOk (s.touch src strip va x) :=
  (h.see _ _ _).countAfter _ _ _ _

theorem StateOk.touchScalar {s : State} (h : StateOk s) (src : Nat) (va : Word) (x : Xl) : StateOk (s.touchScalar src va x) := by
  unfold State.touchScalar
  dsimp only
  split
  · exact (h.see _ _ _).updAt _ _
  · exact (h.see _ _ _).countAfter _ _ _ _

theorem StateOk.countBehind {s : State} (h : StateOk s) (src : Nat) (strip : Option Nat) (fas : List Nat) :
    StateOk (s.countBehind src strip fas) := StateOk.foldl (fun _ _ ht => ht.countAfter _ _ _ _) _ h

/-- Where a die's tracker does not count a frame, the bookkeeping of a load is the caching of its translation (R208, R218). -/
theorem Machine.State.touch_untracked (s : State) (src : Nat) (strip : Option Nat) (va : Word) (x : Xl)
    (h : ((s.see src va x).die (dieOf src)).tracks x.fme = false) : s.touch src strip va x = s.see src va x := by
  simp [State.touch, State.countAfter, State.countAccess, h]

/-! ## Stores on their way -/

/-- What writes, and lines that leave the caches, may change: memory, its poison marks, and the caches' lines. -/
def OnlyBytes (s t : State) : Prop :=
  { t with mem := s.mem, poison := s.poison, l1 := s.l1, msc := s.msc, counted := s.counted, aliasSeen := s.aliasSeen,
           aliasMem := s.aliasMem } = s

theorem OnlyBytes.refl (s : State) : OnlyBytes s s := rfl

theorem OnlyBytes.trans {s t u : State} (h : OnlyBytes s t) (g : OnlyBytes t u) : OnlyBytes s u := by
  unfold OnlyBytes at *
  conv_rhs => rw [← h, ← g]

theorem OnlyCaches.bytes {s t : State} (h : OnlyCaches s t) : OnlyBytes s t := by
  have := congrArg (fun u : State => { u with mem := s.mem, poison := s.poison, aliasMem := s.aliasMem }) h
  exact this

theorem OnlyBytes.die {s t : State} (h : OnlyBytes s t) (k : Nat) : t.die k = s.die k := by
  have e : t.dies = s.dies := by have := congrArg State.dies h; exact this
  simp [State.die, e]

theorem OnlyBytes.foldl {β : Type} {f : State → β → State} (hf : ∀ t x, OnlyBytes t (f t x)) (l : List β) (s : State) :
    OnlyBytes s (l.foldl f s) := by
  induction l generalizing s with
  | nil => exact .refl s
  | cons x r ih => exact (hf s x).trans (ih _)

theorem Machine.State.writeAt_bytes (s : State) (key : Nat) (bs : List Byte) (core : Option Nat) : OnlyBytes s (s.writeAt key bs core) := by
  have := congrArg (fun u : State => { u with aliasMem := s.aliasMem }) (s.writeAt_only key bs core)
  exact this

theorem Machine.State.writeLine_bytes (s : State) (core : Option Nat) (line : Nat) (m : BitVec 128) (d : BitVec 512) :
    OnlyBytes s (s.writeLine core line m d) := by
  have := congrArg (fun u : State => { u with aliasMem := s.aliasMem }) (s.writeLine_only core line m d)
  exact this

theorem Machine.State.spreadAlias_only (s : State) (line : Nat) : OnlyBytes s (s.spreadAlias line) := by
  unfold State.spreadAlias
  dsimp only
  refine OnlyBytes.trans ?_ (OnlyBytes.foldl (fun t y => ?_) _ _)
  · rfl
  · split
    · rfl
    · split
      · rfl
      · split <;> rfl

theorem Machine.State.writeBack_only (s : State) (line : Nat) : OnlyBytes s (s.writeBack line) := by
  unfold State.writeBack
  dsimp only
  have h := (s.leaveL1_only line).bytes
  split
  · refine OnlyBytes.trans ?_ (State.spreadAlias_only _ _)
    exact h.trans rfl
  · exact h.trans rfl

theorem Machine.State.dropLine_only (s : State) (line : Nat) : OnlyBytes s (s.dropLine line) := by
  unfold State.dropLine
  dsimp only
  split <;> rfl

theorem Machine.State.evictLine_only (s : State) (line : Nat) (all : Bool) : OnlyBytes s (s.evictLine line all) := by
  unfold State.evictLine
  split
  · exact (s.leaveL1_only line).bytes
  · dsimp only
    split
    · exact (s.writeBack_only line).trans (State.dropLine_only _ _)
    · exact s.writeBack_only line

/-- What performing stores may change: memory, the caches' lines and poison marks, the ports' requests, the dies' clocks and
trackers, and the writes in flight. -/
def Traffic (s t : State) : Prop :=
  { t with mem := s.mem, counted := s.counted, l1 := s.l1, msc := s.msc, aliasSeen := s.aliasSeen, aliasMem := s.aliasMem,
           poison := s.poison, ports := s.ports, dies := s.dies, flyWrites := s.flyWrites } = s ∧
  ∀ k, OnlyCounts (s.die k) (t.die k)

theorem Traffic.refl (s : State) : Traffic s s := ⟨rfl, fun _ => rfl⟩

theorem Traffic.trans {s t u : State} (h : Traffic s t) (g : Traffic t u) : Traffic s u := by
  refine ⟨?_, fun k => (h.2 k).trans (g.2 k)⟩
  conv_rhs => rw [← h.1, ← g.1]

theorem Traffic.foldl {β : Type} {f : State → β → State} (hf : ∀ t x, Traffic t (f t x)) (l : List β) (s : State) :
    Traffic s (l.foldl f s) := by
  induction l generalizing s with
  | nil => exact .refl s
  | cons x r ih => exact (hf s x).trans (ih _)

/-- A state that differs in memory and the caches alone differs in traffic. -/
theorem OnlyBytes.traffic {s t : State} (h : OnlyBytes s t) : Traffic s t := by
  refine ⟨?_, fun k => by rw [h.die]; exact .refl _⟩
  exact congrArg (fun u : State => { u with ports := s.ports, dies := s.dies, flyWrites := s.flyWrites }) h

/-- A die whose clock or tracker alone is set. -/
theorem Traffic.setDie {s : State} (k : Nat) (x : Die) (h : OnlyCounts (s.die k) x) : Traffic s (s.setDie k x) :=
  ⟨rfl, State.die_setDie_only h⟩

theorem Machine.Die.sent_only (d : Die) (die : Nat) : OnlyCounts d (d.sent die) := rfl
theorem Machine.Die.merge_only (d : Die) (clock : List Nat) : OnlyCounts d (d.merge clock) := rfl

theorem Machine.State.linkNote_only (s : State) (src : Nat) (va : Word) (p : Place) (copy : Option Nat) :
    { s.linkNote src va p copy with ports := s.ports } = s := by
  unfold State.linkNote
  split <;> rfl

theorem Machine.State.linkNote_traffic (s : State) (src : Nat) (va : Word) (p : Place) (copy : Option Nat) :
    Traffic s (s.linkNote src va p copy) := by
  unfold State.linkNote
  split <;> exact ⟨rfl, fun _ => rfl⟩

theorem StateOk.linkNote {s : State} (h : StateOk s) (src : Nat) (va : Word) (p : Place) (copy : Option Nat) :
    StateOk (s.linkNote src va p copy) := by
  unfold State.linkNote
  split <;> exact h

/-- A write that arrives is masked nibbles of one line, and its clock (R181, R268). -/
theorem Machine.State.applyFly_cases (s : State) (f : FlyWrite) : ∃ (u : State) (d : Die),
    u = { s with flyWrites := s.flyWrites.erase f } ∧ OnlyCounts (s.die f.home) d ∧
    (u.writeLine f.core f.line f.mask f.data).die f.home = s.die f.home ∧
    s.applyFly f = (u.writeLine f.core f.line f.mask f.data).setDie f.home d :=
  ⟨_, _, rfl, Die.merge_only _ _, (State.writeLine_bytes _ _ _ _ _).die _, rfl⟩

theorem Machine.State.applyFly_traffic (s : State) (f : FlyWrite) : Traffic s (s.applyFly f) := by
  obtain ⟨u, d, hu, hd, hk, e⟩ := s.applyFly_cases f
  have h : Traffic s u := by subst hu; exact ⟨rfl, fun _ => rfl⟩
  rw [e]
  exact (h.trans (State.writeLine_bytes _ _ _ _ _).traffic).trans (Traffic.setDie _ _ (hk ▸ hd))

theorem StateOk.applyFly {s : State} (h : StateOk s) (f : FlyWrite) : StateOk (s.applyFly f) := by
  obtain ⟨u, d, hu, hd, hk, e⟩ := s.applyFly_cases f
  have hs : StateOk u := by subst hu; exact h
  rw [e]
  exact (hs.writeLine _ _ _ _).setDie_only (hk ▸ hd)

theorem Machine.State.landWrites_traffic (s : State) (sel : FlyWrite → Bool) : Traffic s (s.landWrites sel) := by
  unfold State.landWrites
  split
  · refine Traffic.foldl (fun t f => ?_) _ _
    split
    · exact .refl t
    · exact t.applyFly_traffic f
  · exact .refl s

theorem StateOk.landWrites {s : State} (h : StateOk s) (sel : FlyWrite → Bool) : StateOk (s.landWrites sel) := by
  unfold State.landWrites
  split
  · exact StateOk.foldl (fun t f ht => StateOk.ite ht (ht.applyFly f)) _ h
  · exact h

/-- With nothing selected nothing arrives. -/
theorem Machine.State.landWrites_none (s : State) (sel : FlyWrite → Bool) (h : s.flyWrites.any sel = false) : s.landWrites sel = s := by
  simp [State.landWrites, h]

theorem Machine.State.clockTo_traffic (s : State) (die : Nat) (p : Place) : Traffic s (s.clockTo die p) := by
  unfold State.clockTo State.payOwed
  have h := s.landWrites_traffic (s.owed die p)
  dsimp only
  split
  · exact h
  · exact (h.trans (Traffic.setDie die _ (Die.sent_only _ die))).trans (Traffic.setDie p.home _ (Die.merge_only _ _))

theorem StateOk.clockTo {s : State} (h : StateOk s) (die : Nat) (p : Place) : StateOk (s.clockTo die p) := by
  unfold State.clockTo State.payOwed
  have hl := h.landWrites (s.owed die p)
  dsimp only
  split
  · exact hl
  · exact (hl.setDie_only (Die.sent_only _ die)).setDie_only (Die.merge_only _ _)

/-- A write to its own die's home, with nothing owed there, needs no clock. -/
theorem Machine.State.clockTo_home (s : State) (die : Nat) (p : Place) (hp : p.home = die) (h : s.flyWrites.any (s.owed die p) = false) :
    s.clockTo die p = s := by
  simp [State.clockTo, State.payOwed, s.landWrites_none _ h, hp]

theorem Machine.State.clockFrom_traffic (s : State) (die : Nat) (p : Place) : Traffic s (s.clockFrom die p) := by
  unfold State.clockFrom
  split
  · exact .refl s
  · exact Traffic.setDie _ _ rfl

theorem StateOk.clockFrom {s : State} (h : StateOk s) (die : Nat) (p : Place) : StateOk (s.clockFrom die p) := by
  unfold State.clockFrom
  split
  · exact h
  · exact h.setDie_same _ _ rfl rfl

theorem Machine.State.seeLine_only (s : State) (line : Nat) : { s.seeLine line with aliasSeen := s.aliasSeen } = s := by
  unfold State.seeLine
  split <;> rfl

theorem StateOk.seeLine {s : State} (h : StateOk s) (line : Nat) : StateOk (s.seeLine line) := by
  unfold State.seeLine
  split <;> exact h

/-- What reaching places does beside giving their bytes is traffic (R268, R273). -/
theorem Machine.State.meetLines_traffic (s : State) (die : Nat) (ps : List Place) : Traffic s (s.meetLines die ps) := by
  refine Traffic.foldl (fun t p => (t.clockFrom_traffic die p).trans (OnlyBytes.traffic ?_)) _ _
  exact congrArg (fun u : State => { u with mem := (t.clockFrom die p).mem, poison := (t.clockFrom die p).poison, l1 := (t.clockFrom die p).l1,
                                            msc := (t.clockFrom die p).msc, counted := (t.clockFrom die p).counted,
                                            aliasMem := (t.clockFrom die p).aliasMem })
    ((t.clockFrom die p).seeLine_only (lineOf p.key))

theorem StateOk.meetLines {s : State} (h : StateOk s) (die : Nat) (ps : List Place) : StateOk (s.meetLines die ps) :=
  StateOk.foldl (fun _ _ ht => (ht.clockFrom _ _).seeLine _) _ h

/-- What reading places does beside giving their bytes is traffic (R238, R268, R273). -/
theorem Machine.State.readLines_traffic (s : State) (die : Nat) (ps : List Place) : Traffic s (s.readLines die ps) := by
  refine Traffic.trans (OnlyBytes.traffic ?_) (State.meetLines_traffic _ die ps)
  exact congrArg (fun t : State => { t with poison := s.poison, l1 := s.l1, msc := s.msc, aliasSeen := s.aliasSeen, aliasMem := s.aliasMem })
    (s.countReads_only _)

theorem StateOk.readLines {s : State} (h : StateOk s) (die : Nat) (ps : List Place) : StateOk (s.readLines die ps) :=
  (h.countReads _).meetLines _ _

theorem Machine.State.sendWrite_traffic (s : State) (src : Nat) (va : Word) (p : Place) (core : Option Nat) (how : How) (m : BitVec 128)
    (d : BitVec 512) : Traffic s (s.sendWrite src va p core how m d) := by
  unfold State.sendWrite
  dsimp only
  split
  · exact ⟨rfl, fun _ => rfl⟩
  · exact (Traffic.setDie (s := s) (dieOf src) _ (Die.sent_only _ (dieOf src))).trans ⟨rfl, fun _ => rfl⟩

theorem StateOk.sendWrite {s : State} (h : StateOk s) (src : Nat) (va : Word) (p : Place) (core : Option Nat) (how : How) (m : BitVec 128)
    (d : BitVec 512) : StateOk (s.sendWrite src va p core how m d) := by
  unfold State.sendWrite
  dsimp only
  split
  · exact h
  · exact h.setDie_only (Die.sent_only _ (dieOf src))

theorem Machine.State.writeLine_traffic (s : State) (core : Option Nat) (line : Nat) (m : BitVec 128) (d : BitVec 512) :
    Traffic s (s.writeLine core line m d) := (s.writeLine_bytes core line m d).traffic

theorem Machine.State.writePlace_traffic (s : State) (p : Place) (bs : List Byte) : Traffic s (s.writePlace p bs) :=
  (s.writeAt_bytes p.key bs none).traffic

/-- A store within a line is performed at its home, or leaves for it (R222, R264, R268): nothing but traffic. -/
theorem Machine.State.performBits_traffic (s : State) (src : Nat) (va : Word) (p : Place) (how : How) (m : BitVec 128) (d : BitVec 512) :
    Traffic s (s.performBits src va p how m d) := by
  unfold State.performBits
  dsimp only
  split
  · exact (s.linkNote_traffic _ _ _ _).trans (State.sendWrite_traffic _ _ _ _ _ _ _ _)
  · exact ((s.linkNote_traffic _ _ _ _).trans (State.clockTo_traffic _ _ _)).trans (State.writeLine_traffic _ _ _ _ _)

theorem StateOk.performBits {s : State} (h : StateOk s) (src : Nat) (va : Word) (p : Place) (how : How) (m : BitVec 128) (d : BitVec 512) :
    StateOk (s.performBits src va p how m d) := by
  unfold State.performBits
  dsimp only
  split
  · exact (h.linkNote _ _ _ _).sendWrite _ _ _ _ _ _ _
  · exact ((h.linkNote _ _ _ _).clockTo _ _).writeLine _ _ _ _

/-- A store to its own die's home, with nothing in flight that it follows, is in memory at once. -/
theorem Machine.State.performBits_home (s : State) (src : Nat) (va : Word) (p : Place) (how : How) (m : BitVec 128) (d : BitVec 512)
    (hp : p.home = dieOf src) (hf : s.flying src = false) (ho : s.flyWrites.any (s.owed (dieOf src) p) = false) :
    s.performBits src va p how m d = (s.linkNote src (va + BitVec.ofNat 64 (maskFirst m)) (p.plus (maskFirst m))).writeLine
      (s.l1For src (lineOf p.key) how.stream) (lineOf p.key) m d := by
  have hk : ∀ x q, (s.linkNote src x q).flying src = false ∧ (s.linkNote src x q).l1For src (lineOf p.key) how.stream = s.l1For src (lineOf p.key) how.stream
      ∧ (s.linkNote src x q).flyWrites.any ((s.linkNote src x q).owed (dieOf src) p) = false := by
    intro x q
    unfold State.linkNote
    split <;> exact ⟨hf, rfl, ho⟩
  have h := hk (va + BitVec.ofNat 64 (maskFirst m)) (p.plus (maskFirst m))
  simp only [State.performBits, hp, ne_eq, not_true_eq_false, decide_false, Bool.false_and, h.1, h.2.1, h.2.2, Bool.or_false,
    Bool.false_eq_true, if_false]
  rw [State.clockTo_home _ _ _ hp h.2.2]

theorem Machine.State.performNow_traffic (s : State) (src : Nat) (va : Word) (p : Place) (bs : List Byte) (copy : Option Nat) :
    Traffic s (s.performNow src va p bs copy) := by
  unfold State.performNow
  refine Traffic.trans (Traffic.trans ?_ (State.clockTo_traffic _ _ _)) (State.writePlace_traffic _ _ _)
  split
  · exact s.linkNote_traffic _ _ _ _
  · exact .refl s

theorem StateOk.performNow {s : State} (h : StateOk s) (src : Nat) (va : Word) (p : Place) (bs : List Byte) (copy : Option Nat) :
    StateOk (s.performNow src va p bs copy) :=
  ((StateOk.ite (h.linkNote _ _ _ _) h).clockTo _ _).writePlace _ _

theorem Machine.State.countAccess_traffic (s : State) (die src : Nat) (x : Xl) : Traffic s (s.countAccess die src x) := by
  obtain e | ⟨d, hd, e⟩ := s.countAccess_cases die src x
  · rw [e]; exact .refl s
  · rw [e]; exact Traffic.setDie _ _ hd

theorem Machine.State.countStores_traffic (s : State) (src fa n : Nat) : Traffic s (s.countStores src fa n) := by
  induction n generalizing s with
  | zero => exact .refl s
  | succ k ih => exact (s.countAccess_traffic _ _ _).trans (ih _)

theorem StateOk.countStores {s : State} (h : StateOk s) (src fa n : Nat) : StateOk (s.countStores src fa n) := by
  induction n generalizing s with
  | zero => exact h
  | succ k ih => exact ih (h.countAccess _ _ _)

theorem Machine.State.flushLine_traffic (s : State) (src : Nat) (b : BufLine) (all : Bool) : Traffic s (s.flushLine src b all) := by
  unfold State.flushLine
  split
  · exact .refl s
  · exact (s.landWrites_traffic _).trans (State.evictLine_only _ _ _).traffic

theorem StateOk.flushLine {s : State} (h : StateOk s) (src : Nat) (b : BufLine) (all : Bool) : StateOk (s.flushLine src b all) := by
  unfold State.flushLine
  split
  · exact h
  · exact (h.landWrites _).evictLine _ _

/-- An entry of the buffer is performed whole, only counts, writes its line back, or fails with a cause and changes nothing (R244, R278,
R311, R315). -/
theorem Machine.State.performLine_cases (s : State) (src : Nat) (b : BufLine) :
    (∃ all, b.op = .flush all ∧ s.performLine src b = (s.flushLine src b all, none)) ∨
    ((b.op = .count ∨ (b.op = .store ∧ b.mask = 0)) ∧ s.performLine src b = (s.countStores src b.fa b.elems, none)) ∨
    (∃ c, b.op = .store ∧ s.performLine src b = (s, some ⟨c, b.kind, b.first⟩)) ∨
    ∃ p, b.op = .store ∧ s.bufPlace src b = .ok p ∧
      s.performLine src b = ((s.performBits src b.va p b.how b.mask b.data).countStores src b.fa b.elems, none) := by
  unfold State.performLine
  split
  · exact .inl ⟨_, ‹_›, rfl⟩
  · exact .inr (.inl ⟨.inl ‹_›, rfl⟩)
  · rename_i ho
    split
    · exact .inr (.inl ⟨.inr ⟨ho, ‹_›⟩, rfl⟩)
    · split
      · exact .inr (.inr (.inl ⟨_, ho, rfl⟩))
      · rename_i p hp
        split
        · exact .inr (.inr (.inl ⟨_, ho, rfl⟩))
        · exact .inr (.inr (.inr ⟨p, ho, hp, rfl⟩))

theorem Machine.State.performLine_traffic (s : State) (src : Nat) (b : BufLine) : Traffic s (s.performLine src b).1 := by
  obtain ⟨a, -, h⟩ | ⟨-, h⟩ | ⟨c, -, h⟩ | ⟨p, -, -, h⟩ := s.performLine_cases src b
  · rw [h]; exact s.flushLine_traffic _ _ _
  · rw [h]; exact s.countStores_traffic _ _ _
  · rw [h]; exact .refl s
  · rw [h]; exact (s.performBits_traffic _ _ _ _ _ _).trans (State.countStores_traffic _ _ _ _)

theorem StateOk.performLine {s : State} (hs : StateOk s) (src : Nat) (b : BufLine) : StateOk (s.performLine src b).1 := by
  obtain ⟨a, -, h⟩ | ⟨-, h⟩ | ⟨c, -, h⟩ | ⟨p, -, -, h⟩ := s.performLine_cases src b
  · rw [h]; exact hs.flushLine _ _ _
  · rw [h]; exact hs.countStores _ _ _
  · rw [h]; exact hs
  · rw [h]; exact (hs.performBits _ _ _ _ _ _).countStores _ _ _

theorem Machine.State.performLines_traffic (s : State) (src : Nat) (bs : List BufLine) : Traffic s (s.performLines src bs).1 := by
  induction bs generalizing s with
  | nil => exact .refl s
  | cons b r ih => exact (s.performLine_traffic src b).trans (ih _)

theorem StateOk.performLines {s : State} (h : StateOk s) (src : Nat) (bs : List BufLine) : StateOk (s.performLines src bs).1 := by
  induction bs generalizing s with
  | nil => exact h
  | cons b r ih => exact ih (h.performLine src b)

/-- A write at a virtual address of a context either fails or is one write of memory, with the clock of its die (R216, R246, R268). -/
theorem Machine.State.ctxWrite_cases {s t : State} {die ctx : Nat} {va : Word} {bs : List Byte} (h : s.ctxWrite die ctx va bs = .ok t) :
    ∃ p, t = (s.clockTo die p).writePlace p bs := by
  unfold State.ctxWrite at h
  repeat' split at h
  all_goals first | (cases h; done) | exact ⟨_, by cases h; rfl⟩

theorem StateOk.ctxWrite {s t : State} (hs : StateOk s) {die ctx : Nat} {va : Word} {bs : List Byte}
    (h : s.ctxWrite die ctx va bs = .ok t) : StateOk t := by
  obtain ⟨p, rfl⟩ := State.ctxWrite_cases h
  exact (hs.clockTo _ _).writePlace _ _

/-! ## Trace -/

/-- A trace record changes the trace of its die alone (R348). -/
theorem Machine.State.traceAt_only (s : State) (die : Nat) (r : TraceRec) :
    { s.traceAt die r with dies := s.dies } = s ∧
    ∀ k, { (s.traceAt die r).die k with trace := (s.die k).trace, dropped := (s.die k).dropped, firstDrop := (s.die k).firstDrop }
      = s.die k := by
  unfold State.traceAt
  dsimp only
  constructor
  · split <;> rfl
  · intro k
    by_cases hk : k = die
    · subst hk; split <;> simp
    · split <;> simp [State.die_setDie_ne _ _ _ _ hk]

theorem StateOk.traceAt {s : State} (h : StateOk s) (die : Nat) (r : TraceRec) : StateOk (s.traceAt die r) := by
  unfold State.traceAt
  dsimp only
  split <;> exact h.setDie_same _ _ rfl rfl

theorem StateOk.trace {s : State} (h : StateOk s) (src kind : Nat) (body : List Word) : StateOk (s.trace src kind body) := by
  unfold State.trace
  dsimp only
  repeat' split
  all_goals first | exact h | exact h.traceAt _ _

theorem StateOk.traceStop {s : State} (h : StateOk s) (src : Nat) (r : FRec) : StateOk (s.traceStop src r) := by
  unfold State.traceStop
  split
  · exact h.trace _ _ _
  · exact h

/-! ## Images, counters and leaving the slots -/

theorem StateOk.ctxWriteSpan {s t : State} (hs : StateOk s) {die ctx : Nat} {va : Word} {bs : List Byte} {fuel : Nat}
    (h : s.ctxWriteSpan die ctx va bs fuel = .ok t) : StateOk t := by
  induction fuel generalizing s va bs with
  | zero => cases h; exact hs
  | succ k ih =>
    unfold State.ctxWriteSpan at h
    split at h
    · cases h; exact hs
    · dsimp only at h
      split at h
      · cases h
      · rename_i s1 h1
        exact ih (hs.ctxWrite h1) h

theorem StateOk.poisonSlots {s : State} (h : StateOk s) (die ctx : Nat) (va : Word) (l : List Nat) :
    StateOk (s.poisonSlots die ctx va l) := by
  induction l generalizing s with
  | nil => exact h
  | cons x r ih =>
    unfold State.poisonSlots
    split
    · split
      · exact ih (h.setPoison _ _)
      · exact ih h
    · exact ih h

theorem StateOk.saveImage {s t : State} (hs : StateOk s) {src : Nat} (h : s.saveImage src = .ok t) : StateOk t := by
  unfold State.saveImage at h
  dsimp only at h
  split at h
  · cases h
  split at h
  · cases h
  split at h
  · cases h
  · rename_i s1 h1
    cases h
    split
    · exact (hs.ctxWriteSpan h1).poisonSlots _ _ _ _
    · exact hs.ctxWriteSpan h1

theorem StateOk.writeCounter {s : State} (h : StateOk s) (src k : Nat) : StateOk (s.writeCounter src k) := by
  unfold State.writeCounter
  dsimp only
  split
  · exact h
  · refine StateOk.updAt ?_ _ _
    split
    · rename_i h1; exact h.ctxWrite h1
    · exact h

theorem StateOk.finishBarrier {s : State} (h : StateOk s) (src : Nat) : StateOk (s.finishBarrier src) := by
  unfold State.finishBarrier
  dsimp only
  repeat' split
  all_goals exact h

theorem StateOk.finishBarriers {s : State} (h : StateOk s) (l : List Nat) : StateOk (s.finishBarriers l) :=
  StateOk.foldl (fun _ x ht => ht.finishBarrier x) _ h

theorem StateOk.parkAll {s : State} (h : StateOk s) (l : List Nat) : StateOk (s.parkAll l) :=
  StateOk.foldl (fun _ x ht => (ht.finishBarrier x).updAt _ _) _ h

theorem StateOk.storeNow {s : State} (h : StateOk s) (src : Nat) (va : Word) (fa : Nat) (rep : Option Nat) (p : Place) (how : How)
    (m : BitVec 128) (d : BitVec 512) : StateOk (s.storeNow src va fa rep p how m d) := by
  have hp := (h.performBits src va p how m d).countStores src fa how.elems
  unfold State.storeNow
  dsimp only
  split
  · exact hp.updAt _ _
  · exact hp

theorem StateOk.takeQueued {s : State} (h : StateOk s) (src : Nat) (q : QStore) (fails : List StoreFail) :
    StateOk (s.takeQueued src q fails).1 := by
  unfold State.takeQueued
  split
  · exact h
  · refine StateOk.countBehind ?_ _ _ _
    split
    · exact h.storeNow _ _ _ _ _ _ _ _
    · exact h.updAt _ _

/-- A fold of a state with something carried along keeps StateOk when its step does. -/
theorem StateOk.foldlWith {α β : Type} {f : State × α → β → State × α} (hf : ∀ p x, StateOk p.1 → StateOk (f p x).1) (l : List β)
    {p : State × α} (h : StateOk p.1) : StateOk (l.foldl f p).1 := by
  induction l generalizing p with
  | nil => exact h
  | cons x r ih => exact ih (hf _ _ h)

theorem StateOk.flushStores {s : State} (h : StateOk s) (src : Nat) : StateOk (s.flushStores src).1 := by
  unfold State.flushStores
  dsimp only
  refine StateOk.updAt ?_ _ _
  refine StateOk.performLines ?_ _ _
  exact StateOk.foldlWith (fun p q hp => hp.takeQueued src q p.2) _ h

theorem StateOk.profileLane {s : State} (h : StateOk s) (src : Nat) (c : Convoy) (p : Sample) (lane groups elems : Nat) :
    StateOk (s.profileLane src c p lane groups elems) := by
  unfold State.profileLane
  have hs : StateOk { s with profDraws := s.profDraws + 4 } := h
  exact hs.traceAt _ _

theorem StateOk.profile {s : State} (h : StateOk s) (src : Nat) (c : Convoy) (p : Sample) (did : Nat → Bool) :
    StateOk (s.profile src c p did) := by
  unfold State.profile
  exact StateOk.foldl (fun _ _ ht => StateOk.ite ht (ht.profileLane _ _ _ _ _ _)) _ h

theorem StateOk.profileTo {s : State} (h : StateOk s) (src : Nat) (c : Convoy) (k : Nat) (did : Nat → Bool) :
    StateOk (s.profileTo src c k did) :=
  StateOk.foldl (fun _ _ ht => StateOk.ite (ht.profile _ _ _ _) (StateOk.ite (ht.profile _ _ _ _) ht)) _ h

theorem StateOk.profileKept {s : State} (h : StateOk s) (src : Nat) (l : List Convoy) : StateOk (s.profileKept src l) := by
  induction l generalizing s with
  | nil => exact h
  | cons c r ih =>
    unfold State.profileKept
    split
    · exact ih (h.profileTo _ _ _ _)
    · split <;> exact h.profileTo _ _ _ _

theorem StateOk.traceRetire {s : State} (h : StateOk s) (src : Nat) (c : Convoy) : StateOk (s.traceRetire src c) := by
  have hp := h.profileTo src c c.words.length (fun _ => false)
  unfold State.traceRetire
  dsimp only
  split
  · exact hp.trace _ _ _
  · exact hp

theorem StateOk.retireDone {s : State} (h : StateOk s) (src fuel : Nat) : StateOk (s.retireDone src fuel) := by
  induction fuel generalizing s with
  | zero => exact h
  | succ k ih =>
    unfold State.retireDone
    split
    · exact h
    · split
      · exact ih ((h.traceRetire _ _).updAt _ _)
      · exact h

theorem StateOk.writeCounters {s : State} (h : StateOk s) (src : Nat) (l : List Nat) :
    StateOk (l.foldl (fun s k => s.writeCounter src k) s) := StateOk.foldl (fun _ k ht => ht.writeCounter src k) _ h

theorem StateOk.flush {s : State} (h : StateOk s) (src : Nat) : StateOk (s.flush src).1 := by
  have hf := h.flushStores src
  unfold State.flush
  generalize s.flushStores src = p at hf
  obtain ⟨u, fails⟩ := p
  have hc := (hf.updAt src (fun t => t.landAll t.lands.length)).writeCounters src (List.range 3)
  dsimp only at hc ⊢
  generalize (List.range 3).foldl (fun s k => State.writeCounter s src k) (u.updAt src (fun t => t.landAll t.lands.length)) = v at hc
  exact ((hc.retireDone _ _).profileKept _ _).updAt _ _

theorem StateOk.free {s : State} (h : StateOk s) (src : Nat) : StateOk (s.free src) := h

theorem StateOk.disown {s : State} (h : StateOk s) (src : Nat) : StateOk (s.disown src) := h

theorem StateOk.vacate {s : State} (h : StateOk s) (src : Nat) : StateOk (s.vacate src) := by
  have hd := h.disown src
  unfold State.vacate
  dsimp only
  split
  · exact (hd.setGroup _ _).free _
  · exact hd.free _

theorem StateOk.leave {s : State} (h : StateOk s) (src : Nat) (image : Bool) : StateOk (s.leave src image).1 := by
  have hf := h.flush src
  unfold State.leave
  generalize s.flush src = p at hf
  obtain ⟨u, fails⟩ := p
  have ht : StateOk ((fails.map (u.storeRecord src)).foldl (fun s r => s.traceStop src r) u) :=
    StateOk.foldl (fun _ _ ht => ht.traceStop _ _) _ hf
  dsimp only
  generalize (fails.map (u.storeRecord src)).foldl (fun s r => State.traceStop s src r) u = v at ht
  refine StateOk.vacate ?_ _
  split
  · split
    · rename_i h1; exact ht.saveImage h1
    · exact ht
  · exact ht

theorem StateOk.leaveIf {p : State × List FRec} (h : StateOk p.1) (src : Nat) : StateOk (State.leaveIf p src).1 := by
  unfold State.leaveIf
  split
  · exact h.leave src (p.1.keepsImage src)
  · exact h

theorem StateOk.leaveAll {s : State} (h : StateOk s) (l : List Nat) : StateOk (s.leaveAll l).1 :=
  StateOk.foldlWith (fun _ x hp => hp.leaveIf x) l h

/-- A context that faults (R74) keeps memory, maps, scratchpads and caches in form. -/
theorem StateOk.contextFault {s : State} (h : StateOk s) (ctx : Nat) (k : Option LaunchKey) : StateOk (s.contextFault ctx k) := by
  unfold State.contextFault
  refine StateOk.foldl (fun _ _ ht => ht.toMgmt _ _ _) _ (StateOk.leaveAll ?_ _)
  have hb : ∀ l : List GroupKey, StateOk (l.foldl State.unassignBarriers (s.parkAll (s.boundIn ctx))) :=
    fun l => StateOk.foldl (fun _ x ht => ht.unassignBarriers x) l (h.parkAll _)
  exact hb _

/-! ## Fault records and taking an exception -/

/-- A record that a queue takes has been written in two writes of memory, and its signal is queued (R303, R305). -/
theorem Machine.State.tryPost_cases {s t : State} {die ctx : Nat} {r : FRec} (h : s.tryPost die ctx r = .posted t) :
    ∃ s1 s2 a b va vb, s.ctxWrite die ctx va a = .ok s1 ∧ s1.ctxWrite die ctx vb b = .ok s2 ∧
      t = { s2 with mgmt := s2.mgmt ++ [.signal die] } := by
  unfold State.tryPost at h
  dsimp only at h
  repeat' split at h
  all_goals first
    | (cases h; done)
    | (rename_i s1 h1 _ s2 h2; cases h; exact ⟨s1, s2, _, _, _, _, h1, h2, rfl⟩)

theorem StateOk.tryPost {s t : State} (hs : StateOk s) {die ctx : Nat} {r : FRec} (h : s.tryPost die ctx r = .posted t) :
    StateOk t := by
  obtain ⟨s1, s2, _, _, _, _, h1, h2, rfl⟩ := State.tryPost_cases h
  exact StateOk.congr ((hs.ctxWrite h1).ctxWrite h2) rfl rfl rfl rfl rfl rfl

theorem StateOk.dropNotice {s : State} (h : StateOk s) (die ctx : Nat) : StateOk (s.dropNotice die ctx) := by
  unfold State.dropNotice
  dsimp only
  split
  · exact h
  · split
    · rename_i h1; exact h.ctxWrite h1
    · exact h

/-- A record that cannot be written goes to firmware, and so do those that wait for the same queue (R306). -/
theorem StateOk.queueLost {s : State} (h : StateOk s) (die : Nat) (r : FRec) (c : Nat) : StateOk (s.queueLost die r c) := by
  unfold State.queueLost
  refine StateOk.foldl (fun _ _ ht => ht.toMgmt _ _ _) _ (StateOk.toMgmt ?_ _ _ _)
  exact h

theorem StateOk.post {s : State} (h : StateOk s) (die : Nat) (r : FRec) : StateOk (s.post die r) := by
  unfold State.post
  split
  · exact h.toMgmt _ _ _
  · split
    · exact (h.queueLost _ _ _).contextFault _ _
    · split
      · exact h.keepRecord _
      · exact h.dropNotice _ _
    · exact h.keepRecord _
    · rename_i h1
      split
      · exact h.keepRecord _
      · exact h.tryPost h1

theorem StateOk.notice {s : State} (h : StateOk s) (src : Nat) (r : FRec) : StateOk (s.notice src r) :=
  (h.traceStop _ _).post _ _

theorem StateOk.haltAll {s : State} (h : StateOk s) (l : List Nat) : StateOk (s.haltAll l) := by
  induction l generalizing s with
  | nil => exact h
  | cons x r ih => exact ih (h.updAt _ _)

theorem StateOk.haltResident {s : State} (h : StateOk s) (k : GroupKey) : StateOk (s.haltResident k) :=
  ((h.finishBarriers _).setGroup _ _).haltAll _

theorem StateOk.haltGroup {s : State} (h : StateOk s) (src : Nat) : StateOk (s.haltGroup src) := by
  unfold State.haltGroup
  dsimp only
  refine StateOk.updAt ?_ _ _
  split
  · exact h
  · exact (StateOk.ite (h.haltResident _) h).setGroup _ _

/-- Taking an exception (R120, R299) keeps memory, maps, scratchpads and caches in form. -/
theorem StateOk.takeStop {s : State} (h : StateOk s) (src : Nat) (resume : Word) (rs : List FRec) :
    StateOk (s.takeStop src resume rs) := by
  unfold State.takeStop
  dsimp only
  have hp : ∀ (l : List FRec) {u : State}, StateOk u → StateOk (l.foldl (fun s r => s.post (dieOf src) r) u) :=
    fun l _ hu => StateOk.foldl (fun _ _ ht => ht.post _ _) l hu
  have hq : ∀ {u : State}, StateOk u → StateOk (if (u.strand src).st = .unbound then u else u.haltGroup src) := by
    intro u hu
    split
    · exact hu
    · exact hu.haltGroup _
  cases rs with
  | nil => exact hq (hp _ (h.updAt _ _))
  | cons r l => exact hq (hp _ ((h.updAt _ _).traceStop _ _))

theorem StateOk.scalarStop {s : State} (h : StateOk s) (cause kind : Nat) (va detail : Word) :
    StateOk (s.scalarStop cause kind va detail) := h.takeStop _ _ _

theorem StateOk.hostMessage {s : State} (h : StateOk s) (addr w : Word) : StateOk (s.hostMessage addr w) :=
  (h.writePlace (.host addr.toNat) (leBytes 8 w.toNat)).congr rfl rfl rfl rfl rfl rfl

theorem StateOk.replace {s : State} (h : StateOk s) (why : Nat) (message : Bool) : StateOk (s.replace why message) := by
  unfold State.replace
  dsimp only
  split
  · apply StateOk.hostMessage; exact StateOk.congr h rfl rfl rfl rfl rfl rfl
  · exact StateOk.congr h rfl rfl rfl rfl rfl rfl

/-! ## Commits, strips and the scalar store queue -/

theorem StateOk.fatal {s : State} (h : StateOk s) (src : Nat) (k : LaunchKey) (r : FRec) : StateOk (s.fatal src k r) :=
  ((h.traceStop src r).post _ _).contextFault _ _

theorem StateOk.fatalError {s : State} (h : StateOk s) (src cause kind : Nat) (va : Word) (e : BitVec 32) (slot : Nat) (pc : Word) :
    StateOk (s.fatalError src cause kind va e slot pc) := h.fatal _ _ _

theorem StateOk.storesFailed {s : State} (h : StateOk s) (src : Nat) (fails : List StoreFail) : StateOk (s.storesFailed src fails) := by
  unfold State.storesFailed
  split
  · exact h
  · exact h.fatal _ _ _

theorem StateOk.commitStrips {s : State} (h : StateOk s) (src : Nat) (sel : Nat → Bool) : StateOk (s.commitStrips src sel) :=
  ((h.performLines _ _).updAt _ _).storesFailed _ _

theorem StateOk.stripEvent {s : State} (h : StateOk s) (src why : Nat) : StateOk (s.stripEvent src why) := by
  unfold State.stripEvent
  split
  · exact h
  · exact (h.commitStrips _ _).updAt _ _

theorem StateOk.overflow {s : State} (h : StateOk s) (src strip : Nat) : StateOk (s.overflow src strip) :=
  (h.commitStrips _ _).updAt _ _

/-- Outside a strip a write within a line is performed and counted (R218, R229); what the buffer held of its bytes is older (R278). -/
theorem Machine.State.storeBits_none (s : State) (src : Nat) (va : Word) (fa : Nat) (rep : Option Nat) (p : Place) (how : How)
    (m : BitVec 128) (d : BitVec 512) :
    s.storeBits src none va fa rep p how m d = s.storeNow src va fa rep p how m d := rfl

/-- With no buffered store to the line it is performed and counted, and nothing else happens. -/
theorem Machine.State.storeNow_fresh (s : State) (src : Nat) (va : Word) (fa : Nat) (rep : Option Nat) (p : Place) (how : How)
    (m : BitVec 128) (d : BitVec 512) (h : (s.strand src).buf = []) :
    s.storeNow src va fa rep p how m d = (s.performBits src va p how m d).countStores src fa how.elems := by
  have hb : (((s.performBits src va p how m d).countStores src fa how.elems).strand src).buf = [] := by
    have e := ((s.performBits_traffic src va p how m d).trans (State.countStores_traffic _ src fa how.elems)).1
    have e' := congrArg (fun u : State => u.strands) e
    have e'' : ((s.performBits src va p how m d).countStores src fa how.elems).strands = s.strands := e'
    simpa [State.strand, e''] using h
  simp [State.storeNow, hb]

/-- Under a strip whose buffer has room it enters the buffer, and nothing else changes (R311). -/
theorem Machine.State.storeBits_room (s : State) (src i : Nat) (va : Word) (fa : Nat) (rep : Option Nat) (p : Place) (how : How)
    (m : BitVec 128) (d : BitVec 512) (h : bufFits (bufAdd (s.strand src).buf fa rep i va how m d) = true) :
    s.storeBits src (some i) va fa rep p how m d =
      s.updAt src (fun t => { t with buf := bufAdd (s.strand src).buf fa rep i va how m d }) := by
  simp [State.storeBits, h]

/-- An entry added to the buffer makes it longer by at most one. -/
theorem bufPut_length_le (buf : List BufLine) (n : BufLine) : (bufPut buf n).length ≤ buf.length + 1 := by
  induction buf with
  | nil => simp [bufPut]
  | cons b r ih =>
    unfold bufPut
    split
    · simp [overwrite]
    · split
      · simp [overwrite]
      · simpa using ih

/-- A write adds at most one entry to the buffer. -/
theorem bufAdd_length_le (buf : List BufLine) (fa : Nat) (rep : Option Nat) (strip : Nat) (va : Word) (how : How) (m : BitVec 128)
    (d : BitVec 512) : (bufAdd buf fa rep strip va how m d).length ≤ buf.length + 1 := bufPut_length_le _ _

theorem StateOk.storeBits {s : State} (h : StateOk s) (src : Nat) (strip : Option Nat) (va : Word) (fa : Nat) (rep : Option Nat)
    (p : Place) (how : How) (m : BitVec 128) (d : BitVec 512) : StateOk (s.storeBits src strip va fa rep p how m d) := by
  unfold State.storeBits
  split
  · exact h.storeNow _ _ _ _ _ _ _ _
  · dsimp only
    split
    · exact h.updAt _ _
    · exact StateOk.ite (h.overflow _ _) ((h.overflow _ _).storeNow _ _ _ _ _ _ _ _)

theorem StateOk.storeLine {s : State} (h : StateOk s) (src : Nat) (strip : Option Nat) (va : Word) (x : Xl) (p : Place)
    (how : How) (bs : List Byte) : StateOk (s.storeLine src strip va x p how bs) := h.storeBits _ _ _ _ _ _ _ _ _

/-! ## Errors -/

theorem StateOk.dropCounts {s : State} (h : StateOk s) (src n : Nat) : StateOk (s.dropCounts src n) := by
  unfold State.dropCounts
  exact StateOk.foldl (fun _ q ht => StateOk.foldl (fun _ _ hu => hu.countStores _ _ _) q.after ht) _
    (StateOk.foldl (fun _ _ ht => ht.countStores _ _ _) _ h)

theorem StateOk.rollBack {s : State} (h : StateOk s) (src : Nat) (n : Strip) (e : BitVec 32) (cause slot : Nat) (pc : Word) :
    StateOk (s.rollBack src n e cause slot pc) := by
  have hd := (h.dropCounts src n.id).disown src
  unfold State.rollBack
  dsimp only
  exact StateOk.notice (StateOk.ite ((hd.updAt _ _).setLaunch _ _) (hd.updAt _ _)) _ _

/-- A consumed error (R313, R315) keeps memory, maps, scratchpads and caches in form. -/
theorem StateOk.consumeError {s : State} (h : StateOk s) (src cause kind : Nat) (va : Word) (e : BitVec 32) (slot : Nat) (pc : Word)
    (strip : Option Nat) : StateOk (s.consumeError src cause kind va e slot pc strip) := by
  unfold State.consumeError
  split
  · exact h.fatalError _ _ _ _ _ _ _
  · exact StateOk.ite (h.rollBack _ _ _ _ _ _) ((h.rollBack _ _ _ _ _ _).takeStop _ _ _)

theorem StateOk.drainOne {s : State} (h : StateOk s) (src : Nat) : StateOk (s.drainOne src) := by
  unfold State.drainOne
  dsimp only
  split
  · exact h
  · split
    · exact h
    · split
      · split
        · exact (h.updAt _ _).consumeError _ _ _ _ _ _ _ _
        · split
          · exact (h.updAt _ _).updAt _ _
          · exact (h.updAt _ _).storesFailed _ _
      · exact StateOk.ite ((h.updAt _ _).storeLine _ _ _ _ _ _ _) (((h.updAt _ _).storeLine _ _ _ _ _ _ _).countBehind _ _ _)

theorem StateOk.drainAll {s : State} (h : StateOk s) (src fuel : Nat) : StateOk (s.drainAll src fuel) := by
  induction fuel generalizing s with
  | zero => exact h
  | succ k ih =>
    unfold State.drainAll
    split
    · exact h
    · exact ih (h.drainOne src)

theorem StateOk.drain {s : State} (h : StateOk s) (src : Nat) : StateOk (s.drain src) := h.drainAll _ _

/-- With nothing queued there is nothing to drain. -/
theorem Machine.State.drain_empty (s : State) (src : Nat) (h : (s.strand src).ssq = []) : s.drain src = s := by
  unfold State.drain
  rw [h]
  rfl

/-! ## Stopped members -/

/-- A stop that is taken is an exception at the strand's own PC (R300). -/
theorem StateOk.commitStop {s : State} (h : StateOk s) (src seq : Nat) (w : StopAt) (rs : List FRec) :
    StateOk (s.commitStop src seq w rs) := by
  unfold State.commitStop
  dsimp only
  refine StateOk.takeStop (StateOk.updAt ?_ _ _) _ _ _
  split
  · exact h.profileTo _ _ _ _
  · exact h

/-- A stop is taken at once, or kept until it may be (R191, R316). -/
theorem StateOk.memberStop {s : State} (h : StateOk s) (w : StopAt) (rs : List FRec) (firm : Bool) :
    StateOk (s.memberStop w rs firm) := by
  unfold State.memberStop
  split
  · exact h
  · exact StateOk.ite ((h.upd _).commitStop _ _ _ _) (h.upd _)
theorem StateOk.stopAtElem {s : State} (h : StateOk s) (cause kind : Nat) (va : Word) (e : Nat) (detail : Word) :
    StateOk (s.stopAtElem cause kind va e detail) := h.memberStop _ _ _
theorem StateOk.stopWhole {s : State} (h : StateOk s) (cause kind : Nat) (va detail : Word) :
    StateOk (s.stopWhole cause kind va detail) := h.memberStop _ _ _

theorem StateOk.takePending {s : State} (h : StateOk s) (src : Nat) : StateOk (s.takePending src) := by
  unfold State.takePending
  split
  · exact h
  · split
    · split
      · exact h.commitStop _ _ _ _
      · exact h
    · exact h

end Sys2Proof
end

