-- ==== Sys2Proof/Tests/Slice0.lean ====
section
/-! SUPPORT. Tests of the package: terms that WellFormed refuses, words decoded as the manual's tables write them, values the
manual works out, and, for each statement with hypotheses, states and operands that meet them. -/

set_option Elab.async false

namespace Sys2Proof.Tests
open Machine Claims

/-! ## Ill-formed terms, one for each check -/

theorem test_scope_five_refused : fieldError (.fence ⟨0, 5⟩) = some .unassignedValue := by decide
theorem test_scope_of_directional_fence_refused : fieldError (.fvs ⟨7⟩) = some .unassignedValue := by decide
theorem test_scope_of_atomic_refused : fieldError (.amoxor ⟨1, 2, 3, 5, 0, 0⟩) = some .unassignedValue := by decide
theorem test_unlisted_csr_refused : fieldError (.csrr ⟨1, 0x006⟩) = some .unlistedCsr := by decide
theorem test_grant_field_five_refused : fieldError (.gget ⟨1, 0, 5⟩) = some .unassignedValue := by decide
theorem test_policy_two_refused : fieldError (.setvl ⟨1, 2, 0, 0, 2⟩) = some .reservedField := by decide
theorem test_scalar_source_above_31_refused : fieldError (.vadd ⟨0, 4, 8, 32, 0, 1, 0, 0⟩) = some .reservedField := by decide
theorem test_scalar_source_with_eb_refused : fieldError (.vadd ⟨0, 4, 8, 9, 0, 1, 0, 1⟩) = some .reservedField := by decide
theorem test_hint_three_refused : fieldError (.vld ⟨0, 0, 4, 0, 0, 3⟩) = some .reservedField := by decide
theorem test_order_three_refused : fieldError (.vamoadd ⟨0, 8, 5, 12, 0, 0, 3, 1⟩) = some .reservedField := by decide
theorem test_wait_scope_three_refused : fieldError (.vwait ⟨0, 5, 6, 3⟩) = some .unassignedValue := by decide
theorem test_cache_level_two_refused : fieldError (.cflush ⟨0, 5, 6, 2⟩) = some .reservedField := by decide

/-- The decoder refuses by name: fewer than four bytes, a reserved major, an unassigned function, a reserved field, an unlisted
CSR, C on a scalar major (R53 to R57). -/
theorem test_decoder_refuses_by_name :
    decodeBytes [0, 0, 0] = .error .shortBytes ∧ decode 0x24000000 = .error .reservedMajor ∧
    decode 0x04000018 = .error .unassignedValue ∧ decode 0x1C008402 = .error .reservedField ∧ decode 0x1A503006 = .error .unlistedCsr ∧
    decode 0x84529800 = .error .convoyBit := by decide

/-! ## Words of the manual's tables -/

/-- Scalar words of file 09's tables, fields M, sd, sa, sb or imm. -/
theorem test_scalar_words :
    decode 0x06630FFF = .ok (.addi ⟨6, 6, 0xFFF⟩) ∧ decode 0x16000002 = .ok (.jal ⟨0, 2⟩) ∧
    decode 0x06536003 = .ok (.slli ⟨5, 6, 3⟩) ∧ decode 0x1A503003 = .ok (.csrr ⟨5, 3⟩) ∧
    decode 0x1E531C01 = .ok (.qhash ⟨5, 6, 7⟩) ∧ decode 0x1E530003 = .ok (.bararr ⟨5, 6⟩) ∧
    decode 0x1E531C04 = .ok (.barwt ⟨5, 6, 7⟩) := by decide

/-- Vector, rill, memory and matrix words, C:M:vd:va:vb:mk:kb:ea:eb:mn. -/
theorem test_vector_words :
    decode 0xAA210490 = .ok (.vadd ⟨1, 4, 8, 9, 0, 1, 0, 0⟩) ∧ decode 0x401062A2 = .ok (.vcmplt ⟨0, 2, 3, 5, 1, 0, 0, 0⟩) ∧
    decode 0x584082A1 = .ok (.vstg ⟨0, 8, 4, 5, 2⟩) ∧ decode 0x58800092 = .ok (.rdec ⟨0, 16, 0, 1, 1, 0⟩) ∧
    decode 0x5EA101C1 = .ok (.rfilt ⟨0, 20, 8, 3, 4, 0⟩) ∧ decode 0x6F000180 = .ok (.mma ⟨0, 32, 0, 3, 0⟩) ∧
    decode 0x6F000181 = .ok (.mmaz ⟨0, 32, 0, 3, 0⟩) ∧ decode 0x6F400282 = .ok (.mxsum ⟨0, 40, 0, 5, 0⟩) ∧
    decode 0xEF000188 = .ok (.mma ⟨1, 32, 0, 3, 1⟩) := by decide +kernel

/-- Encoding gives the manual's words back. -/
theorem test_encoded_words :
    encode (.vwmac ⟨0, 8, 12, 14, 0, 0, 0, 0⟩) = some 0x38418700 ∧ encode (.fenc ⟨0, 12, 2, 0x0C, 3, 0⟩) = some 0x5C604631 ∧
    encode (.st64 ⟨5, 6, 0x010⟩) = some 0x0E533010 ∧ encode (.convoyRetire 0) = none := by decide +kernel

/-! ## Values the manual works out -/

/-- R35: codes of 2 (RI 1), 70 (RI 35), 72 (RI 36), 4,680 and 100,001's u of 200,002, as granules from the head on. -/
theorem test_rill_codes :
    rnCode 2 = [2] ∧ rnCode 70 = [0xB, 0xE] ∧ rnCode 72 = [0xC, 0, 0] ∧ rnCode 4680 = [0xF, 0, 0, 0, 0, 0] ∧
    rnCode 200002 = [0xF, 1, 1, 0xF, 0xA, 0xF, 0xA] := by decide +kernel

/-- R35: 2^64 - 1 has 18 granules, F C, thirteen E, D B 7 being its stream. -/
theorem test_rill_code_of_the_largest :
    rnCode (2 ^ 64 - 1) = [0xF, 0xC, 0xE, 0xE, 0xE, 0xE, 0xE, 0xE, 0xE, 0xE, 0xE, 0xE, 0xE, 0xE, 0xE, 0xD, 0xB, 0x7] := by decide +kernel

/-- R42's example: the sum of 1.0, 2^24, 1.0, -2^24 and 1.0 in fp32 is 3.0. -/
theorem test_float_reduction_tree :
    (reduceList (fp32.add rne) (fp32.signBit true) 5
      (fun j => some ([0x3F800000, 0x4B800000, 0x3F800000, 0xCB800000, 0x3F800000].getD j 0))).1 = 0x40400000 := by decide +kernel

/-! ## Small states

Context 0 of die 0 has pages 0 to 7 in the frames of the same numbers, which lie at those offsets of die 0's deep space; a fault
queue of 64 records is at 0x30000. Strand 0 runs at 0x10000. -/

def page (k : Nat) : TlbEntry := ⟨0, k, k * 65536, true, true, true, 1⟩
def deepFrame (k : Nat) : Fme := { w0 := 1, w1 := BitVec.ofNat 64 (k * 65536) }
def pages : List Nat := [0, 1, 2, 3, 4, 5, 6, 7]
def die0 : Die := { tlb := pages.map page, l1Tlb := [(0, pages.map page)], fmCache := pages.map (fun k => (k, deepFrame k)) }

/-- The package with strand 0 as given. -/
def withStrand (t : Strand) : State :=
  { strands := [(0, t)], dies := [(0, die0)], fmap := pages.map (fun k => (k, deepFrame k)), mem := [(0x30010, 6)]
    contexts := [(0, { state := 2, frqBase := 0x30000 })] }

def running : Strand := { st := .running, pc := 0x10000 }
def base : State := withStrand running

/-- Where an address of the first eight pages is. -/
def at_ (a : Nat) : Xl := ⟨a / 65536, a, deepFrame (a / 65536), some (.deep 0 a)⟩

/-- A record can be posted. -/
def posts (s : State) (r : FRec) : Bool := match s.tryPost 0 0 r with | .posted _ => true | _ => false

theorem posts_iff (s : State) (r : FRec) (h : posts s r = true) : ∃ u, s.tryPost 0 0 r = .posted u := by
  unfold posts at h
  split at h
  · exact ⟨_, by assumption⟩
  · cases h

/-- What TakesException asks of a state, for a record of context 0. -/
def CanStop (s : State) (r : FRec) : Prop :=
  s.me.st = .running ∧ s.me.wait = .none ∧ (s.context r.ctx).state ≠ 4 ∧ ∃ u, s.tryPost (dieOf s.cur.src) r.ctx r = .posted u

/-- No write is on its way. -/
theorem none_fly {P : FlyWrite → Prop} : ∀ f ∈ ([] : List FlyWrite), P f := fun _ h => absurd h List.not_mem_nil

theorem wf_of (s : State) (h : Memory.wf s.mem = true) : MemOk s := h

theorem maps_none : WholePages ({} : Die).tlb ∧ ∀ c, WholePages (({} : Die).l1Tlb.getD c []) :=
  ⟨fun _ h => absurd h List.not_mem_nil, fun _ _ h => absurd h List.not_mem_nil⟩

theorem maps_of (d : Die) (ht : d.tlb = die0.tlb) (hl : d.l1Tlb = die0.l1Tlb) :
    WholePages d.tlb ∧ ∀ c, WholePages (d.l1Tlb.getD c []) := by
  have all : ∀ e ∈ pages.map page, e.fa % 65536 = 0 := by decide
  rw [ht, hl]
  refine ⟨all, fun c => ?_⟩
  show WholePages (if _ then pages.map page else [])
  split
  · exact all
  · exact fun _ h => absurd h List.not_mem_nil

/-- The small states meet the invariant. -/
theorem ok_of (s : State) (hm : s.mem = [(0x30010, 6)]) (hd : s.dies = [(0, die0)]) (hc : s.cores = []) (hn : s.counted = [])
    (hl : s.l1 = []) (hk : s.msc = []) : StateOk s := by
  refine ⟨?_, fun k => ?_, fun k => ?_, fun l c h => ?_, fun l h => ?_, fun l c h => ?_⟩
  · rw [MemOk, hm]; rfl
  · have h : s.die k = if k = 0 then die0 else {} := by
      simp only [State.die, hd, Tbl.getD, eq_comm]
    rw [h]
    split
    · exact maps_of die0 rfl rfl
    · exact maps_none
  · rw [State.core, hc]; rfl
  · rw [hn] at h; cases h
  · rw [hl] at h; cases h
  · rw [hk] at h; cases h

theorem base_ok (t : Strand) : StateOk (withStrand t) := ok_of _ rfl rfl rfl rfl rfl rfl

theorem witness_state_invariant : StateOk base ∧ StateOk State.reset := by
  refine ⟨base_ok running, rfl, fun _ => maps_none, fun _ => rfl, fun _ _ h => ?_, fun _ h => absurd h List.not_mem_nil, fun _ _ h => ?_⟩
  all_goals cases h

/-! ## Witnesses: scalar instructions -/

/-- ConditionalBranchResults: an offset of 0, the lowest unassigned condition, and a target on a page that is not mapped. -/
theorem witness_branches :
    (0x12006000 : BitVec 32).extractLsb' 25 6 = 0x09 ∧ 6 ≤ ((0x12006000 : BitVec 32).extractLsb' 12 3).toNat ∧
    base.translate (dieOf base.cur.src) base.me.bind.ctx base.me.bind.secure .exec 0x80000000000000 (some (coreOf base.cur.src)) = .error 8 ∧
    base.translate (dieOf base.cur.src) base.me.bind.ctx base.me.bind.secure .exec 0x80000 (some (coreOf base.cur.src)) = .error 10 := by decide +kernel

/-- A convoy of the words given. -/
def convoyOf (ws : List (BitVec 32)) : Convoy := { seq := 0, pc := 0x8000, words := ws, ops := ws.map (fun _ => (0, 0)), issued := true }

/-- MaskAndGrantBranches and GrantRegisterAccess: no writer queued; `vcmplt m2` queued; `radd … g1` queued; field 4 and the first
illegal field. -/
theorem witness_mask_and_grant :
    (∀ c ∈ base.me.viq, ∀ w ∈ c.words, maskWritten w ≠ some 2) ∧ GrantFree base 1 ∧
    (∃ c ∈ (withStrand { running with viq := [convoyOf [0x401062A2]] }).me.viq, ∃ w ∈ c.words, maskWritten w = some 2) ∧
    ¬GrantFree (withStrand { running with viq := [convoyOf [0x5A400210]] }) 1 ∧ (4 : BitVec 5).toNat ≤ 4 ∧
    ((0x1C509400 : BitVec 32).extractLsb' 25 6 = 0x0E ∧ 5 ≤ ((0x1C509400 : BitVec 32).extractLsb' 10 5).toNat) := by
  refine ⟨by decide, fun _ h => absurd h List.not_mem_nil, ⟨_, .head _, _, .head _, by decide⟩, fun h => ?_, by decide, by decide⟩
  exact h (convoyOf [0x5A400210]) (.head _) 0x5A400210 (.head _) (by decide)

/-- CsrAccesses: the first and last plain CSR, a privileged one, a read that waits, and VLCAP. -/
theorem witness_csrs :
    (0x003 ∈ plainCsrs ∧ csrPriv 0x003 = false ∧ base.csrWait 0x003 true = .none) ∧
    (0x10B ∈ plainCsrs ∧ csrPriv 0x10B = false ∧ base.csrWait 0x10B true = .none) ∧
    (0x043 ∈ plainCsrs ∧ (withStrand { running with bind := { privileged := true } }).me.bind.privileged = true ∧
      (withStrand { running with bind := { privileged := true } }).csrWait 0x043 true = .none) ∧
    (withStrand { running with viq := [convoyOf [0x2A210490]] }).csrWait 0x003 false ≠ .none ∧
    (let s := withStrand { running with bind := { privileged := true } }
     s.me.bind.det = false ∧ s.me.viq = [] ∧ s.me.enginesDone true true true = true) := by decide

/-- ExceptionsAreTaken: a strand with an empty VIQ whose context can take each record; a read-only CSR, a privileged one. -/
theorem witness_exceptions :
    base.me.viq = [] ∧ base.sourceWaits (scalarRec base 33 0 5 base.me.pc 0) = false ∧ CanStop base (scalarRec base 33 0 5 base.me.pc 0) ∧ CanStop base (scalarRec base 34 0 5 base.me.pc 0) ∧
    CanStop base (scalarRec base 35 0 0 base.me.pc 0) ∧ CanStop base (scalarRec base 1 0 0 base.me.pc 0) ∧
    csrReadOnly 0x000 = true ∧ csrReadOnly 0x043 = false ∧ csrPriv 0x043 = true ∧ base.me.bind.privileged = false := by
  refine ⟨rfl, rfl, ⟨rfl, rfl, by decide, posts_iff _ _ (by decide +kernel)⟩, ⟨rfl, rfl, by decide, posts_iff _ _ (by decide +kernel)⟩,
    ⟨rfl, rfl, by decide, posts_iff _ _ (by decide +kernel)⟩, ⟨rfl, rfl, by decide, posts_iff _ _ (by decide +kernel)⟩, by decide⟩

/-- ExceptionsAreTaken, `trap 0`: a strand of a launch. -/
def launched : State :=
  { base with launches := [(⟨0, 0⟩, { ctx := 0 })], groups := [(⟨⟨0, 0⟩, 0⟩, { state := .resident, members := [(0, 0)] })] }

theorem witness_trap_zero :
    launched.me.viq = [] ∧ look launched.launches launched.me.bind.launch = some { ctx := 0 } ∧
    CanStop launched (scalarRec launched 33 0 0 launched.me.pc 0) ∧ launched.sourceWaits (scalarRec launched 33 0 0 launched.me.pc 0) = false ∧
    (launched.strand 0).buf = [] ∧ (launched.strand 0).ssq = [] :=
  ⟨rfl, rfl, ⟨rfl, rfl, by decide, posts_iff _ _ (by decide +kernel)⟩, rfl, rfl, rfl⟩

/-- A strand with an address in s5 and another in s6. -/
def pointing (a b : Word) : State := withStrand { running with s := [(5, a), (6, b)] }

/-- `Reaches` as a computation. -/
def reaches (s : State) (acc : Access) (va : Word) (n a : Nat) : Bool :=
  !s.scalarWatched acc va n && decide (va.toNat < 2 ^ 48 ∧ va.toNat % n = 0) &&
  !s.walkBusy (dieOf s.cur.src) s.me.bind.ctx va.toNat (some (coreOf s.cur.src)) &&
  (match s.translate (dieOf s.cur.src) s.me.bind.ctx s.me.bind.secure acc va (some (coreOf s.cur.src)) with | .ok x => x == at_ a | .error _ => false) &&
  (Place.deep 0 a).exists && !(at_ a).fme.w && !s.placeBusy (.deep 0 a) && !s.poisoned (.deep 0 a) n && (at_ a).fme.kind != 5

theorem reaches_of (s : State) (acc : Access) (va : Word) (n a : Nat) (h : reaches s acc va n a = true) :
    Reaches s acc va n (at_ a) (.deep 0 a) := by
  simp only [reaches, Bool.and_eq_true, Bool.not_eq_true', decide_eq_true_eq, bne_iff_ne] at h
  obtain ⟨⟨⟨⟨⟨⟨⟨⟨h1, h2, h3⟩, hb⟩, h4⟩, h5⟩, h6⟩, h7⟩, h8⟩, h9⟩ := h
  refine ⟨h1, h2, h3, hb, ?_, rfl, h5, fun _ => h6, h7, h8, fun _ => h9⟩
  split at h4
  · rename_i x hx; rw [hx, eq_of_beq h4]
  · cases h4

/-- BadScalarAddressesStop: the lowest address above bit 47, and the address 1. -/
theorem witness_bad_addresses :
    (let s := pointing 0x1000000000000 0
     s.scalarWatched .read (s.rd 5) 8 = false ∧ 2 ^ 48 ≤ (s.rd 5).toNat ∧ s.scalarWatched .write (s.rd 5) 4 = false ∧
       posts s (scalarRec s 8 2 (s.rd 5) s.me.pc 0) = true) ∧
    (let s := pointing 1 0
     s.scalarWatched .read (s.rd 5) 8 = false ∧ (s.rd 5).toNat < 2 ^ 48 ∧ (s.rd 5).toNat % 8 ≠ 0 ∧ (s.rd 5).toNat % 4 ≠ 0 ∧
       s.scalarWatched .atomic (s.rd 5) 4 = false ∧ releases 0 = false ∧ posts s (scalarRec s 9 2 (s.rd 5) s.me.pc 0) = true) := by
  decide +kernel

/-- RecordsPostToTheContextQueue: an empty queue takes a record; a queue of 64 with 64 records is full. -/
def fullQueue : State := { base with mem := [(0x30008, 64), (0x30010, 6)] }

theorem witness_record_queue :
    (match base.ctxRead 0 0 0x30000 32 with
      | .ok h => decide (leNat ((h.drop 16).take 1) = 6 ∧ leNat ((h.drop 0).take 8) = 0 ∧ leNat ((h.drop 8).take 8) = 0)
      | .error _ => false) = true ∧
    (∃ e ∈ (base.die 0).tlb, e.covers 0 ((0x30008 : Word).toNat / 65536) = true) ∧
    base.translate 0 0 false .write 0x30040 = .ok (at_ 0x30040) ∧ base.translate 0 0 false .write 0x30008 = .ok (at_ 0x30008) ∧
    (Place.deep 0 0x30040).key % 64 = 0 ∧ base.poisoned (.deep 0 0x30008) 8 = false ∧ base.ctxBlocked 0 0 0x30000 = false ∧
    base.ctxBlocked 0 0 0x30040 = false ∧
    (match fullQueue.ctxRead 0 0 0x30000 32 with
      | .ok h => decide (leNat ((h.drop 8).take 8) - leNat ((h.drop 0).take 8) = 2 ^ 6)
      | .error _ => false) = true := by
  refine ⟨by decide +kernel, ⟨page 3, by decide, by decide⟩, by decide +kernel, by decide +kernel, by decide, by decide, by decide +kernel,
    by decide +kernel, by decide +kernel⟩

/-- ScalarLoadsAndStores, ScalarAccessesComplete and ScalarAtomicResults: the last aligned 8 bytes of a page. -/
theorem witness_scalar_memory :
    Reaches base .read 0x2FFF8 8 (at_ 0x2FFF8) (.deep 0 0x2FFF8) ∧ Reaches base .write 0x2FFF8 8 (at_ 0x2FFF8) (.deep 0 0x2FFF8) ∧
    Reaches base .atomic 0x2FFF8 8 (at_ 0x2FFF8) (.deep 0 0x2FFF8) ∧ Reaches base .write 0x20001 1 (at_ 0x20001) (.deep 0 0x20001) ∧
    base.me.ssq = [] ∧ base.me.openStrip = none ∧ base.flying base.cur.src = false ∧ base.me.hold = false ∧
    Direct base (.deep 0 0x2FFF8) ∧ base.counted.find (lineOf (Place.deep 0 0x2FFF8).key) = none ∧
    (base.me.ssq = [] ∧ base.me.buf = [] ∧ base.flyWrites = [] ∧ StateOk base) ∧
    (let s := withStrand { running with hold := true }
     s.me.hold = true ∧ s.me.ssq = [] ∧ StateOk s ∧ Reaches s .write 0x20001 1 (at_ 0x20001) (.deep 0 0x20001)) ∧
    (let s := withStrand { running with openStrip := some 1 }
     s.me.openStrip ≠ none ∧ s.me.hold = false ∧ s.me.ssq = [] ∧ s.me.buf.length < 512 ∧ StateOk s ∧
       Reaches s .write 0x20001 1 (at_ 0x20001) (.deep 0 0x20001)) := by
  refine ⟨reaches_of _ _ _ _ _ (by decide +kernel), reaches_of _ _ _ _ _ (by decide +kernel),
    reaches_of _ _ _ _ _ (by decide +kernel), reaches_of _ _ _ _ _ (by decide +kernel), rfl, rfl, rfl, rfl,
    ⟨rfl, .inl rfl, rfl, none_fly⟩, rfl, ⟨rfl, rfl, rfl, base_ok _⟩, ⟨rfl, rfl, base_ok _, reaches_of _ _ _ _ _ (by decide +kernel)⟩,
    ⟨by decide, rfl, rfl, by decide, base_ok _, reaches_of _ _ _ _ _ (by decide +kernel)⟩⟩

/-- `Idle` as a computation. -/
def idle (s : State) : Bool :=
  s.me.viq.isEmpty && s.me.ssq.isEmpty && s.me.fsvMarks.isEmpty && s.me.enginesDone true true true && s.me.lostStore.isNone && !s.flying s.cur.src &&
  !s.linkPending s.cur.src

theorem idle_of (s : State) (h : idle s = true) : Idle s := by
  simpa [idle, Idle, and_assoc] using h

/-- FencesWaitAndComplete: an idle strand outside a strip; one with a vector load queued; one with engine work; one with a scalar
store queued. -/
theorem witness_fences :
    Idle base ∧ NoStrip base ∧
    (∃ c ∈ (withStrand { running with viq := [convoyOf [0x60010000]] }).me.viq, ∃ w ∈ c.words.drop c.next, isVecMem w = true) ∧
    (withStrand { running with tlMatrix := { issued := 1 } }).me.enginesDone false true false = false ∧
    (withStrand { running with tlCopy := { issued := 1 } }).me.enginesDone true false false = false ∧
    (withStrand { running with ssq := [⟨0x20000, 0x20000, [1], none, []⟩] }).me.ssq ≠ [] := by
  refine ⟨idle_of _ (by decide), rfl, ⟨_, .head _, _, .head _, by decide⟩, by decide, by decide, by decide⟩

/-- TimelineReadsAndWaits: each timeline, the first illegal number, a counter of 0 awaited at 0 and at 1. -/
theorem witness_timelines :
    (pointing 0 0).rd 5 = 0 ∧ (pointing 2 0).rd 5 = 2 ∧ 2 < ((pointing 3 0).rd 5).toNat ∧
    (let s := pointing 0x20008 1
     s.walkBusy (dieOf s.cur.src) s.me.bind.ctx (s.rd 5).toNat (some (coreOf s.cur.src)) = false ∧
       s.translate (dieOf s.cur.src) s.me.bind.ctx s.me.bind.secure .read (s.rd 5) (some (coreOf s.cur.src)) = .ok (at_ 0x20008) ∧
       (Place.deep 0 0x20008).exists = true ∧ s.placeBusy (.deep 0 0x20008) = false ∧ s.poisoned (.deep 0 0x20008) 8 = false ∧
       leNat (s.scalarBytes (at_ 0x20008) (.deep 0 0x20008) 8) < (s.rd 6).toNat ∧
       (s.rd 7).toNat ≤ leNat (s.scalarBytes (at_ 0x20008) (.deep 0 0x20008) 8)) := by decide +kernel

/-- A group of two with barrier 0 at a phase, of which `arr` have arrived. -/
def atBarrier (arr phase : BitVec 16) (b : Word) : State :=
  { withStrand { running with bind := { gsize := 2, ix := 1 }, s := [(6, b)] } with
    clusters := [(0, { barriers := [(3, { v := true, bound := true, size := 2, phase := phase, arr := arr, owner := some ⟨⟨0, 0⟩, 0⟩ })] })] }

/-- BarrierArrivalsAndPhases: the last arrival and an earlier one; phases 1 and 32,768 past the token, at it, and 32,769 past. -/
theorem witness_barriers :
    (∀ arr ∈ [(0 : BitVec 16), 1], ∃ e, Idle (atBarrier arr 0 0) ∧ NoStrip (atBarrier arr 0 0) ∧ (atBarrier arr 0 0).held = false ∧
      HasBarrier (atBarrier arr 0 0) 0 3 e ∧ e.arr = arr) ∧
    (∃ e, HasBarrier (atBarrier 1 0 0) 0 3 e ∧ ∀ k, k < e.size → k = 1 ∨ e.arr.getLsbD k = true) ∧
    (1 < (atBarrier 0 1 0).me.bind.gsize ∧ (atBarrier 0 1 0).me.barTok = none) ∧
    (let d := fun (s : State) (p : Nat) => (p + 65536 - (s.rd 6).toNat % 65536) % 65536
     d (atBarrier 0 1 0) 1 = 1 ∧ d (atBarrier 0 32768 0) 32768 = 32768 ∧ d (atBarrier 0 0 0) 0 = 0 ∧ d (atBarrier 0 32769 0) 32769 = 32769) ∧
    (NoStrip base ∧ base.me.bind.gsize ≤ 1) := by
  refine ⟨?_, ⟨_, rfl, by decide⟩, by decide, by decide, rfl, by decide⟩
  intro arr h
  rcases List.mem_pair.mp h with rfl | rfl
  all_goals exact ⟨_, idle_of _ (by decide), rfl, by decide +kernel, rfl, rfl⟩

/-- SetvlOpensAStrip: the first and a reserved type; two strips uncommitted. -/
theorem witness_setvl :
    ewOf 0 = some 8 ∧ base.me.strips.length < 2 ∧ ewOf 0x0E = none ∧
    2 ≤ (withStrand { running with strips := [⟨1, 0, [], 0, true⟩, ⟨2, 0, [], 0, false⟩] }).me.strips.length := by decide

/-- YieldMarkAndEnd: a quiet strand of a launch; one with a copy outstanding. -/
theorem witness_mark_and_end :
    base.me.csr.tracectl.getLsbD 1 = false ∧ launched.me.quiet = true ∧ Idle launched ∧ launched.me.buf = [] ∧
    (∃ g, look launched.groups launched.me.group = some g) ∧ (∃ l, look launched.launches launched.me.bind.launch = some l) ∧
    (withStrand { running with tlCopy := { issued := 1 } }).me.quiet = false := by
  refine ⟨by decide, by decide, idle_of _ (by decide), rfl, ⟨_, rfl⟩, ⟨_, rfl⟩, by decide⟩

/-- Queue 1 is context 0's, its QCB at 0x40000. -/
def withQueue (n : Word) : State :=
  { withStrand { running with hold := true, s := [(5, 1), (6, n)] } with
    queues := [(1, { desc := { state := 2, postCtx := 0, qcb := 0x40000 } })] }

/-- The same with page 4 in a replica set on every die. -/
def replicated (s : State) : State :=
  let f : Fme := { w0 := 5 ||| (0xFF <<< 8), w1 := 0x40000 }
  { s with fmap := Tbl.set s.fmap 4 f, dies := [(0, { die0 with fmCache := die0.fmCache.set 4 f })] }

/-- QueueInstructions: counts 255 and 256; a queue of no context; six words to store at 0x20000. -/
theorem witness_queue_instructions :
    (MayPost (withQueue 255) 1 ∧ Idle (withQueue 255) ∧ NoStrip (withQueue 255) ∧
      (withQueue 255).accessHeld 0 0 false .atomic 0x40000 = false ∧ MemOk (withQueue 255) ∧
      (withQueue 255).translate 0 0 false .atomic 0x40000 = .ok (at_ 0x40000) ∧ (at_ 0x40000).fme.kind ≠ 5 ∧
      (withQueue 255).poisoned (.deep 0 0x40000) 8 = false ∧ (withQueue 255).counted.find (lineOf 0x40000) = none) ∧
    (let s := replicated (withQueue 255)
     MayPost s 1 ∧ Idle s ∧ NoStrip s ∧ s.accessHeld 0 0 false .atomic 0x40000 = false ∧
       (match s.translate 0 0 false .atomic 0x40000 with | .ok x => x.fme.kind == 5 && x.place.isSome | .error _ => false) = true ∧
       posts s (scalarRec s 23 0 1 s.me.pc 16) = true) ∧
    (255 < ((withQueue 256).rd 6).toNat ∧ ¬MayPost base 1 ∧ (withQueue 255).accessHeld 0 0 true .read 0x40000 = false ∧
      (match (withQueue 255).ctxRead 0 0 0x40000 64 with | .ok _ => true | .error _ => false) = true) ∧
    (∀ j, j < 6 → (∃ p, Reaches (withQueue 0x20000) .write (0x20000 + BitVec.ofNat 64 (8 * j)) 8 (at_ (0x20000 + 8 * j)) p) ∧
      ∃ e ∈ ((withQueue 0x20000).die 0).l1Tlb.getD 0 [], e.covers 0 ((0x20000 + BitVec.ofNat 64 (8 * j)).toNat / 65536) = true) := by
  refine ⟨⟨⟨by decide, by decide, by decide⟩, idle_of _ (by decide), rfl, by decide +kernel, wf_of _ rfl, by decide +kernel, by decide, by decide, rfl⟩,
    ⟨⟨by decide, by decide, by decide⟩, idle_of _ (by decide), rfl, by decide +kernel, by decide +kernel, by decide +kernel⟩,
    ⟨by decide, fun h => absurd h.2.1 (by decide), by decide +kernel, by decide +kernel⟩, fun j hj => ?_⟩
  have : j ∈ [0, 1, 2, 3, 4, 5] := by simp; omega
  simp only [List.mem_cons, List.not_mem_nil, or_false] at this
  rcases this with rfl | rfl | rfl | rfl | rfl | rfl
  all_goals exact ⟨⟨_, reaches_of _ _ _ _ _ (by decide +kernel)⟩, page 2, by decide +kernel⟩

/-- The package with page 2 in a frame of the kind given, at a place of that kind. -/
def paged (f : Fme) (priv : Bool) (b : Word) : State :=
  let s := withStrand { running with bind := { privileged := priv }, s := [(5, 0x20000), (6, b)] }
  { s with fmap := Tbl.set s.fmap 2 f, dies := [(0, { die0 with fmCache := die0.fmCache.set 2 f })] }

def xlOf (f : Fme) : Xl := ⟨2, 0x20000, f, f.place 0 0⟩
def hostFrame : Fme := { w0 := 3, w1 := 0x50000 }
def braidFrame : Fme := { w0 := 4 }

/-- PageInstructions: a deep frame, a host frame, a braid frame, and one that migrates; pinned, unpinned and no shadow. -/
theorem witness_pages :
    PageAt (paged (deepFrame 2) false 0) 5 (xlOf (deepFrame 2)) ∧ PageAt (paged hostFrame false 0) 5 (xlOf hostFrame) ∧
    PageAt (paged braidFrame true 0) 5 (xlOf braidFrame) ∧ (xlOf (deepFrame 2)).deepOf = some (0, 0x20000) ∧
    (xlOf hostFrame).deepOf = none ∧ (xlOf hostFrame).fme.kind = 3 ∧ (xlOf braidFrame).fme.kind = 4 ∧
    PageAt (paged { deepFrame 2 with w0 := 9 } true 1) 5 (xlOf { deepFrame 2 with w0 := 9 }) ∧
    (xlOf { deepFrame 2 with w0 := 9 }).fme.w = true ∧
    (((paged (deepFrame 2) true 1).rd 6).toNat % 8 ≠ 0 ∧ destPlace 1 0 = some (.deep 0 0) ∧ destPlace 1 65535 = some (.deep 0 65535)) ∧
    ((paged (deepFrame 2) true 0).rd 6).toNat % 8 = 0 ∧ (paged (deepFrame 2) true 0).migrations = [] ∧
    ((paged (deepFrame 2) false 3).rd 6).toNat % 4 = 3 ∧
    (let s := paged (deepFrame 2) true 1
     let u : State := { s with dies := [(0, { s.die 0 with regions := [(0, 0xC000000001000000)] })] }
     PageAt u 5 (xlOf (deepFrame 2)) ∧ u.me.bind.secure = false ∧ u.regionSecure (.deep 0 0) = true ∧ u.regionSecure (.deep 0 0x20000) = false ∧
       posts u (scalarRec u 13 2 (u.rd 5) u.me.pc 0) = true) := by
  have h : ∀ (s : State) (f : Fme), s.walkBusy (dieOf s.cur.src) s.me.bind.ctx (s.rd 5).toNat (some (coreOf s.cur.src)) = false →
      s.translate (dieOf s.cur.src) s.me.bind.ctx s.me.bind.secure .page (s.rd 5) (some (coreOf s.cur.src)) = .ok (xlOf f) →
      PageAt s 5 (xlOf f) := fun s f g h => ⟨g, h⟩
  refine ⟨h _ _ ?_ ?_, h _ _ ?_ ?_, h _ _ ?_ ?_, ?_, ?_, ?_, ?_, h _ _ ?_ ?_, ?_, ?_, ?_, ?_, ?_, h _ _ ?_ ?_, ?_, ?_, ?_, ?_⟩ <;> decide +kernel

/-- RptReplays: 3 in s5 and a body of one word, `vadd v4, v8, s9`, at 0x10004; after its last replay, 3 in bits <63:32>. -/
def atRpt (map : Word) : State :=
  { withStrand { running with s := [(5, 3), (6, map)] } with mem := [(0x10004, 0x90), (0x10005, 0x04), (0x10006, 0x21), (0x10007, 0x2A), (0x30010, 6)] }

def bodyOk (s : State) : Bool :=
  match s.bodyWords 0 (s.me.pc + 4) 1 with
  | .ok (ws, _) =>
    decide (ws = [0x2A210490]) && (replayConvoys (s.rd 6) 3 0 0 0 ws []).all (fun p => convoyBreaks [] p.2 == none &&
      issueStop s.me.modes (p.2.map (s.givenOf 0)) 0 == none) && s.me.sluiceRoom (replayConvoys (s.rd 6) 3 0 0 0 ws []).length 0 0 0
  | .error _ => false

theorem witness_rpt :
    (atRpt 0).me.replay = none ∧ (atRpt 0).fetchHeld 0 0x10004 0x10004 = false ∧ ((atRpt 0).rd 5).toNat ≤ 2 ^ 32 - 4 ∧ bodyOk (atRpt 0) = true ∧ 0 < replays 0 3 1 ∧
    replays (3 * 2 ^ 32) 3 1 ≤ 3 ∧ 2 ^ 32 - 4 < ((pointing (2 ^ 32 - 3) 0).rd 5).toNat := by decide +kernel

/-! ## Witnesses: vector members -/

/-- A strand whose registers have 512 bits, performing the one member of its only convoy. -/
def member (m : Sampled) (op0 op1 : Word) (x : VecState) : State :=
  { withStrand { running with csr := { vlcap := 512 }, vec := x, viq := [convoyOf [0]] } with cur := { pc := 0x8000, samp := m, op0 := op0, op1 := op1 } }

/-- Modes of a vector length and a type, group, policy word. -/
def modes (vl : Nat) (code group policy : Nat) : Sampled := { vl := vl, vtype := BitVec.ofNat 10 (code * 16 + group * 4 + policy) }

/-- `Anew` as a computation. -/
def anew (s : State) : Bool :=
  !s.cur.resumed && !s.cur.skip && s.cur.first == 0 && s.cur.from_ == 0 && s.cur.limit.isNone && !s.cur.forceBlock

theorem anew_of {s : State} (h : anew s = true) : Anew s := by
  simpa [anew, Anew, and_assoc] using h

/-- `Begins` as a computation, for registers of 512 bits. -/
def begins (s : State) (i : Instr) : Bool :=
  (issueCheck i s.cur.samp s.given).isNone && anew s && vlbOf s == 512 && decide (vlS s ≤ vlbOf s * gS s / ewS s)

theorem begins_of (s : State) (i : Instr) (h : begins s i = true) : Begins i s := by
  simp only [begins, Bool.and_eq_true, beq_iff_eq, decide_eq_true_eq, Option.isNone_iff_eq_none] at h
  obtain ⟨⟨⟨h1, h2⟩, h5⟩, h6⟩ := h
  exact ⟨h1, anew_of h2, ⟨9, by omega, by omega, h5⟩, h6⟩

theorem fresh_of (m : Sampled) (a b : Word) (x : VecState) (i : Instr) (hx : x.full = []) (h : begins (member m a b x) i = true) :
    Fresh i (member m a b x) :=
  ⟨begins_of _ _ h, fun n => by rw [show (member m a b x).me.vec = x from rfl, VecState.fullOf, hx]; rfl, rfl⟩

theorem oldest_member (m : Sampled) (a b : Word) (x : VecState) : Oldest (member m a b x) :=
  ⟨_, _, rfl, rfl, rfl, rfl, rfl⟩

theorem fresh_all (ms : List Sampled) (a b : Word) (is : List Instr)
    (h : ms.all (fun m => is.all (begins (member m a b {}))) = true) : ∀ m ∈ ms, ∀ i ∈ is, Fresh i (member m a b {}) :=
  fun m hm i hi => fresh_of m a b {} i rfl (List.all_eq_true.mp (List.all_eq_true.mp h m hm) i hi)

theorem no_trap (fl : Nat) : trapClass fl (trapEn 0) = none := by
  simp [trapClass, trapEn, bitsN]

def v3 : V3 := ⟨0, 4, 8, 12, 0, 0, 0, 0⟩
def v3w : V3 := ⟨0, 16, 4, 12, 0, 0, 0, 0⟩
def v3u : V3U := ⟨0, 4, 8, 0, 0⟩
def v3c : V3Cmp := ⟨0, 2, 8, 12, 1, 0, 0, 0⟩

/-- VectorIntegerAndWideningResults, IntegerReductionResults, ScanResults: i8 with VL 0 and at its largest, u64 in groups of 4, i32. -/
theorem witness_integer_members :
    (∀ m ∈ [modes 0 0 0 0, modes 64 0 0 1, modes 32 7 2 0, modes 16 2 0 0],
      ∀ i ∈ [Instr.vadd v3, .vsub v3, .vmul v3, .vmulh v3, .vmulhn v3, .vdiv v3, .vdivn v3, .vrem v3, .vremn v3, .vmin v3, .vmax v3,
        .vminn v3, .vmaxn v3, .vabsd v3, .vand v3, .vor v3, .vxor v3, .vsll v3, .vsrl v3, .vsra v3, .vrot v3, .vsadd v3, .vssub v3,
        .vsaddn v3, .vssubn v3, .vabs v3u, .vneg v3u, .vnot v3u, .vredsum v3, .vredmin v3, .vredmax v3, .vredand v3, .vredor v3,
        .vredxor v3, .vscan v3, .vscanmax v3], Fresh i (member m 0 0 {})) ∧
    (∀ m ∈ [modes 64 0 0 0, modes 64 6 2 1], ∀ i ∈ [Instr.vwmac v3w, .vwmacn v3w, .vwmul v3w, .vwadd v3w], Fresh i (member m 0 0 {})) ∧
    ∀ fl, trapClass fl (trapEn (member (modes 64 0 0 0) 0 0 {}).cur.samp.fctl) = none := by
  exact ⟨fresh_all _ _ _ _ (by decide +kernel), fresh_all _ _ _ _ (by decide +kernel), no_trap⟩

/-- VectorFloatResultsAndFlags, FloatReductionAndScanResults: fp16 at its largest VL, bf16 in groups of 4, fp32. -/
theorem witness_float_members :
    ∀ m ∈ [modes 32 0x0A 0 0, modes 7 0x0B 2 1, modes 16 0x0C 0 0],
      ∀ i ∈ [Instr.vfadd v3, .vfsub v3, .vfmul v3, .vfdiv v3, .vfma v3, .vfms v3, .vfmin v3, .vfmax v3, .vfsqrt v3u, .vfabs v3u,
        .vfneg v3u, .vfclass v3u, .vfredsum v3, .vfredmax v3, .vfscan v3], Fresh i (member m 0 0 {}) :=
  fresh_all _ _ _ _ (by decide +kernel)

/-- FloatSumsAreRoundedOnce: two finite fp16 numbers, and the largest with itself. -/
theorem witness_float_sum :
    ∃ f, ffmt 0x0A = some f ∧ 0x3C00 < 2 ^ f.w ∧ (∃ m d, f.value 0x3C00 = .fin false m d) ∧ (∃ m d, f.value 0x7BFF = .fin false m d) ∧
      f.value (f.add rne 0x7BFF 0x7BFF).1 = .inf false := by
  refine ⟨_, rfl, by decide, ⟨_, _, rfl⟩, ⟨_, _, rfl⟩, by decide +kernel⟩

/-- CompareAndMaskResults. -/
theorem witness_compare_and_mask_members :
    (∀ m ∈ [modes 64 0 0 0], ∀ i ∈ [Instr.vcmpeq v3c, .vcmpne v3c, .vcmplt v3c, .vcmple v3c, .vcmpltn v3c, .vcmplen v3c], Fresh i (member m 0 0 {})) ∧
    (∀ m ∈ [modes 16 0x0C 0 1], ∀ i ∈ [Instr.vfcmpeq v3c, .vfcmplt v3c, .vfcmple v3c, .vfcmpun v3c], Fresh i (member m 0 0 {})) ∧
    (∀ m ∈ [modes 64 0x10 0 0], ∀ i ∈ [Instr.mand ⟨0, 1, 2, 3, 0⟩, .mor ⟨0, 1, 2, 3, 0⟩, .mxor ⟨0, 0, 2, 3, 1⟩, .mnot ⟨0, 1, 2, 0⟩, .mset ⟨0, 7, 0⟩, .mclr ⟨0, 0, 0⟩,
      .mpop ⟨0, 5, 2, 0⟩, .mfirst ⟨0, 5, 0, 1⟩], Fresh i (member m 0 0 {})) ∧
    ∃ l : List Nat, l.Pairwise (· < ·) ∧ ∀ j, j ∈ l ↔ j < 2 := by
  refine ⟨fresh_all _ _ _ _ (by decide +kernel), fresh_all _ _ _ _ (by decide +kernel), fresh_all _ _ _ _ (by decide +kernel),
    [0, 1], by decide, by simp; omega⟩

/-- MoveAndPermuteResults, ConversionAndBlockResults: i16; fp32 blocks of 32 elements in groups of 2; fp32 to fp16. -/
theorem witness_move_and_convert_members :
    (∀ m ∈ [modes 32 1 0 0], ∀ i ∈ [Instr.vsel v3, .vbcast ⟨0, 4, 12, 0, 0, 0⟩, .vmvs ⟨0, 5, 8, 0⟩, .vmsv ⟨0, 4, 5, 0⟩, .vslideup ⟨0, 4, 8, 5, 0, 0⟩,
      .vslidedn ⟨0, 4, 8, 5, 0, 0⟩, .vperm ⟨0, 4, 8, 12, 0, 0, 0⟩, .vid ⟨0, 4, 0⟩, .vcompress ⟨0, 4, 8, 0, 0⟩, .vexpand ⟨0, 4, 8, 0, 0⟩,
      .vready ⟨0, 5, 8⟩], Fresh i (member m 40 0 {})) ∧
    (∀ m ∈ [modes 32 0x0C 1 0], ∀ i ∈ [Instr.vcvt ⟨0, 4, 8, 0x0A, 0, 0⟩, .vqblk ⟨0, 16, 0, 24, 0⟩, .vdqblk ⟨0, 0, 16, 24, 0, 0, 0⟩],
      Fresh i (member m 0 0 {})) ∧
    ∃ sel : List Nat, sel.Pairwise (· < ·) ∧ ∀ j, j ∈ sel ↔ j < 2 := by
  refine ⟨fresh_all _ _ _ _ (by decide +kernel), fresh_all _ _ _ _ (by decide +kernel), [0, 1], by decide, by simp; omega⟩

/-- VectorFloatResultsAndFlags, flag traps: 127 + 127 in i8 with the trap of SAT (class 5, FCTL bit 9) enabled. -/
def trapping : State :=
  member { modes 4 0 0 0 with fctl := 0x200 } 0 0 { v := [(8, 0x7F0000), (12, 0x7F0000)] }

theorem witness_flag_trap :
    Fresh (.vsadd v3) trapping ∧ Oldest trapping ∧ trapping.waitingRecs = [] ∧ trapping.me.st = .running ∧ trapping.me.wait = .none ∧ 2 < vlS trapping ∧
    (trapping.me.vec.mask v3.mask.toNat).getLsbD 2 = true ∧
    trapClass (clampTo 8 (loS 8) (hiS 8) (sgn 8 (el trapping v3.va 1 8 2) + sgn 8 (lastEl trapping v3 2))).2 (trapEn trapping.cur.samp.fctl) = some 5 ∧
    (∀ j, j < 2 → trapClass (clampTo 8 (loS 8) (hiS 8) (sgn 8 (el trapping v3.va 1 8 j) + sgn 8 (lastEl trapping v3 j))).2
      (trapEn trapping.cur.samp.fctl) = none) ∧
    posts trapping { trapping.record 0 31 0 0 2 0 trapping.cur.pc 0 with halted := true } = true := by
  refine ⟨fresh_of _ _ _ _ _ rfl (by decide +kernel), oldest_member _ _ _ _, rfl, rfl, rfl, by decide, by decide +kernel, by decide +kernel, by decide +kernel, by decide +kernel⟩

/-- Rill results: each kind at VL 1 and at its largest; a source of the stream `2 C1C 5`; sums. -/
theorem witness_rill_members :
    (∀ m ∈ [modes 1 0x10 0 0, modes 128 0x11 0 1, modes 128 0x12 0 0],
      ∀ i ∈ [Instr.radd ⟨0, 4, 8, 12, 1, 0, 0⟩, .rsub ⟨0, 4, 8, 12, 1, 0, 0⟩, .rmin ⟨0, 4, 8, 12, 1, 0, 0⟩, .rmax ⟨0, 4, 8, 12, 1, 0, 0⟩,
        .rlen ⟨0, 4, 8, 1, 0⟩, .rpos ⟨0, 4, 8, 1, 0⟩, .rfilt ⟨0, 4, 8, 3, 1, 0⟩, .vldg ⟨0, 4, 5, 6, 1⟩, .vstg ⟨0, 4, 5, 6, 1⟩],
        Fresh i (member m 0x40000 4 {})) ∧
    (∀ m ∈ [modes 16 0x10 0 0], ∀ i ∈ [Instr.rdec ⟨0, 4, 8, 1, 1, 0⟩, .renc ⟨0, 4, 8, 1, 1, 0⟩, .rdsum ⟨0, 4, 8, 1, 0⟩], Fresh i (member m 0 0 {})) ∧
    (∀ m ∈ [modes 16 0x12 0 0], ∀ i ∈ [Instr.fdec ⟨0, 4, 8, 0x0C, 1, 0⟩, .fenc ⟨0, 4, 8, 0x0C, 1, 0⟩], Fresh i (member m 0 0 {})) ∧
    (sumCodes ⟨0x5C1C2, 5, none⟩ 0x10 {} 0 6).1.stop = none ∧ (modes 16 0x10 0 0).fctl.getLsbD 9 = false ∧ 0 < (modes 1 0x10 0 0).vl ∧
    (grantLoop ⟨0x5C1C2, 5, none⟩ none false 0 16 0 (fun _ _ _ c _ => (c.len, 2, 0)) {} 6).stop = none := by
  refine ⟨fresh_all _ _ _ _ (by decide +kernel), fresh_all _ _ _ _ (by decide +kernel), fresh_all _ _ _ _ (by decide +kernel),
    by decide +kernel, by decide, by decide, by decide +kernel⟩

/-! ## Members whose results the manual works out -/

/-- The state of a step that goes on. -/
def after (o : Host.Outcome State Fault Refusal) : State := match o with | .next t => t | _ => {}

/-- The worked grant of file 11: `radd` of kind RI at VL 4, 8 and 16 on `2 C1C 5` and `F11FAF8 2`. -/
def grantAt (vl : Nat) : State :=
  after (exec (.radd ⟨0, 8, 0, 4, 1, 0, 0⟩)
    (member (modes vl 0x10 0 0) 0 0 { v := [(0, 0x5C1C2), (4, 0x28FAF11F)], fill := [(0, 5), (4, 8)] }))

theorem test_radd_grants :
    (grantAt 4).me.vec.grant 1 = 0 ∧ (grantAt 8).me.vec.grant 1 = grantWord 1 1 7 7 ∧
    (grantAt 16).me.vec.grant 1 = grantWord 2 4 8 10 ∧ ((grantAt 16).me.vec.reg 8).toNat % 16 ^ 10 = 0xE1CAFAF11F ∧
    (grantAt 16).me.vec.fillOf 8 = 10 := by decide +kernel

/-- The worked block of R34: 3.0, -1.5, 0.75 and 0.2 under AUTO give scale byte 0x5F and the nibbles 7, D, 3, 1. -/
theorem test_quantised_block :
    (let t := after (exec (.vqblk ⟨0, 16, 0, 24, 0⟩)
      (member { modes 32 0x0C 1 0 with qcfg := 4 } 0 0 { v := [(0, 0x3E4CCCCD3F400000BFC0000040400000)] }))
     (t.me.vec.reg 24).toNat % 256 = 0x5F ∧ (t.me.vec.reg 16).toNat % 2 ^ 128 = 0x13D7 ∧ t.me.vec.fstat = 16) := by decide +kernel

/-! ## Witnesses: vector memory, braids, caches -/

/-- `ElemAt` as a computation, for an access of element 0 on with no exemption. -/
def elemAt (s : State) (acc : Access) (va : Word) (n a : Nat) : Bool :=
  !s.me.watchHit acc.needsR acc.needsW va.toNat n && decide (va.toNat < 2 ^ 48 ∧ va.toNat % n = 0) &&
  !s.walkBusy (dieOf s.cur.src) s.me.bind.ctx va.toNat (some (coreOf s.cur.src)) &&
  (match s.translate (dieOf s.cur.src) s.me.bind.ctx s.me.bind.secure acc va (some (coreOf s.cur.src)) with | .ok x => x == at_ a | .error _ => false) &&
  (Place.deep 0 a).exists && !(at_ a).fme.w && (at_ a).fme.kind != 5 &&
  (s.placesOf (at_ a).fme (dieOf s.cur.src) ((at_ a).fa % 65536) acc).all (fun q => !s.placeBusy q && !s.poisoned q n)

theorem elemAt_of (s : State) (acc : Access) (va : Word) (n a j : Nat) (h : elemAt s acc va n a = true) :
    ElemAt s acc va n j (at_ a) (.deep 0 a) := by
  simp only [elemAt, Bool.and_eq_true, Bool.not_eq_true', decide_eq_true_eq, bne_iff_ne, List.all_eq_true] at h
  obtain ⟨⟨⟨⟨⟨⟨⟨h1, h2, h3⟩, hb⟩, h4⟩, h5⟩, h6⟩, h9⟩, h7⟩ := h
  refine ⟨.inr h1, h2, h3, hb, ?_, rfl, h5, fun _ => h6, fun _ => h9, h7⟩
  split at h4
  · rename_i x hx; rw [hx, eq_of_beq h4]
  · cases h4

/-- Two elements at addresses that a computation accepts. -/
theorem reach_two (s : State) (acc : Access) (A : Nat → Prop) (addr : Nat → Word) (n : Nat) (a : Nat → Nat)
    (hA : ∀ j, A j → j < 2) (h : ∀ j ∈ [0, 1], elemAt s acc (addr j) n (a j) = true) :
    AllReach s acc false A addr n (fun j => at_ (a j)) (fun j => .deep 0 (a j)) := by
  intro j hj
  simp only [Bool.false_eq_true, if_false]
  have : j = 0 ∨ j = 1 := by have := hA j hj; omega
  rcases this with rfl | rfl
  · exact elemAt_of _ _ _ _ _ _ (h 0 (by simp))
  · exact elemAt_of _ _ _ _ _ _ (h 1 (by simp))

/-- Two i32 elements, at the last 8 bytes of page 2. -/
def two : State := member (modes 2 2 0 0) 0x2FFF8 4 {}

theorem act_two (s : State) (mk : BitVec 2) (h : vlS s = 2) (j : Nat) : act s mk j → j < 2 := fun ⟨a, _⟩ => by omega

/-- VectorLoadResults and VectorStoreResults, memory: every form on the last 8 bytes of a page, VL at 2. -/
theorem witness_vector_memory :
    MemOk two ∧ StateOk two ∧ AtOnce two ∧ two.me.buf = [] ∧ two.flyWrites = [] ∧
    (∀ i ∈ [Instr.vld ⟨0, 4, 5, 0, 0, 0⟩, .vlds ⟨0, 4, 5, 6, 0, 0, 0⟩, .vldx ⟨0, 4, 5, 8, 0, 0, 0, 0⟩, .vlda ⟨0, 4, 5, 6, 0, 0, 0, 1⟩,
      .vst ⟨0, 4, 5, 0, 0, 0⟩, .vsts ⟨0, 4, 5, 6, 0, 0, 0⟩, .vstx ⟨0, 4, 5, 8, 0, 0, 0, 0⟩, .vstm ⟨0, 4, 5, 0, 0⟩], Fresh i two) ∧
    (∃ x p, AllReach two .read false (act two 0) (unitA two) 4 x p) ∧ (∃ x p, AllReach two .write false (act two 0) (unitA two) 4 x p) ∧
    (∃ x p, AllReach two .writeAll false (act two 0) (unitA two) 4 x p) ∧
    (∃ x p, AllReach two .read false (act two 0) (strideA two) 4 x p) ∧
    (∃ x p, AllReach two .write false (act two 0) (indexA two 8 true) 4 x p) := by
  refine ⟨wf_of _ rfl, ok_of _ rfl rfl rfl rfl rfl rfl, ⟨rfl, rfl, rfl, none_fly⟩, rfl, rfl, ?_, ⟨_, _, reach_two _ _ _ _ _ (fun j => 0x2FFF8 + 4 * j) (act_two _ _ rfl) ?_⟩,
    ⟨_, _, reach_two _ _ _ _ _ (fun j => 0x2FFF8 + 4 * j) (act_two _ _ rfl) ?_⟩,
    ⟨_, _, reach_two _ _ _ _ _ (fun j => 0x2FFF8 + 4 * j) (act_two _ _ rfl) ?_⟩,
    ⟨_, _, reach_two _ _ _ _ _ (fun j => 0x2FFF8 + 4 * j) (act_two _ _ rfl) ?_⟩,
    ⟨_, _, reach_two _ _ _ _ _ (fun _ => 0x2FFF8) (act_two _ _ rfl) ?_⟩⟩
  · exact fun i hi => fresh_all [modes 2 2 0 0] _ _ _ (by decide +kernel) _ (.head _) i hi
  all_goals decide +kernel

/-- VectorLoadResults and VectorStoreResults, scratchpad: the last 8 bytes of one way; and a store inside a strip. -/
def scratched : State := { member (modes 2 2 0 0) 0xFFF8 4 {} with cores := [(0, { ways := 1 })] }
def inStrip : State :=
  { withStrand { running with csr := { vlcap := 512 }, openStrip := some 1, viq := [{ convoyOf [0] with strip := 1 }] } with
    cur := { pc := 0x8000, samp := modes 2 2 0 0, op0 := 0x2FFF8 } }

theorem witness_scratchpad_and_strip :
    (∀ j, j < 2 → ScratchAt scratched (unitA scratched j) 4) ∧ Fresh (.vld ⟨0, 4, 5, 0, 0, 2⟩) scratched ∧
    Fresh (.vst ⟨0, 4, 5, 0, 0, 2⟩) scratched ∧ Fresh (.vst ⟨0, 4, 5, 0, 0, 0⟩) inStrip ∧ inStrip.memberStrip = some 1 ∧
    inStrip.bufHeld inStrip.cur.src = false ∧ inStrip.me.buf.length + 8 * 1 ≤ 512 ∧
    (∃ x p, AllReach inStrip .write false (act inStrip 0) (unitA inStrip) 4 x p) := by
  refine ⟨fun j hj => ?_, ⟨begins_of _ _ (by decide +kernel), fun _ => rfl, rfl⟩, ⟨begins_of _ _ (by decide +kernel), fun _ => rfl, rfl⟩,
    ⟨begins_of _ _ (by decide +kernel), fun _ => rfl, rfl⟩, rfl, by decide, by decide,
    ⟨_, _, reach_two _ _ _ _ _ (fun j => 0x2FFF8 + 4 * j) (act_two _ _ rfl) (by decide +kernel)⟩⟩
  have : j = 0 ∨ j = 1 := by omega
  rcases this with rfl | rfl <;> exact ⟨by decide, by decide, by decide⟩

/-- VectorLoadResults, the stop: under mask 1 only element 1 is active, at 2^48. -/
def beyond48 : State := member (modes 2 2 0 0) 0xFFFFFFFFFFFC 0 { m := [(1, 2)] }

theorem witness_vector_load_stop :
    Fresh (.vld ⟨0, 4, 5, 1, 0, 0⟩) beyond48 ∧ Oldest beyond48 ∧ beyond48.waitingRecs = [] ∧ act beyond48 1 1 ∧ (∀ j, j < 1 → ¬act beyond48 1 j) ∧
    2 ^ 48 ≤ (unitA beyond48 1).toNat ∧ beyond48.me.watchHit true false (unitA beyond48 1).toNat 4 = false ∧
    posts beyond48 { beyond48.record 0 8 5 (unitA beyond48 1) 1 0 beyond48.cur.pc 0 with halted := true } = true := by
  refine ⟨fresh_of _ _ _ _ _ rfl (by decide +kernel), oldest_member _ _ _ _, rfl, ⟨by decide, by decide +kernel⟩, fun j hj h => ?_, by decide, by decide, by decide +kernel⟩
  obtain rfl : j = 0 := by omega
  exact absurd h.2 (by decide +kernel)

/-- GranuleLoadsAndStores: two granules from the odd address 0x5FFF5 on, in a stream of kind RN. -/
def granules : State := member (modes 4 0x11 0 0) 0x5FFF5 2 { fill := [(4, 2)] }

theorem witness_granules :
    MemOk granules ∧ StateOk granules ∧ AtOnce granules ∧ Fresh (.vldg ⟨0, 4, 5, 6, 1⟩) granules ∧ Fresh (.vstg ⟨0, 4, 5, 6, 1⟩) granules ∧
    (∀ j, j < 2 → ElemAt granules .read ((granules.cur.op0 + BitVec.ofNat 64 j) >>> 1) 1 j (at_ (0x2FFFA + j)) (.deep 0 (0x2FFFA + j))) ∧
    (∀ j, j < 2 → ElemAt granules .write ((granules.cur.op0 + BitVec.ofNat 64 j) >>> 1) 1 j (at_ (0x2FFFA + j)) (.deep 0 (0x2FFFA + j))) ∧
    min granules.cur.op1.toNat (vlS granules) = 2 ∧ granules.me.vec.groupFill 512 4 1 = 2 := by
  refine ⟨wf_of _ rfl, ok_of _ rfl rfl rfl rfl rfl rfl, ⟨rfl, rfl, rfl, none_fly⟩, fresh_of _ _ _ _ _ rfl (by decide +kernel), fresh_of _ _ _ _ _ rfl (by decide +kernel),
    fun j hj => ?_, fun j hj => ?_, by decide, by decide⟩
  all_goals
    have : j = 0 ∨ j = 1 := by omega
    rcases this with rfl | rfl <;> exact elemAt_of _ _ _ _ _ _ (by decide +kernel)

/-- VectorAtomicsCountsAndWaits: u32 atomics, both elements at the last word of a page; fp32 additions; a store with reader count
255; a counter awaited at 0 and at 1. -/
def atomics (code : Nat) : State := member (modes 2 code 0 0) 0x2FFFC 0 {}

theorem witness_vector_atomics :
    (∀ i ∈ [Instr.vamoadd ⟨0, 4, 5, 8, 0, 0, 0, 1⟩, .vamoswap ⟨0, 4, 5, 8, 0, 0, 0, 1⟩, .vamocas ⟨0, 4, 5, 8, 0, 0, 0, 0⟩,
      .vamomin ⟨0, 4, 5, 8, 0, 0, 0, 1⟩, .vamomax ⟨0, 4, 5, 8, 0, 0, 0, 1⟩], Fresh i (atomics 6)) ∧
    Fresh (.vamoadd ⟨0, 4, 5, 8, 0, 0, 0, 1⟩) (atomics 0x0C) ∧ StateOk (atomics 6) ∧ AtOnce (atomics 6) ∧ (atomics 6).me.ssq = [] ∧
    ¬(vtCode (atomics 0x0C).cur.samp.vtype = 0x0C ∧ (atomics 0x0C).me.bind.det = true) ∧
    (∀ j, act (atomics 6) 0 j → ElemAt (atomics 6) .atomic (indexA (atomics 6) 8 false j) 4 j (at_ 0x2FFFC) (.deep 0 0x2FFFC)) ∧
    (atomics 6).counted.find (lineOf (Place.deep 0 0x2FFFC).key) = none ∧
    (∃ e ∈ ((atomics 6).die 0).l1Tlb.getD 0 [], e.covers 0 ((indexA (atomics 6) 8 false 0).toNat / 65536) = true) := by
  refine ⟨fun i hi => fresh_all [modes 2 6 0 0] _ _ _ (by decide +kernel) _ (.head _) i hi, fresh_of _ _ _ _ _ rfl (by decide +kernel),
    ok_of _ rfl rfl rfl rfl rfl rfl, ⟨rfl, rfl, rfl, none_fly⟩, rfl, by decide, fun j hj => ?_, by decide, ⟨page 2, by decide +kernel⟩⟩
  have : j = 0 ∨ j = 1 := by have := act_two _ _ rfl j hj; omega
  rcases this with rfl | rfl <;> exact elemAt_of _ _ _ _ _ _ (by decide +kernel)

theorem witness_counts_and_waits :
    (let s := member (modes 2 2 0 0) 0x2FFF8 255 {}
     StateOk s ∧ Fresh (.vstrc ⟨0, 4, 5, 6, 0, 0⟩) s ∧ AtOnce s ∧ s.counted = [] ∧ ∃ x p, AllReach s .write false (act s 0) (unitA s) 4 x p) ∧
    (∀ n ∈ [(0 : Word), 1], let s := member (modes 1 3 0 0) 0x2FFF8 n {}
      Anew s ∧ s.counted.find (lineOf (Place.deep 0 0x2FFF8).key) = none ∧ ElemAt s .read s.cur.op0 8 0 (at_ 0x2FFF8) (.deep 0 0x2FFF8) ∧ leNat (s.readFor 0 (.deep 0 0x2FFF8) 8) = 0) := by
  refine ⟨⟨ok_of _ rfl rfl rfl rfl rfl rfl, fresh_of _ _ _ _ _ rfl (by decide +kernel), ⟨rfl, rfl, rfl, none_fly⟩, rfl, _, _,
    reach_two _ _ _ _ _ (fun j => 0x2FFF8 + 4 * j) (act_two _ _ rfl) (by decide +kernel)⟩, fun n hn => ?_⟩
  rcases List.mem_pair.mp hn with rfl | rfl <;> exact ⟨anew_of rfl, rfl, elemAt_of _ _ _ _ _ _ (by decide +kernel), by decide +kernel⟩

/-- Braid window 0, whose lines lie in page 2: 8 KiB, its regions at 1 MiB of each die. -/
def braided (last : Option Word) : State :=
  { withStrand { running with csr := { vlcap := 512 }, lastBraid := last, viq := [convoyOf [0]] } with
    cur := { pc := 0x8000, samp := modes 64 0 0 0, op0 := 0x20000 }
    dies := [(0, { die0 with fmCache := die0.fmCache.set 2 braidFrame })]
    braidWindows := [(0, ⟨8192, List.replicate 8 0x100000⟩)] }

def lineOk (s : State) (acc : Access) : Bool :=
  !s.me.watchHit acc.needsR acc.needsW 0x20000 64 &&
    (match s.lineMeet acc false none 0 0x20000 with | .ok b => b == ⟨0, 0, 0, ⟨2, 0x20000, braidFrame, none⟩⟩ | .error _ => false)

theorem line_of (s : State) (acc : Access) (ho : s.cur.op0 = 0x20000) (h : lineOk s acc = true) :
    LineAt s acc 0 ⟨0, 0, 0, ⟨2, 0x20000, braidFrame, none⟩⟩ := by
  simp only [lineOk, Bool.and_eq_true, Bool.not_eq_true'] at h
  obtain ⟨h1, h2⟩ := h
  have e : s.cur.op0 + BitVec.ofNat 64 (64 * 0) = 0x20000 := by rw [ho]; rfl
  refine ⟨by rw [e]; exact h1, ?_⟩
  rw [e]
  split at h2
  · rename_i b hb; rw [hb, eq_of_beq h2]
  · cases h2

/-- BraidReadsWritesAndRepairs: one line, read and written; a store whose timestamp was used. -/
theorem witness_braid :
    (∀ i ∈ [Instr.mjld ⟨0, 4, 5, 0⟩, .mjst ⟨0, 4, 5, 0⟩, .mjrep ⟨0, 5⟩], Begins i (braided none)) ∧
    Fresh (.mjst ⟨0, 4, 5, 0⟩) (braided none) ∧ (braided none).cur.op0.toNat % 64 = 0 ∧ linesS (braided none) = 1 ∧
    LineAt (braided none) .braidRead 0 ⟨0, 0, 0, ⟨2, 0x20000, braidFrame, none⟩⟩ ∧
    LineAt (braided none) .braidWrite 0 ⟨0, 0, 0, ⟨2, 0x20000, braidFrame, none⟩⟩ ∧
    OnLines (braided none) ⟨0, 0, 0, ⟨2, 0x20000, braidFrame, none⟩⟩ ∧ (braided none).me.lastBraid ≠ some (braided none).braidStamp ∧
    (braided (some (braided none).braidStamp)).me.lastBraid = some (braided (some (braided none).braidStamp)).braidStamp ∧
    (newerTag 2048 1024 = true ∧ newerTag 1024 2048 = false) := by
  refine ⟨fun i hi => begins_of _ _ ?_, ⟨begins_of _ _ (by decide +kernel), fun _ => rfl, rfl⟩, by decide, by decide,
    line_of _ _ rfl (by decide +kernel), line_of _ _ rfl (by decide +kernel), ⟨by decide, fun d => ?_⟩, by decide, by decide, by decide⟩
  · exact List.all_eq_true.mp (by decide +kernel : [Instr.mjld ⟨0, 4, 5, 0⟩, .mjst ⟨0, 4, 5, 0⟩, .mjrep ⟨0, 5⟩].all (begins (braided none)) = true) i hi
  · show (List.replicate 8 0x100000).getD d 0 % 64 = 0
    rw [List.getD_eq_getElem?_getD, List.getElem?_replicate]
    split <;> rfl

/-- CacheAndScratchpadControl: a range that ends with a page; a count of ways at its largest; another launch on the core. -/
def ranged (n : Word) : State := member (modes 1 0 0 0) 0x2FFFF n {}
def sharing : State :=
  let s := member (modes 1 0 0 0) 12 0 {}
  { s with strands := s.strands ++ [(1, { running with bind := { launch := ⟨0, 1⟩ } })] }

theorem witness_cache_control :
    (∀ i ∈ [Instr.cflush ⟨0, 5, 6, 0⟩, .cinv ⟨0, 5, 6, 1⟩, .cinv ⟨0, 5, 6, 0⟩], Begins i (ranged 1)) ∧ StateOk (ranged 1) ∧
    NoAliases (ranged 1) ∧ cacheCount (ranged 1) = 1 ∧ cacheCount (ranged 0) = 0 ∧
    CacheAt (ranged 1) .read (fun _ => at_ 0x2FFC0) (fun _ => .deep 0 0x2FFC0) ∧
    CacheAt (ranged 1) .write (fun _ => at_ 0x2FFC0) (fun _ => .deep 0 0x2FFC0) ∧
    (let t := { (ranged 1).strand 0 with buf := [{ fa := 0x20040, replica := none, mask := 3, data := 0xAB, strip := 0, va := 0x20040 }] }
     let s := (ranged 1).setStrand 0 t
     Begins (.cflush ⟨0, 5, 6, 0⟩) s ∧ CacheAt s .read (fun _ => at_ 0x2FFC0) (fun _ => .deep 0 0x2FFC0) ∧ s.me.buf ≠ [] ∧ cacheCount s = 1) ∧
    MscRoom (ranged 1) ∧
    (let s := member (modes 1 0 0 0) 12 0 {}
     Begins (.l1cfg ⟨0, 5⟩) s ∧ s.me.ssq = [] ∧ s.me.lands = [] ∧ s.me.cpq = [] ∧ s.flying s.cur.src = false ∧
       ∀ e ∈ s.strands, coreOf e.1 = 0 → e.2.st = .unbound ∨ e.2.bind.launch = s.me.bind.launch) ∧
    (let s : State := { base with aliases := [(0x900, 0x800)], l1 := [⟨0, 0x800, List.replicate 64 0⟩] }
     (0x800 : Nat) ≠ 0x900 ∧ s.aliasOf 0x800 = 0x800 ∧ s.aliases.find 0x900 = some 0x800 ∧ (s.inL1 0x800).isSome = true) ∧
    Begins (.l1cfg ⟨0, 5⟩) sharing ∧ Oldest sharing ∧ sharing.waitingRecs = [] ∧ (∃ e ∈ sharing.strands, coreOf e.1 = 0 ∧ e.2.st ≠ .unbound ∧ e.2.bind.launch ≠ sharing.me.bind.launch) ∧
    posts sharing { sharing.record 0 22 0 0 0xFFFFFFFF 0 sharing.cur.pc 0 with halted := true } = true := by
  refine ⟨fun i hi => begins_of _ _ ?_, ok_of _ rfl rfl rfl rfl rfl rfl, ⟨rfl, rfl, rfl⟩, by decide, by decide, ⟨rfl, fun j hj => ?_⟩,
    ⟨rfl, fun j hj => ?_⟩, ⟨begins_of _ _ (by decide +kernel), ⟨rfl, fun j hj => ?_⟩, by decide, by decide⟩, (by decide : (0 : Nat) ≤ mscCapacity),
    ⟨begins_of _ _ (by decide +kernel), rfl, rfl, rfl, rfl, fun e he _ => ?_⟩, by decide,
    begins_of _ _ (by decide +kernel), ⟨_, _, rfl, rfl, rfl, rfl, rfl⟩, rfl, ⟨_, .tail _ (.head _), by decide, by decide, by decide⟩,
    by decide +kernel⟩
  · exact List.all_eq_true.mp (by decide +kernel : [Instr.cflush ⟨0, 5, 6, 0⟩, .cinv ⟨0, 5, 6, 1⟩, .cinv ⟨0, 5, 6, 0⟩].all (begins (ranged 1)) = true) i hi
  · obtain rfl : j = 0 := by have : cacheCount (ranged 1) = 1 := by decide
                             omega
    exact ⟨by decide +kernel, rfl, by decide⟩
  · obtain rfl : j = 0 := by have : cacheCount (ranged 1) = 1 := by decide
                             omega
    exact ⟨by decide +kernel, rfl, by decide⟩
  · obtain rfl : j = 0 := Nat.lt_one_iff.mp hj
    exact ⟨by decide +kernel, rfl, by decide⟩
  · rw [List.mem_singleton.mp he]; exact .inr rfl

/-! ## Witnesses: copies, landings, matrix operations -/

/-- A member of a launch that declares matrix use, with registers of 8,192 bits. -/
def bigMember (m : Sampled) (op0 op1 : Word) : State :=
  { withStrand { running with bind := { matrix := true }, viq := [convoyOf [0]] } with
    cur := { pc := 0x8000, samp := m, op0 := op0, op1 := op1, cpyDst := 0x50000 } }

def bigBegins (s : State) (i : Instr) : Bool :=
  (issueCheck i s.cur.samp s.given).isNone && anew s && vlbOf s == 8192 && decide (vlS s ≤ vlbOf s * gS s / ewS s)

theorem issues_of (m : Sampled) (a b : Word) (i : Instr) (h : bigBegins (bigMember m a b) i = true) : Issues i (bigMember m a b) := by
  simp only [bigBegins, Bool.and_eq_true, beq_iff_eq, decide_eq_true_eq, Option.isNone_iff_eq_none] at h
  obtain ⟨⟨⟨h1, h2⟩, h5⟩, h6⟩ := h
  exact ⟨⟨⟨h1, anew_of h2, ⟨13, by omega, by omega, h5⟩, h6⟩, fun _ => rfl, rfl⟩, rfl, rfl, rfl, rfl⟩

/-- EngineMembersJoinTheirQueues: copies of 1 byte and of the largest lengths; i8 operands, one A register. -/
def mxModes : Sampled := { modes 1024 0 0 0 with mxcfg := 0x2000 }

theorem witness_engine_members :
    Issues (.cpy ⟨0, 6, 4, 5, 0, 0⟩) (bigMember (modes 1 0 0 0) 0x40000 1) ∧
    Issues (.cpy ⟨0, 6, 4, 5, 0, 0⟩) (bigMember (modes 1 0 0 0) 0x40000 0x100000) ∧
    Issues (.cpyv ⟨0, 4, 5, 0⟩) (bigMember (modes 1024 0 0 0) 0x40000 0) ∧
    Issues (.cpyw ⟨0, 15, 5, 6⟩) (bigMember (modes 1 0 0 0) 0x40000 32768) ∧
    (∀ i ∈ [Instr.mma ⟨0, 32, 0, 15, 0⟩, .mmaz ⟨0, 32, 0, 15, 0⟩, .mxsum ⟨0, 32, 0, 0, 0⟩], Issues i (bigMember mxModes 0 0)) ∧
    (bigMember mxModes 0 0).cur.follow = none ∧ (∀ c, (bigMember mxModes 0 0).convoy? = some c → c.mxInterrupted = false) ∧
    (two.me.bind.matrix = false ∧ Anew two ∧ Oldest two ∧ two.waitingRecs = [] ∧ two.me.st = .running ∧ two.me.wait = .none ∧
      posts two { two.record 0 21 0 0 0xFFFFFFFF 0 two.cur.pc 0 with halted := true } = true) := by
  refine ⟨issues_of _ _ _ _ (by decide +kernel), issues_of _ _ _ _ (by decide +kernel), issues_of _ _ _ _ (by decide +kernel),
    issues_of _ _ _ _ (by decide +kernel), fun i hi => issues_of _ _ _ _ ?_, rfl, fun c hc => ?_, rfl, anew_of rfl,
    oldest_member _ _ _ _, rfl, rfl, rfl, by decide +kernel⟩
  · exact List.all_eq_true.mp
      (by decide +kernel : [Instr.mma ⟨0, 32, 0, 15, 0⟩, .mmaz ⟨0, 32, 0, 15, 0⟩, .mxsum ⟨0, 32, 0, 0, 0⟩].all (bigBegins (bigMember mxModes 0 0)) = true) i hi
  · obtain rfl : convoyOf [0] = c := Option.some.inj hc
    rfl

/-- A strand whose first copy is as given. -/
def copying (o : CpOp) : State := withStrand { running with cpq := [o] }

def piecesAre (s : State) (acc : Access) (a n : Nat) : Bool :=
  (match s.pieces 0 acc (BitVec.ofNat 64 a) n with | .ok ps => ps == [⟨BitVec.ofNat 64 a, 0, n, at_ a, .deep 0 a⟩] | .error _ => false) &&
  !s.poisoned (.deep 0 a) n && (s.die 0).tlb.any (fun e => e.covers 0 ((BitVec.ofNat 64 a : Word).toNat / 65536))

/-- One line, copied from the last bytes of page 2. -/
theorem reads_of (o : CpOp) (hl : copyLines o = 1) (hm : min 64 o.len = o.len) (hd : o.decrypt = false) (h0 : o.line = 0) (hh : o.hint ≠ 2)
    (hn : o.sent = false)
    (a : Nat) (hs : o.src = BitVec.ofNat 64 a) (h : piecesAre (copying o) .read a o.len = true) :
    Reads (copying o) 0 o (fun _ => (copying o).readPlace (.deep 0 a) o.len) [] := by
  simp only [piecesAre, Bool.and_eq_true, Bool.not_eq_true'] at h
  obtain ⟨⟨h1, h2⟩, h3⟩ := h
  refine ⟨rfl, by simp, rfl, hd, h0, hh, hn, rfl, rfl, rfl, base_ok _, fun i hi => ?_⟩
  obtain rfl : i = 0 := by omega
  refine ⟨[⟨BitVec.ofNat 64 a, 0, o.len, at_ a, .deep 0 a⟩], ?_, by simp, fun q hq => ?_⟩
  · simp only [Nat.mul_zero, Nat.sub_zero, hm, hs, BitVec.add_zero]
    split at h1
    · rename_i ps hp; rw [hp, eq_of_beq h1]
    · cases h1
  · rw [List.mem_singleton.mp hq]
    exact ⟨h2, List.any_eq_true.mp h3⟩

/-- CopiesLandingsAndCounters: the three copies; a landing in force and one superseded; number 1 of the copy timeline. -/
def cpyOp : CpOp := { num := 1, kind := .cpy, src := 0x2FFC0, dst := 0x50000, len := 64, seq := 0, pc := 0, member := 0 }
def cpyvOp : CpOp := { cpyOp with kind := .cpyv, dst := 4, len := 1, live := [4] }
def cpywOp : CpOp := { cpyOp with kind := .cpyw, dst := 15 }
def landing (live : Bool) : State :=
  withStrand { running with lands := [{ seq := 0, reg := 4, grp := 15, ew := 64, elems := [(127, 5)], num := none, live := live }] }
def counting : State := withStrand { running with csr := { tlbase := 0x20000 }, tlCopy := { issued := 1, complete := [1] } }

/-- R272, R253: a turn that carries out one line of a copy of two leaves it at line 1. -/
theorem test_copy_in_part :
    (match (copying { cpyOp with len := 128 }).copyTurn 0 (some 1) with
     | .next t => (t.strand 0).cpq.map CpOp.line == [1] && t.readPlace (.deep 0 0x50000) 64 == (copying cpyOp).readPlace (.deep 0 0x2FFC0) 64
     | _ => false) = true := by decide +kernel

/-- R12: the spec's worked number of peer port 1 of die 6, package port 13; the host link. -/
theorem test_port_source : portSource 13 = 0x371 ∧ portSource 16 = 99 := by decide

theorem witness_copies_and_counters :
    Reads (copying cpyOp) 0 cpyOp (fun _ => (copying cpyOp).readPlace (.deep 0 0x2FFC0) 64) [] ∧
    piecesAre (copying cpyOp) .write 0x50000 64 = true ∧
    Reads (copying cpyvOp) 0 cpyvOp (fun _ => (copying cpyvOp).readPlace (.deep 0 0x2FFC0) 1) [] ∧ cpyvOp.live.Nodup ∧
    Reads (copying cpywOp) 0 cpywOp (fun _ => (copying cpywOp).readPlace (.deep 0 0x2FFC0) 64) [] ∧
    (∀ q ∈ [false, true], let o := { cpyOp with sent := true }
      let s := { copying o with ports := [(16, { inflight := if q = true then [⟨0, some 1, 0x50000, 0, true, ⟨0, 0⟩⟩] else [] })] }
      (s.strand 0).cpq = [o] ∧ (s.strand 0).cpHeld = false ∧ s.copyAcked 0 1 = !q) ∧
    ((copying cpywOp).strand 0).slotPoison = [] ∧ ((copying cpywOp).strand 0).slotRead cpywOp = false ∧ Memory.wf ((copying cpywOp).strand 0).slots = true ∧
    (∃ l, ((landing true).strand 0).lands[0]? = some l ∧ l.live = true ∧ (l.elems.map Prod.fst).Nodup ∧ ∀ e ∈ l.elems, (e.1 + 1) * l.ew ≤ 8192) ∧
    (∃ l, ((landing false).strand 0).lands[0]? = some l ∧ l.live = false) ∧
    (let u := counting.strand 0
     (u.timeline 0).counter.toNat < 1 ∧ (∀ m, (u.timeline 0).counter.toNat < m → m ≤ 1 → m ∈ (u.timeline 0).complete) ∧
       2 ∉ (u.timeline 0).complete ∧ counting.ctxBlocked 0 0 (u.counterVa 0) = false ∧
       (match counting.ctxWrite 0 0 (u.counterVa 0) (leBytes 8 1) with | .ok _ => true | .error _ => false) = true) := by
  refine ⟨reads_of _ rfl rfl rfl rfl (by decide) rfl _ rfl (by decide +kernel), by decide +kernel,
    reads_of _ rfl rfl rfl rfl (by decide) rfl _ rfl (by decide +kernel), by decide,
    reads_of _ rfl rfl rfl rfl (by decide) rfl _ rfl (by decide +kernel), by decide, rfl, rfl, rfl, ⟨_, rfl, by decide⟩, ⟨_, rfl, rfl⟩, by decide, ?_, by decide,
    by decide +kernel, by decide +kernel⟩
  intro m h1 h2
  have h1 : 0 < m := h1
  obtain rfl : m = 1 := by omega
  exact .head _

/-- An operation on i8 operands with one A register of 8,192 bits: K = 64, N = 64, one slice; its slot is slot 0. -/
def mxOp (kind : MxKind) (begun : Bool) : MxOp :=
  { num := 1, kind := kind, vd := 32, va := 0, slot := 0, ea := false, cfg := 0x2000, zpa := 0, seq := 0, pc := 0x8000, member := 0,
    captured := some ⟨[0], 0⟩, begun := begun, acc := List.replicate (if kind = .mxsum then 1 else 4) 0,
    live := (List.range (if kind = .mxsum then 1 else 4)).map (32 + ·) }

/-- The slot header of R290 for it: format 0, i8, 64 rows, 64 columns, 4,096 bytes at 64. -/
def multiplying (o : MxOp) : State :=
  withStrand { running with mxq := [o], slots := [(2, 64), (4, 64), (0x10, 64), (0x15, 16)] }

/-- MatrixEngineResults: an operation that begins and one that has begun; sums; an engine that has failed; a follow-on whose copy
is complete. -/
theorem witness_matrix_engine :
    SliceReady (multiplying (mxOp .mma true)) 0 (mxOp .mma true) [] ∧ SliceReady (multiplying (mxOp .mmaz false)) 0 (mxOp .mmaz false) [] ∧
    SliceReady (multiplying (mxOp .mxsum false)) 0 (mxOp .mxsum false) [] ∧ 0 < (mxOp .mma true).n 8192 ∧
    (mxOp .mma true).slices 8192 ≤ (mxOp .mma true).slice + 1 ∧
    (∀ fl, trapClass fl (trapEn ((((multiplying (mxOp .mma true)).strand 0).viq.find? (fun c => c.seq == 0)).map Convoy.samp |>.getD {}).fctl) = none) ∧
    (({ multiplying (mxOp .mma true) with cores := [(0, { engineFailed := true })] } : State).core 0).engineFailed = true ∧
    (base.strand 0).mxq = [] ∧
    (let o := { mxOp .mma false with follow := some 1 }
     ((multiplying o).strand 0).mxq = [o] ∧ ((multiplying o).strand 0).mxHeld = false ∧ (∀ c ∈ ((multiplying o).strand 0).cpq, c.num ≠ 1) ∧ o.va < 64) := by
  refine ⟨⟨rfl, rfl, by decide, by decide, by decide, rfl, rfl, rfl, by decide, by decide, ⟨13, by decide, by decide, by decide⟩, by decide +kernel⟩,
    ⟨rfl, rfl, by decide, by decide, by decide, rfl, rfl, rfl, by decide, by decide, ⟨13, by decide, by decide, by decide⟩, by decide +kernel⟩,
    ⟨rfl, rfl, by decide, by decide, by decide, rfl, rfl, rfl, by decide, by decide, ⟨13, by decide, by decide, by decide⟩, by decide +kernel⟩,
    by decide, by decide, no_trap, by decide, rfl, rfl, rfl, fun _ h => absurd h List.not_mem_nil, by decide⟩

/-! ## Witnesses: convoys, strips, errors, the eddy -/

/-- A convoy of one member that is done. -/
def doneConvoy : Convoy := { convoyOf [0] with next := 1 }
def retiring : State := withStrand { running with viq := [{ doneConvoy with pendScalar := some (5, 7) }] }
def waitsFor (w : Wait) : State := withStrand { running with st := .waiting, wait := w, viq := [convoyOf [0]] }
def unissued : State :=
  { withStrand { running with viq := [{ convoyOf [0x2A210490] with issued := false }] } with cores := [(0, { turn := some 0 })] }

def key0 : GroupKey := ⟨⟨0, 0⟩, 0⟩

/-- The oldest convoy has a stop that nothing keeps waiting. -/
def pending : State :=
  withStrand { running with viq := [{ convoyOf [0] with pendStop := some ⟨{}, [{ cause := 10, pc := 0x8000 }]⟩ }] }

/-- RetirementWaitsAndIssue: a convoy that is done and one that is not; waits that are over and not; a turn holder. -/
theorem witness_retirement :
    (∃ c, (retiring.strand 0).viq = [c] ∧ HeadDone (retiring.strand 0) c ∧ c.pendScalar = some (5, 7)) ∧
    (retiring.strand 0).csr.tracectl.getLsbD 0 = false ∧ ¬HeadDone ((waitsFor .strips).strand 0) (convoyOf [0]) ∧
    (waitsFor .strips).waitOver 0 = true ∧ (waitsFor (.retired 0)).waitOver 0 = false ∧
    (∃ e ix, (atBarrier 0 1 0).barrierOf 0 ((atBarrier 0 1 0).strand 0).group 0 = some (ix, e)) ∧
    (unissued.topPrio 0 Strand.ready = some 0 ∧ unissued.holds 0 0 = true ∧ (unissued.core 0).turn = some 0 ∧ (unissued.strand 0).usable = true ∧
      ∃ c, (unissued.strand 0).viq.find? (fun e => !e.issued) = some c) ∧
    (let s := { unissued with cores := [(0, { turn := some 0, turnOver := true })] }
     s.topPrio 0 Strand.ready = some 0 ∧ s.holds 0 0 = false ∧ nextHolder (s.levelOf 0 0) (s.core 0).turn = some 0 ∧ (s.strand 0).usable = true ∧
       0 < max (-(2 ^ 31)) (min (16 * 64 * ((s.strand 0).bind.weight : Int)) ((s.strand 0).deficit + 64 * ((s.strand 0).bind.weight : Int)))) ∧
    (∃ c p q, (pending.strand 0).viq = [c] ∧ c.pendStop = some p ∧ c.eddyDue = [] ∧ c.pendScalar = none ∧ p.recs = [q] ∧ q.ctx = 0 ∧
      (pending.strand 0).st = .running ∧ (pending.strand 0).wait = .none ∧ pending.waitingRecs = [] ∧
      posts pending { q with gtc := (pending.die 0).gtc, halted := true, more := false } = true) ∧
    (let s : State := { withStrand { running with st := .halted, wait := .arrival ⟨0, 5, true⟩ 0 } with groups := [(key0, { state := .halted })] }
     (s.strand 0).wait = .arrival ⟨0, 5, true⟩ 0 ∧ (s.group (s.strand 0).group).state = .halted ∧ (s.strand 0).barDue = none ∧
       s.waitOver 0 = true ∧ (s.strand 0).lastOpen = none ∧ (s.strand 0).lostStore = none ∧ (s.strand 0).ssq = [] ∧
       (s.strand 0).openStrip = none ∧ s.flying 0 = false) := by
  refine ⟨⟨_, rfl, ⟨rfl, rfl, by decide, rfl, rfl, fun _ h => (nomatch h), fun _ h => (nomatch h)⟩, rfl⟩, by decide, fun h => absurd h.2.2.1 (by decide),
    by decide, by decide, ⟨_, _, rfl⟩, ⟨by decide, by decide, rfl, by decide, ⟨_, rfl⟩⟩, by decide,
    ⟨_, _, _, rfl, rfl, rfl, rfl, rfl, rfl, rfl, rfl, rfl, by decide +kernel⟩, rfl, rfl, rfl, by decide, rfl, rfl, rfl, rfl, by decide⟩

/-- A strand with a line buffered by strip 1. -/
def bufLine : BufLine := { fa := 0x20040, replica := none, kind := 3, mask := 3, data := 0xAB, strip := 1, va := 0x20040 }
def stripped (closed : Bool) (buf : List BufLine) : State :=
  withStrand { running with strips := [⟨1, 0x9000, [(5, 11)], 0, closed⟩], openStrip := some 1, buf := buf }

theorem stripped_buf (c : Bool) (l : List BufLine) : ((stripped c l).strand 0).buf = l := rfl

def canCommit (s : State) : Bool :=
  (match s.bufPlace 0 bufLine with | .ok p => p == .deep 0 0x20040 | .error _ => false) && !s.poisoned (.deep 0 0x20040) 64 && !s.bufBlocked 0 bufLine

theorem commit_of (s : State) (sel : Nat → Bool) (hb : (s.strand 0).buf.filter (fun b => sel b.strip) ⊆ [bufLine])
    (hn : ((s.strand 0).buf.filter (fun b => sel b.strip)).Nodup) (hm : MemOk s) (hf : s.flyHold = false) (hg : s.flyWrites = [])
    (h : canCommit s = true) : CanCommit s 0 sel (fun _ => .deep 0 0x20040) := by
  simp only [canCommit, Bool.and_eq_true, Bool.not_eq_true'] at h
  obtain ⟨⟨h1, h2⟩, -⟩ := h
  refine ⟨hm, hf, hg, hn, fun b hb' => ?_, fun b hb' c hc' hne => ?_⟩
  · rw [List.mem_singleton.mp (hb hb')]
    refine ⟨rfl, by decide, ?_, h2⟩
    split at h1
    · rename_i p hp; rw [hp, eq_of_beq h1]
    · cases h1
  · exact absurd ((List.mem_singleton.mp (hb hb')).trans (List.mem_singleton.mp (hb hc')).symm) hne

/-- StripsCommitToMemory: a closed strip with a buffered line; an open one; and a buffer below 512 entries. -/
theorem witness_strips :
    (((stripped true [bufLine]).strand 0).strips = [⟨1, 0x9000, [(5, 11)], 0, true⟩] ∧ (∀ c ∈ ((stripped true [bufLine]).strand 0).viq, 1 < c.strip) ∧
      CanCommit (stripped true [bufLine]) 0 (fun i => i == 1) (fun _ => .deep 0 0x20040) ∧
      ∀ b ∈ ((stripped true [bufLine]).strand 0).buf, b.strip = 1 → (stripped true [bufLine]).bufBlocked 0 b = false) ∧
    ((stripped true [bufLine]).strand 0).ssq = [] ∧
    (∃ n, ((stripped false []).strand 0).strips = [n] ∧ n.closed = false) ∧ ((stripped false []).strand 0).buf.length < 512 := by
  refine ⟨⟨rfl, fun _ h => absurd h List.not_mem_nil, commit_of _ _ (fun b hb => hb) (List.nodup_singleton _) (wf_of _ rfl) rfl rfl (by decide +kernel), fun b hb _ => ?_⟩,
    rfl, ⟨_, rfl, rfl⟩, by decide⟩
  rw [List.mem_singleton.mp hb]; decide +kernel

/-- StripsCommitToMemory, overflow: 512 lines, each in a line of its own. -/
def manyLines : List BufLine := (List.range 512).map (fun k => { bufLine with fa := 0x20000 + 64 * k })

theorem witness_overflow :
    512 ≤ ((stripped false manyLines).strand 0).buf.length ∧ (stripped false manyLines).bufHeld 0 = false ∧ ((stripped false manyLines).strand 0).openStrip = some 1 ∧
    CanCommit (stripped false manyLines) 0 (fun _ => true) (fun b => .deep 0 b.fa) := by
  have hb : ((stripped false manyLines).strand 0).buf.filter (fun _ => true) = manyLines := by
    rw [stripped_buf, List.filter_true]
  have inj : Function.Injective (fun k => { bufLine with fa := 0x20000 + 64 * k }) := fun a b h => by
    have := congrArg BufLine.fa h
    simp only at this
    omega
  refine ⟨by rw [stripped_buf]; decide +kernel, by decide +kernel, rfl, wf_of _ rfl, rfl, rfl, by rw [hb]; exact List.Nodup.map inj List.nodup_range, fun b h => ?_, fun b h c h' hne => ?_⟩
  · rw [hb] at h
    have all : manyLines.all (fun b => b.op == .store && b.fa % 64 == 0 && (match (stripped false manyLines).bufPlace 0 b with
        | .ok p => p == .deep 0 b.fa | .error _ => false) && !(stripped false manyLines).poisoned (.deep 0 b.fa) 64) = true := by decide +kernel
    have := List.all_eq_true.mp all b h
    simp only [Bool.and_eq_true, beq_iff_eq, Bool.not_eq_true'] at this
    obtain ⟨⟨⟨h0, h1⟩, h2⟩, h3⟩ := this
    refine ⟨h0, h1, ?_, h3⟩
    split at h2
    · rename_i p hp; rw [hp, eq_of_beq h2]
    · cases h2
  · rw [hb] at h h'
    obtain ⟨i, hi, rfl⟩ := List.mem_map.mp h
    obtain ⟨j, hj, rfl⟩ := List.mem_map.mp h'
    have := List.mem_range.mp hi
    have := List.mem_range.mp hj
    have hij : i ≠ j := fun e => hne (by rw [e])
    simp only [lineOf, Place.key]
    omega

/-- ErrorsRewindOrFaultTheContext: a strip that can rewind, one that cannot, and a record that waits. -/
def erring (why : Nat) : State :=
  withStrand { running with strips := [⟨1, 0x9000, [(5, 11)], why, false⟩], openStrip := some 1, viq := [{ convoyOf [0] with strip := 1 }] }
def heldRecord : FRec := { cause := 10, halted := true }

theorem witness_errors :
    ((erring 0).waitingRecs = [] ∧ ((erring 0).strand 0).st = .running ∧ ((erring 0).strand 0).viq = [{ convoyOf [0] with strip := 1 }]) ∧
    (((erring 0).strand 0).strips.find? (fun e => e.id == 1 && e.why == 0) = some ⟨1, 0x9000, [(5, 11)], 0, false⟩ ∧
      ([(5, (11 : Word))].map Prod.fst).Nodup ∧ ((erring 0).context 0).state ≠ 4 ∧ ((erring 0).strand 0).csr.tracectl.getLsbD 2 = false ∧
      posts (erring 0) { (erring 0).record 0 45 0 0 0 0 0x8000 19 with kind := 0, va := 0 } = true) ∧
    (((erring 2).strand 0).strips.find? (fun e => e.id == 1 && e.why == 0) = none ∧
      posts (erring 2) { (erring 2).record 0 46 0 0 0 0 0x8000 19 with halted := true } = true) ∧
    (let s := { base with waitingRecs := [(0, heldRecord)] }
     s.waitingRecs.find? (fun e => e.1 == 0) = some (0, heldRecord) ∧ posts s heldRecord = true) ∧
    (match fullQueue.tryPost 0 0 heldRecord with | .full => true | _ => false) = true ∧
    (match ({ base with dies := [(0, { die0 with fmCache := die0.fmCache.set 3 { deepFrame 3 with w0 := 9 } })] } : State).tryPost 0 0 heldRecord with
      | .held => true | _ => false) = true := by
  refine ⟨⟨rfl, rfl, rfl⟩, ⟨by decide, by decide, by decide, by decide, by decide +kernel⟩, ⟨by decide, by decide +kernel⟩, ⟨by decide, by decide +kernel⟩, by decide +kernel, by decide +kernel⟩

/-- EddyVerdictsAndLaneGroups: a convoy that awaits its second run, opportunistic or not; lane groups with 3 and 4 disagreements. -/
def inEddy (rchk : BitVec 2) : State :=
  withStrand { running with viq := [{ doneConvoy with eddyDue := [0], samp := { rchk := rchk } }] }
def disagreeing (n : Nat) : State := { base with strands := [], cores := [(0, { disagree := [(15, n)] })] }

theorem witness_eddy :
    (∃ c, ((inEddy 1).strand 0).viq = [c] ∧ 0 ∈ c.eddyDue ∧ (∀ j ∈ c.eddyDue, 0 ≤ j) ∧ c.pendStop = none ∧ ((inEddy 1).strand 0).vecHeld = false ∧
      c.samp.rchk = 1) ∧
    (∃ c, ((inEddy 2).strand 0).viq = [c] ∧ 0 ∈ c.eddyDue ∧ (∀ j ∈ c.eddyDue, 0 ≤ j) ∧ c.pendStop = none ∧ ((inEddy 2).strand 0).vecHeld = false ∧
      c.samp.rchk ≠ 1) ∧
    (inEddy 2).waitingRecs = [] ∧ ((inEddy 2).context 0).state ≠ 4 ∧ ((inEddy 2).strand 0).csr.tracectl.getLsbD 2 = false ∧
    posts (inEddy 2) ((inEddy 2).record 0 43 0 0 3 0 0x8000 0) = true ∧
    ((disagreeing 3).core 0).disagree.getD 15 0 < 4 ∧ 4 ≤ ((disagreeing 4).core 0).disagree.getD 15 0 ∧
    ((disagreeing 4).core 0).laneDis.getLsbD 15 = false ∧ (∀ j ∈ coreStrands 0, ((disagreeing 4).strand j).st = .unbound) ∧
    2 ^ 32 ≤ ((({ base with dies := [(0, { gtc := 0x100000000 })] } : State).die 0).gtc - 0).toNat ∧ ((base.die 0).gtc - 0).toNat < 2 ^ 32 := by
  refine ⟨⟨_, rfl, .head _, fun _ _ => Nat.zero_le _, rfl, rfl, rfl⟩, ⟨_, rfl, .head _, fun _ _ => Nat.zero_le _, rfl, rfl, by decide⟩, rfl, by decide, by decide,
    by decide +kernel, by decide, by decide, by decide, fun _ _ => rfl, by decide, by decide⟩


/-! ## Witnesses: contexts and groups -/

/-- Context 0 in a state. -/
def ctxIn (n : BitVec 8) : State := { withStrand {} with contexts := [(0, { state := n, frqBase := 0x30000 })] }

/-- ContextLifecycle: each state of a context; the last CTXID and the first beyond the table. -/
theorem witness_contexts :
    (∀ n ∈ [(0 : BitVec 8), 1, 2, 3, 4], ((ctxIn n).context 0).state = n ∧ NoStrands (ctxIn n) 0 ∧ ((ctxIn n).context 0).flags.getLsbD 0 = false) ∧
    (4095 : BitVec 16).toNat < 4096 ∧ ((ctxIn 1).context 4095).state = 0 ∧ 4096 ≤ (4096 : BitVec 16).toNat :=
  ⟨fun n _ => ⟨rfl, fun _ h => absurd h List.not_mem_nil, Nat.zero_testBit 0⟩, by decide⟩

/-- A record for slot 0 of cluster 0, and the state that holds it. -/
def bindRec : BindRecord := { bflags := 1, entryPc := 0x10000, paramBase := 0x20000, strandIx := 0 }
def binding (r : BindRecord) : State :=
  { ctxIn 1 with strands := [], clusters := [(0, { records := [(0, r)], barriers := [(1, { v := true, bound := true })] })] }
def commitWord : Word := 0x100000001

/-- The check of R99 a batch in slot 0 fails. -/
def failsAt (s : State) : Option Nat :=
  let s1 := s.setCluster 0 { s.cluster 0 with commit := commitWord }
  let b := s.batchOf 0 0 commitWord
  s1.batchFails b (s1.batchHeader b)

/-- BatchesBindStrands: a batch of one that passes; one whose record is not valid; an entry that is bound, and one that is not. -/
theorem witness_batches :
    (binding bindRec).batchHeld ((binding bindRec).batchOf 0 0 commitWord) = false ∧ (binding bindRec).boot.minimal = false ∧
    commitWord.toNat % 2 ^ 16 = 2 ^ 0 ∧ commitWord.getLsbD 32 = true ∧ commitWord.toNat / 2 ^ 33 = 0 ∧ bindRec.groupSz = 1 ∧
    bindRec.bflags.getLsbD 1 = false ∧ failsAt (binding bindRec) = none ∧ failsAt (binding { bindRec with bflags := 0 }) = some 1 ∧
    (((binding bindRec).cluster 0).barriers.getD 1 {}).bound = true ∧ (((binding bindRec).cluster 0).barriers.getD 15 {}).bound = false := by
  decide +kernel

/-- A group of one strand in a state, in a context whose images lie at 0x50000 and hold registers of 512 bits. -/
def grouped (g : GroupState) (t : StrandState) : State :=
  { withStrand { running with st := t, csr := { vlcap := 512 } } with
    contexts := [(0, { state := 2, vlb := 512, frqBase := 0x30000, imageBase := 0x50000 })], groups := [(key0, { state := g, members := [(0, 0)] })] }
def saves (s : State) : Bool := match (s.flush 0).1.saveImage 0 with | .ok _ => true | .error _ => false

/-- GroupsPreemptSaveAndResume: a resident and a halted group; a resting strand whose image can be written; a record that waits;
held work. -/
theorem witness_groups :
    (look (grouped .resident .running).groups key0 = some { state := .resident, members := [(0, 0)] } ∧
      look (grouped .halted .halted).groups key0 = some { state := .halted, members := [(0, 0)] } ∧ ([0] : List Nat).Nodup) ∧
    (AtRest (grouped .saving .halted) 0 ∧ ((grouped .saving .halted).strand 0).group = key0 ∧ (grouped .saving .halted).settled 0 = true ∧
      (grouped .saving .halted).imageHeld 0 = false ∧ saves (grouped .saving .halted) = true) ∧
    (grouped .halted .halted).recordWaits key0 = false ∧ ({ grouped .halted .halted with waitingRecs := [(0, heldRecord)] } : State).recordWaits key0 = true ∧
    ((grouped .halted .halted).strand 0).vecHeld = false ∧ ((grouped .halted .halted).strand 0).barDue = none ∧
    (((grouped .halted .halted).strand 0).stoppedAt = none ∧ (withStrand { running with st := .halted, vecHeld := true, viq := [convoyOf [0]] }).me.stoppedAt = some 0) ∧ (withStrand { running with st := .halted, vecHeld := true }).me.vecHeld = true := by
  refine ⟨⟨rfl, rfl, by decide⟩, ⟨⟨rfl, rfl, rfl, rfl, rfl, rfl, rfl, fun k _ => ?_⟩, rfl, by decide +kernel, by decide +kernel, by decide +kernel⟩,
    by decide, by decide, rfl, rfl, ⟨rfl, rfl⟩, rfl⟩
  have : ∀ k, k < 3 → ((grouped .saving .halted).strand 0).counterTo k = none := by decide
  exact this k (by assumption)

/-! ## Witnesses: queues -/

/-- The package with queue 1 as given, its QCB at 0x40000. -/
def queued (q : Queue) (mem : List Host.Cell) : State := { base with queues := [(1, q)], mem := mem }
def desc (st : BitVec 8) : QueueDesc := { queueId := 1, state := st, qcb := 0x40000, first := 0x20000 }

/-- `QAt` as a computation. -/
def qAt (s : State) (q : Queue) (acc : Access) (va : Word) (n a : Nat) : Bool :=
  decide (va.toNat % 65536 + n ≤ 65536) && !s.poisoned (.deep 0 a) n && s.flyWrites.isEmpty &&
  match s.translate q.home q.ctx ((s.context q.ctx).flags.getLsbD 0) acc va with
  | .ok x => x.place == some (.deep 0 a)
  | .error _ => false

theorem qAt_of {s : State} {q : Queue} {acc : Access} {va : Word} {n a : Nat} (h : qAt s q acc va n a = true) :
    QAt s q acc va n (.deep 0 a) := by
  simp only [qAt, Bool.and_eq_true, decide_eq_true_eq, Bool.not_eq_true'] at h
  obtain ⟨⟨⟨h1, h2⟩, h4⟩, h3⟩ := h
  refine ⟨h1, h2, fun _ f hf => absurd hf (List.isEmpty_iff.mp h4 ▸ List.not_mem_nil), ?_⟩
  split at h3
  · exact ⟨_, by assumption, eq_of_beq h3⟩
  · cases h3

/-- A command of OP `op` with operands at 0x10, 0x18 and 0x20, the first of its queue. -/
def cmd (op a b c : Nat) : Command :=
  { index := 0, entryAddr := 0x20000, op := op, bar := false,
    bytes := leBytes 8 op ++ leBytes 8 0x20040 ++ leBytes 8 a ++ leBytes 8 b ++ leBytes 8 c ++ leBytes 24 0 }
def ready (c : Command) : State := queued { desc := desc 2, cmds := [c], noticed := true } []

theorem ready_cmd (op a b c : Nat) : Ready (ready (cmd op a b c)) 1 op [] (cmd op a b c) :=
  ⟨rfl, rfl, rfl, rfl, rfl, fun _ h => absurd h List.not_mem_nil, fun _ => rfl, fun _ _ => ⟨fun _ h => absurd h List.not_mem_nil, fun _ => by decide⟩⟩

def stopped : QueueStop := ⟨7, 3, 0x20000, none⟩

/-- QueueLifecycle: each state of a queue; the last QUEUEID and the first beyond the table; an entry that was read and one that
was not. -/
theorem witness_queue_lifecycle :
    (∀ n ∈ [(0 : BitVec 8), 1, 2, 3, 4, 5], ((queued { desc := desc n, err := some stopped } []).queue 1).desc.state = n ∧
      ((queued { desc := desc n, err := some stopped } []).queue 1).err = some stopped) ∧
    (let s := queued {} []
     let new : Queue := { desc := { desc 1 with queueId := 1 }, nextAddr := 0x20000 }
     MemOk s ∧ (1023 : BitVec 16).toNat < 1024 ∧ 1024 ≤ (1024 : BitVec 16).toNat ∧ (s.queue 1).desc.state = 0 ∧
       s.qBlocked new ((desc 0).qcb + 8) 48 = false ∧ QAt s new .write ((desc 0).qcb + 8) 48 (.deep 0 0x40008)) ∧
    (let bs := leBytes 8 0 ++ leBytes 8 0x20040 ++ leBytes 48 0
     cutN bs 8 8 % 64 = 0 ∧ cutN (leBytes 8 0 ++ leBytes 8 0x20041) 8 8 % 64 ≠ 0 ∧ stopped.entry = none) := by
  refine ⟨fun _ _ => ⟨rfl, rfl⟩, ⟨wf_of _ rfl, by decide, by decide, rfl, by decide +kernel, qAt_of (by decide +kernel)⟩, by decide⟩

/-- TAIL of the queue is 1, and the entry at 0x20000 has OP `op` and NEXT `next`. -/
def entryMem (op next : Nat) : List Host.Cell := Memory.writeBytes (Memory.writeBytes [] 0x40000 [1]) 0x20000 (leBytes 8 op ++ leBytes 8 next)
def fetching (op next : Nat) (first : Word) : State := queued { desc := desc 2, nextAddr := first, noticed := true } (entryMem op next)

/-- EntriesAreFetchedOnce: an entry that passes, one with OP 7, one whose NEXT is not aligned, one whose address is not mapped; an
empty queue; a doorbell of a queue that is there, and of one that is not. -/
theorem witness_entry_fetch :
    (let s := fetching 0 0x20040 0x20000
     MemOk s ∧ QAt s (s.queue 1) .read (s.queue 1).desc.qcb 8 (.deep 0 0x40000) ∧ (s.queue 1).desc.state = 2 ∧ (s.queue 1).noticed = true ∧
       s.qHeld (s.queue 1) (s.queue 1).desc.qcb 8 = false ∧ s.qHeld (s.queue 1) (s.queue 1).nextAddr 64 = false ∧
       (∀ c, (s.queue 1).cmds.getLast? = some c → c.started = true ∨ c.complete = true) ∧ (s.queue 1).next < memNat s 0x40000 8 ∧
       QAt s (s.queue 1) .read (s.queue 1).nextAddr 64 (.deep 0 0x20000) ∧ s.entryStop (s.queue 1) (s.readPlace (.deep 0 0x20000) 64) = none) ∧
    (let s := fetching 7 0x20040 0x20000
     s.entryStop (s.queue 1) (s.readPlace (.deep 0 0x20000) 64) = some 1 ∧ ErrAt s 1 (.deep 0 0x40030)) ∧
    (let s := fetching 6 0x20041 0x20000
     let bs := s.readPlace (.deep 0 0x20000) 64
     cutN bs 0 1 ≤ 6 ∧ (cutN bs 1 1 < 2 ∧ cutN bs 2 6 = 0 ∧ zeroAt bs (namedEnd (cutN bs 0 1)) 48 = true) ∧ cutN bs 8 8 % 64 ≠ 0) ∧
    (let s := fetching 0 0 0x80000
     s.translate 0 0 false .read (s.queue 1).nextAddr = .error 10 ∧ ErrAt s 1 (.deep 0 0x40030)) ∧
    memNat (queued { desc := desc 2 } []) 0x40000 8 ≤ 0 ∧
    (let s : State := { fetching 0 0 0x20000 with ports := [(16, { state := .degraded })] }
     (s.port 16).usable = true ∧ s.hostPosts = [] ∧ (s.queue 1).desc.state ≠ 0 ∧ (s.queue 2).desc.state = 0 ∧
       s.qBlocked (s.queue 1) (s.queue 1).desc.qcb 8 = false ∧ QAt s (s.queue 1) .write (s.queue 1).desc.qcb 8 (.deep 0 0x40000) ∧
       QAt s (s.queue 1) .read (s.queue 1).desc.qcb 8 (.deep 0 0x40000) ∧ (s.port 16).errcnt ≠ 0xFFFF) := by
  refine ⟨⟨wf_of _ (by decide +kernel), qAt_of (by decide +kernel), rfl, rfl, by decide +kernel, by decide +kernel, fun _ h => (nomatch h), by decide +kernel,
      qAt_of (by decide +kernel), by decide +kernel⟩,
    ⟨by decide +kernel, wf_of _ (by decide +kernel), by decide +kernel, qAt_of (by decide +kernel)⟩, by decide +kernel,
    ⟨by decide +kernel, wf_of _ (by decide +kernel), by decide +kernel, qAt_of (by decide +kernel)⟩, by decide,
    ⟨by decide, rfl, by decide, rfl, by decide +kernel, qAt_of (by decide +kernel), qAt_of (by decide +kernel), by decide⟩⟩

/-- Queue 1 waits for its WAITC, which started at time 0. -/
def waitingFor (c : Command) (gtc : Word) : State :=
  { queued { desc := desc 3, cmds := [{ c with started := true }] } [] with dies := [(0, { die0 with gtc := gtc })] }

/-- QueueCommandsRun: a start of each command; a WAITC met, not met, at its timeout, before it and without one; DONE and its message. -/
theorem witness_queue_commands :
    (∀ op, op ≤ 6 → Ready (ready (cmd op 0x20000 0 0)) 1 op [] (cmd op 0x20000 0 0)) ∧
    (∀ op, op ≤ 6 → (ready (cmd op 0x20000 0 0)).queueQuiet 1 (cutN (cmd op 0x20000 0 0).bytes 0x10 1) = true) ∧
    (let s := ready (cmd 3 0x20000 1 0)
     MemOk s ∧ s.qHeld (s.queue 1) 0x20000 8 = false ∧ QAt s (s.queue 1) .read 0x20000 8 (.deep 0 0x20000) ∧ cutN (cmd 3 0x20000 0 0).bytes 0x18 8 ≤ memNat s 0x20000 8 ∧
       ¬cutN (cmd 3 0x20000 1 0).bytes 0x18 8 ≤ memNat s 0x20000 8) ∧
    (let s := waitingFor (cmd 3 0x20000 1 5) 5
     Pending s 1 [] { cmd 3 0x20000 1 5 with started := true } ∧ ErrAt s 1 (.deep 0 0x40030) ∧
       s.qHeld (s.queue 1) 0x20000 8 = false ∧ QAt s (s.queue 1) .read 0x20000 8 (.deep 0 0x20000) ∧ cutN (cmd 3 0x20000 1 5).bytes 0x20 8 ≤ ((s.die 0).gtc - 0).toNat) ∧
    (((waitingFor (cmd 3 0x20000 1 5) 4).die 0).gtc - 0).toNat < cutN (cmd 3 0x20000 1 5).bytes 0x20 8 ∧ cutN (cmd 3 0x20000 1 0).bytes 0x20 8 = 0 ∧
    (let s := ready (cmd 4 0x20000 1 1)
     let q := s.queue 1
     s.queueQuiet 1 4 = true ∧ s.qBlocked q 0x20000 8 = false ∧ QAt s q .read 0x20000 8 (.deep 0 0x20000) ∧ QAt s q .write 0x20000 8 (.deep 0 0x20000) ∧ q.done.toNat = 0 ∧
       s.qBlocked q 0x20000 192 = false ∧ QAt s q .write 0x20000 192 (.deep 0 0x20000) ∧
       (let u : State := { s with queues := s.queues ++ [(2, { desc := desc 3, cmds := [{ cmd 3 0x20000 1 5 with started := true }] })] }
        u.queue 1 = q ∧ (u.queue 2).home = q.home ∧ (u.queue 2).waitc = some { cmd 3 0x20000 1 5 with started := true })) ∧
    (let s := queued { desc := desc 4, cmds := [(cmd 0 0 0 0).finish 0 0], notify := 8, pending := some (16, 0) } []
     let q := s.queue 1
     q.desc.state ≠ 0 ∧ s.queueQuiet 1 4 = true ∧ s.qBlocked q q.desc.qcb 64 = false ∧ QAt s q .write (q.desc.qcb + 8) 8 (.deep 0 0x40008) ∧
       QAt s q .write (q.desc.qcb + 0x10) 32 (.deep 0 0x40010) ∧ QCached s q (q.desc.qcb + 8) ∧ q.pending = some (16, 0) ∧
       (({ s with ports := [(16, { state := .up })] } : State).port 16).usable = true) := by
  have np : ∀ (s : State) (c : Command), s.queue 1 = { desc := desc 3, cmds := [c] } → c.op = 3 → c.started = true → c.complete = false →
      Pending s 1 [] c := fun s c h h1 h2 h3 => by
    refine ⟨by rw [h]; rfl, by rw [h]; rfl, h1, h2, h3, fun _ m => absurd m List.not_mem_nil, fun _ m => absurd m List.not_mem_nil⟩
  refine ⟨fun op _ => ready_cmd op _ _ _, fun _ _ => rfl, ⟨wf_of _ rfl, by decide +kernel, qAt_of (by decide +kernel), by decide, by decide⟩,
    ⟨np _ _ rfl rfl rfl rfl, ⟨wf_of _ rfl, by decide +kernel, qAt_of (by decide +kernel)⟩, by decide +kernel, qAt_of (by decide +kernel), by decide⟩, by decide, by decide,
    ⟨rfl, by decide +kernel, qAt_of (by decide +kernel), qAt_of (by decide +kernel), rfl, by decide +kernel, qAt_of (by decide +kernel), rfl, rfl, rfl⟩,
    ⟨by decide, rfl, by decide +kernel, qAt_of (by decide +kernel), qAt_of (by decide +kernel), ⟨page 4, by decide, by decide⟩, rfl, by decide⟩⟩

theorem ok_with (s : State) (d : Die) (hm : MemOk s) (hd : s.dies = [(0, d)]) (ht : d.tlb = die0.tlb ∧ d.l1Tlb = die0.l1Tlb) (hc : s.cores = [])
    (hn : s.counted = []) (hl : s.l1 = [] ∧ s.msc = []) :
    StateOk s := by
  refine ⟨hm, fun k => ?_, fun k => ?_, fun l c h => ?_, fun l h => ?_, fun l c h => ?_⟩
  · have h : s.die k = if k = 0 then d else {} := by simp only [State.die, hd, Tbl.getD, eq_comm]
    rw [h]
    split
    · exact maps_of d ht.1 ht.2
    · exact maps_none
  · rw [State.core, hc]; rfl
  · rw [hn] at h; cases h
  · rw [hl.1] at h; cases h
  · rw [hl.2] at h; cases h

/-- A COPY of one byte to the last byte of page 5; and one of a sealed byte, with its tag under the key 0 and the chunk number 0. -/
def plainCopy : Command := cmd 2 0x5FFFF 0x20000 1
def sealedCopy : Command := cmd 2 0x5FFFF 0x20000 0x100000001
def sealedState : State :=
  { queued { desc := desc 2, cmds := [sealedCopy] } (Memory.listed 0x20001 [100, 248, 55, 89, 108, 3, 213, 121, 151, 39, 25, 12, 160, 232, 121, 194]) with
    contexts := [(0, { state := 2, flags := 5 })]
    dies := [(0, { die0 with fmCache := pages.map (fun k => (k, if k = 5 then { deepFrame 5 with w0 := 0x11 } else deepFrame k)) })] }
def opens : Bool :=
  match sealedState.qRead (sealedState.queue 1) 0x20000 17 with
  | .ok bs => (match openChunk (sealedState.keys.getD 0 0) 0 (bs.take 1) (bs.drop 1) with | some p => p.length == 1 | none => false)
  | .error _ => false

/-- CopyAndLaunchCommands, COPY: a plain byte, a sealed byte, and a command whose copy is done. -/
theorem witness_copy_commands :
    (let s := ready plainCopy
     let q := s.queue 1
     StateOk s ∧ Ready s 1 2 [] plainCopy ∧ s.qBlocked q 0x5FFFF 1 = false ∧ s.qHeld q 0x20000 17 = false ∧ cutN plainCopy.bytes 0x20 4 = 1 ∧ cutN plainCopy.bytes 0x24 1 % 2 ≠ 1 ∧
       QAt s q .write 0x5FFFF 1 (.deep 0 0x5FFFF) ∧ QCached s q 0x5FFFF ∧ QAt s q .read 0x20000 1 (.deep 0 0x20000)) ∧
    (let q := sealedState.queue 1
     StateOk sealedState ∧ Ready sealedState 1 2 [] sealedCopy ∧ sealedState.qBlocked q 0x5FFFF 1 = false ∧ sealedState.qHeld q 0x20000 17 = false ∧ cutN sealedCopy.bytes 0x24 1 % 2 = 1 ∧
       spanAll (sealedState.pageSecure 0 0) 0x5FFFF 1 2 = true ∧ QAt sealedState q .write 0x5FFFF 1 (.deep 0 0x5FFFF) ∧ QCached sealedState q 0x5FFFF ∧
       (sealedState.context 0).flags.getLsbD 2 = true ∧ opens = true) ∧
    (let c := { plainCopy with started := true }
     let s := queued { desc := desc 2, cmds := [c] } []
     (s.queue 1).desc.state ≠ 4 ∧ (s.queue 1).cmds.find? (fun e => e.op == 2 && e.outstanding) = some c ∧ s.qBlocked (s.queue 1) 0x20038 8 = false ∧
       s.linkPending (s.queue 1).source = false ∧ s.qHeld (s.queue 1) 0x5FFFF 1 = false ∧ MemOk s ∧ QAt s (s.queue 1) .write 0x20038 8 (.deep 0 0x20038)) := by
  refine ⟨⟨ok_with _ die0 (wf_of _ rfl) rfl ⟨rfl, rfl⟩ rfl rfl ⟨rfl, rfl⟩, ready_cmd 2 _ _ _, by decide +kernel, by decide +kernel, by decide, by decide, qAt_of (by decide +kernel),
      ⟨page 5, by decide, by decide⟩, qAt_of (by decide +kernel)⟩,
    ⟨ok_with _ _ (wf_of _ (by decide +kernel)) rfl ⟨rfl, rfl⟩ rfl rfl ⟨rfl, rfl⟩,
      ⟨rfl, rfl, rfl, rfl, rfl, fun _ h => absurd h List.not_mem_nil, fun _ => rfl, fun _ _ => ⟨fun _ h => absurd h List.not_mem_nil, fun _ => by decide⟩⟩,
      by decide +kernel, by decide +kernel, by decide, by decide +kernel, qAt_of (by decide +kernel), ⟨page 5, by decide, by decide⟩, by decide, by decide +kernel⟩,
    ⟨by decide, rfl, by decide +kernel, rfl, by decide +kernel, wf_of _ rfl, qAt_of (by decide +kernel)⟩⟩

/-- A LAUNCH of the header at 0x50000, which is of FORMAT `f`, with groups of one strand; its parameter block is at `params`. -/
def launchCmd (header params : Nat) : Command := cmd 1 header params 1
def launching (st : BitVec 8) (f : Nat) (c : Command) : State :=
  { queued { desc := desc 2, cmds := [c] } (Memory.listed 0x50000 (leBytes 8 f ++ leBytes 8 0x10000 ++ leBytes 2 0 ++ leBytes 2 1)) with
    contexts := [(0, { state := st })] }

/-- What reading the header gives: whether the launch can be placed, or the cause it fails with. -/
def headerSays (s : State) (header params : Word) : Except Nat Bool := (s.readHeader 0 0 header params).map (s.placeable 0)

/-- The launch of queue 1 and whether it has been stopped. -/
def finishing (over_ : Bool) : State :=
  { queued { desc := desc 2, cmds := [{ launchCmd 0x50000 0x20000 with started := true }] } [] with launches := [(⟨1, 0⟩, { stopped := over_ })] }

/-- CopyAndLaunchCommands, LAUNCH: a header that passes, one misaligned, one of FORMAT 2, parameters that are not mapped, a context
that has failed; a launch that is over and one that is not. -/
theorem witness_launch_commands :
    (let s := launching 1 1 (launchCmd 0x50000 0x20000)
     Ready s 1 1 [] (launchCmd 0x50000 0x20000) ∧ look s.launches ⟨1, 0⟩ = none ∧ s.qHeld (s.queue 1) 0x50000 128 = false ∧ (headerSays s 0x50000 0x20000).toOption = some true ∧
       s.qMapped (s.queue 1) .read false 0x20000 1 = true ∧ ErrAt s 1 (.deep 0 0x40030)) ∧
    (0x50001 : Word).toNat % 64 ≠ 0 ∧
    (match headerSays (launching 1 2 (launchCmd 0x50000 0x20000)) 0x50000 0x20000 with | .error n => n == 1 | .ok _ => false) = true ∧
    (launching 1 1 (launchCmd 0x50000 0x80000)).qMapped ((launching 1 1 (launchCmd 0x50000 0x80000)).queue 1) .read false 0x80000 1 = false ∧
    (headerSays (launching 4 1 (launchCmd 0x50000 0x20000)) 0x50000 0x20000).toOption = some false ∧
    (let s := finishing true
     MemOk s ∧ (s.queue 1).desc.state ≠ 4 ∧ look s.launches ⟨1, 0⟩ = some { stopped := true } ∧ s.launchOver ⟨1, 0⟩ { stopped := true } = true ∧
       (s.queue 1).cmds.find? (fun e => e.op == 1 && e.lid == 0 && e.outstanding) = some { launchCmd 0x50000 0x20000 with started := true } ∧
       s.qBlocked (s.queue 1) 0x20038 8 = false ∧ (∀ r ∈ ({} : Header).outs, s.qHeld (s.queue 1) r.1 r.2 = false) ∧
       QAt s (s.queue 1) .write 0x20038 8 (.deep 0 0x20038)) ∧
    (finishing false).launchOver ⟨1, 0⟩ {} = false := by
  refine ⟨⟨⟨rfl, rfl, rfl, rfl, rfl, fun _ h => absurd h List.not_mem_nil, fun _ => rfl, fun _ _ => ⟨fun _ h => absurd h List.not_mem_nil, fun _ => by decide⟩⟩,
      rfl, by decide +kernel, by decide +kernel, by decide +kernel, ⟨wf_of _ (by decide +kernel), by decide +kernel, qAt_of (by decide +kernel)⟩⟩,
    by decide, by decide +kernel, by decide +kernel, by decide +kernel,
    ⟨wf_of _ rfl, by decide, rfl, by decide, rfl, by decide +kernel, fun _ h => absurd h List.not_mem_nil, qAt_of (by decide +kernel)⟩, by decide⟩

/-! ## Witnesses: the loader -/

/-- An object at 0x100000: data of 8 bytes would be text too; its words are two of no fields, `sui`, `addi`, `beq`, `jal`. -/
def objText : List Byte := leBytes 8 0 ++ leBytes 4 0x08400013 ++ leBytes 4 0x06420FD1 ++ leBytes 4 0x12601FFE ++ leBytes 4 0x17F00002
def relBytes (r : ObjReloc) : List Byte :=
  leBytes 8 r.place ++ leBytes 4 r.sym ++ leBytes 1 r.kind ++ leBytes 3 0 ++ leBytes 8 (r.addend % 2 ^ 64).toNat

/-- The file: header, one section of text, one global kernel symbol at 8, the records, the name "k", the text. -/
def objFile (magic : Nat) (rs : List ObjReloc) : ObjFile :=
  let n := 24 * rs.length
  { base := 0x100000, ctxid := 0, frames := [6, 1, 2]
    bytes := leBytes 4 magic ++ leBytes 2 1 ++ leBytes 2 1 ++ leBytes 4 1 ++ leBytes 4 rs.length ++ leBytes 8 0 ++ leBytes 8 24
      ++ leBytes 8 64 ++ leBytes 8 96 ++ leBytes 8 120 ++ leBytes 8 (120 + n)
      ++ leBytes 4 0 ++ leBytes 4 0 ++ leBytes 8 0 ++ leBytes 8 (122 + n) ++ leBytes 8 24
      ++ leBytes 4 0 ++ leBytes 2 0 ++ [2, 1] ++ leBytes 8 8 ++ leBytes 8 0
      ++ rs.flatMap relBytes ++ [0x6B, 0] ++ objText }
def obj (rs : List ObjReloc) : Obj := readObject (objFile 0x01464F4C rs)
def rel (kind place : Nat) (addend : Int) : ObjReloc := { place := place, sym := 0, kind := kind, addend := addend }

/-- The premises of a record's value: its field is held, and its symbol is at 0x100008. -/
def heldAt (r : ObjReloc) : Bool :=
  decide (r.reserved = 0 ∧ r.sym < (obj []).symbols.length) && fieldHeld (obj []) r && symbolAddr [] (obj []) r.sym == some 0x100008

def loadable : State := { base with loaded := [{ ctx := 0, base := 0x200000, size := 1, globals := [], kernels := [(0x200000, 1)], frames := [], pages := [0] }] }

/-- ObjectsLoadAndUnload: a header that is refused; a second record that fails; each kind at the ends of its range; a mapped object;
one with a kernel launched, and one without. -/
theorem witness_loader :
    (base.copying = false ∧ loadable.copying = false ∧
      ({ base with dies := [(0, { spareFor := some 0, spareCopying := true })] } : State).copying = true) ∧
    headerAccepted (readObject (objFile 0 [])) = false ∧ (obj [rel 6 20 (-12)]).relocs = [rel 6 20 (-12)] ∧ headerAccepted (obj [rel 0 0 0, rel 8 0 0]) = true ∧
    (match relocateAll [] (obj []) 0 [rel 0 0 0, rel 8 0 0] with | .error e => e == (1, 5) | .ok _ => false) = true ∧
    ([rel 0 0 0, rel 1 8 0, rel 2 12 0, rel 5 16 0, rel 6 20 0].all heldAt = true) ∧
    (let v := fun a : Int => (0x100008 : Int) + a
     let d := fun (p : Nat) (a : Int) => v a - ((0x100000 + p : Nat) : Int)
     (0 ≤ v (-0x100008) ∧ v (2 ^ 48 - 1 - 0x100008) < 2 ^ 48 ∧ v (-0x100009) < 0 ∧ 2 ^ 48 ≤ v (2 ^ 48 - 0x100008)) ∧
       (-(2 ^ 19) ≤ (v (-(2 ^ 31) - 2048 - 0x100008) + 2048) / 4096 ∧ (v (2 ^ 31 - 2049 - 0x100008) + 2048) / 4096 < 2 ^ 19) ∧
       (d 16 1 % 4 ≠ 0 ∧ d 16 (-8192 + 8) / 4 = -(2 ^ 11) ∧ d 16 (8188 + 8) / 4 < 2 ^ 11 ∧ d 16 (-8192 + 8) % 4 = 0 ∧ d 16 (8188 + 8) % 4 = 0) ∧
       d 20 (-(2 ^ 21) + 12) / 4 = -(2 ^ 19) ∧ d 20 (2 ^ 21 - 4 + 12) / 4 < 2 ^ 19 ∧ d 20 (2 ^ 21 - 4 + 12) % 4 = 0) ∧
    (let q : Patch := ⟨0x48, 4, 2 ^ 12 - 1, 2 ^ 12 - 1⟩
     0x40 ≤ q.place ∧ q.place + q.bytes ≤ 0x40 + (List.replicate 12 (0 : Byte)).length ∧ q.value ≤ q.bits ∧ ∃ m, q.bits + 1 = 2 ^ m ∧ m ≤ 8 * q.bytes) ∧
    (∃ l, loadable.loaded.find? (fun e => e.ctx == 0 && e.base == 0x200000) = some l ∧ ∃ k ∈ l.kernels, k.2 ≠ 0) ∧
    (let s : State := { loadable with loaded := [{ ctx := 0, base := 0x200000, size := 65536, globals := [], kernels := [(0x200000, 0)], frames := [], pages := [0, 1] }] }
     ∃ l, s.loaded.find? (fun e => e.ctx == 0 && e.base == 0x200000) = some l ∧ ∀ k ∈ l.kernels, k.2 = 0) := by
  refine ⟨by decide, by decide +kernel, by decide +kernel, by decide +kernel, by decide +kernel, by decide +kernel, by decide, ⟨by decide, by decide, by decide, 12, by decide, by decide⟩,
    ⟨_, rfl, _, .head _, by decide⟩, ⟨_, rfl, by decide⟩⟩

/-- Tables that reach the page of 0x100000: the root in frame 0, the next in frames 1 and 2. -/
def tabled : State :=
  { base with mem := Memory.writeBytes (Memory.writeBytes [(0x30010, 6)] 0 (leBytes 8 0x10001)) 0x10000 (leBytes 8 0x20001) }

/-- ObjectsLoadAndUnload: an object that is mapped, in a frame whose entry firmware has not written. -/
theorem witness_loader_maps :
    (match relocateAll [] (obj [rel 0 0 0]) 0 [rel 0 0 0] with
      | .ok ps => (tabled.mapObject { obj [rel 0 0 0] with frames := [100] } (loadParts [] (obj [rel 0 0 0]) ps)).isSome
      | .error _ => false) = true := by decide +kernel

/-! ## Witnesses: migration, the tracker, replicas, homes -/

/-- Frame 2 of die 0 moves to deep offset 0x70000; strand 0 waits for it. -/
def migrating (fly : List FlyWrite) : State :=
  { withStrand { running with st := .waiting, wait := .migration 2 } with
    migrations := [⟨2, 0x70001, some 0, 0, 5, 0, true⟩], flyWrites := fly }
def fly (c : Nat) : FlyWrite := { source := 128, fromDie := 1, home := 0, line := 0x800, mask := 3, data := 1, clock := [0, c] }

/-- MigrationAndTheFrameMap: a frame with no write on its way, and with one; a frame that migrates, the last frame; a shadow slot. -/
theorem witness_migration :
    (let s := migrating []
     s.migrations.find? (fun r => r.frame == 2) = some ⟨2, 0x70001, some 0, 0, 5, 0, true⟩ ∧ (s.fmap.getD 2 {}).place 0 0 = some (.deep 0 0x20000) ∧
       destPlace 0x70001 0 = some (.deep 0 0x70000) ∧ s.unacknowledged (.deep 0 0x20000) = false ∧
       s.spaceBusy (.deep 0 0x20000) = false ∧ s.spaceBusy (.deep 0 0x70000) = false ∧ MemOk s ∧ s.hostPosts = [] ∧
       (s.strand 0).wait = .migration 2) ∧
    (migrating [fly 1]).unacknowledged (.deep 0 0x20000) = true ∧ (base.strand 0).wait ≠ .migration 2 ∧
    (base.fmap.getD (2 ^ 32 - 1) {}).w = false ∧
    (({ base with fmap := [(2, { w0 := 9, w1 := 0x20000 })] } : State).fmap.getD 2 {}).w = true ∧
    (({ base with dies := [(0, { shadows := [⟨0, 15, 479, false, 0, true⟩] })] } : State).die 0).shadow? 479 = some ⟨0, 15, 479, false, 0, true⟩ ∧
    (base.die 0).shadow? 0 = none := by
  refine ⟨⟨rfl, by decide, by decide, by decide, by decide, by decide, wf_of _ rfl, rfl, rfl⟩, by decide, by decide, by decide, by decide, rfl, rfl⟩

/-- The ring of die 0 at 0x30000: TAIL, 64 records, and a pool of one offset at 0x40000. -/
def tracking (tail : Nat) : State :=
  { base with
    mem := Memory.writeBytes (Memory.writeBytes [] 0x30008 (leBytes 8 tail ++ leBytes 8 6 ++ leBytes 8 0 ++ leBytes 8 0x40000 ++ leBytes 8 1
      ++ leBytes 8 0 ++ leBytes 8 1)) 0x40000 (leBytes 8 0x70000)
    fmap := [(2, hostFrame), (3, deepFrame 3), (4, deepFrame 4)]
    dies := [(0, { gtc := 0x100000, ntqbase := 0x30000, trkcfg := 0x000100103F001403, crossings := [⟨2, 0, 7, 5, 0, 0⟩], counters := [(2, 5, true)] })] }
def ringHas (s : State) (n : Nat) : Bool :=
  match s.frameRead 0 0x30000 64 with
  | some h => decide (cutN h 0x10 1 = 6 ∧ (cutN h 8 8 + 2 ^ 64 - cutN h 0 8) % 2 ^ 64 = n)
  | none => false

/-- TrackerReportsAndMigrates: a ring with room, a full ring; a period that is over, and one that is not; a pool with an offset. -/
theorem witness_tracker :
    (let s := tracking 0
     (s.die 0).crossings = [⟨2, 0, 7, 5, 0, 0⟩] ∧ MemOk s ∧ (∃ h, s.frameRead 0 0x30000 64 = some h) ∧ ringHas s 0 = true ∧ s.ringBlocked 0 = false ∧
       FrameAt s 0 0x30040 (.deep 0 0x30040) ∧ FrameAt s 0 0x30008 (.deep 0 0x30008)) ∧
    (ringHas (tracking 64) 64 = true ∧ FrameAt (tracking 64) 0 0x30018 (.deep 0 0x30018) ∧ MemOk (tracking 64)) ∧
    ((base.die 0).crossings = [] ∧ (base.die 0).moves = [] ∧ (2 : Nat) ≠ 3) ∧
    (let d := fun n hit => ({ tracking 0 with dies := [(0, { trkcfg := 0x0005000000000001, counters := [(2, n, hit)] })] } : State).die 0
     bitN (d 4 false).trkcfg 0 = true ∧ ¬2 ^ (d 4 false).periodLen ≤ ((d 4 false).gtc - (d 4 false).periodStart).toNat ∧ hostFrame.kind = 3 ∧ ({ hostFrame with w0 := 0x43 } : Fme).t = true ∧ (d 4 false).counters.find 2 = some (4, false) ∧
       max 1 (bitsN (d 4 false).trkcfg 48 16) ≤ 4 + 1 ∧ (d 3 false).counters.find 2 = some (3, false) ∧ ¬max 1 (bitsN (d 3 false).trkcfg 48 16) ≤ 3 + 1 ∧
       (d 9 true).counters.find 2 = some (9, true)) ∧
    (let d := (tracking 0).die 0
     bitN d.trkcfg 0 = true ∧ 2 ^ d.periodLen ≤ (d.gtc - d.periodStart).toNat ∧ bitN d.trkcfg 1 = true ∧ 1 ≤ bitsN d.trkcfg 36 6 ∧
       d.hottest = [(2, 5)] ∧ ((tracking 0).fmap.getD 2 {}).w = false ∧ ((tracking 0).fmap.getD 2 {}).kind = 3 ∧
       (tracking 0).poolBusy 0 = false ∧ (tracking 0).poolNext 0 = some (0x70000, 1) ∧ 0x70000 % 65536 = 0 ∧ 0x70000 + 65536 ≤ Config.deepBytes) ∧
    bitN (base.die 0).trkcfg 0 = false := by
  have some_of : ∀ {o : Option (List Byte)}, o.isSome = true → ∃ h, o = some h := fun h => Option.isSome_iff_exists.mp h
  refine ⟨⟨by decide, wf_of _ (by decide +kernel), some_of (by decide +kernel), by decide +kernel, by decide +kernel,
    ⟨at_ 0x30040, by decide +kernel, rfl, by decide, none_fly⟩, ⟨at_ 0x30008, by decide +kernel, rfl, by decide, none_fly⟩⟩,
    ⟨by decide +kernel, ⟨at_ 0x30018, by decide +kernel, rfl, by decide, none_fly⟩, wf_of _ (by decide +kernel)⟩, by decide, by decide +kernel, by decide +kernel, by decide⟩

/-- Braid window 0 of 512 bytes, with an answer and a write on their way under a timestamp. -/
def braidTraffic (tag : Word) : State :=
  { base with
    braidWindows := [(0, ⟨512, []⟩)], braidAnswers := [⟨0, 7, 2, tag, 5⟩], braidWrites := [⟨7, 0, 5, tag⟩] }

/-- ReplicasHomesAndFailures, replicas: the last line of a window and the first past it; a newer tag, one that is not newer, and a
replica that is bad. -/
theorem witness_replicas :
    (let s := braidTraffic 1024
     let w := s.braidWindows.getD 0 ⟨0, []⟩
     MemOk s ∧ 7 * 64 < w.size ∧ w.size / 8 % 64 = 0 ∧ (∀ d, w.bases.getD d 0 % 64 = 0) ∧ w.size ≤ 8 * 64 ∧
       (∀ r ∈ [w.replica 7 0, w.replica 7 1, w.replica 7 2], s.answers r = true ∧ s.replicaBad r = false ∧ s.placeBusy (replicaPlace r) = false)) ∧
    (let s := braidTraffic 1024
     let w := s.braidWindows.getD 0 ⟨0, []⟩
     let tag := fun gtc : Word => BitVec.ofNat 64 (gtc.toNat % 2 ^ 54 * 1024 + (7 % 8 * 128 + 98))
     (∀ r ∈ [w.replica 7 0, w.replica 7 1, w.replica 7 2], newerTag (tag 5) (s.replicaTag r) = true) ∧
       (let u := { s with braidTag := [w.replica 7 0, w.replica 7 1, w.replica 7 2].map (fun r => (lineOf (replicaPlace r).key, (1023 : Word))) }
        ∀ r ∈ [w.replica 7 0, w.replica 7 1, w.replica 7 2], newerTag (tag 0) (u.replicaTag r) = false)) ∧
    (lineHome 0x800 = 0 ∧ lineHome (2 ^ 60) = 0 ∧ lineHome (2 ^ 34) = 1) ∧
    (let r := ((braidTraffic 1024).braidWindows.getD 0 ⟨0, []⟩).replica 7 2
     r.2 % 64 = 0 ∧ (braidTraffic 1024).answers r = true ∧ newerTag 1024 ((braidTraffic 1024).replicaTag r) = true ∧ (braidTraffic 0).replicaBad r = false ∧
       newerTag 0 ((braidTraffic 0).replicaTag r) = false ∧ ({ braidTraffic 0 with poison := [lineOf (replicaPlace r).key] } : State).replicaBad r = true) ∧
    ((braidTraffic 1024).answers (7, 0) = true ∧ newerTag 1024 ((braidTraffic 1024).replicaTag (7, 0)) = true ∧ base.braidAnswers[0]? = none ∧ base.braidWrites[0]? = none) := by
  refine ⟨⟨wf_of _ rfl, by decide, by decide, fun d => rfl, by decide, by decide⟩, by decide, by decide, by decide, by decide⟩

def failing (d : Die) : State := { base with dies := [(0, d)] }

/-- ReplicasHomesAndFailures, homes: a write alone, a write behind another of its die; the first failure, a second one, the spare's,
one that is known; a copy to the spare that runs; a stack of each parity. -/
theorem witness_homes :
    (let s := migrating [fly 1, fly 2]
     MemOk s ∧ (s.flyWrites.filter (fun g => g.home == 0))[0]? = some (fly 1) ∧ (∀ g ∈ s.flyWrites, (fly 1).after g = false) ∧
       (s.sourceBehind (fly 1) = false ∧ s.lineBusy (fly 1).line = false ∧ s.flyPoisoned (fly 1) = false ∧ s.sourceBehind (fly 2) = true) ∧
       (s.flyWrites.filter (fun g => g.home == 0))[1]? = some (fly 2) ∧ ∃ g ∈ s.flyWrites, (fly 2).after g = true) ∧
    (let s := { migrating [fly 1] with poison := [0x800], contexts := [] }
     s.flyPoisoned (fly 1) = true ∧ (s.strand (fly 1).source).st = .unbound ∧ (s.context (fly 1).bind.ctx).state ≠ 2 ∧
       (s.context (fly 1).bind.ctx).state ≠ 3) ∧
    ((126 : Nat) ≠ 127 ∧ 126 ∉ (base.die 0).lostPcs ∧ 127 ∉ (base.die 0).lostPcs ∧ (base.die 0).spareFor = none) ∧
    (let d := (failing { spareFor := some 0, spareCopying := true }).die 0
     126 ∉ d.lostPcs ∧ d.spareFor ≠ none ∧ d.spareFor ≠ some 126 ∧ d.spareFor = some 0 ∧ d.spareCopying = true ∧ 127 ∉ d.lostPcs ∧ d.spareFor ≠ some 127) ∧
    0 ∈ ((failing { lostPcs := [0] }).die 0).lostPcs ∧ (base.die 0).spareCopying = false ∧
    (base.boot.stackmap.getLsbD 14 = true ∧ base.boot.stackmap.getLsbD 15 = true ∧ (14 : Nat) % 2 = 0 ∧ (15 : Nat) % 2 = 1) ∧
    ({ base with boot := { stackmap := 0x7FFF } } : State).boot.stackmap.getLsbD 15 = false := by
  refine ⟨⟨wf_of _ rfl, rfl, by decide, by decide +kernel, rfl, fly 1, .head _, by decide⟩, by decide, by decide, by decide, by decide, by decide, by decide, by decide⟩

/-! ## Witnesses: links, the host, world bits, start-up, registers -/

def linked (p : Nat) (q : Port) : State := { base with ports := [(p, q)] }

/-- PortsTrainFenceAndFail: each state of the first peer port and of the host link; every width; the counts at their limits. -/
theorem witness_ports :
    (∀ p ∈ [0, 15, 16], ∀ st ∈ [LinkState.reset, .training, .up, .degraded, .fenced, .down], p ≤ 16 ∧ ((linked p { state := st }).port p).state = st) ∧
    (trained 16 64 = 64 ∧ trained 16 63 = 32 ∧ trained 16 16 = 16 ∧ trained 16 15 = 0 ∧ trained 15 16 = 16 ∧ trained 15 15 = 8 ∧ trained 15 7 = 0) ∧
    ((1 : Nat) < 2 ∧ ((linked 0 { state := .training, attempts := 2 }).port 0).attempts = 2) ∧ 8 < ((linked 0 { state := .up, lanes := 16 }).port 0).lanes ∧
    (let n := fun k : Nat => ((List.replicate k (0 : Word)).filter (fun t => decide (((base.die 0).gtc - t).toNat < 1000000000))).length
     4096 ≤ n 4096 ∧ n 4095 < 4096) := by
  refine ⟨by decide, by decide, by decide, by decide, ?_⟩
  have h : ∀ k : Nat, ((List.replicate k (0 : Word)).filter (fun t => decide (((base.die 0).gtc - t).toNat < 1000000000))).length = k := fun k => by
    have : decide (((base.die 0).gtc - 0).toNat < 1000000000) = true := by decide
    rw [List.filter_replicate, this, if_pos rfl, List.length_replicate]
  simp only [h]; omega

/-- A host whose request comes by port 16, to page 2 or to a page of another entry. -/
def hosting (f : Fme) (n : BitVec 16) : State :=
  { linked 16 { state := .up, errcnt := n } with fmap := [(2, f)], dies := [] }

def hostOk : State := hosting (deepFrame 2) 0

/-- What an access of the host to the last 8 bytes of a line of page 2 comes to. -/
def hostGets (s : State) (acc : Access) : Except Nat Xl := s.resolve 0 (s.port 16).world acc 0x20038
def hostFails (s : State) (acc : Access) : Bool := match hostGets s acc with | .error c => c == Cause.frameFault | .ok _ => false

/-- HostMemoryRequests: the last bytes of a line; an entry of kind 0; one that moves; ERRCNT below its limit and at it. -/
theorem witness_host_requests :
    ((hostOk.port 16).usable = true ∧ hostOk.hostPosts = [] ∧ MemOk hostOk ∧ (1 ≤ 8 ∧ 0x20038 % 64 + 8 ≤ 64 ∧ 0x20038 + 8 ≤ 2 ^ 48)) ∧
    hostGets hostOk .read = .ok (at_ 0x20038) ∧ hostGets hostOk .write = .ok (at_ 0x20038) ∧ (Place.deep 0 0x20038).exists = true ∧
    (hostGets hostOk .atomic = .ok (at_ 0x20038) ∧ hostOk.boot.minimal = false ∧ hostOk.flyWrites = [] ∧ 0x20038 % 8 = 0 ∧
      ({ hostOk with poison := [0x800] } : State).poisoned (.deep 0 0x20038) 8 = true) ∧
    hostOk.poisoned (.deep 0 0x20038) 8 = false ∧ hostOk.frameBlocked 0 0x20038 = false ∧ hostOk.frameBusy 0 0x20038 = false ∧
    (hostFails (hosting {} 0xFFFE) .read = true ∧ hostFails (hosting {} 0xFFFF) .write = true ∧ ((hosting {} 0xFFFE).port 16).errcnt = 0xFFFE ∧
      ((hosting {} 0xFFFF).port 16).errcnt = 0xFFFF ∧ (hosting {} 0xFFFF).frameBlocked 0 0x20038 = false) ∧
    (hosting { w0 := 9, w1 := 0x20000 } 0).frameBlocked 0 0x20038 = true := by
  refine ⟨⟨by decide, rfl, wf_of _ rfl, by decide⟩, ?_⟩
  decide +kernel

/-- RegisterAndWorldBitWrites, world bits: a core without strands whose world changes or stays, one with a strand; a copy engine, a
queue, a port and a trace unit without work, and with it. -/
theorem witness_world_bits :
    (∀ i, i < 4 → ((ctxIn 1).strand (0 + i)).st = .unbound) ∧ ((ctxIn 1).core 0).world = false ∧ (base.strand 0).st ≠ .unbound ∧
    (∀ i, i < 4 → (base.strand (0 + i)).cpq = []) ∧
    ((queued { desc := desc 1 } []).queue 1).cmds = [] ∧ (base.queue 1).desc.state = 0 ∧ ((ready plainCopy).queue 1).cmds ≠ [] ∧
    (base.port 16).inflight = [] ∧ (∀ h ∈ base.hostPosts, h.port ≠ 16) ∧ (∃ h ∈ [HostPost.write 16 0 []], h.port = 16) ∧ (base.port 16).state = .reset ∧ (base.die 7).trace = [] ∧
    ((failing { trace := [⟨0, 0, 5, false, 0, []⟩] }).die 0).trace ≠ [] := by
  refine ⟨by decide, rfl, by decide, by decide, rfl, rfl, by decide, rfl, fun _ h => absurd h List.not_mem_nil, ⟨_, .head _, rfl⟩, rfl, rfl, by decide⟩

/-- An image of VERSION 5 with no body, its key and its signature. -/
def image : BootImage :=
  { key := 0x10d8cc1f7e9bfe31be56fe1da92e1720022868553e2995f70d18308400a9c0d#512 * 2 ^ 256 + 0x283271dd524b4c611a518cb1711aa555bb1227d6e95b5a73a5b259cc2b1bf85f#512
    file := leBytes 4 1 ++ leBytes 4 5 ++ leBytes 56 0 ++ bigBytes 32 0x7cf27b188d034f7e8a52380304b51ac3c08969e277f21b35a60b48fc47669978 ++ bigBytes 32 0x8a34a9fa3c752d46ab0786db4b764e3c6003af1943c6ab2e65d375a7a07c2a0 }
def keyFuse : BitVec 256 := 0x001d6a3dfd8c6dafcb1dd3054a39c58dfc598708b05e1a64e50b9557d6a26789#256

/-- StartUpPowerAndTime: the signature holds, under the key whose hash is fused. -/
theorem witness_signature :
    let n := 64 + cutN image.file 8 8
    n + 64 ≤ image.file.length ∧ sha256 (bigBytes 64 image.key.toNat) = keyFuse ∧
      signatureOk (some (image.key.toNat / 2 ^ 256, image.key.toNat % 2 ^ 256)) (sha256 (image.file.take n)) (bigNat (cut image.file n 32))
        (bigNat (cut image.file (n + 32) 32)) = true ∧ ¬cutN image.file 4 4 < 5 ∧ cutN image.file 4 4 < 6 := by decide +kernel

def booting (n stage : Nat) (on : Bool) : State := { base with boot := { bootcnt := n, active := on, stage := stage } }

/-- StartUpPowerAndTime: BOOTCNT 2 and 3; a signature that fails; a request of the host that waits; failures in flash; a die with no stack; each
stage; BOOTOK, minimal mode; memory at rest; lost trace with room, without room, and without a way out. -/
theorem witness_start_up :
    ((booting 2 0 false).boot.active = false ∧ (booting 2 0 false).boot.bootcnt < 3 ∧ 3 ≤ (booting 3 0 false).boot.bootcnt) ∧
    ¬64 + cutN ([] : List Byte) 8 8 + 64 ≤ ([] : List Byte).length ∧ (base.hostImage = [] ∧ (∀ h ∈ base.hostPosts, h.port ≠ 16)) ∧
    ({ base with flash := { pcs := [(0, 3)] } } : State).flash.pcs ≠ [] ∧
    (∀ n, n < 3 → Starting (booting 1 n true) n) ∧ (∃ d, d < 8 ∧ (0x3FFF : BitVec 16).getLsbD (2 * d) = false ∧ (0x3FFF : BitVec 16).getLsbD (2 * d + 1) = false) ∧
    (¬∃ d, d < 8 ∧ (0x5555 : BitVec 16).getLsbD (2 * d) = false ∧ (0x5555 : BitVec 16).getLsbD (2 * d + 1) = false) ∧
    ({ base with boot := { bootok := true } } : State).boot.bootok = true ∧ ({ base with boot := { minimal := true } } : State).boot.minimal = true ∧ MemOk base ∧ NoAliases base ∧
    (let d := (failing { dropped := 1, sideband := true }).die 0
     d.dropped ≠ 0 ∧ (d.trace.map (fun r => 16 + 8 * r.body.length)).sum + 32 ≤ 2 ^ 20 ∧ (d.traceWorld = true ∨ d.sideband = true)) ∧
    (base.die 0).dropped = 0 :=
  ⟨by decide, by decide, ⟨rfl, fun _ h => absurd h List.not_mem_nil⟩, by decide,
    fun n _ => ⟨rfl, rfl, rfl, rfl⟩, by decide, by decide, rfl, rfl, wf_of _ rfl, ⟨rfl, rfl, rfl⟩, by decide, rfl⟩

/-- RegisterAndWorldBitWrites, registers: a free slot and a bound one; tracking that starts and that runs; a context of each state;
a halted strand and one that runs. -/
theorem witness_register_writes :
    (base.strand 1).st = .unbound ∧ (base.strand 0).st ≠ .unbound ∧ bitN (1 : Word) 0 = true ∧ bitN (base.die 0).trkcfg 0 = false ∧
    bitN ((tracking 0).die 0).trkcfg 0 = true ∧ ((tracking 0).die 0).periodOver = true ∧
    ((failing { trkcfg := 1 }).die 0).periodOver = false ∧ base.hostPosts = [] ∧ (base.queue 1).desc.state = 0 ∧
    ((queued { desc := desc 1 } []).queue 1).desc.state ≠ 0 ∧ (4095 : BitVec 16).toNat < 4096 ∧ (∀ n ∈ [(0 : BitVec 8), 1, 2, 3, 4], ((ctxIn n).context 0).state = n) ∧
    ((withStrand { running with st := .halted }).strand 0).st = .halted ∧ (base.strand 0).st ≠ .halted ∧ MemOk base ∧
    (let t := (withStrand { running with st := .halted, vecHeld := true, viq := [{ convoyOf [0] with resumed := true }] }).strand 0
     t.st = .halted ∧ t.vecHeld = true ∧ ∃ c, t.viq = [c] ∧ c.resumed = true) := by
  refine ⟨rfl, by decide, by decide, by decide, by decide, by decide, by decide, rfl, rfl, by decide, by decide, fun _ _ => rfl, rfl, by decide, wf_of _ rfl, rfl, rfl, _, rfl, rfl⟩

/-! ## Witnesses: the step, encodings, the invariant -/

/-- Strand 0 is to take a turn, with the word given at its PC. -/
def stepping (turn : Turn) (w : BitVec 32) (viq : List Convoy) : State :=
  { withStrand { running with viq := viq } with turns := [turn], mem := Memory.listed 0x10000 (leBytes 4 w.toNat) }

/-- What the fetch of a turn gives. -/
def fetched (s : State) : Option (BitVec 32) :=
  let v : State := { { s.tick with turns := [] } with cur := { src := 0, pc := 0x10000, samp := (s.strand 0).modes } }
  match v.fetchWord 0 0x10000 0 with
  | .ok (w, _) => some w
  | .error _ => none

/-- The convoy of a fetch turn can enter the VIQ. -/
def enters (s : State) : Bool :=
  let u : State := { s.tick with turns := [] }
  let t := u.strand 0
  let v : State := { u with cur := { src := 0, pc := 0x10000, samp := t.modes } }
  match v.fetchWord 0 0x10000 0 with
  | .ok (w, x) => (match (v.see 0 0x10000 x).fetchConvoy 0 0x10000 [] 4 with
    | .ok (ws, y) => (issueStop t.modes (ws.map (((v.see 0 0x10000 x).see 0 (0x10000 + BitVec.ofNat 64 (4 * ws.length - 4)) y).givenOf 0)) 0).isNone &&
        t.sluiceRoom 1 (ws.countP usesVmq) (ws.countP usesMxq) (ws.countP usesCpq) && convoyCapable w
    | .error _ => false)
  | .error _ => false

/-- The strand of a turn can fetch. -/
def fetches (s : State) : Bool :=
  let t := ({ s.tick with turns := [] } : State).strand 0
  t.st == .running && !({ s.tick with turns := [] } : State).fetchHeld 0 t.pc (t.pc + 12)

/-- A strand that has yielded, with another of its core ready. -/
def yielded : State :=
  let s := stepping (.fetch 0) 0 []
  { s with strands := [(0, { running with skip := 16 }), (1, running)] }

/-- StepRunsTheDecodedInstruction: a word of the scalar side, one that decodes to nothing, a convoy, a member and an event. -/
theorem witness_step :
    (fetched (stepping (.fetch 0) 0x04529800 []) = some 0x04529800 ∧ decode 0x04529800 = .ok (.add ⟨5, 5, 6⟩) ∧ convoyCapable 0x04529800 = false) ∧
    (fetched (stepping (.fetch 0) 0xFFFFFFFF []) = some 0xFFFFFFFF ∧ (∃ e, decode 0xFFFFFFFF = .error e)) ∧
    (enters (stepping (.fetch 0) 0x2A210490 [convoyOf [0x2A210490]]) = true ∧ enters (stepping (.enter 0) 0x2A210490 []) = true ∧
      (∃ i, decode 0x2A210490 = .ok i)) ∧
    (fetches (stepping (.fetch 0) 0 []) = true ∧ fetches yielded = true ∧ 0 < (yielded.tick.strand 0).skip ∧ yielded.tick.otherReady 0 = true) ∧
    (∀ turn ∈ [Turn.member 0, .memberPart 0 1],
     let s := stepping turn 0 [convoyOf [0x2A210490]]
     let t := ({ s.tick with turns := [] } : State).strand 0
     t.vecHeld = false ∧ t.st ≠ .unbound ∧ t.fsvMarks = [] ∧ t.pending = some (convoyOf [0x2A210490]) ∧
       t.barred (convoyOf [0x2A210490]) = false) ∧
    encode .bootok = none ∧ (stepping (.request (.control 0)) 0 []).turns = [.request (.control 0)] := by
  refine ⟨by decide +kernel, ⟨by decide +kernel, ⟨_, rfl⟩⟩, ⟨by decide +kernel, by decide +kernel, ⟨_, rfl⟩⟩, by decide +kernel, fun turn h => ?_, rfl, rfl⟩
  rcases List.mem_pair.mp h with rfl | rfl <;> exact ⟨rfl, by decide, rfl, rfl, by decide +kernel⟩

/-- DecodeAndEncodeAgree and EveryStepKeepsTheInvariant: an instruction and its word; a state whose step goes on. -/
theorem witness_encoding_and_invariant :
    fieldError (.add ⟨5, 5, 6⟩) = none ∧ encode (.add ⟨5, 5, 6⟩) = some 0x04529800 ∧ decode 0x04529800 = .ok (.add ⟨5, 5, 6⟩) ∧
    (∃ t, StateOk { base with turns := [.member 0] } ∧ step { base with turns := [.member 0] } = .next t) :=
  ⟨by decide, by decide, by decide, _, ok_of _ rfl rfl rfl rfl rfl rfl, rfl⟩
end Sys2Proof.Tests
end

section
/-! PROOFS. What a write to a register without a row of its own stores (R6), and when a world bit is written (R76). -/

namespace Sys2Proof

/-! ## Tables -/

/-- A function on every entry of a table acts on every unit, where it leaves the value of an unwritten one. -/
theorem Tbl.getD_mapVal {α β : Type} (f : α → β) (t : Tbl α) (k : Nat) (d : α) :
    Tbl.getD (t.map (fun e => (e.1, f e.2)) : Tbl β) k (f d) = f (Tbl.getD t k d) := by
  induction t with
  | nil => rfl
  | cons e r ih =>
    simp only [List.map_cons, Tbl.getD]
    split
    · rfl
    · exact ih

/-- A unit none of whose entries are kept is as one that was never written. -/
theorem Tbl.getD_filter_gone {α : Type} (t : Tbl α) (p : Nat × α → Bool) (k : Nat) (d : α) (h : ∀ x, p (k, x) = false) :
    Tbl.getD (t.filter p : Tbl α) k d = d := by
  induction t with
  | nil => rfl
  | cons e r ih =>
    obtain ⟨j, x⟩ := e
    by_cases hj : j = k
    · subst hj; rw [List.filter_cons_of_neg (by simp [h]), ih]
    · by_cases hp : p (j, x) = true
      · rw [List.filter_cons_of_pos hp]; simp only [Tbl.getD, if_neg hj, ih]
      · rw [List.filter_cons_of_neg hp, ih]

namespace Machine

/-- A byte whose entries are dropped reads as one that nothing has written. -/
theorem Memory.read_filter_gone (m : Memory) (p : Host.Cell → Bool) (a : Nat) (h : ∀ x, p (a, x) = false) :
    Memory.read (m.filter p) a = Memory.unlisted := by
  refine Memory.read_of_not_mem _ _ fun c hc ha => ?_
  obtain ⟨b, x⟩ := c
  subst ha
  simpa [h] using (List.mem_filter.mp hc).2

/-! ## The frame of an update of one unit -/

theorem State.setDie_frame (s : State) (k : Nat) (d : Die) :
    { s.setDie k d with dies := s.dies } = s ∧ (s.setDie k d).die k = d ∧ ∀ j, j ≠ k → (s.setDie k d).die j = s.die j :=
  ⟨rfl, s.die_setDie k d, fun j h => s.die_setDie_ne k d j h⟩

theorem State.setCore_frame (s : State) (k : Nat) (c : Core) :
    { s.setCore k c with cores := s.cores } = s ∧ (s.setCore k c).core k = c ∧ ∀ j, j ≠ k → (s.setCore k c).core j = s.core j :=
  ⟨rfl, s.core_setCore k c, fun j h => s.core_setCore_ne k c j h⟩

theorem State.setContext_frame (s : State) (k : Nat) (c : ContextDesc) :
    { s.setContext k c with contexts := s.contexts } = s ∧ (s.setContext k c).context k = c ∧
      ∀ j, j ≠ k → (s.setContext k c).context j = s.context j :=
  ⟨rfl, s.context_setContext k c, fun j h => s.context_setContext_ne k c j h⟩

theorem State.setQueue_onlyQueue (s : State) (k : Nat) (q : Queue) : Claims.OnlyQueue k s (s.setQueue k q) :=
  ⟨rfl, fun j h => s.queue_setQueue_ne k q j h⟩

theorem State.setPort_onlyPort (s : State) (k : Nat) (p : Port) : Claims.OnlyPort k s (s.setPort k p) :=
  ⟨rfl, fun j h => s.port_setPort_ne k p j h⟩

theorem State.updAt_onlyStrand (s : State) (k : Nat) (f : Strand → Strand) : Claims.OnlyStrand k s (s.updAt k f) :=
  ⟨rfl, fun j h => s.strand_setStrand_ne k _ j h⟩

/-! ## TRKCFG (R217, R280) -/

theorem bitsN_eq_extract (w : Word) (lo n : Nat) : bitsN w lo n = (w.extractLsb' lo n).toNat := by
  rw [BitVec.extractLsb'_toNat, Nat.shiftRight_eq_div_pow]; rfl

/-- A field that a mask covers passes it unchanged. -/
theorem bitsN_and_mask (w m : Word) (lo n : Nat) (h : m.extractLsb' lo n = BitVec.allOnes n) :
    bitsN (w &&& m) lo n = bitsN w lo n := by
  rw [bitsN_eq_extract, bitsN_eq_extract, BitVec.extractLsb'_and, h, BitVec.and_allOnes]

/-- The clamped PERIOD replaces bits 8 to 15 and carries into no bit above them. -/
theorem toNat_clampPeriod (w : Word) : ∃ p, p < 256 ∧
    (clampPeriod w).toNat = w.toNat / 65536 * 65536 + p * 256 + w.toNat % 256 := by
  refine ⟨max 10 (min 40 (bitsN w 8 8)), by omega, ?_⟩
  have hp : bitsN w 8 8 = w.toNat / 256 % 256 := rfl
  have hw := w.isLt
  rw [clampPeriod, BitVec.toNat_ofNat, hp]
  omega

theorem bitN_clampPeriod_zero (w : Word) : bitN (clampPeriod w) 0 = bitN w 0 := by
  obtain ⟨p, -, h⟩ := toNat_clampPeriod w
  have : bitsN (clampPeriod w) 0 1 = bitsN w 0 1 := by simp only [bitsN, h]; omega
  simp only [bitN, this]

theorem bitsN_clampPeriod_thresh (w : Word) : bitsN (clampPeriod w) 48 16 = bitsN w 48 16 := by
  obtain ⟨p, hp, h⟩ := toNat_clampPeriod w
  simp only [bitsN, h]; omega

/-- The value that a write of TRKCFG stores keeps EN and THRESH. -/
theorem bitN_trkcfg_en (w : Word) : bitN (clampPeriod (w &&& csrMask 0x0C0)) 0 = bitN w 0 := by
  rw [bitN_clampPeriod_zero, bitN, bitsN_and_mask _ _ _ _ (by decide)]; rfl

theorem bitsN_trkcfg_thresh (w : Word) : bitsN (clampPeriod (w &&& csrMask 0x0C0)) 48 16 = bitsN w 48 16 := by
  rw [bitsN_clampPeriod_thresh, bitsN_and_mask _ _ _ _ (by decide)]

theorem Die.endDue_trkcfg (d : Die) : d.endDue.trkcfg = d.trkcfg := by
  unfold Die.endDue; dsimp only; split <;> rfl

theorem Die.endDue_gtc (d : Die) : d.endDue.gtc = d.gtc := by
  unfold Die.endDue; dsimp only; split <;> rfl

theorem Die.endDue_counters (d : Die) : d.endDue.counters = if d.periodOver = true then [] else d.counters := by
  unfold Die.endDue; dsimp only; split <;> rfl

/-- A write of TRKCFG that turns EN on starts a period (R280). -/
theorem State.writeTrkcfg_start (s : State) (k : Nat) (w : Word) (hw : bitN w 0 = true) (hd : bitN (s.die k).trkcfg 0 = false) :
    s.writeTrkcfg k w = s.setDie k { (s.die k).endDue with
      trkcfg := clampPeriod (w &&& csrMask 0x0C0), counters := [], periodStart := (s.die k).gtc
      periodLen := bitsN (clampPeriod (w &&& csrMask 0x0C0)) 8 8 } := by
  simp [State.writeTrkcfg, bitN_trkcfg_en, Die.endDue_trkcfg, Die.endDue_gtc, hw, hd]

/-- Any other write of TRKCFG stores its value alone. -/
theorem State.writeTrkcfg_plain (s : State) (k : Nat) (w : Word) (h : bitN w 0 = false ∨ bitN (s.die k).trkcfg 0 = true) :
    s.writeTrkcfg k w = s.setDie k { (s.die k).endDue with trkcfg := clampPeriod (w &&& csrMask 0x0C0) } := by
  rcases h with h | h <;> simp [State.writeTrkcfg, bitN_trkcfg_en, Die.endDue_trkcfg, h]

/-- What a write of TRKCFG stores, and what it does to the counters of the period (R217, R280). -/
theorem State.writeTrkcfg_spec (s : State) (k : Nat) (w : Word) :
    { s.writeTrkcfg k w with dies := s.dies } = s ∧
    bitN ((s.writeTrkcfg k w).die k).trkcfg 0 = bitN w 0 ∧
    bitsN ((s.writeTrkcfg k w).die k).trkcfg 48 16 = bitsN w 48 16 ∧
    (bitN w 0 = true → bitN (s.die k).trkcfg 0 = false →
      ((s.writeTrkcfg k w).die k).counters = [] ∧ ((s.writeTrkcfg k w).die k).periodStart = (s.die k).gtc) ∧
    (bitN (s.die k).trkcfg 0 = true → (s.die k).periodOver = false →
      ((s.writeTrkcfg k w).die k).counters = (s.die k).counters) ∧
    ((s.die k).periodOver = true → ((s.writeTrkcfg k w).die k).counters = []) := by
  by_cases h : bitN w 0 = true ∧ bitN (s.die k).trkcfg 0 = false
  · obtain ⟨hw, hd⟩ := h
    rw [s.writeTrkcfg_start k w hw hd, State.die_setDie]
    exact ⟨rfl, bitN_trkcfg_en w, bitsN_trkcfg_thresh w, fun _ _ => ⟨rfl, rfl⟩, fun h => by simp [hd] at h, fun _ => rfl⟩
  · have h' : bitN w 0 = false ∨ bitN (s.die k).trkcfg 0 = true := by
      rwa [not_and_or, Bool.not_eq_true, Bool.not_eq_false] at h
    rw [s.writeTrkcfg_plain k w h', State.die_setDie]
    refine ⟨rfl, bitN_trkcfg_en w, bitsN_trkcfg_thresh w, fun hw hd => absurd ⟨hw, hd⟩ h, fun _ ho => ?_, fun ho => ?_⟩
    · simp [Die.endDue_counters, ho]
    · simp [Die.endDue_counters, ho]

/-! ## Context descriptors (R73) -/

theorem State.writeContext_open (s : State) (d : ContextDesc) (hk : d.ctxid.toNat < 4096)
    (h : (s.context d.ctxid.toNat).state = 0 ∨ (s.context d.ctxid.toNat).state = 1 ∨ (s.context d.ctxid.toNat).state = 3) :
    s.writeContext d = s.setContext d.ctxid.toNat { d with state := (s.context d.ctxid.toNat).state } :=
  if_pos ⟨hk, h⟩

theorem State.writeContext_closed (s : State) (d : ContextDesc)
    (h : (s.context d.ctxid.toNat).state = 2 ∨ (s.context d.ctxid.toNat).state = 4) : s.writeContext d = s := by
  refine if_neg fun hw => ?_
  obtain ⟨-, hs⟩ := hw
  rcases h with h | h <;> simp [h] at hs

/-! ## Registers that the host writes (R333, R360) -/

/-- A request that waits for nothing is performed at once, where no earlier one waits. -/
theorem State.receive_one (s : State) (h : HostPost) (hs : s.hostPosts = []) (hb : s.postBlocked h = false) :
    s.receive [h] = s.performPost h := by
  have he : ({ s with hostPosts := [] } : State) = s := by rw [← hs]
  simp [State.receive, hs, State.flushHost, State.flushPosts, he, hb]

theorem State.receive_notify (s : State) (k : Nat) (w : Word) (hs : s.hostPosts = []) :
    s.receive [.notify k w] = s.setNotify k w := s.receive_one _ hs rfl

/-- An error is counted in ERRCNT of the port, which stays at its largest value (R328). -/
theorem State.countError_errcnt (s : State) (p : Nat) (h : (s.port p).errcnt ≠ 0xFFFF) :
    ((s.countError p).port p).errcnt = (s.port p).errcnt + 1 := by
  rw [State.countError, State.port_setPort]
  exact if_neg h

/-! ## ESTART of a halted strand (R301) -/

/-- Beside ESTART, its write touches the queue of convoys alone. -/
theorem Strand.writeEstart_only (t : Strand) (w : Word) :
    { t.writeEstart w with viq := t.viq } = { t with csr := { t.csr with estart := w } } := by
  cases hv : t.viq with
  | nil => simp only [Strand.writeEstart, hv]
  | cons c r => simp only [Strand.writeEstart, hv]; split <;> exact hv ▸ rfl

theorem Strand.writeEstart_resumed (t : Strand) (w : Word) (c : Convoy) (r : List Convoy) (hv : t.viq = c :: r)
    (ht : t.vecHeld = true) (hc : c.resumed = true) :
    (t.writeEstart w).viq = { c with skip := decide (c.samp.vl ≤ w.toNat) } :: r := by
  simp [Strand.writeEstart, hv, ht, hc]

theorem Strand.writeEstart_unheld (t : Strand) (w : Word) (ht : t.vecHeld = false) : (t.writeEstart w).viq = t.viq := by
  cases hv : t.viq <;> simp [Strand.writeEstart, hv, ht]

/-! ## Braid windows (R214, R215; assumption 63) -/

/-- The key lies in the region that a window has on some die (R214). -/
def BraidWindow.covers (w : BraidWindow) (k : Nat) : Bool :=
  w.bases.zipIdx.any (fun e => decide (e.2 * 2 ^ 40 + e.1 ≤ k) && decide (k < e.2 * 2 ^ 40 + e.1 + w.size * 3 / 8))

theorem BraidWindow.covers_of_base (w : BraidWindow) (j base k : Nat) (h : w.bases[j]? = some base)
    (lo : j * 2 ^ 40 + base ≤ k) (hi : k < j * 2 ^ 40 + base + w.size * 3 / 8) : w.covers k = true :=
  List.any_eq_true.mpr ⟨(base, j), List.mk_mem_zipIdx_iff_getElem?.mpr h, by simp only [lo, hi, decide_true, Bool.and_self]⟩

theorem State.clearBraid_mem (s : State) (w : BraidWindow) : (s.clearBraid w).mem = s.mem.filter (fun c => !w.covers c.1) := rfl
theorem State.clearBraid_braidTag (s : State) (w : BraidWindow) :
    (s.clearBraid w).braidTag = s.braidTag.filter (fun e => !w.covers (e.1 * 64)) := rfl

/-- The bytes that a window covers are zero. -/
theorem State.clearBraid_read (s : State) (w : BraidWindow) (a : Nat) (h : w.covers a = true) :
    Memory.read (s.clearBraid w).mem a = 0 := by
  rw [State.clearBraid_mem]
  exact Memory.read_filter_gone _ _ _ fun _ => by simp [h]

/-- The tags of the lines that a window covers are zero. -/
theorem State.clearBraid_tag (s : State) (w : BraidWindow) (line : Nat) (h : w.covers (line * 64) = true) :
    (s.clearBraid w).braidTag.getD line 0 = 0 := by
  rw [State.clearBraid_braidTag]
  exact Tbl.getD_filter_gone _ _ _ _ fun _ => by simp [h]

/-- A line that begins below a byte of a region with an aligned base begins in the region. -/
theorem BraidWindow.covers_line (w : BraidWindow) (j base a : Nat) (h : w.bases[j]? = some base)
    (lo : j * 2 ^ 40 + base ≤ a) (hi : a < j * 2 ^ 40 + base + w.size * 3 / 8) (hb : base % 64 = 0) :
    w.covers (a / 64 * 64) = true :=
  w.covers_of_base j base _ h (by omega) (by omega)

/-! ## TLB invalidation (R208) -/

/-- The entry outlives an invalidation of a context, whole or at one page. -/
def TlbEntry.stays (ctx : Nat) (page : Option Nat) (e : TlbEntry) : Bool :=
  match page with
  | none => e.ctx != ctx
  | some p => !e.covers ctx p

theorem TlbEntry.stays_iff (ctx : Nat) (page : Option Nat) (e : TlbEntry) :
    e.stays ctx page = true ↔ ¬((page = none ∧ e.ctx = ctx) ∨ ∃ p, page = some p ∧ e.covers ctx p = true) := by
  cases page <;> simp [TlbEntry.stays]

/-- What an invalidation leaves of a die. -/
def Die.dropTlb (ctx : Nat) (page : Option Nat) (d : Die) : Die :=
  { d with tlb := d.tlb.filter (TlbEntry.stays ctx page)
           l1Tlb := d.l1Tlb.map (fun e => (e.1, e.2.filter (TlbEntry.stays ctx page))) }

theorem State.die_dropTlb (s : State) (ctx : Nat) (page : Option Nat) (j : Nat) :
    (s.dropTlb ctx page).die j = (s.die j).dropTlb ctx page :=
  Tbl.getD_mapVal (Die.dropTlb ctx page) s.dies j {}

/-- The entries that an invalidation leaves in a die's TLB, and in the L1 TLB of a core. -/
theorem Die.mem_dropTlb_tlb (ctx : Nat) (page : Option Nat) (d : Die) (e : TlbEntry) :
    e ∈ (d.dropTlb ctx page).tlb ↔ e ∈ d.tlb ∧ e.stays ctx page = true := List.mem_filter

theorem Die.mem_dropTlb_l1Tlb (ctx : Nat) (page : Option Nat) (d : Die) (m : Nat) (e : TlbEntry) :
    e ∈ (d.dropTlb ctx page).l1Tlb.getD m [] ↔ e ∈ d.l1Tlb.getD m [] ∧ e.stays ctx page = true := by
  have h : (d.dropTlb ctx page).l1Tlb.getD m [] = (d.l1Tlb.getD m []).filter (TlbEntry.stays ctx page) :=
    Tbl.getD_mapVal (List.filter (TlbEntry.stays ctx page)) d.l1Tlb m []
  rw [h, List.mem_filter]

/-! ## The world of a core (R76; assumption 77) -/

theorem mem_corePositions (die core j : Nat) (hc : core < 16) :
    j ∈ corePositions (die * 16 + core) ↔ ∃ i, i < 4 ∧ j = die * 128 + core * 4 + i := by
  have hd : (die * 16 + core) / 16 = die := by omega
  have hm : (die * 16 + core) % 16 = core := by omega
  simp only [corePositions, hd, hm, List.mem_map, List.mem_range, eq_comm (a := j)]

/-- A test holds at every strand position of a core. -/
theorem all_corePositions (die core : Nat) (hc : core < 16) (p : Nat → Bool) :
    (corePositions (die * 16 + core)).all p = true ↔ ∀ i, i < 4 → p (die * 128 + core * 4 + i) = true := by
  simp only [List.all_eq_true, mem_corePositions die core _ hc]
  exact ⟨fun h i hi => h _ ⟨i, hi, rfl⟩, fun h j ⟨i, hi, hj⟩ => hj ▸ h i hi⟩

@[simp] theorem State.fitMsc_l1 (s : State) (line : Nat) : (s.fitMsc line).l1 = s.l1 := by
  unfold State.fitMsc
  split
  · rfl
  · split <;> rfl

/-- A line that leaves the L1s is in none of them. -/
theorem State.leaveL1_l1 (s : State) (line : Nat) : (s.leaveL1 line).l1 = s.l1.filter (fun l => l.line != line) := by
  unfold State.leaveL1
  split
  next h =>
    simp only [State.inL1, List.find?_eq_none, beq_iff_eq] at h
    exact (List.filter_eq_self.mpr fun l hl => bne_iff_ne.mpr (h l hl)).symm
  next => exact State.fitMsc_l1 _ _

theorem State.foldl_leaveL1_only (lines : List Nat) (s : State) : OnlyCaches s (lines.foldl State.leaveL1 s) := by
  induction lines generalizing s with
  | nil => exact .refl s
  | cons x r ih => exact (s.leaveL1_only x).trans (ih _)

theorem State.mem_l1_foldl_leaveL1 (lines : List Nat) (s : State) (l : L1Line) (h : l ∈ (lines.foldl State.leaveL1 s).l1) :
    l ∈ s.l1 ∧ l.line ∉ lines := by
  induction lines generalizing s with
  | nil => exact ⟨h, List.not_mem_nil⟩
  | cons x r ih =>
    obtain ⟨hx, hr⟩ := ih _ h
    rw [State.leaveL1_l1, List.mem_filter, bne_iff_ne] at hx
    exact ⟨hx.1, List.not_mem_cons_of_ne_of_not_mem hx.2 hr⟩

theorem State.emptyL1_only (s : State) (k : Nat) : OnlyCaches s (s.emptyL1 k) := State.foldl_leaveL1_only _ s

theorem State.emptyL1_cores (s : State) (k : Nat) : (s.emptyL1 k).cores = s.cores := by
  have h := congrArg State.cores (s.emptyL1_only k); exact h

theorem State.emptyL1_strands (s : State) (k : Nat) : (s.emptyL1 k).strands = s.strands := by
  have h := congrArg State.strands (s.emptyL1_only k); exact h

theorem State.emptyL1_mem (s : State) (k : Nat) : (s.emptyL1 k).mem = s.mem := by
  have h := congrArg State.mem (s.emptyL1_only k); exact h

/-- No line of the core is left in its L1. -/
theorem State.emptyL1_core (s : State) (k : Nat) (l : L1Line) (h : l ∈ (s.emptyL1 k).l1) : l.core ≠ k := by
  obtain ⟨hs, hn⟩ := State.mem_l1_foldl_leaveL1 _ s l h
  intro hk
  exact hn (List.mem_map_of_mem (List.mem_filter.mpr ⟨hs, beq_iff_eq.mpr hk⟩))

/-- What no freeing of a single position changes, freeing several does not. -/
theorem State.foldl_free_keeps {β : Type} (g : State → β) (hg : ∀ u k, g (State.free u k) = g u) (l : List Nat) (s : State) :
    g (l.foldl State.free s) = g s := by
  induction l generalizing s with
  | nil => rfl
  | cons x r ih => exact (ih _).trans (hg s x)

/-- A freed position keeps its last braid timestamp alone. -/
theorem State.strand_foldl_free (l : List Nat) (s : State) (j : Nat) :
    (l.foldl State.free s).strand j = if j ∈ l then { lastBraid := (s.strand j).lastBraid } else s.strand j := by
  induction l generalizing s with
  | nil => simp
  | cons x r ih =>
    rw [List.foldl_cons, ih, State.free]
    by_cases hj : j = x
    · subst hj; simp
    · simp [State.strand_setStrand_ne _ _ _ _ hj, hj]

/-- A core that is in the world already keeps everything. -/
theorem State.setCoreWorld_same (s : State) (k : Nat) (on : Bool) (h : (s.core k).world = on) : s.setCoreWorld k on = s := if_pos h

/-- The state of a core whose world has changed, before its strand positions are freed. -/
def State.coreWorldChanged (s : State) (k : Nat) (on : Bool) : State :=
  let u := s.emptyL1 k
  let v := u.setDie (k / 16) { u.die (k / 16) with l1Tlb := (u.die (k / 16)).l1Tlb.erase (k % 16) }
  v.setCore k { v.core k with world := on, scratch := [], scratchPoison := [] }

theorem State.setCoreWorld_changed (s : State) (k : Nat) (on : Bool) (h : (s.core k).world ≠ on) :
    s.setCoreWorld k on = (corePositions k).foldl State.free (s.coreWorldChanged k on) := if_neg h

theorem State.coreWorldChanged_core (s : State) (k : Nat) (on : Bool) :
    (s.coreWorldChanged k on).core k = { (s.emptyL1 k).core k with world := on, scratch := [], scratchPoison := [] } :=
  State.core_setCore _ _ _

theorem State.coreWorldChanged_core_ne (s : State) (k : Nat) (on : Bool) (i : Nat) (hi : i ≠ k) :
    (s.coreWorldChanged k on).core i = s.core i := by
  have he : (s.emptyL1 k).core i = s.core i := by rw [State.core, s.emptyL1_cores, State.core]
  exact (State.core_setCore_ne _ _ _ _ hi).trans he

theorem State.coreWorldChanged_l1Tlb (s : State) (k : Nat) (on : Bool) :
    ((s.coreWorldChanged k on).die (k / 16)).l1Tlb.getD (k % 16) [] = [] := by
  have hd : ((s.coreWorldChanged k on).die (k / 16)).l1Tlb = ((s.emptyL1 k).die (k / 16)).l1Tlb.erase (k % 16) :=
    congrArg Die.l1Tlb (State.die_setDie _ _ _)
  rw [hd, Tbl.getD_eq_find, Tbl.find_erase, if_pos rfl]; rfl

theorem State.coreWorldChanged_strand (s : State) (k : Nat) (on : Bool) (j : Nat) :
    (s.coreWorldChanged k on).strand j = s.strand j := by
  have h : (s.coreWorldChanged k on).strands = s.strands := s.emptyL1_strands k
  rw [State.strand, h, State.strand]

/-- What a core of the other world keeps: no line of its L1, no translation, no scratchpad byte, no strand; and every byte of
memory. -/
theorem State.setCoreWorld_spec (s : State) (k : Nat) (on : Bool) (h : (s.core k).world ≠ on) :
    ((s.setCoreWorld k on).core k).world = on ∧ (∀ i, i ≠ k → (s.setCoreWorld k on).core i = s.core i) ∧
    (s.setCoreWorld k on).mem = s.mem ∧ ((s.setCoreWorld k on).core k).scratch = [] ∧
    (∀ l ∈ (s.setCoreWorld k on).l1, l.core ≠ k) ∧
    ((s.setCoreWorld k on).die (k / 16)).l1Tlb.getD (k % 16) [] = [] ∧
    ∀ j ∈ corePositions k, (s.setCoreWorld k on).strand j = { lastBraid := (s.strand j).lastBraid } := by
  rw [s.setCoreWorld_changed k on h]
  have keeps {β : Type} (g : State → β) (hg : ∀ u k, g (State.free u k) = g u) :=
    State.foldl_free_keeps g hg (corePositions k) (s.coreWorldChanged k on)
  have hcore := keeps (fun t => t.core k) fun _ _ => rfl
  have hl1 := keeps State.l1 fun _ _ => rfl
  rw [State.coreWorldChanged_core] at hcore
  refine ⟨by rw [hcore], fun i hi => ?_, ?_, by rw [hcore], fun l hl => ?_, ?_, fun j hj => ?_⟩
  · exact (keeps (fun t => t.core i) fun _ _ => rfl).trans (s.coreWorldChanged_core_ne k on i hi)
  · exact (keeps State.mem fun _ _ => rfl).trans (s.emptyL1_mem k)
  · exact s.emptyL1_core k l (hl1 ▸ hl)
  · exact (congrArg (fun d : Die => d.l1Tlb.getD (k % 16) []) (keeps (fun t => t.die (k / 16)) fun _ _ => rfl)).trans
      (s.coreWorldChanged_l1Tlb k on)
  · rw [State.strand_foldl_free, if_pos hj, State.coreWorldChanged_strand]

/-! ## The world bit of a queue (R76, R87) -/

/-- The flags of a queue whose world bit is written: bit 0 is the world, the others stay. -/
def worldFlags (on : Bool) (f : BitVec 8) : BitVec 8 := if on then f ||| 1 else f &&& 0xFE

theorem worldFlags_zero (on : Bool) (f : BitVec 8) : (worldFlags on f).getLsbD 0 = on := by
  cases on <;> simp [worldFlags]

theorem worldFlags_ne_zero (on : Bool) (f : BitVec 8) (b : Nat) (hb : b ≠ 0) : (worldFlags on f).getLsbD b = f.getLsbD b := by
  have hm : ∀ i < 8, i ≠ 0 → (0xFE : BitVec 8).getLsbD i = true ∧ (1 : BitVec 8).getLsbD i = false := by decide
  by_cases h8 : b < 8
  · obtain ⟨h0, h1⟩ := hm b h8 hb
    cases on
    · rw [worldFlags, if_neg Bool.false_ne_true, BitVec.getLsbD_and, h0, Bool.and_true]
    · rw [worldFlags, if_pos rfl, BitVec.getLsbD_or, h1, Bool.or_false]
  · rw [BitVec.getLsbD_of_ge _ _ (by omega), BitVec.getLsbD_of_ge _ _ (by omega)]

/-! ## The two rows -/

theorem exec_registerWrite (r : RegWrite) (s : State) : exec (.registerWrite r) s = execRegisterWrite r s := rfl
theorem exec_worldBitWrite (b : WorldBlock) (on : Bool) (s : State) : exec (.worldBitWrite b on) s = execWorldBitWrite b on s := rfl

end Machine

open Machine

/-- Each write is one update of the state, and its frame is that of the update; a few clauses need what the update does to a part of its
unit, and are named. -/
theorem Claims.registerWritesAreStored : Claims.RegisterWritesAreStored := by
  intro s die cluster slot ix src n b w w2 d p q key bases ctx page watts on k cl pos dc Only gone
  simp only [exec_registerWrite]
  refine ⟨fun hfree => ⟨s.setCluster cl _, congrArg Host.Outcome.next (if_pos hfree), rfl, s.cluster_setCluster cl _⟩,
    fun hbound => congrArg Host.Outcome.next (if_neg hbound),
    ⟨_, rfl, s.setDie_frame k _⟩, ⟨_, rfl, s.setDie_frame k _⟩, ⟨_, rfl, s.writeTrkcfg_spec k w⟩,
    ⟨_, rfl, s.setDie_frame k _⟩, ⟨_, rfl, s.setDie_frame k _⟩, ⟨_, rfl, s.setDie_frame k _⟩,
    fun hk hs => ⟨_, congrArg Host.Outcome.next (s.writeContext_open d hk hs), s.setContext_frame _ _⟩,
    fun hs => congrArg Host.Outcome.next (s.writeContext_closed d hs),
    ⟨_, rfl, s.setQueue_onlyQueue _ _, s.queue_setQueue _ _⟩,
    fun hpost hq => ⟨_, congrArg Host.Outcome.next ((s.receive_notify _ w hpost).trans (if_neg hq)), s.setQueue_onlyQueue _ _,
      s.queue_setQueue _ _⟩,
    fun hpost hq => ⟨_, congrArg Host.Outcome.next ((s.receive_notify _ w hpost).trans (if_pos hq)), s.setPort_onlyPort 16 _,
      s.countError_errcnt 16⟩,
    fun hpost => ⟨_, congrArg Host.Outcome.next (s.receive_one (.replNotify w) hpost rfl), rfl⟩,
    fun hhalt => ⟨s.updAt src fun t => t.writeEstart w, congrArg Host.Outcome.next (if_pos hhalt), s.updAt_onlyStrand src _, ?estart⟩,
    fun hhalt => congrArg Host.Outcome.next (if_neg hhalt),
    ⟨_, rfl, rfl, Tbl.getD_set_self _ _ _ _, fun j hj => Tbl.getD_set_ne _ _ _ _ _ hj⟩,
    fun _ => ⟨_, rfl, ?window, rfl, fun j base hj a lo hi => ⟨?bytes, fun hb => ?tags⟩⟩,
    ⟨_, rfl, rfl, fun j => ?tlb⟩, ⟨_, rfl, rfl⟩, rfl⟩
  case estart =>
    have he : (s.updAt src fun t => t.writeEstart w).strand src = (s.strand src).writeEstart w := s.strand_setStrand src _
    rw [he]
    exact ⟨(s.strand src).writeEstart_only w, (s.strand src).writeEstart_resumed w, (s.strand src).writeEstart_unheld w⟩
  case window => rw [Tbl.find_set, if_pos rfl]
  case bytes => exact s.clearBraid_read ⟨n, bases⟩ a (BraidWindow.covers_of_base _ j base a hj lo hi)
  case tags => exact s.clearBraid_tag ⟨n, bases⟩ _ (BraidWindow.covers_line _ j base a hj lo hi hb)
  case tlb =>
    rw [State.die_dropTlb]
    refine ⟨rfl, fun e => ?_, fun m e => ?_⟩
    · rw [Die.mem_dropTlb_tlb, TlbEntry.stays_iff]
    · rw [Die.mem_dropTlb_l1Tlb, TlbEntry.stays_iff]

/-- Each block tests whether it is idle: the clauses say when the test holds, and what the write then does. -/
theorem Claims.worldBitsNeedIdleBlocks : Claims.WorldBitsNeedIdleBlocks := by
  intro s die core j p on k pos x q
  have hc : core % 16 < 16 := Nat.mod_lt _ (by decide)
  have hdie : k / 16 = die % 8 := by omega
  have hcore : k % 16 = core % 16 := by omega
  simp only [exec_worldBitWrite]
  refine ⟨fun hidle => ⟨s.setCoreWorld k on, congrArg Host.Outcome.next (if_pos ?idle), ?coreFacts⟩,
    fun hbusy => congrArg Host.Outcome.next (if_neg ?busy),
    fun hidle => ⟨s.setCore k _, congrArg Host.Outcome.next (if_pos ?copyIdle), s.setCore_frame k _⟩,
    fun hst hcmds => ⟨s.setQueue (j % 1024) _, congrArg Host.Outcome.next (if_pos ⟨?queueState, ?noCmds⟩), s.setQueue_onlyQueue _ _,
      ?queueFlags⟩,
    fun hcmds => congrArg Host.Outcome.next (if_neg fun h => ?cmds),
    fun hp hst hfly hposts => ⟨s.setPort p _, congrArg Host.Outcome.next (if_pos ⟨?port, hst, ?noFly, ?noPosts⟩),
      s.setPort_onlyPort p _, s.port_setPort p _⟩,
    fun h => congrArg Host.Outcome.next (if_neg ?portBusy),
    fun htr => ⟨s.setDie (die % 8) _, congrArg Host.Outcome.next (if_pos ?noTrace), s.setDie_frame _ _⟩,
    fun htr => congrArg Host.Outcome.next (if_neg ?trace)⟩
  case idle => exact (all_corePositions _ _ hc _).mpr fun i hi => beq_iff_eq.mpr (hidle i hi)
  case busy =>
    obtain ⟨i, hi, hb⟩ := hbusy
    exact fun h => hb (beq_iff_eq.mp ((all_corePositions _ _ hc _).mp h i hi))
  case coreFacts =>
    by_cases hw : (s.core k).world = on
    · rw [s.setCoreWorld_same k on hw]
      exact ⟨hw, fun _ _ => rfl, fun _ => rfl, fun h => absurd hw h, fun _ => rfl⟩
    · obtain ⟨hworld, hother, hmem, hscratch, hl1, htlb, hfree⟩ := s.setCoreWorld_spec k on hw
      rw [hdie, hcore] at htlb
      exact ⟨hworld, hother, fun a => by rw [hmem],
        fun _ => ⟨hscratch, hl1, htlb, fun i hi => hfree _ ((mem_corePositions _ _ _ hc).mpr ⟨i, hi, rfl⟩)⟩, fun h => absurd h hw⟩
  case copyIdle => exact (all_corePositions _ _ hc _).mpr fun i hi => List.isEmpty_iff.mpr (hidle i hi)
  case queueState =>
    rcases hst with hst | hst <;> exact lt_of_eq_of_lt (congrArg BitVec.toNat hst) (by decide)
  case noCmds => exact List.isEmpty_iff.mpr hcmds
  case queueFlags =>
    rw [State.queue_setQueue]
    exact ⟨worldFlags_zero on x.desc.flags, worldFlags_ne_zero on x.desc.flags⟩
  case cmds => exact hcmds (List.isEmpty_iff.mp h.2)
  case port => exact Nat.lt_succ_of_le hp
  case noFly => exact List.isEmpty_iff.mpr hfly
  case noPosts => simpa using hposts
  case portBusy =>
    rintro ⟨-, hst, -, hnone⟩
    rcases h with (h : (s.port p).state = _) | ((h : (s.port p).state = _) | (h : (s.port p).state = _)) | ⟨post, hmem, hport⟩
    · simp [h] at hst
    · simp [h] at hst
    · simp [h] at hst
    · simp only [Bool.not_eq_true', List.any_eq_false, beq_iff_eq] at hnone
      exact hnone post hmem hport
  case noTrace => exact List.isEmpty_iff.mpr htr
  case trace => exact fun h => htr (List.isEmpty_iff.mp h)

/-- Settles O58: every register keeps what its write leaves after masking, with the frame of its one unit; the world bit of a core is
written with the L1 emptied and its positions freed. -/
theorem registerAndWorldBitWrites : Obligations.RegisterAndWorldBitWrites :=
  ⟨Claims.registerWritesAreStored, Claims.worldBitsNeedIdleBlocks⟩

end Sys2Proof
end

section
/-! PROOFS. What one step does: the time it lets pass (R13), and the instruction, convoy, member, event or request its turn comes to
(R10, R47, R56, R125). -/

namespace Sys2Proof
namespace Machine

/-! ## Time (R13, R359) -/

/-- Updates of dies touch the table of dies alone. -/
theorem State.foldl_setDie_only (f : Die → Die) (l : List Nat) (s : State) :
    { l.foldl (fun s d => s.setDie d (f (s.die d))) s with dies := s.dies } = s := by
  induction l generalizing s with
  | nil => rfl
  | cons k r ih => exact congrArg (fun t : State => { t with dies := s.dies }) (ih (s.setDie k (f (s.die k))))

/-- Each die named once is updated once, and no other die is. -/
theorem State.die_foldl_setDie (f : Die → Die) (l : List Nat) (hl : l.Nodup) (s : State) (k : Nat) :
    (l.foldl (fun s d => s.setDie d (f (s.die d))) s).die k = if k ∈ l then f (s.die k) else s.die k := by
  induction l generalizing s with
  | nil => rfl
  | cons j r ih =>
    obtain ⟨hj, hr⟩ := List.nodup_cons.mp hl
    rw [List.foldl_cons, ih hr]
    by_cases hk : k = j
    · subst hk; simp [hj]
    · simp [State.die_setDie_ne, hk]

/-- What a die is after the time of one step. -/
def State.countDie (s : State) (d : Die) : Die :=
  d.count (Config.elapsed s.steps) ((s.die 0).gtc + BitVec.ofNat 64 (Config.elapsed s.steps))

theorem State.tick_eq (s : State) :
    s.tick = { (List.range (if s.boot.minimal then 1 else 8)).foldl (fun t d => t.setDie d (s.countDie (t.die d))) s with
      steps := s.steps + 1 } := rfl

theorem State.tick_only (s : State) : { s.tick with dies := s.dies, steps := s.steps } = s := by
  rw [s.tick_eq]
  exact congrArg (fun t : State => { t with steps := s.steps }) (State.foldl_setDie_only s.countDie _ s)

@[simp] theorem State.tick_turns (s : State) : s.tick.turns = s.turns := by
  conv_rhs => rw [← s.tick_only]

@[simp] theorem State.tick_mem (s : State) : s.tick.mem = s.mem := by
  conv_rhs => rw [← s.tick_only]

/-- The dies that are not held in reset count (R359). -/
theorem State.tick_die (s : State) (k : Nat) :
    s.tick.die k = if k ∈ List.range (if s.boot.minimal then 1 else 8) then s.countDie (s.die k) else s.die k :=
  State.die_foldl_setDie s.countDie _ List.nodup_range s k

theorem State.countDie_gtc (s : State) (d : Die) (h : d.correcting = false) :
    (s.countDie d).gtc = d.gtc + BitVec.ofNat 64 (Config.elapsed s.steps) := by
  simp [State.countDie, Die.count, h]

/-- A copy of the GTC that is not being corrected counts, on die 0, and on every die outside minimal mode. -/
theorem State.tick_gtc (s : State) (k : Nat) (hk : k < 8) (hr : k = 0 ∨ s.boot.minimal = false) (hc : (s.die k).correcting = false) :
    (s.tick.die k).gtc = (s.die k).gtc + BitVec.ofNat 64 (Config.elapsed s.steps) := by
  have hin : k ∈ List.range (if s.boot.minimal then 1 else 8) := by
    rw [List.mem_range]
    rcases hr with rfl | hm
    · split <;> decide
    · simpa [hm] using hk
  rw [s.tick_die, if_pos hin, s.countDie_gtc _ hc]

/-- The dies held in reset in minimal mode stand still (R359). -/
theorem State.tick_die_of_minimal (s : State) (k : Nat) (hk : k ≠ 0) (hm : s.boot.minimal = true) : s.tick.die k = s.die k := by
  rw [s.tick_die, if_neg (by simpa [hm] using hk)]

/-! ## The word fetched (R2, R47) -/

theorem leNat_lt (bs : List Byte) : leNat bs < 256 ^ bs.length := by
  induction bs with
  | nil => decide
  | cons b r ih => rw [leNat, List.length_cons, Nat.pow_succ]; omega

/-- The number that bytes read from memory hold, byte by byte. -/
theorem leNat_readBytes (s : State) (hm : MemOk s) (k n : Nat) : leNat (Memory.readBytes s.mem k n) = Claims.memNat s k n := by
  rw [Memory.readBytes_eq _ hm]
  induction n generalizing k with
  | zero => rfl
  | succ n ih =>
    rw [List.range_succ_eq_map, List.map_cons, leNat, List.map_map, Claims.memNat, ← ih (k + 1)]
    simp only [Function.comp_def, Nat.add_zero, Nat.succ_eq_add_one, Nat.add_assoc, Nat.add_comm 1]

/-- What is fetched is the word that the four bytes at the place of an aligned PC hold. -/
theorem State.fetchWord_ok {s : State} {src slot : Nat} {pc : Word} {w : BitVec 32} {x : Xl} (h : s.fetchWord src pc slot = .ok (w, x)) :
    pc.toNat % 4 = 0 ∧ ∃ p, x.place = some p ∧ w = BitVec.ofNat 32 (leNat (s.readPlace p 4)) := by
  unfold State.fetchWord at h
  dsimp only at h
  split at h
  · cases h
  · next hal =>
    split at h
    · cases h
    · split at h
      · cases h
      · next y hx p hp =>
        split at h
        · cases h
        · cases h
          exact ⟨not_not.mp hal, p, hp, rfl⟩

/-- The word that a state with the memory of `s` fetches. -/
theorem State.fetchWord_memNat {s v : State} {src slot : Nat} {pc : Word} {w : BitVec 32} {x : Xl} (hm : MemOk s) (hv : v.mem = s.mem)
    (h : v.fetchWord src pc slot = .ok (w, x)) : pc.toNat % 4 = 0 ∧ ∃ p, x.place = some p ∧ w.toNat = Claims.memNat s p.key 4 := by
  obtain ⟨hal, p, hp, hw⟩ := State.fetchWord_ok h
  have hlt : leNat (v.readPlace p 4) < 2 ^ 32 := by
    have := leNat_lt (v.readPlace p 4)
    rwa [State.readPlace, Memory.readBytes_length] at this
  refine ⟨hal, p, hp, ?_⟩
  rw [hw, BitVec.toNat_ofNat, Nat.mod_eq_of_lt hlt, State.readPlace, hv, leNat_readBytes s hm]

/-! ## A step takes the schedule's first turn -/

/-- The state a turn is taken in: time has passed, and the turn has left the schedule. -/
def State.atTurn (s : State) (rest : List Turn) : State := { s.tick with turns := rest }

theorem State.pick_of_turns {s : State} {turn : Turn} {rest : List Turn} (h : s.turns = turn :: rest) :
    s.tick.pick = (s.atTurn rest).takeTurn turn := by
  rw [State.pick, s.tick_turns, h]; rfl

theorem step_of_run {s t : State} {turn : Turn} {rest : List Turn} {i : Instr} (h : s.turns = turn :: rest)
    (hp : (s.atTurn rest).takeTurn turn = .run i t) : step s = exec i t := by
  rw [step, State.pick_of_turns h, hp]

theorem step_of_done {s t : State} {turn : Turn} {rest : List Turn} (h : s.turns = turn :: rest)
    (hp : (s.atTurn rest).takeTurn turn = .done t) : step s = .next t := by
  rw [step, State.pick_of_turns h, hp]

/-! ## Fetch turns (R10, R47, R56, R125) -/

theorem State.fetchTurn_of_running {s : State} {src : Nat} (h : (s.strand src).st = .running) (enters : Bool) :
    s.fetchTurn src enters = s.fetchRun src enters := by
  simp [State.fetchTurn, State.lastClock, h]

theorem State.takeTurn_fetch {s : State} {src : Nat} (h : (s.strand src).st = .running) (enters : Bool) :
    s.takeTurn (if enters = true then .enter src else .fetch src) = s.fetchRun src enters := by
  rw [← State.fetchTurn_of_running h]
  cases enters <;> rfl

/-- A strand that has yielded lets a ready one of its core go first (R125). -/
theorem State.fetchRun_yields {s : State} {src : Nat} (hst : (s.strand src).st = .running)
    (hheld : s.fetchHeld src (s.strand src).pc ((s.strand src).pc + 12) = false) (hskip : 0 < (s.strand src).skip)
    (hother : s.otherReady src = true) (enters : Bool) :
    s.fetchRun src enters = .done (s.updAt src fun t => { t with skip := t.skip - 1 }) := by
  simp only [State.fetchRun, hst, hheld, hskip, hother, ne_eq, not_true_eq_false, decide_false, decide_true, Bool.or_self, Bool.and_self,
    Bool.false_eq_true, if_false, if_true]

/-- The state in which the scalar side of a strand fetches. -/
def State.fetching (s : State) (src : Nat) : State :=
  { s with cur := { src := src, pc := (s.strand src).pc, samp := (s.strand src).modes } }

section
variable {s : State} {src : Nat} {w : BitVec 32} {x : Xl}
variable (hst : (s.strand src).st = .running) (hheld : s.fetchHeld src (s.strand src).pc ((s.strand src).pc + 12) = false)
variable (hskip : (s.strand src).skip = 0) (hword : (s.fetching src).fetchWord src (s.strand src).pc 0 = .ok (w, x))
include hst hheld hskip hword

/-- Where the word does not decode, illegal-instruction is executed (R56). -/
theorem State.fetchRun_illegal {e : DecodeError} (hd : decode w = .error e) (enters : Bool) :
    s.fetchRun src enters = .run (.illegalInstruction 0 w) ((s.fetching src).see src (s.strand src).pc x) := by
  simp only [State.fetching] at hword
  simp only [State.fetchRun, State.fetching, hst, hheld, hskip, hword, hd, ne_eq, not_true_eq_false, decide_false, Bool.or_self,
    Bool.false_and, Nat.lt_irrefl, Bool.false_eq_true, if_false]

/-- The instruction of a word that is no member of a convoy is executed. -/
theorem State.fetchRun_scalar {i : Instr} (hd : decode w = .ok i) (hc : convoyCapable w = false) (enters : Bool) :
    s.fetchRun src enters = .run i ((s.fetching src).see src (s.strand src).pc x) := by
  simp only [State.fetching] at hword
  simp only [State.fetchRun, State.fetching, hst, hheld, hskip, hword, hd, hc, ne_eq, not_true_eq_false, decide_false, Bool.or_self,
    Bool.false_and, Nat.lt_irrefl, Bool.false_eq_true, if_false, Bool.not_false, if_true]

/-- A convoy that can be taken is checked at issue. -/
theorem State.fetchRun_convoy {i : Instr} {ws : List (BitVec 32)} {y : Xl} (hd : decode w = .ok i) (hc : convoyCapable w = true)
    (hws : ((s.fetching src).see src (s.strand src).pc x).fetchConvoy src (s.strand src).pc [] 4 = .ok (ws, y)) (enters : Bool) :
    s.fetchRun src enters = (((s.fetching src).see src (s.strand src).pc x).see src
      ((s.strand src).pc + BitVec.ofNat 64 (4 * ws.length - 4)) y).convoyTurn src ws enters := by
  simp only [State.fetching] at hword hws
  simp only [State.fetchRun, State.fetching, hst, hheld, hskip, hword, hd, hc, hws, ne_eq, not_true_eq_false, decide_false, Bool.or_self,
    Bool.false_and, Nat.lt_irrefl, Bool.false_eq_true, if_false, Bool.not_true]

end

/-! ## A convoy enters its sluices (R10, R59, R85) -/

/-- A convoy joins the end of the VIQ under the strand's next number; the scalar side and the vector registers stay as they are. -/
theorem Strand.join_spec (t : Strand) (c : Convoy) :
    ∃ d, (t.join c).viq = t.viq ++ [d] ∧ d.words = c.words ∧ d.pc = c.pc ∧ d.seq = t.nextSeq ∧
      (t.join c).pc = t.pc ∧ (t.join c).s = t.s ∧ (t.join c).vec = t.vec :=
  ⟨_, rfl, rfl, rfl, rfl, rfl, rfl, rfl⟩

theorem State.enter_me (s : State) (pc : Word) (ws : List (BitVec 32)) :
    ∃ d, (s.enter pc ws).me.viq = s.me.viq ++ [d] ∧ d.words = ws ∧ d.pc = pc ∧ d.seq = s.me.nextSeq ∧
      (s.enter pc ws).me.pc = s.me.pc ∧ (s.enter pc ws).me.s = s.me.s ∧ (s.enter pc ws).me.vec = s.me.vec := by
  rw [State.enter, State.me_upd]
  exact Strand.join_spec { s.me with sampleCount := _ } { s.me.newConvoy pc ws with sampled := _ }

/-- Whether or not the scalar side waits, its PC is past the convoy, and its registers and the VIQ stay as they are. -/
theorem State.pastConvoy_me (s : State) (ws : List (BitVec 32)) :
    (s.pastConvoy ws).me.pc = s.me.pc + BitVec.ofNat 64 (4 * ws.length) ∧ (s.pastConvoy ws).me.viq = s.me.viq ∧
      (s.pastConvoy ws).me.s = s.me.s ∧ (s.pastConvoy ws).me.vec = s.me.vec := by
  rw [State.pastConvoy, State.me_upd]
  dsimp only
  split
  · exact ⟨rfl, rfl, rfl, rfl⟩
  · split <;> exact ⟨rfl, rfl, rfl, rfl⟩

/-- What a convoy's entry changes of the executing strand, and that it changes no other. -/
theorem State.enter_pastConvoy_spec (s : State) (pc : Word) (ws : List (BitVec 32)) :
    let z := (s.enter pc ws).pastConvoy ws
    ∃ d, z.me.viq = s.me.viq ++ [d] ∧ d.words = ws ∧ d.pc = pc ∧ d.seq = s.me.nextSeq ∧
      z.me.pc = s.me.pc + BitVec.ofNat 64 (4 * ws.length) ∧ z.me.s = s.me.s ∧ z.me.vec = s.me.vec ∧
      ∀ j, j ≠ s.cur.src → z.strand j = s.strand j := by
  obtain ⟨d, hviq, hwords, hpc, hseq, hpc', hs, hvec⟩ := s.enter_me pc ws
  obtain ⟨zpc, zviq, zs, zvec⟩ := (s.enter pc ws).pastConvoy_me ws
  exact ⟨d, zviq.trans hviq, hwords, hpc, hseq, hpc' ▸ zpc, zs.trans hs, zvec.trans hvec,
    fun j hj => ((s.enter pc ws).strand_upd_ne j _ hj).trans (s.strand_upd_ne j _ hj)⟩

/-- With an idle vector side a first member is executed in the same step; otherwise, and in a turn that only enters, the convoy waits. -/
theorem State.convoyTurn_enters {s : State} {src : Nat} {ws : List (BitVec 32)} {enters : Bool}
    (hstop : issueStop (s.strand src).modes (ws.map (s.givenOf src)) 0 = none)
    (hroom : (s.strand src).sluiceRoom 1 (ws.countP usesVmq) (ws.countP usesMxq) (ws.countP usesCpq) = true)
    (hwait : (s.strand src).viq ≠ [] ∨ enters = true) :
    s.convoyTurn src ws enters = .done ((s.enter (s.strand src).pc ws).pastConvoy ws) := by
  rcases hwait with h | h <;> simp [State.convoyTurn, hstop, sluiceNeed, hroom, h]

/-! ## Member, event and request turns -/

/-- The turn of a strand's vector side, whole or of at most some elements. -/
theorem State.memberTurn_runs {s : State} {src : Nat} {c : Convoy} {i : Instr} {limit : Option Nat} (hheld : (s.strand src).vecHeld = false)
    (hst : (s.strand src).st ≠ .unbound) (hmarks : (s.strand src).fsvMarks = []) (hpend : (s.strand src).pending = some c)
    (hiss : c.issued = true) (hbar : (s.strand src).barred c = false) (hd : decode (c.words.getD c.next 0) = .ok i) :
    s.memberTurn src limit = .run i (s.openMember src c limit) := by
  have hsteps : s.fsvSteps src (s.strand src).fsvMarks.length = s := by rw [hmarks]; rfl
  have hmark : (s.strand src).marked c = false := by simp [Strand.marked, hmarks]
  have hword : decode c.word = .ok i := hd
  simp [State.memberTurn, hsteps, hheld, hst, hpend, hiss, hbar, hmark, hword]

theorem State.takeTurn_member (s : State) (src : Nat) (limit : Option Nat) :
    s.takeTurn (match limit with | none => .member src | some n => .memberPart src n) = s.memberTurn src limit := by
  cases limit <;> rfl

theorem State.takeTurn_event {s : State} {i : Instr} (h : encode i = none) : s.takeTurn (.event i) = .run i s := by
  simp [State.takeTurn, isWord, h]

end Machine

open Machine

/-! ## What the statement of O35 comes to -/

/-- A package in minimal mode, at a given step. -/
def minimalMode (n : Nat) : State := { steps := n, boot := { minimal := true } }

/-- O35 says of every state that the GTC copies of all eight dies count, but in minimal mode those of dies 1 to 7, which are held in
reset, stand still (R359): there it says that a step adds nothing to them. What a step adds is `Config.elapsed`, about whose values
nothing can be proved (assumption 3). Every other clause of O35 holds, so the statement is equivalent to this, and is neither proved nor
refuted here. -/
theorem stepRunsTheDecodedInstruction_iff :
    Obligations.StepRunsTheDecodedInstruction ↔ ∀ n, BitVec.ofNat 64 (Config.elapsed n) = 0 := by
  unfold Obligations.StepRunsTheDecodedInstruction
  refine ⟨fun h n => ?still, ?runs⟩
  case still =>
    obtain ⟨-, hgtc, -⟩ := h (minimalMode n) [] 0 0 ⟨0, 0, {}, none⟩ .bootok { seq := 0, pc := 0, words := [], ops := [] } []
      ⟨0, 0, {}, none⟩ .reservedMajor false none
    have h1 := hgtc 1 (by decide) rfl
    rw [State.tick_die_of_minimal _ 1 (by decide) rfl] at h1
    simpa [minimalMode] using h1
  case runs =>
    intro hzero s rest src w x i c ws y e enters limit u t v word turn fetches
    refine ⟨s.tick_only, fun d hd hc => ?gtc, fun hm hw => State.fetchWord_memNat hm s.tick_mem hw, ?scalar, ?illegal, ?convoy, ?yields,
      ?member, fun hturn hi => step_of_run hturn (State.takeTurn_event hi), fun h hturn => step_of_done hturn rfl⟩
    case gtc =>
      by_cases hr : d = 0 ∨ s.boot.minimal = false
      · exact s.tick_gtc d hd hr hc
      · obtain ⟨h0, hm⟩ := not_or.mp hr
        rw [s.tick_die_of_minimal d h0 (Bool.not_eq_false _ ▸ hm), hzero]
        exact (BitVec.add_zero _).symm
    case scalar =>
      rintro ⟨⟨hturn, hst, hheld⟩, hskip, hword⟩ hd hc
      exact step_of_run hturn ((State.takeTurn_fetch hst enters).trans (State.fetchRun_scalar hst hheld hskip hword hd hc enters))
    case illegal =>
      rintro ⟨⟨hturn, hst, hheld⟩, hskip, hword⟩ hd
      exact step_of_run hturn ((State.takeTurn_fetch hst enters).trans (State.fetchRun_illegal hst hheld hskip hword hd enters))
    case convoy =>
      rintro ⟨⟨hturn, hst, hheld⟩, hskip, hword⟩ hd hc hws hstop hroom hwait
      have hrun := State.fetchRun_convoy hst hheld hskip hword hd hc hws enters
      obtain ⟨d, hentry⟩ := State.enter_pastConvoy_spec (word.see src (t.pc + BitVec.ofNat 64 (4 * ws.length - 4)) y) t.pc ws
      exact ⟨_, d, step_of_done hturn ((State.takeTurn_fetch hst enters).trans (hrun.trans (State.convoyTurn_enters hstop hroom hwait))),
        hentry⟩
    case yields =>
      rintro ⟨hturn, hst, hheld⟩ hskip hother
      exact ⟨_, step_of_done hturn ((State.takeTurn_fetch hst enters).trans (State.fetchRun_yields hst hheld hskip hother enters)), rfl,
        u.strand_updAt src _, fun j hj => u.strand_updAt_ne src j _ hj⟩
    case member =>
      intro hturn hheld hst hmarks hpend hiss hbar hd
      exact step_of_run hturn ((u.takeTurn_member src limit).trans (State.memberTurn_runs hheld hst hmarks hpend hiss hbar hd))

end Sys2Proof
end

section
/-! PROOFS. Rill codes: the granules of a packed list, the payload that digits hold, and the class of a number (R35 to R37). -/

namespace Sys2Proof
open Machine
namespace Machine

/-! ## Rill codes (R35 to R37) -/

theorem packGranules_cons (g : Nat) (l : List Nat) : packGranules (g :: l) = g + 16 * packGranules l := rfl

/-- Granule `j` of a packed list of granules is its entry `j`. -/
theorem granule_packGranules (l : List Nat) (hl : ∀ g ∈ l, g < 16) (j : Nat) : granule (packGranules l) j = l.getD j 0 := by
  induction l generalizing j with
  | nil => simp [packGranules, granule, elem]
  | cons g r ih =>
    have hg : g < 16 := hl g List.mem_cons_self
    rw [packGranules_cons]
    cases j with
    | zero =>
      simp only [granule, elem, Nat.zero_mul, Nat.shiftRight_zero, List.getD_cons_zero]
      omega
    | succ j =>
      rw [List.getD_cons_succ, ← ih (fun a ha => hl a (List.mem_cons_of_mem g ha)) j]
      have hdrop : (g + 16 * packGranules r) / 2 ^ 4 = packGranules r := by omega
      rw [granule, granule, elem, elem, Nat.add_mul, Nat.one_mul, Nat.add_comm (j * 4) 4, Nat.shiftRight_add, Nat.shiftRight_eq_div_pow _ 4,
        hdrop]

theorem digits_lt {v n g : Nat} (h : g ∈ digits v n) : g < 16 := by
  obtain ⟨j, -, rfl⟩ := List.mem_map.mp h
  exact Nat.mod_lt _ (by decide)

@[simp] theorem digits_length (v n : Nat) : (digits v n).length = n := by simp [digits]

/-- The digits of a payload after those before it, as the granules they are packed into. -/
theorem granule_digits (pre : List Nat) (hpre : ∀ g ∈ pre, g < 16) (v n j : Nat) (hj : j < n) :
    granule (packGranules (pre ++ digits v n)) (pre.length + j) = v / 16 ^ (n - 1 - j) % 16 := by
  have hall : ∀ g ∈ pre ++ digits v n, g < 16 := fun g hg => (List.mem_append.mp hg).elim (hpre g) digits_lt
  rw [granule_packGranules _ hall, List.getD_append_right _ _ _ _ (Nat.le_add_right _ _), Nat.add_sub_cancel_left]
  simp [digits, hj]

/-- A payload of digits, the first the most significant, has the digits' number (R35). -/
theorem payload_digits (pre : List Nat) (hpre : ∀ g ∈ pre, g < 16) (v n : Nat) (hv : v < 16 ^ n) :
    payload (packGranules (pre ++ digits v n)) pre.length n = v := by
  have hprefix : ∀ k, k ≤ n → (List.range k).foldl
      (fun x j => x * 16 + granule (packGranules (pre ++ digits v n)) (pre.length + j)) 0 = v / 16 ^ (n - k) := by
    intro k hk
    induction k with
    | zero => simp [Nat.div_eq_of_lt hv]
    | succ k ih =>
      rw [List.range_succ, List.foldl_append, ih (by omega), List.foldl_cons, List.foldl_nil, granule_digits pre hpre v n k (by omega)]
      have hpow : 16 ^ (n - k) = 16 ^ (n - 1 - k) * 16 := by rw [← Nat.pow_succ]; congr 1; omega
      have hexp : n - (k + 1) = n - 1 - k := by omega
      rw [hpow, ← Nat.div_div_eq_div_mul, hexp]
      omega
  simpa [payload] using hprefix n le_rfl

/-- The sizes of the payloads shorter than class `n` make up its base (R36). -/
theorem rnBase_succ (n : Nat) (hn : 4 ≤ n) : rnBase (n + 1) = rnBase n + 16 ^ n := by
  have h16 : 2 ^ (4 * n) = 16 ^ n := by rw [Nat.pow_mul]
  rw [rnBase, rnBase, show n + 1 - 4 = n - 4 + 1 by omega, List.range_succ, List.map_append, List.sum_append, List.map_singleton,
    List.sum_singleton, Nat.sub_add_cancel hn, h16, Nat.add_assoc]

/-- The class of a number is the longest whose base it reaches (R35, R36). -/
theorem classN_spec (u k : Nat) (hu : 4680 ≤ u) :
    4 ≤ classN u k ∧ classN u k ≤ max 4 (k + 3) ∧ rnBase (classN u k) ≤ u ∧ (classN u k < k + 3 → u < rnBase (classN u k + 1)) := by
  induction k with
  | zero => exact ⟨le_rfl, le_rfl, hu, fun h => absurd h (by simp [classN])⟩
  | succ k ih =>
    rw [classN]
    split
    · next hle => exact ⟨by omega, by omega, hle, fun h => absurd h (by omega)⟩
    · next hlt =>
      obtain ⟨hlow, hhigh, hbase, hnext⟩ := ih
      refine ⟨hlow, by omega, hbase, fun h => ?_⟩
      by_cases hk : classN u k < k + 3
      · exact hnext hk
      · have : classN u k + 1 = k + 4 := by omega
        rw [this]; omega

/-- The payload of a number above the short classes fits its class. -/
theorem classN_payload (u : Nat) (hu : 4680 ≤ u) (h64 : u < 2 ^ 64) : u - rnBase (classN u 13) < 16 ^ classN u 13 := by
  obtain ⟨hlow, hhigh, hbase, hnext⟩ := classN_spec u 13 hu
  by_cases hn : classN u 13 < 16
  · have := hnext hn
    rw [rnBase_succ _ hlow] at this
    omega
  · have : classN u 13 = 16 := by omega
    rw [this]
    omega

/-- A head granule and its digits are a code of the head's class (R35, R37): `base` and the head's own bits `hb` as the class has them. -/
theorem classify_head_digits (h v n base hb : Nat) (hv : v < 16 ^ n) (h64 : base + hb * 16 ^ n + v < 2 ^ 64)
    (hclass : h < 8 ∧ n = 0 ∧ base = 0 ∧ hb = h ∨ 8 ≤ h ∧ h < 12 ∧ n = 1 ∧ base = 8 ∧ hb = h % 4 ∨
      12 ≤ h ∧ h < 14 ∧ n = 2 ∧ base = 72 ∧ hb = h % 2 ∨ h = 14 ∧ n = 3 ∧ base = 584 ∧ hb = 0) :
    classify (packGranules (h :: digits v n)) 0 (h :: digits v n).length false 0 =
      .ok (h :: digits v n).length (base + hb * 16 ^ n + v) 0 := by
  have hh : ∀ g ∈ [h], g < 16 := by
    rw [List.forall_mem_singleton]
    omega
  have hhead : granule (packGranules (h :: digits v n)) 0 = h :=
    granule_packGranules (h :: digits v n) (fun g hg => (List.mem_cons.mp hg).elim (fun e => hh g (e ▸ List.mem_singleton_self h)) digits_lt) 0
  have hpay : payload (packGranules (h :: digits v n)) 1 n = v := payload_digits [h] hh v n hv
  rw [classify, hhead, List.length_cons, digits_length]
  rcases hclass with ⟨h8, rfl, rfl, rfl⟩ | ⟨h8, h12, rfl, rfl, rfl⟩ | ⟨h12, h14, rfl, rfl, rfl⟩ | ⟨rfl, rfl, rfl, rfl⟩
  · simp [h8, hpay]; omega
  · simp [Nat.not_lt.mpr h8, h12, hpay]; omega
  · simp [show ¬h < 8 by omega, Nat.not_lt.mpr h12, h14, hpay]; omega
  · simp [hpay]; omega

/-- A code of class E: the head, the payload's length less 4, and the payload above the base of its length (R35, R36, R37). -/
theorem classify_classE (v n : Nat) (h4 : 4 ≤ n) (h16 : n ≤ 16) (hv : v < 16 ^ n) (h64 : rnBase n + v < 2 ^ 64) :
    classify (packGranules (15 :: (n - 4) :: digits v n)) 0 (15 :: (n - 4) :: digits v n).length false 0 =
      .ok (15 :: (n - 4) :: digits v n).length (rnBase n + v) 0 := by
  have hh : ∀ g ∈ [15, n - 4], g < 16 := by
    simp only [List.forall_mem_cons, List.not_mem_nil, false_imp_iff, implies_true, and_true]
    omega
  have hall : ∀ g ∈ [15, n - 4] ++ digits v n, g < 16 := fun g hg => (List.mem_append.mp hg).elim (hh g) digits_lt
  have hhead : granule (packGranules (15 :: (n - 4) :: digits v n)) 0 = 15 := granule_packGranules _ hall 0
  have hlen : granule (packGranules (15 :: (n - 4) :: digits v n)) 1 = n - 4 := granule_packGranules _ hall 1
  have hpay : payload (packGranules (15 :: (n - 4) :: digits v n)) 2 n = v := payload_digits [15, n - 4] hh v n hv
  simp [classify, hhead, hlen, hpay, show ¬13 ≤ n - 4 by omega, Nat.sub_add_cancel h4, show n - 4 + 6 = n + 2 by omega]
  omega

end Machine

/-- Settles O13: the head's class is chosen by the number, and its payload is the number less what base and head stand for. -/
theorem rillCodesReadBack : Obligations.RillCodesReadBack := by
  intro u h64
  rw [rnCode]
  split_ifs with h8 h72 h584 h4680
  · simpa [digits] using classify_head_digits u 0 0 0 u (by decide) (by omega) (.inl ⟨h8, rfl, rfl, rfl⟩)
  · have hcode := classify_head_digits (8 + (u - 8) / 16) ((u - 8) % 16) 1 8 ((8 + (u - 8) / 16) % 4) (by omega) (by omega)
      (.inr (.inl ⟨by omega, by omega, rfl, rfl, rfl⟩))
    have hu : 8 + (8 + (u - 8) / 16) % 4 * 16 ^ 1 + (u - 8) % 16 = u := by omega
    rw [hu] at hcode
    simpa [digits] using hcode
  · have hcode := classify_head_digits (12 + (u - 72) / 256) ((u - 72) % 256) 2 72 ((12 + (u - 72) / 256) % 2) (by omega) (by omega)
      (.inr (.inr (.inl ⟨by omega, by omega, rfl, rfl, rfl⟩)))
    rwa [show 72 + (12 + (u - 72) / 256) % 2 * 16 ^ 2 + (u - 72) % 256 = u by omega] at hcode
  · have hcode := classify_head_digits 14 (u - 584) 3 584 0 (by omega) (by omega) (.inr (.inr (.inr ⟨rfl, rfl, rfl, rfl⟩)))
    rwa [show 584 + 0 * 16 ^ 3 + (u - 584) = u by omega] at hcode
  · obtain ⟨hlow, hhigh, hbase, -⟩ := classN_spec u 13 (not_lt.mp h4680)
    have hcode := classify_classE (u - rnBase (classN u 13)) (classN u 13) hlow hhigh (classN_payload u (not_lt.mp h4680) h64) (by omega)
    rwa [Nat.add_sub_of_le hbase] at hcode

end Sys2Proof
end

section
/-! PROOFS. Elements of a register group as bits of one number (R63): what an element is after another is replaced, and that a group
reads back as it was written. -/

namespace Sys2Proof
open Machine

/-! ## Tables written in a row -/

/-- Entries `base` to `base + n - 1` of a table written one after the other. -/
theorem Tbl.getD_foldl_set {α : Type} (f : Nat → α) (base n m : Nat) (t : Tbl α) (d : α) :
    Tbl.getD ((List.range n).foldl (fun t j => t.set (base + j) (f j)) t) m d =
      if base ≤ m ∧ m < base + n then f (m - base) else t.getD m d := by
  induction n with
  | zero => rw [List.range_zero, List.foldl_nil, if_neg (by omega)]
  | succ n ih =>
    rw [List.range_succ, List.foldl_append, List.foldl_cons, List.foldl_nil, Tbl.getD_set, ih]
    by_cases hm : m = base + n
    · rw [if_pos hm, if_pos (by omega), hm, Nat.add_sub_cancel_left]
    · rw [if_neg hm]
      by_cases hin : base ≤ m ∧ m < base + n
      · rw [if_pos hin, if_pos (by omega)]
      · rw [if_neg hin, if_neg (by omega)]

namespace Machine

/-! ## Elements -/

theorem testBit_elem (grp w i k : Nat) : (elem grp w i).testBit k = (decide (k < w) && grp.testBit (i * w + k)) := by
  rw [elem, Nat.testBit_mod_two_pow, Nat.testBit_shiftRight]

theorem elem_lt (grp w i : Nat) : elem grp w i < 2 ^ w := Nat.mod_lt _ (Nat.two_pow_pos w)

@[simp] theorem elem_zero_left (w i : Nat) : elem 0 w i = 0 := by simp [elem]

/-- The bits of a group with element `i` replaced: the new element's within its place, all others as before. -/
theorem testBit_setElem (grp w i y b : Nat) :
    (setElem grp w i y).testBit b = if i * w ≤ b ∧ b < i * w + w then y.testBit (b - i * w) else grp.testBit b := by
  rw [setElem, Nat.testBit_xor, Nat.testBit_shiftLeft, Nat.testBit_xor, testBit_elem, Nat.testBit_mod_two_pow]
  by_cases hlo : i * w ≤ b
  · by_cases hhi : b < i * w + w
    · have hk : b - i * w < w := by omega
      simp [hlo, hhi, hk]
    · have hk : ¬b - i * w < w := by omega
      simp [hhi, hk]
  · simp [hlo]

theorem elem_setElem_self (grp w i y : Nat) : elem (setElem grp w i y) w i = y % 2 ^ w := by
  refine Nat.eq_of_testBit_eq fun k => ?_
  rw [testBit_elem, testBit_setElem, Nat.testBit_mod_two_pow]
  by_cases hk : k < w
  · simp [hk]
  · simp [hk]

theorem elem_setElem_ne (grp w i j y : Nat) (h : j ≠ i) : elem (setElem grp w i y) w j = elem grp w j := by
  refine Nat.eq_of_testBit_eq fun k => ?_
  rw [testBit_elem, testBit_elem, testBit_setElem]
  by_cases hk : k < w
  · have hout : ¬(i * w ≤ j * w + k ∧ j * w + k < i * w + w) := by
      rintro ⟨hlo, hhi⟩
      rcases Nat.lt_or_gt_of_ne h with hji | hij
      · have := Nat.mul_le_mul_right w (Nat.succ_le_of_lt hji)
        rw [Nat.succ_mul] at this
        omega
      · have := Nat.mul_le_mul_right w (Nat.succ_le_of_lt hij)
        rw [Nat.succ_mul] at this
        omega
    rw [if_neg hout]
  · simp [hk]

/-- An element below bit `n` is that of the low `n` bits. -/
theorem elem_mod_two_pow (grp w i n : Nat) (h : (i + 1) * w ≤ n) : elem (grp % 2 ^ n) w i = elem grp w i := by
  refine Nat.eq_of_testBit_eq fun k => ?_
  rw [testBit_elem, testBit_elem, Nat.testBit_mod_two_pow]
  by_cases hk : k < w
  · have : i * w + k < n := by rw [Nat.succ_mul] at h; omega
    simp [this]
  · simp [hk]

/-- The results of elements named once each stand in a group, and every other element is as it was. -/
theorem elem_foldl_setElem (res : List (Nat × Nat × Nat)) (hres : (res.map Prod.fst).Nodup) (grp w j : Nat) :
    elem (res.foldl (fun g r => setElem g w r.1 r.2.1) grp) w j =
      match res.find? (fun r => r.1 == j) with
      | some r => r.2.1 % 2 ^ w
      | none => elem grp w j := by
  induction res generalizing grp with
  | nil => rfl
  | cons r l ih =>
    obtain ⟨hr, hl⟩ := List.nodup_cons.mp hres
    rw [List.foldl_cons, ih hl, List.find?_cons]
    by_cases hj : r.1 = j
    · have hnone : l.find? (fun r => r.1 == j) = none := by
        rw [List.find?_eq_none]
        intro q hq hqj
        exact hr (hj.trans (eq_of_beq hqj).symm ▸ List.mem_map_of_mem hq)
      rw [hnone, beq_iff_eq.mpr hj, ← hj]
      exact elem_setElem_self _ _ _ _
    · rw [beq_eq_false_iff_ne.mpr hj]
      cases l.find? (fun r => r.1 == j) with
      | some q => rfl
      | none => exact elem_setElem_ne _ _ _ _ _ (Ne.symm hj)

/-! ## Register groups -/

/-- A register group is its registers joined, the first the lowest (R63). -/
theorem VecState.grp_eq_joinRegs (x : VecState) (vlb base n : Nat) : x.grp vlb base n = joinRegs vlb (x.regs base n) := by
  induction n generalizing base with
  | zero => rfl
  | succ n ih =>
    have hrest : x.regs base (n + 1) = x.reg base :: x.regs (base + 1) n := by
      simp only [VecState.regs, List.range_succ_eq_map, List.map_cons, List.map_map, Function.comp_def, Nat.add_zero,
        Nat.succ_eq_add_one, Nat.add_assoc, Nat.add_comm 1]
    rw [VecState.grp, ih, hrest, Nat.lor_comm, ← Nat.shiftLeft_add_eq_or_of_lt (Nat.mod_lt _ (Nat.two_pow_pos vlb)), Nat.add_comm,
      Nat.shiftLeft_eq]
    rfl

theorem splitRegs_succ (vlb n x : Nat) :
    splitRegs vlb (n + 1) x = BitVec.ofNat 8192 (x % 2 ^ vlb) :: splitRegs vlb n (x / 2 ^ vlb) := by
  rw [splitRegs, List.range_succ_eq_map, List.map_cons, List.map_map, Nat.zero_mul, Nat.shiftRight_zero, splitRegs]
  congr 2
  funext j
  rw [Function.comp_apply, Nat.succ_mul, Nat.add_comm, Nat.shiftRight_add, Nat.shiftRight_eq_div_pow x]

@[simp] theorem splitRegs_length (vlb n x : Nat) : (splitRegs vlb n x).length = n := by simp [splitRegs]

/-- The low bits of a number kept in a register wide enough for them. -/
theorem toNat_ofNat_mod_two_pow {n vlb : Nat} (h : vlb ≤ n) (x : Nat) : (BitVec.ofNat n (x % 2 ^ vlb)).toNat % 2 ^ vlb = x % 2 ^ vlb := by
  rw [BitVec.toNat_ofNat, Nat.mod_mod_of_dvd _ (Nat.pow_dvd_pow 2 h), Nat.mod_mod]

/-- A number cut into registers and joined again is its low bits. -/
theorem joinRegs_splitRegs (vlb n x : Nat) (hv : vlb ≤ 8192) : joinRegs vlb (splitRegs vlb n x) = x % 2 ^ (n * vlb) := by
  induction n generalizing x with
  | zero => simp [splitRegs, joinRegs, Nat.mod_one]
  | succ n ih =>
    rw [splitRegs_succ]
    show (BitVec.ofNat 8192 (x % 2 ^ vlb)).toNat % 2 ^ vlb + joinRegs vlb (splitRegs vlb n (x / 2 ^ vlb)) * 2 ^ vlb = _
    rw [ih, toNat_ofNat_mod_two_pow hv, Nat.succ_mul, Nat.add_comm (n * vlb), Nat.pow_add, Nat.mod_mul,
      Nat.mul_comm]

@[simp] theorem joinRegs_map_zero {α : Type} (vlb : Nat) (l : List α) : joinRegs vlb (l.map fun _ => 0) = 0 := by
  induction l with
  | nil => rfl
  | cons r l ih =>
    show (0 : VReg).toNat % 2 ^ vlb + joinRegs vlb (l.map fun _ => 0) * 2 ^ vlb = 0
    rw [ih, BitVec.ofNat_eq_ofNat, BitVec.toNat_zero, Nat.zero_mod, Nat.zero_mul]

/-! ## The write of a register group (R65, R66) -/

theorem VecState.reg_writeGroup (x : VecState) (vlb base regs val fill m : Nat) :
    (x.writeGroup vlb base regs val fill).reg m =
      if base ≤ m ∧ m < base + regs then BitVec.ofNat 8192 (val >>> ((m - base) * vlb) % 2 ^ vlb) else x.reg m :=
  Tbl.getD_foldl_set _ _ _ _ _ _

theorem VecState.fillOf_writeGroup (x : VecState) (vlb base regs val fill m : Nat) :
    (x.writeGroup vlb base regs val fill).fillOf m =
      if base ≤ m ∧ m < base + regs then min (fill - (m - base) * (vlb / 4)) (vlb / 4) else x.fillOf m :=
  Tbl.getD_foldl_set _ _ _ _ _ _

/-- Marking one register full, where it is not yet. -/
theorem Tbl.getD_setUnless (t : Tbl (BitVec 16)) (k m : Nat) :
    Tbl.getD (if t.getD k 0xFFFF = 0xFFFF then t else t.set k 0xFFFF) m 0xFFFF = if m = k then 0xFFFF else t.getD m 0xFFFF := by
  split
  · next h =>
    split
    · next hm => rw [hm, h]
    · rfl
  · exact Tbl.getD_set t k m _ _

theorem VecState.fullOf_writeGroup (x : VecState) (vlb base regs val fill m : Nat) :
    (x.writeGroup vlb base regs val fill).fullOf m = if base ≤ m ∧ m < base + regs then 0xFFFF else x.fullOf m := by
  show Tbl.getD (setFull x.full base regs) m 0xFFFF = _
  induction regs with
  | zero => rw [if_neg (by omega)]; rfl
  | succ n ih =>
    rw [setFull] at ih
    rw [setFull, List.range_succ, List.foldl_append, List.foldl_cons, List.foldl_nil, Tbl.getD_setUnless, ih]
    by_cases hm : m = base + n
    · rw [if_pos hm, if_pos (by omega)]
    · rw [if_neg hm]
      by_cases hin : base ≤ m ∧ m < base + n
      · rw [if_pos hin, if_pos (by omega)]
      · rw [if_neg hin, if_neg (by omega)]

/-- A group that was written reads back. -/
theorem VecState.grp_writeGroup (x : VecState) (vlb base regs val fill : Nat) (hv : vlb ≤ 8192) :
    (x.writeGroup vlb base regs val fill).grp vlb base regs = val % 2 ^ (regs * vlb) := by
  rw [VecState.grp_eq_joinRegs, ← joinRegs_splitRegs vlb regs val hv]
  congr 1
  refine List.map_congr_left fun j hj => ?_
  have hin : base ≤ base + j ∧ base + j < base + regs := by rw [List.mem_range] at hj; omega
  rw [VecState.reg_writeGroup, if_pos hin, Nat.add_sub_cancel_left]

theorem VecState.grp_lt (x : VecState) (vlb base n : Nat) : x.grp vlb base n < 2 ^ (n * vlb) := by
  induction n generalizing base with
  | zero => simp [VecState.grp]
  | succ n ih =>
    rw [VecState.grp]
    refine Nat.or_lt_two_pow (lt_of_lt_of_le (Nat.mod_lt _ (Nat.two_pow_pos vlb)) (Nat.pow_le_pow_right (by decide) ?_)) ?_
    · rw [Nat.succ_mul]; exact Nat.le_add_left _ _
    · rw [Nat.shiftLeft_eq, Nat.succ_mul, Nat.pow_add]
      exact Nat.mul_lt_mul_of_pos_right (ih _) (Nat.two_pow_pos vlb)

end Machine
end Sys2Proof
end

section
/-! PROOFS. How a member of the vector side completes (R65, R66, R158, R161): its sources have landed, its elements take their results,
its flags are credited (R27, R28), and nothing else changes. -/

namespace Sys2Proof
open Machine Claims

namespace Machine

/-! ## Flags (R25 to R28) -/

/-- Element `i` raises class `k`: its event index falls to `i`, where it is not lower. -/
theorem getD_foldl_creditClass (fl i k : Nat) (l : List Nat) (hl : l.Nodup) (ev : Tbl Word) :
    (l.foldl (creditClass fl i) ev).getD k (BitVec.allOnes 64) =
      if k ∈ l ∧ fl.testBit k = true then BitVec.ofNat 64 (min (ev.getD k (BitVec.allOnes 64)).toNat i)
      else ev.getD k (BitVec.allOnes 64) := by
  induction l generalizing ev with
  | nil => simp
  | cons j l ih =>
    obtain ⟨hj, hl⟩ := List.nodup_cons.mp hl
    have hclass : (creditClass fl i ev j).getD k (BitVec.allOnes 64) =
        if k = j ∧ fl.testBit k = true then BitVec.ofNat 64 (min (ev.getD k (BitVec.allOnes 64)).toNat i)
        else ev.getD k (BitVec.allOnes 64) := by
      have hbit : (fl / 2 ^ j % 2 = 1) = (fl.testBit j = true) := by
        rw [Nat.testBit_eq_decide_div_mod_eq, decide_eq_true_eq]
      rw [creditClass]
      simp only [hbit]
      by_cases hk : k = j
      · subst hk
        by_cases h : fl.testBit k = true
        · rw [if_pos h, Tbl.getD_set_self, if_pos ⟨rfl, h⟩]
        · rw [if_neg h, if_neg fun hh => h hh.2]
      · have hout : ¬(k = j ∧ fl.testBit k = true) := fun hh => hk hh.1
        rw [if_neg hout]
        split
        · exact Tbl.getD_set_ne _ _ _ _ _ hk
        · rfl
    rw [List.foldl_cons, ih hl, hclass]
    by_cases hk : k = j
    · subst hk
      simp [hj]
    · simp [hk]

theorem VecState.fstat_credit (x : VecState) (i fl k : Nat) (hk : k < 7) :
    (x.credit i fl).fstat.getLsbD k = (x.fstat.getLsbD k || fl.testBit k) := by
  rw [VecState.credit]
  split
  · next h => simp [h]
  · rw [BitVec.getLsbD_or, BitVec.getLsbD_ofNat, decide_eq_true hk, Bool.true_and]

theorem VecState.evixOf_credit (x : VecState) (i fl k : Nat) (hk : k < 7) :
    (x.credit i fl).evixOf k = if fl.testBit k = true then BitVec.ofNat 64 (min (x.evixOf k).toNat i) else x.evixOf k := by
  rw [VecState.credit]
  split
  · next h => simp [h]
  · refine (getD_foldl_creditClass fl i k (List.range 7) List.nodup_range x.evix).trans ?_
    by_cases h : fl.testBit k = true
    · rw [if_pos h, if_pos ⟨List.mem_range.mpr hk, h⟩]; rfl
    · rw [if_neg h, if_neg fun hh => h hh.2]; rfl

theorem VecState.toNat_evixOf_credit (x : VecState) (i fl k : Nat) (hk : k < 7) :
    ((x.credit i fl).evixOf k).toNat = if fl.testBit k = true then min (x.evixOf k).toNat i else (x.evixOf k).toNat := by
  rw [x.evixOf_credit i fl k hk]
  split
  · rw [BitVec.toNat_ofNat, Nat.mod_eq_of_lt (lt_of_le_of_lt (Nat.min_le_left _ _) (x.evixOf k).isLt)]
  · rfl

/-- Crediting changes FSTAT and the event indices alone. -/
theorem VecState.credit_only (x : VecState) (i fl : Nat) : ∃ st ev, x.credit i fl = { x with fstat := st, evix := ev } := by
  rw [VecState.credit]
  split
  · exact ⟨x.fstat, x.evix, rfl⟩
  · exact ⟨_, _, rfl⟩

theorem VecState.creditAll_only (x : VecState) (res : List (Nat × Nat × Nat)) :
    ∃ st ev, x.creditAll res = { x with fstat := st, evix := ev } := by
  induction res generalizing x with
  | nil => exact ⟨x.fstat, x.evix, rfl⟩
  | cons r l ih =>
    obtain ⟨st, ev, h⟩ := x.credit_only r.1 r.2.2
    obtain ⟨st', ev', h'⟩ := ih (x.credit r.1 r.2.2)
    exact ⟨st', ev', h'.trans (by rw [h])⟩

/-- FSTAT gathers the classes that the elements of a list raise. -/
theorem VecState.fstat_creditAll (x : VecState) (res : List (Nat × Nat × Nat)) (k : Nat) (hk : k < 7) :
    (x.creditAll res).fstat.getLsbD k = true ↔ x.fstat.getLsbD k = true ∨ ∃ r ∈ res, r.2.2.testBit k = true := by
  induction res generalizing x with
  | nil => simp [VecState.creditAll]
  | cons r l ih =>
    have hstep : x.creditAll (r :: l) = (x.credit r.1 r.2.2).creditAll l := rfl
    rw [hstep, ih, VecState.fstat_credit _ _ _ _ hk, Bool.or_eq_true, List.exists_mem_cons_iff, or_assoc]

/-- The event index of a class falls to the lowest element of a list that raises it. -/
theorem VecState.evixOf_creditAll (x : VecState) (res : List (Nat × Nat × Nat)) (k : Nat) (hk : k < 7) :
    ((x.creditAll res).evixOf k).toNat ≤ (x.evixOf k).toNat ∧
      (∀ r ∈ res, r.2.2.testBit k = true → ((x.creditAll res).evixOf k).toNat ≤ r.1) ∧
      ((x.creditAll res).evixOf k = x.evixOf k ∨
        ∃ r ∈ res, r.2.2.testBit k = true ∧ ((x.creditAll res).evixOf k).toNat = r.1) := by
  induction res generalizing x with
  | nil => exact ⟨le_rfl, by simp, .inl rfl⟩
  | cons r l ih =>
    have hstep : x.creditAll (r :: l) = (x.credit r.1 r.2.2).creditAll l := rfl
    obtain ⟨hle, hall, hsome⟩ := ih (x.credit r.1 r.2.2)
    rw [x.toNat_evixOf_credit _ _ _ hk] at hle
    rw [hstep]
    refine ⟨?fall, ?below, ?from_⟩
    case fall => split at hle <;> omega
    case below =>
      refine List.forall_mem_cons.mpr ⟨fun hbit => ?_, hall⟩
      rw [if_pos hbit] at hle
      omega
    case from_ =>
      rcases hsome with heq | ⟨q, hq, hbit, hat⟩
      · by_cases hbit : r.2.2.testBit k = true
        · have hnat := x.toNat_evixOf_credit r.1 r.2.2 k hk
          rw [if_pos hbit, ← heq] at hnat
          rcases Nat.le_total (x.evixOf k).toNat r.1 with h | h
          · exact .inl (BitVec.eq_of_toNat_eq (hnat.trans (Nat.min_eq_left h)))
          · exact .inr ⟨r, List.mem_cons_self, hbit, hnat.trans (Nat.min_eq_right h)⟩
        · refine .inl (heq.trans ?_)
          rw [x.evixOf_credit _ _ _ hk, if_neg hbit]
      · exact .inr ⟨q, List.mem_cons_of_mem _ hq, hbit, hat⟩

/-! ## The width of an element -/

theorem ewOf_dvd {code w : Nat} (h : ewOf code = some w) : w ∣ 64 := by
  unfold ewOf at h
  split at h <;> cases h <;> decide

/-- Every element width divides 64. -/
theorem vtEw_dvd (vt : BitVec 10) : vtEw vt ∣ 64 := by
  rw [vtEw]
  cases h : ewOf (vtCode vt) with
  | none => decide
  | some w => exact ewOf_dvd h

theorem vtEw_pos (vt : BitVec 10) : 0 < vtEw vt := Nat.pos_of_dvd_of_pos (vtEw_dvd vt) (by decide)

/-! ## A group of elements after a write -/

/-- Elements of a list each replaced by their value, and every other as it was. -/
theorem elem_foldl_setElem_map {w : Nat} {l : List Nat} (f : Nat → Nat × Nat) (hl : l.Nodup) (old j : Nat) :
    elem ((l.map fun i => (i, f i)).foldl (fun g r => setElem g w r.1 r.2.1) old) w j =
      if j ∈ l then (f j).1 % 2 ^ w else elem old w j := by
  have hfst : ((l.map fun i => (i, f i)).map Prod.fst).Nodup := by simpa [Function.comp_def] using hl
  have hfind : (l.map fun i => (i, f i)).find? (fun r => r.1 == j) = if j ∈ l then some (j, f j) else none := by
    rw [List.find?_map]
    split
    · next hj =>
      have hself : l.find? ((fun r : Nat × Nat × Nat => r.1 == j) ∘ fun i => (i, f i)) = some j := by
        rw [List.find?_eq_some_iff_getElem]
        obtain ⟨k, hk, hkj⟩ := List.getElem_of_mem hj
        refine ⟨by simp, k, hk, hkj, fun m hm => ?_⟩
        have hne : l[m] ≠ j := fun h => absurd (hl.getElem_inj_iff.mp (h.trans hkj.symm)) (by omega)
        simpa using hne
      rw [hself]; rfl
    · next hj =>
      have hnone : l.find? ((fun r : Nat × Nat × Nat => r.1 == j) ∘ fun i => (i, f i)) = none := by
        rw [List.find?_eq_none]
        intro i hi hij
        exact hj (eq_of_beq hij ▸ hi)
      rw [hnone]; rfl
  rw [elem_foldl_setElem _ hfst, hfind]
  by_cases hj : j ∈ l
  · rw [if_pos hj, if_pos hj]
  · rw [if_neg hj, if_neg hj]

/-- What the elements of a destination group hold after a member that performs the elements of `l` (R158). -/
theorem elem_putLanes {old w size : Nat} {zero : Bool} {l : List Nat} (f : Nat → Nat × Nat) (hl : l.Nodup) (hold : old < 2 ^ (size * w))
    (j : Nat) :
    elem (putLanes old w 0 size zero (l.map fun i => (i, f i))) w j =
      if j ∈ l then (f j).1 % 2 ^ w else if zero = true then 0 else elem old w j := by
  rw [putLanes, elem_foldl_setElem_map f hl]
  cases zero with
  | false => rfl
  | true =>
    have hhigh : old >>> (size * w) = 0 := by rw [Nat.shiftRight_eq_div_pow, Nat.div_eq_of_lt hold]
    simp [hhigh, Nat.mod_one]

/-! ## Vector lengths (R79) -/

theorem vectorLength_bounds {vlb : Nat} (h : ∃ k, 9 ≤ k ∧ k ≤ 13 ∧ vlb = 2 ^ k) : 512 ∣ vlb ∧ 0 < vlb ∧ vlb ≤ 8192 := by
  obtain ⟨k, hlo, hhi, rfl⟩ := h
  exact ⟨Nat.pow_dvd_pow 2 hlo, Nat.two_pow_pos k, Nat.pow_le_pow_right (by decide : 0 < 2) hhi⟩

/-! ## Sources that have landed (R66) -/

section
variable {v : View} (hfull : ∀ n, v.x.fullOf n = 0xFFFF) (hv : 0 < v.vlb ∧ v.vlb ≤ 8192)
include hfull hv

theorem View.landed_of_full (base w i : Nat) : v.landed base w i = true := by
  have hq : i * w % v.vlb / 512 < 16 := by
    have := Nat.mod_lt (i * w) hv.1
    omega
  have hones : (0xFFFF : BitVec 16) = BitVec.allOnes 16 := rfl
  rw [View.landed, hfull, hones, BitVec.getLsbD_allOnes, decide_eq_true hq]

theorem View.meets_of_full (srcs : List Src) (i : Nat) : v.meets srcs i = none := by
  have hnone : srcs.filter (fun q => !v.landed q.base q.ew (q.ix i)) = [] := by
    simp [View.landed_of_full hfull hv]
  rw [View.meets, hnone]

theorem View.wholeMeets_of_full (srcs : List (Src × List Nat)) : v.wholeMeets srcs = none := by
  have hbad : ∀ q : Src × List Nat, q.2.find? (fun j => !v.landed q.1.base q.1.ew j) = none := by
    simp [View.landed_of_full hfull hv]
  have hfind : srcs.find? (fun q => q.1.act && !v.force && (q.2.find? (fun j => !v.landed q.1.base q.1.ew j)).isSome) = none := by
    simp [hbad]
  have hany : srcs.any (fun q => (q.2.find? (fun j => !v.landed q.1.base q.1.ew j)).isSome) = false := by simp [hbad]
  simp only [View.wholeMeets, hfind, hany, Bool.false_eq_true, if_false]

theorem View.oldReady_of_full (d : VDst) (l : List Nat) : v.oldReady d l = true := by
  simp [View.oldReady, View.landed_of_full hfull hv]

/-- With its sources landed, and no class raised whose trap is enabled, a member performs all its elements (R161). -/
theorem View.run_of_full (srcs : List Src) (f : Nat → Nat × Nat) (l : List Nat)
    (htrap : ∀ j ∈ l, trapClass (f j).2 v.trapen = none) : v.run srcs f l = (l.map fun j => (j, f j), .all) := by
  induction l with
  | nil => rfl
  | cons i l ih =>
    obtain ⟨hi, hl⟩ := List.forall_mem_cons.mp htrap
    rw [View.run, View.meets_of_full hfull hv]
    simp [hi, ih hl]

end

/-! ## A member in execution that resumes nothing -/

section
variable {s : State} {i : Instr}

theorem view_of_anew (h : Anew s) : s.view.first = 0 ∧ s.view.resumed = false ∧ s.view.force = false := by
  obtain ⟨hres, -, hfirst, hfrom, -, hforce⟩ := h
  simp [State.view, hres, hfirst, hfrom, hforce]

/-- The elements that a masked member performs are the active ones (R158). -/
theorem view_active_of_anew (h : Anew s) (mk : BitVec 2) :
    s.view.active mk = (List.range (vlS s)).filter (fun j => (s.me.vec.mask mk.toNat).getLsbD j) := by
  rw [View.active, (view_of_anew h).1]
  simp [View.bit, State.view, vlS]

theorem mem_view_active (h : Anew s) (mk : BitVec 2) (j : Nat) : j ∈ s.view.active mk ↔ act s mk j := by
  rw [view_active_of_anew h, List.mem_filter, List.mem_range]; rfl

theorem view_active_nodup (v : View) (mk : BitVec 2) : (v.active mk).Nodup := List.nodup_range.filter _

/-- A member that passes its checks at issue and resumes nothing goes on with what it finds. -/
theorem State.vec_of_begins (h : Begins i s) (k : View → State) : s.vec i k = .next (k s.view) := by
  obtain ⟨hcheck, ⟨hres, hskip, -⟩, -⟩ := h
  have hnot : s.complete = false := by simp [State.complete, hres, hskip]
  simp [State.vec, hnot, hcheck]

theorem State.regsBusy_of_empty (h : s.me.mxq = []) (base regs : Nat) : s.regsBusy base regs = false := by
  simp [State.regsBusy, h]

/-- The vector length and the width of a fresh member's elements. -/
theorem bounds_of_begins (h : Begins i s) : 512 ∣ vlbOf s ∧ 0 < vlbOf s ∧ vlbOf s ≤ 8192 := vectorLength_bounds h.2.2.1

theorem view_full_of_fresh (h : Fresh i s) : ∀ n, s.view.x.fullOf n = 0xFFFF := h.2.1

theorem view_bounds_of_fresh (h : Fresh i s) : 0 < s.view.vlb ∧ s.view.vlb ≤ 8192 := (bounds_of_begins h.1).2

/-- Elements fill a group of registers without a remainder. -/
theorem width_dvd_of_begins (h : Begins i s) {w : Nat} (hw : w ∣ 64) (regs : Nat) : w ∣ vlbOf s * regs :=
  ((hw.trans (by decide)).trans (bounds_of_begins h).1).mul_right regs

/-! ## A member whose sources are read as a whole -/

/-- A member that moves or combines elements across lanes performs its elements, and completes. -/
theorem State.crossOp_of_fresh (h : Fresh i s) (d : VDst) (fill : Nat) (srcs : List (Src × List Nat)) (l : List Nat)
    (f : Nat → Nat × Nat) (htrap : ∀ j ∈ l, trapClass (f j).2 (trapEn s.cur.samp.fctl) = none) :
    s.crossOp s.view d fill srcs l f = s.vecResult s.view d fill (l.map fun j => (j, f j)) .all := by
  have hidle : s.me.mxq = [] := h.2.2
  rw [State.crossOp, State.regsBusy_of_empty hidle, View.oldReady_of_full (view_full_of_fresh h) (view_bounds_of_fresh h), State.whole,
    View.wholeMeets_of_full (view_full_of_fresh h) (view_bounds_of_fresh h)]
  simp only [Bool.not_true, Bool.or_self, Bool.false_eq_true, if_false]
  rw [View.run_of_full (view_full_of_fresh h) (view_bounds_of_fresh h) [] f l htrap]

/-! ## The end of a member with a vector destination -/

/-- A member with a vector destination writes its group, credits its flags, and is over. -/
theorem State.vecResult_all (v : View) (d : VDst) (fill : Nat) (res : List (Nat × Nat × Nat)) :
    s.vecResult v d fill res .all =
      ((s.writeGroup v.vlb d.base d.regs (putLanes (v.x.grp v.vlb d.base d.regs) d.ew v.first (v.size d) v.zero res) fill).upd
        fun t => { t with vec := t.vec.creditAll res }).memberDone := rfl

/-- The executing strand after a member with a vector destination completes. -/
theorem State.me_vecResult_all (v : View) (d : VDst) (fill : Nat) (res : List (Nat × Nat × Nat)) (hres : s.cur.resumed = false) :
    (s.vecResult v d fill res .all).me =
      ({ s.me.supersede d.base d.regs with
          vec := (s.me.vec.writeGroup v.vlb d.base d.regs
            (putLanes (v.x.grp v.vlb d.base d.regs) d.ew v.first (v.size d) v.zero res) fill).creditAll res }).updConvoy
        s.cur.seq (fun c => c.pass false) := by
  simp only [State.vecResult_all, State.memberDone, State.writeGroup, State.me_upd, State.upd_cur, hres, Bool.false_eq_true, if_false]

/-- It changes the executing strand alone. -/
theorem State.vecResult_all_only (v : View) (d : VDst) (fill : Nat) (res : List (Nat × Nat × Nat)) :
    OnlyStrand s.cur.src s (s.vecResult v d fill res .all) ∧ MemSame s (s.vecResult v d fill res .all) := by
  refine ⟨⟨rfl, fun j hj => ?_⟩, fun a => rfl⟩
  rw [State.vecResult_all, (State.memberDone_only _ _).2 j (by exact hj), State.strand_upd_ne _ _ _ (by exact hj), State.writeGroup,
    State.strand_upd_ne s j _ hj]

theorem memberStep_vecResult (v : View) (d : VDst) (fill : Nat) (res : List (Nat × Nat × Nat)) (hres : s.cur.resumed = false)
    (hidle : s.me.mxq = []) : MemberStep s (s.vecResult v d fill res .all) := by
  obtain ⟨honly, hmem⟩ := s.vecResult_all_only v d fill res
  refine ⟨honly, hmem, ?strand, ?queue⟩
  case strand =>
    rw [State.me_vecResult_all v d fill res hres]
    have hmx : (s.me.supersede d.base d.regs).mxq = s.me.mxq := by simp [Strand.supersede, hidle]
    calc _ = { s.me with mxq := (s.me.supersede d.base d.regs).mxq } := rfl
      _ = s.me := by rw [hmx]
  case queue =>
    rw [State.me_vecResult_all v d fill res hres]
    show (s.me.viq.map _).map _ = _
    rw [List.map_map]
    refine List.map_congr_left fun c _ => ?_
    by_cases hc : c.seq = s.cur.seq
    · simp [hc, Convoy.pass]
    · simp [hc]

/-- A member that completes leaves the vector length. -/
theorem vlbOf_of_memberStep {t : State} (h : MemberStep s t) : vlbOf t = vlbOf s := by
  obtain ⟨⟨hrest, -⟩, -, hme, -⟩ := h
  have hcur : t.cur = s.cur := (congrArg State.cur hrest :)
  have hcores : t.cores = s.cores := (congrArg State.cores hrest :)
  have hcontexts : t.contexts = s.contexts := (congrArg State.contexts hrest :)
  have hcsr : t.me.csr = s.me.csr := (congrArg Strand.csr hme :)
  have hbind : t.me.bind = s.me.bind := (congrArg Strand.bind hme :)
  rw [State.me, State.me, hcur] at hcsr hbind
  simp only [vlbOf, State.vlb, State.core, State.context, hcur, hcores, hcontexts, hcsr, hbind]

/-- The vector registers after a member with a vector destination completes. -/
theorem vec_vecResult (v : View) (d : VDst) (fill : Nat) (res : List (Nat × Nat × Nat)) (hres : s.cur.resumed = false) :
    (s.vecResult v d fill res .all).me.vec =
      (s.me.vec.writeGroup v.vlb d.base d.regs
        (putLanes (v.x.grp v.vlb d.base d.regs) d.ew v.first (v.size d) v.zero res) fill).creditAll res := by
  rw [State.me_vecResult_all v d fill res hres]; rfl

/-- A register group depends on the registers alone. -/
theorem VecState.grp_congr {x y : VecState} (h : x.v = y.v) (vlb base n : Nat) : x.grp vlb base n = y.grp vlb base n := by
  simp only [VecState.grp_eq_joinRegs, VecState.regs, VecState.reg, h]

theorem groupStep_of_vec {t : State} {base : BitVec 6} {regs val fill : Nat} {res : List (Nat × Nat × Nat)}
    (ht : t.me.vec = (s.me.vec.writeGroup (vlbOf s) base.toNat regs val fill).creditAll res) : GroupStep s t base regs fill := by
  obtain ⟨st, ev, hcredit⟩ := (s.me.vec.writeGroup (vlbOf s) base.toNat regs val fill).creditAll_only res
  rw [hcredit] at ht
  have hreg : ∀ n, t.me.vec.reg n = (s.me.vec.writeGroup (vlbOf s) base.toNat regs val fill).reg n := fun n => by rw [ht]; rfl
  have hfill : ∀ n, t.me.vec.fillOf n = (s.me.vec.writeGroup (vlbOf s) base.toNat regs val fill).fillOf n := fun n => by rw [ht]; rfl
  have hfull : ∀ n, t.me.vec.fullOf n = (s.me.vec.writeGroup (vlbOf s) base.toNat regs val fill).fullOf n := fun n => by rw [ht]; rfl
  refine ⟨fun n hn => ?outside, fun k hk => ?inside, ?masks, ?grants⟩
  case outside =>
    have hout : ¬(base.toNat ≤ n ∧ n < base.toNat + regs) := by omega
    rw [hreg, hfill, hfull, VecState.reg_writeGroup, VecState.fillOf_writeGroup, VecState.fullOf_writeGroup, if_neg hout, if_neg hout,
      if_neg hout]
    exact ⟨rfl, rfl, rfl⟩
  case inside =>
    have hin : base.toNat ≤ base.toNat + k ∧ base.toNat + k < base.toNat + regs := by omega
    rw [hfill, hfull, VecState.fillOf_writeGroup, VecState.fullOf_writeGroup, if_pos hin, if_pos hin, Nat.add_sub_cancel_left]
    exact ⟨rfl, rfl⟩
  case masks => rw [ht]; rfl
  case grants => rw [ht]; rfl

theorem flagStep_of_vec {t : State} {x : VecState} {l : List Nat} {f : Nat → Nat × Nat} {act : Nat → Prop} {fl : Nat → Nat}
    (ht : t.me.vec = x.creditAll (l.map fun j => (j, f j))) (hx : x.fstat = s.me.vec.fstat ∧ x.evix = s.me.vec.evix)
    (hl : ∀ j, j ∈ l ↔ act j) (hfl : ∀ j, act j → (f j).2 = fl j) : FlagStep s t act fl := by
  intro k hk
  obtain ⟨hstat, hevix⟩ := hx
  have hold : x.evixOf k = s.me.vec.evixOf k := by rw [VecState.evixOf, hevix]; rfl
  obtain ⟨-, hall, hsome⟩ := x.evixOf_creditAll (l.map fun j => (j, f j)) k hk
  rw [ht]
  refine ⟨?gathers, fun j hj hbit => ?lowest, ?named⟩
  case gathers =>
    rw [VecState.fstat_creditAll _ _ _ hk, hstat]
    refine or_congr_right ⟨?_, ?_⟩
    · rintro ⟨r, hr, hbit⟩
      obtain ⟨j, hj, rfl⟩ := List.mem_map.mp hr
      exact ⟨j, (hl j).mp hj, hfl j ((hl j).mp hj) ▸ hbit⟩
    · rintro ⟨j, hj, hbit⟩
      exact ⟨_, List.mem_map_of_mem ((hl j).mpr hj), (hfl j hj).symm ▸ hbit⟩
  case lowest => exact hall _ (List.mem_map_of_mem ((hl j).mpr hj)) ((hfl j hj).symm ▸ hbit)
  case named =>
    rcases hsome with h | ⟨r, hr, hbit, hat⟩
    · exact .inl (h.trans hold)
    · obtain ⟨j, hj, rfl⟩ := List.mem_map.mp hr
      exact .inr ⟨j, (hl j).mp hj, hfl j ((hl j).mp hj) ▸ hbit, hat⟩

/-- The write of a member's destination: the elements of `l` hold their results, every other keeps its value or is zero (R158). -/
theorem elem_of_vec {t : State} {base : BitVec 6} {regs w fill : Nat} {zero : Bool} {l : List Nat} {f : Nat → Nat × Nat}
    (ht : t.me.vec = (s.me.vec.writeGroup (vlbOf s) base.toNat regs (putLanes (s.me.vec.grp (vlbOf s) base.toNat regs) w 0
      (vlbOf s * regs / w) zero (l.map fun j => (j, f j))) fill).creditAll (l.map fun j => (j, f j)))
    (hvlb : vlbOf t = vlbOf s) (hv : vlbOf s ≤ 8192) (hw : w ∣ vlbOf s * regs) (hl : l.Nodup) (j : Nat) (hj : j < vlbOf s * regs / w) :
    el t base regs w j = if j ∈ l then (f j).1 % 2 ^ w else if zero = true then 0 else el s base regs w j := by
  obtain ⟨st, ev, hcredit⟩ := (s.me.vec.writeGroup (vlbOf s) base.toNat regs (putLanes (s.me.vec.grp (vlbOf s) base.toNat regs) w 0
    (vlbOf s * regs / w) zero (l.map fun j => (j, f j))) fill).creditAll_only (l.map fun j => (j, f j))
  have hgrp : t.me.vec.grp (vlbOf s) base.toNat regs = (s.me.vec.writeGroup (vlbOf s) base.toNat regs (putLanes
      (s.me.vec.grp (vlbOf s) base.toNat regs) w 0 (vlbOf s * regs / w) zero (l.map fun j => (j, f j))) fill).grp (vlbOf s) base.toNat
      regs := by
    rw [ht, hcredit]; exact VecState.grp_congr (by rfl) _ _ _
  have hsize : vlbOf s * regs / w * w = regs * vlbOf s := by rw [Nat.div_mul_cancel hw, Nat.mul_comm]
  have hfit : (j + 1) * w ≤ regs * vlbOf s := by rw [← hsize]; exact Nat.mul_le_mul_right w hj
  have hold : s.me.vec.grp (vlbOf s) base.toNat regs < 2 ^ (vlbOf s * regs / w * w) := by rw [hsize]; exact VecState.grp_lt _ _ _ _
  rw [el, hvlb, hgrp, VecState.grp_writeGroup _ _ _ _ _ _ hv, elem_mod_two_pow _ _ _ _ hfit, elem_putLanes f hl hold]
  rfl

/-- A member completes with a vector destination of elements of width `w`: those of `l` take the results, and nothing else changes. -/
theorem lanes_of_vecResult {base : BitVec 6} {regs w fill : Nat} {act : Nat → Prop} {res fl : Nat → Nat} (hw : w ∣ 64) (l : List Nat)
    (f : Nat → Nat × Nat) (hl : l.Nodup) (hact : Fresh i s → ∀ j, j ∈ l ↔ act j)
    (hres : Fresh i s → ∀ j, act j → (f j).1 % 2 ^ w = res j % 2 ^ w ∧ (f j).2 = fl j)
    (hexec : Fresh i s → (∀ j ∈ l, trapClass (f j).2 (trapEn s.cur.samp.fctl) = none) →
      exec i s = .next (s.vecResult s.view ⟨base.toNat, regs, w⟩ fill (l.map fun j => (j, f j)) .all)) :
    Lanes i s base regs w fill act res fl := by
  intro hfresh htrap
  have hl' := hact hfresh
  have hres' := hres hfresh
  obtain ⟨hbegins, -, hidle⟩ := id hfresh
  obtain ⟨-, hanew, -⟩ := id hbegins
  have hresumed : s.cur.resumed = false := hanew.1
  have hvec := vec_vecResult (s := s) s.view ⟨base.toNat, regs, w⟩ fill (l.map fun j => (j, f j)) hresumed
  rw [(view_of_anew hanew).1] at hvec
  have hstep := memberStep_vecResult (s := s) s.view ⟨base.toNat, regs, w⟩ fill (l.map fun j => (j, f j)) hresumed hidle
  refine ⟨_, hexec hfresh fun j hj => ?_, hstep, groupStep_of_vec hvec,
    flagStep_of_vec hvec ⟨rfl, rfl⟩ hl' fun j hj => (hres' j hj).2, fun j hj => ?_⟩
  · rw [(hres' j ((hl' j).mp hj)).2]
    exact htrap j ((hl' j).mp hj)
  · have helem := elem_of_vec hvec (vlbOf_of_memberStep hstep) (bounds_of_begins hbegins).2.2 (width_dvd_of_begins hbegins hw regs) hl j hj
    refine ⟨fun ha => ?_, fun hna => ?_⟩
    · rw [helem, if_pos ((hl' j).mpr ha), (hres' j ha).1]
    · rw [helem, if_neg fun h => hna ((hl' j).mp h)]
      rfl

end

end Machine
end Sys2Proof
end

section
/-! PROOFS. Reductions and scans (R42 to R44, R174, R175): the tree of R42 combines the active elements in any order where the operation is
commutative and associative, and a scan's running value is the fold of the active elements so far. -/

namespace Sys2Proof
open Machine Claims

/-! ## Operations whose order does not matter -/

theorem foldl_lt_of_closed {w : Nat} {op : Nat → Nat → Nat} (hop : ∀ {a b}, a < 2 ^ w → b < 2 ^ w → op a b < 2 ^ w) {a : Nat}
    (ha : a < 2 ^ w) {l : List Nat} (hl : ∀ b ∈ l, b < 2 ^ w) : l.foldl op a < 2 ^ w := by
  induction l generalizing a with
  | nil => exact ha
  | cons b l ih =>
    obtain ⟨hb, hl⟩ := List.forall_mem_cons.mp hl
    exact ih (hop ha hb) hl

/-- An operation on `w`-bit numbers that a tree of any shape combines to the same result, with its identity (R42, R43). -/
structure Combines (w : Nat) (op : Nat → Nat → Nat) (e : Nat) : Prop where
  closed : ∀ {a b}, a < 2 ^ w → b < 2 ^ w → op a b < 2 ^ w
  comm : ∀ {a b}, a < 2 ^ w → b < 2 ^ w → op a b = op b a
  assoc : ∀ {a b c}, a < 2 ^ w → b < 2 ^ w → c < 2 ^ w → op (op a b) c = op a (op b c)
  ident_lt : e < 2 ^ w
  ident : ∀ {a}, a < 2 ^ w → op a e = a

namespace Combines

variable {w : Nat} {op : Nat → Nat → Nat} {e : Nat} (h : Combines w op e)
include h

theorem foldl_lt {a : Nat} (ha : a < 2 ^ w) {l : List Nat} (hl : ∀ b ∈ l, b < 2 ^ w) : l.foldl op a < 2 ^ w :=
  foldl_lt_of_closed h.closed ha hl

theorem foldl_op {a b : Nat} (ha : a < 2 ^ w) (hb : b < 2 ^ w) {l : List Nat} (hl : ∀ c ∈ l, c < 2 ^ w) :
    l.foldl op (op a b) = op a (l.foldl op b) := by
  induction l generalizing b with
  | nil => rfl
  | cons c l ih =>
    obtain ⟨hc, hl⟩ := List.forall_mem_cons.mp hl
    rw [List.foldl_cons, List.foldl_cons, h.assoc ha hb hc, ih (h.closed hb hc) hl]

/-- An initial value may be taken in first or last. -/
theorem op_foldl_ident {a : Nat} (ha : a < 2 ^ w) {l : List Nat} (hl : ∀ c ∈ l, c < 2 ^ w) : op a (l.foldl op e) = l.foldl op a := by
  rw [← h.foldl_op ha h.ident_lt hl, h.ident ha]

/-- Two lists combined element by element come to the same as each list combined on its own. -/
theorem foldl_zipWith {l m : List Nat} (hlen : l.length = m.length) (hl : ∀ c ∈ l, c < 2 ^ w) (hm : ∀ c ∈ m, c < 2 ^ w) {a b : Nat}
    (ha : a < 2 ^ w) (hb : b < 2 ^ w) : (List.zipWith op l m).foldl op (op a b) = op (l.foldl op a) (m.foldl op b) := by
  induction l generalizing m a b with
  | nil => rw [List.length_eq_zero_iff.mp hlen.symm]; rfl
  | cons c l ih =>
    cases m with
    | nil => cases hlen
    | cons d m =>
      obtain ⟨hc, hl⟩ := List.forall_mem_cons.mp hl
      obtain ⟨hd, hm⟩ := List.forall_mem_cons.mp hm
      have hswap : op (op a b) (op c d) = op (op a c) (op b d) := calc
        op (op a b) (op c d) = op a (op b (op c d)) := h.assoc ha hb (h.closed hc hd)
        _ = op a (op c (op b d)) := by rw [← h.assoc hb hc hd, h.comm hb hc, h.assoc hc hb hd]
        _ = op (op a c) (op b d) := (h.assoc ha hc (h.closed hb hd)).symm
      rw [List.zipWith_cons_cons, List.foldl_cons, List.foldl_cons, List.foldl_cons, hswap,
        ih (Nat.succ.inj hlen) hl hm (h.closed ha hc) (h.closed hb hd)]

/-- Elements that are not active stand in for the identity, and change nothing. -/
theorem foldl_map_ident (p : Nat → Bool) (g : Nat → Nat) (hg : ∀ i, g i < 2 ^ w) {a : Nat} (ha : a < 2 ^ w) (l : List Nat) :
    (l.map fun i => if p i = true then g i else e).foldl op a = ((l.filter p).map g).foldl op a := by
  induction l generalizing a with
  | nil => rfl
  | cons i l ih =>
    rw [List.map_cons, List.foldl_cons]
    by_cases hi : p i = true
    · rw [if_pos hi, List.filter_cons_of_pos hi, List.map_cons, List.foldl_cons, ih (h.closed ha (hg i))]
    · rw [if_neg hi, List.filter_cons_of_neg hi, h.ident ha, ih ha]

theorem zipWith_lt {l m : List Nat} (hl : ∀ c ∈ l, c < 2 ^ w) (hm : ∀ c ∈ m, c < 2 ^ w) : ∀ c ∈ List.zipWith op l m, c < 2 ^ w := by
  intro c hc
  rw [← List.map_uncurry_zip_eq_zipWith] at hc
  obtain ⟨⟨a, b⟩, hab, rfl⟩ := List.mem_map.mp hc
  exact h.closed (hl a (List.of_mem_zip hab).1) (hm b (List.of_mem_zip hab).2)

/-- The tree of R42 gives what combining the elements in order gives. -/
theorem tree_eq {f : Nat → Nat → Nat × Nat} (hf : ∀ {a b}, a < 2 ^ w → b < 2 ^ w → f a b = (op a b, 0)) (k : Nat) (l : List Nat)
    (hlen : l.length = 2 ^ k) (hl : ∀ c ∈ l, c < 2 ^ w) : tree f k l 0 = (l.foldl op e, 0) := by
  induction k generalizing l with
  | zero =>
    obtain ⟨a, rfl⟩ := List.length_eq_one_iff.mp hlen
    have ha : a < 2 ^ w := hl a List.mem_cons_self
    rw [tree, List.headD_cons, List.foldl_cons, List.foldl_nil, h.comm h.ident_lt ha, h.ident ha]
  | succ k ih =>
    have hhalves : l.length = 2 ^ k + 2 ^ k := by rw [hlen, Nat.pow_succ, Nat.mul_two]
    have htake : (l.take (2 ^ k)).length = 2 ^ k := by rw [List.length_take, hhalves]; omega
    have hdrop : (l.drop (2 ^ k)).length = 2 ^ k := by rw [List.length_drop, hhalves]; omega
    have hlo : ∀ c ∈ l.take (2 ^ k), c < 2 ^ w := fun c hc => hl c (List.mem_of_mem_take hc)
    have hhi : ∀ c ∈ l.drop (2 ^ k), c < 2 ^ w := fun c hc => hl c (List.mem_of_mem_drop hc)
    have hzip : List.zipWith f (l.take (2 ^ k)) (l.drop (2 ^ k)) =
        (List.zipWith op (l.take (2 ^ k)) (l.drop (2 ^ k))).map fun y => (y, 0) := by
      rw [List.map_zipWith, ← List.map_uncurry_zip_eq_zipWith, ← List.map_uncurry_zip_eq_zipWith]
      refine List.map_congr_left fun p hp => ?_
      exact hf (hlo _ (List.of_mem_zip hp).1) (hhi _ (List.of_mem_zip hp).2)
    have hflags : ∀ m : List Nat, (m.map fun y => (y, 0)).foldl (fun (g : Nat) (r : Nat × Nat) => g ||| r.2) 0 = 0 := by
      intro m
      induction m with
      | nil => rfl
      | cons y m hm => rw [List.map_cons, List.foldl_cons, Nat.zero_or, hm]
    have hfst : ∀ m : List Nat, (m.map fun y => (y, 0)).map Prod.fst = m := by
      intro m
      rw [List.map_map]
      exact List.map_id m
    calc tree f (k + 1) l 0
        = tree f k (List.zipWith op (l.take (2 ^ k)) (l.drop (2 ^ k))) 0 := by
          rw [tree, hzip, hfst, hflags]
      _ = ((List.zipWith op (l.take (2 ^ k)) (l.drop (2 ^ k))).foldl op (op e e), 0) := by
          rw [ih _ (by rw [List.length_zipWith, htake, hdrop, Nat.min_self]) (h.zipWith_lt hlo hhi), h.ident h.ident_lt]
      _ = (op ((l.take (2 ^ k)).foldl op e) ((l.drop (2 ^ k)).foldl op e), 0) := by
          rw [h.foldl_zipWith (htake.trans hdrop.symm) hlo hhi h.ident_lt h.ident_lt]
      _ = (l.foldl op e, 0) := by
          rw [h.op_foldl_ident (h.foldl_lt h.ident_lt hlo) hhi, ← List.foldl_append, List.take_append_drop]

end Combines

/-- The smallest power of two at or above a number (R42). -/
theorem Machine.le_two_pow_log2Up (n : Nat) : n ≤ 2 ^ log2Up n := by
  rw [log2Up]
  split
  · omega
  · have := Nat.lt_log2_self (n := n - 1)
    omega

theorem filter_lt_range {m n : Nat} (h : m ≤ n) : (List.range n).filter (fun i => decide (i < m)) = List.range m := by
  obtain ⟨k, rfl⟩ := Nat.exists_eq_add_of_le h
  rw [List.range_add, List.filter_append, List.filter_eq_self.mpr, List.filter_eq_nil_iff.mpr, List.append_nil]
  · simp
  · simp

/-- `reduce` of R42 over an operation whose order does not matter: the active elements combined one after the other. -/
theorem Combines.reduceList_eq {w : Nat} {op : Nat → Nat → Nat} {e : Nat} (h : Combines w op e) {f : Nat → Nat → Nat × Nat}
    (hf : ∀ {a b}, a < 2 ^ w → b < 2 ^ w → f a b = (op a b, 0)) (vl : Nat) (p : Nat → Bool) (g : Nat → Nat) (hg : ∀ i, g i < 2 ^ w) :
    reduceList f e vl (fun i => if p i = true then some (g i) else none) = ((((List.range vl).filter p).map g).foldl op e, 0) := by
  have hpad : ∀ i, (if i < vl then (if p i = true then some (g i) else none).getD e else e) =
      if (decide (i < vl) && p i) = true then g i else e := by
    intro i
    by_cases hi : i < vl <;> by_cases hp : p i = true <;> simp [hi, hp]
  have hlt : ∀ c ∈ (List.range (2 ^ log2Up vl)).map (fun i => if (decide (i < vl) && p i) = true then g i else e), c < 2 ^ w := by
    intro c hc
    obtain ⟨i, -, rfl⟩ := List.mem_map.mp hc
    split
    · exact hg i
    · exact h.ident_lt
  simp only [reduceList, hpad]
  rw [h.tree_eq hf _ _ (by simp) hlt, h.foldl_map_ident _ g hg h.ident_lt, ← List.filter_filter, List.filter_comm, filter_lt_range]
  exact Machine.le_two_pow_log2Up vl

/-! ## Numbers of `w` bits -/

/-- On numbers of `w` bits the two readings of a signed pattern agree. -/
theorem toSigned_eq_sgn {w a : Nat} (h : a < 2 ^ w) : toSigned w a = sgn w a := by
  rw [toSigned, sgn, Nat.mod_eq_of_lt h]
  push_cast
  rfl

theorem sgn_injective {w a b : Nat} (ha : a < 2 ^ w) (hb : b < 2 ^ w) (h : sgn w a = sgn w b) : a = b := by
  have hp : ((2 ^ w : Nat) : Int) = (2 : Int) ^ w := by push_cast; rfl
  simp only [sgn, ← hp] at h
  generalize 2 ^ w = p at *
  split at h <;> split at h <;> omega

theorem combines_sum (w : Nat) : Combines w (fun a b => (a + b) % 2 ^ w) 0 where
  closed _ _ := Nat.mod_lt _ (Nat.two_pow_pos w)
  comm _ _ := by rw [Nat.add_comm]
  assoc _ _ _ := by rw [Nat.mod_add_mod, Nat.add_mod_mod, Nat.add_assoc]
  ident_lt := Nat.two_pow_pos w
  ident ha := Nat.mod_eq_of_lt ha

theorem combines_and (w : Nat) : Combines w (fun a b => a &&& b) (2 ^ w - 1) where
  closed ha _ := lt_of_le_of_lt Nat.and_le_left ha
  comm _ _ := Nat.and_comm _ _
  assoc _ _ _ := Nat.and_assoc _ _ _
  ident_lt := Nat.sub_lt (Nat.two_pow_pos w) Nat.one_pos
  ident ha := by rw [Nat.and_two_pow_sub_one_eq_mod, Nat.mod_eq_of_lt ha]

theorem combines_or (w : Nat) : Combines w (fun a b => a ||| b) 0 where
  closed := Nat.or_lt_two_pow
  comm _ _ := Nat.or_comm _ _
  assoc _ _ _ := Nat.or_assoc _ _ _
  ident_lt := Nat.two_pow_pos w
  ident _ := Nat.or_zero _

theorem combines_xor (w : Nat) : Combines w (fun a b => a ^^^ b) 0 where
  closed := Nat.xor_lt_two_pow
  comm _ _ := Nat.xor_comm _ _
  assoc _ _ _ := Nat.xor_assoc _ _ _
  ident_lt := Nat.two_pow_pos w
  ident _ := Nat.xor_zero _

/-- The number with the least key, where no two numbers have one key. -/
theorem combines_least {w : Nat} {key : Nat → Int} (hinj : ∀ {a b}, a < 2 ^ w → b < 2 ^ w → key a = key b → a = b) {e : Nat}
    (he : e < 2 ^ w) (hmax : ∀ {a}, a < 2 ^ w → key a ≤ key e) : Combines w (fun a b => if key b < key a then b else a) e where
  closed ha hb := by split <;> assumption
  comm {a b} ha hb := by
    split <;> split
    · omega
    · rfl
    · rfl
    · exact hinj ha hb (by omega)
  assoc {a b c} _ _ _ := by
    by_cases hba : key b < key a <;> by_cases hcb : key c < key b <;> by_cases hca : key c < key a <;>
      simp only [hba, hcb, hca, if_true, if_false] <;> omega
  ident_lt := he
  ident ha := if_neg (not_lt.mpr (hmax ha))

/-- Folds of operations that agree on `w`-bit numbers agree. -/
theorem foldl_congr_of_lt {w : Nat} {f g : Nat → Nat → Nat} (hfg : ∀ {a b}, a < 2 ^ w → b < 2 ^ w → f a b = g a b)
    (hg : ∀ {a b}, a < 2 ^ w → b < 2 ^ w → g a b < 2 ^ w) {a : Nat} (ha : a < 2 ^ w) {l : List Nat} (hl : ∀ b ∈ l, b < 2 ^ w) :
    l.foldl f a = l.foldl g a := by
  induction l generalizing a with
  | nil => rfl
  | cons b l ih =>
    obtain ⟨hb, hl⟩ := List.forall_mem_cons.mp hl
    rw [List.foldl_cons, List.foldl_cons, hfg ha hb, ih (hg ha hb) hl]

theorem foldl_add_mod (w a : Nat) (ha : a < 2 ^ w) (l : List Nat) : l.foldl (fun a b => (a + b) % 2 ^ w) a = (a + l.sum) % 2 ^ w := by
  induction l generalizing a with
  | nil => exact (Nat.mod_eq_of_lt ha).symm
  | cons b l ih =>
    rw [List.foldl_cons, ih _ (Nat.mod_lt _ (Nat.two_pow_pos w)), Nat.mod_add_mod, List.sum_cons, Nat.add_assoc]

namespace Machine

/-! ## Reductions (R42, R43, R174) -/

section
variable {s : State} {i : Instr} {x : V3}

theorem lastEl_lt (s : State) (x : V3) (j : Nat) : lastEl s x j < 2 ^ ewS s := by
  rw [lastEl]
  split
  · exact Nat.mod_lt _ (Nat.two_pow_pos _)
  · exact elem_lt _ _ _

theorem el_lt (s : State) (base : BitVec 6) (regs w j : Nat) : el s base regs w j < 2 ^ w := elem_lt _ _ _

theorem actives_lt (s : State) (x : V3) : ∀ a ∈ actives s x, a < 2 ^ ewS s := by
  intro a ha
  obtain ⟨j, -, rfl⟩ := List.mem_map.mp ha
  exact el_lt _ _ _ _ _

/-- What a reduction gives: the tree over the elements below VL, the inactive ones the identity, combined with the initial value. -/
def reduction (s : State) (x : V3) (op : Nat → Nat → Nat × Nat) (ident : Nat) : Nat × Nat :=
  let tree := reduceList op ident (vlS s)
    (fun j => if (s.me.vec.mask x.mask.toNat).getLsbD j then some (el s x.va (gS s) (ewS s) j) else none)
  let last := op (lastEl s x 0) tree.1
  (last.1, tree.2 ||| last.2)

/-- A member that the model executes as a reduction reduces. -/
theorem reduces_of_exec {op : View → Nat → Nat → Nat × Nat} {ident : View → Nat} {res fl : Nat}
    (hexec : exec i s = s.reduce i x op ident)
    (hres : (reduction s x (op s.view) (ident s.view)).1 % 2 ^ ewS s = res % 2 ^ ewS s)
    (hfl : (reduction s x (op s.view) (ident s.view)).2 = fl) : Reduces i s x res fl := by
  refine lanes_of_vecResult (vtEw_dvd _) [0] (fun _ => reduction s x (op s.view) (ident s.view)) (List.nodup_singleton 0)
    (fun _ j => List.mem_singleton) (fun _ _ _ => ⟨hres, hfl⟩) fun hfresh htrap => ?_
  rw [hexec, State.reduce, State.vec_of_begins hfresh.1]
  simp only [(view_of_anew hfresh.1.2.1).1, if_true]
  exact congrArg Host.Outcome.next (State.crossOp_of_fresh hfresh _ _ _ [0] _ htrap)

/-- An operation whose order does not matter reduces to its fold over the active elements, whatever the tree's shape. -/
theorem reduction_of_combines {op : Nat → Nat → Nat} {e : Nat} (h : Combines (ewS s) op e) {f : Nat → Nat → Nat × Nat}
    (hf : ∀ {a b}, a < 2 ^ ewS s → b < 2 ^ ewS s → f a b = (op a b, 0)) :
    reduction s x f e = ((actives s x).foldl op (lastEl s x 0), 0) := by
  have hlast := lastEl_lt s x 0
  have hactive := actives_lt s x
  have htree : reduceList f e (vlS s)
      (fun j => if (s.me.vec.mask x.mask.toNat).getLsbD j then some (el s x.va (gS s) (ewS s) j) else none) =
      ((actives s x).foldl op e, 0) :=
    h.reduceList_eq hf (vlS s) (fun j => (s.me.vec.mask x.mask.toNat).getLsbD j) (el s x.va (gS s) (ewS s)) fun j => el_lt _ _ _ _ _
  simp only [reduction, htree, hf hlast (h.foldl_lt h.ident_lt hactive), h.op_foldl_ident hlast hactive, Nat.or_zero]

theorem reduces_of_combines {op : View → Nat → Nat → Nat × Nat} {ident : View → Nat} {m : Nat → Nat → Nat}
    (hexec : exec i s = s.reduce i x op ident) (h : Combines (ewS s) m (ident s.view))
    (hop : ∀ {a b}, a < 2 ^ ewS s → b < 2 ^ ewS s → op s.view a b = (m a b, 0)) :
    Reduces i s x ((actives s x).foldl m (lastEl s x 0)) 0 :=
  have heq := reduction_of_combines (x := x) h hop
  reduces_of_exec hexec (by rw [heq]) (by rw [heq])

/-! ## The order of the elements of a type (R43) -/

/-- An element as the number its type reads it as. -/
def elemKey (s : State) (a : Nat) : Int := if vtCode s.cur.samp.vtype ≤ 3 then sgn (ewS s) a else (a : Int)

theorem elemKey_injective {a b : Nat} (ha : a < 2 ^ ewS s) (hb : b < 2 ^ ewS s) (h : elemKey s a = elemKey s b) : a = b := by
  simp only [elemKey] at h
  split at h
  · exact sgn_injective ha hb h
  · exact Int.ofNat_inj.mp h

theorem view_le_iff {a b : Nat} (ha : a < 2 ^ ewS s) (hb : b < 2 ^ ewS s) : s.view.le a b = true ↔ elemKey s a ≤ elemKey s b := by
  have hcode : isSignedInt s.view.code = decide (vtCode s.cur.samp.vtype ≤ 3) := rfl
  have hew : s.view.ew = ewS s := rfl
  simp only [View.le, elemKey, hcode, hew, toSigned_eq_sgn ha, toSigned_eq_sgn hb]
  by_cases h : vtCode s.cur.samp.vtype ≤ 3 <;> simp [h]

theorem minOp_eq {a b : Nat} (ha : a < 2 ^ ewS s) (hb : b < 2 ^ ewS s) :
    s.view.minOp a b = (if elemKey s b < elemKey s a then b else a, 0) := by
  rw [View.minOp]
  by_cases h : s.view.le a b = true
  · rw [if_pos h, if_neg (not_lt.mpr ((view_le_iff ha hb).mp h))]
  · rw [if_neg h, if_pos (not_le.mp fun hle => h ((view_le_iff ha hb).mpr hle))]

theorem maxOp_eq {a b : Nat} (ha : a < 2 ^ ewS s) (hb : b < 2 ^ ewS s) :
    s.view.maxOp a b = (if elemKey s a ≤ elemKey s b then b else a, 0) := by
  rw [View.maxOp]
  by_cases h : s.view.le a b = true
  · rw [if_pos h, if_pos ((view_le_iff ha hb).mp h)]
  · rw [if_neg h, if_neg fun hle => h ((view_le_iff ha hb).mpr hle)]

/-- The greater of two elements: which of two equal ones is taken does not matter. -/
theorem maxOp_eq_lt {a b : Nat} (ha : a < 2 ^ ewS s) (hb : b < 2 ^ ewS s) :
    s.view.maxOp a b = (if elemKey s a < elemKey s b then b else a, 0) := by
  rw [maxOp_eq ha hb]
  rcases lt_trichotomy (elemKey s a) (elemKey s b) with h | h | h
  · rw [if_pos h.le, if_pos h]
  · rw [elemKey_injective ha hb h, if_pos le_rfl, if_neg (lt_irrefl _)]
  · rw [if_neg (not_le.mpr h), if_neg h.asymm]

/-- The greatest and the least pattern of the type are so (R43): half of the patterns of `w` bits are negative. -/
theorem half_patterns (s : State) : ∃ p : Nat, 0 < p ∧ 2 ^ (ewS s - 1) = p ∧ 2 ^ ewS s = 2 * p ∧ (2 : Int) ^ ewS s = 2 * (p : Int) := by
  have hhalf : 2 ^ ewS s = 2 * 2 ^ (ewS s - 1) := (mul_pow_sub_one (vtEw_pos _).ne' 2).symm
  exact ⟨_, Nat.two_pow_pos _, rfl, hhalf, by exact_mod_cast hhalf⟩

theorem typeMax_eq (s : State) :
    s.view.typeMax = if vtCode s.cur.samp.vtype ≤ 3 then 2 ^ (ewS s - 1) - 1 else 2 ^ ewS s - 1 := by
  by_cases h : vtCode s.cur.samp.vtype ≤ 3
  · rw [if_pos h]; exact if_pos (decide_eq_true h)
  · rw [if_neg h]; exact if_neg fun hc => h (of_decide_eq_true hc)

theorem typeMin_eq (s : State) : s.view.typeMin = if vtCode s.cur.samp.vtype ≤ 3 then 2 ^ (ewS s - 1) else 0 := by
  by_cases h : vtCode s.cur.samp.vtype ≤ 3
  · rw [if_pos h]; exact if_pos (decide_eq_true h)
  · rw [if_neg h]; exact if_neg fun hc => h (of_decide_eq_true hc)

theorem elemKey_le_typeMax {a : Nat} (ha : a < 2 ^ ewS s) : elemKey s a ≤ elemKey s s.view.typeMax := by
  obtain ⟨p, hp, hsub, hpow, hint⟩ := half_patterns s
  rw [hpow] at ha
  rw [typeMax_eq]
  simp only [elemKey, sgn, hsub, hpow, hint]
  by_cases h : vtCode s.cur.samp.vtype ≤ 3
  · simp only [h, if_true]
    split <;> split <;> omega
  · simp only [h, if_false]
    omega

theorem elemKey_typeMin_le (a : Nat) : elemKey s s.view.typeMin ≤ elemKey s a := by
  obtain ⟨p, hp, hsub, hpow, hint⟩ := half_patterns s
  rw [typeMin_eq]
  simp only [elemKey, sgn, hsub, hpow, hint]
  by_cases h : vtCode s.cur.samp.vtype ≤ 3
  · simp only [h, if_true]
    split <;> split <;> omega
  · simp only [h, if_false]
    omega

theorem typeMax_lt : s.view.typeMax < 2 ^ ewS s := by
  obtain ⟨p, hp, hsub, hpow, -⟩ := half_patterns s
  rw [typeMax_eq, hsub, hpow]
  split <;> omega

theorem typeMin_lt : s.view.typeMin < 2 ^ ewS s := by
  obtain ⟨p, hp, hsub, hpow, -⟩ := half_patterns s
  rw [typeMin_eq, hsub, hpow]
  split <;> omega

theorem combines_min (s : State) : Combines (ewS s) (fun a b => if elemKey s b < elemKey s a then b else a) s.view.typeMax :=
  combines_least elemKey_injective typeMax_lt elemKey_le_typeMax

theorem combines_max (s : State) : Combines (ewS s) (fun a b => if elemKey s a < elemKey s b then b else a) s.view.typeMin := by
  have h := combines_least (w := ewS s) (key := fun a => -elemKey s a) (fun ha hb hab => elemKey_injective ha hb (neg_inj.mp hab)) typeMin_lt
    fun _ => neg_le_neg (elemKey_typeMin_le _)
  simpa only [neg_lt_neg_iff] using h

end

end Machine

/-- The integer reductions, whatever the tree's shape: each operation is commutative and associative, and has its identity. -/
theorem Claims.integerReductionResults : Claims.IntegerReductionResults := by
  intro s x
  refine ⟨?sum, ?min, ?max, ?and, ?or, ?xor⟩
  case sum =>
    rw [← foldl_add_mod _ _ (lastEl_lt s x 0)]
    exact reduces_of_combines (op := View.sumOp) (ident := fun _ => 0) rfl (combines_sum _) fun _ _ => rfl
  case min => exact reduces_of_combines (op := View.minOp) (ident := View.typeMax) rfl (combines_min s) minOp_eq
  case max => exact reduces_of_combines (op := View.maxOp) (ident := View.typeMin) rfl (combines_max s) maxOp_eq_lt
  case and =>
    exact reduces_of_combines (op := fun _ a b => (a &&& b, 0)) (ident := fun v => 2 ^ v.ew - 1) rfl (combines_and _) fun _ _ => rfl
  case or => exact reduces_of_combines (op := fun _ a b => (a ||| b, 0)) (ident := fun _ => 0) rfl (combines_or _) fun _ _ => rfl
  case xor => exact reduces_of_combines (op := fun _ a b => (a ^^^ b, 0)) (ident := fun _ => 0) rfl (combines_xor _) fun _ _ => rfl

/-- A selection of the elements below `n` up to one of them is the selection of the elements below that one. -/
theorem filter_range_split {n j : Nat} (p : Nat → Bool) (hj : j < n) (hp : p j = true) :
    ∃ rest, (List.range n).filter p = (List.range j).filter p ++ j :: rest := by
  obtain ⟨k, rfl⟩ := Nat.exists_eq_add_of_lt hj
  refine ⟨((List.range k).map (j + 1 + ·)).filter p, ?_⟩
  rw [show j + k + 1 = j + 1 + k by omega, List.range_add, List.range_succ, List.filter_append, List.filter_append,
    List.filter_cons_of_pos hp, List.filter_nil, List.append_assoc, List.singleton_append]

namespace Machine

/-! ## Scans (R175) -/

/-- The entry of an element in the running values of a scan: the operation on the value before it and its own. -/
theorem find_scanList (op : Nat → Nat → Nat × Nat) (val : Nat → Nat) (start j : Nat) (pre rest : List Nat) (hj : j ∉ pre) :
    (scanList op val start (pre ++ j :: rest)).find? (fun r => r.1 == j) =
      let before := (pre.map val).foldl (fun t a => (op t a).1) start
      some (j, (op before (val j)).1, (op before (val j)).2, before) := by
  induction pre generalizing start with
  | nil => simp [scanList]
  | cons i pre ih =>
    obtain ⟨hij, hpre⟩ := not_or.mp (fun h => hj (List.mem_cons.mpr h))
    rw [List.cons_append, scanList, List.find?_cons, beq_eq_false_iff_ne.mpr (Ne.symm hij)]
    exact ih _ hpre

section
variable {s : State} {i : Instr} {x : V3}

/-- What a scan gives for element `j`: the operation on the active elements before it, from the initial value on, and on its own. -/
def scanned (s : State) (x : V3) (op : Nat → Nat → Nat × Nat) (j : Nat) : Nat × Nat :=
  op ((((List.range j).filter (fun k => (s.me.vec.mask x.mask.toNat).getLsbD k)).map (el s x.va (gS s) (ewS s))).foldl
    (fun t a => (op t a).1) (lastEl s x 0)) (el s x.va (gS s) (ewS s) j)

/-- Operations that agree on the numbers of the elements' width scan alike. -/
theorem scanned_congr {f g : Nat → Nat → Nat × Nat} (hfg : ∀ {a b}, a < 2 ^ ewS s → b < 2 ^ ewS s → f a b = g a b)
    (hg : ∀ {a b}, a < 2 ^ ewS s → b < 2 ^ ewS s → (g a b).1 < 2 ^ ewS s) (j : Nat) : scanned s x f j = scanned s x g j := by
  have hlt : ∀ b ∈ ((List.range j).filter (fun k => (s.me.vec.mask x.mask.toNat).getLsbD k)).map (el s x.va (gS s) (ewS s)),
      b < 2 ^ ewS s := by
    intro b hb
    obtain ⟨k, -, rfl⟩ := List.mem_map.mp hb
    exact el_lt _ _ _ _ _
  have hfold := foldl_congr_of_lt (f := fun t a => (f t a).1) (g := fun t a => (g t a).1) (fun ha hb => by rw [hfg ha hb]) hg
    (lastEl_lt s x 0) hlt
  rw [scanned, scanned, hfold]
  exact hfg (foldl_lt_of_closed hg (lastEl_lt s x 0) hlt) (el_lt _ _ _ _ _)

/-- The entry of element `j` in the running values that a scan works from. -/
def scanEntry (s : State) (x : V3) (op : Nat → Nat → Nat × Nat) (j : Nat) : Nat × Nat × Nat :=
  (((scanList op (fun j => elem (s.view.src x.va) s.view.ew j) (s.lastSrc s.view x.kb (s.view.src x.vb) 0) (s.view.active x.mask)).find?
    (fun r => r.1 == j)).map Prod.snd).getD (0, 0, 0)

theorem scanEntry_active (hanew : Anew s) (op : Nat → Nat → Nat × Nat) {j : Nat} (hj : act s x.mask j) :
    ((scanEntry s x op j).1, (scanEntry s x op j).2.1) = scanned s x op j := by
  obtain ⟨rest, hsplit⟩ := filter_range_split (fun k => (s.me.vec.mask x.mask.toNat).getLsbD k) hj.1 hj.2
  have hnot : j ∉ (List.range j).filter (fun k => (s.me.vec.mask x.mask.toNat).getLsbD k) := by simp
  rw [scanEntry, view_active_of_anew hanew, hsplit, find_scanList _ _ _ _ _ _ hnot]
  rfl

/-- With no enabled trap raised, a scan performs every active element. -/
theorem run_scan (hfresh : Fresh i s) (op : Nat → Nat → Nat × Nat)
    (htrap : ∀ j ∈ s.view.active x.mask, trapClass (scanned s x op j).2 (trapEn s.cur.samp.fctl) = none) :
    s.view.run [] (fun j => ((scanEntry s x op j).1, (scanEntry s x op j).2.1)) (s.view.active x.mask) =
      ((s.view.active x.mask).map fun j => (j, scanned s x op j), .all) := by
  have hentry : ∀ j ∈ s.view.active x.mask, ((scanEntry s x op j).1, (scanEntry s x op j).2.1) = scanned s x op j :=
    fun j hj => scanEntry_active hfresh.1.2.1 op ((mem_view_active hfresh.1.2.1 x.mask j).mp hj)
  rw [View.run_of_full (view_full_of_fresh hfresh) (view_bounds_of_fresh hfresh) [] _ _ fun j hj => by rw [hentry j hj]; exact htrap j hj]
  exact congrArg (·, LaneEnd.all) (List.map_congr_left fun j hj => by rw [hentry j hj])

/-- A member that the model executes as a scan scans. -/
theorem scans_of_exec {op : View → Nat → Nat → Nat × Nat} {op' : Nat → Nat → Nat × Nat} (hexec : exec i s = s.scan i x op)
    (hop : ∀ j, scanned s x (op s.view) j = scanned s x op' j) : Scans i s x op' := by
  refine lanes_of_vecResult (vtEw_dvd _) (s.view.active x.mask) (scanned s x (op s.view)) (view_active_nodup _ _)
    (fun hfresh => mem_view_active hfresh.1.2.1 x.mask) (fun _ j _ => ?_) fun hfresh htrap => ?_
  · rw [hop j]
    exact ⟨rfl, rfl⟩
  · obtain ⟨hbegins, -, hidle⟩ := id hfresh
    have hkept : (s.view.resumed && !s.view.force) = false := by rw [(view_of_anew hbegins.2.1).2.1, Bool.false_and]
    have hrun := run_scan hfresh (op s.view) htrap
    simp only [scanEntry] at hrun
    rw [hexec, State.scan, State.vec_of_begins hbegins]
    simp only [hkept, Bool.false_eq_true, if_false, State.regsBusy_of_empty hidle,
      View.oldReady_of_full (view_full_of_fresh hfresh) (view_bounds_of_fresh hfresh), Bool.not_true, Bool.or_self, State.whole,
      View.wholeMeets_of_full (view_full_of_fresh hfresh) (view_bounds_of_fresh hfresh), hrun]
    rfl

end

end Machine

theorem Claims.floatReductionAndScanResults : Claims.FloatReductionAndScanResults := by
  intro s x
  refine ⟨?sum, ?max, ?scan, ?fscan, ?scanmax⟩
  case sum => exact reduces_of_exec (op := fun v a b => v.ffmt.add rne a b) (ident := fun v => v.ffmt.signBit true) rfl rfl rfl
  case max => exact reduces_of_exec (op := fun v a b => v.ffmt.minMax true a b) (ident := fun v => v.ffmt.nanBits) rfl rfl rfl
  case scan => exact scans_of_exec (op := View.sumOp) rfl fun _ => rfl
  case fscan => exact scans_of_exec (op := fun v a b => v.ffmt.add rne a b) rfl fun _ => rfl
  case scanmax =>
    refine scans_of_exec (op := View.maxOp) rfl (scanned_congr maxOp_eq fun {a b} ha hb => ?_)
    show (if elemKey s a ≤ elemKey s b then b else a) < 2 ^ ewS s
    split <;> assumption

/-- Settles O50: the integer reductions combine the active elements in any order; the floating-point ones follow the tree, and the scans
the order of the elements. -/
theorem reductionAndScanResults : Obligations.ReductionAndScanResults :=
  ⟨Claims.integerReductionResults, Claims.floatReductionAndScanResults⟩

end Sys2Proof
end

section
/-! PROOFS. Exact sums of integer products in a matrix accumulator (R45, R46). -/

namespace Sys2Proof
open Machine Claims
namespace Machine

/-! ## Exact integer sums (R45, R46) -/

theorem scaled_zero (neg : Bool) (m : Nat) : scaled neg m 0 0 = if neg = true then -(m : Int) else m := by
  simp [scaled]

theorem mxProd_intTerm (a b : Int) :
    mxProd (intTerm a) (intTerm b) = .fin (decide (a < 0) != decide (b < 0)) (a.natAbs * b.natAbs) 0 := rfl

theorem toInt_mxProd_intTerm (a b : Int) : (mxProd (intTerm a) (intTerm b)).toInt = a * b := by
  have habs : ((a.natAbs * b.natAbs : Nat) : Int) = |a| * |b| := by push_cast; rfl
  show scaled (decide (a < 0) != decide (b < 0)) (a.natAbs * b.natAbs) 0 0 = a * b
  rw [scaled_zero, habs]
  by_cases ha : a < 0 <;> by_cases hb : b < 0
  · simp [ha, hb, abs_of_neg ha, abs_of_neg hb]
  · simp [ha, hb, abs_of_neg ha, abs_of_nonneg (not_lt.mp hb)]
  · simp [ha, hb, abs_of_nonneg (not_lt.mp ha), abs_of_neg hb]
  · simp [ha, hb, abs_of_nonneg (not_lt.mp ha), abs_of_nonneg (not_lt.mp hb)]

/-- Terms that are whole numbers: finite, with exponent 0. -/
def IsWhole (v : Fv) : Prop := ∃ neg m, v = .fin neg m 0

/-- What a term does to the exponent that a sum is a multiple of. -/
def lowestExp (q : Int) (v : Fv) : Int := match v with | .fin _ m e => if m = 0 then q else min q e | _ => q

/-- What a term adds to a sum in units of 2^q. -/
def addScaled (q t : Int) (v : Fv) : Int := match v with | .fin a m e => t + (if m = 0 then 0 else scaled a m e q) | _ => t

/-- A negative term. -/
def isNegative (v : Fv) : Bool := match v with | .fin a _ _ => a | _ => false

/-- The sign of an infinite term. -/
def infSign (v : Fv) : Option Bool := match v with | .inf n => some n | _ => none

theorem finSum_eq (l : List Fv) :
    finSum l =
      if l.foldl (addScaled (l.foldl lowestExp 0)) 0 = 0 then .fin (!l.isEmpty && l.all isNegative) 0 0
      else .fin (decide (l.foldl (addScaled (l.foldl lowestExp 0)) 0 < 0)) (l.foldl (addScaled (l.foldl lowestExp 0)) 0).natAbs
        (l.foldl lowestExp 0) := rfl

theorem foldl_lowestExp {l : List Fv} (hl : ∀ v ∈ l, IsWhole v) : l.foldl lowestExp 0 = 0 := by
  induction l with
  | nil => rfl
  | cons v l ih =>
    obtain ⟨⟨neg, m, rfl⟩, hrest⟩ := List.forall_mem_cons.mp hl
    have hv : lowestExp 0 (.fin neg m 0) = 0 := by simp [lowestExp]
    rw [List.foldl_cons, hv, ih hrest]

theorem foldl_addScaled {l : List Fv} (hl : ∀ v ∈ l, IsWhole v) (t : Int) : l.foldl (addScaled 0) t = t + (l.map Fv.toInt).sum := by
  induction l generalizing t with
  | nil => simp
  | cons v l ih =>
    obtain ⟨⟨neg, m, rfl⟩, hrest⟩ := List.forall_mem_cons.mp hl
    have hv : addScaled 0 t (.fin neg m 0) = t + Fv.toInt (.fin neg m 0) := by
      show t + (if m = 0 then 0 else scaled neg m 0 0) = t + scaled neg m 0 0
      split
      · next h => rw [h]; cases neg <;> rfl
      · rfl
    rw [List.foldl_cons, hv, ih hrest, List.map_cons, List.sum_cons, Int.add_assoc]

/-- Their sum loses nothing: it is the sum of the integers they are. -/
theorem toInt_finSum {l : List Fv} (hl : ∀ v ∈ l, IsWhole v) : (finSum l).toInt = (l.map Fv.toInt).sum := by
  rw [finSum_eq, foldl_lowestExp hl, foldl_addScaled hl, Int.zero_add]
  generalize (l.map Fv.toInt).sum = n
  split
  · next h =>
    show scaled _ 0 0 0 = n
    rw [scaled_zero, h]
    split <;> rfl
  · show scaled (decide (n < 0)) n.natAbs 0 0 = n
    simp only [scaled_zero, decide_eq_true_eq]
    split <;> omega

theorem mxSum_eq (l : List Fv) :
    mxSum l =
      if l.any Fv.isNan || ((l.filterMap infSign).contains true && (l.filterMap infSign).contains false) then .nan false
      else match l.filterMap infSign with
        | n :: _ => .inf n
        | [] => finSum l := rfl

theorem mxSum_of_whole {l : List Fv} (hl : ∀ v ∈ l, IsWhole v) : mxSum l = finSum l := by
  have hinf : l.filterMap infSign = [] := by
    rw [List.filterMap_eq_nil_iff]
    intro v hv
    obtain ⟨neg, m, rfl⟩ := hl v hv
    rfl
  have hnan : l.any Fv.isNan = false := by
    rw [List.any_eq_false]
    intro v hv
    obtain ⟨neg, m, rfl⟩ := hl v hv
    exact Bool.false_ne_true
  rw [mxSum_eq, hinf, hnan]
  rfl

theorem mxAcc_i32 (c : Nat) (t : Fv) : mxAcc true c t = wrap32 (toSigned 32 c + t.toInt) := rfl

/-- An i32 accumulator takes the exact sum of integer products, wrapped once (R45, R46). -/
theorem mxAcc_intTerms (l : List (Int × Int)) (c : Nat) (hc : c < 2 ^ 32) :
    mxAcc true c (mxSum (l.map fun p => mxProd (intTerm p.1) (intTerm p.2))) =
      (wrapN 32 (sgn 32 c + (l.map fun p => p.1 * p.2).sum),
        if sgn 32 c + (l.map fun p => p.1 * p.2).sum < -2 ^ 31 ∨ 2 ^ 31 ≤ sgn 32 c + (l.map fun p => p.1 * p.2).sum then 4 else 0) := by
  have hwhole : ∀ v ∈ l.map fun p => mxProd (intTerm p.1) (intTerm p.2), IsWhole v := by
    intro v hv
    obtain ⟨p, -, rfl⟩ := List.mem_map.mp hv
    exact ⟨_, _, mxProd_intTerm p.1 p.2⟩
  have hterms : (l.map fun p => mxProd (intTerm p.1) (intTerm p.2)).map Fv.toInt = l.map fun p => p.1 * p.2 := by
    rw [List.map_map]
    exact List.map_congr_left fun p _ => toInt_mxProd_intTerm p.1 p.2
  rw [mxSum_of_whole hwhole, mxAcc_i32, toInt_finSum hwhole, hterms, toSigned_eq_sgn hc]
  rfl

end Machine

end Sys2Proof
end

section
/-! PROOFS. The slices of a matrix operation (R286 to R294): what a ready slice leaves of its strand, and the row and column sums. -/

namespace Sys2Proof
open Machine Claims

/-- An update of one strand changes nothing else. -/
theorem onlyStrand_updAt (s : State) (src : Nat) (f : Strand → Strand) : OnlyStrand src s (s.updAt src f) :=
  ⟨rfl, fun j hj => s.strand_updAt_ne src j f hj⟩

theorem OnlyStrand_trans {k : Nat} {s t u : State} (h : OnlyStrand k s t) (g : OnlyStrand k t u) : OnlyStrand k s u := by
  obtain ⟨hrest, hother⟩ := h
  obtain ⟨grest, gother⟩ := g
  refine ⟨?_, fun j hj => (gother j hj).trans (hother j hj)⟩
  have := congrArg (fun v : State => { v with strands := s.strands }) grest
  exact this.trans hrest

namespace Machine

/-! ## The bytes an operation reads again (R290) -/

theorem Memory.take_run (m : Memory) (a k n : Nat) (h : k ≤ n) : (Memory.run m a n).take k = Memory.run m a k := by
  induction n generalizing m a k with
  | zero => rw [Nat.le_zero.mp h]; cases m <;> rfl
  | succ n ih =>
    cases k with
    | zero => cases m <;> rfl
    | succ k =>
      have hk := Nat.le_of_succ_le_succ h
      cases m with
      | nil => rw [Memory.run, Memory.run, List.take_succ_cons, ih _ _ _ hk]
      | cons c r =>
        obtain ⟨b, x⟩ := c
        rw [Memory.run, Memory.run]
        split
        · rw [List.take_succ_cons, ih _ _ _ hk]
        · rw [List.take_succ_cons, ih _ _ _ hk]

theorem Memory.take_readBytes (m : Memory) (a k n : Nat) (h : k ≤ n) : (Memory.readBytes m a n).take k = Memory.readBytes m a k :=
  Memory.take_run _ _ _ _ h

/-- A field that lies within the first bytes is the same field. -/
theorem cut_take (bs : List Byte) (off n k : Nat) (h : off + n ≤ k) : cut (bs.take k) off n = cut bs off n := by
  rw [cut, cut, List.drop_take, List.take_take, Nat.min_eq_left (by omega)]

/-- A slot's header lies in its first 64 bytes. -/
theorem slotHeader_take (bs : List Byte) : slotHeader (bs.take 64) = slotHeader bs := by
  simp (disch := omega) only [slotHeader, cutN, zeroAt, cut_take]

/-! ## An operation that begins (R290, R293) -/

/-- The accumulators an operation goes on with: `mmaz` starts from zero. -/
def startAcc (o : MxOp) : List VReg := if (!o.begun && o.kind == .mmaz) = true then o.acc.map (fun _ => 0) else o.acc

theorem start_eq (o : MxOp) (bs : List Byte) :
    o.start bs = { o with acc := startAcc o, begun := true, hdr := if o.hdr.isEmpty then bs.take 64 else o.hdr } := by
  unfold MxOp.start MxOp.cleared startAcc
  split <;> rfl

theorem header_start (o : MxOp) (m : Memory) (a : Nat) :
    (o.start (Memory.readBytes m a 64)).header (Memory.readBytes m a 32768) = o.header (Memory.readBytes m a 32768) := by
  have hhdr : (o.start (Memory.readBytes m a 64)).hdr = if o.hdr.isEmpty = true then Memory.readBytes m a 64 else o.hdr := by
    rw [start_eq]
    dsimp only
    rw [List.take_of_length_le (by simp)]
  have hread : (Memory.readBytes m a 64).isEmpty = false := by
    rw [List.isEmpty_eq_false_iff_exists_mem]
    exact List.exists_mem_of_length_pos (by simp)
  rw [MxOp.header, MxOp.header, hhdr]
  by_cases h : o.hdr.isEmpty = true
  · simp only [h, hread, if_true, Bool.false_eq_true, if_false]
    rw [← slotHeader_take (Memory.readBytes m a 32768), Memory.take_readBytes _ _ _ _ (by decide)]
  · simp only [h, Bool.false_eq_true, if_false]

theorem cols_start (o : MxOp) (vlb : Nat) (m : Memory) (a : Nat) :
    (o.start (Memory.readBytes m a 64)).cols vlb (Memory.readBytes m a 32768) = o.cols vlb (Memory.readBytes m a 32768) := by
  unfold MxOp.cols
  rw [header_start, start_eq]
  rfl

/-! ## The elements of a slice (R45, R46, R294) -/

/-- The elements of a slice, none of which stops: each accumulator takes its result, and the classes raised are kept in order. -/
theorem mxElems_untrapped (o : MxOp) (n trapen : Nat) (rows cols : List (List Fv)) (res : Nat → Nat × Nat) (hex : o.exempt = false)
    (l : List Nat) (hl : l.Nodup) (acc : Nat) (flags : List (Nat × Nat))
    (hres : ∀ e ∈ l, mxAcc o.i32 (elem acc 32 e) (mxSum (List.zipWith mxProd (rows.getD (e / n) []) (cols.getD (e % n) []))) = res e)
    (htrap : ∀ e ∈ l, trapClass (res e).2 trapen = none) :
    mxElems o n trapen rows cols acc flags l =
      ((l.map fun e => (e, res e)).foldl (fun g r => setElem g 32 r.1 r.2.1) acc,
        flags ++ ((l.map fun e => (e, (res e).2)).filter fun r => r.2 ≠ 0), none) := by
  induction l generalizing acc flags with
  | nil => simp [mxElems]
  | cons e l ih =>
    obtain ⟨he, hl⟩ := List.nodup_cons.mp hl
    obtain ⟨hese, hres⟩ := List.forall_mem_cons.mp hres
    obtain ⟨hte, htrap⟩ := List.forall_mem_cons.mp htrap
    have hrest : ∀ e' ∈ l, mxAcc o.i32 (elem (setElem acc 32 e (res e).1) 32 e')
        (mxSum (List.zipWith mxProd (rows.getD (e' / n) []) (cols.getD (e' % n) []))) = res e' := by
      intro e' he'
      have hne : e' ≠ e := fun h => he (h ▸ he')
      rw [elem_setElem_ne _ _ _ _ _ hne]
      exact hres e' he'
    have hstep : mxElems o n trapen rows cols acc flags (e :: l) =
        mxElems o n trapen rows cols (setElem acc 32 e (res e).1) (if (res e).2 = 0 then flags else flags ++ [(e, (res e).2)]) l := by
      rw [mxElems]
      simp only [hese, hex, hte, Bool.false_and, Bool.false_eq_true, if_false]
    rw [hstep, ih hl _ _ hrest htrap, List.map_cons, List.foldl_cons, List.map_cons]
    by_cases hz : (res e).2 = 0
    · simp [hz]
    · simp [hz]

theorem creditAll_nonzero (x : VecState) (l : List (Nat × Nat × Nat)) :
    ((l.map fun r => (r.1, r.2.2)).filter fun r => r.2 ≠ 0).foldl (fun x r => x.credit r.1 r.2) x = x.creditAll l := by
  induction l generalizing x with
  | nil => rfl
  | cons r l ih =>
    have hstep : x.creditAll (r :: l) = (x.credit r.1 r.2.2).creditAll l := rfl
    rw [hstep, ← ih, List.map_cons]
    by_cases hz : r.2.2 = 0
    · rw [List.filter_cons_of_neg (by simpa using hz), hz, VecState.credit, if_pos rfl]
    · rw [List.filter_cons_of_pos (by simpa using hz), List.foldl_cons]

/-! ## Accumulators that are brought to their registers (R66, R293) -/

/-- Bringing accumulators to their registers changes vector registers and kept states alone. -/
theorem mxLand_only (t : Strand) (o : MxOp) (vlb n : Nat) : { t.mxLand o vlb n with vec := t.vec, viq := t.viq } = t := by
  unfold Strand.mxLand
  generalize List.range o.acc.length = l
  induction l generalizing t with
  | nil => rfl
  | cons j l ih =>
    rw [List.foldl_cons]
    refine (congrArg (fun u : Strand => { u with vec := t.vec, viq := t.viq }) (ih _)).trans ?_
    dsimp only
    split <;> rfl

theorem vec_mxLand (t : Strand) (o : MxOp) (vlb n : Nat) :
    (t.mxLand o vlb n).vec =
      (List.range o.acc.length).foldl (fun x j => if o.live.contains (o.vd + j) = true then o.accInto vlb n j x else x) t.vec := by
  unfold Strand.mxLand
  generalize List.range o.acc.length = l
  induction l generalizing t with
  | nil => rfl
  | cons j l ih =>
    rw [List.foldl_cons, List.foldl_cons, ih]
    congr 1
    dsimp only
    split <;> rfl

section
variable {o : MxOp} {vlb : Nat}

/-- An accumulator of an operation that is complete fills its register. -/
theorem accInto_all {j : Nat} (hj : j < o.acc.length) (x : VecState) :
    o.accInto vlb (o.acc.length * (vlb / 512)) j x =
      { x with v := x.v.set (o.vd + j) (o.acc.getD j 0), full := x.full.set (o.vd + j) 0xFFFF } := by
  have hk : min (vlb / 512) (o.acc.length * (vlb / 512) - j * (vlb / 512)) = vlb / 512 := by
    rw [← Nat.sub_mul]
    exact Nat.min_eq_left (Nat.le_mul_of_pos_left _ (by omega))
  simp only [MxOp.accInto, hk, if_true]

/-- The vector registers once a complete operation has brought all its accumulators. -/
theorem vec_mxLand_all (t : Strand) (hlive : o.live = (List.range o.acc.length).map (o.vd + ·)) :
    (t.mxLand o vlb (o.acc.length * (vlb / 512))).vec =
      { t.vec with
        v := (List.range o.acc.length).foldl (fun v j => v.set (o.vd + j) (o.acc.getD j 0)) t.vec.v
        full := (List.range o.acc.length).foldl (fun f j => f.set (o.vd + j) 0xFFFF) t.vec.full } := by
  rw [vec_mxLand]
  have hupto : ∀ m, m ≤ o.acc.length →
      (List.range m).foldl (fun x j => if o.live.contains (o.vd + j) = true then o.accInto vlb (o.acc.length * (vlb / 512)) j x else x)
        t.vec =
      { t.vec with
        v := (List.range m).foldl (fun v j => v.set (o.vd + j) (o.acc.getD j 0)) t.vec.v
        full := (List.range m).foldl (fun f j => f.set (o.vd + j) 0xFFFF) t.vec.full } := by
    intro m hm
    induction m with
    | zero => rfl
    | succ m ih =>
      have hlast : o.live.contains (o.vd + m) = true := by
        rw [hlive, List.contains_iff_mem]
        exact List.mem_map_of_mem (List.mem_range.mpr (by omega))
      rw [List.range_succ, List.foldl_append, ih (by omega), List.foldl_cons, List.foldl_nil, if_pos hlast, accInto_all (by omega),
        List.foldl_append, List.foldl_append]
      rfl
  exact hupto _ le_rfl

variable (t : Strand) (hlive : o.live = (List.range o.acc.length).map (o.vd + ·))

theorem mxDone_bind : (t.mxDone o vlb).bind = t.bind :=
  (congrArg Strand.bind (mxLand_only t o vlb (o.acc.length * (vlb / 512))) :)

/-- A complete operation leaves the queue, and its number is complete. -/
theorem mxDone_spec :
    (t.mxDone o vlb).mxq = t.mxq.drop 1 ∧ (t.mxDone o vlb).csr.mxprog = 0 ∧
      (t.mxDone o vlb).tlMatrix = { t.tlMatrix with complete := t.tlMatrix.complete ++ [o.num] } :=
  ⟨rfl, rfl, rfl⟩

include hlive

/-- Its registers are full, and hold the accumulators. -/
theorem fullOf_mxDone {j : Nat} (hj : j < o.acc.length) : (t.mxDone o vlb).vec.fullOf (o.vd + j) = 0xFFFF := by
  show (t.mxLand o vlb (o.acc.length * (vlb / 512))).vec.fullOf (o.vd + j) = 0xFFFF
  rw [vec_mxLand_all t hlive]
  exact (Tbl.getD_foldl_set (fun _ => (0xFFFF : BitVec 16)) o.vd o.acc.length (o.vd + j) t.vec.full 0xFFFF).trans
    (if_pos ⟨by omega, by omega⟩)

theorem grp_mxDone : (t.mxDone o vlb).vec.grp vlb o.vd o.acc.length = joinRegs vlb o.acc := by
  show (t.mxLand o vlb (o.acc.length * (vlb / 512))).vec.grp vlb o.vd o.acc.length = joinRegs vlb o.acc
  rw [vec_mxLand_all t hlive, VecState.grp_eq_joinRegs]
  congr 1
  refine List.ext_getElem (by simp [VecState.regs]) fun j hj hj' => ?_
  have hreg := Tbl.getD_foldl_set (fun j => o.acc.getD j 0) o.vd o.acc.length (o.vd + j) t.vec.v (0 : VReg)
  rw [if_pos ⟨by omega, by omega⟩, Nat.add_sub_cancel_left] at hreg
  simp only [VecState.regs, List.getElem_map, List.getElem_range, VecState.reg]
  rw [hreg, List.getD_eq_getElem _ _ hj']

theorem fstat_mxDone : (t.mxDone o vlb).vec.fstat = t.vec.fstat := by
  show (t.mxLand o vlb (o.acc.length * (vlb / 512))).vec.fstat = t.vec.fstat
  rw [vec_mxLand_all t hlive]

end

/-! ## A slice of an operation -/

theorem setMx_of_mxq {t : Strand} {o p : MxOp} {rest : List MxOp} (h : t.mxq = o :: rest) : t.setMx p = { t with mxq := p :: rest } := by
  rw [Strand.setMx, h]

theorem setMx_bind (t : Strand) (p : MxOp) : (t.setMx p).bind = t.bind := by
  rw [Strand.setMx]
  split <;> rfl

/-- Whether a strand's group is leaving its slots depends on the groups and on what the strand is bound to. -/
theorem leaving_updAt (s : State) (src : Nat) {f : Strand → Strand} (hf : (f (s.strand src)).bind = (s.strand src).bind) :
    (s.updAt src f).leaving src = s.leaving src := by
  have hgroup : (f (s.strand src)).group = (s.strand src).group := by rw [Strand.group, Strand.group, hf]
  rw [State.leaving, State.leaving, State.updAt_group, State.strand_updAt, hgroup]

/-- What an accumulator element holds before a slice: zero where `mmaz` begins. -/
def sliceOld (vlb : Nat) (o : MxOp) (e : Nat) : Nat :=
  if o.begun = false ∧ o.kind = .mmaz then 0 else elem (joinRegs vlb o.acc) 32 e

/-- What a slice gives accumulator element `e`, with the classes it raises. -/
def sliceResult (s : State) (src : Nat) (o : MxOp) (e : Nat) : Nat × Nat :=
  mxAcc o.i32 (sliceOld (s.vlb src) o e)
    (mxSum (List.zipWith mxProd (inSlice o (mxRow s src o (e / o.n (s.vlb src)))) (inSlice o (mxCol s src o (e % o.n (s.vlb src))))))

theorem elem_startAcc (vlb : Nat) (o : MxOp) (e : Nat) : elem (joinRegs vlb (startAcc o)) 32 e = sliceOld vlb o e := by
  rw [startAcc, sliceOld]
  by_cases h : o.begun = false ∧ o.kind = .mmaz
  · rw [if_pos h, if_pos (by simp [h]), joinRegs_map_zero, elem_zero_left]
  · rw [if_neg h, if_neg]
    intro h'
    simp only [Bool.and_eq_true, Bool.not_eq_true', beq_iff_eq] at h'
    exact h h'

/-- The accumulators after a slice. -/
def sliceAcc (s : State) (src : Nat) (o : MxOp) : Nat :=
  ((List.range (16 * o.n (s.vlb src))).map fun e => (e, sliceResult s src o e)).foldl (fun g r => setElem g 32 r.1 r.2.1)
    (joinRegs (s.vlb src) (startAcc o))

theorem elem_sliceAcc (s : State) (src : Nat) (o : MxOp) {e : Nat} (he : e < 16 * o.n (s.vlb src)) :
    elem (sliceAcc s src o) 32 e = (sliceResult s src o e).1 % 2 ^ 32 := by
  rw [sliceAcc, elem_foldl_setElem_map _ List.nodup_range, if_pos (List.mem_range.mpr he)]

/-- The operation after a slice that no trap stops. -/
def sliceNext (s : State) (src : Nat) (o : MxOp) : MxOp :=
  { o.start (Memory.readBytes (s.strand src).slots (o.slot * 32768) 64) with
    acc := splitRegs (s.vlb src) o.regs (sliceAcc s src o), slice := o.slice + 1, elem := 0, exempt := false }

/-- The strand after such a slice: its flags are credited, and the operation goes on or is complete. -/
def sliceStrand (s : State) (src : Nat) (o : MxOp) (u : Strand) : Strand :=
  let t := { u with vec := u.vec.creditAll ((List.range (16 * o.n (s.vlb src))).map fun e => (e, sliceResult s src o e)) }
  if o.slice + 1 < o.slices (s.vlb src) then t.setMx (sliceNext s src o) else t.mxDone (sliceNext s src o) (s.vlb src)

section
variable {s : State} {src : Nat} {o : MxOp} {rest : List MxOp}

/-- An engine that can take a slice takes it (R293, R297). -/
theorem exec_matrixSlice_of_ready (h : SliceReady s src o rest) : exec (.matrixSlice src .ok) s = .next (s.goMx src o []) := by
  obtain ⟨hmxq, hheld, hcap, hslot, hworks, -⟩ := h
  have hsome : o.captured.isNone = false := by
    cases hc : o.captured with
    | none => exact absurd hc hcap
    | some c => rfl
  show execMatrixSlice src .ok s = _
  simp only [execMatrixSlice, hmxq, hheld, hsome, hslot, hworks, Bool.or_self, Bool.false_eq_true, if_false]

theorem goMx_of_ready (h : SliceReady s src o rest) (hkind : o.kind ≠ .mxsum) :
    s.goMx src o [] = s.runSlice src (o.start (Memory.readBytes (s.strand src).slots (o.slot * 32768) 64)) := by
  obtain ⟨-, -, -, -, -, -, -, -, -, -, -, hcheck⟩ := h
  simp only [State.goMx, hcheck, hkind, if_false]
  rfl

/-- The rows and columns of the operation, cut to the slice. -/
theorem inSlice_nil (o : MxOp) : inSlice o [] = [] := by rw [inSlice, List.drop_nil, List.take_nil]

theorem getD_map_inSlice (o : MxOp) (l : List (List Fv)) (i : Nat) : (l.map (inSlice o)).getD i [] = inSlice o (l.getD i []) := by
  rw [← List.getD_map (f := inSlice o), inSlice_nil]

/-- The convoy's trap enables, as an operation of the matrix queue takes them (R26). -/
def mxTraps (s : State) (src : Nat) (o : MxOp) : Nat :=
  trapEn ((((s.strand src).viq.find? (fun c => c.seq == o.seq)).map Convoy.samp).getD {}).fctl

/-- What a slice leaves whose elements come to an end. -/
theorem runSlice_of_mxElems {p q : MxOp} {acc : Nat} {flags : List (Nat × Nat)}
    (h : mxElems p (p.n (s.vlb src)) (mxTraps s src p) ((p.rows (s.vlb src)).map (inSlice p))
      (((p.cols (s.vlb src) (slotBytes s src p)).getD []).map (inSlice p)) (joinRegs (s.vlb src) p.acc) []
      ((List.range (16 * p.n (s.vlb src))).filter (fun e => decide (p.elem ≤ e))) = (acc, flags, none))
    (hq : q = { p with acc := splitRegs (s.vlb src) p.regs acc, slice := p.slice + 1, elem := 0, exempt := false }) :
    s.runSlice src p =
      let u := (s.updAt src fun t => t.creditMx flags).updAt src fun t =>
        if q.slice < q.slices (s.vlb src) then t.setMx q else t.mxDone q (s.vlb src)
      if u.leaving src then u.updAt src Strand.parkMx else u := by
  have hcut : inSlice p = fun l => (l.drop (p.slice * p.pairing.1)).take p.pairing.1 := rfl
  simp only [hcut, slotBytes, mxTraps] at h
  simp only [State.runSlice, h, hq]

/-- The elements of the slice that a ready operation takes. -/
theorem mxElems_of_ready (h : SliceReady s src o rest)
    (htrap : ∀ e, e < 16 * o.n (s.vlb src) → trapClass (sliceResult s src o e).2 (mxTraps s src o) = none) :
    let p := o.start (Memory.readBytes (s.strand src).slots (o.slot * 32768) 64)
    mxElems p (p.n (s.vlb src)) (mxTraps s src p) ((p.rows (s.vlb src)).map (inSlice p))
        (((p.cols (s.vlb src) (slotBytes s src p)).getD []).map (inSlice p)) (joinRegs (s.vlb src) p.acc) []
        ((List.range (16 * p.n (s.vlb src))).filter (fun e => decide (p.elem ≤ e))) =
      (sliceAcc s src o,
        (((List.range (16 * o.n (s.vlb src))).map fun e => (e, (sliceResult s src o e).2)).filter fun r => r.2 ≠ 0), none) := by
  intro p
  obtain ⟨-, -, -, -, -, -, helem, hexempt, -⟩ := h
  have hp : p = { o with acc := startAcc o, begun := true, hdr := p.hdr } := by
    show o.start _ = { o with acc := startAcc o, begun := true, hdr := (o.start _).hdr }
    rw [start_eq]
  have hcols : p.cols (s.vlb src) (slotBytes s src p) = o.cols (s.vlb src) (slotBytes s src o) := by
    have hbytes : slotBytes s src p = slotBytes s src o := by rw [slotBytes, hp]; rfl
    rw [hbytes]
    exact cols_start o _ _ _
  have hall : (List.range (16 * p.n (s.vlb src))).filter (fun e => decide (p.elem ≤ e)) = List.range (16 * o.n (s.vlb src)) := by
    have hzero : p.elem = 0 := by rw [hp]; exact helem
    have hn : p.n (s.vlb src) = o.n (s.vlb src) := by rw [hp]; rfl
    rw [hzero, hn, List.filter_eq_self]
    exact fun e _ => decide_eq_true (Nat.zero_le e)
  rw [hall, hcols]
  refine (mxElems_untrapped p _ _ _ _ (sliceResult s src o) (by rw [hp]; exact hexempt) _ List.nodup_range _ [] (fun e _ => ?result)
    fun e he => ?untrapped).trans ?_
  case untrapped =>
    have htraps : mxTraps s src p = mxTraps s src o := by rw [mxTraps, hp]; rfl
    rw [htraps]
    exact htrap e (List.mem_range.mp he)
  case result =>
    rw [hp]
    show mxAcc o.i32 (elem (joinRegs (s.vlb src) (startAcc o)) 32 e) (mxSum (List.zipWith mxProd
      (((o.rows (s.vlb src)).map (inSlice o)).getD (e / o.n (s.vlb src)) [])
      ((((o.cols (s.vlb src) (slotBytes s src o)).getD []).map (inSlice o)).getD (e % o.n (s.vlb src)) []))) = _
    rw [elem_startAcc, getD_map_inSlice, getD_map_inSlice]
    rfl
  rw [hp]
  rfl

/-- A slice that no trap stops: what it leaves of the strand, and that it changes nothing else. -/
theorem runSlice_of_ready (h : SliceReady s src o rest)
    (htrap : ∀ e, e < 16 * o.n (s.vlb src) → trapClass (sliceResult s src o e).2 (mxTraps s src o) = none) :
    ∃ t, s.runSlice src (o.start (Memory.readBytes (s.strand src).slots (o.slot * 32768) 64)) = t ∧ OnlyStrand src s t ∧ MemSame s t ∧
      t.strand src = sliceStrand s src o (s.strand src) := by
  have hnext : sliceNext s src o = { o.start (Memory.readBytes (s.strand src).slots (o.slot * 32768) 64) with
      acc := splitRegs (s.vlb src) (o.start (Memory.readBytes (s.strand src).slots (o.slot * 32768) 64)).regs (sliceAcc s src o)
      slice := (o.start (Memory.readBytes (s.strand src).slots (o.slot * 32768) 64)).slice + 1, elem := 0, exempt := false } := by
    rw [sliceNext, start_eq]
    rfl
  have hslices : (sliceNext s src o).slices (s.vlb src) = o.slices (s.vlb src) := by rw [sliceNext, start_eq]; rfl
  have hslice : (sliceNext s src o).slice = o.slice + 1 := rfl
  have hrun := runSlice_of_mxElems (mxElems_of_ready h htrap) hnext
  obtain ⟨-, -, -, -, -, hstays, -⟩ := h
  have hcredit : ∀ u : Strand, u.creditMx
      (((List.range (16 * o.n (s.vlb src))).map fun e => (e, (sliceResult s src o e).2)).filter fun r => r.2 ≠ 0) =
      { u with vec := u.vec.creditAll ((List.range (16 * o.n (s.vlb src))).map fun e => (e, sliceResult s src o e)) } := by
    intro u
    rw [← creditAll_nonzero, List.map_map]
    rfl
  simp only [hslices, hslice, hcredit] at hrun
  refine ⟨_, rfl, ?_⟩
  rw [hrun, if_neg ?stays]
  case stays =>
    rw [leaving_updAt, leaving_updAt, hstays]
    · exact Bool.false_ne_true
    · rfl
    · split
      · exact setMx_bind _ _
      · exact mxDone_bind _
  exact ⟨OnlyStrand_trans (onlyStrand_updAt s src _) (onlyStrand_updAt _ src _), fun _ => rfl, by
    rw [State.strand_updAt, State.strand_updAt]; rfl⟩

end

section
variable {s : State} {src : Nat} {o : MxOp} {rest : List MxOp}

/-- An operation is complete: it has left the queue, its number is complete, and its registers are full. -/
def MxComplete (u : Strand) (o : MxOp) (rest : List MxOp) (t : Strand) : Prop :=
  t.mxq = rest ∧ t.csr.mxprog = 0 ∧ t.tlMatrix = { u.tlMatrix with complete := u.tlMatrix.complete ++ [o.num] } ∧
    ∀ j, j < o.regs → t.vec.fullOf (o.vd + j) = 0xFFFF

/-- A ready operation whose accumulators are `acc` brings them to its registers and is complete. -/
theorem mxComplete_mxDone {u t : Strand} {p : MxOp} {vlb : Nat} (hmxq : t.mxq = o :: rest) (htl : t.tlMatrix = u.tlMatrix)
    (hnum : p.num = o.num) (hvd : p.vd = o.vd) (hlen : p.acc.length = o.regs) (hlive : p.live = (List.range p.acc.length).map (p.vd + ·)) :
    MxComplete u o rest (t.mxDone p vlb) := by
  obtain ⟨hq, hprog, htime⟩ := mxDone_spec (o := p) (vlb := vlb) t
  refine ⟨by rw [hq, hmxq]; rfl, hprog, by rw [htime, htl, hnum], fun j hj => ?_⟩
  rw [← hvd]
  exact fullOf_mxDone t hlive (by rwa [hlen])

/-- The accumulators of an operation are as wide as its registers: 16 rows of N elements of 32 bits (R287). -/
theorem acc_fits (hkind : o.kind ≠ .mxsum) {vlb e : Nat} (he : e < 16 * o.n vlb) : (e + 1) * 32 ≤ o.regs * vlb := by
  have hregs : o.regs = mxCGroup o.cfg := if_neg hkind
  have hn : o.n vlb * 512 ≤ vlb * mxCGroup o.cfg := Nat.div_mul_le_self _ _
  rw [hregs, Nat.mul_comm (mxCGroup o.cfg)]
  omega

theorem matrixSlice_of_ready (h : SliceReady s src o rest) (hkind : o.kind ≠ .mxsum)
    (htrap : ∀ e, e < 16 * o.n (s.vlb src) → trapClass (sliceResult s src o e).2 (mxTraps s src o) = none) :
    ∃ t, exec (.matrixSlice src .ok) s = .next t ∧ OnlyStrand src s t ∧ MemSame s t ∧
      t.strand src = sliceStrand s src o (s.strand src) := by
  obtain ⟨t, hrun, hthis⟩ := runSlice_of_ready h htrap
  exact ⟨t, by rw [exec_matrixSlice_of_ready h, goMx_of_ready h hkind, hrun], hthis⟩

theorem sliceNext_fields (s : State) (src : Nat) (o : MxOp) :
    (sliceNext s src o).slice = o.slice + 1 ∧ (sliceNext s src o).begun = true ∧ (sliceNext s src o).num = o.num ∧
      (sliceNext s src o).captured = o.captured ∧ (sliceNext s src o).vd = o.vd ∧ (sliceNext s src o).live = o.live ∧
      (sliceNext s src o).acc = splitRegs (s.vlb src) o.regs (sliceAcc s src o) := by
  rw [sliceNext, start_eq]
  exact ⟨rfl, rfl, rfl, rfl, rfl, rfl, rfl⟩

theorem vlb_le (s : State) (src : Nat) : s.vlb src ≤ 8192 := Nat.min_le_left _ _

/-- The accumulators as they stand in the operation's registers after the slice. -/
theorem elem_sliceNext (s : State) (src : Nat) (hkind : o.kind ≠ .mxsum) {e : Nat} (he : e < 16 * o.n (s.vlb src)) :
    elem (joinRegs (s.vlb src) (sliceNext s src o).acc) 32 e = (sliceResult s src o e).1 % 2 ^ 32 := by
  obtain ⟨-, -, -, -, -, -, hacc⟩ := sliceNext_fields s src o
  rw [hacc, joinRegs_splitRegs _ _ _ (vlb_le s src), elem_mod_two_pow _ _ _ _ (acc_fits hkind he), elem_sliceAcc s src o he]

/-- The operation's registers are those it set out with. -/
theorem sliceNext_live (h : SliceReady s src o rest) :
    (sliceNext s src o).live = (List.range (sliceNext s src o).acc.length).map ((sliceNext s src o).vd + ·) := by
  obtain ⟨-, -, -, -, -, -, -, -, -, hlive, -⟩ := h
  obtain ⟨-, -, -, -, hvd, hlive', hacc⟩ := sliceNext_fields s src o
  rw [hlive', hvd, hacc, splitRegs_length, hlive]

theorem fstat_sliceStrand (h : SliceReady s src o rest) (u : Strand) {k : Nat} (hk : k < 7) :
    (sliceStrand s src o u).vec.fstat.getLsbD k = true ↔
      u.vec.fstat.getLsbD k = true ∨ ∃ e, e < 16 * o.n (s.vlb src) ∧ (sliceResult s src o e).2.testBit k = true := by
  have hvec : (sliceStrand s src o u).vec.fstat =
      (u.vec.creditAll ((List.range (16 * o.n (s.vlb src))).map fun e => (e, sliceResult s src o e))).fstat := by
    rw [sliceStrand]
    split
    · rw [Strand.setMx]; split <;> rfl
    · exact fstat_mxDone _ (sliceNext_live h)
  rw [hvec, VecState.fstat_creditAll _ _ _ hk]
  refine or_congr_right ⟨?_, ?_⟩
  · rintro ⟨r, hr, hbit⟩
    obtain ⟨e, he, rfl⟩ := List.mem_map.mp hr
    exact ⟨e, List.mem_range.mp he, hbit⟩
  · rintro ⟨e, he, hbit⟩
    exact ⟨_, List.mem_map_of_mem (List.mem_range.mpr he), hbit⟩

/-- A slice that is not the last: the operation stays first with its accumulators (R293). -/
theorem sliceStrand_goes_on (h : SliceReady s src o rest) (hmore : o.slice + 1 < o.slices (s.vlb src)) :
    (sliceStrand s src o (s.strand src)).mxq = sliceNext s src o :: rest := by
  obtain ⟨hmxq, -⟩ := h
  simp only [sliceStrand, hmore, if_true]
  rw [Strand.setMx]
  simp only [hmxq]

/-- The last slice: the operation is complete, and its registers hold the accumulators (R293). -/
theorem sliceStrand_completes (h : SliceReady s src o rest) (hlast : o.slices (s.vlb src) ≤ o.slice + 1) :
    MxComplete (s.strand src) o rest (sliceStrand s src o (s.strand src)) ∧
      (sliceStrand s src o (s.strand src)).vec.grp (s.vlb src) o.vd o.regs = joinRegs (s.vlb src) (sliceNext s src o).acc := by
  have hlive := sliceNext_live h
  obtain ⟨hmxq, -⟩ := h
  obtain ⟨-, -, hnum, -, hvd, -, hacc⟩ := sliceNext_fields s src o
  have hlen : (sliceNext s src o).acc.length = o.regs := by rw [hacc, splitRegs_length]
  simp only [sliceStrand, not_lt.mpr hlast, if_false]
  refine ⟨mxComplete_mxDone hmxq rfl hnum hvd hlen hlive, ?_⟩
  rw [← hvd, ← hlen]
  exact grp_mxDone _ hlive

/-! ## Row and column sums (R294) -/

/-- The sums in their places, whatever classes they raise. -/
theorem elem_foldl_mxRound (i32 : Bool) (d : Fv) (l : List Fv) (p : Nat × List (Nat × Nat)) (e : Nat) (he : e < l.length) :
    elem (l.zipIdx.foldl (fun (p : Nat × List (Nat × Nat)) (r : Fv × Nat) =>
        (setElem p.1 32 r.2 (mxRound i32 r.1).1, if (mxRound i32 r.1).2 = 0 then p.2 else p.2 ++ [(r.2, (mxRound i32 r.1).2)])) p).1 32 e =
      (mxRound i32 (l.getD e d)).1 % 2 ^ 32 := by
  have hfst : ∀ (m : List (Fv × Nat)) (p : Nat × List (Nat × Nat)), (m.foldl (fun (p : Nat × List (Nat × Nat)) (r : Fv × Nat) =>
        (setElem p.1 32 r.2 (mxRound i32 r.1).1, if (mxRound i32 r.1).2 = 0 then p.2 else p.2 ++ [(r.2, (mxRound i32 r.1).2)])) p).1 =
      (m.map fun r => (r.2, mxRound i32 r.1)).foldl (fun g r => setElem g 32 r.1 r.2.1) p.1 := by
    intro m
    induction m with
    | nil => intro p; rfl
    | cons r m ih => intro p; rw [List.foldl_cons, ih, List.map_cons, List.foldl_cons]
  have hindex : (l.zipIdx.map fun r => (r.2, mxRound i32 r.1)) = (List.range l.length).map fun e => (e, mxRound i32 (l.getD e d)) := by
    refine List.ext_getElem (by simp) fun j hj hj' => ?_
    have hlt : j < l.length := by simpa using hj'
    simp [hlt]
  rw [hfst, hindex, elem_foldl_setElem_map _ List.nodup_range, if_pos (List.mem_range.mpr he)]

theorem mxSums_eq (o : MxOp) (rows cols : List (List Fv)) :
    mxSums o rows cols = (((rows ++ cols).map mxSum).zipIdx).foldl (fun (p : Nat × List (Nat × Nat)) (r : Fv × Nat) =>
      (setElem p.1 32 r.2 (mxRound o.i32 r.1).1, if (mxRound o.i32 r.1).2 = 0 then p.2 else p.2 ++ [(r.2, (mxRound o.i32 r.1).2)]))
      (0, []) := rfl

/-- A' has 16 rows (R286). -/
theorem rows_length {vlb : Nat} (h : o.captured ≠ none) : (o.rows vlb).length = 16 := by
  unfold MxOp.rows
  split
  · next hc => exact absurd hc h
  · simp

/-- B' has N columns (R287, R291). -/
theorem cols_length {vlb : Nat} {bs : List Byte} {l : List (List Fv)} (h : o.cols vlb bs = some l) : l.length = o.n vlb := by
  unfold MxOp.cols at h
  dsimp only at h
  split at h
  · cases h; simp
  · split at h
    · split at h
      · cases h
      · cases h; simp
    · cases h; simp

/-- The stream of a slot that passes its checks is good (R292). -/
theorem cols_of_slotCheck (hcheck : s.slotCheck src o = none) (hbegun : o.begun = false) :
    ∃ l, o.cols (s.vlb src) (slotBytes s src o) = some l := by
  cases hcols : o.cols (s.vlb src) (slotBytes s src o) with
  | some l => exact ⟨l, rfl⟩
  | none =>
    simp only [slotBytes] at hcols
    simp only [State.slotCheck, hbegun, hcols, Bool.false_eq_true, if_false, Option.isNone_none, if_true] at hcheck
    split at hcheck
    · cases hcheck
    · split at hcheck
      · cases hcheck
      · split at hcheck <;> cases hcheck

/-- `mxsum` is carried out whole: its register takes the row and the column sums, each rounded once, and it is complete. -/
theorem mxsum_of_ready (h : SliceReady s src o rest) (hkind : o.kind = .mxsum) (hbegun : o.begun = false) :
    ∃ t, exec (.matrixSlice src .ok) s = .next t ∧ OnlyStrand src s t ∧ MemSame s t ∧
      MxComplete (s.strand src) o rest (t.strand src) ∧
      ∀ e, e < 16 + o.n (s.vlb src) → 32 * (e + 1) ≤ s.vlb src →
        elem ((t.strand src).vec.grp (s.vlb src) o.vd 1) 32 e =
          (mxRound o.i32 (mxSum (if e < 16 then mxRow s src o e else mxCol s src o (e - 16)))).1 % 2 ^ 32 := by
  have hexec := exec_matrixSlice_of_ready h
  obtain ⟨hmxq, -, hcap, -, -, -, -, -, hlen, hlive, -, hcheck⟩ := h
  have hregs : o.regs = 1 := if_pos hkind
  obtain ⟨cols, hcols⟩ := cols_of_slotCheck hcheck hbegun
  have hmxCol : ∀ j, mxCol s src o j = cols.getD j [] := fun j => by rw [mxCol, hcols]; rfl
  simp only [slotBytes] at hcols
  have hgo : s.goMx src o [] = s.updAt src fun t => (t.creditMx (mxSums o (o.rows (s.vlb src)) cols).2).mxDone
      { o with acc := splitRegs (s.vlb src) 1 (mxSums o (o.rows (s.vlb src)) cols).1 } (s.vlb src) := by
    simp only [State.goMx, hcheck, hkind, if_true, hcols, Option.getD_some]
  have hplaces : ({ o with acc := splitRegs (s.vlb src) 1 (mxSums o (o.rows (s.vlb src)) cols).1 } : MxOp).live =
      (List.range 1).map (o.vd + ·) := by rw [← hregs]; exact hlive
  refine ⟨_, by rw [hexec, hgo], onlyStrand_updAt s src _, fun _ => rfl, ?_, fun e he hfit => ?_⟩
  · rw [State.strand_updAt]
    refine mxComplete_mxDone hmxq rfl rfl rfl ?_ ?_
    · rw [hregs, splitRegs_length]
    · rw [splitRegs_length]; exact hplaces
  · have hgrp := grp_mxDone (vlb := s.vlb src) (o := { o with acc := splitRegs (s.vlb src) 1 (mxSums o (o.rows (s.vlb src)) cols).1 })
      ((s.strand src).creditMx (mxSums o (o.rows (s.vlb src)) cols).2) (by rw [splitRegs_length]; exact hplaces)
    rw [splitRegs_length] at hgrp
    have hrows := rows_length (vlb := s.vlb src) hcap
    have hn := cols_length hcols
    have hsum : ((o.rows (s.vlb src) ++ cols).map mxSum).getD e (mxSum []) =
        mxSum (if e < 16 then mxRow s src o e else mxCol s src o (e - 16)) := by
      rw [List.getD_map]
      congr 1
      split
      · rw [List.getD_append _ _ _ _ (by omega)]; rfl
      · rw [List.getD_append_right _ _ _ _ (by omega), hrows, hmxCol]
    rw [State.strand_updAt, hgrp, joinRegs_splitRegs _ _ _ (vlb_le s src), elem_mod_two_pow _ _ _ _ (by omega), mxSums_eq,
      elem_foldl_mxRound o.i32 (mxSum []) _ _ _ (by rw [List.length_map, List.length_append]; omega), hsum]

end

section
variable {s : State} {src : Nat} {o : MxOp} {rest : List MxOp}

/-- A ready slice whose classes do not trap adds its products to every accumulator; the operation goes on, or is complete (R293). -/
theorem slice_of_ready (h : SliceReady s src o rest) (hkind : o.kind ≠ .mxsum)
    (htrap : ∀ e, e < 16 * o.n (s.vlb src) → trapClass (sliceResult s src o e).2 (mxTraps s src o) = none) :
    ∃ t, exec (.matrixSlice src .ok) s = .next t ∧ OnlyStrand src s t ∧ MemSame s t ∧
      (∀ k, k < 7 → ((t.strand src).vec.fstat.getLsbD k = true ↔ (s.strand src).vec.fstat.getLsbD k = true ∨
        ∃ e, e < 16 * o.n (s.vlb src) ∧ (sliceResult s src o e).2.testBit k = true)) ∧
      (o.slice + 1 < o.slices (s.vlb src) → ∃ p, (t.strand src).mxq = p :: rest ∧ p.slice = o.slice + 1 ∧ p.begun = true ∧
        p.num = o.num ∧ p.captured = o.captured ∧
        ∀ e, e < 16 * o.n (s.vlb src) → elem (joinRegs (s.vlb src) p.acc) 32 e = (sliceResult s src o e).1 % 2 ^ 32) ∧
      (o.slices (s.vlb src) ≤ o.slice + 1 → MxComplete (s.strand src) o rest (t.strand src) ∧
        ∀ e, e < 16 * o.n (s.vlb src) →
          elem ((t.strand src).vec.grp (s.vlb src) o.vd o.regs) 32 e = (sliceResult s src o e).1 % 2 ^ 32) := by
  obtain ⟨t, hexec, honly, hmem, hstrand⟩ := matrixSlice_of_ready h hkind htrap
  refine ⟨t, hexec, honly, hmem, ?_, fun hmore => ?_, fun hlast => ?_⟩
  all_goals rw [hstrand]
  · exact fun k hk => fstat_sliceStrand h _ hk
  · obtain ⟨hslice, hbegun, hnum, hcap, -⟩ := sliceNext_fields s src o
    exact ⟨sliceNext s src o, sliceStrand_goes_on h hmore, hslice, hbegun, hnum, hcap, fun e he => elem_sliceNext s src hkind he⟩
  · obtain ⟨hdone, hgrp⟩ := sliceStrand_completes h hlast
    exact ⟨hdone, fun e he => by rw [hgrp, elem_sliceNext s src hkind he]⟩

end

end Machine

end Sys2Proof
end

section
/-! PROOFS. What the accesses that the device makes for a context depend on (R204 to R216, R268), and a stop whose
record is posted (R299, R305): the strand halts with its group. -/

namespace Sys2Proof
open Machine Claims
namespace Machine

/-! ## What the device's accesses for a context depend on

A trace record and a change of a strand leave what the device reads and writes for a context as it is. -/

/-- Two dies differ in their trace alone (R348). -/
def SameButTrace (d e : Die) : Prop := { e with trace := d.trace, dropped := d.dropped, firstDrop := d.firstDrop } = d

section
variable {d e : Die} (h : SameButTrace d e)
include h

theorem SameButTrace.cached (core : Option Nat) (ctx page : Nat) : e.cached core ctx page = d.cached core ctx page :=
  (congrArg (fun d : Die => d.cached core ctx page) h :)
theorem SameButTrace.fmCache : e.fmCache = d.fmCache := (congrArg Die.fmCache h :)
theorem SameButTrace.regions : e.regions = d.regions := (congrArg Die.regions h :)
theorem SameButTrace.windows : e.windows = d.windows := (congrArg Die.windows h :)
theorem SameButTrace.lostPcs : e.lostPcs = d.lostPcs := (congrArg Die.lostPcs h :)
theorem SameButTrace.spareCopying : e.spareCopying = d.spareCopying := (congrArg Die.spareCopying h :)
theorem SameButTrace.spareFor : e.spareFor = d.spareFor := (congrArg Die.spareFor h :)
theorem SameButTrace.clock : e.clock = d.clock := (congrArg Die.clock h :)
theorem SameButTrace.counts : e.counts = d.counts := (congrArg Die.counts h :)
theorem SameButTrace.sent (k : Nat) : SameButTrace (d.sent k) (e.sent k) := (congrArg (fun d : Die => d.sent k) h :)
theorem SameButTrace.merge (c : List Nat) : SameButTrace (d.merge c) (e.merge c) := (congrArg (fun d : Die => d.merge c) h :)

end

/-- Two states agree in all that an access made for a context reads: memory, poison, maps, descriptors, ports, and the dies but for
their traces. -/
structure SameReads (s t : State) : Prop where
  mem : t.mem = s.mem
  poison : t.poison = s.poison
  flyWrites : t.flyWrites = s.flyWrites
  fmap : t.fmap = s.fmap
  contexts : t.contexts = s.contexts
  ports : t.ports = s.ports
  braidWindows : t.braidWindows = s.braidWindows
  die : ∀ k, SameButTrace (s.die k) (t.die k)

theorem SameReads.refl (s : State) : SameReads s s := ⟨rfl, rfl, rfl, rfl, rfl, rfl, rfl, fun _ => rfl⟩

theorem SameReads.trans {s t u : State} (h : SameReads s t) (g : SameReads t u) : SameReads s u where
  mem := g.mem.trans h.mem
  poison := g.poison.trans h.poison
  flyWrites := g.flyWrites.trans h.flyWrites
  fmap := g.fmap.trans h.fmap
  contexts := g.contexts.trans h.contexts
  ports := g.ports.trans h.ports
  braidWindows := g.braidWindows.trans h.braidWindows
  die k := by
    have := congrArg (fun d : Die => { d with trace := (s.die k).trace, dropped := (s.die k).dropped, firstDrop := (s.die k).firstDrop })
      (g.die k)
    exact this.trans (h.die k)

theorem SameReads.updAt (s : State) (src : Nat) (f : Strand → Strand) : SameReads s (s.updAt src f) :=
  ⟨rfl, rfl, rfl, rfl, rfl, rfl, rfl, fun _ => rfl⟩

theorem SameReads.traceAt (s : State) (die : Nat) (r : TraceRec) : SameReads s (s.traceAt die r) := by
  obtain ⟨honly, hdie⟩ := s.traceAt_only die r
  exact ⟨(congrArg State.mem honly :), (congrArg State.poison honly :), (congrArg State.flyWrites honly :),
    (congrArg State.fmap honly :), (congrArg State.contexts honly :), (congrArg State.ports honly :),
    (congrArg State.braidWindows honly :), hdie⟩

theorem fields_of_onlyBytes {s t : State} (h : OnlyBytes s t) : t.flyWrites = s.flyWrites ∧ t.fmap = s.fmap ∧
    t.contexts = s.contexts ∧ t.ports = s.ports ∧ t.braidWindows = s.braidWindows :=
  ⟨(congrArg State.flyWrites h :), (congrArg State.fmap h :), (congrArg State.contexts h :), (congrArg State.ports h :),
    (congrArg State.braidWindows h :)⟩

section
variable {s t : State} (h : SameReads s t)
include h

theorem SameReads.context (k : Nat) : t.context k = s.context k := by rw [State.context, State.context, h.contexts]

theorem SameReads.fme (die frame : Nat) : t.fme die frame = s.fme die frame := by
  simp only [State.fme, (h.die die).fmCache, h.fmap]

theorem SameReads.regionSecure (p : Place) : t.regionSecure p = s.regionSecure p := by
  simp only [State.regionSecure, (h.die _).regions]

theorem SameReads.portOf (die a : Nat) : t.portOf die a = s.portOf die a := by
  simp only [State.portOf, (h.die die).windows]

theorem SameReads.port (k : Nat) : t.port k = s.port k := by rw [State.port, State.port, h.ports]

theorem SameReads.placeLost (die : Nat) (p : Place) : t.placeLost die p = s.placeLost die p := by
  cases p <;> simp only [State.placeLost, (h.die _).lostPcs, h.portOf, h.port]

theorem SameReads.placeBusy (p : Place) : t.placeBusy p = s.placeBusy p := by
  cases p <;> simp only [State.placeBusy, (h.die _).spareCopying, (h.die _).spareFor]

theorem SameReads.lineBusy (line : Nat) : t.lineBusy line = s.lineBusy line := by
  simp only [State.lineBusy, (h.die _).spareCopying, (h.die _).spareFor]

theorem SameReads.placesOf (f : Fme) (die off : Nat) (acc : Access) : t.placesOf f die off acc = s.placesOf f die off acc := by
  simp only [State.placesOf, h.braidWindows]

theorem SameReads.tableEntry (die fa : Nat) : t.tableEntry die fa = s.tableEntry die fa := by
  simp only [State.tableEntry, h.fme, h.placeLost, h.mem]

theorem SameReads.tableCause (die fa : Nat) : t.tableCause die fa = s.tableCause die fa := by
  simp only [State.tableCause, h.fme, h.placeLost]

theorem SameReads.sizeAgrees (die table ix n : Nat) (e : Word) : t.sizeAgrees die table ix n e = s.sizeAgrees die table ix n e := by
  simp only [State.sizeAgrees, h.tableEntry]

theorem SameReads.walk (die root va : Nat) : t.walk die root va = s.walk die root va := by
  simp only [State.walk, h.tableEntry, h.tableCause, h.sizeAgrees]

theorem SameReads.pageOf (die ctx va : Nat) (core : Option Nat) : t.pageOf die ctx va core = s.pageOf die ctx va core := by
  simp only [State.pageOf, (h.die die).cached, h.walk, h.context]

theorem SameReads.resolve (die : Nat) (secure : Bool) (acc : Access) (fa : Nat) :
    t.resolve die secure acc fa = s.resolve die secure acc fa := by
  have hregion : t.regionSecure = s.regionSecure := funext h.regionSecure
  have hlost : t.placeLost die = s.placeLost die := funext (h.placeLost die)
  simp only [State.resolve, State.resolveAs, h.fme, h.placesOf, hregion, hlost]

theorem SameReads.translate (die ctx : Nat) (secure : Bool) (acc : Access) (va : Word) (core : Option Nat) :
    t.translate die ctx secure acc va core = s.translate die ctx secure acc va core := by
  simp only [State.translate, h.pageOf, h.resolve]

theorem SameReads.poisoned (p : Place) (n : Nat) : t.poisoned p n = s.poisoned p n := by
  simp only [State.poisoned, h.poison]

theorem SameReads.ctxRead (die ctx : Nat) (va : Word) (n : Nat) : t.ctxRead die ctx va n = s.ctxRead die ctx va n := by
  simp only [State.ctxRead, h.context, h.translate, h.poisoned, State.readPlace, h.mem]

theorem SameReads.ctxSecure (die ctx : Nat) (va : Word) : t.ctxSecure die ctx va = s.ctxSecure die ctx va := by
  simp only [State.ctxSecure, h.translate, h.regionSecure]

theorem SameReads.slotPoisoned (die ctx : Nat) (va : Word) : t.slotPoisoned die ctx va = s.slotPoisoned die ctx va := by
  simp only [State.slotPoisoned, h.translate, h.poisoned]

theorem SameReads.ctxBlocked (hcopying : t.copying = s.copying) (die ctx : Nat) (va : Word) :
    t.ctxBlocked die ctx va = s.ctxBlocked die ctx va := by
  simp only [State.ctxBlocked, State.accessHeld, State.walkBusy, hcopying, h.fme, h.placeBusy, h.context, (h.die die).cached,
    h.tableEntry, h.translate]

/-! ### Writes keep the agreement -/

theorem SameReads.bytes {s' t' : State} (hs : OnlyBytes s s') (ht : OnlyBytes t t') (hmem : t'.mem = s'.mem)
    (hpoison : t'.poison = s'.poison) : SameReads s' t' := by
  obtain ⟨sf, sm, sc, sp, sb⟩ := fields_of_onlyBytes hs
  obtain ⟨tf, tm, tc, tp, tb⟩ := fields_of_onlyBytes ht
  exact ⟨hmem, hpoison, by rw [sf, tf, h.flyWrites], by rw [sm, tm, h.fmap], by rw [sc, tc, h.contexts], by rw [sp, tp, h.ports],
    by rw [sb, tb, h.braidWindows], fun k => by rw [hs.die, ht.die]; exact h.die k⟩

theorem SameReads.setDie {k : Nat} {d e : Die} (hde : SameButTrace d e) : SameReads (s.setDie k d) (t.setDie k e) where
  mem := h.mem
  poison := h.poison
  flyWrites := h.flyWrites
  fmap := h.fmap
  contexts := h.contexts
  ports := h.ports
  braidWindows := h.braidWindows
  die j := by
    by_cases hj : j = k
    · rw [hj, State.die_setDie, State.die_setDie]; exact hde
    · rw [State.die_setDie_ne _ _ _ _ hj, State.die_setDie_ne _ _ _ _ hj]; exact h.die j

end

theorem poison_takeLine (s : State) (core : Option Nat) (line : Nat) : (s.takeLine core line).poison = s.poison :=
  (congrArg State.poison (s.takeLine_only core line) :)

theorem poison_takeLines (s : State) (core : Option Nat) (lo n : Nat) : (s.takeLines core lo n).poison = s.poison :=
  (congrArg State.poison (s.takeLines_only core lo n) :)

/-- The poison marks after the write of a line (R321). -/
theorem poison_writeLine (s : State) (core : Option Nat) (line : Nat) (m : BitVec 128) (d : BitVec 512) :
    (s.writeLine core line m d).poison =
      if m = BitVec.allOnes 128 ∧ (!s.poison.isEmpty) = true then s.poison.filter (· != line) else s.poison := by
  simp only [State.writeLine, poison_takeLine]
  split <;> simp [State.setPoison, poison_takeLine]

/-- The poison marks after the write of bytes (R321). -/
theorem poison_writeAt (s : State) (key : Nat) (bs : List Byte) (core : Option Nat) :
    (s.writeAt key bs core).poison =
      if (key % 64 = 0 && bs.length % 64 = 0 && !s.poison.isEmpty) = true then
        s.poison.filter (fun l => !(decide (lineOf key ≤ l) && decide (l < lineOf key + bs.length / 64)))
      else s.poison := by
  simp only [State.writeAt, poison_takeLines]
  split <;> simp [poison_takeLines]

section
variable {s t : State} (h : SameReads s t)
include h

theorem SameReads.writeLine (core : Option Nat) (line : Nat) (m : BitVec 128) (d : BitVec 512) :
    SameReads (s.writeLine core line m d) (t.writeLine core line m d) :=
  h.bytes (s.writeLine_bytes _ _ _ _) (t.writeLine_bytes _ _ _ _)
    (by rw [State.writeLine_mem, State.writeLine_mem, State.lineBytes, State.lineBytes, h.mem])
    (by rw [poison_writeLine, poison_writeLine, h.poison])

theorem SameReads.writePlace (p : Place) (bs : List Byte) : SameReads (s.writePlace p bs) (t.writePlace p bs) :=
  h.bytes (s.writeAt_bytes _ _ _) (t.writeAt_bytes _ _ _)
    (by rw [State.writePlace, State.writePlace, State.writeAt_mem, State.writeAt_mem, h.mem])
    (by rw [State.writePlace, State.writePlace, poison_writeAt, poison_writeAt, h.poison])

theorem SameReads.applyFly (f : FlyWrite) : SameReads (s.applyFly f) (t.applyFly f) := by
  have herase : SameReads { s with flyWrites := s.flyWrites.erase f } { t with flyWrites := t.flyWrites.erase f } :=
    { h with flyWrites := congrArg (List.erase · f) h.flyWrites, die := h.die }
  exact (herase.writeLine _ _ _ _).setDie ((h.die f.home).merge f.clock)

theorem SameReads.landWrites (sel : FlyWrite → Bool) : SameReads (s.landWrites sel) (t.landWrites sel) := by
  have hfold : ∀ (l : List FlyWrite) {s t : State}, SameReads s t → SameReads
      (l.foldl (fun s f => if s.lineBusy f.line || s.flyPoisoned f then s else s.applyFly f) s)
      (l.foldl (fun s f => if s.lineBusy f.line || s.flyPoisoned f then s else s.applyFly f) t) := by
    intro l
    induction l with
    | nil => exact fun h => h
    | cons f l ih =>
      intro s t h
      refine ih ?_
      have hpoisoned : t.flyPoisoned f = s.flyPoisoned f := by rw [State.flyPoisoned, State.flyPoisoned, h.poison]
      simp only [h.lineBusy, hpoisoned]
      split
      · exact h
      · exact h.applyFly f
  simp only [State.landWrites, h.flyWrites]
  split
  · exact hfold _ h
  · exact h

theorem SameReads.clockTo (die : Nat) (p : Place) : SameReads (s.clockTo die p) (t.clockTo die p) := by
  have howed : t.owed die p = s.owed die p := by
    funext f
    rw [State.owed, State.owed, (h.die die).clock]
  have hpaid : SameReads (s.payOwed die p) (t.payOwed die p) := by
    rw [State.payOwed, State.payOwed, howed]
    exact h.landWrites _
  simp only [State.clockTo]
  split
  · exact hpaid
  · have hsent := hpaid.setDie (k := die) ((hpaid.die die).sent die)
    rw [← (hsent.die die).counts]
    exact hsent.setDie ((hsent.die p.home).merge _)

/-- A write that the device makes for a context is made in both states, and keeps the agreement. -/
theorem SameReads.ctxWrite {die ctx : Nat} {va : Word} {bs : List Byte} {s' : State} (hs : s.ctxWrite die ctx va bs = .ok s') :
    ∃ t', t.ctxWrite die ctx va bs = .ok t' ∧ SameReads s' t' := by
  unfold State.ctxWrite at hs
  split at hs
  · cases hs
  rename_i x hx
  split at hs
  · cases hs
  rename_i p hp
  split at hs
  · cases hs
  rename_i hclean
  cases hs
  refine ⟨_, ?_, (h.clockTo die p).writePlace p bs⟩
  rw [State.ctxWrite, h.context, h.translate, hx]
  simp only [hp, h.poisoned, hclean, if_false, Bool.false_eq_true]

/-- A record that a queue takes is taken in both states, with the same bytes. -/
theorem SameReads.tryPost (hcopying : t.copying = s.copying) {die ctx : Nat} {r : FRec} {s' : State}
    (hs : s.tryPost die ctx r = .posted s') : ∃ t', t.tryPost die ctx r = .posted t' ∧ SameReads s' t' := by
  simp only [State.tryPost] at hs
  split at hs
  · cases hs
  rename_i hd hread
  split at hs
  · cases hs
  rename_i hlog
  split at hs
  · cases hs
  rename_i hbase
  split at hs
  · cases hs
  rename_i hroom
  split at hs
  · cases hs
  rename_i hslot
  split at hs
  · cases hs
  rename_i hclean
  split at hs
  · cases hs
  rename_i s1 hs1
  split at hs
  · cases hs
  rename_i s2 hs2
  obtain ⟨t1, ht1, h1⟩ := h.ctxWrite hs1
  obtain ⟨t2, ht2, h2⟩ := h1.ctxWrite hs2
  cases hs
  refine ⟨{ t2 with mgmt := t2.mgmt ++ [.signal die] }, ?_, { h2 with die := h2.die }⟩
  simp only [State.tryPost, h.context, h.ctxRead, hread, hlog, h.ctxBlocked hcopying, hbase, hroom, hslot, h.slotPoisoned,
    hclean, h.ctxSecure, ht1, ht2, if_false, Bool.false_eq_true]

end

/-! ## A group halts (R118, R120) -/

theorem halt_halt (t : Strand) : t.halt.halt = t.halt := by
  by_cases h : t.st = .running ∨ t.st = .waiting
  · have hthis : t.halt = { t with st := .halted, replay := none } := if_pos h
    rw [hthis]; exact if_neg (by simp)
  · have hthis : t.halt = t := if_neg h
    rw [hthis, hthis]

/-- A strand that runs halts where it is. -/
theorem halt_of_running {t : Strand} (h : t.st = .running) : t.halt = { t with st := .halted, replay := none } := by
  rw [Strand.halt, if_pos (.inl h)]

theorem mem_finishBarrier (s : State) (m : Nat) : (s.finishBarrier m).mem = s.mem := by
  simp only [State.finishBarrier]
  split
  · split
    · split <;> rfl
    · rfl
  · rfl

/-- A strand that does not wait is left as it is as barrier waits finish. -/
theorem strand_finishBarrier {s : State} {src : Nat} (h : (s.strand src).wait = .none) (m : Nat) :
    (s.finishBarrier m).strand src = s.strand src := by
  by_cases hm : src = m
  · rw [← hm, State.finishBarrier, h]
  · simp only [State.finishBarrier]
    split
    · split
      · split
        · rfl
        · exact State.strand_setStrand_ne _ _ _ _ hm
      · rfl
    · rfl

theorem finishBarriers_keeps {s : State} {src : Nat} (h : (s.strand src).wait = .none) (l : List Nat) :
    (s.finishBarriers l).mem = s.mem ∧ (s.finishBarriers l).strand src = s.strand src := by
  unfold State.finishBarriers
  induction l generalizing s with
  | nil => exact ⟨rfl, rfl⟩
  | cons m l ih =>
    have hm := strand_finishBarrier h m
    obtain ⟨hmem, hstrand⟩ := ih (s := s.finishBarrier m) (by rw [hm]; exact h)
    exact ⟨hmem.trans (mem_finishBarrier s m), hstrand.trans hm⟩

theorem mem_haltAll (s : State) (l : List Nat) : (s.haltAll l).mem = s.mem := by
  induction l generalizing s with
  | nil => rfl
  | cons m l ih => exact ih _

theorem halt_strand_haltAll (s : State) (src : Nat) (l : List Nat) : ((s.haltAll l).strand src).halt = (s.strand src).halt := by
  induction l generalizing s with
  | nil => rfl
  | cons m l ih =>
    refine (ih _).trans ?_
    by_cases hm : src = m
    · rw [hm, State.strand_updAt, halt_halt]
    · rw [State.strand_updAt_ne _ _ _ _ hm]

/-- A strand that does not wait halts with its group, and memory is as before. -/
theorem haltGroup_keeps {s : State} {src : Nat} (h : (s.strand src).wait = .none) :
    (s.haltGroup src).mem = s.mem ∧ (s.haltGroup src).strand src = (s.strand src).halt := by
  have hresident : ∀ k, (s.haltResident k).mem = s.mem ∧ ((s.haltResident k).strand src).halt = (s.strand src).halt := by
    intro k
    obtain ⟨hmem, hstrand⟩ := finishBarriers_keeps h (((s.group k).members.map Prod.snd).filter (fun m => (s.strand m).wait != .ending))
    exact ⟨(mem_haltAll _ _).trans hmem, (halt_strand_haltAll _ _ _).trans (congrArg Strand.halt hstrand)⟩
  simp only [State.haltGroup]
  rw [State.strand_updAt]
  split
  · exact ⟨rfl, rfl⟩
  · split
    · exact hresident _
    · exact ⟨rfl, rfl⟩

/-! ## A stop whose record is posted (R299, R305) -/

/-- A device's write for a context leaves the rest of the package but for traffic. -/
theorem tryPost_traffic {s t : State} {die ctx : Nat} {r : FRec} (h : s.tryPost die ctx r = .posted t) :
    Traffic s { t with mgmt := s.mgmt } := by
  obtain ⟨s1, s2, a, b, va, vb, h1, h2, rfl⟩ := State.tryPost_cases h
  obtain ⟨p, rfl⟩ := State.ctxWrite_cases h1
  obtain ⟨q, rfl⟩ := State.ctxWrite_cases h2
  have htraffic := (((s.clockTo_traffic die p).trans (State.writePlace_traffic _ p a)).trans (State.clockTo_traffic _ die q)).trans
    (State.writePlace_traffic _ q b)
  exact ⟨(congrArg (fun u : State => { u with mgmt := s.mgmt }) htraffic.1 :), htraffic.2⟩

/-- A record of a sound context, with none waiting, is posted where its queue takes it (R305). -/
theorem post_of_posted {s u : State} {die : Nat} {r : FRec} (hstate : (s.context r.ctx).state ≠ 4) (hwaiting : s.waitingRecs = [])
    (hpost : s.tryPost die r.ctx r = .posted u) : s.post die r = u := by
  have hfirst : s.sourceWaits r = false := by rw [State.sourceWaits, hwaiting]; rfl
  simp only [State.post, hstate, if_false, hpost, hfirst, Bool.false_eq_true]

theorem copies_of_getD (l : Tbl Die) (k : Nat) (h : (l.getD k {}).spareCopying = true) :
    l.any (fun (_, d) => d.spareCopying) = true := by
  induction l with
  | nil => exact absurd h Bool.false_ne_true
  | cons p l ih =>
    obtain ⟨j, e⟩ := p
    rw [Tbl.getD] at h
    rw [List.any_cons, Bool.or_eq_true]
    split at h
    · exact .inl h
    · exact .inr (ih h)

/-- Whether some die copies rows, once a die that copies as before is set. -/
theorem copying_setDie (s : State) (k : Nat) (d : Die) (h : d.spareCopying = (s.die k).spareCopying) :
    (s.setDie k d).copying = s.copying := by
  have hany : ∀ l : Tbl Die, d.spareCopying = (l.getD k {}).spareCopying →
      (l.set k d).any (fun (_, d) => d.spareCopying) = l.any (fun (_, d) => d.spareCopying) := by
    intro l hl
    induction l with
    | nil => simpa [Tbl.set, Tbl.getD] using hl
    | cons p l ih =>
      obtain ⟨j, e⟩ := p
      by_cases hj : j = k
      · simp_all [Tbl.set, Tbl.getD]
      · have htail : d.spareCopying = (Tbl.getD l k {}).spareCopying := by simpa [Tbl.getD, hj] using hl
        by_cases hlt : k < j
        · have hfound : d.spareCopying = true → l.any (fun (_, d) => d.spareCopying) = true :=
            fun hd => copies_of_getD l k (htail ▸ hd)
          cases hd : d.spareCopying <;> simp_all [Tbl.set]
        · simp [Tbl.set, hj, hlt, ih htail]
  exact hany s.dies h

theorem copying_traceAt (s : State) (die : Nat) (r : TraceRec) : (s.traceAt die r).copying = s.copying := by
  simp only [State.traceAt]
  split <;> exact copying_setDie _ _ _ rfl

/-- The trace of a stop leaves all else (R347, R348). -/
theorem traceStop_keeps (s : State) (src : Nat) (r : FRec) :
    SameReads s (s.traceStop src r) ∧ (s.traceStop src r).copying = s.copying ∧
      { s.traceStop src r with dies := s.dies } = s := by
  have hat : ∀ q, SameReads s (s.traceAt (dieOf src) q) ∧ (s.traceAt (dieOf src) q).copying = s.copying ∧
      { s.traceAt (dieOf src) q with dies := s.dies } = s := fun q =>
    ⟨.traceAt s _ q, copying_traceAt s _ q, (s.traceAt_only _ q).1⟩
  have hself : SameReads s s ∧ s.copying = s.copying ∧ { s with dies := s.dies } = s := ⟨.refl s, rfl, rfl⟩
  simp only [State.traceStop, State.trace]
  split
  · split
    · split
      · exact hat _
      · exact hself
    · exact hat _
  · exact hself

/-- The strand is to resume at `pc`. -/
def resumeAt (s : State) (src : Nat) (pc : Word) : State := s.updAt src fun v => { v with pc := pc }

/-- A stop with one record: its trace, its post, and the halt of the group. -/
theorem takeStop_singleton (s : State) (src : Nat) (pc : Word) (r : FRec) :
    s.takeStop src pc [r] =
      let t := ((resumeAt s src pc).traceStop src r).post (dieOf src) { r with halted := true, more := false }
      if (t.strand src).st = .unbound then t else t.haltGroup src := rfl

/-- The strand once the record of its stop is posted. -/
theorem strand_of_posted {s v : State} {src die ctx : Nat} {pc : Word} {r q : FRec}
    (h : ((resumeAt s src pc).traceStop src r).tryPost die ctx q = .posted v) : v.strand src = { s.strand src with pc := pc } := by
  obtain ⟨-, -, honly⟩ := traceStop_keeps (resumeAt s src pc) src r
  obtain ⟨htraffic, -⟩ := tryPost_traffic h
  have hposted : v.strands = ((resumeAt s src pc).traceStop src r).strands := (congrArg State.strands htraffic :)
  have htraced : ((resumeAt s src pc).traceStop src r).strands = (resumeAt s src pc).strands := (congrArg State.strands honly :)
  rw [State.strand, hposted, htraced]
  exact s.strand_updAt src _

/-- A stop with one record, which a state that the device reads alike can post: it is posted, and the strand halts where it is to
resume. -/
theorem takeStop_of_posted {s t u : State} {src : Nat} {pc : Word} {r : FRec} (h : SameReads s t) (hcopying : t.copying = s.copying)
    (hwaiting : t.waitingRecs = []) (hrunning : (t.strand src).st = .running) (hwait : (t.strand src).wait = .none)
    (hstate : (s.context r.ctx).state ≠ 4) (hpost : s.tryPost (dieOf src) r.ctx { r with halted := true, more := false } = .posted u) :
    (t.takeStop src pc [r]).mem = u.mem ∧
      (t.takeStop src pc [r]).strand src = { t.strand src with pc := pc, st := .halted, replay := none } := by
  obtain ⟨htrace, htcopying, honly⟩ := traceStop_keeps (resumeAt t src pc) src r
  have hreads : SameReads s ((resumeAt t src pc).traceStop src r) := (h.trans (.updAt t src _)).trans htrace
  obtain ⟨v, hv, hsame⟩ := hreads.tryPost (htcopying.trans hcopying) hpost
  have hnone : ((resumeAt t src pc).traceStop src r).waitingRecs = [] := (congrArg State.waitingRecs honly :).trans hwaiting
  have hposted := post_of_posted (r := { r with halted := true, more := false }) (by rw [hreads.context]; exact hstate) hnone hv
  have hstrand := strand_of_posted hv
  have hbound : (v.strand src).st ≠ .unbound := by rw [hstrand]; simp [hrunning]
  have htake : t.takeStop src pc [r] = v.haltGroup src := by rw [takeStop_singleton, hposted]; exact if_neg hbound
  obtain ⟨hmem, hhalt⟩ := haltGroup_keeps (s := v) (src := src) (by rw [hstrand]; exact hwait)
  rw [htake, hmem, hhalt, hstrand]
  exact ⟨hsame.mem, halt_of_running (by exact hrunning)⟩

end Machine

end Sys2Proof
end

section
/-! PROOFS. The matrix engine (R45, R46, R128, R293 to R297): follow-ons, an engine that fails, and what it stops. -/

namespace Sys2Proof
open Machine Claims
namespace Machine

section
variable {s : State} {src : Nat} {o : MxOp} {rest : List MxOp}

/-! ## A follow-on (R59, R252) -/

/-- Once its copy has completed, a follow-on whose A operands are full reads them. -/
theorem followOnIssue_of_copied {f : Nat} (hmxq : (s.strand src).mxq = o :: rest) (hfollow : o.follow = some f)
    (hheld : (s.strand src).mxHeld = false) (hcopied : ∀ c ∈ (s.strand src).cpq, c.num ≠ f)
    (hfull : ∀ k, (s.strand src).vec.fullOf k = 0xFFFF) (hvlb : ∃ k, 9 ≤ k ∧ k ≤ 13 ∧ s.vlb src = 2 ^ k) :
    exec (.followOnIssue src) s =
      .next (s.updAt src fun t => t.setMx ({ o with follow := none }.capture t.vec)) := by
  have hdone : (s.strand src).cpq.any (fun c => c.num == f) = false := by
    rw [List.any_eq_false]
    exact fun c hc => by simpa using hcopied c hc
  obtain ⟨-, hbounds⟩ := vectorLength_bounds hvlb
  have hmeets : ∀ srcs, ({ s.view with vlb := s.vlb src, x := (s.strand src).vec, force := o.force, resumed := false } : View).wholeMeets srcs
      = none := View.wholeMeets_of_full hfull hbounds
  show execFollowOnIssue src s = _
  simp only [execFollowOnIssue, hmxq, hfollow, hheld, hdone, Bool.or_self, Bool.false_eq_true, if_false, hmeets]

/-! ## An engine that fails (R128, R297, R361) -/

/-- A message to the host changes memory, the caches and the messages sent alone. -/
theorem hostMessage_only (s : State) (addr w : Word) :
    OnlyBytes s { s.hostMessage addr w with hostMsgs := s.hostMsgs } :=
  (congrArg (fun u : State => { u with hostMsgs := s.hostMsgs }) (s.writeAt_bytes (Place.host addr.toNat).key (leBytes 8 w.toNat) none) :)

/-- A degradation sets REPL and its REPLWHY bit, and sends at most a message. -/
theorem replace_only (s : State) (why : Nat) :
    OnlyBytes { s with boot := { s.boot with repl := true, replwhy := s.boot.replwhy ||| BitVec.ofNat 5 (2 ^ why) } }
      { s.replace why with hostMsgs := s.hostMsgs } := by
  unfold State.replace
  dsimp only
  split
  · exact hostMessage_only _ _ _
  · rfl

/-- The engine of the strand's core is marked failed, and firmware is told. -/
def engineMarked (s : State) (src : Nat) : State :=
  let k := coreOf src
  let t := s.setCore k { s.core k with engineFailed := true }
  { t with mgmt := t.mgmt ++ [MgmtNote.engineFailed (dieOf src) (k % 16)], flash := { t.flash with engines := t.flash.engines ++ [k] } }

theorem matrixEngineFailed_of_idle {fails : List (Nat × Nat)} (hidle : (s.strand src).mxq = []) :
    exec (.matrixEngineFailed ⟨src, fails⟩) s = .next ((engineMarked s src).replace 4) := by
  have hstrands : ((engineMarked s src).replace 4).strands = s.strands :=
    (congrArg State.strands (replace_only (engineMarked s src) 4) :)
  have hq : (((engineMarked s src).replace 4).strand src).mxq = [] := by
    rw [State.strand, hstrands]; exact hidle
  show execMatrixEngineFailed ⟨src, fails⟩ s = _
  simp only [engineMarked] at hq
  simp only [execMatrixEngineFailed, hq, engineMarked]

/-- What a failed engine of an idle strand leaves. -/
theorem replace_engineMarked (s : State) (src : Nat) :
    let t := (engineMarked s src).replace 4
    (t.core (coreOf src)).engineFailed = true ∧ (∀ k, k ≠ coreOf src → t.core k = s.core k) ∧
      MgmtNote.engineFailed (dieOf src) (coreOf src % 16) ∈ t.mgmt ∧ coreOf src ∈ t.flash.engines ∧ t.boot.repl = true ∧
      t.boot.replwhy = s.boot.replwhy ||| 16 ∧ t.strands = s.strands := by
  have hbytes := replace_only (engineMarked s src) 4
  have hcores : ((engineMarked s src).replace 4).cores = (engineMarked s src).cores := (congrArg State.cores hbytes :)
  have hboot : ((engineMarked s src).replace 4).boot = { s.boot with repl := true, replwhy := s.boot.replwhy ||| 16 } :=
    (congrArg State.boot hbytes :)
  have hmgmt : ((engineMarked s src).replace 4).mgmt = (engineMarked s src).mgmt := (congrArg State.mgmt hbytes :)
  have hflash : ((engineMarked s src).replace 4).flash = (engineMarked s src).flash := (congrArg State.flash hbytes :)
  have hcore : ∀ k, ((engineMarked s src).replace 4).core k = (engineMarked s src).core k := fun k => by
    rw [State.core, hcores]; rfl
  refine ⟨?_, fun k hk => ?_, ?_, ?_, ?_, ?_, (congrArg State.strands hbytes :)⟩
  · rw [hcore]
    exact (congrArg Core.engineFailed (Tbl.getD_set_self s.cores (coreOf src) _ _) :)
  · rw [hcore]
    exact Tbl.getD_set_ne _ _ _ _ _ hk
  · rw [hmgmt]
    exact List.mem_append_right _ (List.mem_singleton_self _)
  · rw [hflash]
    exact List.mem_append_right _ (List.mem_singleton_self _)
  · rw [hboot]
  · rw [hboot]

end

/-! ## A failed engine stops its operation (R128) -/

theorem matrixSlice_of_failed {s : State} {src : Nat} {o : MxOp} {rest : List MxOp} (hmxq : (s.strand src).mxq = o :: rest)
    (hheld : (s.strand src).mxHeld = false) (hcap : o.captured ≠ none) (hslot : (s.strand src).slotFilling o = false)
    (hbegun : o.begun = true) (hfailed : (s.core (coreOf src)).engineFailed = true) :
    exec (.matrixSlice src .ok) s = .next (s.mxStop src o (mxProgOf o.exempt o.slice o.elem) 41 16
      (BitVec.ofNat 64 (o.slice % 2 ^ 16 * 2 ^ 24)) 0xFFFFFFFF) := by
  have hsome : o.captured.isNone = false := by
    cases hc : o.captured with
    | none => exact absurd hc hcap
    | some c => rfl
  show execMatrixSlice src .ok s = _
  simp only [execMatrixSlice, hmxq, hheld, hsome, hslot, hfailed, hbegun, Bool.or_self, Bool.false_eq_true, if_false, if_true]

/-- A strand whose first matrix operation stops with `prog` in MXPROG (R295). -/
def mxStopped (t : Strand) (o : MxOp) (prog : Word) : Strand :=
  { t.setMx o with mxHeld := true, csr := { t.csr with mxprog := prog } }

theorem mxStopped_of_mxq {t : Strand} {o p : MxOp} {rest : List MxOp} {prog : Word} (h : t.mxq = o :: rest) :
    mxStopped t p prog = { t with mxq := p :: rest, mxHeld := true, csr := { t.csr with mxprog := prog } } := by
  rw [mxStopped, setMx_of_mxq h]

/-- The first operation stops with its record: the strand is marked, and takes the exception at its PC. -/
theorem mxStop_of_mxq {s : State} {src : Nat} {o p : MxOp} {rest : List MxOp} (h : (s.strand src).mxq = o :: rest) (prog : Word)
    (cause kind : Nat) (va : Word) (elem : BitVec 32) :
    s.mxStop src p prog cause kind va elem = (s.updAt src fun t => mxStopped t p prog).takeStop src (s.strand src).pc
      [{ s.record src cause kind va elem p.member p.pc 0 with source := matrixSource src }] := by
  have hstrand : (s.updAt src fun t => mxStopped t p prog).strand src = _ := (s.strand_updAt src _).trans (mxStopped_of_mxq h)
  show State.takeStop (s.updAt src fun t => mxStopped t p prog) src ((s.updAt src fun t => mxStopped t p prog).strand src).pc
    [{ (s.updAt src fun t => mxStopped t p prog).record src cause kind va elem p.member p.pc 0 with source := matrixSource src }] = _
  simp only [State.record, hstrand]
  rfl

/-- On a failed engine an operation stops with cause 41 at its slice, and its strand halts. -/
theorem haltsAt_of_failed {s : State} {src : Nat} {o : MxOp} {rest : List MxOp} (hmxq : (s.strand src).mxq = o :: rest)
    (hheld : (s.strand src).mxHeld = false) (hcap : o.captured ≠ none) (hslot : (s.strand src).slotFilling o = false)
    (hbegun : o.begun = true) (hfailed : (s.core (coreOf src)).engineFailed = true) :
    HaltsAt (.matrixSlice src .ok) s src
      { s.record src 41 16 (BitVec.ofNat 64 (o.slice % 2 ^ 16 * 2 ^ 24)) 0xFFFFFFFF o.member o.pc 0 with source := matrixSource src } := by
  intro u hwaiting hrunning hwait hstate hpost
  refine ⟨_, matrixSlice_of_failed hmxq hheld hcap hslot hbegun hfailed, ?_⟩
  have hstrand : (s.updAt src fun t => mxStopped t o (mxProgOf o.exempt o.slice o.elem)).strand src = _ :=
    (s.strand_updAt src _).trans (mxStopped_of_mxq hmxq)
  have hreads := SameReads.updAt s src fun t => mxStopped t o (mxProgOf o.exempt o.slice o.elem)
  obtain ⟨hmem, hhalted⟩ := takeStop_of_posted (pc := (s.strand src).pc) hreads rfl hwaiting (by rw [hstrand]; exact hrunning)
    (by rw [hstrand]; exact hwait) hstate hpost
  rw [hstrand] at hhalted
  rw [mxStop_of_mxq hmxq, hhalted]
  exact ⟨hmem, rfl, rfl, fun n => rfl⟩

end Machine

/-- Settles O20: a ready slice is evaluated element by element, and an element's exact sum is rounded or wrapped once; a
stop of a failed engine is posted because the trace and the mark of the strand leave what the device reads for the context. -/
theorem matrixEngineResults : Obligations.MatrixEngineResults := by
  intro s src o rest
  refine ⟨fun l c hc => mxAcc_intTerms l c hc, fun h hkind _ htrap => slice_of_ready h hkind htrap,
    fun h hkind hbegun => mxsum_of_ready h hkind hbegun, fun hmxq hheld hcap hslot hbegun hfailed =>
    haltsAt_of_failed hmxq hheld hcap hslot hbegun hfailed, fun fails hidle =>
    ⟨_, matrixEngineFailed_of_idle hidle, replace_engineMarked s src⟩, ?_⟩
  intro f hmxq hfollow hheld hcopied hfull hvlb _
  refine ⟨_, followOnIssue_of_copied hmxq hfollow hheld hcopied hfull hvlb, onlyStrand_updAt s src _, fun _ => rfl, ?_⟩
  rw [State.strand_updAt, setMx_of_mxq hmxq]
  exact ⟨rfl, rfl⟩

end Sys2Proof
end

section
/-! PROOFS. The formats of R48 to R52: how each cuts a word into operands and opcode bits, and that a word is one of a format's exactly
when its fields hold the operands and its other bits the opcode. -/

namespace Sys2Proof

/-- A piece of a word as a format of R48 to R52 cuts it, from bit 31 down: a field that holds an operand, or bits that the format
leaves to the opcode. -/
inductive Piece where
  | gap (n : Nat)
  | field {n : Nat} (v : BitVec n)

namespace Piece

/-! ## Words as sums of operands at their places -/

/-- The number of bits of the pieces of a list. -/
@[simp] def total : List Piece → Nat
  | [] => 0
  | gap n :: r => n + total r
  | field (n := n) _ :: r => n + total r

/-- The operands at their places. -/
@[simp] def val : List Piece → Nat
  | [] => 0
  | gap _ :: r => val r
  | field v :: r => v.toNat * 2 ^ total r + val r

/-- The bits `base` gives are none of a field. -/
@[simp] def clear (base : Nat) : List Piece → Bool
  | [] => true
  | gap _ :: r => clear base r
  | field (n := n) _ :: r => base / 2 ^ total r % 2 ^ n == 0 && clear base r

/-- Every field of the word holds its operand. -/
@[simp] def Reads (w : BitVec 32) : List Piece → Prop
  | [] => True
  | gap _ :: r => Reads w r
  | field (n := n) v :: r => fld w (total r) n = v ∧ Reads w r

/-- Every gap of the word holds what `base` has there. -/
@[simp] def Keeps (w : BitVec 32) (base : Nat) : List Piece → Prop
  | [] => True
  | gap n :: r => fldN w (total r) n = base / 2 ^ total r % 2 ^ n ∧ Keeps w base r
  | field _ :: r => Keeps w base r

theorem mod_two_pow_add (a n k : Nat) : a % 2 ^ (n + k) = a / 2 ^ k % 2 ^ n * 2 ^ k + a % 2 ^ k := by
  rw [Nat.add_comm n k, Nat.pow_add, Nat.mod_mul]; ring

/-- An upper part below `u` and a lower part below `m` make a number below `u * m`. -/
theorem parts_lt {x u a m : Nat} (hx : x < u) (ha : a < m) : x * m + a < u * m := by
  calc x * m + a < x * m + m := by omega
    _ = (x + 1) * m := by ring
    _ ≤ u * m := Nat.mul_le_mul_right m hx

/-- Two numbers are equal when their upper parts and their lower parts are. -/
theorem parts_eq_iff {x y a b m : Nat} (ha : a < m) (hb : b < m) : x * m + a = y * m + b ↔ x = y ∧ a = b := by
  constructor
  · intro h
    have hx : x = y := by
      simpa [Nat.mul_add_div (Nat.zero_lt_of_lt ha), Nat.mul_comm _ m, Nat.div_eq_of_lt ha, Nat.div_eq_of_lt hb]
        using congrArg (· / m) h
    subst hx
    exact ⟨rfl, by omega⟩
  · rintro ⟨rfl, rfl⟩; rfl

theorem val_add_lt (base : Nat) (t : List Piece) (h : clear base t = true) : val t + base % 2 ^ total t < 2 ^ total t := by
  induction t with
  | nil => simp [val, total, Nat.mod_one]
  | cons p r ih =>
    cases p with
    | gap n =>
      have hgap := parts_lt (Nat.mod_lt (base / 2 ^ total r) (Nat.two_pow_pos n)) (ih h)
      rwa [val, total, mod_two_pow_add, Nat.pow_add, Nat.add_left_comm]
    | @field n v =>
      simp only [clear, Bool.and_eq_true, beq_iff_eq] at h
      have hfield := parts_lt v.isLt (ih h.2)
      rwa [val, total, mod_two_pow_add, Nat.pow_add, h.1, Nat.zero_mul, Nat.zero_add, Nat.add_assoc]

theorem val_add_eq_iff (base : Nat) (w : BitVec 32) (t : List Piece) (h : clear base t = true) :
    val t + base % 2 ^ total t = w.toNat % 2 ^ total t ↔ Reads w t ∧ Keeps w base t := by
  induction t with
  | nil => simp [val, total, Nat.mod_one, Reads, Keeps]
  | cons p r ih =>
    have hlow := Nat.mod_lt w.toNat (Nat.two_pow_pos (total r))
    cases p with
    | gap n =>
      have hr := val_add_lt base r h
      rw [val, total, mod_two_pow_add, mod_two_pow_add, Nat.add_left_comm, parts_eq_iff hr hlow, ih h, Reads, Keeps, fldN]
      tauto
    | @field n v =>
      simp only [clear, Bool.and_eq_true, beq_iff_eq] at h
      have hr := val_add_lt base r h.2
      rw [val, total, mod_two_pow_add, mod_two_pow_add, h.1, Nat.zero_mul, Nat.zero_add, Nat.add_assoc, parts_eq_iff hr hlow, ih h.2,
        Reads, Keeps, fld, ← BitVec.toNat_inj, BitVec.toNat_ofNat]
      tauto

/-- A word is the operands at their places over `base` exactly when its fields hold the operands and its gaps the bits of `base`. -/
theorem ofNat_val_eq_iff {base : Nat} {w : BitVec 32} {t : List Piece} (ht : total t = 32)
    (h : clear base t = true) : BitVec.ofNat 32 (val t + base) = w ↔ Reads w t ∧ Keeps w base t := by
  have hlt := val_add_lt base t h
  rw [← val_add_eq_iff base w t h]
  rw [ht] at hlt ⊢
  rw [Nat.mod_eq_of_lt w.isLt, ← BitVec.toNat_inj, BitVec.toNat_ofNat, ← Nat.add_mod_mod, Nat.mod_eq_of_lt hlt]

/-- A format whose fields and opcode bits are the pieces `t`: a word of it is `w` exactly when `w` reads back the operands and holds
the opcode. -/
theorem eq_iff_of_pieces {α : Type} {of : BitVec 32 → α} {x : α} {v w : BitVec 32} {base : Nat} {t : List Piece} (ht : total t = 32)
    (hword : v = BitVec.ofNat 32 (val t + base)) (hof : Reads w t ↔ of w = x) (h : clear base t = true) :
    v = w ↔ of w = x ∧ Keeps w base t := by
  rw [hword, ofNat_val_eq_iff ht h, hof]

/-- A word of the opcode alone. -/
theorem opcode_eq_iff {base : Nat} {w : BitVec 32} :
    BitVec.ofNat 32 base = w ↔ Keeps w base [.gap 1, .gap 6, .gap 10, .gap 3, .gap 12] := by
  simpa using ofNat_val_eq_iff (base := base) (w := w) (t := [.gap 1, .gap 6, .gap 10, .gap 3, .gap 12]) rfl rfl

end Piece

/-! ## The formats (R48 to R52, R54)

Of each format its pieces from bit 31 down, and that they are what the model's reader and writer of the format agree on. A gap is cut
where the decoder looks at its parts one by one: the opcode bits, and bits that must be 0. -/

open Piece

@[simp] def Code12.pieces (x : Code12) : List Piece :=
  [.gap 1, .gap 6, .gap 10, .gap 3, .field x.code]

@[simp] theorem Code12.word_eq_iff {x : Code12} {base : Nat} {w : BitVec 32} (h : clear base x.pieces = true) :
    x.word base = w ↔ .of w = x ∧ Keeps w base x.pieces :=
  eq_iff_of_pieces rfl (by simp [Code12.word]) (by cases x; simp [Code12.of]) h

@[simp] def FenceOp.pieces (x : FenceOp) : List Piece :=
  [.gap 1, .gap 6, .gap 10, .gap 3, .gap 6, .field x.kinds, .field x.scope]

@[simp] theorem FenceOp.word_eq_iff {x : FenceOp} {base : Nat} {w : BitVec 32} (h : clear base x.pieces = true) :
    x.word base = w ↔ .of w = x ∧ Keeps w base x.pieces :=
  eq_iff_of_pieces rfl (by simp [FenceOp.word, Nat.add_assoc]) (by cases x; simp [FenceOp.of]) h

@[simp] def ScopeOp.pieces (x : ScopeOp) : List Piece :=
  [.gap 1, .gap 6, .gap 10, .gap 3, .gap 9, .field x.scope]

@[simp] theorem ScopeOp.word_eq_iff {x : ScopeOp} {base : Nat} {w : BitVec 32} (h : clear base x.pieces = true) :
    x.word base = w ↔ .of w = x ∧ Keeps w base x.pieces :=
  eq_iff_of_pieces rfl (by simp [ScopeOp.word]) (by cases x; simp [ScopeOp.of]) h

@[simp] def SReg3.pieces (x : SReg3) : List Piece :=
  [.gap 1, .gap 6, .field x.sd, .field x.sa, .field x.sb, .gap 10]

@[simp] theorem SReg3.word_eq_iff {x : SReg3} {base : Nat} {w : BitVec 32} (h : clear base x.pieces = true) :
    x.word base = w ↔ .of w = x ∧ Keeps w base x.pieces :=
  eq_iff_of_pieces rfl (by simp [SReg3.word, Nat.add_assoc]) (by cases x; simp [SReg3.of]) h

@[simp] def SReg2.pieces (x : SReg2) : List Piece :=
  [.gap 1, .gap 6, .field x.sd, .field x.sa, .gap 5, .gap 10]

@[simp] theorem SReg2.word_eq_iff {x : SReg2} {base : Nat} {w : BitVec 32} (h : clear base x.pieces = true) :
    x.word base = w ↔ .of w = x ∧ Keeps w base x.pieces :=
  eq_iff_of_pieces rfl (by simp [SReg2.word, Nat.add_assoc]) (by cases x; simp [SReg2.of]) h

@[simp] def SImm.pieces (x : SImm) : List Piece :=
  [.gap 1, .gap 6, .field x.sd, .field x.sa, .gap 3, .field x.imm]

@[simp] theorem SImm.word_eq_iff {x : SImm} {base : Nat} {w : BitVec 32} (h : clear base x.pieces = true) :
    x.word base = w ↔ .of w = x ∧ Keeps w base x.pieces :=
  eq_iff_of_pieces rfl (by simp [SImm.word, Nat.add_assoc]) (by cases x; simp [SImm.of]) h

@[simp] def SShift.pieces (x : SShift) : List Piece :=
  [.gap 1, .gap 6, .field x.sd, .field x.sa, .gap 3, .gap 2, .gap 4, .field x.amount]

@[simp] theorem SShift.word_eq_iff {x : SShift} {base : Nat} {w : BitVec 32} (h : clear base x.pieces = true) :
    x.word base = w ↔ .of w = x ∧ Keeps w base x.pieces :=
  eq_iff_of_pieces rfl (by simp [SShift.word, Nat.add_assoc]) (by cases x; simp [SShift.of]) h

@[simp] def SUpper.pieces (x : SUpper) : List Piece :=
  [.gap 1, .gap 6, .field x.sd, .field x.imm20]

@[simp] theorem SUpper.word_eq_iff {x : SUpper} {base : Nat} {w : BitVec 32} (h : clear base x.pieces = true) :
    x.word base = w ↔ .of w = x ∧ Keeps w base x.pieces :=
  eq_iff_of_pieces rfl (by simp [SUpper.word, Nat.add_assoc]) (by cases x; simp [SUpper.of]) h

@[simp] def SStore.pieces (x : SStore) : List Piece :=
  [.gap 1, .gap 6, .field x.ss, .field x.sa, .gap 3, .field x.imm]

@[simp] theorem SStore.word_eq_iff {x : SStore} {base : Nat} {w : BitVec 32} (h : clear base x.pieces = true) :
    x.word base = w ↔ .of w = x ∧ Keeps w base x.pieces :=
  eq_iff_of_pieces rfl (by simp [SStore.word, Nat.add_assoc]) (by cases x; simp [SStore.of]) h

@[simp] def AmoOp.pieces (x : AmoOp) : List Piece :=
  [.gap 1, .gap 6, .field x.sd, .field x.sa, .field x.sb, .field x.scope, .field x.order, .field x.wide, .gap 4]

@[simp] theorem AmoOp.word_eq_iff {x : AmoOp} {base : Nat} {w : BitVec 32} (h : clear base x.pieces = true) :
    x.word base = w ↔ .of w = x ∧ Keeps w base x.pieces :=
  eq_iff_of_pieces rfl (by simp [AmoOp.word, Nat.add_assoc]) (by cases x; simp [AmoOp.of]) h

@[simp] def BranchOp.pieces (x : BranchOp) : List Piece :=
  [.gap 1, .gap 6, .field x.sa, .field x.sb, .gap 3, .field x.off]

@[simp] theorem BranchOp.word_eq_iff {x : BranchOp} {base : Nat} {w : BitVec 32} (h : clear base x.pieces = true) :
    x.word base = w ↔ .of w = x ∧ Keeps w base x.pieces :=
  eq_iff_of_pieces rfl (by simp [BranchOp.word, Nat.add_assoc]) (by cases x; simp [BranchOp.of]) h

@[simp] def MBranchOp.pieces (x : MBranchOp) : List Piece :=
  [.gap 1, .gap 6, .gap 2, .field x.reg, .gap 5, .gap 3, .field x.off]

@[simp] theorem MBranchOp.word_eq_iff {x : MBranchOp} {base : Nat} {w : BitVec 32} (h : clear base x.pieces = true) :
    x.word base = w ↔ .of w = x ∧ Keeps w base x.pieces :=
  eq_iff_of_pieces rfl (by simp [MBranchOp.word, Nat.add_assoc]) (by cases x; simp [MBranchOp.of]) h

@[simp] def JalOp.pieces (x : JalOp) : List Piece :=
  [.gap 1, .gap 6, .field x.sd, .field x.off20]

@[simp] theorem JalOp.word_eq_iff {x : JalOp} {base : Nat} {w : BitVec 32} (h : clear base x.pieces = true) :
    x.word base = w ↔ .of w = x ∧ Keeps w base x.pieces :=
  eq_iff_of_pieces rfl (by simp [JalOp.word, Nat.add_assoc]) (by cases x; simp [JalOp.of]) h

@[simp] def CsrOp.pieces (x : CsrOp) : List Piece :=
  [.gap 1, .gap 6, .field x.sd, .field x.sa, .gap 3, .field x.csr]

@[simp] theorem CsrOp.word_eq_iff {x : CsrOp} {base : Nat} {w : BitVec 32} (h : clear base x.pieces = true) :
    x.word base = w ↔ .of w = x ∧ Keeps w base x.pieces :=
  eq_iff_of_pieces rfl (by simp [CsrOp.word, Nat.add_assoc]) (by cases x; simp [CsrOp.of]) h

@[simp] def CsrROp.pieces (x : CsrROp) : List Piece :=
  [.gap 1, .gap 6, .field x.sd, .gap 5, .gap 3, .field x.csr]

@[simp] theorem CsrROp.word_eq_iff {x : CsrROp} {base : Nat} {w : BitVec 32} (h : clear base x.pieces = true) :
    x.word base = w ↔ .of w = x ∧ Keeps w base x.pieces :=
  eq_iff_of_pieces rfl (by simp [CsrROp.word, Nat.add_assoc]) (by cases x; simp [CsrROp.of]) h

@[simp] def GGetOp.pieces (x : GGetOp) : List Piece :=
  [.gap 1, .gap 6, .field x.sd, .gap 2, .field x.grant, .field x.field, .gap 10]

@[simp] theorem GGetOp.word_eq_iff {x : GGetOp} {base : Nat} {w : BitVec 32} (h : clear base x.pieces = true) :
    x.word base = w ↔ .of w = x ∧ Keeps w base x.pieces :=
  eq_iff_of_pieces rfl (by simp [GGetOp.word, Nat.add_assoc]) (by cases x; simp [GGetOp.of]) h

@[simp] def GSetOp.pieces (x : GSetOp) : List Piece :=
  [.gap 1, .gap 6, .gap 2, .field x.grant, .field x.sa, .field x.field, .gap 10]

@[simp] theorem GSetOp.word_eq_iff {x : GSetOp} {base : Nat} {w : BitVec 32} (h : clear base x.pieces = true) :
    x.word base = w ↔ .of w = x ∧ Keeps w base x.pieces :=
  eq_iff_of_pieces rfl (by simp [GSetOp.word, Nat.add_assoc]) (by cases x; simp [GSetOp.of]) h

@[simp] def GClrOp.pieces (x : GClrOp) : List Piece :=
  [.gap 1, .gap 6, .gap 2, .field x.grant, .gap 10, .gap 10]

@[simp] theorem GClrOp.word_eq_iff {x : GClrOp} {base : Nat} {w : BitVec 32} (h : clear base x.pieces = true) :
    x.word base = w ↔ .of w = x ∧ Keeps w base x.pieces :=
  eq_iff_of_pieces rfl (by simp [GClrOp.word]) (by cases x; simp [GClrOp.of]) h

@[simp] def SetvlOp.pieces (x : SetvlOp) : List Piece :=
  [.gap 1, .gap 6, .field x.sd, .field x.sa, .field x.etype, .field x.group, .field x.policy, .gap 3, .gap 2]

@[simp] theorem SetvlOp.word_eq_iff {x : SetvlOp} {base : Nat} {w : BitVec 32} (h : clear base x.pieces = true) :
    x.word base = w ↔ .of w = x ∧ Keeps w base x.pieces :=
  eq_iff_of_pieces rfl (by simp [SetvlOp.word, Nat.add_assoc]) (by cases x; simp [SetvlOp.of]) h

@[simp] def RptOp.pieces (x : RptOp) : List Piece :=
  [.gap 1, .gap 6, .field x.sa, .field x.sb, .field x.stagger, .field x.fm1, .gap 4, .gap 2]

@[simp] theorem RptOp.word_eq_iff {x : RptOp} {base : Nat} {w : BitVec 32} (h : clear base x.pieces = true) :
    x.word base = w ↔ .of w = x ∧ Keeps w base x.pieces :=
  eq_iff_of_pieces rfl (by simp [RptOp.word, Nat.add_assoc]) (by cases x; simp [RptOp.of]) h

@[simp] def V3.pieces (x : V3) : List Piece :=
  [.field x.c, .gap 6, .field x.vd, .field x.va, .field x.vb, .field x.mask, .field x.kb, .field x.ea, .field x.eb, .gap 2]

@[simp] theorem V3.word_eq_iff {x : V3} {base : Nat} {w : BitVec 32} (h : clear base x.pieces = true) :
    x.word base = w ↔ .of w = x ∧ Keeps w base x.pieces :=
  eq_iff_of_pieces rfl (by simp [V3.word, Nat.add_assoc]) (by cases x; simp [V3.of]) h

@[simp] def V3U.pieces (x : V3U) : List Piece :=
  [.field x.c, .gap 6, .field x.vd, .field x.va, .gap 6, .field x.mask, .gap 1, .field x.ea, .gap 1, .gap 2]

@[simp] theorem V3U.word_eq_iff {x : V3U} {base : Nat} {w : BitVec 32} (h : clear base x.pieces = true) :
    x.word base = w ↔ .of w = x ∧ Keeps w base x.pieces :=
  eq_iff_of_pieces rfl (by simp [V3U.word, Nat.add_assoc]) (by cases x; simp [V3U.of]) h

@[simp] def V3Cmp.pieces (x : V3Cmp) : List Piece :=
  [.field x.c, .gap 6, .gap 3, .field x.md, .field x.va, .field x.vb, .field x.mask, .field x.kb, .field x.ea, .field x.eb, .gap 2]

@[simp] theorem V3Cmp.word_eq_iff {x : V3Cmp} {base : Nat} {w : BitVec 32} (h : clear base x.pieces = true) :
    x.word base = w ↔ .of w = x ∧ Keeps w base x.pieces :=
  eq_iff_of_pieces rfl (by simp [V3Cmp.word, Nat.add_assoc]) (by cases x; simp [V3Cmp.of]) h

@[simp] def M3.pieces (x : M3) : List Piece :=
  [.field x.c, .gap 6, .gap 3, .field x.md, .gap 3, .field x.ma, .gap 3, .field x.mb, .field x.mask, .gap 3, .gap 2]

@[simp] theorem M3.word_eq_iff {x : M3} {base : Nat} {w : BitVec 32} (h : clear base x.pieces = true) :
    x.word base = w ↔ .of w = x ∧ Keeps w base x.pieces :=
  eq_iff_of_pieces rfl (by simp [M3.word, Nat.add_assoc]) (by cases x; simp [M3.of]) h

@[simp] def M2.pieces (x : M2) : List Piece :=
  [.field x.c, .gap 6, .gap 3, .field x.md, .gap 3, .field x.ma, .gap 6, .field x.mask, .gap 3, .gap 2]

@[simp] theorem M2.word_eq_iff {x : M2} {base : Nat} {w : BitVec 32} (h : clear base x.pieces = true) :
    x.word base = w ↔ .of w = x ∧ Keeps w base x.pieces :=
  eq_iff_of_pieces rfl (by simp [M2.word, Nat.add_assoc]) (by cases x; simp [M2.of]) h

@[simp] def MCount.pieces (x : MCount) : List Piece :=
  [.field x.c, .gap 6, .gap 1, .field x.sd, .gap 3, .field x.ma, .gap 6, .field x.mask, .gap 3, .gap 2]

@[simp] theorem MCount.word_eq_iff {x : MCount} {base : Nat} {w : BitVec 32} (h : clear base x.pieces = true) :
    x.word base = w ↔ .of w = x ∧ Keeps w base x.pieces :=
  eq_iff_of_pieces rfl (by simp [MCount.word, Nat.add_assoc]) (by cases x; simp [MCount.of]) h

@[simp] def M1.pieces (x : M1) : List Piece :=
  [.field x.c, .gap 6, .gap 3, .field x.md, .gap 12, .field x.mask, .gap 3, .gap 2]

@[simp] theorem M1.word_eq_iff {x : M1} {base : Nat} {w : BitVec 32} (h : clear base x.pieces = true) :
    x.word base = w ↔ .of w = x ∧ Keeps w base x.pieces :=
  eq_iff_of_pieces rfl (by simp [M1.word, Nat.add_assoc]) (by cases x; simp [M1.of]) h

@[simp] def VBcastOp.pieces (x : VBcastOp) : List Piece :=
  [.field x.c, .gap 6, .field x.vd, .gap 6, .field x.vb, .field x.mask, .field x.kb, .gap 1, .field x.eb, .gap 2]

@[simp] theorem VBcastOp.word_eq_iff {x : VBcastOp} {base : Nat} {w : BitVec 32} (h : clear base x.pieces = true) :
    x.word base = w ↔ .of w = x ∧ Keeps w base x.pieces :=
  eq_iff_of_pieces rfl (by simp [VBcastOp.word, Nat.add_assoc]) (by cases x; simp [VBcastOp.of]) h

@[simp] def VMvsOp.pieces (x : VMvsOp) : List Piece :=
  [.field x.c, .gap 6, .gap 1, .field x.sd, .field x.va, .gap 9, .field x.ea, .gap 1, .gap 2]

@[simp] theorem VMvsOp.word_eq_iff {x : VMvsOp} {base : Nat} {w : BitVec 32} (h : clear base x.pieces = true) :
    x.word base = w ↔ .of w = x ∧ Keeps w base x.pieces :=
  eq_iff_of_pieces rfl (by simp [VMvsOp.word, Nat.add_assoc]) (by cases x; simp [VMvsOp.of]) h

@[simp] def VMsvOp.pieces (x : VMsvOp) : List Piece :=
  [.field x.c, .gap 6, .field x.vd, .gap 7, .field x.sb, .field x.mask, .gap 3, .gap 2]

@[simp] theorem VMsvOp.word_eq_iff {x : VMsvOp} {base : Nat} {w : BitVec 32} (h : clear base x.pieces = true) :
    x.word base = w ↔ .of w = x ∧ Keeps w base x.pieces :=
  eq_iff_of_pieces rfl (by simp [VMsvOp.word, Nat.add_assoc]) (by cases x; simp [VMsvOp.of]) h

@[simp] def VSlideOp.pieces (x : VSlideOp) : List Piece :=
  [.field x.c, .gap 6, .field x.vd, .field x.va, .gap 1, .field x.sb, .field x.mask, .gap 1, .field x.ea, .gap 1, .gap 2]

@[simp] theorem VSlideOp.word_eq_iff {x : VSlideOp} {base : Nat} {w : BitVec 32} (h : clear base x.pieces = true) :
    x.word base = w ↔ .of w = x ∧ Keeps w base x.pieces :=
  eq_iff_of_pieces rfl (by simp [VSlideOp.word, Nat.add_assoc]) (by cases x; simp [VSlideOp.of]) h

@[simp] def V3NoKb.pieces (x : V3NoKb) : List Piece :=
  [.field x.c, .gap 6, .field x.vd, .field x.va, .field x.vb, .field x.mask, .gap 1, .field x.ea, .field x.eb, .gap 2]

@[simp] theorem V3NoKb.word_eq_iff {x : V3NoKb} {base : Nat} {w : BitVec 32} (h : clear base x.pieces = true) :
    x.word base = w ↔ .of w = x ∧ Keeps w base x.pieces :=
  eq_iff_of_pieces rfl (by simp [V3NoKb.word, Nat.add_assoc]) (by cases x; simp [V3NoKb.of]) h

@[simp] def VIdOp.pieces (x : VIdOp) : List Piece :=
  [.field x.c, .gap 6, .field x.vd, .gap 12, .field x.mask, .gap 3, .gap 2]

@[simp] theorem VIdOp.word_eq_iff {x : VIdOp} {base : Nat} {w : BitVec 32} (h : clear base x.pieces = true) :
    x.word base = w ↔ .of w = x ∧ Keeps w base x.pieces :=
  eq_iff_of_pieces rfl (by simp [VIdOp.word, Nat.add_assoc]) (by cases x; simp [VIdOp.of]) h

@[simp] def VSelMOp.pieces (x : VSelMOp) : List Piece :=
  [.field x.c, .gap 6, .field x.vd, .field x.va, .gap 3, .field x.mb, .gap 3, .field x.ea, .gap 1, .gap 2]

@[simp] theorem VSelMOp.word_eq_iff {x : VSelMOp} {base : Nat} {w : BitVec 32} (h : clear base x.pieces = true) :
    x.word base = w ↔ .of w = x ∧ Keeps w base x.pieces :=
  eq_iff_of_pieces rfl (by simp [VSelMOp.word, Nat.add_assoc]) (by cases x; simp [VSelMOp.of]) h

@[simp] def VReadyOp.pieces (x : VReadyOp) : List Piece :=
  [.field x.c, .gap 6, .gap 1, .field x.sd, .field x.va, .gap 11, .gap 2]

@[simp] theorem VReadyOp.word_eq_iff {x : VReadyOp} {base : Nat} {w : BitVec 32} (h : clear base x.pieces = true) :
    x.word base = w ↔ .of w = x ∧ Keeps w base x.pieces :=
  eq_iff_of_pieces rfl (by simp [VReadyOp.word, Nat.add_assoc]) (by cases x; simp [VReadyOp.of]) h

@[simp] def VCvtOp.pieces (x : VCvtOp) : List Piece :=
  [.field x.c, .gap 6, .field x.vd, .field x.va, .field x.etype, .field x.mask, .gap 1, .field x.ea, .gap 1, .gap 2]

@[simp] theorem VCvtOp.word_eq_iff {x : VCvtOp} {base : Nat} {w : BitVec 32} (h : clear base x.pieces = true) :
    x.word base = w ↔ .of w = x ∧ Keeps w base x.pieces :=
  eq_iff_of_pieces rfl (by simp [VCvtOp.word, Nat.add_assoc]) (by cases x; simp [VCvtOp.of]) h

@[simp] def V3NoMask.pieces (x : V3NoMask) : List Piece :=
  [.field x.c, .gap 6, .field x.vd, .field x.va, .field x.vb, .gap 3, .field x.ea, .gap 1, .gap 2]

@[simp] theorem V3NoMask.word_eq_iff {x : V3NoMask} {base : Nat} {w : BitVec 32} (h : clear base x.pieces = true) :
    x.word base = w ↔ .of w = x ∧ Keeps w base x.pieces :=
  eq_iff_of_pieces rfl (by simp [V3NoMask.word, Nat.add_assoc]) (by cases x; simp [V3NoMask.of]) h

@[simp] def VGranOp.pieces (x : VGranOp) : List Piece :=
  [.field x.c, .gap 6, .field x.vd, .gap 1, .field x.sa, .gap 1, .field x.sb, .field x.g, .gap 2, .gap 2]

@[simp] theorem VGranOp.word_eq_iff {x : VGranOp} {base : Nat} {w : BitVec 32} (h : clear base x.pieces = true) :
    x.word base = w ↔ .of w = x ∧ Keeps w base x.pieces :=
  eq_iff_of_pieces rfl (by simp [VGranOp.word, Nat.add_assoc]) (by cases x; simp [VGranOp.of]) h

@[simp] def RTypeOp.pieces (x : RTypeOp) : List Piece :=
  [.field x.c, .gap 6, .field x.vd, .field x.va, .field x.etype, .field x.g, .field x.ea, .gap 1, .gap 2]

@[simp] theorem RTypeOp.word_eq_iff {x : RTypeOp} {base : Nat} {w : BitVec 32} (h : clear base x.pieces = true) :
    x.word base = w ↔ .of w = x ∧ Keeps w base x.pieces :=
  eq_iff_of_pieces rfl (by simp [RTypeOp.word, Nat.add_assoc]) (by cases x; simp [RTypeOp.of]) h

@[simp] def RArithOp.pieces (x : RArithOp) : List Piece :=
  [.field x.c, .gap 6, .field x.vd, .field x.va, .field x.vb, .field x.g, .field x.ea, .field x.eb, .gap 2]

@[simp] theorem RArithOp.word_eq_iff {x : RArithOp} {base : Nat} {w : BitVec 32} (h : clear base x.pieces = true) :
    x.word base = w ↔ .of w = x ∧ Keeps w base x.pieces :=
  eq_iff_of_pieces rfl (by simp [RArithOp.word, Nat.add_assoc]) (by cases x; simp [RArithOp.of]) h

@[simp] def RUnOp.pieces (x : RUnOp) : List Piece :=
  [.field x.c, .gap 6, .field x.vd, .field x.va, .gap 6, .field x.g, .field x.ea, .gap 1, .gap 2]

@[simp] theorem RUnOp.word_eq_iff {x : RUnOp} {base : Nat} {w : BitVec 32} (h : clear base x.pieces = true) :
    x.word base = w ↔ .of w = x ∧ Keeps w base x.pieces :=
  eq_iff_of_pieces rfl (by simp [RUnOp.word, Nat.add_assoc]) (by cases x; simp [RUnOp.of]) h

@[simp] def RFiltOp.pieces (x : RFiltOp) : List Piece :=
  [.field x.c, .gap 6, .field x.vd, .field x.va, .gap 3, .field x.mb, .field x.g, .field x.ea, .gap 1, .gap 2]

@[simp] theorem RFiltOp.word_eq_iff {x : RFiltOp} {base : Nat} {w : BitVec 32} (h : clear base x.pieces = true) :
    x.word base = w ↔ .of w = x ∧ Keeps w base x.pieces :=
  eq_iff_of_pieces rfl (by simp [RFiltOp.word, Nat.add_assoc]) (by cases x; simp [RFiltOp.of]) h

@[simp] def VMUnit.pieces (x : VMUnit) : List Piece :=
  [.field x.c, .gap 6, .field x.vd, .field x.sa, .gap 6, .field x.mask, .field x.ex, .field x.hint, .gap 1, .gap 2]

@[simp] theorem VMUnit.word_eq_iff {x : VMUnit} {base : Nat} {w : BitVec 32} (h : clear base x.pieces = true) :
    x.word base = w ↔ .of w = x ∧ Keeps w base x.pieces :=
  eq_iff_of_pieces rfl (by simp [VMUnit.word, Nat.add_assoc]) (by cases x; simp [VMUnit.of]) h

@[simp] def VMStride.pieces (x : VMStride) : List Piece :=
  [.field x.c, .gap 6, .field x.vd, .field x.sa, .gap 1, .field x.sx, .field x.mask, .field x.ex, .field x.hint, .gap 1, .gap 2]

@[simp] theorem VMStride.word_eq_iff {x : VMStride} {base : Nat} {w : BitVec 32} (h : clear base x.pieces = true) :
    x.word base = w ↔ .of w = x ∧ Keeps w base x.pieces :=
  eq_iff_of_pieces rfl (by simp [VMStride.word, Nat.add_assoc]) (by cases x; simp [VMStride.of]) h

@[simp] def VMIndex.pieces (x : VMIndex) : List Piece :=
  [.field x.c, .gap 6, .field x.vd, .field x.sa, .field x.vx, .field x.mask, .field x.ex, .field x.hint, .field x.q, .gap 2]

@[simp] theorem VMIndex.word_eq_iff {x : VMIndex} {base : Nat} {w : BitVec 32} (h : clear base x.pieces = true) :
    x.word base = w ↔ .of w = x ∧ Keeps w base x.pieces :=
  eq_iff_of_pieces rfl (by simp [VMIndex.word, Nat.add_assoc]) (by cases x; simp [VMIndex.of]) h

@[simp] def VMAsync.pieces (x : VMAsync) : List Piece :=
  [.field x.c, .gap 6, .field x.vd, .field x.sa, .gap 1, .field x.sx, .field x.mask, .field x.ex, .field x.hint, .field x.q, .gap 2]

@[simp] theorem VMAsync.word_eq_iff {x : VMAsync} {base : Nat} {w : BitVec 32} (h : clear base x.pieces = true) :
    x.word base = w ↔ .of w = x ∧ Keeps w base x.pieces :=
  eq_iff_of_pieces rfl (by simp [VMAsync.word, Nat.add_assoc]) (by cases x; simp [VMAsync.of]) h

@[simp] def VMMulti.pieces (x : VMMulti) : List Piece :=
  [.field x.c, .gap 6, .field x.vd, .field x.sa, .gap 6, .field x.mask, .field x.ex, .gap 3, .gap 2]

@[simp] theorem VMMulti.word_eq_iff {x : VMMulti} {base : Nat} {w : BitVec 32} (h : clear base x.pieces = true) :
    x.word base = w ↔ .of w = x ∧ Keeps w base x.pieces :=
  eq_iff_of_pieces rfl (by simp [VMMulti.word, Nat.add_assoc]) (by cases x; simp [VMMulti.of]) h

@[simp] def VAmoOp.pieces (x : VAmoOp) : List Piece :=
  [.field x.c, .gap 6, .field x.vd, .field x.sa, .field x.vx, .field x.mask, .field x.ex, .field x.order, .field x.q, .gap 2]

@[simp] theorem VAmoOp.word_eq_iff {x : VAmoOp} {base : Nat} {w : BitVec 32} (h : clear base x.pieces = true) :
    x.word base = w ↔ .of w = x ∧ Keeps w base x.pieces :=
  eq_iff_of_pieces rfl (by simp [VAmoOp.word, Nat.add_assoc]) (by cases x; simp [VAmoOp.of]) h

@[simp] def VStrcOp.pieces (x : VStrcOp) : List Piece :=
  [.field x.c, .gap 6, .field x.vd, .field x.sa, .gap 1, .field x.sx, .field x.mask, .field x.ex, .gap 3, .gap 2]

@[simp] theorem VStrcOp.word_eq_iff {x : VStrcOp} {base : Nat} {w : BitVec 32} (h : clear base x.pieces = true) :
    x.word base = w ↔ .of w = x ∧ Keeps w base x.pieces :=
  eq_iff_of_pieces rfl (by simp [VStrcOp.word, Nat.add_assoc]) (by cases x; simp [VStrcOp.of]) h

@[simp] def VWaitOp.pieces (x : VWaitOp) : List Piece :=
  [.field x.c, .gap 6, .gap 6, .field x.sa, .gap 1, .field x.sx, .gap 3, .field x.scope, .gap 1, .gap 2]

@[simp] theorem VWaitOp.word_eq_iff {x : VWaitOp} {base : Nat} {w : BitVec 32} (h : clear base x.pieces = true) :
    x.word base = w ↔ .of w = x ∧ Keeps w base x.pieces :=
  eq_iff_of_pieces rfl (by simp [VWaitOp.word, Nat.add_assoc]) (by cases x; simp [VWaitOp.of]) h

@[simp] def BraidOp.pieces (x : BraidOp) : List Piece :=
  [.field x.c, .gap 6, .field x.vd, .field x.sa, .gap 8, .field x.ex, .gap 3, .gap 2]

@[simp] theorem BraidOp.word_eq_iff {x : BraidOp} {base : Nat} {w : BitVec 32} (h : clear base x.pieces = true) :
    x.word base = w ↔ .of w = x ∧ Keeps w base x.pieces :=
  eq_iff_of_pieces rfl (by simp [BraidOp.word, Nat.add_assoc]) (by cases x; simp [BraidOp.of]) h

@[simp] def SAddrOp.pieces (x : SAddrOp) : List Piece :=
  [.field x.c, .gap 6, .gap 6, .field x.sa, .gap 12, .gap 2]

@[simp] theorem SAddrOp.word_eq_iff {x : SAddrOp} {base : Nat} {w : BitVec 32} (h : clear base x.pieces = true) :
    x.word base = w ↔ .of w = x ∧ Keeps w base x.pieces :=
  eq_iff_of_pieces rfl (by simp [SAddrOp.word, Nat.add_assoc]) (by cases x; simp [SAddrOp.of]) h

@[simp] def CacheOp.pieces (x : CacheOp) : List Piece :=
  [.field x.c, .gap 6, .gap 6, .field x.sa, .gap 1, .field x.sx, .gap 3, .field x.level, .gap 1, .gap 2]

@[simp] theorem CacheOp.word_eq_iff {x : CacheOp} {base : Nat} {w : BitVec 32} (h : clear base x.pieces = true) :
    x.word base = w ↔ .of w = x ∧ Keeps w base x.pieces :=
  eq_iff_of_pieces rfl (by simp [CacheOp.word, Nat.add_assoc]) (by cases x; simp [CacheOp.of]) h

@[simp] def CpyOp.pieces (x : CpyOp) : List Piece :=
  [.field x.c, .gap 6, .gap 1, .field x.sd, .field x.sa, .gap 1, .field x.sx, .gap 3, .field x.hint, .field x.q, .gap 2]

@[simp] theorem CpyOp.word_eq_iff {x : CpyOp} {base : Nat} {w : BitVec 32} (h : clear base x.pieces = true) :
    x.word base = w ↔ .of w = x ∧ Keeps w base x.pieces :=
  eq_iff_of_pieces rfl (by simp [CpyOp.word, Nat.add_assoc]) (by cases x; simp [CpyOp.of]) h

@[simp] def CpyvOp.pieces (x : CpyvOp) : List Piece :=
  [.field x.c, .gap 6, .field x.vd, .field x.sa, .gap 9, .field x.hint, .gap 1, .gap 2]

@[simp] theorem CpyvOp.word_eq_iff {x : CpyvOp} {base : Nat} {w : BitVec 32} (h : clear base x.pieces = true) :
    x.word base = w ↔ .of w = x ∧ Keeps w base x.pieces :=
  eq_iff_of_pieces rfl (by simp [CpyvOp.word, Nat.add_assoc]) (by cases x; simp [CpyvOp.of]) h

@[simp] def CpywOp.pieces (x : CpywOp) : List Piece :=
  [.field x.c, .gap 6, .field x.slot, .field x.sa, .gap 1, .field x.sx, .gap 6, .gap 2]

@[simp] theorem CpywOp.word_eq_iff {x : CpywOp} {base : Nat} {w : BitVec 32} (h : clear base x.pieces = true) :
    x.word base = w ↔ .of w = x ∧ Keeps w base x.pieces :=
  eq_iff_of_pieces rfl (by simp [CpywOp.word, Nat.add_assoc]) (by cases x; simp [CpywOp.of]) h

end Sys2Proof
end

section
/-! PROOFS. The opcode map (R47, R53, R54): every major's decoder gives the instructions of its rows back from their words, and
accepts no other word. -/

namespace Sys2Proof
open Piece

/-- An instruction that an answer of the decoder for `w` gives is well-formed, and `w` is its word. -/
def Sound (w : BitVec 32) (r : Except DecodeError Instr) : Prop := ∀ i, r = .ok i → fieldError i = none ∧ encode i = some w

/-- The words of the well-formed instructions of `l` are of the major, and the decoder of the major gives each back from its word. -/
def DecodesBy (major : Nat) (f : BitVec 32 → Except DecodeError Instr) (l : List Instr) : Prop :=
  ∀ i ∈ l, fieldError i = none → ∀ w, encode i = some w → fldN w 25 6 = major ∧ f w = .ok i

theorem finish_eq_ok_iff {fixed cOk : Bool} {i j : Instr} :
    finish fixed cOk i = .ok j ↔ (fieldError i = none ∧ fixed = true ∧ cOk = true) ∧ i = j := by
  unfold finish
  cases fieldError i with
  | none => cases fixed <;> cases cOk <;> simp
  | some e => cases fixed <;> simp <;> split <;> simp

theorem Sound.error {w : BitVec 32} {e : DecodeError} : Sound w (.error e) := fun _ h => absurd h (by simp)

theorem Sound.finish {w v : BitVec 32} {fixed cOk : Bool} {i : Instr} (hi : encode i = some v) (h : fixed = true → cOk = true → v = w) :
    Sound w (finish fixed cOk i) := by
  intro j hj
  obtain ⟨⟨hfield, hfixed, hc⟩, rfl⟩ := finish_eq_ok_iff.mp hj
  exact ⟨hfield, by rw [hi, h hfixed hc]⟩

theorem Sound.vectorRow {w v : BitVec 32} {fixed : Bool} {i : Instr} (hi : encode i = some v) (h : fixed = true → v = w) :
    Sound w (vectorRow fixed i) := .finish hi fun hfixed _ => h hfixed

theorem Sound.scalarRow {w v : BitVec 32} {fixed : Bool} {i : Instr} (hi : encode i = some v)
    (h : fixed = true → fldN w 31 1 = 0 → v = w) : Sound w (scalarRow w fixed i) :=
  .finish hi fun hfixed hc => h hfixed (by simpa using hc)

@[simp] theorem vectorRow_eq_ok {i : Instr} (h : fieldError i = none) : vectorRow true i = .ok i :=
  finish_eq_ok_iff.mpr ⟨⟨h, rfl, rfl⟩, rfl⟩

@[simp] theorem scalarRow_eq_ok {w : BitVec 32} {i : Instr} (hc : fldN w 31 1 = 0) (h : fieldError i = none) :
    scalarRow w true i = .ok i := finish_eq_ok_iff.mpr ⟨⟨h, rfl, by simpa using hc⟩, rfl⟩

/-! ## From an instruction to its word and back, major by major

The word of a row reads back its operands and holds the row's opcode, which leads the decoder of the major to the row. -/

theorem Code12.decodesBy_sys (x : Code12) : DecodesBy 0x00 decodeSys [.trap x, .brk x, .mark x] := by
  intro i hi hf w hw
  fin_cases hi
  all_goals replace hw := Option.some.inj hw; simp_all [decodeSys]

theorem decodesBy_sys : DecodesBy 0x00 decodeSys [.eret, .endStrand, .yield, .halt] := by
  intro i hi hf w hw
  fin_cases hi <;> cases hw <;> exact ⟨rfl, rfl⟩

theorem FenceOp.decodesBy_fence (x : FenceOp) : DecodesBy 0x01 decodeFence [.fence x] := by
  intro i hi hf w hw
  fin_cases hi
  all_goals replace hw := Option.some.inj hw; simp_all [decodeFence]

theorem ScopeOp.decodesBy_fence (x : ScopeOp) : DecodesBy 0x01 decodeFence [.fsv x, .fvs x, .fmx x, .fcp x] := by
  intro i hi hf w hw
  fin_cases hi
  all_goals replace hw := Option.some.inj hw; simp_all [decodeFence]

theorem SReg3.decodesBy_alu (x : SReg3) : DecodesBy 0x02 decodeAlu [.add x, .sub x, .mul x, .mulh x, .mulhn x, .div x, .divn x,
    .rem x, .remn x, .and_ x, .or_ x, .xor_ x, .sll x, .srl x, .sra x, .slt x, .sltn x, .min_ x, .max_ x, .minn x, .maxn x] := by
  intro i hi hf w hw
  fin_cases hi
  all_goals replace hw := Option.some.inj hw; simp_all [decodeAlu]

theorem SReg2.decodesBy_alu (x : SReg2) : DecodesBy 0x02 decodeAlu [.clz x, .ctz x, .pop x] := by
  intro i hi hf w hw
  fin_cases hi
  all_goals replace hw := Option.some.inj hw; simp_all [decodeAlu]

theorem SImm.decodesBy_alui (x : SImm) : DecodesBy 0x03 decodeAlui [.addi x, .andi x, .ori x, .xori x, .slti x, .sltni x] := by
  intro i hi hf w hw
  fin_cases hi
  all_goals replace hw := Option.some.inj hw; simp_all [decodeAlui]

theorem SShift.decodesBy_alui (x : SShift) : DecodesBy 0x03 decodeAlui [.slli x, .srli x, .srai x] := by
  intro i hi hf w hw
  fin_cases hi
  all_goals replace hw := Option.some.inj hw; simp_all [decodeAlui]

theorem SUpper.decodesBy_sui (x : SUpper) : DecodesBy 0x04 decodeSui [.sui x] := by
  intro i hi hf w hw
  fin_cases hi
  all_goals replace hw := Option.some.inj hw; simp_all [decodeSui]

theorem SUpper.decodesBy_pcui (x : SUpper) : DecodesBy 0x05 decodePcui [.pcui x] := by
  intro i hi hf w hw
  fin_cases hi
  all_goals replace hw := Option.some.inj hw; simp_all [decodePcui]

theorem SImm.decodesBy_ld (x : SImm) : DecodesBy 0x06 decodeLd [.ldi8 x, .ldi16 x, .ldi32 x, .ldi64 x, .ldn8 x, .ldn16 x,
    .ldn32 x] := by
  intro i hi hf w hw
  fin_cases hi
  all_goals replace hw := Option.some.inj hw; simp_all [decodeLd]

theorem SStore.decodesBy_st (x : SStore) : DecodesBy 0x07 decodeSt [.st8 x, .st16 x, .st32 x, .st64 x] := by
  intro i hi hf w hw
  fin_cases hi
  all_goals replace hw := Option.some.inj hw; simp_all [decodeSt]

theorem AmoOp.decodesBy_amo (x : AmoOp) : DecodesBy 0x08 decodeAmo [.amoadd x, .amoswap x, .amocas x, .amomin x, .amomax x,
    .amominn x, .amomaxn x, .amoand x, .amoor x, .amoxor x] := by
  intro i hi hf w hw
  fin_cases hi
  all_goals replace hw := Option.some.inj hw; simp_all [decodeAmo]

theorem BranchOp.decodesBy_br (x : BranchOp) : DecodesBy 0x09 decodeBr [.beq x, .bne x, .blt x, .bge x, .bltn x, .bgen x] := by
  intro i hi hf w hw
  fin_cases hi
  all_goals replace hw := Option.some.inj hw; simp_all [decodeBr]

theorem MBranchOp.decodesBy_mbr (x : MBranchOp) : DecodesBy 0x0A decodeMbr [.bany x, .ball x, .bnone x, .bgz x, .bgnz x] := by
  intro i hi hf w hw
  fin_cases hi
  all_goals replace hw := Option.some.inj hw; simp_all [decodeMbr]

theorem JalOp.decodesBy_jal (x : JalOp) : DecodesBy 0x0B decodeJal [.jal x] := by
  intro i hi hf w hw
  fin_cases hi
  all_goals replace hw := Option.some.inj hw; simp_all [decodeJal]

theorem SImm.decodesBy_jalr (x : SImm) : DecodesBy 0x0C decodeJalr [.jalr x] := by
  intro i hi hf w hw
  fin_cases hi
  all_goals replace hw := Option.some.inj hw; simp_all [decodeJalr]

theorem CsrOp.decodesBy_csr (x : CsrOp) : DecodesBy 0x0D decodeCsr [.csrrw x, .csrrs x, .csrrc x] := by
  intro i hi hf w hw
  fin_cases hi
  all_goals replace hw := Option.some.inj hw; simp_all [decodeCsr]

theorem CsrROp.decodesBy_csr (x : CsrROp) : DecodesBy 0x0D decodeCsr [.csrr x] := by
  intro i hi hf w hw
  fin_cases hi
  all_goals replace hw := Option.some.inj hw; simp_all [decodeCsr]

theorem GGetOp.decodesBy_grant (x : GGetOp) : DecodesBy 0x0E decodeGrant [.gget x] := by
  intro i hi hf w hw
  fin_cases hi
  all_goals replace hw := Option.some.inj hw; simp_all [decodeGrant]

theorem GSetOp.decodesBy_grant (x : GSetOp) : DecodesBy 0x0E decodeGrant [.gset x] := by
  intro i hi hf w hw
  fin_cases hi
  all_goals replace hw := Option.some.inj hw; simp_all [decodeGrant]

theorem GClrOp.decodesBy_grant (x : GClrOp) : DecodesBy 0x0E decodeGrant [.gclr x] := by
  intro i hi hf w hw
  fin_cases hi
  all_goals replace hw := Option.some.inj hw; simp_all [decodeGrant]

theorem SReg3.decodesBy_syncobj (x : SReg3) : DecodesBy 0x0F decodeSyncobj [.qpost x, .qhash x, .barwt x] := by
  intro i hi hf w hw
  fin_cases hi
  all_goals replace hw := Option.some.inj hw; simp_all [decodeSyncobj]

theorem SReg2.decodesBy_syncobj (x : SReg2) : DecodesBy 0x0F decodeSyncobj [.bar x, .bararr x] := by
  intro i hi hf w hw
  fin_cases hi
  all_goals replace hw := Option.some.inj hw; simp_all [decodeSyncobj]

theorem SReg3.decodesBy_wait (x : SReg3) : DecodesBy 0x10 decodeWait [.tlwait x] := by
  intro i hi hf w hw
  fin_cases hi
  all_goals replace hw := Option.some.inj hw; simp_all [decodeWait]

theorem SReg2.decodesBy_wait (x : SReg2) : DecodesBy 0x10 decodeWait [.tlget x] := by
  intro i hi hf w hw
  fin_cases hi
  all_goals replace hw := Option.some.inj hw; simp_all [decodeWait]

theorem SReg3.decodesBy_page (x : SReg3) : DecodesBy 0x11 decodePage [.pgmig x, .dpromo x] := by
  intro i hi hf w hw
  fin_cases hi
  all_goals replace hw := Option.some.inj hw; simp_all [decodePage]

theorem SReg2.decodesBy_page (x : SReg2) : DecodesBy 0x11 decodePage [.pgcnt x, .pgstat x, .ddemo x] := by
  intro i hi hf w hw
  fin_cases hi
  all_goals replace hw := Option.some.inj hw; simp_all [decodePage]

theorem SetvlOp.decodesBy_vcfg (x : SetvlOp) : DecodesBy 0x14 decodeVcfg [.setvl x] := by
  intro i hi hf w hw
  fin_cases hi
  all_goals replace hw := Option.some.inj hw; simp_all [decodeVcfg]

theorem RptOp.decodesBy_vcfg (x : RptOp) : DecodesBy 0x14 decodeVcfg [.rpt x] := by
  intro i hi hf w hw
  fin_cases hi
  all_goals replace hw := Option.some.inj hw; simp_all [decodeVcfg]

theorem V3.decodesBy_vinta (x : V3) : DecodesBy 0x15 decodeVinta [.vadd x, .vsub x, .vmul x, .vmulh x] := by
  intro i hi hf w hw
  fin_cases hi
  all_goals replace hw := Option.some.inj hw; simp_all [decodeVinta]

theorem V3.decodesBy_vintb (x : V3) : DecodesBy 0x16 decodeVintb [.vmulhn x, .vdiv x, .vdivn x, .vrem x] := by
  intro i hi hf w hw
  fin_cases hi
  all_goals replace hw := Option.some.inj hw; simp_all [decodeVintb]

theorem V3.decodesBy_vintc (x : V3) : DecodesBy 0x17 decodeVintc [.vremn x, .vmin x, .vmax x, .vminn x] := by
  intro i hi hf w hw
  fin_cases hi
  all_goals replace hw := Option.some.inj hw; simp_all [decodeVintc]

theorem V3.decodesBy_vintd (x : V3) : DecodesBy 0x18 decodeVintd [.vmaxn x, .vabsd x] := by
  intro i hi hf w hw
  fin_cases hi
  all_goals replace hw := Option.some.inj hw; simp_all [decodeVintd]

theorem V3U.decodesBy_vintd (x : V3U) : DecodesBy 0x18 decodeVintd [.vabs x, .vneg x] := by
  intro i hi hf w hw
  fin_cases hi
  all_goals replace hw := Option.some.inj hw; simp_all [decodeVintd]

theorem V3.decodesBy_vlog (x : V3) : DecodesBy 0x19 decodeVlog [.vand x, .vor x, .vxor x] := by
  intro i hi hf w hw
  fin_cases hi
  all_goals replace hw := Option.some.inj hw; simp_all [decodeVlog]

theorem V3U.decodesBy_vlog (x : V3U) : DecodesBy 0x19 decodeVlog [.vnot x] := by
  intro i hi hf w hw
  fin_cases hi
  all_goals replace hw := Option.some.inj hw; simp_all [decodeVlog]

theorem V3.decodesBy_vshf (x : V3) : DecodesBy 0x1A decodeVshf [.vsll x, .vsrl x, .vsra x, .vrot x] := by
  intro i hi hf w hw
  fin_cases hi
  all_goals replace hw := Option.some.inj hw; simp_all [decodeVshf]

theorem V3.decodesBy_vsat (x : V3) : DecodesBy 0x1B decodeVsat [.vsadd x, .vssub x, .vsaddn x, .vssubn x] := by
  intro i hi hf w hw
  fin_cases hi
  all_goals replace hw := Option.some.inj hw; simp_all [decodeVsat]

theorem V3.decodesBy_vwide (x : V3) : DecodesBy 0x1C decodeVwide [.vwmac x, .vwmacn x, .vwmul x, .vwadd x] := by
  intro i hi hf w hw
  fin_cases hi
  all_goals replace hw := Option.some.inj hw; simp_all [decodeVwide]

theorem V3.decodesBy_vfa (x : V3) : DecodesBy 0x1D decodeVfa [.vfadd x, .vfsub x, .vfmul x, .vfdiv x] := by
  intro i hi hf w hw
  fin_cases hi
  all_goals replace hw := Option.some.inj hw; simp_all [decodeVfa]

theorem V3.decodesBy_vfb (x : V3) : DecodesBy 0x1E decodeVfb [.vfma x, .vfms x, .vfmin x, .vfmax x] := by
  intro i hi hf w hw
  fin_cases hi
  all_goals replace hw := Option.some.inj hw; simp_all [decodeVfb]

theorem V3U.decodesBy_vfc (x : V3U) : DecodesBy 0x1F decodeVfc [.vfsqrt x, .vfabs x, .vfneg x, .vfclass x] := by
  intro i hi hf w hw
  fin_cases hi
  all_goals replace hw := Option.some.inj hw; simp_all [decodeVfc]

theorem V3Cmp.decodesBy_vcmpa (x : V3Cmp) : DecodesBy 0x20 decodeVcmpa [.vcmpeq x, .vcmpne x, .vcmplt x, .vcmple x] := by
  intro i hi hf w hw
  fin_cases hi
  all_goals replace hw := Option.some.inj hw; simp_all [decodeVcmpa]

theorem V3Cmp.decodesBy_vcmpb (x : V3Cmp) : DecodesBy 0x21 decodeVcmpb [.vcmpltn x, .vcmplen x, .vfcmpeq x, .vfcmplt x] := by
  intro i hi hf w hw
  fin_cases hi
  all_goals replace hw := Option.some.inj hw; simp_all [decodeVcmpb]

theorem V3Cmp.decodesBy_vcmpc (x : V3Cmp) : DecodesBy 0x22 decodeVcmpc [.vfcmple x, .vfcmpun x] := by
  intro i hi hf w hw
  fin_cases hi
  all_goals replace hw := Option.some.inj hw; simp_all [decodeVcmpc]

theorem M3.decodesBy_mlog (x : M3) : DecodesBy 0x23 decodeMlog [.mand x, .mor x, .mxor x] := by
  intro i hi hf w hw
  fin_cases hi
  all_goals replace hw := Option.some.inj hw; simp_all [decodeMlog]

theorem M2.decodesBy_mlog (x : M2) : DecodesBy 0x23 decodeMlog [.mnot x] := by
  intro i hi hf w hw
  fin_cases hi
  all_goals replace hw := Option.some.inj hw; simp_all [decodeMlog]

theorem MCount.decodesBy_mcnt (x : MCount) : DecodesBy 0x24 decodeMcnt [.mpop x, .mfirst x] := by
  intro i hi hf w hw
  fin_cases hi
  all_goals replace hw := Option.some.inj hw; simp_all [decodeMcnt]

theorem M1.decodesBy_mcnt (x : M1) : DecodesBy 0x24 decodeMcnt [.mset x, .mclr x] := by
  intro i hi hf w hw
  fin_cases hi
  all_goals replace hw := Option.some.inj hw; simp_all [decodeMcnt]

theorem V3.decodesBy_vmov (x : V3) : DecodesBy 0x25 decodeVmov [.vsel x] := by
  intro i hi hf w hw
  fin_cases hi
  all_goals replace hw := Option.some.inj hw; simp_all [decodeVmov]

theorem VBcastOp.decodesBy_vmov (x : VBcastOp) : DecodesBy 0x25 decodeVmov [.vbcast x] := by
  intro i hi hf w hw
  fin_cases hi
  all_goals replace hw := Option.some.inj hw; simp_all [decodeVmov]

theorem VMvsOp.decodesBy_vmov (x : VMvsOp) : DecodesBy 0x25 decodeVmov [.vmvs x] := by
  intro i hi hf w hw
  fin_cases hi
  all_goals replace hw := Option.some.inj hw; simp_all [decodeVmov]

theorem VMsvOp.decodesBy_vmov (x : VMsvOp) : DecodesBy 0x25 decodeVmov [.vmsv x] := by
  intro i hi hf w hw
  fin_cases hi
  all_goals replace hw := Option.some.inj hw; simp_all [decodeVmov]

theorem VSlideOp.decodesBy_vperm (x : VSlideOp) : DecodesBy 0x26 decodeVperm [.vslideup x, .vslidedn x] := by
  intro i hi hf w hw
  fin_cases hi
  all_goals replace hw := Option.some.inj hw; simp_all [decodeVperm]

theorem V3NoKb.decodesBy_vperm (x : V3NoKb) : DecodesBy 0x26 decodeVperm [.vperm x] := by
  intro i hi hf w hw
  fin_cases hi
  all_goals replace hw := Option.some.inj hw; simp_all [decodeVperm]

theorem VIdOp.decodesBy_vperm (x : VIdOp) : DecodesBy 0x26 decodeVperm [.vid x] := by
  intro i hi hf w hw
  fin_cases hi
  all_goals replace hw := Option.some.inj hw; simp_all [decodeVperm]

theorem VSelMOp.decodesBy_vpack (x : VSelMOp) : DecodesBy 0x27 decodeVpack [.vcompress x, .vexpand x] := by
  intro i hi hf w hw
  fin_cases hi
  all_goals replace hw := Option.some.inj hw; simp_all [decodeVpack]

theorem VReadyOp.decodesBy_vpack (x : VReadyOp) : DecodesBy 0x27 decodeVpack [.vready x] := by
  intro i hi hf w hw
  fin_cases hi
  all_goals replace hw := Option.some.inj hw; simp_all [decodeVpack]

theorem V3.decodesBy_vreda (x : V3) : DecodesBy 0x28 decodeVreda [.vredsum x, .vredmin x, .vredmax x, .vfredsum x] := by
  intro i hi hf w hw
  fin_cases hi
  all_goals replace hw := Option.some.inj hw; simp_all [decodeVreda]

theorem V3.decodesBy_vredb (x : V3) : DecodesBy 0x29 decodeVredb [.vredand x, .vredor x, .vredxor x, .vfredmax x] := by
  intro i hi hf w hw
  fin_cases hi
  all_goals replace hw := Option.some.inj hw; simp_all [decodeVredb]

theorem V3.decodesBy_vscan (x : V3) : DecodesBy 0x2A decodeVscan [.vscan x, .vfscan x, .vscanmax x] := by
  intro i hi hf w hw
  fin_cases hi
  all_goals replace hw := Option.some.inj hw; simp_all [decodeVscan]

theorem VCvtOp.decodesBy_vconv (x : VCvtOp) : DecodesBy 0x2B decodeVconv [.vcvt x] := by
  intro i hi hf w hw
  fin_cases hi
  all_goals replace hw := Option.some.inj hw; simp_all [decodeVconv]

theorem V3NoMask.decodesBy_vconv (x : V3NoMask) : DecodesBy 0x2B decodeVconv [.vqblk x] := by
  intro i hi hf w hw
  fin_cases hi
  all_goals replace hw := Option.some.inj hw; simp_all [decodeVconv]

theorem V3NoKb.decodesBy_vconv (x : V3NoKb) : DecodesBy 0x2B decodeVconv [.vdqblk x] := by
  intro i hi hf w hw
  fin_cases hi
  all_goals replace hw := Option.some.inj hw; simp_all [decodeVconv]

theorem VGranOp.decodesBy_rmov (x : VGranOp) : DecodesBy 0x2C decodeRmov [.vldg x, .vstg x] := by
  intro i hi hf w hw
  fin_cases hi
  all_goals replace hw := Option.some.inj hw; simp_all [decodeRmov]

theorem RTypeOp.decodesBy_rmov (x : RTypeOp) : DecodesBy 0x2C decodeRmov [.rdec x, .renc x] := by
  intro i hi hf w hw
  fin_cases hi
  all_goals replace hw := Option.some.inj hw; simp_all [decodeRmov]

theorem RArithOp.decodesBy_rari (x : RArithOp) : DecodesBy 0x2D decodeRari [.radd x, .rsub x, .rmin x, .rmax x] := by
  intro i hi hf w hw
  fin_cases hi
  all_goals replace hw := Option.some.inj hw; simp_all [decodeRari]

theorem RTypeOp.decodesBy_rflt (x : RTypeOp) : DecodesBy 0x2E decodeRflt [.fdec x, .fenc x] := by
  intro i hi hf w hw
  fin_cases hi
  all_goals replace hw := Option.some.inj hw; simp_all [decodeRflt]

theorem RUnOp.decodesBy_rflt (x : RUnOp) : DecodesBy 0x2E decodeRflt [.rdsum x, .rlen x] := by
  intro i hi hf w hw
  fin_cases hi
  all_goals replace hw := Option.some.inj hw; simp_all [decodeRflt]

theorem RUnOp.decodesBy_rsel (x : RUnOp) : DecodesBy 0x2F decodeRsel [.rpos x] := by
  intro i hi hf w hw
  fin_cases hi
  all_goals replace hw := Option.some.inj hw; simp_all [decodeRsel]

theorem RFiltOp.decodesBy_rsel (x : RFiltOp) : DecodesBy 0x2F decodeRsel [.rfilt x] := by
  intro i hi hf w hw
  fin_cases hi
  all_goals replace hw := Option.some.inj hw; simp_all [decodeRsel]

theorem VMUnit.decodesBy_vload (x : VMUnit) : DecodesBy 0x30 decodeVload [.vld x] := by
  intro i hi hf w hw
  fin_cases hi
  all_goals replace hw := Option.some.inj hw; simp_all [decodeVload]

theorem VMStride.decodesBy_vload (x : VMStride) : DecodesBy 0x30 decodeVload [.vlds x] := by
  intro i hi hf w hw
  fin_cases hi
  all_goals replace hw := Option.some.inj hw; simp_all [decodeVload]

theorem VMIndex.decodesBy_vload (x : VMIndex) : DecodesBy 0x30 decodeVload [.vldx x] := by
  intro i hi hf w hw
  fin_cases hi
  all_goals replace hw := Option.some.inj hw; simp_all [decodeVload]

theorem VMAsync.decodesBy_vload (x : VMAsync) : DecodesBy 0x30 decodeVload [.vlda x] := by
  intro i hi hf w hw
  fin_cases hi
  all_goals replace hw := Option.some.inj hw; simp_all [decodeVload]

theorem VMUnit.decodesBy_vstore (x : VMUnit) : DecodesBy 0x31 decodeVstore [.vst x] := by
  intro i hi hf w hw
  fin_cases hi
  all_goals replace hw := Option.some.inj hw; simp_all [decodeVstore]

theorem VMStride.decodesBy_vstore (x : VMStride) : DecodesBy 0x31 decodeVstore [.vsts x] := by
  intro i hi hf w hw
  fin_cases hi
  all_goals replace hw := Option.some.inj hw; simp_all [decodeVstore]

theorem VMIndex.decodesBy_vstore (x : VMIndex) : DecodesBy 0x31 decodeVstore [.vstx x] := by
  intro i hi hf w hw
  fin_cases hi
  all_goals replace hw := Option.some.inj hw; simp_all [decodeVstore]

theorem VMMulti.decodesBy_vstore (x : VMMulti) : DecodesBy 0x31 decodeVstore [.vstm x] := by
  intro i hi hf w hw
  fin_cases hi
  all_goals replace hw := Option.some.inj hw; simp_all [decodeVstore]

theorem VAmoOp.decodesBy_vamoa (x : VAmoOp) : DecodesBy 0x32 decodeVamoa [.vamoadd x, .vamoswap x, .vamocas x, .vamomin x] := by
  intro i hi hf w hw
  fin_cases hi
  all_goals replace hw := Option.some.inj hw; simp_all [decodeVamoa]

theorem VAmoOp.decodesBy_vamob (x : VAmoOp) : DecodesBy 0x33 decodeVamob [.vamomax x] := by
  intro i hi hf w hw
  fin_cases hi
  all_goals replace hw := Option.some.inj hw; simp_all [decodeVamob]

theorem VStrcOp.decodesBy_vamob (x : VStrcOp) : DecodesBy 0x33 decodeVamob [.vstrc x] := by
  intro i hi hf w hw
  fin_cases hi
  all_goals replace hw := Option.some.inj hw; simp_all [decodeVamob]

theorem VWaitOp.decodesBy_vamob (x : VWaitOp) : DecodesBy 0x33 decodeVamob [.vwait x] := by
  intro i hi hf w hw
  fin_cases hi
  all_goals replace hw := Option.some.inj hw; simp_all [decodeVamob]

theorem BraidOp.decodesBy_braid (x : BraidOp) : DecodesBy 0x34 decodeBraid [.mjld x, .mjst x] := by
  intro i hi hf w hw
  fin_cases hi
  all_goals replace hw := Option.some.inj hw; simp_all [decodeBraid]

theorem SAddrOp.decodesBy_braid (x : SAddrOp) : DecodesBy 0x34 decodeBraid [.mjrep x] := by
  intro i hi hf w hw
  fin_cases hi
  all_goals replace hw := Option.some.inj hw; simp_all [decodeBraid]

theorem CacheOp.decodesBy_cache (x : CacheOp) : DecodesBy 0x35 decodeCache [.cflush x, .cinv x] := by
  intro i hi hf w hw
  fin_cases hi
  all_goals replace hw := Option.some.inj hw; simp_all [decodeCache]

theorem SAddrOp.decodesBy_cache (x : SAddrOp) : DecodesBy 0x35 decodeCache [.l1cfg x] := by
  intro i hi hf w hw
  fin_cases hi
  all_goals replace hw := Option.some.inj hw; simp_all [decodeCache]

theorem CpyOp.decodesBy_copy (x : CpyOp) : DecodesBy 0x36 decodeCopy [.cpy x] := by
  intro i hi hf w hw
  fin_cases hi
  all_goals replace hw := Option.some.inj hw; simp_all [decodeCopy]

theorem CpyvOp.decodesBy_copy (x : CpyvOp) : DecodesBy 0x36 decodeCopy [.cpyv x] := by
  intro i hi hf w hw
  fin_cases hi
  all_goals replace hw := Option.some.inj hw; simp_all [decodeCopy]

theorem CpywOp.decodesBy_copy (x : CpywOp) : DecodesBy 0x36 decodeCopy [.cpyw x] := by
  intro i hi hf w hw
  fin_cases hi
  all_goals replace hw := Option.some.inj hw; simp_all [decodeCopy]

theorem V3NoMask.decodesBy_matrix (x : V3NoMask) : DecodesBy 0x37 decodeMatrix [.mma x, .mmaz x, .mxsum x] := by
  intro i hi hf w hw
  fin_cases hi
  all_goals replace hw := Option.some.inj hw; simp_all [decodeMatrix]

/-! ## From a word to its instruction and back, major by major

A word that a row accepts holds the row's opcode, so that the operands read from it write it again. -/

theorem sound_sys {w : BitVec 32} (h : fldN w 25 6 = 0x00) : Sound w (decodeSys w) := by
  unfold decodeSys
  split
  case h_8 => exact .error
  case h_1 | h_5 | h_6 => exact .scalarRow rfl (by simp_all)
  all_goals exact .scalarRow rfl fun hfixed hc => opcode_eq_iff.mpr (by simp_all)

theorem sound_fence {w : BitVec 32} (h : fldN w 25 6 = 0x01) : Sound w (decodeFence w) := by
  unfold decodeFence
  split
  case h_6 => exact .error
  all_goals exact .scalarRow rfl (by simp_all)

theorem sound_alu {w : BitVec 32} (h : fldN w 25 6 = 0x02) : Sound w (decodeAlu w) := by
  unfold decodeAlu
  split
  case h_25 => exact .error
  all_goals exact .scalarRow rfl (by simp_all)

theorem sound_alui {w : BitVec 32} (h : fldN w 25 6 = 0x03) : Sound w (decodeAlui w) := by
  unfold decodeAlui
  split
  case h_7 =>
    split
    case h_4 => exact .error
    all_goals exact .scalarRow rfl (by simp_all)
  case h_8 => exact .error
  all_goals exact .scalarRow rfl (by simp_all)

theorem sound_sui {w : BitVec 32} (h : fldN w 25 6 = 0x04) : Sound w (decodeSui w) :=
  .scalarRow rfl (by simp_all)

theorem sound_pcui {w : BitVec 32} (h : fldN w 25 6 = 0x05) : Sound w (decodePcui w) :=
  .scalarRow rfl (by simp_all)

theorem sound_ld {w : BitVec 32} (h : fldN w 25 6 = 0x06) : Sound w (decodeLd w) := by
  unfold decodeLd
  split
  case h_8 => exact .error
  all_goals exact .scalarRow rfl (by simp_all)

theorem sound_st {w : BitVec 32} (h : fldN w 25 6 = 0x07) : Sound w (decodeSt w) := by
  unfold decodeSt
  split
  case h_5 => exact .error
  all_goals exact .scalarRow rfl (by simp_all)

theorem sound_amo {w : BitVec 32} (h : fldN w 25 6 = 0x08) : Sound w (decodeAmo w) := by
  unfold decodeAmo
  split
  case h_11 => exact .error
  all_goals exact .scalarRow rfl (by simp_all)

theorem sound_br {w : BitVec 32} (h : fldN w 25 6 = 0x09) : Sound w (decodeBr w) := by
  unfold decodeBr
  split
  case h_7 => exact .error
  all_goals exact .scalarRow rfl (by simp_all)

theorem sound_mbr {w : BitVec 32} (h : fldN w 25 6 = 0x0A) : Sound w (decodeMbr w) := by
  unfold decodeMbr
  split
  case h_6 => exact .error
  all_goals exact .scalarRow rfl (by simp_all)

theorem sound_jal {w : BitVec 32} (h : fldN w 25 6 = 0x0B) : Sound w (decodeJal w) :=
  .scalarRow rfl (by simp_all)

theorem sound_jalr {w : BitVec 32} (h : fldN w 25 6 = 0x0C) : Sound w (decodeJalr w) := by
  unfold decodeJalr
  split
  case h_2 => exact .error
  all_goals exact .scalarRow rfl (by simp_all)

theorem sound_csr {w : BitVec 32} (h : fldN w 25 6 = 0x0D) : Sound w (decodeCsr w) := by
  unfold decodeCsr
  split
  case h_5 => exact .error
  all_goals exact .scalarRow rfl (by simp_all)

theorem sound_grant {w : BitVec 32} (h : fldN w 25 6 = 0x0E) : Sound w (decodeGrant w) := by
  unfold decodeGrant
  split
  case h_4 => exact .error
  all_goals exact .scalarRow rfl (by simp_all)

theorem sound_syncobj {w : BitVec 32} (h : fldN w 25 6 = 0x0F) : Sound w (decodeSyncobj w) := by
  unfold decodeSyncobj
  split
  case h_6 => exact .error
  all_goals exact .scalarRow rfl (by simp_all)

theorem sound_wait {w : BitVec 32} (h : fldN w 25 6 = 0x10) : Sound w (decodeWait w) := by
  unfold decodeWait
  split
  case h_3 => exact .error
  all_goals exact .scalarRow rfl (by simp_all)

theorem sound_page {w : BitVec 32} (h : fldN w 25 6 = 0x11) : Sound w (decodePage w) := by
  unfold decodePage
  split
  case h_6 => exact .error
  all_goals exact .scalarRow rfl (by simp_all)

theorem sound_vcfg {w : BitVec 32} (h : fldN w 25 6 = 0x14) : Sound w (decodeVcfg w) := by
  unfold decodeVcfg
  split
  case h_3 => exact .error
  all_goals exact .scalarRow rfl (by simp_all)

theorem sound_vinta {w : BitVec 32} (h : fldN w 25 6 = 0x15) : Sound w (decodeVinta w) := by
  unfold decodeVinta
  split
  case h_5 => exact .error
  all_goals exact .vectorRow rfl (by simp_all)

theorem sound_vintb {w : BitVec 32} (h : fldN w 25 6 = 0x16) : Sound w (decodeVintb w) := by
  unfold decodeVintb
  split
  case h_5 => exact .error
  all_goals exact .vectorRow rfl (by simp_all)

theorem sound_vintc {w : BitVec 32} (h : fldN w 25 6 = 0x17) : Sound w (decodeVintc w) := by
  unfold decodeVintc
  split
  case h_5 => exact .error
  all_goals exact .vectorRow rfl (by simp_all)

theorem sound_vintd {w : BitVec 32} (h : fldN w 25 6 = 0x18) : Sound w (decodeVintd w) := by
  unfold decodeVintd
  split
  case h_5 => exact .error
  all_goals exact .vectorRow rfl (by simp_all)

theorem sound_vlog {w : BitVec 32} (h : fldN w 25 6 = 0x19) : Sound w (decodeVlog w) := by
  unfold decodeVlog
  split
  case h_5 => exact .error
  all_goals exact .vectorRow rfl (by simp_all)

theorem sound_vshf {w : BitVec 32} (h : fldN w 25 6 = 0x1A) : Sound w (decodeVshf w) := by
  unfold decodeVshf
  split
  case h_5 => exact .error
  all_goals exact .vectorRow rfl (by simp_all)

theorem sound_vsat {w : BitVec 32} (h : fldN w 25 6 = 0x1B) : Sound w (decodeVsat w) := by
  unfold decodeVsat
  split
  case h_5 => exact .error
  all_goals exact .vectorRow rfl (by simp_all)

theorem sound_vwide {w : BitVec 32} (h : fldN w 25 6 = 0x1C) : Sound w (decodeVwide w) := by
  unfold decodeVwide
  split
  case h_5 => exact .error
  all_goals exact .vectorRow rfl (by simp_all)

theorem sound_vfa {w : BitVec 32} (h : fldN w 25 6 = 0x1D) : Sound w (decodeVfa w) := by
  unfold decodeVfa
  split
  case h_5 => exact .error
  all_goals exact .vectorRow rfl (by simp_all)

theorem sound_vfb {w : BitVec 32} (h : fldN w 25 6 = 0x1E) : Sound w (decodeVfb w) := by
  unfold decodeVfb
  split
  case h_5 => exact .error
  all_goals exact .vectorRow rfl (by simp_all)

theorem sound_vfc {w : BitVec 32} (h : fldN w 25 6 = 0x1F) : Sound w (decodeVfc w) := by
  unfold decodeVfc
  split
  case h_5 => exact .error
  all_goals exact .vectorRow rfl (by simp_all)

theorem sound_vcmpa {w : BitVec 32} (h : fldN w 25 6 = 0x20) : Sound w (decodeVcmpa w) := by
  unfold decodeVcmpa
  split
  case h_5 => exact .error
  all_goals exact .vectorRow rfl (by simp_all)

theorem sound_vcmpb {w : BitVec 32} (h : fldN w 25 6 = 0x21) : Sound w (decodeVcmpb w) := by
  unfold decodeVcmpb
  split
  case h_5 => exact .error
  all_goals exact .vectorRow rfl (by simp_all)

theorem sound_vcmpc {w : BitVec 32} (h : fldN w 25 6 = 0x22) : Sound w (decodeVcmpc w) := by
  unfold decodeVcmpc
  split
  case h_3 => exact .error
  all_goals exact .vectorRow rfl (by simp_all)

theorem sound_mlog {w : BitVec 32} (h : fldN w 25 6 = 0x23) : Sound w (decodeMlog w) := by
  unfold decodeMlog
  split
  case h_5 => exact .error
  all_goals exact .vectorRow rfl (by simp_all)

theorem sound_mcnt {w : BitVec 32} (h : fldN w 25 6 = 0x24) : Sound w (decodeMcnt w) := by
  unfold decodeMcnt
  split
  case h_5 => exact .error
  all_goals exact .vectorRow rfl (by simp_all)

theorem sound_vmov {w : BitVec 32} (h : fldN w 25 6 = 0x25) : Sound w (decodeVmov w) := by
  unfold decodeVmov
  split
  case h_5 => exact .error
  all_goals exact .vectorRow rfl (by simp_all)

theorem sound_vperm {w : BitVec 32} (h : fldN w 25 6 = 0x26) : Sound w (decodeVperm w) := by
  unfold decodeVperm
  split
  case h_5 => exact .error
  all_goals exact .vectorRow rfl (by simp_all)

theorem sound_vpack {w : BitVec 32} (h : fldN w 25 6 = 0x27) : Sound w (decodeVpack w) := by
  unfold decodeVpack
  split
  case h_4 => exact .error
  all_goals exact .vectorRow rfl (by simp_all)

theorem sound_vreda {w : BitVec 32} (h : fldN w 25 6 = 0x28) : Sound w (decodeVreda w) := by
  unfold decodeVreda
  split
  case h_5 => exact .error
  all_goals exact .vectorRow rfl (by simp_all)

theorem sound_vredb {w : BitVec 32} (h : fldN w 25 6 = 0x29) : Sound w (decodeVredb w) := by
  unfold decodeVredb
  split
  case h_5 => exact .error
  all_goals exact .vectorRow rfl (by simp_all)

theorem sound_vscan {w : BitVec 32} (h : fldN w 25 6 = 0x2A) : Sound w (decodeVscan w) := by
  unfold decodeVscan
  split
  case h_4 => exact .error
  all_goals exact .vectorRow rfl (by simp_all)

theorem sound_vconv {w : BitVec 32} (h : fldN w 25 6 = 0x2B) : Sound w (decodeVconv w) := by
  unfold decodeVconv
  split
  case h_4 => exact .error
  all_goals exact .vectorRow rfl (by simp_all)

theorem sound_rmov {w : BitVec 32} (h : fldN w 25 6 = 0x2C) : Sound w (decodeRmov w) := by
  unfold decodeRmov
  split
  case h_5 => exact .error
  all_goals exact .vectorRow rfl (by simp_all)

theorem sound_rari {w : BitVec 32} (h : fldN w 25 6 = 0x2D) : Sound w (decodeRari w) := by
  unfold decodeRari
  split
  case h_5 => exact .error
  all_goals exact .vectorRow rfl (by simp_all)

theorem sound_rflt {w : BitVec 32} (h : fldN w 25 6 = 0x2E) : Sound w (decodeRflt w) := by
  unfold decodeRflt
  split
  case h_5 => exact .error
  all_goals exact .vectorRow rfl (by simp_all)

theorem sound_rsel {w : BitVec 32} (h : fldN w 25 6 = 0x2F) : Sound w (decodeRsel w) := by
  unfold decodeRsel
  split
  case h_3 => exact .error
  all_goals exact .vectorRow rfl (by simp_all)

theorem sound_vload {w : BitVec 32} (h : fldN w 25 6 = 0x30) : Sound w (decodeVload w) := by
  unfold decodeVload
  split
  case h_5 => exact .error
  all_goals exact .vectorRow rfl (by simp_all)

theorem sound_vstore {w : BitVec 32} (h : fldN w 25 6 = 0x31) : Sound w (decodeVstore w) := by
  unfold decodeVstore
  split
  case h_5 => exact .error
  all_goals exact .vectorRow rfl (by simp_all)

theorem sound_vamoa {w : BitVec 32} (h : fldN w 25 6 = 0x32) : Sound w (decodeVamoa w) := by
  unfold decodeVamoa
  split
  case h_5 => exact .error
  all_goals exact .vectorRow rfl (by simp_all)

theorem sound_vamob {w : BitVec 32} (h : fldN w 25 6 = 0x33) : Sound w (decodeVamob w) := by
  unfold decodeVamob
  split
  case h_4 => exact .error
  all_goals exact .vectorRow rfl (by simp_all)

theorem sound_braid {w : BitVec 32} (h : fldN w 25 6 = 0x34) : Sound w (decodeBraid w) := by
  unfold decodeBraid
  split
  case h_4 => exact .error
  all_goals exact .vectorRow rfl (by simp_all)

theorem sound_cache {w : BitVec 32} (h : fldN w 25 6 = 0x35) : Sound w (decodeCache w) := by
  unfold decodeCache
  split
  case h_4 => exact .error
  all_goals exact .vectorRow rfl (by simp_all)

theorem sound_copy {w : BitVec 32} (h : fldN w 25 6 = 0x36) : Sound w (decodeCopy w) := by
  unfold decodeCopy
  split
  case h_4 => exact .error
  all_goals exact .vectorRow rfl (by simp_all)

theorem sound_matrix {w : BitVec 32} (h : fldN w 25 6 = 0x37) : Sound w (decodeMatrix w) := by
  unfold decodeMatrix
  split
  case h_4 => exact .error
  all_goals exact .vectorRow rfl (by simp_all)

/-! ## All majors -/

/-- R47, R53: the decoder of its major decodes a word. -/
theorem decode_of_decodesBy {major : Nat} {f : BitVec 32 → Except DecodeError Instr} {l : List Instr} {i : Instr} {w : BitVec 32}
    (hdecode : fldN w 25 6 = major → decode w = f w) (h : DecodesBy major f l) (hi : i ∈ l) (hf : fieldError i = none)
    (hw : encode i = some w) : decode w = .ok i := by
  obtain ⟨hmajor, hok⟩ := h i hi hf w hw
  rw [hdecode hmajor, hok]

/-- R47 to R54: the word of a well-formed instruction decodes to it. -/
theorem decode_of_encode {i : Instr} {w : BitVec 32} (hf : fieldError i = none) (hw : encode i = some w) : decode w = .ok i := by
  cases i with
  | trap x | brk x | mark x =>
    exact decode_of_decodesBy (fun h => by rw [decode, h]; rfl) x.decodesBy_sys (by simp) hf hw
  | eret | endStrand | yield | halt =>
    exact decode_of_decodesBy (fun h => by rw [decode, h]; rfl) decodesBy_sys (by simp) hf hw
  | fence x =>
    exact decode_of_decodesBy (fun h => by rw [decode, h]; rfl) x.decodesBy_fence (by simp) hf hw
  | fsv x | fvs x | fmx x | fcp x =>
    exact decode_of_decodesBy (fun h => by rw [decode, h]; rfl) x.decodesBy_fence (by simp) hf hw
  | add x | sub x | mul x | mulh x | mulhn x | div x | divn x | rem x | remn x | and_ x | or_ x | xor_ x | sll x | srl x | sra x
  | slt x | sltn x | min_ x | max_ x | minn x | maxn x =>
    exact decode_of_decodesBy (fun h => by rw [decode, h]; rfl) x.decodesBy_alu (by simp) hf hw
  | clz x | ctz x | pop x =>
    exact decode_of_decodesBy (fun h => by rw [decode, h]; rfl) x.decodesBy_alu (by simp) hf hw
  | addi x | andi x | ori x | xori x | slti x | sltni x =>
    exact decode_of_decodesBy (fun h => by rw [decode, h]; rfl) x.decodesBy_alui (by simp) hf hw
  | slli x | srli x | srai x =>
    exact decode_of_decodesBy (fun h => by rw [decode, h]; rfl) x.decodesBy_alui (by simp) hf hw
  | sui x =>
    exact decode_of_decodesBy (fun h => by rw [decode, h]; rfl) x.decodesBy_sui (by simp) hf hw
  | pcui x =>
    exact decode_of_decodesBy (fun h => by rw [decode, h]; rfl) x.decodesBy_pcui (by simp) hf hw
  | ldi8 x | ldi16 x | ldi32 x | ldi64 x | ldn8 x | ldn16 x | ldn32 x =>
    exact decode_of_decodesBy (fun h => by rw [decode, h]; rfl) x.decodesBy_ld (by simp) hf hw
  | st8 x | st16 x | st32 x | st64 x =>
    exact decode_of_decodesBy (fun h => by rw [decode, h]; rfl) x.decodesBy_st (by simp) hf hw
  | amoadd x | amoswap x | amocas x | amomin x | amomax x | amominn x | amomaxn x | amoand x | amoor x | amoxor x =>
    exact decode_of_decodesBy (fun h => by rw [decode, h]; rfl) x.decodesBy_amo (by simp) hf hw
  | beq x | bne x | blt x | bge x | bltn x | bgen x =>
    exact decode_of_decodesBy (fun h => by rw [decode, h]; rfl) x.decodesBy_br (by simp) hf hw
  | bany x | ball x | bnone x | bgz x | bgnz x =>
    exact decode_of_decodesBy (fun h => by rw [decode, h]; rfl) x.decodesBy_mbr (by simp) hf hw
  | jal x =>
    exact decode_of_decodesBy (fun h => by rw [decode, h]; rfl) x.decodesBy_jal (by simp) hf hw
  | jalr x =>
    exact decode_of_decodesBy (fun h => by rw [decode, h]; rfl) x.decodesBy_jalr (by simp) hf hw
  | csrrw x | csrrs x | csrrc x =>
    exact decode_of_decodesBy (fun h => by rw [decode, h]; rfl) x.decodesBy_csr (by simp) hf hw
  | csrr x =>
    exact decode_of_decodesBy (fun h => by rw [decode, h]; rfl) x.decodesBy_csr (by simp) hf hw
  | gget x =>
    exact decode_of_decodesBy (fun h => by rw [decode, h]; rfl) x.decodesBy_grant (by simp) hf hw
  | gset x =>
    exact decode_of_decodesBy (fun h => by rw [decode, h]; rfl) x.decodesBy_grant (by simp) hf hw
  | gclr x =>
    exact decode_of_decodesBy (fun h => by rw [decode, h]; rfl) x.decodesBy_grant (by simp) hf hw
  | qpost x | qhash x | barwt x =>
    exact decode_of_decodesBy (fun h => by rw [decode, h]; rfl) x.decodesBy_syncobj (by simp) hf hw
  | bar x | bararr x =>
    exact decode_of_decodesBy (fun h => by rw [decode, h]; rfl) x.decodesBy_syncobj (by simp) hf hw
  | tlwait x =>
    exact decode_of_decodesBy (fun h => by rw [decode, h]; rfl) x.decodesBy_wait (by simp) hf hw
  | tlget x =>
    exact decode_of_decodesBy (fun h => by rw [decode, h]; rfl) x.decodesBy_wait (by simp) hf hw
  | pgmig x | dpromo x =>
    exact decode_of_decodesBy (fun h => by rw [decode, h]; rfl) x.decodesBy_page (by simp) hf hw
  | pgcnt x | pgstat x | ddemo x =>
    exact decode_of_decodesBy (fun h => by rw [decode, h]; rfl) x.decodesBy_page (by simp) hf hw
  | setvl x =>
    exact decode_of_decodesBy (fun h => by rw [decode, h]; rfl) x.decodesBy_vcfg (by simp) hf hw
  | rpt x =>
    exact decode_of_decodesBy (fun h => by rw [decode, h]; rfl) x.decodesBy_vcfg (by simp) hf hw
  | vadd x | vsub x | vmul x | vmulh x =>
    exact decode_of_decodesBy (fun h => by rw [decode, h]; rfl) x.decodesBy_vinta (by simp) hf hw
  | vmulhn x | vdiv x | vdivn x | vrem x =>
    exact decode_of_decodesBy (fun h => by rw [decode, h]; rfl) x.decodesBy_vintb (by simp) hf hw
  | vremn x | vmin x | vmax x | vminn x =>
    exact decode_of_decodesBy (fun h => by rw [decode, h]; rfl) x.decodesBy_vintc (by simp) hf hw
  | vmaxn x | vabsd x =>
    exact decode_of_decodesBy (fun h => by rw [decode, h]; rfl) x.decodesBy_vintd (by simp) hf hw
  | vabs x | vneg x =>
    exact decode_of_decodesBy (fun h => by rw [decode, h]; rfl) x.decodesBy_vintd (by simp) hf hw
  | vand x | vor x | vxor x =>
    exact decode_of_decodesBy (fun h => by rw [decode, h]; rfl) x.decodesBy_vlog (by simp) hf hw
  | vnot x =>
    exact decode_of_decodesBy (fun h => by rw [decode, h]; rfl) x.decodesBy_vlog (by simp) hf hw
  | vsll x | vsrl x | vsra x | vrot x =>
    exact decode_of_decodesBy (fun h => by rw [decode, h]; rfl) x.decodesBy_vshf (by simp) hf hw
  | vsadd x | vssub x | vsaddn x | vssubn x =>
    exact decode_of_decodesBy (fun h => by rw [decode, h]; rfl) x.decodesBy_vsat (by simp) hf hw
  | vwmac x | vwmacn x | vwmul x | vwadd x =>
    exact decode_of_decodesBy (fun h => by rw [decode, h]; rfl) x.decodesBy_vwide (by simp) hf hw
  | vfadd x | vfsub x | vfmul x | vfdiv x =>
    exact decode_of_decodesBy (fun h => by rw [decode, h]; rfl) x.decodesBy_vfa (by simp) hf hw
  | vfma x | vfms x | vfmin x | vfmax x =>
    exact decode_of_decodesBy (fun h => by rw [decode, h]; rfl) x.decodesBy_vfb (by simp) hf hw
  | vfsqrt x | vfabs x | vfneg x | vfclass x =>
    exact decode_of_decodesBy (fun h => by rw [decode, h]; rfl) x.decodesBy_vfc (by simp) hf hw
  | vcmpeq x | vcmpne x | vcmplt x | vcmple x =>
    exact decode_of_decodesBy (fun h => by rw [decode, h]; rfl) x.decodesBy_vcmpa (by simp) hf hw
  | vcmpltn x | vcmplen x | vfcmpeq x | vfcmplt x =>
    exact decode_of_decodesBy (fun h => by rw [decode, h]; rfl) x.decodesBy_vcmpb (by simp) hf hw
  | vfcmple x | vfcmpun x =>
    exact decode_of_decodesBy (fun h => by rw [decode, h]; rfl) x.decodesBy_vcmpc (by simp) hf hw
  | mand x | mor x | mxor x =>
    exact decode_of_decodesBy (fun h => by rw [decode, h]; rfl) x.decodesBy_mlog (by simp) hf hw
  | mnot x =>
    exact decode_of_decodesBy (fun h => by rw [decode, h]; rfl) x.decodesBy_mlog (by simp) hf hw
  | mpop x | mfirst x =>
    exact decode_of_decodesBy (fun h => by rw [decode, h]; rfl) x.decodesBy_mcnt (by simp) hf hw
  | mset x | mclr x =>
    exact decode_of_decodesBy (fun h => by rw [decode, h]; rfl) x.decodesBy_mcnt (by simp) hf hw
  | vsel x =>
    exact decode_of_decodesBy (fun h => by rw [decode, h]; rfl) x.decodesBy_vmov (by simp) hf hw
  | vbcast x =>
    exact decode_of_decodesBy (fun h => by rw [decode, h]; rfl) x.decodesBy_vmov (by simp) hf hw
  | vmvs x =>
    exact decode_of_decodesBy (fun h => by rw [decode, h]; rfl) x.decodesBy_vmov (by simp) hf hw
  | vmsv x =>
    exact decode_of_decodesBy (fun h => by rw [decode, h]; rfl) x.decodesBy_vmov (by simp) hf hw
  | vslideup x | vslidedn x =>
    exact decode_of_decodesBy (fun h => by rw [decode, h]; rfl) x.decodesBy_vperm (by simp) hf hw
  | vperm x =>
    exact decode_of_decodesBy (fun h => by rw [decode, h]; rfl) x.decodesBy_vperm (by simp) hf hw
  | vid x =>
    exact decode_of_decodesBy (fun h => by rw [decode, h]; rfl) x.decodesBy_vperm (by simp) hf hw
  | vcompress x | vexpand x =>
    exact decode_of_decodesBy (fun h => by rw [decode, h]; rfl) x.decodesBy_vpack (by simp) hf hw
  | vready x =>
    exact decode_of_decodesBy (fun h => by rw [decode, h]; rfl) x.decodesBy_vpack (by simp) hf hw
  | vredsum x | vredmin x | vredmax x | vfredsum x =>
    exact decode_of_decodesBy (fun h => by rw [decode, h]; rfl) x.decodesBy_vreda (by simp) hf hw
  | vredand x | vredor x | vredxor x | vfredmax x =>
    exact decode_of_decodesBy (fun h => by rw [decode, h]; rfl) x.decodesBy_vredb (by simp) hf hw
  | vscan x | vfscan x | vscanmax x =>
    exact decode_of_decodesBy (fun h => by rw [decode, h]; rfl) x.decodesBy_vscan (by simp) hf hw
  | vcvt x =>
    exact decode_of_decodesBy (fun h => by rw [decode, h]; rfl) x.decodesBy_vconv (by simp) hf hw
  | vqblk x =>
    exact decode_of_decodesBy (fun h => by rw [decode, h]; rfl) x.decodesBy_vconv (by simp) hf hw
  | vdqblk x =>
    exact decode_of_decodesBy (fun h => by rw [decode, h]; rfl) x.decodesBy_vconv (by simp) hf hw
  | vldg x | vstg x =>
    exact decode_of_decodesBy (fun h => by rw [decode, h]; rfl) x.decodesBy_rmov (by simp) hf hw
  | rdec x | renc x =>
    exact decode_of_decodesBy (fun h => by rw [decode, h]; rfl) x.decodesBy_rmov (by simp) hf hw
  | radd x | rsub x | rmin x | rmax x =>
    exact decode_of_decodesBy (fun h => by rw [decode, h]; rfl) x.decodesBy_rari (by simp) hf hw
  | fdec x | fenc x =>
    exact decode_of_decodesBy (fun h => by rw [decode, h]; rfl) x.decodesBy_rflt (by simp) hf hw
  | rdsum x | rlen x =>
    exact decode_of_decodesBy (fun h => by rw [decode, h]; rfl) x.decodesBy_rflt (by simp) hf hw
  | rpos x =>
    exact decode_of_decodesBy (fun h => by rw [decode, h]; rfl) x.decodesBy_rsel (by simp) hf hw
  | rfilt x =>
    exact decode_of_decodesBy (fun h => by rw [decode, h]; rfl) x.decodesBy_rsel (by simp) hf hw
  | vld x =>
    exact decode_of_decodesBy (fun h => by rw [decode, h]; rfl) x.decodesBy_vload (by simp) hf hw
  | vlds x =>
    exact decode_of_decodesBy (fun h => by rw [decode, h]; rfl) x.decodesBy_vload (by simp) hf hw
  | vldx x =>
    exact decode_of_decodesBy (fun h => by rw [decode, h]; rfl) x.decodesBy_vload (by simp) hf hw
  | vlda x =>
    exact decode_of_decodesBy (fun h => by rw [decode, h]; rfl) x.decodesBy_vload (by simp) hf hw
  | vst x =>
    exact decode_of_decodesBy (fun h => by rw [decode, h]; rfl) x.decodesBy_vstore (by simp) hf hw
  | vsts x =>
    exact decode_of_decodesBy (fun h => by rw [decode, h]; rfl) x.decodesBy_vstore (by simp) hf hw
  | vstx x =>
    exact decode_of_decodesBy (fun h => by rw [decode, h]; rfl) x.decodesBy_vstore (by simp) hf hw
  | vstm x =>
    exact decode_of_decodesBy (fun h => by rw [decode, h]; rfl) x.decodesBy_vstore (by simp) hf hw
  | vamoadd x | vamoswap x | vamocas x | vamomin x =>
    exact decode_of_decodesBy (fun h => by rw [decode, h]; rfl) x.decodesBy_vamoa (by simp) hf hw
  | vamomax x =>
    exact decode_of_decodesBy (fun h => by rw [decode, h]; rfl) x.decodesBy_vamob (by simp) hf hw
  | vstrc x =>
    exact decode_of_decodesBy (fun h => by rw [decode, h]; rfl) x.decodesBy_vamob (by simp) hf hw
  | vwait x =>
    exact decode_of_decodesBy (fun h => by rw [decode, h]; rfl) x.decodesBy_vamob (by simp) hf hw
  | mjld x | mjst x =>
    exact decode_of_decodesBy (fun h => by rw [decode, h]; rfl) x.decodesBy_braid (by simp) hf hw
  | mjrep x =>
    exact decode_of_decodesBy (fun h => by rw [decode, h]; rfl) x.decodesBy_braid (by simp) hf hw
  | cflush x | cinv x =>
    exact decode_of_decodesBy (fun h => by rw [decode, h]; rfl) x.decodesBy_cache (by simp) hf hw
  | l1cfg x =>
    exact decode_of_decodesBy (fun h => by rw [decode, h]; rfl) x.decodesBy_cache (by simp) hf hw
  | cpy x =>
    exact decode_of_decodesBy (fun h => by rw [decode, h]; rfl) x.decodesBy_copy (by simp) hf hw
  | cpyv x =>
    exact decode_of_decodesBy (fun h => by rw [decode, h]; rfl) x.decodesBy_copy (by simp) hf hw
  | cpyw x =>
    exact decode_of_decodesBy (fun h => by rw [decode, h]; rfl) x.decodesBy_copy (by simp) hf hw
  | mma x | mmaz x | mxsum x =>
    exact decode_of_decodesBy (fun h => by rw [decode, h]; rfl) x.decodesBy_matrix (by simp) hf hw
  | _ => exact absurd hw (by simp [encode])

/-- R47 to R55: a word that decodes is the word of the instruction it gives, which is well-formed. -/
theorem sound_decode (w : BitVec 32) : Sound w (decode w) := by
  unfold decode
  split
  · exact sound_sys ‹_›
  · exact sound_fence ‹_›
  · exact sound_alu ‹_›
  · exact sound_alui ‹_›
  · exact sound_sui ‹_›
  · exact sound_pcui ‹_›
  · exact sound_ld ‹_›
  · exact sound_st ‹_›
  · exact sound_amo ‹_›
  · exact sound_br ‹_›
  · exact sound_mbr ‹_›
  · exact sound_jal ‹_›
  · exact sound_jalr ‹_›
  · exact sound_csr ‹_›
  · exact sound_grant ‹_›
  · exact sound_syncobj ‹_›
  · exact sound_wait ‹_›
  · exact sound_page ‹_›
  · exact sound_vcfg ‹_›
  · exact sound_vinta ‹_›
  · exact sound_vintb ‹_›
  · exact sound_vintc ‹_›
  · exact sound_vintd ‹_›
  · exact sound_vlog ‹_›
  · exact sound_vshf ‹_›
  · exact sound_vsat ‹_›
  · exact sound_vwide ‹_›
  · exact sound_vfa ‹_›
  · exact sound_vfb ‹_›
  · exact sound_vfc ‹_›
  · exact sound_vcmpa ‹_›
  · exact sound_vcmpb ‹_›
  · exact sound_vcmpc ‹_›
  · exact sound_mlog ‹_›
  · exact sound_mcnt ‹_›
  · exact sound_vmov ‹_›
  · exact sound_vperm ‹_›
  · exact sound_vpack ‹_›
  · exact sound_vreda ‹_›
  · exact sound_vredb ‹_›
  · exact sound_vscan ‹_›
  · exact sound_vconv ‹_›
  · exact sound_rmov ‹_›
  · exact sound_rari ‹_›
  · exact sound_rflt ‹_›
  · exact sound_rsel ‹_›
  · exact sound_vload ‹_›
  · exact sound_vstore ‹_›
  · exact sound_vamoa ‹_›
  · exact sound_vamob ‹_›
  · exact sound_braid ‹_›
  · exact sound_cache ‹_›
  · exact sound_copy ‹_›
  · exact sound_matrix ‹_›
  · exact .error

/-- Settles O34: a well-formed instruction's word has the opcode and the operands its decoder looks for, and a row of the decoder
accepts exactly the words that hold its opcode. -/
theorem decodeAndEncodeAgree : Obligations.DecodeAndEncodeAgree :=
  ⟨fun _ _ hf hw => decode_of_encode hf hw, fun w i h => sound_decode w i h⟩

/-- Settles O33: each of the words is the one that its instruction encodes to. -/
theorem workedEncodingsDecode : Obligations.WorkedEncodingsDecode := by
  unfold Obligations.WorkedEncodingsDecode
  and_intros <;> exact decode_of_encode rfl rfl

end Sys2Proof
end

section
/-! PROOFS. Retirement and the stop a convoy waits to take (R59, R316), the end of a wait (R118, R132, R135), and the sequencer's turn
(R100). -/

namespace Sys2Proof
open Machine Claims
namespace Machine

/-! ## What only traces (R348, R352) -/

/-- Of the package only the dies' traces and the free values drawn for them changed. -/
structure OnlyTraces (s t : State) : Prop where
  reads : SameReads s t
  copying : t.copying = s.copying
  strands : t.strands = s.strands
  waitingRecs : t.waitingRecs = s.waitingRecs

namespace OnlyTraces

theorem refl (s : State) : OnlyTraces s s := ⟨.refl s, rfl, rfl, rfl⟩

theorem trans {s t u : State} (h : OnlyTraces s t) (g : OnlyTraces t u) : OnlyTraces s u :=
  ⟨h.reads.trans g.reads, g.copying.trans h.copying, g.strands.trans h.strands, g.waitingRecs.trans h.waitingRecs⟩

theorem foldl {α : Type} {f : State → α → State} (hf : ∀ s x, OnlyTraces s (f s x)) (s : State) (l : List α) :
    OnlyTraces s (l.foldl f s) := by
  induction l generalizing s with
  | nil => exact .refl s
  | cons x l ih => exact (hf s x).trans (ih _)

theorem traceAt (s : State) (die : Nat) (r : TraceRec) : OnlyTraces s (s.traceAt die r) := by
  obtain ⟨honly, -⟩ := s.traceAt_only die r
  exact ⟨.traceAt s die r, copying_traceAt s die r, (congrArg State.strands honly :), (congrArg State.waitingRecs honly :)⟩

theorem profileLane (s : State) (src : Nat) (c : Convoy) (p : Sample) (lane groups elems : Nat) :
    OnlyTraces s (s.profileLane src c p lane groups elems) := by
  have hdraw : OnlyTraces s { s with profDraws := s.profDraws + 4 } := ⟨⟨rfl, rfl, rfl, rfl, rfl, rfl, rfl, fun _ => rfl⟩, rfl, rfl, rfl⟩
  exact hdraw.trans (.traceAt _ _ _)

theorem profile (s : State) (src : Nat) (c : Convoy) (p : Sample) (did : Nat → Bool) : OnlyTraces s (s.profile src c p did) := by
  refine .foldl (fun s x => ?_) s _
  dsimp only
  split
  · exact .refl s
  · exact .profileLane s src c p _ _ _

theorem profileTo (s : State) (src : Nat) (c : Convoy) (k : Nat) (did : Nat → Bool) : OnlyTraces s (s.profileTo src c k did) := by
  refine .foldl (fun s p => ?_) s _
  split
  · exact .profile s src c p _
  · split
    · exact .profile s src c p _
    · exact .refl s

section
variable {s t : State} (h : OnlyTraces s t)
include h

theorem strand (src : Nat) : t.strand src = s.strand src := by rw [State.strand, State.strand, h.strands]

theorem gtcOf (src : Nat) : t.gtcOf src = s.gtcOf src := by
  have hdie : (t.die (dieOf src)).gtc = (s.die (dieOf src)).gtc := (congrArg Die.gtc (h.reads.die (dieOf src)) :)
  exact hdie

end

end OnlyTraces

/-! ## Retirement (R59) -/

theorem bitN_eq_getLsbD (w : Word) (k : Nat) : bitN w k = w.getLsbD k := by
  rw [bitN, bitsN, BitVec.getLsbD, Nat.testBit_eq_decide_div_mod_eq]; rfl

theorem headDone_iff (t : Strand) (c : Convoy) : t.headDone c = true ↔ HeadDone t c := by
  cases hcp : c.nCp <;> cases hmx : c.nMx <;>
    simp [Strand.headDone, Strand.finished, HeadDone, hcp, hmx, and_assoc]

/-- A convoy without samples retires without a record where TRACECTL asks for none (R349, R352). -/
theorem traceRetire_of_untraced {s : State} {src : Nat} {c : Convoy} (hsamples : c.samples = [])
    (htrace : (s.strand src).csr.tracectl.getLsbD 0 = false) : s.traceRetire src c = s := by
  simp only [State.traceRetire, State.profileTo, hsamples, List.foldl_nil, bitN_eq_getLsbD, htrace, Bool.false_eq_true, if_false]

theorem convoyRetire_of_headDone {s : State} {src : Nat} {c : Convoy} {r : List Convoy} (hviq : (s.strand src).viq = c :: r)
    (htrace : (s.strand src).csr.tracectl.getLsbD 0 = false) (hsamples : c.samples = []) (hdone : HeadDone (s.strand src) c) :
    exec (.convoyRetire src) s = .next (s.updAt src Strand.retireHead) := by
  show execConvoyRetire src s = _
  simp only [execConvoyRetire, hviq, (headDone_iff _ c).mpr hdone, if_true, traceRetire_of_untraced hsamples htrace]

theorem convoyRetire_of_not_headDone {s : State} {src : Nat} {c : Convoy} {r : List Convoy} (hviq : (s.strand src).viq = c :: r)
    (hdone : ¬HeadDone (s.strand src) c) : exec (.convoyRetire src) s = .next (s.takePending src) := by
  show execConvoyRetire src s = _
  simp only [execConvoyRetire, hviq, mt (headDone_iff _ c).mp hdone, if_false, Bool.false_eq_true]

theorem retireHead_of_viq {t : Strand} {c : Convoy} {r : List Convoy} (h : t.viq = c :: r) :
    t.retireHead = { (t.fixReadsOf c.seq).takeScalar c.pendScalar with viq := r } := by
  rw [Strand.retireHead, h]

/-- What retirement leaves of a strand: the scalar result, and all else but the convoy (R59). -/
theorem retireHead_keeps {t : Strand} {c : Convoy} {r : List Convoy} (h : t.viq = c :: r) :
    t.retireHead.viq = r ∧ t.retireHead.pc = t.pc ∧ t.retireHead.vec = t.vec ∧
      (c.pendScalar = none → ∀ n, t.retireHead.reg n = t.reg n) ∧
      ∀ d w, c.pendScalar = some (d, w) → (d ≠ 0 → t.retireHead.reg d = w) ∧ ∀ n, n ≠ d → t.retireHead.reg n = t.reg n := by
  rw [retireHead_of_viq h]
  cases hscalar : c.pendScalar with
  | none => exact ⟨rfl, rfl, rfl, fun _ _ => rfl, nofun⟩
  | some p =>
    obtain ⟨d, w⟩ := p
    refine ⟨rfl, Strand.setReg_pc _ _ _, Strand.setReg_vec _ _ _, nofun, ?_⟩
    rintro _ _ ⟨⟩
    have hreg : ∀ n, ({ (t.fixReadsOf c.seq).setReg d w with viq := r }).reg n = if n = 0 then 0 else if n = d then w else t.reg n :=
      fun n => (t.fixReadsOf c.seq).reg_setReg d n w
    refine ⟨fun hd => (hreg d).trans (by simp [hd]), fun n hn => (hreg n).trans ?_⟩
    by_cases h0 : n = 0
    · simp [h0]
    · simp [h0, hn]

/-! ## The stop of the oldest convoy is taken (R191, R300, R316) -/

theorem takePending_of_undecided {s : State} {src : Nat} {c : Convoy} {r : List Convoy} (hviq : (s.strand src).viq = c :: r)
    (h : c.pendStop = none ∨ c.eddyDue ≠ []) : s.takePending src = s := by
  simp only [State.takePending, hviq]
  cases hstop : c.pendStop with
  | none => rfl
  | some p => simp [h.resolve_left (by simp [hstop])]

theorem takePending_of_decided {s : State} {src : Nat} {c : Convoy} {r : List Convoy} {p : PendStop}
    (hviq : (s.strand src).viq = c :: r) (hstop : c.pendStop = some p) (heddy : c.eddyDue = []) :
    s.takePending src = s.commitStop src c.seq p.at_ p.recs := by
  simp only [State.takePending, hviq, hstop, heddy, List.isEmpty_nil, if_true]

/-- What is left of a convoy once the stop `w` of its next member is taken (R300). -/
def Convoy.stoppedBy (c : Convoy) (w : StopAt) (rs : List FRec) : Convoy :=
  let k := if w.ended then c.next + 1 else c.next
  { c with base := k, next := k, from_ := 0, resumed := !w.ended, skip := false, hold := none
           stopVa := (rs.head?.filter (fun r => [5, 6, 7, 8, 9, 11, 12, 13, 17].contains r.kind)).map FRec.va, forceBlock := w.forceBlock
           watchExempt := if w.ended then [] else c.watchExempt ++ w.watchExempt
           resval := w.resval, samples := [], snap := none, pendStop := none, pendScalar := none, stopped := true }

/-- A strand whose oldest convoy has stopped (R300, R301). -/
def stoppedHead (t : Strand) (w : StopAt) (c : Convoy) (r : List Convoy) : Strand :=
  { t with viq := c :: r, vecHeld := true, csr := { t.csr with estart := w.estart, donemask := w.donemask } }

theorem updConvoy_head {t : Strand} {c : Convoy} {r : List Convoy} (hviq : t.viq = c :: r) (hseq : ∀ d ∈ r, d.seq ≠ c.seq)
    (f : Convoy → Convoy) : t.updConvoy c.seq f = { t with viq := f c :: r } := by
  have hrest : r.map (fun d => if d.seq = c.seq then f d else d) = r :=
    (List.map_congr_left fun d hd => if_neg (hseq d hd)).trans (List.map_id' r)
  rw [Strand.updConvoy, hviq, List.map_cons, if_pos rfl, hrest]

/-- The stop of the oldest convoy, with one record: what was traced, the mark of the strand, and the exception at its PC. -/
theorem commitStop_head {s : State} {src : Nat} {c : Convoy} {r : List Convoy} {w : StopAt} {q : FRec}
    (hviq : (s.strand src).viq = c :: r) (hseq : ∀ d ∈ r, d.seq ≠ c.seq) (hscalar : c.pendScalar = none) :
    ∃ t, OnlyTraces s t ∧ s.commitStop src c.seq w [q] =
      (t.updAt src fun u => stoppedHead u w (c.stoppedBy w [q]) r).takeStop src (s.strand src).pc [{ q with gtc := s.gtcOf src }] := by
  have hfind : (s.strand src).viq.find? (fun d => d.seq == c.seq) = some c := by rw [hviq]; simp
  obtain ⟨t, ht, htraces⟩ : ∃ t, t = s.profileTo src c c.next
      (fun i => w.ended || decide (i < w.estart.toNat) || bitN w.donemask (i - w.estart.toNat)) ∧ OnlyTraces s t :=
    ⟨_, rfl, .profileTo s src c _ _⟩
  refine ⟨t, htraces, ?_⟩
  have hhead := updConvoy_head (t := t.strand src) (by rw [htraces.strand]; exact hviq) hseq (Convoy.stoppedBy · w [q])
  have hmark : (t.updAt src fun u => { u.updConvoy c.seq (Convoy.stoppedBy · w [q]) with
      vecHeld := true, csr := { u.csr with estart := w.estart, donemask := w.donemask } }) =
      t.updAt src fun u => stoppedHead u w (c.stoppedBy w [q]) r := by
    rw [State.updAt, State.updAt, hhead, stoppedHead]
  have hgtc : (t.updAt src fun u => stoppedHead u w (c.stoppedBy w [q]) r).gtcOf src = s.gtcOf src := htraces.gtcOf src
  rw [← hgtc, ← hmark]
  simp only [State.commitStop, hfind, ← ht, Option.bind_some, hscalar, Strand.takeScalar]
  rfl

/-- A stop that the oldest convoy waits to take is posted, and the strand halts at its PC with what is left of the convoy (R191, R300,
R316). -/
theorem convoyRetire_of_pendStop {s w : State} {src : Nat} {c : Convoy} {r : List Convoy} {p : PendStop} {q : FRec}
    (hviq : (s.strand src).viq = c :: r) (hseq : ∀ d ∈ r, d.seq ≠ c.seq) (hstop : c.pendStop = some p) (heddy : c.eddyDue = [])
    (hscalar : c.pendScalar = none) (hrecs : p.recs = [q]) (hrunning : (s.strand src).st = .running) (hwait : (s.strand src).wait = .none)
    (hwaiting : s.waitingRecs = []) (hstate : (s.context q.ctx).state ≠ 4)
    (hpost : s.tryPost (dieOf src) q.ctx { q with gtc := s.gtcOf src, halted := true, more := false } = .posted w) :
    ∃ t, exec (.convoyRetire src) s = .next t ∧ t.mem = w.mem ∧
      t.strand src = { stoppedHead (s.strand src) p.at_ (c.stoppedBy p.at_ [q]) r with st := .halted, replay := none } := by
  have hdone : ¬HeadDone (s.strand src) c := fun ⟨_, _, _, _, hnone, _⟩ => absurd hnone (by simp [hstop])
  obtain ⟨t, htraces, hcommit⟩ := commitStop_head (w := p.at_) (q := q) hviq hseq hscalar
  have hstrand : (t.updAt src fun u => stoppedHead u p.at_ (c.stoppedBy p.at_ [q]) r).strand src =
      stoppedHead (s.strand src) p.at_ (c.stoppedBy p.at_ [q]) r := by rw [State.strand_updAt, htraces.strand]
  obtain ⟨hmem, hhalted⟩ := takeStop_of_posted (src := src) (pc := (s.strand src).pc) (r := { q with gtc := s.gtcOf src })
    (htraces.reads.trans (.updAt t src fun u => stoppedHead u p.at_ (c.stoppedBy p.at_ [q]) r)) htraces.copying
    (htraces.waitingRecs.trans hwaiting) (by rw [hstrand]; exact hrunning) (by rw [hstrand]; exact hwait) hstate hpost
  refine ⟨_, by rw [convoyRetire_of_not_headDone hviq hdone, takePending_of_decided hviq hstop heddy, hrecs, hcommit], hmem, ?_⟩
  rw [hhalted, hstrand]
  rfl

/-! ## A wait ends (R118, R132, R135) -/

/-- A wait at no barrier ends, and the strand runs again (R118). -/
theorem conditionClears_of_over {s : State} {src : Nat} (hst : (s.strand src).st = .waiting)
    (hwait : ∀ sd b tok, (s.strand src).wait ≠ .barrier sd b tok) (hover : s.waitOver src = true) :
    exec (.conditionClears src) s = .next (s.updAt src fun t => { t with st := .running, wait := .none }) := by
  show execConditionClears src s = _
  cases h : (s.strand src).wait with
  | barrier sd b tok => exact absurd h (hwait sd b tok)
  | _ => simp [execConditionClears, hover, hst, h]

/-- A strand whose barrier instruction finishes with the phase it waited for (R135). -/
def phaseTaken (sd : BitVec 5) (phase : BitVec 16) (t : Strand) : Strand :=
  { (t.setReg sd.toNat (phase.zeroExtend 64)).advance with barTok := none }

/-- The phase is the result, and the strand runs at its next instruction (R133). -/
theorem phaseTaken_runs (sd : BitVec 5) (phase : BitVec 16) (t : Strand) :
    let u := phaseTaken sd phase t
    u.st = .running ∧ u.wait = .none ∧ u.pc = t.pc + 4 ∧ u.barTok = none ∧
      (sd ≠ 0 → u.reg sd.toNat = phase.zeroExtend 64) ∧ ∀ n, n ≠ sd.toNat → u.reg n = t.reg n := by
  have hreg : ∀ n, (phaseTaken sd phase t).reg n = if n = 0 then 0 else if n = sd.toNat then phase.zeroExtend 64 else t.reg n :=
    fun n => t.reg_setReg sd.toNat n _
  refine ⟨rfl, rfl, congrArg (· + 4) (Strand.setReg_pc _ _ _), rfl, fun hsd => (hreg _).trans ?_, fun n hn => (hreg n).trans ?_⟩
  · have hne : sd.toNat ≠ 0 := fun h => hsd (BitVec.eq_of_toNat_eq h)
    simp [hne]
  · by_cases h0 : n = 0
    · simp [h0]
    · simp [h0, hn]

section
variable {s : State} {src : Nat} {sd : BitVec 5} {b tok ix : Nat} {e : Barrier}
  (hwait : (s.strand src).wait = .barrier sd b tok) (hentry : s.barrierOf (clusterOf src) (s.strand src).group b = some (ix, e))
include hwait hentry

theorem waitOver_barrier_iff : s.waitOver src = true ↔ e.phase.toNat ≠ tok := by
  simp [State.waitOver, hwait, State.phaseAt, hentry]

/-- A strand whose barrier phase is over takes the phase as its result and goes on (R135). -/
theorem conditionClears_of_phase (hst : (s.strand src).st = .waiting) (hphase : e.phase.toNat ≠ tok) :
    exec (.conditionClears src) s = .next (s.updAt src (phaseTaken sd e.phase)) := by
  have hover := (waitOver_barrier_iff hwait hentry).mpr hphase
  have hfinish : s.finishBarrier src = s.updAt src (phaseTaken sd e.phase) := by
    simp only [State.finishBarrier, hwait, hentry, hphase, if_false]; rfl
  show execConditionClears src s = _
  simp [execConditionClears, hover, hst, hwait, hfinish]

end

/-- A strand that neither waits nor is halted has no wait to end, and one whose condition has not come about waits on. -/
theorem conditionClears_of_not_over {s : State} {src : Nat}
    (h : ((s.strand src).st ≠ .waiting ∧ (s.strand src).st ≠ .halted) ∨ s.waitOver src = false) :
    exec (.conditionClears src) s = .next s := by
  show execConditionClears src s = _
  cases hover : s.waitOver src with
  | false => simp [execConditionClears, hover]
  | true =>
    obtain ⟨hwaiting, hhalted⟩ := h.resolve_right (by simp [hover])
    cases hst : (s.strand src).st <;> simp_all [execConditionClears]

/-- In a halted strand only an arrival comes due (R120, R132). -/
theorem conditionClears_of_halted {s : State} {src : Nat} (hst : (s.strand src).st = .halted)
    (hwait : ∀ a q, (s.strand src).wait ≠ .arrival a q) : exec (.conditionClears src) s = .next s := by
  show execConditionClears src s = _
  cases h : (s.strand src).wait with
  | arrival a q => exact absurd h (hwait a q)
  | _ => simp [execConditionClears, hst, h]

theorem Strand.fixReads_eq (t : Strand) : ∃ l, t.fixReads = { t with lands := l } := by
  unfold Strand.fixReads
  split
  · exact ⟨_, rfl⟩
  · exact ⟨_, rfl⟩

/-- The release of an arrival whose strand has nothing left to perform: its reads stand, and it goes on (R133). -/
theorem barRelease_of_quiet {s : State} {a : Arrive} {k : State → State} (hopen : s.me.lastOpen = none) (hlost : s.me.lostStore = none)
    (hssq : s.me.ssq = []) (hstrip : s.me.openStrip = none) (hflying : s.flying s.cur.src = false) :
    s.barRelease a k = k (s.upd Strand.fixReads) := by
  simp [State.barRelease, hopen, State.drainPoint, hlost, State.stripEventOr, hssq, hstrip, hflying]

/-- What an arrival that comes due leaves of its strand, `l` being its reads that may still take place (R132). -/
def arrivalKept (t : Strand) (l : List Landing) (a : Arrive) (gtc : Word) : Strand := { t with lands := l, barDue := some (a, gtc) }

/-- An arrival of a halted group comes due: it is kept with its time (R132). -/
theorem arrivalDue_of_quiet {s : State} {src : Nat} {a : Arrive} (hst : (s.strand src).st = .halted)
    (hopen : (s.strand src).lastOpen = none) (hlost : (s.strand src).lostStore = none) (hssq : (s.strand src).ssq = [])
    (hstrip : (s.strand src).openStrip = none) (hflying : s.flying src = false) :
    OnlyStrand src s (s.arrivalDue src a) ∧ (s.arrivalDue src a).clusters = s.clusters ∧
      ∃ l, (s.arrivalDue src a).strand src = arrivalKept (s.strand src) l a (s.gtcOf src) := by
  obtain ⟨l, hreads⟩ := (s.strand src).fixReads_eq
  have hrelease := barRelease_of_quiet (s := { s with cur := { src := src, pc := (s.strand src).pc } }) (a := a)
    (k := fun v => v.upd fun t => { t with barDue := some (a, v.gtcOf src) }) hopen hlost hssq hstrip hflying
  obtain ⟨t, hdue, ht⟩ : ∃ t, s.arrivalDue src a = { t with cur := s.cur } ∧ t = (((s.updAt src Strand.fixReads).updAt src
      fun t => { t with barDue := some (a, s.gtcOf src) }).updAt src fun t => if t.st = .waiting then { t with st := .halted } else t) := by
    refine ⟨_, ?_, rfl⟩
    rw [State.arrivalDue, hrelease]
    rfl
  have hother : ∀ j, j ≠ src → t.strand j = s.strand j := fun j hj => by
    rw [ht, State.strand_updAt_ne _ _ _ _ hj, State.strand_updAt_ne _ _ _ _ hj, State.strand_updAt_ne _ _ _ _ hj]
  have hkept : t.strand src = arrivalKept (s.strand src) l a (s.gtcOf src) := by
    rw [ht, State.strand_updAt, State.strand_updAt, State.strand_updAt, hreads]
    exact if_neg (by simp [hst])
  rw [hdue]
  exact ⟨⟨by rw [ht]; rfl, hother⟩, by rw [ht]; rfl, l, hkept⟩

/-! ## The sequencer (R100) -/

/-- The strand once the sequencer has issued its convoy `c`, with `d` its deficit before (R100 rule 6). -/
def issuedFrom (t : Strand) (c : Convoy) (d : Int) : Strand :=
  { t with
    viq := t.viq.map (fun f => if f.seq = c.seq then { f with issued := true } else f)
    deficit := satDeficit (d - c.charge) t.bind.weight }

/-- Nothing but strand `src` and core `k` changed. -/
def OnlyTurn (src k : Nat) (s t : State) : Prop :=
  { t with strands := s.strands, cores := s.cores } = s ∧ (∀ j, j ≠ src → t.strand j = s.strand j) ∧ ∀ j, j ≠ k → t.core j = s.core j

theorem OnlyTurn.trans {src k : Nat} {s t u : State} (h : OnlyTurn src k s t) (g : OnlyTurn src k t u) : OnlyTurn src k s u := by
  obtain ⟨hother, hstrand, hcore⟩ := h
  obtain ⟨gother, gstrand, gcore⟩ := g
  refine ⟨?_, fun j hj => (gstrand j hj).trans (hstrand j hj), fun j hj => (gcore j hj).trans (hcore j hj)⟩
  exact ((congrArg (fun v : State => { v with strands := s.strands, cores := s.cores }) gother :)).trans hother

theorem onlyTurn_updAt (s : State) (src k : Nat) (f : Strand → Strand) : OnlyTurn src k s (s.updAt src f) :=
  ⟨rfl, fun j hj => s.strand_updAt_ne src j f hj, fun _ _ => rfl⟩

theorem onlyTurn_setCore (s : State) (src k : Nat) (c : Core) : OnlyTurn src k s (s.setCore k c) :=
  ⟨rfl, fun _ _ => rfl, fun j hj => s.core_setCore_ne k c j hj⟩

theorem ready_of_usable {t : Strand} (h : t.usable = true) : t.ready = true := by
  rw [Strand.usable, Bool.and_eq_true] at h
  exact h.1

/-- The turn holder issues its oldest convoy and is charged for it, and stays the one whose turn it is (R100 rules 4 and 6). -/
theorem issueTurn_of_unissued {s : State} {src : Nat} {c : Convoy} (k : Nat) (hc : (s.strand src).unissued = some c) :
    OnlyTurn src k s (s.issueTurn k src) ∧ ((s.issueTurn k src).core k).turn = some src ∧
      (s.issueTurn k src).strand src = issuedFrom (s.strand src) c (s.strand src).deficit := by
  have hissue : s.issueFrom src = s.updAt src fun t => issuedFrom t c t.deficit := by simp only [State.issueFrom, hc]; rfl
  simp only [State.issueTurn, hc, hissue]
  refine ⟨(onlyTurn_updAt s src k _).trans (onlyTurn_setCore _ src k _), by simp, by simp⟩

/-- The strand at the start of its turn, its quantum added (R100 rule 4). -/
def credited (t : Strand) : Strand := { t with deficit := satDeficit (t.deficit + 64 * t.bind.weight) t.bind.weight }

/-- The turn of a ready strand starts with its quantum, and is the strand's where that leaves it in credit (R100 rules 3 to 5). -/
theorem startTurns_of_next {s : State} {k src fuel : Nat} {level : List Nat} (hfuel : 0 < fuel)
    (hnext : nextHolder level (s.core k).turn = some src) (hready : (s.strand src).ready = true)
    (hcredit : 0 < (credited (s.strand src)).deficit) :
    s.startTurns k level fuel =
      (s.updAt src credited).setCore k { s.core k with turn := some src, turnOver := false, turnCharge := 0 } := by
  obtain ⟨f, rfl⟩ := Nat.exists_eq_add_of_lt hfuel
  have hquantum : (s.updAt src fun t => { t with
      deficit := if t.ready then satDeficit (t.deficit + 64 * t.bind.weight) t.bind.weight else 0 }) = s.updAt src credited := by
    rw [State.updAt, State.updAt, hready]; rfl
  simp only [State.startTurns, hnext, hready, hquantum, State.strand_updAt, hcredit, decide_true, Bool.and_self, Bool.not_true, if_true]
  rfl

/-- The holder of a core's turn issues in an issue clock that it can use (R100 rules 3 and 4). -/
theorem issueClock_of_holder {s : State} {k src prio : Nat} {c : Convoy} (htop : s.topPrio k Strand.ready = some prio)
    (hholds : s.holds k prio = true) (hturn : (s.core k).turn = some src) (husable : (s.strand src).usable = true)
    (hc : (s.strand src).unissued = some c) :
    OnlyTurn src k s (s.issueClock k) ∧ (s.issueClock k).strand src = issuedFrom (s.strand src) c (s.strand src).deficit := by
  obtain ⟨honly, -, hstrand⟩ := issueTurn_of_unissued k hc
  have hclock : s.issueClock k = s.issueTurn k src := by simp only [State.issueClock, htop, hholds, if_true, hturn, husable]
  rw [hclock]
  exact ⟨honly, hstrand⟩

/-- Where the turn has passed, the next strand in slot order takes it with its quantum, and issues (R100 rules 3 to 6). -/
theorem issueClock_of_passed {s : State} {k src prio : Nat} {c : Convoy} (htop : s.topPrio k Strand.ready = some prio)
    (hholds : s.holds k prio = false) (hnext : nextHolder (s.levelOf k prio) (s.core k).turn = some src)
    (husable : (s.strand src).usable = true) (hcredit : 0 < (credited (s.strand src)).deficit) (hc : (s.strand src).unissued = some c) :
    OnlyTurn src k s (s.issueClock k) ∧ ((s.issueClock k).core k).turn = some src ∧
      (s.issueClock k).strand src = issuedFrom (s.strand src) c (credited (s.strand src)).deficit := by
  obtain ⟨t, ht⟩ : ∃ t, t = s.startTurns k (s.levelOf k prio) (2 ^ 28) := ⟨_, rfl⟩
  have hstart := ht.trans (startTurns_of_next (Nat.two_pow_pos 28) hnext (ready_of_usable husable) hcredit)
  have hstrand : t.strand src = credited (s.strand src) := by rw [hstart]; simp
  have hturn : (t.core k).turn = some src := by rw [hstart]; simp
  have honly : OnlyTurn src k s t := by rw [hstart]; exact (onlyTurn_updAt s src k _).trans (onlyTurn_setCore _ src k _)
  have hclock : s.issueClock k = t.issueTurn k src := by
    have husable' : (t.strand src).usable = true := by rw [hstrand]; exact husable
    simp only [State.issueClock, htop, hholds, Bool.false_eq_true, if_false, ← ht, hturn, husable', if_true]
  obtain ⟨hissue, hholder, hissued⟩ := issueTurn_of_unissued (s := t) k (c := c) (by rw [hstrand]; exact hc)
  rw [hclock]
  refine ⟨honly.trans hissue, hholder, hissued.trans ?_⟩
  rw [hstrand]
  rfl

end Machine

/-- Settles O21: a finished convoy retires, and the stop of one is posted because what it traces leaves what the device reads for the
context; a wait ends by what it waits for; the sequencer's clock starts at most one turn. That a turn whose level is no longer the
highest is over (log 39) and that a stop found waits for the eddy (log 17) are the model's own readings. -/
theorem retirementWaitsAndIssue : Obligations.RetirementWaitsAndIssue := by
  intro s w src die core c r p q
  refine ⟨fun hviq htrace hsamples hdone => ⟨_, convoyRetire_of_headDone hviq htrace hsamples hdone, onlyStrand_updAt s src _, ?_⟩,
    fun hviq hdone hundecided => ?_, ?_, fun hst hwait hover =>
    ⟨_, conditionClears_of_over hst hwait hover, onlyStrand_updAt s src _, State.strand_updAt _ _ _⟩, ?_,
    conditionClears_of_not_over, conditionClears_of_halted, ?_, fun q hwait => ?_, fun hwait => ?_,
    fun sd b tok e ix hwait hentry => waitOver_barrier_iff hwait hentry, ?_, ?_⟩
  · rw [State.strand_updAt]
    exact retireHead_keeps hviq
  · rw [convoyRetire_of_not_headDone hviq hdone, takePending_of_undecided hviq hundecided]
  · intro hviq hseq hstop heddy hscalar hrecs _ hrunning hwait hwaiting hstate hpost
    obtain ⟨t, hexec, hmem, hstrand⟩ :=
      convoyRetire_of_pendStop hviq hseq hstop heddy hscalar hrecs hrunning hwait hwaiting hstate hpost
    refine ⟨t, hexec, hmem, ?_⟩
    rw [hstrand]
    exact ⟨rfl, rfl, rfl, rfl, fun _ => rfl, _, rfl, rfl, rfl, rfl⟩
  · intro sd b tok e ix hst hwait hentry hphase
    refine ⟨_, conditionClears_of_phase hwait hentry hst hphase, onlyStrand_updAt s src _, ?_⟩
    rw [State.strand_updAt]
    exact phaseTaken_runs sd e.phase _
  · intro a q hst hwait hgroup hdue hover hopen hlost hssq hstrip hflying
    obtain ⟨honly, hclusters, l, hstrand⟩ := arrivalDue_of_quiet (a := a) hst hopen hlost hssq hstrip hflying
    refine ⟨s.arrivalDue src a, ?_, honly, ?_⟩
    · show execConditionClears src s = _
      simp [execConditionClears, hover, hst, hwait, hgroup, hdue]
    · rw [hstrand]
      exact ⟨hst, rfl, rfl, rfl, hclusters⟩
  · simp [State.waitOver, hwait]
  · simp [State.waitOver, hwait]
  · intro htop hholds hturn husable hc
    obtain ⟨⟨hother, hstrands, hcores⟩, hstrand⟩ := issueClock_of_holder htop hholds hturn husable hc
    exact ⟨_, rfl, hother, hstrands, hcores, hstrand⟩
  · intro htop hholds hnext husable hcredit hc
    obtain ⟨⟨hother, hstrands, hcores⟩, hturn, hstrand⟩ := issueClock_of_passed htop hholds hnext husable hcredit hc
    exact ⟨_, rfl, hother, hstrands, hcores, hturn, hstrand⟩

end Sys2Proof
end

section
/-! PROOFS. What power-on leaves (R357 to R362). -/

namespace Sys2Proof
open Machine

/-- With nothing cached, counted or written, every part of the invariant holds of an empty table. -/
theorem Claims.resetMeetsTheInvariant : Claims.ResetMeetsTheInvariant := by
  refine ⟨State.reset_mem_wf, fun _ => ⟨?tlb, fun _ => ?l1Tlb⟩, fun _ => Memory.wf_nil, fun _ _ h => ?counted, fun _ h => ?l1, fun _ _ h => ?msc⟩
  case tlb => exact List.forall_mem_nil _
  case l1Tlb => exact List.forall_mem_nil _
  case counted => exact absurd h (by simp [State.reset, Tbl.find])
  case l1 => exact absurd h List.not_mem_nil
  case msc => exact absurd h (by simp [State.reset, Tbl.find])

/-- No unit has been written: each is at the value that its record gives it at power-on. -/
theorem Claims.powerOnState : Claims.PowerOnState :=
  ⟨fun _ => rfl, fun _ => rfl, fun _ => rfl, fun _ => ⟨rfl, rfl, rfl⟩, fun _ => ⟨rfl, rfl⟩, fun _ _ => rfl, rfl, rfl, rfl⟩

/-- Settles O60: after power-on nothing is cached, counted or written, and every unit is at its power-on value. -/
theorem resetState : Obligations.ResetState := ⟨Claims.resetMeetsTheInvariant, Claims.powerOnState⟩

end Sys2Proof
end

section
/-! PROOFS. CSR accesses (R80, R82 to R84). -/

namespace Sys2Proof
namespace Machine

/-! ## The CSRs that a strand keeps for itself -/

/-- The CSRs that a strand keeps for itself and a program writes whole (R82). -/
def Strand.ownCsr (t : Strand) (n : Nat) : Option Word :=
  if 0x008 ≤ n ∧ n ≤ 0x00E then some (t.vec.evixOf (n - 8))
  else if 0x100 ≤ n ∧ n ≤ 0x107 then some (t.csr.watch.getD (n - 0x100) 0)
  else match n with
    | 0x003 => some (t.vec.fstat.zeroExtend 64)
    | 0x004 => some t.csr.fctl
    | 0x005 => some t.csr.estart
    | 0x010 => some t.csr.indmask
    | 0x012 => some t.csr.qcfg
    | 0x013 => some t.csr.qbase
    | 0x014 => some t.csr.rfdesc
    | 0x015 => some t.csr.rngseed
    | 0x044 => some t.csr.tlbase
    | 0x047 => some (t.csr.rchk.zeroExtend 64)
    | 0x080 => some t.csr.mxcfg
    | 0x081 => some t.csr.mxzpa
    | 0x108 => some t.csr.watchctl
    | 0x10A => some t.csr.samplectl
    | 0x10B => some t.csr.tracectl
    | _ => none

theorem ownCsr_evix (t : Strand) {n : Nat} (hn : 0x008 ≤ n ∧ n ≤ 0x00E) : t.ownCsr n = some (t.vec.evixOf (n - 8)) := if_pos hn

theorem ownCsr_watch (t : Strand) {n : Nat} (hn : 0x100 ≤ n ∧ n ≤ 0x107) : t.ownCsr n = some (t.csr.watch.getD (n - 0x100) 0) :=
  (if_neg (by omega)).trans (if_pos hn)

/-- Of the strand `t`, `u` differs at most in its own CSR `n` and in what counts samples. -/
structure OnlyOwnCsr (n : Nat) (t u : Strand) : Prop where
  own : ∀ m, m ≠ n → u.ownCsr m = t.ownCsr m
  csr : u.csr.vl = t.csr.vl ∧ u.csr.vtype = t.csr.vtype ∧ u.csr.vlcap = t.csr.vlcap ∧ u.csr.mxprog = t.csr.mxprog ∧
    u.csr.donemask = t.csr.donemask
  vec : { u.vec with fstat := t.vec.fstat, evix := t.vec.evix } = t.vec
  rest : { u with csr := t.csr, vec := t.vec, sampleCount := t.sampleCount } = t

theorem onlyOwnCsr_evix (t : Strand) (n : Nat) (w : Word) (hn : 0x008 ≤ n ∧ n ≤ 0x00E) :
    OnlyOwnCsr n t { t with vec := { t.vec with evix := t.vec.evix.set (n - 8) w } } := by
  refine ⟨fun m hm => ?_, ⟨rfl, rfl, rfl, rfl, rfl⟩, rfl, rfl⟩
  unfold Strand.ownCsr
  split
  · rw [VecState.evixOf, Tbl.getD_set_ne _ _ _ _ _ (by omega)]; rfl
  · rfl

theorem onlyOwnCsr_watch (t : Strand) (n : Nat) (w : Word) (hn : 0x100 ≤ n ∧ n ≤ 0x107) :
    OnlyOwnCsr n t { t with csr := { t.csr with watch := t.csr.watch.set (n - 0x100) w } } := by
  refine ⟨fun m hm => ?_, ⟨rfl, rfl, rfl, rfl, rfl⟩, rfl, rfl⟩
  unfold Strand.ownCsr
  split
  · rfl
  · split
    · rw [Tbl.getD_set_ne _ _ _ _ _ (by omega)]
    · rfl

/-- The CSRs with a number of their own that a strand keeps for itself. -/
def ownCsrs : List Nat := [0x003, 0x004, 0x005, 0x010, 0x012, 0x013, 0x014, 0x015, 0x044, 0x047, 0x080, 0x081, 0x108, 0x10A, 0x10B]

/-- A word that has only bits below `k` is what its `k` low bits stand for. -/
theorem zeroExtend_truncate_of_masked {k : Nat} {w m : Word} (hm : m.toNat = 2 ^ k - 1) (h : w &&& m = w) :
    (w.truncate k).zeroExtend 64 = w := by
  have hlt : w.toNat % 2 ^ k = w.toNat := by
    rw [← Nat.and_two_pow_sub_one_eq_mod, ← hm, ← BitVec.toNat_and, h]
  apply BitVec.eq_of_toNat_eq
  simp [hlt, w.isLt]

/-- A write of a CSR with a number of its own that a strand keeps for itself. -/
theorem csrWrite_ownCsrs {n : Nat} (hn : n ∈ ownCsrs) (s : State) (w : Word) :
    ∃ u, s.csrWrite n w = s.setStrand s.cur.src u ∧ OnlyOwnCsr n s.me u ∧ (w &&& csrMask n = w → u.ownCsr n = some w) := by
  simp only [ownCsrs, List.mem_cons, List.not_mem_nil, or_false] at hn
  rcases hn with rfl | rfl | rfl | rfl | rfl | rfl | rfl | rfl | rfl | rfl | rfl | rfl | rfl | rfl | rfl
  all_goals
    refine ⟨_, rfl, ⟨fun m hm => ?_, ⟨rfl, rfl, rfl, rfl, rfl⟩, rfl, rfl⟩, fun hw => ?_⟩
    · unfold Strand.ownCsr
      split
      · rfl
      · split
        · rfl
        · split <;> (try contradiction) <;> rfl
  any_goals rfl
  · exact congrArg some (zeroExtend_truncate_of_masked rfl hw)
  · exact congrArg some (zeroExtend_truncate_of_masked rfl hw)

/-- A write of an event index. -/
theorem csrWrite_evix {n : Nat} (hn : 0x008 ≤ n ∧ n ≤ 0x00E) (s : State) (w : Word) :
    ∃ u, s.csrWrite n w = s.setStrand s.cur.src u ∧ OnlyOwnCsr n s.me u ∧ u.ownCsr n = some w := by
  refine ⟨_, ?_, onlyOwnCsr_evix s.me n w hn, ?_⟩
  · obtain ⟨hlo, hhi⟩ := hn
    interval_cases n <;> rfl
  · rw [ownCsr_evix _ hn, VecState.evixOf, Tbl.getD_set_self]

/-- A write of a watch register. -/
theorem csrWrite_watch {n : Nat} (hn : 0x100 ≤ n ∧ n ≤ 0x107) (s : State) (w : Word) :
    ∃ u, s.csrWrite n w = s.setStrand s.cur.src u ∧ OnlyOwnCsr n s.me u ∧ u.ownCsr n = some w := by
  refine ⟨_, ?_, onlyOwnCsr_watch s.me n w hn, ?_⟩
  · obtain ⟨hlo, hhi⟩ := hn
    interval_cases n <;> rfl
  · rw [ownCsr_watch _ hn, Tbl.getD_set_self]

/-! ## What a read of a CSR rests on -/

/-- Every CSR but `n` reads in `t` as in `s`, for what it rests on does. -/
structure SameCsrsBut (n : Nat) (s t : State) : Prop where
  src : t.cur.src = s.cur.src
  own : ∀ m, m ≠ n → t.me.ownCsr m = s.me.ownCsr m
  csr : t.me.csr.vl = s.me.csr.vl ∧ t.me.csr.vtype = s.me.csr.vtype ∧ t.me.csr.vlcap = s.me.csr.vlcap ∧
    t.me.csr.mxprog = s.me.csr.mxprog ∧ t.me.csr.donemask = s.me.csr.donemask
  bind : t.me.bind = s.me.bind
  stripst : t.me.stripst = s.me.stripst
  core : t.core (coreOf s.cur.src) = s.core (coreOf s.cur.src)
  vlb : t.vlb s.cur.src = s.vlb s.cur.src
  ptRoot : n ≠ 0x043 → (t.context s.me.bind.ctx).ptRoot = (s.context s.me.bind.ctx).ptRoot
  frqBase : n ≠ 0x045 → (t.context s.me.bind.ctx).frqBase = (s.context s.me.bind.ctx).frqBase
  gtc : (t.die (dieOf s.cur.src)).gtc = (s.die (dieOf s.cur.src)).gtc
  trkcfg : (t.die (dieOf s.cur.src)).trkcfg = (s.die (dieOf s.cur.src)).trkcfg
  ntqbase : n ≠ 0x0C1 → (t.die (dieOf s.cur.src)).ntqbase = (s.die (dieOf s.cur.src)).ntqbase

/-- A CSR that a strand keeps for itself reads as it is kept. -/
theorem csrRead_of_ownCsr {s : State} {n : Nat} {w : Word} (h : s.me.ownCsr n = some w) : s.csrRead n = w := by
  unfold Strand.ownCsr at h
  split at h
  case isTrue hn =>
    obtain ⟨hlo, hhi⟩ := hn
    interval_cases n <;> exact Option.some.inj h
  case isFalse =>
    split at h
    case isTrue hn =>
      obtain ⟨hlo, hhi⟩ := hn
      interval_cases n <;> exact Option.some.inj h
    case isFalse =>
      split at h
      rotate_right
      · contradiction
      all_goals exact Option.some.inj h

theorem ranges_of_ownCsr_none {t : Strand} {n : Nat} (h : t.ownCsr n = none) :
    ¬(0x008 ≤ n ∧ n ≤ 0x00E) ∧ ¬(0x100 ≤ n ∧ n ≤ 0x107) := by
  unfold Strand.ownCsr at h
  split at h
  · contradiction
  next hevix =>
    split at h
    · contradiction
    next hwatch => exact ⟨hevix, hwatch⟩

theorem SameCsrsBut.csrRead {n m : Nat} {s t : State} (h : SameCsrsBut n s t) (hm : m ≠ n) : t.csrRead m = s.csrRead m := by
  obtain ⟨src, own, ⟨vl, vtype, vlcap, mxprog, donemask⟩, bind, stripst, core, vlb, ptRoot, frqBase, gtc, trkcfg, ntqbase⟩ := h
  cases ho : s.me.ownCsr m with
  | some w => rw [csrRead_of_ownCsr ho, csrRead_of_ownCsr ((own m hm).trans ho)]
  | none =>
    obtain ⟨hevix, hwatch⟩ := ranges_of_ownCsr_none ho
    have hn := hm.symm
    unfold State.csrRead
    split <;> dsimp only <;> (try contradiction) <;>
      simp only [src, vl, vtype, vlcap, mxprog, donemask, bind, stripst, core, vlb, gtc, trkcfg, State.gtcOf, hevix, hwatch,
        if_false, ptRoot, frqBase, ntqbase, hn, ne_eq, not_false_eq_true]

/-! ## Writes of the CSRs that are written whole -/

/-- The CSRs that are written whole are a strand's own, and three that a context and a die have. -/
theorem plainCsrs_cases : ∀ n ∈ Claims.plainCsrs, n ∈ ownCsrs ∨ (0x008 ≤ n ∧ n ≤ 0x00E) ∨ (0x100 ≤ n ∧ n ≤ 0x107) ∨
    n = 0x043 ∨ n = 0x045 ∨ n = 0x0C1 := by decide

theorem plainCsrs_writable : ∀ n ∈ Claims.plainCsrs, csrReadOnly n = false ∧ n ≠ 0x042 := by decide

/-- Only CSR `n`, and what belongs to it, changed. -/
structure OnlyCsr (n : Nat) (s t : State) : Prop where
  same : SameCsrsBut n s t
  strand : ∀ j, j ≠ s.cur.src → t.strand j = s.strand j
  mem : t.mem = s.mem
  vec : { t.me.vec with fstat := s.me.vec.fstat, evix := s.me.vec.evix } = s.me.vec
  me : { t.me with csr := s.me.csr, vec := s.me.vec, sampleCount := s.me.sampleCount } = s.me

theorem OnlyOwnCsr.onlyCsr {n : Nat} {s : State} {u : Strand} (h : OnlyOwnCsr n s.me u) : OnlyCsr n s (s.setStrand s.cur.src u) := by
  obtain ⟨own, csr, vec, rest⟩ := h
  have hme : (s.setStrand s.cur.src u).me = u := s.me_setStrand u
  have hbind : u.bind = s.me.bind := (congrArg Strand.bind rest :)
  obtain ⟨hvl, hvtype, hvlcap, hmxprog, hdonemask⟩ := csr
  refine ⟨⟨rfl, ?own, ?csr, ?bind, ?stripst, rfl, ?vlb, fun _ => rfl, fun _ => rfl, rfl, rfl, fun _ => rfl⟩,
    fun j hj => s.strand_setStrand_ne _ u j hj, rfl, ?vec, ?me⟩
  case own => rwa [hme]
  case csr => rw [hme]; exact ⟨hvl, hvtype, hvlcap, hmxprog, hdonemask⟩
  case bind => rwa [hme]
  case stripst => rw [hme]; exact (congrArg Strand.stripst rest :)
  case vlb =>
    have hstrand : (s.setStrand s.cur.src u).strand s.cur.src = u := hme
    have hs : s.strand s.cur.src = s.me := rfl
    simp only [State.vlb, hstrand, hs, hvlcap, hbind, State.setStrand_core, State.setStrand_context]
  case vec => rwa [hme]
  case me => rwa [hme]

theorem vlb_congr {s t : State} {src : Nat} (hstrand : t.strand src = s.strand src) (hcores : t.cores = s.cores)
    (hvlb : (t.context (s.strand src).bind.ctx).vlb = (s.context (s.strand src).bind.ctx).vlb) : t.vlb src = s.vlb src := by
  simp only [State.vlb, hstrand, hvlb, State.core, hcores]

/-- A write of PTROOT changes it in the context's descriptor, and drops the context's translations (R83). -/
theorem onlyCsr_ptRoot (s : State) (w : Word) :
    OnlyCsr 0x043 s (s.csrWrite 0x043 w) ∧ (s.csrWrite 0x043 w).csrRead 0x043 = w := by
  have hctx : (s.csrWrite 0x043 w).context s.me.bind.ctx = { s.context s.me.bind.ctx with ptRoot := w } := Tbl.getD_set_self _ _ _ _
  have hdie : (s.csrWrite 0x043 w).die (dieOf s.cur.src) = (s.die (dieOf s.cur.src)).dropTlb s.me.bind.ctx none := State.die_dropTlb _ _ _ _
  refine ⟨⟨⟨rfl, fun _ _ => rfl, ⟨rfl, rfl, rfl, rfl, rfl⟩, rfl, rfl, rfl, vlb_congr rfl rfl ?_, fun h => absurd rfl h, fun _ => ?_, ?_, ?_,
    fun _ => ?_⟩, fun _ _ => rfl, rfl, rfl, rfl⟩, (congrArg ContextDesc.ptRoot hctx :)⟩
  · exact (congrArg ContextDesc.vlb hctx :)
  · exact (congrArg ContextDesc.frqBase hctx :)
  · exact (congrArg Die.gtc hdie :)
  · exact (congrArg Die.trkcfg hdie :)
  · exact (congrArg Die.ntqbase hdie :)

/-- A write of FRQBASE changes it in the context's descriptor. -/
theorem onlyCsr_frqBase (s : State) (w : Word) :
    OnlyCsr 0x045 s (s.csrWrite 0x045 w) ∧ (s.csrWrite 0x045 w).csrRead 0x045 = w := by
  have hctx : (s.csrWrite 0x045 w).context s.me.bind.ctx = { s.context s.me.bind.ctx with frqBase := w } := Tbl.getD_set_self _ _ _ _
  refine ⟨⟨⟨rfl, fun _ _ => rfl, ⟨rfl, rfl, rfl, rfl, rfl⟩, rfl, rfl, rfl, vlb_congr rfl rfl ?_, fun _ => ?_, fun h => absurd rfl h, rfl, rfl,
    fun _ => rfl⟩, fun _ _ => rfl, rfl, rfl, rfl⟩, (congrArg ContextDesc.frqBase hctx :)⟩
  · exact (congrArg ContextDesc.vlb hctx :)
  · exact (congrArg ContextDesc.ptRoot hctx :)

/-- A write of NTQBASE changes it in the strand's die. -/
theorem onlyCsr_ntqbase (s : State) (w : Word) :
    OnlyCsr 0x0C1 s (s.csrWrite 0x0C1 w) ∧ (s.csrWrite 0x0C1 w).csrRead 0x0C1 = w := by
  have hdie : (s.csrWrite 0x0C1 w).die (dieOf s.cur.src) = { s.die (dieOf s.cur.src) with ntqbase := w } := Tbl.getD_set_self _ _ _ _
  exact ⟨⟨⟨rfl, fun _ _ => rfl, ⟨rfl, rfl, rfl, rfl, rfl⟩, rfl, rfl, rfl, rfl, fun _ => rfl, fun _ => rfl, (congrArg Die.gtc hdie :),
    (congrArg Die.trkcfg hdie :), fun h => absurd rfl h⟩, fun _ _ => rfl, rfl, rfl, rfl⟩, (congrArg Die.ntqbase hdie :)⟩

/-- A CSR that is written whole takes the word written, and nothing else changes. -/
theorem onlyCsr_csrWrite {n : Nat} (hn : n ∈ Claims.plainCsrs) (s : State) (w : Word) :
    OnlyCsr n s (s.csrWrite n w) ∧ (w &&& csrMask n = w → (s.csrWrite n w).csrRead n = w) := by
  have hown : ∀ u, OnlyOwnCsr n s.me u → s.csrWrite n w = s.setStrand s.cur.src u → (w &&& csrMask n = w → u.ownCsr n = some w) →
      OnlyCsr n s (s.csrWrite n w) ∧ (w &&& csrMask n = w → (s.csrWrite n w).csrRead n = w) := fun u honly heq hval => by
    rw [heq]
    exact ⟨honly.onlyCsr, fun hw => csrRead_of_ownCsr (by rw [State.me_setStrand]; exact hval hw)⟩
  rcases plainCsrs_cases n hn with h | h | h | rfl | rfl | rfl
  · obtain ⟨u, heq, honly, hval⟩ := csrWrite_ownCsrs h s w
    exact hown u honly heq hval
  · obtain ⟨u, heq, honly, hval⟩ := csrWrite_evix h s w
    exact hown u honly heq fun _ => hval
  · obtain ⟨u, heq, honly, hval⟩ := csrWrite_watch h s w
    exact hown u honly heq fun _ => hval
  · exact (onlyCsr_ptRoot s w).imp_right fun hread _ => hread
  · exact (onlyCsr_frqBase s w).imp_right fun hread _ => hread
  · exact (onlyCsr_ntqbase s w).imp_right fun hread _ => hread

/-! ## Completing -/

theorem ownCsr_congr {t u : Strand} (hvec : u.vec = t.vec) (hcsr : u.csr = t.csr) (n : Nat) : u.ownCsr n = t.ownCsr n := by
  unfold Strand.ownCsr
  rw [hvec, hcsr]

theorem stripst_setReg (t : Strand) (n : Nat) (w : Word) : (t.setReg n w).stripst = t.stripst := by
  unfold Strand.setReg
  split <;> rfl

/-- Writing sd and going on changes no CSR. -/
theorem csrRead_wrNext (s : State) (sd : BitVec 5) (w : Word) (m : Nat) : (s.wrNext sd w).csrRead m = s.csrRead m := by
  have hme := s.me_wrNext sd w
  have hcsr : (s.wrNext sd w).me.csr = s.me.csr := by simp
  have hbind : (s.wrNext sd w).me.bind = s.me.bind := by simp
  have hstripst : (s.wrNext sd w).me.stripst = s.me.stripst := by rw [hme]; exact stripst_setReg _ _ _
  have hvlb : (s.wrNext sd w).vlb s.cur.src = s.vlb s.cur.src := by
    have hstrand : (s.wrNext sd w).strand s.cur.src = (s.wrNext sd w).me := rfl
    have hs : s.strand s.cur.src = s.me := rfl
    simp only [State.vlb, hstrand, hs, hcsr, hbind]
    rfl
  have hsame : SameCsrsBut (m + 1) s (s.wrNext sd w) :=
    ⟨rfl, fun k _ => ownCsr_congr (by simp) hcsr k, by rw [hcsr]; exact ⟨rfl, rfl, rfl, rfl, rfl⟩, hbind, hstripst, rfl, hvlb, fun _ => rfl,
      fun _ => rfl, rfl, rfl, fun _ => rfl⟩
  exact hsame.csrRead (Nat.ne_of_lt (Nat.lt_succ_self m))

/-- A scalar instruction that writes sd and goes on changes nothing else. -/
theorem scalarStep_wrNext (s : State) (sd : BitVec 5) (w : Word) : Claims.ScalarStep s (s.wrNext sd w) sd (s.me.pc + 4) := by
  have hme := s.me_wrNext sd w
  refine ⟨s.wrNext_only sd w, fun _ => rfl, ?scalars, ⟨fun n hn => ?regs, State.rd_zero _⟩, ?runs⟩
  case scalars =>
    show { (s.wrNext sd w).me with s := s.me.s, pc := s.me.pc, st := s.me.st, wait := s.me.wait, scalarExempt := s.me.scalarExempt } = s.me
    rw [hme]
    unfold Strand.setReg
    split <;> rfl
  case regs =>
    rw [State.rd_wrNext, if_neg hn]
    by_cases h0 : n = 0
    · rw [if_pos h0, h0, State.rd_zero]
    · rw [if_neg h0]
  case runs => simp [Claims.RunsAt]

/-- An instruction that writes the value `w` to sd and goes on. -/
theorem writes_of_exec {i : Instr} {s : State} {sd : BitVec 5} {w : Word} (h : exec i s = .next (s.wrNext sd w)) :
    Claims.Writes i s sd w.toNat :=
  ⟨_, h, scalarStep_wrNext s sd w, fun hsd => by rw [State.rd_wrNext, if_neg hsd, if_pos rfl]⟩

theorem waits_of_exec {i : Instr} {s : State} {r : Wait} (h : exec i s = .next (s.waitFor r)) : Claims.Waits i s :=
  ⟨_, h, s.waitFor_only r, by simp, by simp, by simp⟩

/-- After a write of CSR `n`, a strand that goes on has changed that CSR, sd and its PC. -/
theorem OnlyCsr.csrStep {n : Nat} {s t : State} (h : OnlyCsr n s t) (sd : BitVec 5) (w : Word) :
    Claims.CsrStep s (t.wrNext sd w) n sd ∧ (sd ≠ 0 → (t.wrNext sd w).rd sd = w) := by
  obtain ⟨same, strand, mem, vec, me⟩ := h
  have hsrc := same.src
  have hregs : ∀ r, t.rd r = s.rd r := fun r => (congrArg (fun u : Strand => u.reg r.toNat) me :)
  have hpc : t.me.pc = s.me.pc := (congrArg Strand.pc me :)
  have hviq : t.me.viq = s.me.viq := (congrArg Strand.viq me :)
  obtain ⟨⟨-, hothers⟩, -, -, ⟨hrd, hzero⟩, hruns⟩ := scalarStep_wrNext t sd w
  refine ⟨⟨fun j hj => (hothers j (hsrc ▸ hj)).trans (strand j hj), fun a => (congrArg (Memory.read · a) mem :),
    ⟨fun r hr => (hrd r hr).trans (hregs r), hzero⟩, hpc ▸ hruns, ?_, ?_, fun m hm => (csrRead_wrNext t sd w m).trans (same.csrRead hm)⟩,
    fun hsd => by rw [State.rd_wrNext, if_neg hsd, if_pos rfl]⟩
  · rw [State.me_wrNext, Strand.advance_vec, Strand.setReg_vec]; exact vec
  · rw [State.me_wrNext, Strand.advance_viq, Strand.setReg_viq]; exact hviq

/-! ## The four CSR instructions (R84) -/

/-- The access needs no privilege that the strand has not got. -/
theorem privileged_of_allowed {s : State} {n : Nat} (h : csrPriv n = true → s.me.bind.privileged = true) :
    (!s.me.bind.privileged && csrPriv n) = false := by
  cases hn : csrPriv n with
  | false => exact Bool.and_false _
  | true => simp [h hn]

/-- A read that the strand may make, and that nothing keeps waiting. -/
theorem csrAccess_read {s : State} {csr : BitVec 12} (i : Instr) (sd : BitVec 5)
    (hpriv : csrPriv csr.toNat = true → s.me.bind.privileged = true) :
    (s.csrWait csr.toNat false = .none → s.csrAccess i sd csr none = s.wrNext sd (s.csrRead csr.toNat)) ∧
    (s.csrWait csr.toNat false ≠ .none → s.csrAccess i sd csr none = s.waitFor (s.csrWait csr.toNat false)) := by
  simp only [State.csrAccess, Option.isSome_none, Bool.false_and, Bool.or_false, privileged_of_allowed hpriv, Bool.false_eq_true, if_false]
  exact ⟨fun hwait => by rw [hwait], fun hwait => by split <;> [contradiction; rfl]⟩

/-- A write, of a CSR that is written whole, that the strand may make and that nothing keeps waiting. -/
theorem csrAccess_write {s : State} {csr : BitVec 12} (i : Instr) (sd : BitVec 5) (g : Word → Word) (hn : csr.toNat ∈ Claims.plainCsrs)
    (hpriv : csrPriv csr.toNat = true → s.me.bind.privileged = true) (hwait : s.csrWait csr.toNat true = .none) :
    s.csrAccess i sd csr (some g) =
      (s.csrWrite csr.toNat (g (s.csrRead csr.toNat) &&& csrMask csr.toNat)).wrNext sd (s.csrRead csr.toNat) := by
  obtain ⟨hwritable, hvlcap⟩ := plainCsrs_writable _ hn
  simp only [State.csrAccess, Option.isSome_some, Bool.true_and, hwritable, beq_eq_false_iff_ne.mpr hvlcap, Bool.or_false,
    privileged_of_allowed hpriv, Bool.false_and, Bool.false_eq_true, if_false, hwait]

theorem csrWrites_of_access {s : State} {i : Instr} {csr : BitVec 12} {sd : BitVec 5} (g : Word → Word)
    (hexec : exec i s = .next (s.csrAccess i sd csr (some g))) (hn : csr.toNat ∈ Claims.plainCsrs)
    (hpriv : csrPriv csr.toNat = true → s.me.bind.privileged = true) (hwait : s.csrWait csr.toNat true = .none) :
    Claims.CsrWrites i s csr.toNat sd (g (s.csrRead csr.toNat)) := by
  obtain ⟨honly, hread⟩ := onlyCsr_csrWrite hn s (g (s.csrRead csr.toNat) &&& csrMask csr.toNat)
  obtain ⟨hstep, hsd⟩ := honly.csrStep sd (s.csrRead csr.toNat)
  refine ⟨_, hexec.trans (congrArg _ (csrAccess_write i sd g hn hpriv hwait)), hstep, hsd, ?_⟩
  rw [csrRead_wrNext, hread (by rw [BitVec.and_assoc, BitVec.and_self])]

theorem exec_csrrw (x : CsrOp) (s : State) : exec (.csrrw x) s = .next (s.csrAccess (.csrrw x) x.sd x.csr (some fun _ => s.rd x.sa)) := rfl

theorem exec_csrrs (x : CsrOp) (s : State) :
    exec (.csrrs x) s = .next (s.csrAccess (.csrrs x) x.sd x.csr (if x.sa = 0 then none else some fun old => old ||| s.rd x.sa)) := rfl

theorem exec_csrrc (x : CsrOp) (s : State) :
    exec (.csrrc x) s = .next (s.csrAccess (.csrrc x) x.sd x.csr (if x.sa = 0 then none else some fun old => old &&& ~~~ s.rd x.sa)) := rfl

theorem exec_csrr (x : CsrROp) (s : State) : exec (.csrr x) s = .next (s.csrAccess (.csrr x) x.sd x.csr none) := rfl

/-! ## VLCAP (R80) -/

/-- The largest power of two not above a number. -/
theorem pow2Below_spec (k n : Nat) (hn : 1 ≤ n) :
    ∃ j, j ≤ k ∧ pow2Below k n = 2 ^ j ∧ 2 ^ j ≤ n ∧ (j = k ∨ n < 2 ^ (j + 1)) := by
  induction k with
  | zero => exact ⟨0, le_rfl, if_pos hn, hn, .inl rfl⟩
  | succ k ih =>
    rw [pow2Below]
    split
    · next hle => exact ⟨k + 1, le_rfl, rfl, hle, .inl rfl⟩
    · next hlt =>
      obtain ⟨j, hj, heq, hle, hnext⟩ := ih
      refine ⟨j, by omega, heq, hle, .inr ?_⟩
      rcases hnext with rfl | hnext
      · exact not_le.mp hlt
      · exact hnext

/-- What a write of VLCAP stores: the largest power of two not above the value, clamped. -/
theorem clampVlcap_spec (w : Nat) (hw : w < 2 ^ 64) :
    ∃ k, clampVlcap w = 2 ^ k ∧ 9 ≤ k ∧ k ≤ 13 ∧ (k = 9 ∨ 2 ^ k ≤ w) ∧ (k = 13 ∨ w < 2 ^ (k + 1)) := by
  rcases Nat.eq_zero_or_pos w with rfl | hpos
  · exact ⟨9, by decide, by decide, by decide, .inl rfl, .inr (by decide)⟩
  obtain ⟨j, hj, heq, hle, hnext⟩ := pow2Below_spec 63 w hpos
  have hlt : w < 2 ^ (j + 1) := hnext.elim (fun h => h ▸ hw) id
  have hmono : ∀ a b : Nat, a ≤ b → 2 ^ a ≤ 2 ^ b := fun a b h => Nat.pow_le_pow_right (by decide) h
  rw [clampVlcap, heq]
  rcases Nat.lt_or_ge j 10 with hsmall | hbig
  · have := hmono j 9 (by omega)
    have := hmono (j + 1) 10 (by omega)
    exact ⟨9, by omega, le_rfl, by decide, .inl rfl, .inr (by omega)⟩
  rcases Nat.lt_or_ge 12 j with hlarge | hmid
  · have := hmono 13 j hlarge
    exact ⟨13, by omega, by decide, le_rfl, .inr (by omega), .inl rfl⟩
  · have := hmono 9 j (by omega)
    have := hmono j 13 (by omega)
    exact ⟨j, by omega, by omega, by omega, .inr hle, .inr hlt⟩

/-- Where nothing is queued and the engines are quiet, a VLCAP write waits for nothing (R83). -/
theorem csrWait_vlcap {s : State} (hviq : s.me.viq = []) (hengines : s.me.enginesDone true true true = true) :
    s.csrWait 0x042 true = .none := by
  simp [State.csrWait, csrDrain, csrWatch, csrEngine, hviq, hengines]

/-- A VLCAP write of a privileged strand outside DETMODE that nothing keeps waiting. -/
theorem csrAccess_vlcap {s : State} (i : Instr) (sd : BitVec 5) (g : Word → Word) (hpriv : s.me.bind.privileged = true)
    (hdet : s.me.bind.det = false) (hwait : s.csrWait 0x042 true = .none) :
    s.csrAccess i sd 0x042 (some g) = (s.writeVlcap (g (s.csrRead 0x042))).wrNext sd (s.csrRead 0x042) := by
  have hmask : ∀ w : Word, w &&& csrMask 0x042 = w := fun w => BitVec.and_allOnes
  have hwrite : ∀ w, s.csrWrite 0x042 w = s.writeVlcap w := fun _ => rfl
  simp [State.csrAccess, csrReadOnly, hpriv, hdet, hwait, hmask, hwrite]

/-- A VLCAP write stores the clamped value; of the strand it changes no scalar register and not the PC, and it writes no memory. -/
theorem writeVlcap_spec (s : State) (w : Word) :
    (s.writeVlcap w).csrRead 0x042 = BitVec.ofNat 64 (clampVlcap w.toNat) ∧ (∀ r, (s.writeVlcap w).rd r = s.rd r) ∧
      (s.writeVlcap w).mem = s.mem := by
  have hread : ∀ u : State, u.csrRead 0x042 = u.me.csr.vlcap := fun _ => rfl
  rw [hread]
  unfold State.writeVlcap
  dsimp only
  split <;> simp [State.rd, Strand.reg]

end Machine

open Machine

theorem Claims.csrReadModifyWrite : Claims.CsrReadModifyWrite := by
  intro s x n hn hpriv hwait
  refine ⟨csrWrites_of_access (fun _ => s.rd x.sa) (exec_csrrw x s) hn hpriv hwait, fun hsa => ?_, fun hsa => ?_⟩
  · exact csrWrites_of_access (fun old => old ||| s.rd x.sa) ((exec_csrrs x s).trans (by rw [if_neg hsa])) hn hpriv hwait
  · exact csrWrites_of_access (fun old => old &&& ~~~ s.rd x.sa) ((exec_csrrc x s).trans (by rw [if_neg hsa])) hn hpriv hwait

theorem Claims.csrReadsChangeNothing : Claims.CsrReadsChangeNothing := by
  intro s x y n m
  refine ⟨fun hpriv hwait => ?_, fun hpriv hwait => ?_, fun hsa hpriv hwait => ⟨?_, ?_⟩⟩
  · exact writes_of_exec ((exec_csrr x s).trans (congrArg _ ((csrAccess_read _ x.sd hpriv).1 hwait)))
  · exact waits_of_exec ((exec_csrr x s).trans (congrArg _ ((csrAccess_read _ x.sd hpriv).2 hwait)))
  · exact writes_of_exec ((exec_csrrs y s).trans (by rw [if_pos hsa, (csrAccess_read _ y.sd hpriv).1 hwait]))
  · exact writes_of_exec ((exec_csrrc y s).trans (by rw [if_pos hsa, (csrAccess_read _ y.sd hpriv).1 hwait]))

theorem Claims.vlcapWriteIsClampedPowerOfTwo : Claims.VlcapWriteIsClampedPowerOfTwo := by
  intro s x hcsr hpriv hdet hviq hengines
  obtain ⟨k, hclamp, hlo, hhi, hle, hlt⟩ := clampVlcap_spec (s.rd x.sa).toNat (s.rd x.sa).isLt
  obtain ⟨hread, hregs, hmem⟩ := writeVlcap_spec s (s.rd x.sa)
  have hexec := (exec_csrrw x s).trans (congrArg _ (hcsr ▸ csrAccess_vlcap (.csrrw x) x.sd (fun _ => s.rd x.sa) hpriv hdet
    (csrWait_vlcap hviq hengines)))
  obtain ⟨-, -, -, ⟨hrd, hzero⟩, -⟩ := scalarStep_wrNext (s.writeVlcap (s.rd x.sa)) x.sd (s.csrRead 0x042)
  have hstored : clampVlcap (s.rd x.sa).toNat < 2 ^ 64 := hclamp ▸ Nat.pow_lt_pow_right (by decide) (by omega)
  refine ⟨_, k, hexec, ?_, hlo, hhi, hle, hlt, ⟨fun r hr => (hrd r hr).trans (hregs r), hzero⟩, fun hsd => ?_,
    fun a => congrArg (Memory.read · a) hmem⟩
  · rw [csrRead_wrNext, hread, BitVec.toNat_ofNat, Nat.mod_eq_of_lt hstored, hclamp]
  · rw [State.rd_wrNext, if_neg hsd, if_pos rfl]

/-- Settles O39: an access completes as the CSR's own write and the write of sd; VLCAP stores the clamped value. -/
theorem csrAccesses : Obligations.CsrAccesses :=
  ⟨Claims.csrReadModifyWrite, Claims.csrReadsChangeNothing, Claims.vlcapWriteIsClampedPowerOfTwo⟩

end Sys2Proof
end

section
/-! PROOFS. The life of a context (R73 to R75, R118). -/

namespace Sys2Proof
namespace Machine

/-! ## What strands that leave their slots keep -/

/-- The context table and the launches. -/
def State.tables (s : State) : Tbl ContextDesc × List (LaunchKey × Launch) := (s.contexts, s.launches)

theorem tables_foldl {β : Type} {f : State → β → State} (hf : ∀ t x, (f t x).tables = t.tables) (l : List β) (s : State) :
    (l.foldl f s).tables = s.tables := by
  induction l generalizing s with
  | nil => rfl
  | cons x r ih => exact (ih _).trans (hf s x)

theorem tables_foldlWith {α β : Type} {f : State × α → β → State × α} (hf : ∀ p x, (f p x).1.tables = p.1.tables) (l : List β)
    (p : State × α) : (l.foldl f p).1.tables = p.1.tables := by
  induction l generalizing p with
  | nil => rfl
  | cons x r ih => exact (ih _).trans (hf p x)

theorem tables_traffic {s t : State} (h : Traffic s t) : t.tables = s.tables := (congrArg State.tables h.1 :)

@[simp] theorem tables_updAt (s : State) (src : Nat) (f : Strand → Strand) : (s.updAt src f).tables = s.tables := rfl
@[simp] theorem tables_setStrand (s : State) (src : Nat) (t : Strand) : (s.setStrand src t).tables = s.tables := rfl
@[simp] theorem tables_setGroup (s : State) (k : GroupKey) (g : Group) : (s.setGroup k g).tables = s.tables := rfl
@[simp] theorem tables_free (s : State) (src : Nat) : (s.free src).tables = s.tables := rfl
@[simp] theorem tables_disown (s : State) (src : Nat) : (s.disown src).tables = s.tables := rfl
@[simp] theorem tables_toMgmt (s : State) (die : Nat) (r : FRec) (n : Nat) : (s.toMgmt die r n).tables = s.tables := rfl
@[simp] theorem tables_unassignBarriers (s : State) (k : GroupKey) : (s.unassignBarriers k).tables = s.tables := rfl

@[simp] theorem tables_countStores (s : State) (src fa n : Nat) : (s.countStores src fa n).tables = s.tables :=
  tables_traffic (s.countStores_traffic src fa n)

@[simp] theorem tables_performBits (s : State) (src : Nat) (va : Word) (p : Place) (how : How) (m : BitVec 128) (d : BitVec 512) :
    (s.performBits src va p how m d).tables = s.tables := tables_traffic (s.performBits_traffic src va p how m d)

@[simp] theorem tables_performLines (s : State) (src : Nat) (bs : List BufLine) : (s.performLines src bs).1.tables = s.tables :=
  tables_traffic (s.performLines_traffic src bs)

theorem tables_ctxWrite {s t : State} {die ctx : Nat} {va : Word} {bs : List Byte} (h : s.ctxWrite die ctx va bs = .ok t) :
    t.tables = s.tables := by
  obtain ⟨p, rfl⟩ := State.ctxWrite_cases h
  exact tables_traffic ((s.clockTo_traffic die p).trans (State.writePlace_traffic _ p bs))

theorem tables_ctxWriteSpan {die ctx fuel : Nat} {s t : State} {va : Word} {bs : List Byte}
    (h : s.ctxWriteSpan die ctx va bs fuel = .ok t) : t.tables = s.tables := by
  induction fuel generalizing s va bs with
  | zero => cases h; rfl
  | succ k ih =>
    unfold State.ctxWriteSpan at h
    split at h
    · cases h; rfl
    · dsimp only at h
      split at h
      · cases h
      · next hw => exact (ih h).trans (tables_ctxWrite hw)

@[simp] theorem tables_setPoison (s : State) (line : Nat) (on : Bool) : (s.setPoison line on).tables = s.tables := by
  unfold State.setPoison
  split
  · split <;> rfl
  · rfl

@[simp] theorem tables_poisonSlots (s : State) (die ctx : Nat) (va : Word) (l : List Nat) :
    (s.poisonSlots die ctx va l).tables = s.tables := by
  induction l generalizing s with
  | nil => rfl
  | cons x r ih =>
    unfold State.poisonSlots
    split
    · split <;> simp [ih]
    · exact ih s

theorem tables_saveImage {s t : State} {src : Nat} (h : s.saveImage src = .ok t) : t.tables = s.tables := by
  unfold State.saveImage at h
  dsimp only at h
  split at h
  · cases h
  split at h
  · cases h
  split at h
  · cases h
  · next hw =>
    cases h
    split <;> simp [tables_ctxWriteSpan hw]

@[simp] theorem tables_writeCounter (s : State) (src k : Nat) : (s.writeCounter src k).tables = s.tables := by
  unfold State.writeCounter
  dsimp only
  split
  · rfl
  · rw [tables_updAt]
    split
    · next hw => exact tables_ctxWrite hw
    · rfl

@[simp] theorem tables_finishBarrier (s : State) (src : Nat) : (s.finishBarrier src).tables = s.tables := by
  unfold State.finishBarrier
  dsimp only
  split
  · split
    · split <;> rfl
    · rfl
  · rfl

@[simp] theorem tables_parkAll (s : State) (l : List Nat) : (s.parkAll l).tables = s.tables :=
  tables_foldl (fun t src => (tables_updAt _ src _).trans (tables_finishBarrier t src)) l s

@[simp] theorem tables_traceAt (s : State) (die : Nat) (r : TraceRec) : (s.traceAt die r).tables = s.tables :=
  (congrArg State.tables (s.traceAt_only die r).1 :)

@[simp] theorem tables_trace (s : State) (src kind : Nat) (body : List Word) : (s.trace src kind body).tables = s.tables := by
  unfold State.trace
  dsimp only
  split
  · split <;> simp
  · simp

@[simp] theorem tables_traceStop (s : State) (src : Nat) (r : FRec) : (s.traceStop src r).tables = s.tables := by
  unfold State.traceStop
  split <;> simp

@[simp] theorem tables_countAfter (s : State) (src : Nat) (strip : Option Nat) (fa : Nat) (f : Fme) :
    (s.countAfter src strip fa f).tables = s.tables := by
  obtain h | ⟨n, -, -, h⟩ := s.countAfter_cases src strip fa f
  · rw [h]; exact tables_traffic (s.countAccess_traffic _ _ _)
  · rw [h]; rfl

@[simp] theorem tables_countBehind (s : State) (src : Nat) (strip : Option Nat) (fas : List Nat) :
    (s.countBehind src strip fas).tables = s.tables := tables_foldl (fun _ _ => tables_countAfter _ _ _ _ _) fas s

@[simp] theorem tables_storeNow (s : State) (src : Nat) (va : Word) (fa : Nat) (rep : Option Nat) (p : Place) (how : How)
    (m : BitVec 128) (d : BitVec 512) : (s.storeNow src va fa rep p how m d).tables = s.tables := by
  unfold State.storeNow
  dsimp only
  split <;> simp

@[simp] theorem tables_takeQueued (s : State) (src : Nat) (q : QStore) (fails : List StoreFail) :
    (s.takeQueued src q fails).1.tables = s.tables := by
  unfold State.takeQueued
  split
  · rfl
  · dsimp only
    rw [tables_countBehind]
    split <;> simp

@[simp] theorem tables_flushStores (s : State) (src : Nat) : (s.flushStores src).1.tables = s.tables := by
  unfold State.flushStores
  dsimp only
  rw [tables_updAt, tables_performLines]
  exact tables_foldlWith (fun p q => tables_takeQueued p.1 src q p.2) _ _

@[simp] theorem tables_profile (s : State) (src : Nat) (c : Convoy) (p : Sample) (did : Nat → Bool) :
    (s.profile src c p did).tables = s.tables := by
  refine tables_foldl (fun t x => ?_) _ s
  dsimp only
  split
  · rfl
  · exact tables_traceAt _ _ _

@[simp] theorem tables_profileTo (s : State) (src : Nat) (c : Convoy) (k : Nat) (did : Nat → Bool) :
    (s.profileTo src c k did).tables = s.tables := by
  refine tables_foldl (fun t x => ?_) _ s
  split
  · exact tables_profile _ _ _ _ _
  · split <;> simp

@[simp] theorem tables_profileKept (s : State) (src : Nat) (l : List Convoy) : (s.profileKept src l).tables = s.tables := by
  induction l generalizing s with
  | nil => rfl
  | cons c r ih =>
    unfold State.profileKept
    split
    · simp [ih]
    · split <;> simp

@[simp] theorem tables_retireDone (s : State) (src fuel : Nat) : (s.retireDone src fuel).tables = s.tables := by
  induction fuel generalizing s with
  | zero => rfl
  | succ k ih =>
    have hretire : ∀ c, (s.traceRetire src c).tables = s.tables := fun c => by
      unfold State.traceRetire
      dsimp only
      split <;> simp
    unfold State.retireDone
    split
    · rfl
    · split <;> simp [ih, hretire]

/-- Bringing a parked strand's work to memory keeps contexts and launches. -/
@[simp] theorem tables_flush (s : State) (src : Nat) : (s.flush src).1.tables = s.tables := by
  unfold State.flush
  dsimp only
  rw [tables_updAt, tables_profileKept, tables_retireDone, tables_foldl (fun _ _ => tables_writeCounter _ _ _), tables_updAt,
    tables_flushStores]

@[simp] theorem tables_vacate (s : State) (src : Nat) : (s.vacate src).tables = s.tables := by
  unfold State.vacate
  dsimp only
  split <;> simp

@[simp] theorem tables_leave (s : State) (src : Nat) (image : Bool) : (s.leave src image).1.tables = s.tables := by
  have htraced : ∀ l : List FRec, (l.foldl (fun s r => State.traceStop s src r) (s.flush src).1).tables = s.tables := fun l =>
    (tables_foldl (fun _ _ => tables_traceStop _ _ _) l _).trans (tables_flush s src)
  unfold State.leave
  dsimp only
  rw [tables_vacate]
  split
  · split
    · next hw => exact (tables_saveImage hw).trans (htraced _)
    · exact htraced _
  · exact htraced _

/-- Strands that leave their slots keep contexts and launches. -/
@[simp] theorem tables_leaveAll (s : State) (l : List Nat) : (s.leaveAll l).1.tables = s.tables := by
  refine tables_foldlWith (fun p src => ?_) l (s, [])
  unfold State.leaveIf
  split <;> simp

/-! ## The descriptor of a context -/

/-- A context none of whose strands is in a slot has no strand that still has to leave. -/
theorem membersIn_of_noStrands {s : State} {ctx : Nat} (h : Claims.NoStrands s ctx) : s.membersIn ctx = [] := by
  refine List.flatMap_eq_nil_iff.mpr fun p hp => ?_
  obtain ⟨hmem, hctx⟩ := List.mem_filter.mp hp
  exact List.map_eq_nil_iff.mpr (h p hmem (beq_iff_eq.mp hctx))

/-- With no strand to leave nothing happens. -/
theorem letLeave_nil (s : State) : s.letLeave [] = s := rfl

theorem letLeave_of_noStrands {s : State} {ctx : Nat} (h : Claims.NoStrands s ctx) : s.letLeave (s.membersIn ctx) = s := by
  rw [membersIn_of_noStrands h, letLeave_nil]

/-- The image area of a context that is not secure is not zeroed, and holds nothing up (R75). -/
theorem areaHeld_of_open {s : State} {ctx : Nat} (h : (s.context ctx).flags.getLsbD 0 = false) : s.areaHeld ctx = false := by
  simp only [State.areaHeld, h, Bool.false_and]

/-- What the destruction of a context that is not secure leaves (R75). -/
theorem destroyContext_of_open {s : State} {ctx : Nat} (h : (s.context ctx).flags.getLsbD 0 = false) :
    s.destroyContext ctx = (({ s.dropTlb ctx none with waitingRecs := s.waitingRecs.filter (fun e => e.1 != ctx) } : State).dropGroups
      ctx).setContext ctx { s.context ctx with state := 0, vlb := 0 } := by
  simp only [State.destroyContext, h, Bool.false_eq_true, if_false]
  rfl

theorem mem_dropGroups {s : State} {ctx : Nat} {p : GroupKey × Group} (h : p ∈ (s.dropGroups ctx).groups) : p.2.ctx ≠ ctx :=
  bne_iff_ne.mp (List.mem_filter.mp h).2

/-- The destruction of a context that is not secure and has no strands: its descriptor, groups, records and translations (R74, R75). -/
theorem destroyContext_spec {s : State} {ctx : Nat} (h : (s.context ctx).flags.getLsbD 0 = false) :
    let t := s.destroyContext ctx
    (t.context ctx).state = 0 ∧ (t.context ctx).vlb = 0 ∧ Claims.MemSame s t ∧ (∀ j, j ≠ ctx → t.context j = s.context j) ∧
      (∀ p ∈ t.groups, p.2.ctx ≠ ctx) ∧ (∀ r ∈ t.waitingRecs, r.1 ≠ ctx) ∧
      (∀ n, (∀ e ∈ (t.die n).tlb, e.ctx ≠ ctx) ∧ ∀ j, ∀ e ∈ (t.die n).l1Tlb.getD j [], e.ctx ≠ ctx) ∧ t.strands = s.strands := by
  intro t
  have ht : t = _ := destroyContext_of_open h
  have hdie : ∀ n, t.die n = (s.die n).dropTlb ctx none := fun n => by rw [ht]; exact s.die_dropTlb ctx none n
  have hkept : ∀ e : TlbEntry, e.stays ctx none = true → e.ctx ≠ ctx := fun e he => bne_iff_ne.mp he
  have hctx : t.context ctx = { s.context ctx with state := 0, vlb := 0 } := by rw [ht]; exact State.context_setContext _ _ _
  refine ⟨by rw [hctx], by rw [hctx], fun a => by rw [ht]; rfl, fun j hj => ?_, fun p hp => ?_, fun r hr => ?_, fun n => ⟨fun e he => ?_,
    fun j e he => ?_⟩, by rw [ht]; rfl⟩
  · rw [ht]; exact State.context_setContext_ne _ _ _ _ hj
  · rw [ht] at hp; exact mem_dropGroups hp
  · rw [ht] at hr; exact bne_iff_ne.mp (List.mem_filter.mp hr).2
  · rw [hdie] at he; exact hkept e ((Die.mem_dropTlb_tlb ctx none _ e).mp he).2
  · rw [hdie] at he; exact hkept e ((Die.mem_dropTlb_l1Tlb ctx none _ j e).mp he).2

/-! ## A context that fails (R74, R118) -/

/-- What a function on every entry of an association list leaves under a key. -/
theorem look_map_val {κ α β : Type} [DecidableEq κ] (f : α → β) (l : List (κ × α)) (k : κ) :
    look (l.map fun e => (e.1, f e.2)) k = (look l k).map f := by
  induction l with
  | nil => rfl
  | cons e r ih =>
    obtain ⟨j, x⟩ := e
    simp only [List.map_cons, look]
    split
    · rfl
    · exact ih

/-- A launch after a context has failed with no culprit. -/
def Launch.failedWith (ctx : Nat) (l : Launch) : Launch :=
  if l.ctx = ctx then { l with stopped := true, cause := if l.stopped then l.cause else 18 } else l

/-- A context that firmware declares failed is faulted, and its launches are stopped. -/
theorem contextFault_tables (s : State) (ctx : Nat) :
    (s.contextFault ctx none).contexts = s.contexts.set ctx { s.context ctx with state := 4 } ∧
      (s.contextFault ctx none).launches = s.launches.map fun e => (e.1, e.2.failedWith ctx) := by
  obtain ⟨p, hp⟩ : ∃ p, p = (((s.parkAll (s.boundIn ctx)).groups.filter fun e => e.2.ctx == ctx).map
      Prod.fst).foldl State.unassignBarriers (s.parkAll (s.boundIn ctx)) :=
    ⟨_, rfl⟩
  have hparked : p.tables = s.tables := by
    rw [hp]
    exact (tables_foldl tables_unassignBarriers _ _).trans (tables_parkAll _ _)
  have hleft : (s.contextFault ctx none).tables = ({ p with
      launches := p.launches.map fun e => (e.1, e.2.failedWith ctx)
      contexts := p.contexts.set ctx { p.context ctx with state := 4 } } : State).tables := by
    unfold State.contextFault
    dsimp only
    rw [tables_foldl fun t r => tables_toMgmt t r.die r 0, tables_leaveAll, ← hp]
    refine Prod.ext rfl ?_
    exact List.map_congr_left fun e _ => by simp [Launch.failedWith]
  have hcontexts : p.contexts = s.contexts := congrArg Prod.fst hparked
  have hlaunches : p.launches = s.launches := congrArg Prod.snd hparked
  rw [State.context, hcontexts, hlaunches] at hleft
  exact ⟨congrArg Prod.fst hleft, congrArg Prod.snd hleft⟩

end Machine

open Machine

/-- Settles O25: each event on a context leaves its descriptor in the state of R74, or does nothing; a destruction drops what the context
had, and a failure stops its launches. That the discarded queued records leave memory as it is (log 44) is the model's reading. -/
theorem contextLifecycle : Obligations.ContextLifecycle := by
  intro s d ctx k c
  refine ⟨fun hk hfree => ?create, fun h => ?taken, fun hst => ?refused, fun hst hno hopen => ?destroy, fun hst hno => ?clear,
    fun hst => ?uncleared, fun hst => ?fail, fun h2 h3 => ?unfailed⟩
  case create =>
    obtain ⟨hrest, hctx, hothers⟩ := s.setContext_frame k { d with state := 1 }
    exact ⟨_, congrArg Host.Outcome.next (if_pos ⟨hk, hfree⟩), hrest, hctx, hothers⟩
  case taken =>
    refine congrArg Host.Outcome.next (if_neg fun ⟨hk, hfree⟩ => ?_)
    rcases h with h | h
    · exact absurd hk (not_lt.mpr h)
    · exact h hfree
  case refused =>
    exact ⟨_, _, congrArg Host.Outcome.next (if_pos hst), rfl, rfl, rfl⟩
  case destroy =>
    have hne2 : ¬c.state = 2 := fun h => by rcases hst with hst | hst | hst <;> exact absurd (hst.symm.trans h) (by decide)
    have hexec : exec (.contextDestroy ctx) s = .next (s.destroyContext ctx) := by
      show execContextDestroy ctx s = _
      simp only [execContextDestroy]
      rw [if_neg hne2, if_pos hst, letLeave_of_noStrands hno, membersIn_of_noStrands hno, areaHeld_of_open hopen]
      rfl
    exact ⟨_, hexec, destroyContext_spec hopen⟩
  case clear =>
    have hexec : exec (.contextFaultClear ctx) s = .next ((s.dropGroups ctx).setContext ctx { c with state := 1 }) := by
      show execContextFaultClear ctx s = _
      simp only [execContextFaultClear]
      rw [if_pos hst, letLeave_of_noStrands hno, membersIn_of_noStrands hno]
      rfl
    exact ⟨_, hexec, State.context_setContext _ _ _, fun _ => rfl, fun j hj => State.context_setContext_ne _ _ _ _ hj,
      fun p hp => mem_dropGroups hp, rfl⟩
  case uncleared => exact congrArg Host.Outcome.next (if_neg hst)
  case fail =>
    obtain ⟨hcontexts, hlaunches⟩ := contextFault_tables s ctx
    refine ⟨_, congrArg Host.Outcome.next (if_pos hst), ?_, fun l m hl hm hrun => ?_, fun l m hl hm => ?_⟩
    · rw [State.context, hcontexts, Tbl.getD_set_self]
    · refine ⟨m.failedWith ctx, by rw [hlaunches, look_map_val, hl]; rfl, ?_, ?_⟩ <;> simp [Launch.failedWith, hm, hrun]
    · rw [hlaunches, look_map_val, hl]
      simp [Launch.failedWith, hm]
  case unfailed => exact congrArg Host.Outcome.next (if_neg fun h => h.elim h2 h3)

end Sys2Proof
end

section
/-! PROOFS. A queue's front-end: its commands, and its accesses to memory (R78, R87, R91, R92, R205). -/

namespace Sys2Proof
open Machine Claims
namespace Machine

/-! ## Commands of a queue -/

/-- A command that R91 lets start, behind those of its queue that are not complete. -/
theorem startable_of_ready {s : State} {k op : Nat} {pre : List Command} {c : Command} (h : Ready s k op pre c) :
    s.startable k op = some c := by
  obtain ⟨hstate, hcmds, hop, hstarted, hcomplete, hindex, hbar, hfree⟩ := h
  have hwaiting : (s.queue k).waitingCmd = some c := by simp [Queue.waitingCmd, hcmds, hstarted, hcomplete]
  have hleft : (s.queue k).cmds.filter (fun e => e.index != c.index && !e.complete) = pre.filter (fun e => !e.complete) := by
    rw [hcmds, List.filter_append, List.filter_congr (q := fun e => !e.complete) (fun e he => by simp [hindex e he])]
    simp
  have hmay : (s.queue k).mayStart c = true := by
    simp only [Queue.mayStart, hleft, hop]
    split
    · next hgate =>
      rw [hbar (by simpa using hgate)]
      rfl
    · next hgate =>
      obtain ⟨hopen, hlt⟩ : c.bar = false ∧ op < 4 := by simpa using hgate
      obtain ⟨hpass, hroom⟩ := hfree hopen hlt
      have hgating : (pre.filter (fun e => !e.complete)).any (fun e => gating e.op) = false := by
        simpa [gating] using hpass
      by_cases hlimited : op = 1 ∨ op = 2
      · rw [hgating, decide_eq_true (hroom hlimited)]; simp
      · simp only [hgating, not_or] at hlimited ⊢
        simp [hlimited]
  simp [State.startable, hstate, hwaiting, hop, hmay]

/-- Changing a command that has no other of its index before it. -/
theorem updCmd_of_ready {s : State} {k op : Nat} {pre : List Command} {c : Command} (h : Ready s k op pre c) (f : Command → Command) :
    (s.queue k).updCmd c.index f = { s.queue k with cmds := pre ++ [f c] } := by
  obtain ⟨-, hcmds, -, -, -, hindex, -, -⟩ := h
  have hpre : pre.map (fun e => if e.index = c.index then f e else e) = pre := by
    refine (List.map_congr_left fun e he => ?_).trans (List.map_id pre)
    simp [hindex e he]
  simp [Queue.updCmd, hcmds, hpre]

/-- Only a draining queue settles (R93). -/
theorem settle_of_ne {q : Queue} (h : q.desc.state ≠ 4) : q.settle = q := if_neg fun hd => h hd.1

/-- Changing a queue to one that does not drain. -/
theorem queue_updQueue {s : State} {k : Nat} {f : Queue → Queue} (h : (f (s.queue k)).desc.state ≠ 4) :
    (s.updQueue k f).queue k = f (s.queue k) := by simp [State.updQueue, settle_of_ne h]

theorem queue_updQueue_ne (s : State) {k j : Nat} (f : Queue → Queue) (h : j ≠ k) : (s.updQueue k f).queue j = s.queue j :=
  State.queue_setQueue_ne _ _ _ _ h

/-! ## Pages (R204, R206) -/

/-- Addresses of one 64 KiB page have one translation. -/
theorem walk_samePage (s : State) (die root : Nat) {va vb : Nat} (h : va / 65536 = vb / 65536) : s.walk die root va = s.walk die root vb := by
  have h42 : va / 2 ^ 42 = vb / 2 ^ 42 := by omega
  have h29 : va / 2 ^ 29 = vb / 2 ^ 29 := by omega
  have h16 : va / 2 ^ 16 = vb / 2 ^ 16 := by omega
  simp only [State.walk, h, h42, h29, h16]

theorem pageOf_samePage (s : State) (die ctx : Nat) (core : Option Nat) {va vb : Nat} (h : va / 65536 = vb / 65536) :
    s.pageOf die ctx va core = s.pageOf die ctx vb core := by
  simp only [State.pageOf, h, walk_samePage s die _ h]

/-- An access that resolves to a place goes by the frame-map entry it was resolved with. -/
theorem resolveAs_place {s : State} {die fa : Nat} {secure : Bool} {acc : Access} {f : Fme} {x : Xl} {p : Place}
    (h : s.resolveAs die secure acc fa f = .ok x) (hp : x.place = some p) : f.place die (fa % 65536) = some p := by
  unfold State.resolveAs at h
  dsimp only at h
  split at h
  · cases h
  split at h
  · cases h
  split at h
  · cases h
  split at h
  case h_7 =>
    split at h
    · cases h
    split at h
    · cases h
    · cases h
      rename_i hplace _
      exact hplace.trans hp
  all_goals cases h
  all_goals cases hp

/-- The place of a translation is that of the page's frame, at the address's offset in the page. -/
theorem translate_place {s : State} (hs : StateOk s) {die ctx : Nat} {secure : Bool} {acc : Access} {va : Word} {x : Xl} {p : Place}
    (h : s.translate die ctx secure acc va = .ok x) (hp : x.place = some p) :
    bitsN va 48 16 = 0 ∧ ∃ e, s.pageOf die ctx va.toNat = .ok e ∧
      (s.fme die (e.frameAt (va.toNat / 65536) / 65536)).place die (va.toNat % 65536) = some p := by
  unfold State.translate at h
  split at h
  · cases h
  rename_i hrange
  split at h
  · cases h
  rename_i e he
  split at h
  · cases h
  have hpage := State.pageOf_page hs he
  have hframe : e.frameAt (va.toNat / 65536) % 65536 = 0 := by
    simp only [TlbEntry.frameAt]
    omega
  have hplace := resolveAs_place h hp
  refine ⟨by simpa using hrange, e, he, ?_⟩
  rwa [show (e.frameAt (va.toNat / 65536) + va.toNat % 65536) / 65536 = e.frameAt (va.toNat / 65536) / 65536 by omega,
    show (e.frameAt (va.toNat / 65536) + va.toNat % 65536) % 65536 = va.toNat % 65536 by omega] at hplace

/-- The key of the first byte of a frame with this entry. -/
theorem place_key {f : Fme} {die : Nat} : ∃ base, base % 65536 = 0 ∧
    ∀ off p, off < 65536 → f.place die off = some p → p.key = base + off := by
  have hloc : f.loc % 65536 = 0 := by simp [Fme.loc]
  unfold Fme.place
  split
  · refine ⟨f.die % 8 * 2 ^ 40 + f.loc % 2 ^ 40, by omega, fun off p hoff hp => ?_⟩
    cases hp
    simp only [Place.key]
    omega
  · refine ⟨2 ^ 43 + f.die % 8 * 2 ^ 40 + f.loc % 2 ^ 40, by omega, fun off p hoff hp => ?_⟩
    cases hp
    simp only [Place.key]
    omega
  · refine ⟨2 ^ 64 + f.loc, by omega, fun off p hoff hp => ?_⟩
    cases hp
    simp only [Place.key]
    omega
  · refine ⟨f.replicaDie die % 8 * 2 ^ 40 + f.loc % 2 ^ 40, by omega, fun off p hoff hp => ?_⟩
    cases hp
    simp only [Place.key]
    omega
  · exact ⟨0, rfl, fun _ _ _ hp => by cases hp⟩

/-! ## Bytes at an address of a queue's context (R205) -/

theorem poisoned_one (s : State) (p : Place) : s.poisoned p 1 = s.poison.contains (lineOf p.key) := by
  have hone : (p.key % 64 + 1 + 63) / 64 = 1 := by omega
  simp [State.poisoned, hone]

/-- Bytes of which none lies in a poisoned line (R320). -/
theorem poisoned_eq_false {s : State} {p : Place} {n : Nat} (hn : 0 < n)
    (h : ∀ j, j < n → s.poison.contains (lineOf (p.key + j)) = false) : s.poisoned p n = false := by
  refine List.any_eq_false.mpr fun i hi => ?_
  have hlt := List.mem_range.mp hi
  have hline : lineOf p.key + i = lineOf (p.key + (64 * i - p.key % 64)) := by simp only [lineOf]; omega
  rw [hline, h _ (by omega)]
  simp

section
variable {s : State} {q : Queue} (hs : StateOk s)
include hs

/-- An address of a queue's context that has a place is one of 48 bits. -/
theorem toNat_lt_of_qAt {acc : Access} {va : Word} {n : Nat} {p : Place} (h : QAt s q acc va n p) : va.toNat < 2 ^ 48 := by
  obtain ⟨-, -, -, x, hx, hp⟩ := h
  have hrange := (translate_place hs hx hp).1
  have hlt := va.isLt
  simp only [bitsN] at hrange
  omega

/-- Within a page the keys follow the addresses. -/
theorem key_of_samePage {acc acc' : Access} {va vb : Word} {n m : Nat} {p r : Place} (ha : QAt s q acc va n p) (hb : QAt s q acc' vb m r)
    (h : va.toNat / 65536 = vb.toNat / 65536) :
    p.key % 65536 = va.toNat % 65536 ∧ p.key + vb.toNat % 65536 = r.key + va.toNat % 65536 := by
  obtain ⟨-, -, -, x, hx, hp⟩ := ha
  obtain ⟨-, -, -, y, hy, hr⟩ := hb
  obtain ⟨-, e, he, hpe⟩ := translate_place hs hx hp
  obtain ⟨-, e', he', hre⟩ := translate_place hs hy hr
  rw [pageOf_samePage s _ _ _ h, he'] at he
  cases he
  rw [← h] at hre
  obtain ⟨base, hbase, hkey⟩ := place_key (f := s.fme q.home (e.frameAt (va.toNat / 65536) / 65536)) (die := q.home)
  have hpkey := hkey _ _ (Nat.mod_lt _ (by omega)) hpe
  have hrkey := hkey _ _ (Nat.mod_lt _ (by omega)) hre
  omega

end

/-- The bytes from an address of a queue's context on lie each at its place. -/
def BytesAt (s : State) (q : Queue) (acc : Access) (va : Word) (n : Nat) (ps : Nat → Place) : Prop :=
  ∀ i, i < n → QAt s q acc (va + BitVec.ofNat 64 i) 1 (ps i)

section
variable {s : State} {q : Queue} {acc : Access} {va : Word} {n : Nat} {ps : Nat → Place}

theorem BytesAt.drop (h : BytesAt s q acc va n ps) (k : Nat) :
    BytesAt s q acc (va + BitVec.ofNat 64 k) (n - k) (fun i => ps (k + i)) := by
  intro i hi
  have hk := h (k + i) (by omega)
  rwa [BitVec.ofNat_add, ← BitVec.add_assoc] at hk

variable (hs : StateOk s) (h : BytesAt s q acc va n ps)
include hs h

/-- The first byte's address is one of 48 bits, and the byte lies at the same offset of its page. -/
theorem BytesAt.first (hn : 0 < n) : va.toNat < 2 ^ 48 ∧ (ps 0).key % 65536 = va.toNat % 65536 := by
  have h0 : QAt s q acc va 1 (ps 0) := by simpa using h 0 hn
  exact ⟨toNat_lt_of_qAt hs h0, (key_of_samePage hs h0 h0 rfl).1⟩

/-- Bytes of one page lie in a row. -/
theorem BytesAt.key {j : Nat} (hj : j < n) (hpage : va.toNat % 65536 + j < 65536) : (ps j).key = (ps 0).key + j := by
  obtain ⟨hrange, -⟩ := h.first hs (by omega)
  have h0 : QAt s q acc va 1 (ps 0) := by simpa using h 0 (by omega)
  have hnat : (va + BitVec.ofNat 64 j).toNat = va.toNat + j := by
    rw [BitVec.toNat_add, BitVec.toNat_ofNat]
    omega
  have hkey := (key_of_samePage hs h0 (h j hj) (by rw [hnat]; omega)).2
  rw [hnat] at hkey
  omega

/-- Bytes of one page have no poison where none of them has. -/
theorem BytesAt.poisoned {k : Nat} (hk : k ≤ n) (hpos : 0 < k) (hpage : va.toNat % 65536 + k ≤ 65536) : s.poisoned (ps 0) k = false := by
  refine poisoned_eq_false hpos fun j hj => ?_
  rw [← h.key hs (by omega) (by omega), ← poisoned_one]
  exact (h j (by omega)).2.1

end

/-- What the bytes at places hold. -/
def bytesOf (s : State) (ps : Nat → Place) (n : Nat) : List Byte := (List.range n).map (fun i => Memory.read s.mem (ps i).key)

@[simp] theorem bytesOf_length (s : State) (ps : Nat → Place) (n : Nat) : (bytesOf s ps n).length = n := by simp [bytesOf]

theorem bytesOf_add (s : State) (ps : Nat → Place) (k m : Nat) :
    bytesOf s ps (k + m) = bytesOf s ps k ++ bytesOf s (fun i => ps (k + i)) m := by
  simp [bytesOf, List.range_add]

/-- A read of bytes of one page. -/
theorem BytesAt.readPlace {s : State} {q : Queue} {acc : Access} {va : Word} {n : Nat} {ps : Nat → Place} (hs : StateOk s)
    (h : BytesAt s q acc va n ps) {k : Nat} (hk : k ≤ n) (hpage : va.toNat % 65536 + k ≤ 65536) :
    s.readPlace (ps 0) k = bytesOf s ps k := by
  rw [State.readPlace, Memory.readBytes_eq _ hs.1, bytesOf]
  refine List.map_congr_left fun j hj => ?_
  have hlt := List.mem_range.mp hj
  rw [h.key hs (j := j) (by omega) (by omega)]

/-- A read of a span, page by page. -/
theorem BytesAt.ctxReadSpan {s : State} {q : Queue} (hs : StateOk s) (carry : Bool) {fuel : Nat} {va : Word} {n : Nat} {ps : Nat → Place}
    (h : BytesAt s q .read va n ps) (hfuel : n = 0 ∨ va.toNat % 65536 + n ≤ fuel * 65536) :
    s.ctxReadSpan q.home q.ctx carry va n fuel = .ok (bytesOf s ps n) := by
  induction fuel generalizing va n ps with
  | zero =>
    obtain rfl : n = 0 := by omega
    rfl
  | succ f ih =>
    unfold State.ctxReadSpan
    split
    · next hn => subst hn; rfl
    next hn =>
    obtain ⟨k, hk⟩ : ∃ k, k = min n (65536 - va.toNat % 65536) := ⟨_, rfl⟩
    obtain ⟨x, hx, hp⟩ : ∃ x, s.translate q.home q.ctx ((s.context q.ctx).flags.getLsbD 0) .read va = .ok x ∧ x.place = some (ps 0) := by
      simpa using (h 0 (by omega)).2.2.2
    obtain ⟨hrange, -⟩ := h.first hs (by omega)
    have hrest : s.ctxReadSpan q.home q.ctx carry (va + BitVec.ofNat 64 k) (n - k) f = .ok (bytesOf s (fun i => ps (k + i)) (n - k)) := by
      refine ih (h.drop k) ?_
      rw [BitVec.toNat_add, BitVec.toNat_ofNat]
      have hwhole : k = n ∨ va.toNat % 65536 + k = 65536 := by omega
      omega
    have hclean := h.poisoned hs (k := k) (by omega) (by omega) (by omega)
    have hread := h.readPlace hs (k := k) (by omega) (by omega)
    simp only [← hk, hx, hp, hclean, hrest, hread, Bool.and_false, Bool.false_eq_true, if_false, ← bytesOf_add]
    rw [show k + (n - k) = n by omega]

/-! ## Writes of a queue's front-end (R268) -/

theorem onlyClocks_setDie {s : State} {k : Nat} {d : Die} (h : { d with clock := (s.die k).clock } = s.die k) : OnlyClocks s (s.setDie k d) := by
  intro j
  by_cases hj : j = k
  · subst hj; rwa [State.die_setDie]
  · rw [State.die_setDie_ne _ _ _ _ hj]

theorem onlyClocks_trans {s t u : State} (h : OnlyClocks s t) (g : OnlyClocks t u) : OnlyClocks s u := fun d =>
  (congrArg (fun x : Die => { x with clock := (s.die d).clock }) (g d) :).trans (h d)

/-- With no write owed to the home, its clock and the sender's are all that a write of a die changes beside memory; the sender's keeps
what it knows of the other dies. -/
theorem clockTo_spec {s : State} {die : Nat} {p : Place} (h : ∀ f ∈ s.flyWrites, s.owed die p f = false) :
    { s.clockTo die p with dies := s.dies } = s ∧ QueueMemory s (s.clockTo die p) ∧
    ∀ d, d ≠ die → ((s.clockTo die p).die die).clock.getD d 0 = (s.die die).clock.getD d 0 := by
  have hpaid : s.payOwed die p = s := State.landWrites_none _ _ (List.any_eq_false.mpr fun f hf => by simp [h f hf])
  unfold State.clockTo
  rw [hpaid]
  dsimp only
  split
  · exact ⟨rfl, ⟨rfl, fun _ => rfl⟩, fun _ _ => rfl⟩
  next hhome =>
  refine ⟨rfl, ⟨rfl, onlyClocks_trans (onlyClocks_setDie (k := die) (d := (s.die die).sent die) rfl) (onlyClocks_setDie rfl)⟩, fun d hd => ?_⟩
  · rw [State.die_setDie_ne _ _ _ _ (Ne.symm hhome), State.die_setDie, Die.sent, Tbl.getD_set_ne _ _ _ _ _ hd]

theorem queueMemory_trans {s t u : State} (h : QueueMemory s t) (g : QueueMemory t u) : QueueMemory s u := by
  refine ⟨?_, onlyClocks_trans h.2 g.2⟩
  conv_rhs => rw [← h.1, ← g.1]

theorem queueMemory_writePlace (s : State) (p : Place) (bs : List Byte) : QueueMemory s (s.writePlace p bs) :=
  ⟨(congrArg (fun t : State => { t with queues := s.queues, dies := s.dies }) (s.writeAt_only p.key bs none) :),
    fun d => congrArg (fun e : Die => { e with clock := (s.die d).clock }) ((s.writeAt_bytes p.key bs none).die d)⟩

/-- Bytes that a queue's front-end writes at a place. -/
def State.qPut (s : State) (q : Queue) (p : Place) (bs : List Byte) : State := (s.clockTo q.home p).writePlace p bs

section
variable {s : State} {q : Queue} {va : Word} {p : Place} {bs : List Byte} (h : QAt s q .write va bs.length p)
include h

theorem ctxWrite_of_qAt : s.ctxWrite q.home q.ctx va bs = .ok (s.qPut q p bs) := by
  obtain ⟨-, hclean, -, x, hx, hp⟩ := h
  simp only [State.ctxWrite, hx, hp, hclean, Bool.false_and, Bool.false_eq_true, if_false, State.qPut]

/-- A write within a page is made whole. -/
theorem qWrite_of_qAt (hpos : 0 < bs.length) : s.qWrite q va bs = s.qPut q p bs := by
  have hwrite := ctxWrite_of_qAt h
  obtain ⟨hpage, -, -⟩ := h
  obtain ⟨b, r, rfl⟩ := List.exists_cons_of_length_pos hpos
  have htake : (b :: r).take (65536 - va.toNat % 65536) = b :: r := List.take_of_length_le (by omega)
  have hdrop : (b :: r).drop (65536 - va.toNat % 65536) = [] := List.drop_eq_nil_of_le (by omega)
  simp [State.qWrite, State.ctxWriteSpan, htake, hdrop, hwrite]

theorem qPut_mem : (s.qPut q p bs).mem = Memory.writeBytes s.mem p.key bs := by
  have hmem : (s.clockTo q.home p).mem = s.mem := (congrArg State.mem (clockTo_spec (h.2.2.1 rfl)).1 :)
  rw [State.qPut, State.writePlace, State.writeAt_mem, hmem]

theorem memOk_qPut (hm : MemOk s) : MemOk (s.qPut q p bs) := by
  rw [MemOk, qPut_mem h]
  exact Memory.wf_writeBytes _ _ _ hm

/-- What a write of a queue's front-end leaves. -/
theorem qPut_spec (hm : MemOk s) : (s.qPut q p bs).queues = s.queues ∧ QueueMemory s (s.qPut q p bs) ∧
    MemSameBut s (s.qPut q p bs) p.key bs.length ∧ Holds (s.qPut q p bs) p.key bs := by
  obtain ⟨hclock, hclocked, -⟩ := clockTo_spec (h.2.2.1 rfl)
  have hread (a : Nat) : Memory.read (s.qPut q p bs).mem a =
      if p.key ≤ a ∧ a < p.key + bs.length then bs.getD (a - p.key) 0 else Memory.read s.mem a := by
    rw [qPut_mem h, Memory.read_writeBytes _ hm]
  have hqueues : (s.qPut q p bs).queues = (s.clockTo q.home p).queues :=
    (congrArg State.queues ((s.clockTo q.home p).writeAt_only p.key bs none) :)
  refine ⟨hqueues.trans (congrArg State.queues hclock :), queueMemory_trans hclocked (queueMemory_writePlace _ _ _), fun a ha => ?_,
    fun i hi => ?_⟩
  · rw [hread, if_neg (by omega)]
  · rw [hread, if_pos (by omega)]
    simp [hi]

end

/-! ## A queue that stops (R92) -/

theorem queueStep_setQueue {s t : State} (h : QueueMemory s t) (hqueues : t.queues = s.queues) (k : Nat) (x : Queue) :
    QueueStep k s (t.setQueue k x) := by
  obtain ⟨honly, hdies⟩ := h
  refine ⟨⟨honly, hdies⟩, fun j hj => ?_⟩
  rw [State.queue_setQueue_ne _ _ _ _ hj, State.queue, hqueues]
  rfl

/-- The record of a queue that has stopped at an entry (R92). -/
def Queue.stoppedAt (q : Queue) (e : QueueStop) : Queue :=
  { q with desc := { q.desc with state := 5 }, cmds := q.cmds.filter (fun c => c.index != e.index), err := some e }

/-- The bytes of ERR (R88). -/
def QueueStop.word (e : QueueStop) : List Byte := leBytes 8 (e.index % 2 ^ 32 + e.cause * 2 ^ 32)

@[simp] theorem QueueStop.word_length (e : QueueStop) : e.word.length = 8 := leBytes_length _ _

section
variable {s : State} {k : Nat} {p : Place} (h : ErrAt s k p) (e : QueueStop)
include h

theorem queueError_eq : s.queueError k e = State.firmwareNote
    ((s.qPut (s.queue k) p e.word).setQueue k ((s.queue k).stoppedAt e))
    (s.queue k).home 49 (s.queue k).ctx (BitVec.ofNat 64 k) (BitVec.ofNat 32 e.index) (BitVec.ofNat 64 e.cause) := by
  obtain ⟨-, hfree, herr⟩ := h
  have hput : s.qWrite (s.queue k) ((s.queue k).desc.qcb + 0x30) e.word = s.qPut (s.queue k) p e.word :=
    qWrite_of_qAt (by rwa [e.word_length]) (by simp)
  simp only [State.queueError, hfree, Bool.false_eq_true, if_false]
  rw [← QueueStop.word, hput]
  rfl

/-- A queue whose ERR can be written stops at an entry (R92). -/
theorem queueError_fails : QueueFails s (s.queueError k e) k e.index e.cause p := by
  obtain ⟨hm, -, herr⟩ := id h
  have hput : QAt s (s.queue k) .write ((s.queue k).desc.qcb + 0x30) e.word.length p := by rwa [e.word_length]
  obtain ⟨hqueues, hstep, hsame, hholds⟩ := qPut_spec hput hm
  have hmgmt : (s.qPut (s.queue k) p e.word).mgmt = s.mgmt := (congrArg State.mgmt hstep.1 :)
  have hqueue : (s.queueError k e).queue k = (s.queue k).stoppedAt e := by
    rw [queueError_eq h]
    exact State.queue_setQueue _ _ _
  have hmem : (s.queueError k e).mem = (s.qPut (s.queue k) p e.word).mem := by rw [queueError_eq h]; rfl
  rw [e.word_length] at hsame
  refine ⟨?_, by rw [hqueue]; rfl, by rw [hqueue]; rfl, by rw [hqueue]; rfl, by rw [hqueue]; rfl, ⟨e, by rw [hqueue]; rfl, rfl, rfl⟩,
    fun i hi => ?_, fun a ha => ?_, ?_⟩
  · rw [queueError_eq h, ← hmgmt]
    exact queueStep_setQueue hstep hqueues k _
  · rw [hmem]; exact hholds i hi
  · rw [hmem]; exact hsame a ha
  · exact ⟨_, by rw [queueError_eq h, ← hmgmt]; rfl, rfl, rfl, rfl, rfl, rfl⟩

theorem stopCmd_fails (c : Command) (cause : Nat) : QueueFails s (s.stopCmd k c cause) k c.index cause p :=
  queueError_fails h ⟨c.index, cause, c.entryAddr, some c.bytes⟩

end

/-! ## What the front-end reads does not depend on the queues -/

section
variable {s t : State} (h : SameReads s t)
include h

theorem SameReads.ctxReadSpan (die ctx : Nat) (carry : Bool) (va : Word) (n fuel : Nat) :
    t.ctxReadSpan die ctx carry va n fuel = s.ctxReadSpan die ctx carry va n fuel := by
  induction fuel generalizing va n with
  | zero => rfl
  | succ f ih => simp only [State.ctxReadSpan, h.context, h.translate, h.poisoned, State.readPlace, h.mem, ih]

theorem SameReads.readRanges (die ctx : Nat) (rs : List (Word × Nat)) : t.readRanges die ctx rs = s.readRanges die ctx rs := by
  simp only [State.readRanges, h.ctxReadSpan]

end

theorem sameReads_updQueue (s : State) (k : Nat) (f : Queue → Queue) : SameReads s (s.updQueue k f) :=
  ⟨rfl, rfl, rfl, rfl, rfl, rfl, rfl, fun _ => rfl⟩

end Machine
end Sys2Proof
end

section
/-! PROOFS. LAUNCH commands (R92, R108, R109, R115). -/

namespace Sys2Proof
open Machine Claims
namespace Machine

/-! ## A LAUNCH that starts, and one that stops its queue -/

/-- What a LAUNCH of a queue remembers, with the header it has read (R109). -/
def Command.snapshot (c : Command) (q : Queue) (h : Header) : Launch :=
  { ctx := q.ctx, header := h, headerAddr := cutW c.bytes 0x10, paramBase := cutW c.bytes 0x18, ngroups := cutN c.bytes 0x20 4
    index := c.index }

section
variable {s : State} {k : Nat} {pre : List Command} {c : Command} (hready : Ready s k 1 pre c) (hnew : look s.launches ⟨k, c.lid⟩ = none)
  (hheld : s.qHeld (s.queue k) (cutW c.bytes 0x10) 128 = false)
include hready hnew hheld

/-- What a LAUNCH does by what its header says. -/
theorem execLaunchCmd_eq : execLaunchCmd k s = .next
    (match s.readHeader (s.queue k).home (s.queue k).ctx (cutW c.bytes 0x10) (cutW c.bytes 0x18) with
    | .error e => s.stopCmd k c e
    | .ok h =>
      if !s.qMapped (s.queue k) .read false (cutW c.bytes 0x18) 1 then s.stopCmd k c 3
      else if !s.placeable (s.queue k).ctx h then s.stopCmd k c 6
      else ((s.setLaunch ⟨k, c.lid⟩ (c.snapshot (s.queue k) h)).countLaunch (s.queue k).ctx (cutW c.bytes 0x10) true).updQueue k
        (fun q => q.updCmd c.index (fun c => { c with started := true }))) := by
  simp only [execLaunchCmd, startable_of_ready hready, hnew, hheld, Option.isSome_none, Bool.or_self, Bool.false_eq_true, if_false]
  rfl

theorem launchCmd_starts {h : Header}
    (hheader : s.readHeader (s.queue k).home (s.queue k).ctx (cutW c.bytes 0x10) (cutW c.bytes 0x18) = .ok h)
    (hmapped : s.qMapped (s.queue k) .read false (cutW c.bytes 0x18) 1 = true) (hplace : s.placeable (s.queue k).ctx h = true) :
    ∃ t, exec (.launchCmd k) s = .next t ∧ { t with queues := s.queues, launches := s.launches, loaded := s.loaded } = s ∧
      (∀ j, j ≠ k → t.queue j = s.queue j) ∧ t.queue k = { s.queue k with cmds := pre ++ [{ c with started := true }] } ∧
      t.launches = put s.launches ⟨k, c.lid⟩ (c.snapshot (s.queue k) h) := by
  have hupd := updCmd_of_ready hready (fun c => { c with started := true })
  have hstate := hready.1
  have hexec := execLaunchCmd_eq hready hnew hheld
  rw [hheader] at hexec
  simp only [hmapped, hplace, Bool.not_true, Bool.false_eq_true, if_false] at hexec
  refine ⟨_, hexec, ?_, fun j hj => queue_updQueue_ne _ _ hj, (queue_updQueue ?_).trans hupd, ?_⟩
  · unfold State.updQueue State.setQueue State.countLaunch State.setLaunch
    rfl
  · show ((s.queue k).updCmd c.index _).desc.state ≠ 4
    rw [hupd]
    simp [hstate]
  · rfl

theorem launchCmd_stops {p : Place} (herr : ErrAt s k p) :
    let stops := fun n : Nat => ∃ t, exec (.launchCmd k) s = .next t ∧ QueueFails s t k c.index n p
    ((cutW c.bytes 0x10).toNat % 64 ≠ 0 → stops 2) ∧
    (∀ n, s.readHeader (s.queue k).home (s.queue k).ctx (cutW c.bytes 0x10) (cutW c.bytes 0x18) = .error n → stops n) ∧
    ∀ h, s.readHeader (s.queue k).home (s.queue k).ctx (cutW c.bytes 0x10) (cutW c.bytes 0x18) = .ok h →
      (s.qMapped (s.queue k) .read false (cutW c.bytes 0x18) 1 = false → stops 3) ∧
      (s.qMapped (s.queue k) .read false (cutW c.bytes 0x18) 1 = true → s.placeable (s.queue k).ctx h = false → stops 6) := by
  have hexec : exec (.launchCmd k) s = _ := execLaunchCmd_eq hready hnew hheld
  have herror : ∀ n, s.readHeader (s.queue k).home (s.queue k).ctx (cutW c.bytes 0x10) (cutW c.bytes 0x18) = .error n →
      ∃ t, exec (.launchCmd k) s = .next t ∧ QueueFails s t k c.index n p := by
    intro n hn
    rw [hn] at hexec
    exact ⟨_, hexec, stopCmd_fails herr c n⟩
  refine ⟨fun halign => herror 2 (if_pos halign), herror, fun h hh => ⟨fun hmapped => ?_, fun hmapped hplace => ?_⟩⟩
  all_goals rw [hh] at hexec
  · simp only [hmapped, Bool.not_false, if_true] at hexec
    exact ⟨_, hexec, stopCmd_fails herr c 3⟩
  · simp only [hmapped, hplace, Bool.not_true, Bool.not_false, Bool.false_eq_true, if_true, if_false] at hexec
    exact ⟨_, hexec, stopCmd_fails herr c 6⟩

end

/-! ## A launch that completes -/

theorem look_filter_ne {κ α : Type} [DecidableEq κ] (l : List (κ × α)) (k : κ) :
    look (l.filter (fun (j, _) => decide (j ≠ k))) k = none := by
  induction l with
  | nil => rfl
  | cons p r ih =>
    obtain ⟨j, x⟩ := p
    by_cases hj : j = k
    · simpa [hj] using ih
    · simpa [hj, look] using ih

/-- The command of a launch completes in its queue, where the entry can be written. -/
theorem launchComplete_spec {s : State} {k : LaunchKey} {l : Launch} {c : Command} {p : Place} (hm : MemOk s)
    (hstate : (s.queue k.queue).desc.state ≠ 4) (hlook : look s.launches k = some l) (hover : s.launchOver k l = true)
    (hfind : (s.queue k.queue).cmds.find? (fun e => e.op == 1 && e.lid == k.lid && e.outstanding) = some c)
    (hfree : s.qBlocked (s.queue k.queue) (c.entryAddr + 0x38) 8 = false)
    (hheld : ∀ r ∈ l.header.outs, s.qHeld (s.queue k.queue) r.1 r.2 = false)
    (hat : QAt s (s.queue k.queue) .write (c.entryAddr + 0x38) 8 p) :
    ∃ t, exec (.launchComplete k) s = .next t ∧ MemSameBut s t p.key 8 ∧ Holds t p.key (leBytes 8 l.word.toNat) ∧
      look t.launches k = none ∧ (∀ g ∈ t.groups, g.1.launch ≠ k) ∧
      t.queue k.queue = (s.queue k.queue).updCmd c.index (fun e =>
        e.finish l.word (sha256 (s.readRanges (s.queue k.queue).home (s.queue k.queue).ctx l.header.outs))) ∧
      t.strands = s.strands := by
  have hput : QAt s (s.queue k.queue) .write (c.entryAddr + 0x38) (leBytes 8 l.word.toNat).length p := by rwa [leBytes_length]
  obtain ⟨hqueues, hstep, hsame, hholds⟩ := qPut_spec hput hm
  rw [leBytes_length] at hsame
  have hnone : l.header.outs.any (fun r => s.qHeld (s.queue k.queue) r.1 r.2) = false :=
    List.any_eq_false.mpr fun r hr => by simp [hheld r hr]
  have hexec : exec (.launchComplete k) s = execLaunchComplete k s := rfl
  simp only [execLaunchComplete, hlook, hfind, hover, hfree, hnone, qWrite_of_qAt hput (by simp), Bool.not_true, Bool.or_self,
    Bool.false_eq_true, if_false] at hexec
  have hqueue : (s.qPut (s.queue k.queue) p (leBytes 8 l.word.toNat)).queue k.queue = s.queue k.queue := by
    rw [State.queue, hqueues]; rfl
  refine ⟨_, hexec, fun a ha => hsame a ha, fun i hi => hholds i hi, ?_, fun g hg => ?_, ?_, (congrArg State.strands hstep.1 :)⟩
  · exact look_filter_ne _ k
  · exact of_decide_eq_true (List.mem_filter.mp hg).2
  · refine (queue_updQueue ?_).trans (congrArg (fun q : Queue => q.updCmd c.index _) hqueue)
    exact fun h => hstate ((congrArg (fun q : Queue => q.desc.state) hqueue).symm.trans h)

end Machine

theorem launchesStartAndComplete : LaunchesStartAndComplete := by
  intro s k pre c h l pr pc
  refine ⟨fun hready hnew hheld hheader hmapped hplace => ?_, fun hready hnew hheld herr => ?_,
    fun hm hstate hlook hover hfind hfree hheld hat => launchComplete_spec hm hstate hlook hover hfind hfree hheld hat,
    fun hnone => ?_, fun hlook hover => ?_⟩
  · obtain ⟨t, hexec, honly, hothers, hqueue, hlaunches⟩ := launchCmd_starts hready hnew hheld hheader hmapped hplace
    refine ⟨t, hexec, honly, hothers, hqueue, fun j hj => ?_, c.snapshot (s.queue k) h, ?_, rfl, rfl, rfl, rfl, rfl, rfl, rfl, rfl⟩
    · rw [hlaunches, look_put, if_neg hj]
    · rw [hlaunches, look_put, if_pos rfl]
  · obtain ⟨halign, herror, hread⟩ := launchCmd_stops hready hnew hheld herr
    exact ⟨halign, herror, fun hheader => (hread h hheader).1, fun hheader => (hread h hheader).2⟩
  · show execLaunchComplete _ s = _
    simp only [execLaunchComplete, hnone]
  · show execLaunchComplete _ s = _
    simp only [execLaunchComplete, hlook, hover, Bool.not_false, Bool.true_or, if_true, Bool.false_eq_true, if_false]
    split <;> rfl

end Sys2Proof
end

section
/-! PROOFS. COPY commands (R78, R91, R92, R95). -/

namespace Sys2Proof
open Machine Claims
namespace Machine

/-! ## What the lines of a COPY leave -/

/-- Counting an access moves no vector clock (R218, R268). -/
theorem countAccess_clock (s : State) (die src : Nat) (x : Xl) (k : Nat) :
    ((s.countAccess die src x).die k).clock = (s.die k).clock := by
  have hdue : (s.die die).endDue.clock = (s.die die).clock := by
    unfold Die.endDue
    dsimp only
    split <;> rfl
  unfold State.countAccess
  split
  · rfl
  by_cases hk : k = die
  · subst hk
    rw [State.die_setDie]
    repeat' split
    all_goals exact hdue
  · rw [State.die_setDie_ne _ _ _ _ hk]

/-- Of the package, a COPY whose lines are written has changed memory and the caches' lines, the trackers, and the requests of the ports.
What the front-end's die knows of the others, and where the links stand, is as it was; and no line has become poisoned. -/
structure OnlyCopied (q : Queue) (s t : State) : Prop where
  only : { t with dies := s.dies, ports := s.ports, mem := s.mem, counted := s.counted, l1 := s.l1, msc := s.msc,
                  aliasSeen := s.aliasSeen, poison := s.poison } = s
  dies : ∀ d, OnlyCounts (s.die d) (t.die d)
  clock : ∀ d, d ≠ q.home → (t.die q.home).clock.getD d 0 = (s.die q.home).clock.getD d 0
  ports : ∀ k, (t.port k).state = (s.port k).state
  poison : ∀ l, s.poison.contains l = false → t.poison.contains l = false

theorem OnlyCopied.refl (q : Queue) (s : State) : OnlyCopied q s s := ⟨rfl, fun _ => rfl, fun _ _ => rfl, fun _ => rfl, fun _ h => h⟩

theorem OnlyCopied.trans {q : Queue} {s t u : State} (h : OnlyCopied q s t) (g : OnlyCopied q t u) : OnlyCopied q s u where
  only := by conv_rhs => rw [← h.only, ← g.only]
  dies d := (h.dies d).trans (g.dies d)
  clock d hd := (g.clock d hd).trans (h.clock d hd)
  ports k := (g.ports k).trans (h.ports k)
  poison l hl := g.poison l (h.poison l hl)

theorem OnlyCopied.countAccess (q : Queue) (s : State) (die src : Nat) (x : Xl) : OnlyCopied q s (s.countAccess die src x) where
  only := by
    obtain e | ⟨d, -, e⟩ := s.countAccess_cases die src x
    · rw [e]
    · rw [e]; rfl
  dies := (s.countAccess_traffic die src x).2
  clock d _ := by rw [countAccess_clock]
  ports k := by
    obtain e | ⟨d, -, e⟩ := s.countAccess_cases die src x
    · rw [e]
    · rw [e]; rfl
  poison l hl := by
    obtain e | ⟨d, -, e⟩ := s.countAccess_cases die src x
    · rwa [e]
    · rwa [e]

theorem OnlyCopied.linkNote (q : Queue) (s : State) (src : Nat) (va : Word) (p : Place) : OnlyCopied q s (s.linkNote src va p) := by
  unfold State.linkNote
  split
  · refine ⟨rfl, fun _ => rfl, fun _ _ => rfl, fun k => ?_, fun _ h => h⟩
    dsimp only
    generalize s.portOf (dieOf src) _ = j
    by_cases hk : k = j
    · subst hk; rw [State.port_setPort]
    · rw [State.port_setPort_ne _ _ _ _ hk]
  · exact .refl q s

theorem OnlyCopied.clockTo {q : Queue} {s : State} {p : Place} (h : ∀ f ∈ s.flyWrites, s.owed q.home p f = false) :
    OnlyCopied q s (s.clockTo q.home p) := by
  obtain ⟨honly, -, hclock⟩ := clockTo_spec h
  refine ⟨?_, (s.clockTo_traffic q.home p).2, hclock, fun k => ?_, fun l hl => ?_⟩
  · exact (congrArg (fun t : State => { t with ports := s.ports, mem := s.mem, counted := s.counted, l1 := s.l1, msc := s.msc,
                                               aliasSeen := s.aliasSeen, poison := s.poison }) honly :)
  · rw [State.port, (congrArg State.ports honly :)]; rfl
  · rwa [(congrArg State.poison honly :)]

theorem OnlyCopied.writePlace (q : Queue) (s : State) (p : Place) (bs : List Byte) : OnlyCopied q s (s.writePlace p bs) := by
  have hbytes : OnlyBytes s (s.writePlace p bs) := s.writeAt_bytes p.key bs none
  refine ⟨?_, fun d => by rw [hbytes.die]; exact .refl _, fun d _ => by rw [hbytes.die], fun k => ?_, fun l hl => ?_⟩
  · exact (congrArg (fun t : State => { t with dies := s.dies, ports := s.ports }) (s.writeAt_only p.key bs none) :)
  · rw [State.port, (congrArg State.ports hbytes :)]; rfl
  · rw [State.writePlace, poison_writeAt]
    split
    · rw [List.contains_eq_mem, decide_eq_false_iff_not] at hl ⊢
      exact fun hmem => hl (List.mem_filter.mp hmem).1
    · exact hl

theorem OnlyCopied.qPut {q : Queue} {s : State} {p : Place} (h : ∀ f ∈ s.flyWrites, s.owed q.home p f = false) (bs : List Byte) :
    OnlyCopied q s (s.qPut q p bs) :=
  (OnlyCopied.clockTo h).trans (.writePlace q _ p bs)

theorem OnlyCopied.qWrote (q : Queue) (s : State) (va : Word) : OnlyCopied q s (s.qWrote q va) := by
  unfold State.qWrote
  split
  · refine OnlyCopied.trans ?_ (.countAccess q _ _ _ _)
    split
    · exact .linkNote q s _ _ _
    · exact .refl q s
  · exact .refl q s

theorem qWrote_mem (s : State) (q : Queue) (va : Word) : (s.qWrote q va).mem = s.mem := by
  have hcount (t : State) (x : Xl) : (t.countAccess q.home q.source x).mem = t.mem := by
    obtain e | ⟨d, -, e⟩ := t.countAccess_cases q.home q.source x <;> rw [e]
    rfl
  unfold State.qWrote
  split
  · rw [hcount]
    split
    · exact (congrArg State.mem (s.linkNote_only _ _ _ _) :)
    · rfl
  · rfl

theorem OnlyCopied.qCounts (q : Queue) (s : State) (vas : List Word) :
    OnlyCopied q s (s.qCounts q vas) ∧ (s.qCounts q vas).mem = s.mem := by
  unfold State.qCounts
  induction vas generalizing s with
  | nil => exact ⟨.refl q s, rfl⟩
  | cons va r ih =>
    obtain ⟨hcopied, hmem⟩ := ih (s.qCount q va)
    have hcount : OnlyCopied q s (s.qCount q va) ∧ (s.qCount q va).mem = s.mem := by
      unfold State.qCount
      split
      · refine ⟨.countAccess q s _ _ _, ?_⟩
        obtain e | ⟨d, -, e⟩ := s.countAccess_cases q.home q.source _ <;> rw [e]
        rfl
      · exact ⟨.refl q s, rfl⟩
    exact ⟨hcount.1.trans hcopied, hmem.trans hcount.2⟩

/-! ## Translations that a COPY under way does not move (R205, R208) -/

section
variable {q : Queue} {s t : State} (h : OnlyCopied q s t)
include h

theorem OnlyCopied.fme (die frame : Nat) : t.fme die frame = s.fme die frame := by
  have hcache : (t.die die).fmCache = (s.die die).fmCache := (congrArg Die.fmCache (h.dies die) :)
  have hmap : t.fmap = s.fmap := (congrArg State.fmap h.only :)
  simp only [State.fme, hcache, hmap]

theorem OnlyCopied.context (k : Nat) : t.context k = s.context k := by
  rw [State.context, (congrArg State.contexts h.only :)]; rfl

theorem OnlyCopied.regionSecure (p : Place) : t.regionSecure p = s.regionSecure p := by
  have hregions (d : Nat) : (t.die d).regions = (s.die d).regions := (congrArg Die.regions (h.dies d) :)
  simp only [State.regionSecure, hregions]

theorem OnlyCopied.placeLost (die : Nat) (p : Place) : t.placeLost die p = s.placeLost die p := by
  have hlost (d : Nat) : (t.die d).lostPcs = (s.die d).lostPcs := (congrArg Die.lostPcs (h.dies d) :)
  have hwindows : (t.die die).windows = (s.die die).windows := (congrArg Die.windows (h.dies die) :)
  cases p <;> simp only [State.placeLost, hlost, State.portOf, hwindows, Port.usable, h.ports]

theorem OnlyCopied.placesOf (f : Fme) (die off : Nat) (acc : Access) : t.placesOf f die off acc = s.placesOf f die off acc := by
  have hwindows : t.braidWindows = s.braidWindows := (congrArg State.braidWindows h.only :)
  simp only [State.placesOf, hwindows]

theorem OnlyCopied.resolve (die : Nat) (secure : Bool) (acc : Access) (fa : Nat) :
    t.resolve die secure acc fa = s.resolve die secure acc fa := by
  have hregion : t.regionSecure = s.regionSecure := funext h.regionSecure
  have hlost : t.placeLost die = s.placeLost die := funext (h.placeLost die)
  simp only [State.resolve, State.resolveAs, h.fme, h.placesOf, hregion, hlost]

/-- A page that the TLB holds is found there, whatever the tables hold by now. -/
theorem OnlyCopied.pageOf {va : Word} (hcached : QCached s q va) : t.pageOf q.home q.ctx va.toNat = s.pageOf q.home q.ctx va.toNat := by
  obtain ⟨e, he, hcovers⟩ := hcached
  have htlb : (t.die q.home).tlb = (s.die q.home).tlb := (h.dies q.home).tlb
  obtain ⟨e', hfind⟩ : ∃ e', (s.die q.home).tlb.find? (fun e => e.covers q.ctx (va.toNat / 65536)) = some e' :=
    Option.isSome_iff_exists.mp (List.find?_isSome.mpr ⟨e, he, hcovers⟩)
  simp [State.pageOf, Die.cached, htlb, hfind]

theorem OnlyCopied.translate {va : Word} (hcached : QCached s q va) (secure : Bool) (acc : Access) :
    t.translate q.home q.ctx secure acc va = s.translate q.home q.ctx secure acc va := by
  simp only [State.translate, h.pageOf hcached, h.resolve]

/-- What can be written can still be written. -/
theorem OnlyCopied.qAt {va : Word} {n : Nat} {p : Place} (hcached : QCached s q va) (hat : QAt s q .write va n p) :
    QAt t q .write va n p := by
  obtain ⟨hpage, hclean, howed, x, hx, hp⟩ := hat
  refine ⟨hpage, List.any_eq_false.mpr fun i hi => ?_, fun _ f hf => ?_, x, ?_, hp⟩
  · have hi' := List.any_eq_false.mp hclean i hi
    rw [h.poison _ (by simpa using hi')]
    simp
  · rw [(congrArg State.flyWrites h.only :)] at hf
    have hf' := howed rfl f hf
    by_cases hfrom : f.fromDie = q.home
    · simp [State.owed, hfrom]
    · simpa only [State.owed, h.clock _ hfrom] using hf'
  · rw [h.context, h.translate hcached, hx]

end

/-! ## The lines of a COPY -/

/-- A run of bytes of a COPY within one destination line: offset and length. -/
def IsLine (dst n : Nat) (g : Nat × Nat) : Prop := 0 < g.2 ∧ g.1 + g.2 ≤ n ∧ (dst + g.1) % 64 + g.2 ≤ 64

theorem isLine_of_mem_copySegs {dst off n fuel : Nat} {g : Nat × Nat} (h : g ∈ copySegs dst off n fuel) : IsLine dst n g := by
  induction fuel generalizing off with
  | zero => cases h
  | succ f ih =>
    unfold copySegs at h
    split at h
    · cases h
    · rcases List.mem_cons.mp h with rfl | h
      · simp only [IsLine]
        omega
      · exact ih h

/-- The lines cover the destination. -/
theorem copySegs_cover {dst off n fuel i : Nat} (hfuel : n ≤ off + fuel) (hlo : off ≤ i) (hhi : i < n) :
    ∃ g ∈ copySegs dst off n fuel, g.1 ≤ i ∧ i < g.1 + g.2 := by
  induction fuel generalizing off with
  | zero => omega
  | succ f ih =>
    unfold copySegs
    rw [if_neg (by omega)]
    obtain ⟨k, hk⟩ : ∃ k, k = min (n - off) (64 - (dst + off) % 64) := ⟨_, rfl⟩
    dsimp only
    rw [← hk]
    by_cases hin : i < off + k
    · exact ⟨_, List.mem_cons_self, hlo, hin⟩
    · obtain ⟨g, hg, hcover⟩ := ih (off := off + k) (by omega) (by omega)
      exact ⟨g, List.mem_cons_of_mem _ hg, hcover⟩

/-- The line `g` of bytes `val`. -/
def lineSeg (val : Nat → Byte) (g : Nat × Nat) : SegBytes := ⟨g.1, (List.range g.2).map (fun j => val (g.1 + j)), false⟩

/-- Within a line of the destination the offset in the page leaves room. -/
theorem IsLine.page {dst : Word} {n : Nat} {g : Nat × Nat} (h : IsLine dst.toNat n g) :
    (dst + BitVec.ofNat 64 g.1).toNat % 65536 + g.2 ≤ 65536 := by
  obtain ⟨-, -, hline⟩ := h
  rw [BitVec.toNat_add, BitVec.toNat_ofNat]
  omega

/-- The source of every line is read as it stands, and none is poisoned. -/
theorem BytesAt.segReads {s : State} {q : Queue} {src : Word} {n : Nat} {ps : Nat → Place} (hs : StateOk s) (h : BytesAt s q .read src n ps)
    {dst : Nat} (segs : List (Nat × Nat)) (hsegs : ∀ g ∈ segs, IsLine dst n g) :
    s.segReads q src segs = (segs.map (lineSeg fun i => Memory.read s.mem (ps i).key), none) := by
  induction segs with
  | nil => rfl
  | cons g r ih =>
    obtain ⟨hpos, hend, hline⟩ := hsegs g List.mem_cons_self
    have hat : BytesAt s q .read (src + BitVec.ofNat 64 g.1) g.2 (fun i => ps (g.1 + i)) := fun i hi => h.drop g.1 i (by omega)
    have hread (carry : Bool) (fuel : Nat) (hfuel : 2 ≤ fuel) := hat.ctxReadSpan hs carry (fuel := fuel) (.inr (by omega))
    have hplain : s.qRead q (src + BitVec.ofNat 64 g.1) g.2 = .ok (bytesOf s (fun i => ps (g.1 + i)) g.2) := hread _ _ (by omega)
    simp only [State.segReads, hread true 3 (by omega), hplain, ih fun g' hg' => hsegs g' (List.mem_cons_of_mem _ hg')]
    rfl

/-! ## Writing the lines -/

/-- The destination of a COPY: each byte has a place of its own, which the front-end can write and whose page its TLB holds. -/
def DestOk (s : State) (q : Queue) (dst : Word) (n : Nat) (pd : Nat → Place) : Prop :=
  ∀ i, i < n → QAt s q .write (dst + BitVec.ofNat 64 i) 1 (pd i) ∧ QCached s q (dst + BitVec.ofNat 64 i) ∧
    ∀ j, j < n → (pd i).key = (pd j).key → i = j

section
variable {s : State} {q : Queue} {dst : Word} {n : Nat} {pd : Nat → Place} (hs : StateOk s) (hdst : DestOk s q dst n pd)
include hs hdst

/-- A line of the destination lies in a row of places that can be written. -/
theorem DestOk.line {g : Nat × Nat} (hg : IsLine dst.toNat n g) :
    QAt s q .write (dst + BitVec.ofNat 64 g.1) g.2 (pd g.1) ∧ QCached s q (dst + BitVec.ofNat 64 g.1) ∧
    ∀ j, j < g.2 → (pd (g.1 + j)).key = (pd g.1).key + j := by
  have hpage := hg.page
  obtain ⟨hpos, hend, -⟩ := hg
  obtain ⟨⟨-, -, howed, hx⟩, hcached, -⟩ := hdst g.1 (by omega)
  have hall : BytesAt s q .write dst n pd := fun i hi => (hdst i hi).1
  have hat := hall.drop g.1
  exact ⟨⟨hpage, hat.poisoned hs (by omega) hpos hpage, howed, hx⟩, hcached, fun j hj => hat.key hs (by omega) (by omega)⟩

/-- What a line that is written leaves, whatever lines were written before it. -/
theorem DestOk.writeLine (val : Nat → Byte) {t : State} (ht : OnlyCopied q s t) (hm : MemOk t) {g : Nat × Nat} (hg : IsLine dst.toNat n g) :
    ∃ u, t.ctxWrite q.home q.ctx (dst + BitVec.ofNat 64 g.1) (lineSeg val g).bytes = .ok u ∧ OnlyCopied q s u ∧ MemOk u ∧
      (∀ j, g.1 ≤ j → j < g.1 + g.2 → Memory.read u.mem (pd j).key = val j) ∧
      ∀ a, (∀ j, g.1 ≤ j → j < g.1 + g.2 → (pd j).key ≠ a) → Memory.read u.mem a = Memory.read t.mem a := by
  obtain ⟨hat, hcached, hkeys⟩ := hdst.line hs hg
  have hlen : (lineSeg val g).bytes.length = g.2 := by simp [lineSeg]
  have hput : QAt t q .write (dst + BitVec.ofNat 64 g.1) (lineSeg val g).bytes.length (pd g.1) := by
    rw [hlen]; exact ht.qAt hcached hat
  obtain ⟨-, -, hsame, hholds⟩ := qPut_spec hput hm
  rw [hlen] at hsame
  refine ⟨_, ctxWrite_of_qAt hput, ht.trans (.qPut (hput.2.2.1 rfl) _), memOk_qPut hput hm, fun j hlo hhi => ?_, fun a ha => hsame a ?_⟩
  · obtain ⟨i, rfl⟩ := Nat.exists_eq_add_of_le hlo
    have hi := hholds i (by omega)
    rw [← hkeys i (by omega)] at hi
    simpa [lineSeg, show i < g.2 by omega] using hi
  · by_contra hin
    refine ha (g.1 + (a - (pd g.1).key)) (by omega) (by omega) ?_
    rw [hkeys _ (by omega)]
    omega

/-- The lines that are written hold the bytes, and every byte outside them is as it was. -/
theorem DestOk.segWrites (val : Nat → Byte) (segs : List (Nat × Nat)) (hsegs : ∀ g ∈ segs, IsLine dst.toNat n g) {t : State}
    (ht : OnlyCopied q s t) (hm : MemOk t) (i : Nat) :
    ∃ u, t.segWrites q dst (segs.map (lineSeg val)) i = (u, none) ∧ OnlyCopied q s u ∧
      (∀ g ∈ segs, ∀ j, g.1 ≤ j → j < g.1 + g.2 → Memory.read u.mem (pd j).key = val j) ∧
      ∀ a, (∀ g ∈ segs, ∀ j, g.1 ≤ j → j < g.1 + g.2 → (pd j).key ≠ a) → Memory.read u.mem a = Memory.read t.mem a := by
  induction segs generalizing t i with
  | nil => exact ⟨t, rfl, ht, fun _ hg => (List.not_mem_nil hg).elim, fun _ _ => rfl⟩
  | cons g r ih =>
    have hg := hsegs g List.mem_cons_self
    obtain ⟨v, hwrite, hv, hmv, hbytes, hrest⟩ := hdst.writeLine hs val ht hm hg
    obtain ⟨w, hw⟩ : ∃ w, w = v.qWrote q (dst + BitVec.ofNat 64 g.1) := ⟨_, rfl⟩
    have hmem : w.mem = v.mem := by rw [hw, qWrote_mem]
    obtain ⟨u, hu, hcopied, hin, hout⟩ := ih (fun g' hg' => hsegs g' (List.mem_cons_of_mem _ hg')) (t := w)
      (by rw [hw]; exact hv.trans (.qWrote q v _)) (by rw [MemOk, hmem]; exact hmv) (i + 1)
    rw [hmem] at hout
    refine ⟨u, ?_, hcopied, fun g' hg' j hlo hhi => ?_, fun a ha => ?_⟩
    · rw [← hu, hw, List.map_cons]
      simp only [State.segWrites, lineSeg, Bool.false_eq_true, if_false] at hwrite ⊢
      rw [hwrite]
    · by_cases hlater : ∃ g'' ∈ r, g''.1 ≤ j ∧ j < g''.1 + g''.2
      · obtain ⟨g'', hg'', hcover⟩ := hlater
        exact hin g'' hg'' j hcover.1 hcover.2
      · obtain rfl : g' = g := (List.mem_cons.mp hg').resolve_right fun hr => hlater ⟨g', hr, hlo, hhi⟩
        rw [hout _ fun g'' hg'' j' hlo' hhi' hkey => ?_, hbytes j hlo hhi]
        obtain ⟨-, hend, -⟩ := hsegs g'' (List.mem_cons_of_mem _ hg'')
        obtain ⟨-, hend', -⟩ := hg
        obtain rfl := (hdst j' (by omega)).2.2 j (by omega) hkey
        exact hlater ⟨g'', hg'', hlo', hhi'⟩
    · rw [hout a fun g' hg' => ha g' (List.mem_cons_of_mem _ hg'), hrest a (ha g List.mem_cons_self)]

/-- A COPY's lines, written after its source was counted: the destination holds the bytes, and the rest of memory is as it was. -/
theorem DestOk.copyLines (val : Nat → Byte) (vas : List Word) :
    ∃ u, (s.qCounts q vas).segWrites q dst ((copySegs dst.toNat 0 n (n + 1)).map (lineSeg val)) 0 = (u, none) ∧ OnlyCopied q s u ∧
      (∀ i, i < n → Memory.read u.mem (pd i).key = val i) ∧
      ∀ a, (∀ i, i < n → (pd i).key ≠ a) → Memory.read u.mem a = Memory.read s.mem a := by
  obtain ⟨hcounts, hmem⟩ := OnlyCopied.qCounts q s vas
  have hlines : ∀ g ∈ copySegs dst.toNat 0 n (n + 1), IsLine dst.toNat n g := fun g hg => isLine_of_mem_copySegs hg
  obtain ⟨u, hu, hcopied, hin, hout⟩ := hdst.segWrites hs val _ hlines hcounts (by rw [MemOk, hmem]; exact hs.1) 0
  refine ⟨u, hu, hcopied, fun i hi => ?_, fun a ha => ?_⟩
  · obtain ⟨g, hg, hlo, hhi⟩ := copySegs_cover (dst := dst.toNat) (off := 0) (fuel := n + 1) (by omega) (Nat.zero_le i) hi
    exact hin g hg i hlo hhi
  · rw [hout a fun g hg j hlo hhi => ha j ?_, hmem]
    have hend := (hlines g hg).2.1
    omega

end

/-! ## COPY and its completion -/

section
variable {s : State} {q : Queue} {dst : Word} {n : Nat} {pd : Nat → Place} (hs : StateOk s) (hdst : DestOk s q dst n pd)
include hs hdst

/-- A plain COPY whose source can be read: its bytes as they stood (R91). -/
theorem DestOk.copyPlain {src : Word} {ps : Nat → Place} (hsrc : BytesAt s q .read src n ps) :
    ∃ u, s.copyPlain q dst src n = (u, 0) ∧ OnlyCopied q s u ∧
      (∀ i, i < n → Memory.read u.mem (pd i).key = Memory.read s.mem (ps i).key) ∧
      ∀ a, (∀ i, i < n → (pd i).key ≠ a) → Memory.read u.mem a = Memory.read s.mem a := by
  have hread := hsrc.segReads hs (dst := dst.toNat) (copySegs dst.toNat 0 n (n + 1)) fun g hg => isLine_of_mem_copySegs hg
  obtain ⟨vas, hvas⟩ : ∃ vas, vas = ((copySegs dst.toNat 0 n (n + 1)).map (lineSeg fun i => Memory.read s.mem (ps i).key)).map
      (fun b => src + BitVec.ofNat 64 b.off) := ⟨_, rfl⟩
  obtain ⟨u, hu, hcopied⟩ := hdst.copyLines hs (fun i => Memory.read s.mem (ps i).key) vas
  refine ⟨u, ?_, hcopied⟩
  simp only [State.copyPlain, hread, ← hvas, hu]

/-- A decrypting COPY whose tag authenticates: the plain bytes of its chunk (R78). -/
theorem DestOk.copySealed {src chunk : Word} {bs plain : List Byte}
    (hsecure : spanAll (s.pageSecure q.home q.ctx) dst n (n / 65536 + 2) = true) (hread : s.qRead q src (n + 16) = .ok bs)
    (hsealed : (s.context q.ctx).flags.getLsbD 2 = true)
    (hopen : openChunk (s.keys.getD (s.context q.ctx).keySlot.toNat 0) chunk (bs.take n) (bs.drop n) = some plain)
    (hlen : plain.length = n) :
    ∃ u, s.copySealed q dst src chunk n = (u, 0) ∧ OnlyCopied q s u ∧
      (∀ i, i < n → some (Memory.read u.mem (pd i).key) = plain[i]?) ∧
      ∀ a, (∀ i, i < n → (pd i).key ≠ a) → Memory.read u.mem a = Memory.read s.mem a := by
  have hlines : (copySegs dst.toNat 0 n (n + 1)).map (fun (off, k) => (⟨off, (plain.drop off).take k, false⟩ : SegBytes)) =
      (copySegs dst.toNat 0 n (n + 1)).map (lineSeg fun i => plain.getD i 0) := by
    refine List.map_congr_left fun g hg => ?_
    have hend := (isLine_of_mem_copySegs hg).2.1
    have hbytes : (plain.drop g.1).take g.2 = (List.range g.2).map (fun j => plain.getD (g.1 + j) 0) := by
      refine List.ext_getElem (by simp; omega) fun j hj hj' => ?_
      have hin : g.1 + j < plain.length := by simp at hj'; omega
      simp [hin]
    simp only [lineSeg, hbytes]
  obtain ⟨vas, hvas⟩ : ∃ vas, vas = (List.range ((n + 79) / 64)).map (fun i => src + BitVec.ofNat 64 (64 * i)) := ⟨_, rfl⟩
  obtain ⟨u, hu, hcopied, hin, hout⟩ := hdst.copyLines hs (fun i => plain.getD i 0) vas
  refine ⟨u, ?_, hcopied, fun i hi => ?_, hout⟩
  · simp only [State.copySealed, hsecure, hread, hsealed, hopen, ← hvas, Bool.not_true, Bool.false_eq_true, if_false, if_true,
      Option.getD_some, Option.isSome_some]
    rw [hlines, hu]
  · rw [hin i hi]
    simp [hlen ▸ hi]

end

/-- A COPY that has written its bytes is outstanding (R91). -/
theorem copyStep_started {s u : State} {k : Nat} {pre : List Command} {c : Command} (hready : Ready s k 2 pre c)
    (hu : OnlyCopied (s.queue k) s u) (cw : Word) :
    let t := u.updQueue k (fun q => q.updCmd c.index (fun c => { c with started := true, cw := cw }))
    CopyStep k s t ∧ t.queue k = { s.queue k with cmds := pre ++ [{ c with started := true, cw := cw }] } := by
  have hupd := updCmd_of_ready hready (fun c => { c with started := true, cw := cw })
  have hqueues : u.queues = s.queues := (congrArg State.queues hu.only :)
  have hqueue (j : Nat) : u.queue j = s.queue j := by rw [State.queue, hqueues]; rfl
  have hstate := hready.1
  refine ⟨⟨?_, fun j hj => (queue_updQueue_ne _ _ hj).trans (hqueue j), fun d => ?_⟩, ?_⟩
  · exact (congrArg (fun t : State => { t with queues := s.queues }) hu.only :)
  · have hd : { u.die d with clock := (s.die d).clock, counters := (s.die d).counters, crossings := (s.die d).crossings,
                             moves := (s.die d).moves, periodStart := (s.die d).periodStart, periodLen := (s.die d).periodLen }
        = s.die d := hu.dies d
    exact (congrArg (fun e : Die => { e with tlb := (s.die d).tlb, l1Tlb := (s.die d).l1Tlb, fmCache := (s.die d).fmCache }) hd :)
  · rw [queue_updQueue (by rw [hqueue, hupd]; simp [hstate]), hqueue, hupd]

/-- What a COPY does where it need not wait. -/
theorem execCopyCmd_eq {s : State} {k : Nat} {pre : List Command} {c : Command} (hready : Ready s k 2 pre c)
    (hfree : s.qBlocked (s.queue k) (cutW c.bytes 0x10) (cutN c.bytes 0x20 4) = false)
    (hheld : s.qHeld (s.queue k) (cutW c.bytes 0x18) (cutN c.bytes 0x20 4 + 16) = false) {u : State} {cw : Word}
    (hcopy : (if cutN c.bytes 0x24 1 % 2 = 1 then
        s.copySealed (s.queue k) (cutW c.bytes 0x10) (cutW c.bytes 0x18) (cutW c.bytes 0x28) (cutN c.bytes 0x20 4)
      else s.copyPlain (s.queue k) (cutW c.bytes 0x10) (cutW c.bytes 0x18) (cutN c.bytes 0x20 4)) = (u, cw)) :
    exec (.copyCmd k) s = .next (u.updQueue k (fun q => q.updCmd c.index (fun c => { c with started := true, cw := cw }))) := by
  have hexec : exec (.copyCmd k) s = execCopyCmd k s := rfl
  simp only [hexec, execCopyCmd, startable_of_ready hready, hfree, hheld, Bool.or_self, Bool.false_eq_true, if_false, hcopy]

/-- The completion of a COPY (R92, R95). -/
theorem copyCommandComplete_spec {s : State} {k : Nat} {c : Command} {p : Place} (hstate : (s.queue k).desc.state ≠ 4)
    (hfind : (s.queue k).cmds.find? (fun e => e.op == 2 && e.outstanding) = some c)
    (hfree : s.qBlocked (s.queue k) (c.entryAddr + 0x38) 8 = false) (hlink : s.linkPending (s.queue k).source = false)
    (hheld : s.qHeld (s.queue k) (cutW c.bytes 0x10) (cutN c.bytes 0x20 4) = false) (hm : MemOk s)
    (hat : QAt s (s.queue k) .write (c.entryAddr + 0x38) 8 p) :
    ∃ t, exec (.copyCommandComplete k) s = .next t ∧ QueueStep k s t ∧ MemSameBut s t p.key 8 ∧
      Holds t p.key (leBytes 8 c.cw.toNat) ∧
      t.queue k = (s.queue k).updCmd c.index (fun e => e.finish c.cw
        (sha256 (t.readRanges (s.queue k).home (s.queue k).ctx [(cutW c.bytes 0x10, cutN c.bytes 0x20 4)]))) := by
  have hput : QAt s (s.queue k) .write (c.entryAddr + 0x38) (leBytes 8 c.cw.toNat).length p := by rwa [leBytes_length]
  obtain ⟨hqueues, hstep, hsame, hholds⟩ := qPut_spec hput hm
  rw [leBytes_length] at hsame
  have hexec : exec (.copyCommandComplete k) s = execCopyCommandComplete k s := rfl
  simp only [execCopyCommandComplete, hfind, hfree, hlink, hheld, qWrite_of_qAt hput (by simp), Bool.or_self, Bool.false_eq_true,
    if_false] at hexec
  have hqueue : (s.qPut (s.queue k) p (leBytes 8 c.cw.toNat)).queue k = s.queue k := by rw [State.queue, hqueues]; rfl
  refine ⟨_, hexec, queueStep_setQueue hstep hqueues k _, fun a ha => hsame a ha, fun i hi => hholds i hi, ?_⟩
  rw [State.finishCmd, (sameReads_updQueue _ k _).readRanges, queue_updQueue (by rw [hqueue]; exact hstate), hqueue]

end Machine

theorem copyCommandsMoveBytes : CopyCommandsMoveBytes := by
  intro s k pre c ps pd pc bs plain
  refine ⟨fun hs hready hfree hheld hdst hplain hsrc => ?_,
    fun hs hready hfree hheld hdst hsealed hsecure hread hkey hopen hlen => ?_, copyCommandComplete_spec⟩
  · obtain ⟨u, hcopy, hu, hbytes, hrest⟩ := DestOk.copyPlain hs hdst hsrc
    obtain ⟨hstep, hqueue⟩ := copyStep_started hready hu 0
    exact ⟨_, execCopyCmd_eq hready hfree hheld (by rw [if_neg hplain]; exact hcopy), hstep, hqueue, hbytes, hrest⟩
  · obtain ⟨u, hcopy, hu, hbytes, hrest⟩ := DestOk.copySealed hs hdst hsecure hread hkey hopen hlen
    obtain ⟨hstep, hqueue⟩ := copyStep_started hready hu 0
    exact ⟨_, execCopyCmd_eq hready hfree hheld (by rw [if_pos hsealed]; exact hcopy), hstep, hqueue, hbytes, hrest⟩

/-- Settles O55: a COPY writes its destination line by line through pages that the TLB holds, each line leaving the places of the others
as they were; a LAUNCH is its header's answer; and each completion is one write of the entry. -/
theorem copyAndLaunchCommands : Obligations.CopyAndLaunchCommands := by
  unfold Obligations.CopyAndLaunchCommands
  exact ⟨copyCommandsMoveBytes, launchesStartAndComplete⟩

end Sys2Proof
end


section
/-! PROOFS. What firmware asks of a queue (R87, R88, R93, R94). -/

namespace Sys2Proof
open Machine Claims
namespace Machine

/-- Bytes that are all zero. -/
theorem leBytes_zero (n : Nat) : leBytes n 0 = List.replicate n 0 := by
  induction n with
  | zero => rfl
  | succ n ih => rw [leBytes, List.replicate_succ, Nat.zero_div, ih]; rfl

/-! ## Creating a queue -/

/-- The record of a queue that is created (R87). -/
def createdQueue (d : QueueDesc) (old : Queue) : Queue :=
  { desc := { d with state := 1 }, nextAddr := d.first, notify := old.notify, pending := old.pending }

theorem queueCreate_free {s : State} {d : QueueDesc} {p : Place} (hm : MemOk s) (hlimit : d.queueId.toNat < 1024)
    (hstate : (s.queue d.queueId.toNat).desc.state = 0)
    (hfree : s.qBlocked (createdQueue d (s.queue d.queueId.toNat)) (d.qcb + 8) 48 = false)
    (hat : QAt s (createdQueue d (s.queue d.queueId.toNat)) .write (d.qcb + 8) 48 p) :
    ∃ t, exec (.queueCreate d) s = .next t ∧ QueueStep d.queueId.toNat s t ∧
      t.queue d.queueId.toNat = createdQueue d (s.queue d.queueId.toNat) ∧ Holds t p.key (List.replicate 48 0) ∧ MemSameBut s t p.key 48 := by
  obtain ⟨q, hq⟩ : ∃ q, q = createdQueue d (s.queue d.queueId.toNat) := ⟨_, rfl⟩
  rw [← hq] at hfree hat ⊢
  have hput : QAt s q .write (d.qcb + 8) (leBytes 48 0).length p := by rwa [leBytes_length]
  obtain ⟨hqueues, hstep, hsame, hholds⟩ := qPut_spec hput hm
  rw [leBytes_length] at hsame
  have hexec : exec (.queueCreate d) s = .next ((s.qWrite q (d.qcb + 8) (leBytes 48 0)).setQueue d.queueId.toNat q) := by
    have hnot : ¬(queueLimit ≤ d.queueId.toNat ∨ (s.queue d.queueId.toNat).desc.state ≠ 0 ∨ s.qBlocked q (d.qcb + 8) 48 = true) := by
      simp only [queueLimit, hstate, hfree]
      simp; omega
    rw [hq] at hnot ⊢
    exact congrArg Host.Outcome.next (if_neg hnot)
  rw [qWrite_of_qAt hput (by simp)] at hexec
  refine ⟨_, hexec, queueStep_setQueue hstep hqueues _ q, State.queue_setQueue _ _ _, fun i hi => ?_, fun a ha => hsame a ha⟩
  rw [← leBytes_zero] at hi ⊢
  exact hholds i hi

theorem queueCreate_taken {s : State} {d : QueueDesc}
    (h : 1024 ≤ d.queueId.toNat ∨ (s.queue d.queueId.toNat).desc.state ≠ 0) : exec (.queueCreate d) s = .next s :=
  congrArg Host.Outcome.next (if_pos (h.imp id Or.inl))

/-! ## Starting and destroying it -/

theorem queueStart_stopped {s : State} {k : Nat} (h : (s.queue k).desc.state = 1) :
    exec (.queueStart k) s = .next (s.setQueue k { (s.queue k).to 2 with noticed := true }) :=
  congrArg Host.Outcome.next (if_pos h)

theorem queueStart_other {s : State} {k : Nat} (h : (s.queue k).desc.state ≠ 1) : exec (.queueStart k) s = .next s :=
  congrArg Host.Outcome.next (if_neg h)

theorem queueDestroy_ended {s : State} {k : Nat} (h : (s.queue k).desc.state = 1 ∨ (s.queue k).desc.state = 5) :
    exec (.queueDestroy k) s = .next (s.setQueue k { notify := (s.queue k).notify, pending := (s.queue k).pending }) :=
  congrArg Host.Outcome.next (if_pos h)

theorem queueDestroy_other {s : State} {k : Nat} (h1 : (s.queue k).desc.state ≠ 1) (h5 : (s.queue k).desc.state ≠ 5) :
    exec (.queueDestroy k) s = .next s :=
  congrArg Host.Outcome.next (if_neg fun h => h.elim h1 h5)

/-! ## Stopping it -/

/-- A WAITC that is abandoned counts as not started (R93). -/
def Command.abandoned (c : Command) : Command := if c.op = 3 ∧ c.outstanding = true then { c with started := false } else c

theorem outstanding_abandoned (c : Command) : c.abandoned.outstanding = (c.op != 3 && c.outstanding) := by
  by_cases hwait : c.op = 3 ∧ c.outstanding = true
  · have hab : c.abandoned = { c with started := false } := if_pos hwait
    simp [hab, hwait.1, Command.outstanding]
  · have hab : c.abandoned = c := if_neg hwait
    by_cases hop : c.op = 3 <;> simp_all

/-- The record of a queue that firmware has stopped, while it drains. -/
def Queue.draining (q : Queue) : Queue := { q.to 4 with cmds := q.cmds.map Command.abandoned }

/-- A draining queue keeps draining while a command other than a WAITC is outstanding (R93). -/
theorem settle_draining (q : Queue) : ∃ st : BitVec 8, q.draining.settle = { q with desc := { q.desc with state := st }, cmds := q.cmds.map Command.abandoned } ∧
    (st = 1 ∨ st = 4) ∧ (st = 1 ↔ ∀ c ∈ q.cmds, c.op ≠ 3 → c.outstanding = false) := by
  have hbusy : q.draining.cmds.any Command.outstanding = false ↔ ∀ c ∈ q.cmds, c.op ≠ 3 → c.outstanding = false := by
    rw [List.any_eq_false]
    simp [Queue.draining, outstanding_abandoned]
  cases hany : q.draining.cmds.any Command.outstanding with
  | false =>
    refine ⟨1, ?_, .inl rfl, by simp [← hbusy, hany]⟩
    exact if_pos ⟨rfl, by simp [hany]⟩
  | true =>
    refine ⟨4, ?_, .inr rfl, by simp [← hbusy, hany]⟩
    exact if_neg fun h => by simp [hany] at h

theorem queueStop_running {s : State} {k : Nat} (h : (s.queue k).desc.state = 2 ∨ (s.queue k).desc.state = 3) :
    exec (.queueStop k) s = .next (s.setQueue k (s.queue k).draining.settle) :=
  congrArg Host.Outcome.next (if_pos h)

theorem queueStop_other {s : State} {k : Nat} (h2 : (s.queue k).desc.state ≠ 2) (h3 : (s.queue k).desc.state ≠ 3) :
    exec (.queueStop k) s = .next s :=
  congrArg Host.Outcome.next (if_neg fun h => h.elim h2 h3)

/-! ## Going on after an error -/

section
variable {s : State} {k : Nat} {e : QueueStop} (hstate : (s.queue k).desc.state = 5) (herr : (s.queue k).err = some e)
include hstate herr

theorem queueSkip_failed (next : Word) : exec (.queueSkip k next) s = .next (s.setQueue k
    { (s.queue k).to 2 with next := e.index + 1, nextAddr := e.after next, cmds := (s.queue k).cmds ++ [e.skipped], err := none, noticed := true }) := by
  have hexec : exec (.queueSkip k next) s = execQueueSkip k next s := rfl
  simp only [hexec, execQueueSkip, herr, hstate, ne_eq, not_true_eq_false, if_false]

theorem queueRetry_failed : exec (.queueRetry k) s = .next (s.setQueue k
    { (s.queue k).to 2 with next := e.index, nextAddr := e.addr, err := none, noticed := true }) := by
  have hexec : exec (.queueRetry k) s = execQueueRetry k s := rfl
  simp only [hexec, execQueueRetry, herr, hstate, ne_eq, not_true_eq_false, if_false]

end

theorem queueSkip_queueRetry_other {s : State} {k : Nat} (h : (s.queue k).desc.state ≠ 5) (next : Word) :
    exec (.queueSkip k next) s = .next s ∧ exec (.queueRetry k) s = .next s := by
  have hskip : exec (.queueSkip k next) s = execQueueSkip k next s := rfl
  have hretry : exec (.queueRetry k) s = execQueueRetry k s := rfl
  rw [hskip, hretry, execQueueSkip, execQueueRetry]
  cases (s.queue k).err with
  | none => exact ⟨rfl, rfl⟩
  | some e => exact ⟨congrArg Host.Outcome.next (if_pos h), congrArg Host.Outcome.next (if_pos h)⟩

/-- An entry that was read and whose NEXT is aligned names the entry after it; of any other firmware does (R94). -/
theorem QueueStop.after_spec (e : QueueStop) (next : Word) :
    (∀ bs, e.entry = some bs → cutN bs 8 8 % 64 = 0 → e.after next = cutW bs 8) ∧
    ((e.entry = none ∨ ∃ bs, e.entry = some bs ∧ cutN bs 8 8 % 64 ≠ 0) → e.after next = next) := by
  refine ⟨fun bs hbs hnext => ?_, fun h => ?_⟩
  · simp [QueueStop.after, hbs, hnext]
  · obtain hnone | ⟨bs, hbs, hnext⟩ := h
    · simp [QueueStop.after, hnone]
    · simp [QueueStop.after, hbs, hnext]

end Machine

/-- Settles O28: each event of firmware is one write of the queue's record, in the states of R93 that allow it, and nothing in the others;
a stopped queue drains exactly while a command other than a WAITC is outstanding. -/
theorem queueLifecycle : Obligations.QueueLifecycle := by
  unfold Obligations.QueueLifecycle
  intro s d k p e next
  refine ⟨queueCreate_free, queueCreate_taken, fun h => ⟨_, queueStart_stopped h, s.setQueue_onlyQueue k _, State.queue_setQueue _ _ _⟩,
    queueStart_other, fun h => ?_, queueStop_other, fun hstate herr => ⟨?_, ?_⟩, fun h => queueSkip_queueRetry_other h next, fun h => ?_,
    queueDestroy_other⟩
  · obtain ⟨st, hsettle, hst⟩ := settle_draining (s.queue k)
    exact ⟨_, st, queueStop_running h, s.setQueue_onlyQueue k _, (State.queue_setQueue _ _ _).trans hsettle, hst⟩
  · refine ⟨_, e.skipped, queueSkip_failed hstate herr next, s.setQueue_onlyQueue k _, ?_, rfl, rfl, rfl, rfl, rfl, ?_⟩
    · rw [State.queue_setQueue]; rfl
    · rw [State.queue_setQueue]; exact e.after_spec next
  · exact ⟨_, queueRetry_failed hstate herr, s.setQueue_onlyQueue k _, State.queue_setQueue _ _ _⟩
  · refine ⟨_, queueDestroy_ended h, s.setQueue_onlyQueue k _, ?_⟩
    rw [State.queue_setQueue]
    exact ⟨rfl, rfl, rfl, rfl⟩

end Sys2Proof
end

section
/-! PROOFS. TAIL, and the fetch of entries (R89, R92, R333). -/

namespace Sys2Proof
open Machine Claims
namespace Machine

/-! ## Reads of a queue's front-end (R205) -/

/-- Bytes of one page are read whole. -/
theorem qRead_of_qAt {s : State} {q : Queue} {va : Word} {n : Nat} {p : Place} (h : QAt s q .read va n p) (hpos : 0 < n) :
    s.qRead q va n = .ok (s.readPlace p n) := by
  obtain ⟨hpage, hclean, -, x, hx, hp⟩ := h
  have hmin : min n (65536 - va.toNat % 65536) = n := by omega
  simp only [State.qRead, State.ctxReadSpan, Nat.ne_of_gt hpos, hmin, hx, hp, hclean, Nat.sub_self, Bool.and_false, Bool.false_eq_true,
    if_false, if_true, List.append_nil]

/-- A word that lies in one page is the number its bytes hold. -/
theorem qWord_of_qAt {s : State} {q : Queue} {va : Word} {p : Place} (hm : MemOk s) (h : QAt s q .read va 8 p) :
    s.qWord q va = memNat s p.key 8 := by
  simp only [State.qWord, qRead_of_qAt h (by omega), State.readPlace, leNat_readBytes s hm]

/-- An address with no translation cannot be read. -/
theorem qRead_of_error {s : State} {q : Queue} {va : Word} {n c : Nat} (hpos : 0 < n)
    (h : s.translate q.home q.ctx ((s.context q.ctx).flags.getLsbD 0) .read va = .error c) : s.qRead q va n = .error c := by
  simp only [State.qRead, State.ctxReadSpan, Nat.ne_of_gt hpos, h, if_false]

/-! ## TAIL (R89, R333) -/

theorem tailStoreNoticed_spec {s : State} {k : Nat} {p : Place} (hm : MemOk s) (hat : QAt s (s.queue k) .read (s.queue k).desc.qcb 8 p)
    (hheld : s.qHeld (s.queue k) (s.queue k).desc.qcb 8 = false) (hstate : (s.queue k).desc.state ≠ 0)
    (htail : (s.queue k).next < memNat s p.key 8) :
    exec (.tailStoreNoticed k) s = .next (s.setQueue k { s.queue k with noticed := true }) :=
  congrArg Host.Outcome.next (if_pos ⟨hstate, hheld, by rwa [qWord_of_qAt hm hat]⟩)

section
variable {s : State} {n : Nat} (hport : (s.port 16).usable = true) (hposts : s.hostPosts = [])
include hport hposts

/-- A doorbell that waits for nothing is performed at once (R333). -/
theorem doorbellTailWrite_eq (v : Word) (hfree : s.postBlocked (.tail (n % 1024) v) = false) :
    exec (.doorbellTailWrite n v) s = .next (s.doorbell (n % 1024) v) := by
  have hexec : exec (.doorbellTailWrite n v) s = .next (s.receive [.tail (n % 1024) v]) := if_pos hport
  rw [hexec, State.receive_one s _ hposts hfree]
  rfl

theorem doorbellTailWrite_raises {v : Word} {p : Place} (hm : MemOk s) (hstate : (s.queue (n % 1024)).desc.state ≠ 0)
    (hfree : s.qBlocked (s.queue (n % 1024)) (s.queue (n % 1024)).desc.qcb 8 = false)
    (hread : QAt s (s.queue (n % 1024)) .read (s.queue (n % 1024)).desc.qcb 8 p)
    (hwrite : QAt s (s.queue (n % 1024)) .write (s.queue (n % 1024)).desc.qcb 8 p) :
    ∃ t, exec (.doorbellTailWrite n v) s = .next t ∧ QueueStep (n % 1024) s t ∧
      t.queue (n % 1024) = { s.queue (n % 1024) with noticed := true } ∧
      Holds t p.key (leBytes 8 (max (memNat s p.key 8) v.toNat)) ∧ MemSameBut s t p.key 8 := by
  have hput : QAt s (s.queue (n % 1024)) .write (s.queue (n % 1024)).desc.qcb (leBytes 8 (max (memNat s p.key 8) v.toNat)).length p := by
    rwa [leBytes_length]
  obtain ⟨hqueues, hstep, hsame, hholds⟩ := qPut_spec hput hm
  rw [leBytes_length] at hsame
  have hbell : s.doorbell (n % 1024) v = (s.qPut (s.queue (n % 1024)) p (leBytes 8 (max (memNat s p.key 8) v.toNat))).setQueue
      (n % 1024) { s.queue (n % 1024) with noticed := true } := by
    simp only [State.doorbell, hstate, if_false, qRead_of_qAt hread (by omega), State.readPlace, leNat_readBytes s hm,
      qWrite_of_qAt hput (by simp)]
  refine ⟨_, doorbellTailWrite_eq hport hposts v (by simp [State.postBlocked, hfree]), ?_⟩
  rw [hbell]
  exact ⟨queueStep_setQueue hstep hqueues _ _, State.queue_setQueue _ _ _, fun i hi => hholds i hi, fun a ha => hsame a ha⟩

/-- The doorbell of a free queue is discarded and counted (R333). -/
theorem doorbellTailWrite_free (v : Word) (hstate : (s.queue (n % 1024)).desc.state = 0) :
    exec (.doorbellTailWrite n v) s = .next (s.countError 16) := by
  rw [doorbellTailWrite_eq hport hposts v (by simp [State.postBlocked, hstate])]
  exact congrArg Host.Outcome.next (if_pos hstate)

end

/-! ## The fetch of an entry (R89, R92) -/

/-- The command of an entry that is fetched (R90). -/
def Queue.fetched (q : Queue) (bs : List Byte) : Command :=
  { index := q.next, entryAddr := q.nextAddr, op := cutN bs 0 1, bar := cutN bs 1 1 == 1, bytes := bs,
    lid := if cutN bs 0 1 = 1 then cutN bs 0x24 4 else 0 }

section
variable {s : State} {k : Nat} {p : Place} (hm : MemOk s) (hstate : (s.queue k).desc.state = 2) (hnoticed : (s.queue k).noticed = true)
  (hlast : ∀ c, (s.queue k).cmds.getLast? = some c → c.started = true ∨ c.complete = true)
  (hat : QAt s (s.queue k) .read (s.queue k).desc.qcb 8 p) (hqcb : s.qHeld (s.queue k) (s.queue k).desc.qcb 8 = false)
  (hentry : s.qHeld (s.queue k) (s.queue k).nextAddr 64 = false)
include hm hstate hnoticed hlast hat hqcb hentry

/-- What a queue does that is to fetch and waits for nothing. -/
theorem entryFetch_eq : exec (.entryFetch k) s = .next
    (if memNat s p.key 8 ≤ (s.queue k).next then s.setQueue k { s.queue k with noticed := false }
    else match s.qRead (s.queue k) (s.queue k).nextAddr 64 with
      | .error _ => s.queueError k ⟨(s.queue k).next, 3, (s.queue k).nextAddr, none⟩
      | .ok bs => match s.entryStop (s.queue k) bs with
        | some c => s.queueError k ⟨(s.queue k).next, c, (s.queue k).nextAddr, some bs⟩
        | none => s.setQueue k { s.queue k with next := (s.queue k).next + 1, nextAddr := cutW bs 8,
                                                cmds := (s.queue k).cmds ++ [(s.queue k).fetched bs] }) := by
  have hwaiting : (s.queue k).waitingCmd = none := by
    cases hget : (s.queue k).cmds.getLast? with
    | none => simp [Queue.waitingCmd, hget]
    | some c => simp [Queue.waitingCmd, hget, hlast c hget]
  have hexec : exec (.entryFetch k) s = execEntryFetch k s := rfl
  simp only [hexec, execEntryFetch, hstate, hnoticed, hwaiting, hqcb, hentry, qWord_of_qAt hm hat, ne_eq, not_true_eq_false, Bool.not_true,
    Option.isSome_none, Bool.or_self, Bool.false_eq_true, or_self, if_false]
  rfl

theorem entryFetch_behind (htail : memNat s p.key 8 ≤ (s.queue k).next) :
    exec (.entryFetch k) s = .next (s.setQueue k { s.queue k with noticed := false }) := by
  rw [entryFetch_eq hm hstate hnoticed hlast hat hqcb hentry, if_pos htail]

theorem entryFetch_fetches {pe : Place} (htail : (s.queue k).next < memNat s p.key 8)
    (hread : QAt s (s.queue k) .read (s.queue k).nextAddr 64 pe) (hgood : s.entryStop (s.queue k) (s.readPlace pe 64) = none) :
    exec (.entryFetch k) s = .next (s.setQueue k { s.queue k with
      next := (s.queue k).next + 1, nextAddr := cutW (s.readPlace pe 64) 8,
      cmds := (s.queue k).cmds ++ [(s.queue k).fetched (s.readPlace pe 64)] }) := by
  rw [entryFetch_eq hm hstate hnoticed hlast hat hqcb hentry, if_neg (Nat.not_le.mpr htail), qRead_of_qAt hread (by omega)]
  simp only [hgood]

theorem entryFetch_stops {pe pr : Place} {cause : Nat} (htail : (s.queue k).next < memNat s p.key 8)
    (hread : QAt s (s.queue k) .read (s.queue k).nextAddr 64 pe) (hbad : s.entryStop (s.queue k) (s.readPlace pe 64) = some cause)
    (herr : ErrAt s k pr) : ∃ t, exec (.entryFetch k) s = .next t ∧ QueueFails s t k (s.queue k).next cause pr := by
  rw [entryFetch_eq hm hstate hnoticed hlast hat hqcb hentry, if_neg (Nat.not_le.mpr htail), qRead_of_qAt hread (by omega)]
  simp only [hbad]
  exact ⟨_, rfl, queueError_fails herr ⟨(s.queue k).next, cause, (s.queue k).nextAddr, some (s.readPlace pe 64)⟩⟩

theorem entryFetch_unreadable {pr : Place} {c : Nat} (htail : (s.queue k).next < memNat s p.key 8)
    (hbad : s.translate (s.queue k).home (s.queue k).ctx ((s.context (s.queue k).ctx).flags.getLsbD 0) .read (s.queue k).nextAddr = .error c)
    (herr : ErrAt s k pr) : ∃ t, exec (.entryFetch k) s = .next t ∧ QueueFails s t k (s.queue k).next 3 pr := by
  rw [entryFetch_eq hm hstate hnoticed hlast hat hqcb hentry, if_neg (Nat.not_le.mpr htail), qRead_of_error (by omega) hbad]
  exact ⟨_, rfl, queueError_fails herr ⟨(s.queue k).next, 3, (s.queue k).nextAddr, none⟩⟩

end

/-! ## What stops an entry (R92) -/

/-- Bytes that hold the number 0 are all 0. -/
theorem zeroAt_of_cutN {bs : List Byte} {off n : Nat} (h : cutN bs off n = 0) : zeroAt bs off n = true := by
  have hall : ∀ l : List Byte, leNat l = 0 → l.all (· == 0) = true := by
    intro l hl
    induction l with
    | nil => rfl
    | cons b r ih =>
      rw [leNat] at hl
      have hb : b = 0 := BitVec.eq_of_toNat_eq (show b.toNat = 0 by omega)
      rw [List.all_cons, ih (by omega), hb]
      rfl
  exact hall _ h

/-- An OP above 6 is not assigned. -/
theorem entryStop_of_op (s : State) (q : Queue) {bs : List Byte} (h : 6 < cutN bs 0 1) : s.entryStop q bs = some 1 := by
  have hfails : entryFails bs = some 1 := if_pos (.inl h)
  simp only [State.entryStop, hfails]

/-- The next entry of one that is well formed lies at a multiple of 64. -/
theorem entryStop_of_next (s : State) (q : Queue) {bs : List Byte} (hop : cutN bs 0 1 ≤ 6) (hflags : cutN bs 1 1 < 2) (hzero : cutN bs 2 6 = 0)
    (hnamed : zeroAt bs (namedEnd (cutN bs 0 1)) 48 = true) (hcopy : cutN bs 0 1 = 2 → cutN bs 0x24 4 < 2) (hnext : cutN bs 8 8 % 64 ≠ 0) :
    s.entryStop q bs = some 2 := by
  have hwell : ¬(cutN bs 0 1 > 6 ∨ cutN bs 1 1 / 2 ≠ 0 ∨ (!zeroAt bs 2 6) = true ∨ (!zeroAt bs (namedEnd (cutN bs 0 1)) 48) = true ∨
      (cutN bs 0 1 = 2 ∧ cutN bs 0x24 4 / 2 ≠ 0)) := by
    rw [zeroAt_of_cutN hzero, hnamed]
    simp only [Bool.not_true, Bool.false_eq_true, false_or]
    omega
  have hfails : entryFails bs = some 2 := (if_neg hwell).trans (if_pos (.inl hnext))
  simp only [State.entryStop, hfails]

end Machine

/-- Settles O29: the front-end reads TAIL at its place, a doorbell writes the larger of the two back, and an entry is read, checked, and
either joins the commands or stops the queue. -/
theorem entriesAreFetchedOnce : Obligations.EntriesAreFetchedOnce := by
  unfold Obligations.EntriesAreFetchedOnce
  intro s k n v p pe pr
  refine ⟨fun hm hat hheld hstate htail => ⟨_, tailStoreNoticed_spec hm hat hheld hstate htail, s.setQueue_onlyQueue k _,
      State.queue_setQueue _ _ _⟩,
    fun hm hport hposts hstate hfree hread hwrite => doorbellTailWrite_raises hport hposts hm hstate hfree hread hwrite,
    fun hport hposts hstate => ⟨_, doorbellTailWrite_free hport hposts v hstate, rfl, s.countError_errcnt 16⟩, ?_⟩
  rintro hm ⟨hstate, hnoticed, hlast⟩ hat hqcb hentry
  refine ⟨fun htail => ⟨_, entryFetch_behind hm hstate hnoticed hlast hat hqcb hentry htail, s.setQueue_onlyQueue k _,
      State.queue_setQueue _ _ _⟩,
    fun htail hread => ⟨fun hgood => ?_, fun cause hbad herr => entryFetch_stops hm hstate hnoticed hlast hat hqcb hentry htail hread hbad herr,
      fun hop => entryStop_of_op s _ hop,
      fun hop ⟨hflags, hzero, hnamed⟩ hcopy hnext => entryStop_of_next s _ hop hflags hzero hnamed hcopy hnext⟩,
    fun c hbad htail herr => entryFetch_unreadable hm hstate hnoticed hlast hat hqcb hentry htail hbad herr⟩
  exact ⟨_, (s.queue k).fetched (s.readPlace pe 64), entryFetch_fetches hm hstate hnoticed hlast hat hqcb hentry htail hread hgood,
    s.setQueue_onlyQueue k _, State.queue_setQueue _ _ _, rfl, rfl, rfl, beq_iff_eq, rfl, rfl, rfl⟩

end Sys2Proof
end

section
/-! PROOFS. The commands that need no other unit, and DONE (R91, R92, R95, R96, R337). -/

namespace Sys2Proof
open Machine Claims
namespace Machine

/-! ## A command that completes -/

theorem onlyQueue_updQueue (s : State) (k : Nat) (f : Queue → Queue) : OnlyQueue k s (s.updQueue k f) := s.setQueue_onlyQueue k _

theorem onlyQueue_trans {s t u : State} {k : Nat} (h : OnlyQueue k s t) (g : OnlyQueue k t u) : OnlyQueue k s u :=
  ⟨(congrArg (fun x : State => { x with queues := s.queues }) g.1 :).trans h.1, fun j hj => (g.2 j hj).trans (h.2 j hj)⟩

/-- The last command of a queue completes (R91). -/
theorem queue_finishCmd_of_ready {s t : State} {k op : Nat} {pre : List Command} {c : Command} (h : Ready s k op pre c)
    (hqueue : t.queue k = s.queue k) (cw : Word) (digest : BitVec 256) :
    Finished s (t.finishCmd k c.index cw digest) k pre c cw digest := by
  have hupd := updCmd_of_ready h (fun c => c.finish cw digest)
  have hstate := h.1
  rw [← hqueue] at hupd hstate
  rw [Finished, State.finishCmd, queue_updQueue (by rw [hupd]; simp [hstate]), hupd, hqueue]
  rfl

theorem nopCmd_finishes {s : State} {k : Nat} {pre : List Command} {c : Command} (h : Ready s k 0 pre c) :
    exec (.nopCmd k) s = .next (s.finishCmd k c.index 0 0) := by
  have hexec : exec (.nopCmd k) s = execNopCmd k s := rfl
  simp only [hexec, execNopCmd, startable_of_ready h]

theorem fenceCommand_finishes {s : State} {k : Nat} {pre : List Command} {c : Command} (h : Ready s k 6 pre c)
    (hquiet : s.queueQuiet k (cutN c.bytes 0x10 1) = true) : exec (.fenceCommand k) s = .next (s.finishCmd k c.index 0 0) := by
  have hexec : exec (.fenceCommand k) s = execFenceCommand k s := rfl
  simp only [hexec, execFenceCommand, startable_of_ready h, hquiet, if_true]

/-! ## WAITC (R91 to R93) -/

theorem waitcMet_iff {s : State} {q : Queue} {c : Command} {p : Place} (hm : MemOk s) (hat : QAt s q .read (cutW c.bytes 0x10) 8 p) :
    s.waitcMet q c = true ↔ cutN c.bytes 0x18 8 ≤ memNat s p.key 8 := by
  rw [State.waitcMet, qWord_of_qAt hm hat, decide_eq_true_iff]

section
variable {s : State} {k : Nat} {pre : List Command} {c : Command} (h : Ready s k 3 pre c)
  (hheld : s.qHeld (s.queue k) (cutW c.bytes 0x10) 8 = false)
include h hheld

theorem waitcCmd_finishes (hmet : s.waitcMet (s.queue k) c = true) : exec (.waitcCmd k) s = .next (s.finishCmd k c.index 0 0) := by
  have hexec : exec (.waitcCmd k) s = execWaitcCmd k s := rfl
  simp only [hexec, execWaitcCmd, startable_of_ready h, hheld, hmet, Bool.false_eq_true, if_false, if_true]

theorem waitcCmd_waits (hmet : ¬s.waitcMet (s.queue k) c = true) : ∃ t, exec (.waitcCmd k) s = .next t ∧ OnlyQueue k s t ∧
    t.queue k = { s.queue k with desc := { (s.queue k).desc with state := 3 }
                                 cmds := pre ++ [{ c with started := true, since := (s.die (s.queue k).home).gtc }] } := by
  have hexec : exec (.waitcCmd k) s = execWaitcCmd k s := rfl
  simp only [execWaitcCmd, startable_of_ready h, hheld, hmet, Bool.false_eq_true, if_false] at hexec
  refine ⟨_, hexec, onlyQueue_updQueue s k _, ?_⟩
  rw [queue_updQueue (by simp [Queue.to]), updCmd_of_ready h]
  rfl

end

/-! ## A WAITC that waits -/

section
variable {s : State} {k : Nat} {pre : List Command} {c : Command} (h : Pending s k pre c)
include h

theorem waitc_of_pending : (s.queue k).waitc = some c := by
  obtain ⟨hstate, hcmds, hop, hstarted, hcomplete, -, hothers⟩ := h
  have hpre : pre.find? (fun e => e.op == 3 && e.outstanding) = none :=
    List.find?_eq_none.mpr fun e he => by
      by_cases hwait : e.op = 3
      · simp [hothers e he hwait]
      · simp [hwait]
  have hlast : (c.op == 3 && c.outstanding) = true := by simp [Command.outstanding, hop, hstarted, hcomplete]
  rw [Queue.waitc, if_pos hstate, hcmds, List.find?_append, hpre, List.find?_cons, hlast]
  rfl

/-- What the queue's commands become as the WAITC completes. -/
theorem cmds_of_pending : (s.queue k).cmds.map (fun e => if e.index = c.index then e.finish 0 0 else e) = pre ++ [c.finish 0 0] := by
  obtain ⟨-, hcmds, -, -, -, hindex, -⟩ := h
  have hpre : pre.map (fun e => if e.index = c.index then e.finish 0 0 else e) = pre :=
    (List.map_congr_left fun e he => by simp [hindex e he]).trans (List.map_id pre)
  rw [hcmds, List.map_append, hpre]
  simp

theorem waitcTimeout_stops {p : Place} (herr : ErrAt s k p) (hlimit : cutN c.bytes 0x20 8 ≠ 0)
    (hspent : cutN c.bytes 0x20 8 ≤ ((s.die (s.queue k).home).gtc - c.since).toNat) :
    ∃ t, exec (.waitcTimeout k) s = .next t ∧ QueueFails s t k c.index 5 p := by
  have hexec : exec (.waitcTimeout k) s = execWaitcTimeout k s := rfl
  simp only [execWaitcTimeout, waitc_of_pending h, hlimit, Nat.not_lt.mpr hspent, or_self, if_false] at hexec
  exact ⟨_, hexec, stopCmd_fails herr c 5⟩

theorem waitcTimeout_early
    (hlimit : cutN c.bytes 0x20 8 = 0 ∨ ((s.die (s.queue k).home).gtc - c.since).toNat < cutN c.bytes 0x20 8) :
    exec (.waitcTimeout k) s = .next s := by
  have hexec : exec (.waitcTimeout k) s = execWaitcTimeout k s := rfl
  simp only [hexec, execWaitcTimeout, waitc_of_pending h, hlimit, if_true]

end

/-! ## Counters that are read again (R91) -/

/-- The record of a waiting queue whose WAITC completes. -/
def Queue.resumed (q : Queue) (c : Command) : Queue :=
  { q with desc := { q.desc with state := 2 }, cmds := q.cmds.map (fun e => if e.index = c.index then e.finish 0 0 else e) }

/-- The record of a queue once it has read its counter again. -/
def State.rechecked (s : State) (j : Nat) : Queue :=
  match (s.queue j).waitc with
  | none => s.queue j
  | some c =>
    if s.qHeld (s.queue j) (cutW c.bytes 0x10) 8 = false ∧ s.waitcMet (s.queue j) c = true then (s.queue j).resumed c else s.queue j

theorem recheck_spec (s : State) (j : Nat) : OnlyQueue j s (s.recheck j) ∧ (s.recheck j).queue j = s.rechecked j := by
  cases hwaits : (s.queue j).waitc with
  | none =>
    simp only [State.recheck, State.rechecked, hwaits]
    exact ⟨⟨rfl, fun _ _ => rfl⟩, trivial⟩
  | some c =>
    simp only [State.recheck, State.rechecked, hwaits]
    by_cases hgo : s.qHeld (s.queue j) (cutW c.bytes 0x10) 8 = false ∧ s.waitcMet (s.queue j) c = true
    · rw [if_pos (by simp [hgo.1, hgo.2]), if_pos hgo]
      have hto : (s.updQueue j (fun q => q.to 2)).queue j = (s.queue j).to 2 := queue_updQueue (by simp [Queue.to])
      refine ⟨onlyQueue_trans (onlyQueue_updQueue s j _) (onlyQueue_updQueue _ j _), ?_⟩
      rw [State.finishCmd, queue_updQueue (by rw [hto]; simp [Queue.to, Queue.updCmd]), hto]
      rfl
    · rw [if_neg (by simpa using hgo), if_neg hgo]
      exact ⟨⟨rfl, fun _ _ => rfl⟩, rfl⟩

/-- What the front-end reads does not depend on the records of the queues. -/
theorem reads_of_queues {s t : State} (h : { t with queues := s.queues } = s) (q : Queue) :
    (∀ va, t.qHeld q va 8 = s.qHeld q va 8) ∧ (∀ va, t.qWord q va = s.qWord q va) ∧ ∀ c, t.waitcMet q c = s.waitcMet q c := by
  rw [← h]
  exact ⟨fun _ => rfl, fun _ => rfl, fun _ => rfl⟩

theorem rechecked_of_queues {s t : State} {j : Nat} (h : { t with queues := s.queues } = s) (hqueue : t.queue j = s.queue j) :
    t.rechecked j = s.rechecked j := by
  obtain ⟨hheld, -, hmet⟩ := reads_of_queues h (s.queue j)
  simp only [State.rechecked, hqueue, hheld, hmet]

/-- A queue that does not wait reads no counter. -/
theorem rechecked_of_waitc_none {s : State} {j : Nat} (h : (s.queue j).waitc = none) : s.rechecked j = s.queue j := by
  rw [State.rechecked, h]

/-- A queue that has read its counter has no more to read. -/
theorem rechecked_twice {s t : State} {j : Nat} (h : { t with queues := s.queues } = s) (hqueue : t.queue j = s.rechecked j) :
    t.rechecked j = s.rechecked j := by
  by_cases hsame : s.rechecked j = s.queue j
  · exact rechecked_of_queues h (hqueue.trans hsame)
  · have hstate : (s.rechecked j).desc.state = 2 := by
      unfold State.rechecked at hsame ⊢
      split
      · next hnone => rw [hnone] at hsame; exact absurd rfl hsame
      · next c hsome =>
        rw [hsome] at hsame
        dsimp only at hsame
        split
        · rfl
        · next hno => exact absurd (if_neg hno) hsame
    rw [rechecked_of_waitc_none, hqueue]
    simp [Queue.waitc, hqueue, hstate]

/-- Every queue of a list has read its counter again, and no other record has changed. -/
theorem foldl_recheck_spec {s : State} (l : List Nat) {t : State} (h : { t with queues := s.queues } = s)
    (hqueues : ∀ j, t.queue j = s.queue j ∨ t.queue j = s.rechecked j) :
    { l.foldl State.recheck t with queues := s.queues } = s ∧
    ∀ j, (l.foldl State.recheck t).queue j = if j ∈ l then s.rechecked j else t.queue j := by
  induction l generalizing t with
  | nil => exact ⟨h, fun _ => rfl⟩
  | cons i r ih =>
    obtain ⟨honly, hread⟩ := recheck_spec t i
    have hi : (t.recheck i).queue i = s.rechecked i :=
      hread.trans ((hqueues i).elim (rechecked_of_queues h) (rechecked_twice h))
    have hframe : { t.recheck i with queues := s.queues } = s := (congrArg (fun x : State => { x with queues := s.queues }) honly.1 :).trans h
    obtain ⟨hall, hqueue⟩ := ih hframe fun j => by
      by_cases hj : j = i
      · exact .inr (hj ▸ hi)
      · rw [honly.2 j hj]; exact hqueues j
    refine ⟨hall, fun j => ?_⟩
    rw [List.foldl_cons, hqueue j]
    by_cases hr : j ∈ r
    · simp [hr]
    · by_cases hj : j = i
      · simp [hj, hi]
      · simp [hr, hj, honly.2 j hj]

/-- A queue that has a record of its own stands in the table. -/
theorem mem_keys_of_getD {α : Type} {t : Tbl α} {k : Nat} {d : α} (h : Tbl.getD t k d ≠ d) : k ∈ t.map Prod.fst := by
  induction t with
  | nil => exact absurd rfl h
  | cons p r ih =>
    obtain ⟨j, x⟩ := p
    by_cases hj : j = k
    · simp [hj]
    · rw [Tbl.getD, if_neg hj] at h
      exact List.mem_cons_of_mem _ (ih h)

/-- Every waiting queue of a die has read its counter again. -/
theorem recheckDie_spec (s : State) (die : Nat) : { s.recheckDie die with queues := s.queues } = s ∧
    ∀ j, (s.recheckDie die).queue j = if (s.queue j).home = die then s.rechecked j else s.queue j := by
  obtain ⟨honly, hqueue⟩ := foldl_recheck_spec ((s.queues.map Prod.fst).filter (fun j => (s.queue j).home == die)) (t := s) rfl
    fun _ => .inl rfl
  refine ⟨honly, fun j => (hqueue j).trans ?_⟩
  by_cases hhome : (s.queue j).home = die
  · rw [if_pos hhome]
    by_cases hkey : j ∈ s.queues.map Prod.fst
    · rw [if_pos (List.mem_filter.mpr ⟨hkey, by simp [hhome]⟩)]
    · have hfree : s.queue j = {} := by
        by_contra hne
        exact hkey (mem_keys_of_getD hne)
      rw [if_neg fun hmem => hkey (List.mem_filter.mp hmem).1, rechecked_of_waitc_none (by rw [hfree]; rfl)]
  · rw [if_neg hhome, if_neg fun hmem => hhome (by simpa using (List.mem_filter.mp hmem).2)]

theorem waitcRecheck_spec {s : State} {k : Nat} {pre : List Command} {c : Command} {p : Place} (hm : MemOk s) (h : Pending s k pre c)
    (hat : QAt s (s.queue k) .read (cutW c.bytes 0x10) 8 p) (hheld : s.qHeld (s.queue k) (cutW c.bytes 0x10) 8 = false) :
    (cutN c.bytes 0x18 8 ≤ memNat s p.key 8 → ∃ t, exec (.waitcRecheck k) s = .next t ∧ OnlyQueue k s t ∧
      t.queue k = { s.queue k with desc := { (s.queue k).desc with state := 2 }, cmds := pre ++ [c.finish 0 0] }) ∧
    (¬cutN c.bytes 0x18 8 ≤ memNat s p.key 8 → exec (.waitcRecheck k) s = .next s) := by
  have hwaits := waitc_of_pending h
  rw [← waitcMet_iff hm hat]
  refine ⟨fun hmet => ?_, fun hmet => ?_⟩
  · obtain ⟨honly, hqueue⟩ := recheck_spec s k
    refine ⟨_, rfl, honly, hqueue.trans ?_⟩
    simp only [State.rechecked, hwaits, hheld, hmet, and_self, if_true, Queue.resumed, cmds_of_pending h]
  · have hexec : exec (.waitcRecheck k) s = .next (s.recheck k) := rfl
    simp only [hexec, State.recheck, hwaits, hmet, Bool.and_false, Bool.false_eq_true, if_false]

end Machine
end Sys2Proof
end

section
/-! PROOFS. SIGNAL, HASH, DONE and its message (R88, R91, R95, R96, R337). -/

namespace Sys2Proof
open Machine Claims
namespace Machine

/-! ## SIGNAL (R91) -/

/-- A queue of the die that waits has read its counter as it stands then; no other has changed. -/
theorem queue_recheckDie (s : State) (die j : Nat) :
    ((s.queue j).home ≠ die ∨ (s.queue j).waitc = none → (s.recheckDie die).queue j = s.queue j) ∧
    (∀ w, (s.queue j).home = die → (s.queue j).waitc = some w → (s.recheckDie die).queue j =
      if (s.recheckDie die).qHeld (s.queue j) (cutW w.bytes 0x10) 8 = false ∧
          cutN w.bytes 0x18 8 ≤ (s.recheckDie die).qWord (s.queue j) (cutW w.bytes 0x10) then (s.queue j).resumed w
      else s.queue j) := by
  obtain ⟨honly, hqueue⟩ := recheckDie_spec s die
  refine ⟨fun h => ?_, fun w hhome hwaits => ?_⟩
  · rw [hqueue j]
    split
    · next hhome => exact rechecked_of_waitc_none (h.resolve_left fun hne => hne hhome)
    · rfl
  · obtain ⟨hheld, hword, -⟩ := reads_of_queues honly (s.queue j)
    rw [hqueue j, if_pos hhome, hheld, hword]
    simp only [State.rechecked, hwaits, State.waitcMet, decide_eq_true_iff]

/-- What a SIGNAL leaves in its word: its value, or the sum with what stood there. -/
def signalWord (s : State) (c : Command) (p : Place) : Nat :=
  if cutN c.bytes 0x20 1 = 1 then (memNat s p.key 8 + cutN c.bytes 0x18 8) % 2 ^ 64 else cutN c.bytes 0x18 8

theorem cutN_lt (bs : List Byte) (off n : Nat) : cutN bs off n < 256 ^ n :=
  (leNat_lt _).trans_le (Nat.pow_le_pow_right (by omega) (List.length_take_le _ _))

section
variable {s : State} {k : Nat} {pre : List Command} {c : Command} {p : Place} (hm : MemOk s) (h : Ready s k 4 pre c)
  (hfree : s.qBlocked (s.queue k) (cutW c.bytes 0x10) 8 = false) (hquiet : s.queueQuiet k 4 = true)
  (hread : cutN c.bytes 0x20 1 = 1 → QAt s (s.queue k) .read (cutW c.bytes 0x10) 8 p)
  (hwrite : QAt s (s.queue k) .write (cutW c.bytes 0x10) 8 p)
include hm h hfree hquiet hread hwrite

/-- A SIGNAL that waits for nothing writes its word and completes, and the queues of its die that wait read their counters. -/
theorem signalCmd_eq : exec (.signalCmd k) s = .next
    (((s.qPut (s.queue k) p (leBytes 8 (signalWord s c p))).finishCmd k c.index 0 0).recheckDie (s.queue k).home) := by
  have hput (n : Nat) : s.ctxWrite (s.queue k).home (s.queue k).ctx (cutW c.bytes 0x10) (leBytes 8 n) =
      .ok (s.qPut (s.queue k) p (leBytes 8 n)) := ctxWrite_of_qAt (by rwa [leBytes_length])
  have hlt : cutN c.bytes 0x18 8 < 2 ^ 64 := cutN_lt _ _ _
  have hexec : exec (.signalCmd k) s = execSignalCmd k s := rfl
  simp only [hexec, execSignalCmd, startable_of_ready h, hfree, hquiet, Bool.not_true, Bool.or_self, Bool.false_eq_true, if_false, hput,
    signalWord]
  by_cases hadd : cutN c.bytes 0x20 1 = 1
  · simp only [hadd, if_true, qRead_of_qAt (hread hadd) (by omega), State.readPlace, leNat_readBytes s hm]
  · simp only [hadd, if_false, Nat.zero_add, Nat.mod_eq_of_lt hlt]

/-- What a SIGNAL leaves: the other queues as they stand once they have read their counters, its own with the command complete. -/
theorem signalCmd_spec : ∃ t u : State, exec (.signalCmd k) s = .next t ∧ t = u.recheckDie (s.queue k).home ∧ QueueMemory s t ∧
    (∀ j, j ≠ k → u.queue j = s.queue j) ∧ Finished s t k pre c 0 0 ∧ MemSameBut s t p.key 8 ∧
    Holds t p.key (leBytes 8 (signalWord s c p)) := by
  have hput : QAt s (s.queue k) .write (cutW c.bytes 0x10) (leBytes 8 (signalWord s c p)).length p := by rwa [leBytes_length]
  obtain ⟨hqueues, hstep, hsame, hholds⟩ := qPut_spec hput hm
  rw [leBytes_length] at hsame
  obtain ⟨v, hv⟩ : ∃ v, v = s.qPut (s.queue k) p (leBytes 8 (signalWord s c p)) := ⟨_, rfl⟩
  rw [← hv] at hqueues hstep hsame hholds
  have hqueue (j : Nat) : v.queue j = s.queue j := by rw [State.queue, hqueues]; rfl
  obtain ⟨honly, -⟩ := recheckDie_spec (v.finishCmd k c.index 0 0) (s.queue k).home
  have hframe : { (v.finishCmd k c.index 0 0).recheckDie (s.queue k).home with queues := v.queues } = v :=
    (congrArg (fun x : State => { x with queues := v.queues }) honly :)
  have hmem : ((v.finishCmd k c.index 0 0).recheckDie (s.queue k).home).mem = v.mem := (congrArg State.mem hframe :)
  have hdies : ((v.finishCmd k c.index 0 0).recheckDie (s.queue k).home).dies = v.dies := (congrArg State.dies hframe :)
  have hfinished : Finished s (v.finishCmd k c.index 0 0) k pre c 0 0 := queue_finishCmd_of_ready h (hqueue k) 0 0
  have hstill : ((v.finishCmd k c.index 0 0).queue k).waitc = none := by
    rw [hfinished]
    simp [Queue.waitc, h.1]
  refine ⟨_, v.finishCmd k c.index 0 0, hv ▸ signalCmd_eq hm h hfree hquiet hread hwrite, rfl, ⟨?_, fun d => ?_⟩, fun j hj => ?_, ?_, fun a ha => ?_,
    fun i hi => ?_⟩
  · exact (congrArg (fun x : State => { x with queues := s.queues, dies := s.dies, mem := s.mem, counted := s.counted, l1 := s.l1, msc := s.msc,
                                               aliasSeen := s.aliasSeen, poison := s.poison }) hframe :).trans hstep.1
  · rw [State.die, hdies]; exact hstep.2 d
  · exact (queue_updQueue_ne _ _ hj).trans (hqueue j)
  · exact ((queue_recheckDie _ _ _).1 (.inr hstill)).trans hfinished
  · rw [hmem]; exact hsame a ha
  · rw [hmem]; exact hholds i hi

end

/-! ## HASH (R96) -/

/-- Fewer bytes from the same address can be accessed too. -/
theorem qAt_shorten {s : State} {q : Queue} {acc : Access} {va : Word} {n m : Nat} {p : Place} (h : QAt s q acc va n p) (hle : m ≤ n) :
    QAt s q acc va m p := by
  obtain ⟨hpage, hclean, hrest⟩ := h
  refine ⟨by omega, List.any_eq_false.mpr fun i hi => List.any_eq_false.mp hclean i ?_, hrest⟩
  rw [List.mem_range] at hi ⊢
  omega

theorem ctxWriteSpan_of_qAt {s : State} {q : Queue} {va : Word} {p : Place} {bs : List Byte} (h : QAt s q .write va bs.length p)
    (hpos : 0 < bs.length) (fuel : Nat) : s.ctxWriteSpan q.home q.ctx va bs (fuel + 1) = .ok (s.qPut q p bs) := by
  have hwrite := ctxWrite_of_qAt h
  obtain ⟨hpage, -, -⟩ := h
  obtain ⟨b, r, rfl⟩ := List.exists_cons_of_length_pos hpos
  have htake : (b :: r).take (65536 - va.toNat % 65536) = b :: r := List.take_of_length_le (by omega)
  have hdrop : (b :: r).drop (65536 - va.toNat % 65536) = [] := List.drop_eq_nil_of_le (by omega)
  simp only [State.ctxWriteSpan, htake, hdrop, hwrite]
  cases fuel <;> rfl

@[simp] theorem bigBytes_length (n x : Nat) : (bigBytes n x).length = n := by simp [bigBytes]

@[simp] theorem digestBytes_length (d : BitVec 256) : (digestBytes d).length = 32 := bigBytes_length 32 _

/-- The report of a queue's H with its signature (R96). -/
def hashReport (s : State) (k : Nat) (c : Command) : List Byte :=
  let body := reportBody k (s.queue k) (s.die (s.queue k).home).gtc (cut c.bytes 0x18 32)
  let sig := signDigest (sha256 body) s.freeDraws
  body ++ bigBytes 32 sig.1 ++ bigBytes 32 sig.2

/-- A report takes 192 bytes, with a nonce of 32. -/
theorem hashReport_length (s : State) (k : Nat) (c : Command) : 0 < (hashReport s k c).length ∧ (hashReport s k c).length ≤ 192 := by
  have hnonce : (cut c.bytes 0x18 32).length ≤ 32 := List.length_take_le _ _
  simp only [hashReport, reportBody, List.length_append, bigBytes_length, leBytes_length, digestBytes_length]
  omega

theorem hashCmd_spec {s : State} {k : Nat} {pre : List Command} {c : Command} {p : Place} (hm : MemOk s) (h : Ready s k 5 pre c)
    (hdone : (s.queue k).done.toNat = c.index) (hfree : s.qBlocked (s.queue k) (cutW c.bytes 0x10) 192 = false)
    (hat : QAt s (s.queue k) .write (cutW c.bytes 0x10) 192 p) :
    ∃ t, exec (.hashCmd k) s = .next t ∧ QueueStep k s { t with freeDraws := s.freeDraws } ∧
      Finished s t k pre c 0 (sha256 (hashReport s k c)) ∧ MemSameBut s t p.key 192 ∧ Holds t p.key (hashReport s k c) ∧
      t.freeDraws = s.freeDraws + 4 := by
  obtain ⟨hpos, hlen⟩ := hashReport_length s k c
  have hput := qAt_shorten hat hlen
  obtain ⟨hqueues, hstep, hsame, hholds⟩ := qPut_spec hput hm
  obtain ⟨v, hv⟩ : ∃ v, v = s.qPut (s.queue k) p (hashReport s k c) := ⟨_, rfl⟩
  have hexec : exec (.hashCmd k) s = .next (State.finishCmd { v with freeDraws := v.freeDraws + 4 } k c.index 0 (sha256 (hashReport s k c))) := by
    have hwrite := ctxWriteSpan_of_qAt hput hpos 2
    have hunfold : exec (.hashCmd k) s = execHashCmd k s := rfl
    rw [hashReport] at hwrite
    simp only [hunfold, execHashCmd, startable_of_ready h, hdone, hfree, ne_eq, not_true_eq_false, Bool.false_eq_true, or_self, if_false, hwrite]
    rw [hv, hashReport]
  rw [← hv] at hqueues hstep hsame hholds
  have hdraws : v.freeDraws = s.freeDraws := (congrArg State.freeDraws hstep.1 :)
  have hqueue (j : Nat) : v.queue j = s.queue j := by rw [State.queue, hqueues]; rfl
  refine ⟨_, hexec, ?_, queue_finishCmd_of_ready h (hqueue k) _ _, fun a ha => hsame a (by omega), fun i hi => hholds i hi, ?_⟩
  · have hback : { v with freeDraws := s.freeDraws } = v := by rw [← hdraws]
    exact queueStep_setQueue (t := { v with freeDraws := s.freeDraws }) (by rw [hback]; exact hstep) hqueues k _
  · exact congrArg (· + 4) hdraws

/-! ## DONE and its message (R88, R95, R337) -/

/-- Settling changes nothing but the state of a queue's descriptor (R93). -/
theorem settle_only (q : Queue) : { q.settle with desc := q.desc } = q := by
  unfold Queue.settle
  split <;> rfl

/-- The record of a queue whose first command leaves (R95). -/
def Queue.advanced (q : Queue) (k : Nat) (c : Command) (r : List Command) : Queue :=
  { q with cmds := r, h := chainHash q.h (c.index + 1) c, done := BitVec.ofNat 64 (c.index + 1)
           pending := if q.notify = 0 then q.pending else some (q.notify, doneMessage k (BitVec.ofNat 64 (c.index + 1))) }

section
variable {s : State} {k : Nat} {c : Command} {r : List Command} {p ph : Place} (hm : MemOk s) (hcmds : (s.queue k).cmds = c :: r)
  (hcomplete : c.complete = true) (hstate : (s.queue k).desc.state ≠ 0) (hindex : c.index = (s.queue k).done.toNat)
  (hfree : s.qBlocked (s.queue k) (s.queue k).desc.qcb 64 = false) (hquiet : s.queueQuiet k 4 = true)
include hcmds hcomplete hstate hindex hfree hquiet

theorem doneAdvance_eq : exec (.doneAdvance k) s = .next
    (((s.qWrite (s.queue k) ((s.queue k).desc.qcb + 0x10) (digestBytes (chainHash (s.queue k).h (c.index + 1) c))).qWrite (s.queue k)
      ((s.queue k).desc.qcb + 8) (leBytes 8 (c.index + 1))).updQueue k (fun q => { q with
        cmds := r, h := chainHash (s.queue k).h (c.index + 1) c, done := BitVec.ofNat 64 (c.index + 1)
        pending := if q.notify = 0 then q.pending else some (q.notify, doneMessage k (BitVec.ofNat 64 (c.index + 1))) })) := by
  have hexec : exec (.doneAdvance k) s = execDoneAdvance k s := rfl
  simp only [hexec, execDoneAdvance, hcmds, hcomplete, hstate, hindex, hfree, hquiet, Bool.not_true, Bool.or_false, decide_false,
    ne_eq, not_true_eq_false, Bool.false_eq_true, if_false]

include hm

theorem doneAdvance_spec (hdone : QAt s (s.queue k) .write ((s.queue k).desc.qcb + 8) 8 p)
    (hhash : QAt s (s.queue k) .write ((s.queue k).desc.qcb + 0x10) 32 ph) (hcached : QCached s (s.queue k) ((s.queue k).desc.qcb + 8))
    (hkey : ph.key = p.key + 8) :
    ∃ t, exec (.doneAdvance k) s = .next t ∧ QueueStep k s t ∧ MemSameBut s t p.key 40 ∧
      Holds t ph.key (digestBytes (chainHash (s.queue k).h (c.index + 1) c)) ∧ Holds t p.key (leBytes 8 (c.index + 1)) ∧
      t.queue k = ((s.queue k).advanced k c r).settle := by
  obtain ⟨hb, hhb⟩ : ∃ hb, hb = digestBytes (chainHash (s.queue k).h (c.index + 1) c) := ⟨_, rfl⟩
  have hlen : hb.length = 32 := by rw [hhb, digestBytes_length]
  have hput : QAt s (s.queue k) .write ((s.queue k).desc.qcb + 0x10) hb.length ph := by rwa [hlen]
  obtain ⟨hqueues, hstep, hsame, hholds⟩ := qPut_spec hput hm
  obtain ⟨v, hv⟩ : ∃ v, v = s.qPut (s.queue k) ph hb := ⟨_, rfl⟩
  have hcopied : OnlyCopied (s.queue k) s v := hv ▸ .qPut (hput.2.2.1 rfl) hb
  have hput2 : QAt v (s.queue k) .write ((s.queue k).desc.qcb + 8) (leBytes 8 (c.index + 1)).length p := by
    rw [leBytes_length]; exact hcopied.qAt hcached hdone
  obtain ⟨hqueues2, hstep2, hsame2, hholds2⟩ := qPut_spec hput2 (hv ▸ memOk_qPut hput hm)
  rw [← hv, hlen] at hsame
  rw [← hv] at hqueues hstep hholds
  rw [leBytes_length] at hsame2
  have hexec := doneAdvance_eq hcmds hcomplete hstate hindex hfree hquiet
  rw [← hhb, qWrite_of_qAt hput (by omega), ← hv, qWrite_of_qAt hput2 (by simp)] at hexec
  have hqueue : (v.qPut (s.queue k) p (leBytes 8 (c.index + 1))).queue k = s.queue k := by rw [State.queue, hqueues2, hqueues]; rfl
  refine ⟨_, hexec, queueStep_setQueue (queueMemory_trans hstep hstep2) (hqueues2.trans hqueues) k _, fun a ha => ?_, fun i hi => ?_,
    fun i hi => hholds2 i hi, ?_⟩
  · exact (hsame2 a (by omega)).trans (hsame a (by omega))
  · rw [← hhb] at hi ⊢
    exact (congrArg some (hsame2 (ph.key + i) (by omega))).trans (hholds i hi)
  · refine (State.queue_setQueue _ _ _).trans ?_
    rw [hqueue]
    rfl

end

theorem notifyMessage_spec {s : State} {k : Nat} {m : Word × Word} (hm : MemOk s) (hpending : (s.queue k).pending = some m)
    (hport : (s.port 16).usable = true) :
    ∃ t, exec (.notifyMessage k) s = .next t ∧ t.queue k = { s.queue k with pending := none } ∧ (∀ j, j ≠ k → t.queue j = s.queue j) ∧
      t.hostMsgs = s.hostMsgs ++ [m] ∧ Holds t (2 ^ 64 + m.1.toNat) (leBytes 8 m.2.toNat) ∧
      MemSameBut s t (2 ^ 64 + m.1.toNat) 8 ∧ t.strands = s.strands := by
  obtain ⟨u, hu⟩ : ∃ u, u = s.setQueue k { s.queue k with pending := none } := ⟨_, rfl⟩
  have hexec : exec (.notifyMessage k) s = .next (u.hostMessage m.1 m.2) := by
    have hunfold : exec (.notifyMessage k) s = execNotifyMessage k s := rfl
    simp only [hunfold, execNotifyMessage, hpending, hport, Bool.not_true, Bool.false_eq_true, if_false, hu]
  have honly := hostMessage_only u m.1 m.2
  have hqueues : (u.hostMessage m.1 m.2).queues = u.queues := (congrArg State.queues honly :)
  have hread (a : Nat) : Memory.read (u.hostMessage m.1 m.2).mem a = if 2 ^ 64 + m.1.toNat ≤ a ∧ a < 2 ^ 64 + m.1.toNat + 8 then
      (leBytes 8 m.2.toNat).getD (a - (2 ^ 64 + m.1.toNat)) 0 else Memory.read s.mem a := by
    have hmem : (u.hostMessage m.1 m.2).mem = Memory.writeBytes s.mem (2 ^ 64 + m.1.toNat) (leBytes 8 m.2.toNat) := by
      rw [State.hostMessage, State.writePlace, State.writeAt_mem, hu]
      rfl
    rw [hmem, Memory.read_writeBytes _ hm, leBytes_length]
  refine ⟨_, hexec, ?_, fun j hj => ?_, ?_, fun i hi => ?_, fun a ha => ?_, ?_⟩
  · rw [State.queue, hqueues, hu]; exact State.queue_setQueue _ _ _
  · rw [State.queue, hqueues, hu]; exact State.queue_setQueue_ne _ _ _ _ hj
  · rw [State.hostMessage, hu]; rfl
  · have hlt : i < 8 := by simpa using hi
    rw [hread, if_pos (by omega), Nat.add_sub_cancel_left]
    simp [hlt]
  · rw [hread, if_neg (by omega)]
  · exact (congrArg State.strands honly :).trans (by rw [hu]; rfl)

theorem notifyMessage_none {s : State} {k : Nat} (h : (s.queue k).pending = none) : exec (.notifyMessage k) s = .next s := by
  have hexec : exec (.notifyMessage k) s = execNotifyMessage k s := rfl
  simp only [hexec, execNotifyMessage, h]

end Machine

/-- Settles O30: a command that may start completes in its queue's record; a WAITC goes by the word its counter's place holds, and the
queues that a SIGNAL's die has waiting by the words they find then; DONE and H are two writes of the QCB, the second through a page that
the TLB holds. -/
theorem queueCommandsRun : Obligations.QueueCommandsRun := by
  unfold Obligations.QueueCommandsRun
  intro s k pre c p pr ph
  refine ⟨fun h => ⟨_, nopCmd_finishes h, onlyQueue_updQueue s k _, queue_finishCmd_of_ready h rfl 0 0⟩,
    fun h hquiet => ⟨_, fenceCommand_finishes h hquiet, onlyQueue_updQueue s k _, queue_finishCmd_of_ready h rfl 0 0⟩,
    fun hm h hat hheld => ?_, fun hm h hat hheld => waitcRecheck_spec hm h hat hheld,
    fun h herr => ⟨fun hlimit hspent => waitcTimeout_stops h herr hlimit hspent, fun hearly => waitcTimeout_early h hearly⟩,
    fun hm h hfree hquiet hread hwrite => ?_, fun hm h hdone hfree hat => hashCmd_spec hm h hdone hfree hat,
    fun r hm hcmds hcomplete hstate hindex hfree hquiet hdone hhash hcached hkey => ?_,
    fun m hm hpending hport => notifyMessage_spec hm hpending hport, notifyMessage_none⟩
  · rw [← waitcMet_iff hm hat]
    exact ⟨fun hmet => ⟨_, waitcCmd_finishes h hheld hmet, onlyQueue_updQueue s k _, queue_finishCmd_of_ready h rfl 0 0⟩,
      waitcCmd_waits h hheld⟩
  · obtain ⟨t, u, hexec, rfl, hmemory, hqueue, hfinished, hsame, hholds⟩ := signalCmd_spec hm h hfree hquiet hread hwrite
    refine ⟨_, hexec, hmemory, fun j hj => ?_, hfinished, hsame, hholds⟩
    have hread := queue_recheckDie u (s.queue k).home j
    rw [hqueue j hj] at hread
    exact hread
  · obtain ⟨t, hexec, hstep, hsame, hh, hd, hqueue⟩ :=
      doneAdvance_spec hm hcmds hcomplete hstate hindex hfree hquiet hdone hhash hcached hkey
    have hnext : BitVec.ofNat 64 (c.index + 1) = (s.queue k).done + 1 := by
      rw [hindex, BitVec.ofNat_add, BitVec.ofNat_toNat, BitVec.setWidth_eq]
      rfl
    have honly : { t.queue k with desc := ((s.queue k).advanced k c r).desc } = (s.queue k).advanced k c r := by
      rw [hqueue]; exact settle_only _
    refine ⟨t, hexec, hstep, hsame, hh, hd, (congrArg Queue.h honly :), (congrArg Queue.done honly :).trans hnext, (congrArg Queue.cmds honly :),
      ?_, fun hdrain => ?_⟩
    · rw [← hnext]; exact (congrArg Queue.pending honly :)
    · exact (congrArg Queue.desc (hqueue.trans (settle_of_ne (q := (s.queue k).advanced k c r) hdrain)) :)

end Sys2Proof
end

section
/-! PROOFS. Bind batches and barrier entries (R98, R99, R110, R112, R119, R130). -/

namespace Sys2Proof
open Machine Claims
namespace Machine

/-! ## Which slots a batch names (R99) -/

theorem slotsOf_two_pow {slot : Nat} (h : slot < 16) : slotsOf (2 ^ slot) = [slot] := by
  have hall : ∀ k : Fin 16, slotsOf (2 ^ k.val) = [k.val] := by decide
  exact hall ⟨slot, h⟩

/-- A mask of 16 bits that is not 0 names a slot. -/
theorem slotsOf_ne_nil {mask : Nat} (hne : mask ≠ 0) (hlt : mask < 2 ^ 16) : slotsOf mask ≠ [] := by
  obtain ⟨i, hi⟩ := Nat.exists_testBit_of_ne_zero hne
  have hbit : i < 16 := by
    by_contra hge
    have hle : 2 ^ 16 ≤ 2 ^ i := Nat.pow_le_pow_right (by omega) (by omega)
    exact absurd hi (by simp [Nat.testBit_lt_two_pow (hlt.trans_le hle)])
  refine List.ne_nil_of_mem (a := i) (List.mem_filter.mpr ⟨List.mem_range.mpr hbit, ?_⟩)
  rwa [Nat.testBit_eq_decide_div_mod_eq, decide_eq_true_iff, ← beq_iff_eq] at hi

/-! ## The L1s of a cluster as a batch starts (R112) -/

/-- What settling the L1s leaves as it was: memory, the strands, the contexts, the groups, and the commit words. -/
structure KeepsBinds (s t : State) : Prop where
  mem : t.mem = s.mem
  strands : t.strands = s.strands
  contexts : t.contexts = s.contexts
  groups : t.groups = s.groups
  commit : ∀ k, (t.cluster k).commit = (s.cluster k).commit

theorem KeepsBinds.refl (s : State) : KeepsBinds s s := ⟨rfl, rfl, rfl, rfl, fun _ => rfl⟩

theorem KeepsBinds.trans {s t u : State} (h : KeepsBinds s t) (g : KeepsBinds t u) : KeepsBinds s u :=
  ⟨g.mem.trans h.mem, g.strands.trans h.strands, g.contexts.trans h.contexts, g.groups.trans h.groups,
    fun k => (g.commit k).trans (h.commit k)⟩

theorem KeepsBinds.of_onlyCaches {s t : State} (h : OnlyCaches s t) : KeepsBinds s t :=
  ⟨(congrArg State.mem h :), (congrArg State.strands h :), (congrArg State.contexts h :), (congrArg State.groups h :), fun k => by
    rw [State.cluster, (congrArg State.clusters h :)]; rfl⟩

theorem KeepsBinds.setCluster {s : State} {k : Nat} {c : Cluster} (h : c.commit = (s.cluster k).commit) :
    KeepsBinds s (s.setCluster k c) := by
  refine ⟨rfl, rfl, rfl, rfl, fun j => ?_⟩
  by_cases hj : j = k
  · rw [hj, State.cluster_setCluster, h]
  · rw [State.cluster_setCluster_ne _ _ _ _ hj]

theorem KeepsBinds.foldl {β : Type} {f : State → β → State} (hf : ∀ t x, KeepsBinds t (f t x)) (l : List β) (s : State) :
    KeepsBinds s (l.foldl f s) := by
  induction l generalizing s with
  | nil => exact .refl s
  | cons x r ih => exact (hf s x).trans (ih _)

theorem KeepsBinds.takeL1 (s : State) (b : Batch) (h : Header) : KeepsBinds s (s.takeL1 b h) := by
  have hleave : KeepsBinds s (s.leaveCluster b.cl) := .of_onlyCaches (State.foldl_leaveL1_only _ s)
  unfold State.takeL1
  refine KeepsBinds.trans ?_ (.foldl (fun t k => ?_) _ _)
  · split
    · exact .refl s
    · exact .trans hleave (.setCluster (hleave.commit b.cl).symm)
  · split
    · exact .refl t
    · exact .trans (t := t.setCore k _) ⟨rfl, rfl, rfl, rfl, fun _ => rfl⟩
        (.foldl (fun u line => .of_onlyCaches (u.fitL1_only k line)) _ _)

/-! ## A batch of one strand starts (R99, R110, R119) -/

theorem KeepsBinds.newTurn (s : State) (src : Nat) : KeepsBinds s (s.newTurn src) := by
  unfold State.newTurn
  dsimp only
  split
  · exact ⟨rfl, rfl, rfl, rfl, fun _ => rfl⟩
  · exact .refl s

/-- A cluster whose entries are no longer a group's own. -/
def Cluster.forgets (k : GroupKey) (c : Cluster) : Cluster :=
  { c with barriers := c.barriers.map (fun q => (q.1, if q.2.owner = some k then { q.2 with owner := none } else q.2)) }

theorem KeepsBinds.forgetBarriers (s : State) (k : GroupKey) : KeepsBinds s (s.forgetBarriers k) := by
  refine ⟨rfl, rfl, rfl, rfl, fun j => ?_⟩
  have hmap : (s.forgetBarriers k).cluster j = (s.cluster j).forgets k := Tbl.getD_mapVal (Cluster.forgets k) s.clusters j {}
  rw [hmap]
  rfl

/-- The counters that are read at TLBASE are all that they change of a strand (R246). -/
theorem readCounters_only (s : State) (src : Nat) (t : Strand) :
    ∃ copy matrix async, s.readCounters src t = { t with tlCopy := copy, tlMatrix := matrix, tlAsync := async } := by
  have hset (u : Strand) (k : Nat) (l : Timeline)
      (h : ∃ copy matrix async, u = { t with tlCopy := copy, tlMatrix := matrix, tlAsync := async }) :
      ∃ copy matrix async, u.setTimeline k l = { t with tlCopy := copy, tlMatrix := matrix, tlAsync := async } := by
    obtain ⟨copy, matrix, async, rfl⟩ := h
    unfold Strand.setTimeline
    split
    · exact ⟨_, _, _, rfl⟩
    · exact ⟨_, _, _, rfl⟩
    · exact ⟨_, _, _, rfl⟩
  have hall (l : List Nat) (g : Strand → Nat → Timeline) (u : Strand)
      (h : ∃ copy matrix async, u = { t with tlCopy := copy, tlMatrix := matrix, tlAsync := async }) :
      ∃ copy matrix async, l.foldl (fun v k => v.setTimeline k (g v k)) u =
        { t with tlCopy := copy, tlMatrix := matrix, tlAsync := async } := by
    induction l generalizing u with
    | nil => exact h
    | cons k r ih => exact ih _ (hset u k _ h)
  exact hall (List.range 3) _ t ⟨_, _, _, rfl⟩

theorem batchStrands_one {s : State} {b : Batch} {h : Header} {vlb src : Nat} {r : BindRecord} (hr : restores r = false) :
    s.batchStrands b h vlb [(src, r)] = some [(src, s.readCounters src (b.fresh r (s.context b.ctx) h vlb))] := by
  simp [State.batchStrands, hr]

/-- The group that a batch binds. -/
def Batch.bound (b : Batch) (members : Tbl Nat) : Group :=
  { state := .resident, ctx := b.ctx, size := b.size, die := b.die, cluster := b.cluster, ended := BitVec.ofNat 16 b.ended
    members := members }

/-- What the start of one strand leaves. -/
theorem startBatch_one (s : State) {b : Batch} (h : Header) (vlb src : Nat) (t : Strand) (hsize : b.size = 1) :
    let u := s.startBatch b h vlb [(src, t)]
    u.mem = s.mem ∧ (∀ k, (u.cluster k).commit = (s.cluster k).commit) ∧
    u.strand src = { t with lastBraid := (s.strand src).lastBraid } ∧ (∀ j, j ≠ src → u.strand j = s.strand j) ∧
    (u.context b.ctx).state = 2 ∧ ∃ g, look u.groups b.key = some g ∧ g.state = .resident ∧ g.members = [(t.bind.ix, src)] := by
  obtain ⟨v, hv⟩ : ∃ v, v = s.takeL1 b h := ⟨_, rfl⟩
  have hkeep : KeepsBinds s v := hv ▸ .takeL1 s b h
  obtain ⟨w, hw⟩ : ∃ w, w = (v.setContext b.ctx { v.context b.ctx with state := 2, vlb := BitVec.ofNat 16 vlb }).setGroup b.key
    (b.bound [(t.bind.ix, src)]) := ⟨_, rfl⟩
  have hlater : KeepsBinds w ((w.forgetBarriers b.key).newTurn src) := .trans (.forgetBarriers w b.key) (.newTurn _ src)
  have hstart : s.startBatch b h vlb [(src, t)] =
      ((w.forgetBarriers b.key).newTurn src).setStrand src { t with lastBraid := (w.strand src).lastBraid } := by
    have hnot : ¬2 ≤ b.size := by omega
    rw [hw, hv]
    simp only [State.startBatch, hnot, if_false]
    rfl
  have hstrands : ((w.forgetBarriers b.key).newTurn src).strands = s.strands := by
    rw [hlater.strands, hw]; exact hkeep.strands
  have hstrand (j : Nat) : ((w.forgetBarriers b.key).newTurn src).strand j = s.strand j := by rw [State.strand, hstrands]; rfl
  have hbraid : (w.strand src).lastBraid = (s.strand src).lastBraid := by
    rw [hw]; exact congrArg (fun l : Tbl Strand => (l.getD src {}).lastBraid) hkeep.strands
  intro u
  have hu : u = ((w.forgetBarriers b.key).newTurn src).setStrand src { t with lastBraid := (w.strand src).lastBraid } := hstart
  have hcontexts : u.contexts = w.contexts := by rw [hu]; exact hlater.contexts
  have hgroups : u.groups = w.groups := by rw [hu]; exact hlater.groups
  refine ⟨?_, fun k => ?_, ?_, fun j hj => ?_, ?_, b.bound [(t.bind.ix, src)], ?_, rfl, rfl⟩
  · rw [hu]; exact hlater.mem.trans (hw ▸ hkeep.mem)
  · rw [hu]; exact (hlater.commit k).trans (hw ▸ hkeep.commit k)
  · rw [hu, State.strand_setStrand, hbraid]
  · rw [hu, State.strand_setStrand_ne _ _ _ _ hj, hstrand]
  · have hcontext : u.context b.ctx = w.context b.ctx := by rw [State.context, hcontexts]; rfl
    have hset : w.context b.ctx = { v.context b.ctx with state := 2, vlb := BitVec.ofNat 16 vlb } := hw ▸ State.context_setContext v _ _
    rw [hcontext, hset]
  · rw [hgroups, hw]
    exact (look_put _ _ _ _).trans (if_pos rfl)

/-- Registers 1 to 3 alone are given at a start (R110). -/
theorem fresh_reg_zero (b : Batch) (r : BindRecord) (c : ContextDesc) (h : Header) (vlb : Nat) {k : Nat} (hk : k = 0 ∨ 3 < k) :
    (b.fresh r c h vlb).reg k = 0 := by
  rcases hk with rfl | hk
  · rfl
  · have h1 : 1 ≠ k := by omega
    have h2 : 2 ≠ k := by omega
    have h3 : 3 ≠ k := by omega
    simp [Strand.reg, Batch.fresh, Tbl.getD, h1, h2, h3]

/-! ## The commit of a batch (R99) -/

/-- The state with the commit word written. -/
def State.committed (s : State) (cl : Nat) (w : Word) : State := s.setCluster cl { s.cluster cl with commit := w }

section
variable {s : State} {die cluster : Nat} {w : Word} (hheld : s.batchHeld (s.batchOf (die % 8) (cluster % 4) w) = false)
  (hminimal : s.boot.minimal = false) (hcommit : w.getLsbD 32 = true) (hreserved : w.toNat / 2 ^ 33 % 2 ^ 15 = 0)
  (hslots : w.toNat % 2 ^ 16 ≠ 0)
include hheld hminimal hcommit hreserved hslots

/-- A commit word that is well formed and waits for nothing: the checks of its batch decide. -/
theorem batchCommit_eq {b : Batch} {s1 : State} (hb : b = s.batchOf (die % 8) (cluster % 4) w)
    (hs1 : s1 = s.committed (die % 8 * 4 + cluster % 4) w) :
    (∀ n, s1.batchFails b (s1.batchHeader b) = some n → exec (.batchCommit die cluster w) s = .next (s1.firmwareNote b.die 48 b.ctx
      (BitVec.ofNat 64 (b.batch + b.cluster * 65536)) 0xFFFFFFFF (BitVec.ofNat 64 n))) ∧
    (s1.batchFails b (s1.batchHeader b) = none → ∀ ts,
      s1.batchStrands b (s1.batchHeader b) (s1.batchVlb b (s1.batchHeader b)) (b.srcs.zip b.recs) = some ts →
      exec (.batchCommit die cluster w) s = .next (s1.startBatch b (s1.batchHeader b) (s1.batchVlb b (s1.batchHeader b)) ts)) := by
  have hbit : bitN w 32 = true := (bitN_eq_getLsbD w 32).trans hcommit
  have hzero : bitsN w 33 15 = 0 := hreserved
  have hsome : b.slots.isEmpty = false := by
    have hmask : bitsN w 0 16 = w.toNat % 2 ^ 16 := by simp [bitsN]
    rw [List.isEmpty_eq_false_iff, hb]
    show slotsOf (bitsN w 0 16) ≠ []
    exact hmask ▸ slotsOf_ne_nil hslots (Nat.mod_lt _ (by omega))
  have hcl : s1 = s.setCluster b.cl { s.cluster b.cl with commit := w } := by rw [hs1, hb]; rfl
  rw [← hb] at hheld
  have hexec : exec (.batchCommit die cluster w) s = execBatchCommit die cluster w s := rfl
  simp only [execBatchCommit, ← hb, hheld, hminimal, hbit, hzero, hsome, ← hcl, Bool.or_self, Bool.not_true, bne_self_eq_false,
    Bool.false_eq_true, if_false] at hexec
  refine ⟨fun n hn => ?_, fun hn ts hts => ?_⟩
  · simp only [hexec, hn]
  · simp only [hexec, hn, hts]

end

/-- A batch that fails a check starts nothing and is reported (R99). -/
theorem batchCommit_refused {s : State} {die cluster : Nat} {w : Word} {n : Nat}
    (hheld : s.batchHeld (s.batchOf (die % 8) (cluster % 4) w) = false) (hminimal : s.boot.minimal = false) (hcommit : w.getLsbD 32 = true)
    (hreserved : w.toNat / 2 ^ 33 % 2 ^ 15 = 0) (hslots : w.toNat % 2 ^ 16 ≠ 0) {b : Batch} {s1 : State}
    (hb : b = s.batchOf (die % 8) (cluster % 4) w) (hs1 : s1 = s.committed (die % 8 * 4 + cluster % 4) w)
    (hfails : s1.batchFails b (s1.batchHeader b) = some n) :
    ∃ t q, exec (.batchCommit die cluster w) s = .next t ∧ OnlyTold s1 t (.rcd (die % 8) q 0) ∧ q.cause = 48 ∧
      q.detail = BitVec.ofNat 64 n ∧ q.ctx = b.ctx := by
  have hexec := (batchCommit_eq hheld hminimal hcommit hreserved hslots hb hs1).1 n hfails
  have hdie : b.die = die % 8 := by rw [hb]; rfl
  rw [hdie] at hexec
  exact ⟨_, _, hexec, rfl, rfl, rfl, rfl⟩

/-- A batch of one fresh strand that passes the checks starts it (R110, R119). -/
theorem batchCommit_starts {s : State} {die cluster slot : Nat} {w : Word}
    (hheld : s.batchHeld (s.batchOf (die % 8) (cluster % 4) w) = false) (hminimal : s.boot.minimal = false) (hslot : slot < 16)
    (hslots : w.toNat % 2 ^ 16 = 2 ^ slot) (hcommit : w.getLsbD 32 = true) (hreserved : w.toNat / 2 ^ 33 = 0) {r : BindRecord}
    (hr : r = (s.cluster (die % 8 * 4 + cluster % 4)).records.getD slot {}) (hsize : r.groupSz = 1) (hfresh : r.bflags.getLsbD 1 = false)
    {b : Batch} {s1 : State} (hb : b = s.batchOf (die % 8) (cluster % 4) w) (hs1 : s1 = s.committed (die % 8 * 4 + cluster % 4) w)
    (hpasses : s1.batchFails b (s1.batchHeader b) = none) :
    let src := die % 8 * 128 + cluster % 4 * 16 + slot
    ∃ t c h vlb copy matrix async, exec (.batchCommit die cluster w) s = .next t ∧ t.mem = s.mem ∧
      (t.cluster (die % 8 * 4 + cluster % 4)).commit = w ∧ t.strand src = { b.fresh r c h vlb with
        tlCopy := copy, tlMatrix := matrix, tlAsync := async, lastBraid := (s.strand src).lastBraid } ∧
      (∀ j, j ≠ src → t.strand j = s.strand j) ∧ b.ctx = r.ctxid.toNat ∧ (t.context b.ctx).state = 2 ∧
      ∃ g, look t.groups b.key = some g ∧ g.state = .resident ∧ g.members = [(r.strandIx.toNat, src)] := by
  have hmask : bitsN w 0 16 = 2 ^ slot := by simpa [bitsN] using hslots
  have hone : slotsOf (bitsN w 0 16) = [slot] := by rw [hmask, slotsOf_two_pow hslot]
  have hrecs : b.recs = [r] := by
    rw [hb, hr]
    show (slotsOf (bitsN w 0 16)).map _ = _
    rw [hone]; rfl
  have hsrcs : b.srcs = [die % 8 * 128 + cluster % 4 * 16 + slot] := by
    rw [hb]
    show (slotsOf (bitsN w 0 16)).map _ = _
    rw [hone]; rfl
  have hfirst : b.first = r := by rw [Batch.first, hrecs]; rfl
  have hb1 : b.size = 1 := by rw [Batch.size, hfirst, hsize]; rfl
  intro src
  obtain ⟨h, hh⟩ : ∃ h, h = s1.batchHeader b := ⟨_, rfl⟩
  obtain ⟨vlb, hvlb⟩ : ∃ vlb, vlb = s1.batchVlb b h := ⟨_, rfl⟩
  obtain ⟨t, ht⟩ : ∃ t, t = s1.readCounters src (b.fresh r (s1.context b.ctx) h vlb) := ⟨_, rfl⟩
  have hstrands : s1.batchStrands b h vlb (b.srcs.zip b.recs) = some [(src, t)] := by
    rw [hsrcs, hrecs, ht]; exact batchStrands_one hfresh
  have hexec := (batchCommit_eq hheld hminimal hcommit (by omega) (by rw [hslots]; exact (Nat.two_pow_pos slot).ne') hb hs1).2 hpasses
    [(src, t)] (by rw [← hh, ← hvlb]; exact hstrands)
  rw [← hh, ← hvlb] at hexec
  obtain ⟨copy, matrix, async, hread⟩ := readCounters_only s1 src (b.fresh r (s1.context b.ctx) h vlb)
  have hix : t.bind.ix = r.strandIx.toNat := by rw [ht, hread]; rfl
  obtain ⟨hmem, hcl, hstrand, hothers, hcontext, g, hg, hresident, hmembers⟩ := startBatch_one s1 h vlb src t hb1
  have hsame (j : Nat) : s1.strand j = s.strand j := by rw [hs1]; rfl
  refine ⟨_, s1.context b.ctx, h, vlb, copy, matrix, async, hexec, hmem.trans (by rw [hs1]; rfl),
    (hcl _).trans (by rw [hs1, State.committed, State.cluster_setCluster]), ?_,
    fun j hj => (hothers j hj).trans (hsame j), congrArg (fun x : BindRecord => x.ctxid.toNat) hfirst, hcontext, g, hg, hresident, ?_⟩
  · rw [hstrand, hsame, ht, hread]
  · rw [hmembers, hix]

/-! ## Barrier entries (R130) -/

section
variable {s : State} {die cluster entry : Nat} (w0 w1 : Word)

/-- The entry that firmware writes (R130). -/
def writtenBarrier (w0 w1 : Word) : Barrier :=
  { v := bitN w0 63, bound := false, local_ := bitsN w0 56 1, size := bitsN w0 48 5, batch := bitsN w0 32 16,
    phase := BitVec.ofNat 16 (bitsN w0 16 16), ended := BitVec.ofNat 16 (bitsN w1 16 16), arr := BitVec.ofNat 16 (bitsN w1 0 16) }

theorem bitsN_half_toNat (w : Word) (lo : Nat) : (BitVec.ofNat 16 (bitsN w lo 16)).toNat = w.toNat / 2 ^ lo % 2 ^ 16 := by
  rw [BitVec.toNat_ofNat, bitsN, Nat.mod_mod]

theorem barrierEntryWrite_bound (h : ((s.cluster (die % 8 * 4 + cluster % 4)).barriers.getD (entry % 16) {}).bound = true) :
    exec (.barrierEntryWrite die cluster entry w0 w1) s =
      .next (s.firmwareNote (die % 8) 51 0 (BitVec.ofNat 64 (cluster % 4 * 65536 + entry % 16)) 0xFFFFFFFF 0) :=
  congrArg Host.Outcome.next (if_pos h)

theorem barrierEntryWrite_free (h : ((s.cluster (die % 8 * 4 + cluster % 4)).barriers.getD (entry % 16) {}).bound = false) :
    exec (.barrierEntryWrite die cluster entry w0 w1) s =
      .next (s.setBarrier (die % 8 * 4 + cluster % 4) (entry % 16) (writtenBarrier w0 w1)) :=
  congrArg Host.Outcome.next (if_neg (by rw [h]; exact Bool.false_ne_true))

end

end Machine

/-- Settles O26: the checks of a batch decide whether it is reported or its one strand starts, with what its record gives and the counters
at TLBASE, after L1 settings that touch neither memory nor any strand; a barrier entry is one write of its cluster's table. -/
theorem batchesBindStrands : Obligations.BatchesBindStrands := by
  unfold Obligations.BatchesBindStrands
  intro s die cluster slot entry w w0 w1 n
  refine ⟨fun htakes hslot hslots hcommit hreserved hsize hfresh hpasses => ?_, fun htakes hcommit hreserved hslots hfails =>
      batchCommit_refused htakes.1 htakes.2 hcommit hreserved hslots rfl rfl hfails,
    fun hbound => ⟨_, _, barrierEntryWrite_bound w0 w1 hbound, rfl, rfl⟩, fun hbound => ?_⟩
  · obtain ⟨t, c, h, vlb, copy, matrix, async, hexec, hmem, hcl, hstrand, hothers, hctx, hcontext, hgroup⟩ :=
      batchCommit_starts htakes.1 htakes.2 hslot hslots hcommit hreserved rfl hsize hfresh rfl rfl hpasses
    refine ⟨t, hexec, fun a => by rw [hmem], hcl, ?_, ?_, ?_, ?_, ?_, fun k hk => ?zero, ?_, ?_, ?_, ?ctx, ?_, hothers,
      hctx ▸ hcontext, hgroup⟩
    case zero => rw [hstrand]; exact fresh_reg_zero (s.batchOf (die % 8) (cluster % 4) w) _ c h vlb hk
    case ctx => rw [hstrand]; exact hctx
    all_goals rw [hstrand]; rfl
  · refine ⟨_, writtenBarrier w0 w1, barrierEntryWrite_free w0 w1 hbound, rfl, ?_, bitN_eq_getLsbD w0 63, rfl, rfl, rfl, rfl,
      bitsN_half_toNat w0 16, bitsN_half_toNat w1 16, ?_, fun j hj => ?_⟩
    · rw [State.setBarrier, State.cluster_setCluster, Tbl.getD_set_self]
    · refine (bitsN_half_toNat w1 0).trans ?_
      rw [Nat.pow_zero, Nat.div_one]
    · rw [State.setBarrier, State.cluster_setCluster, Tbl.getD_set_ne _ _ _ _ _ hj]

end Sys2Proof
end

section
/-! PROOFS. Exceptions of the scalar side (R118, R120, R299, R305): a stop whose record its context's queue takes. -/

namespace Sys2Proof
open Machine Claims
namespace Machine

/-! ## The group halts with every member that runs or waits (R118, R120) -/

/-- The strand runs or waits at an instruction. -/
def Strand.live (t : Strand) : Prop := t.st = .running ∨ t.st = .waiting

theorem halt_of_live {t : Strand} (h : t.live) : t.halt.st = .halted := congrArg Strand.st (if_pos h)

theorem halt_of_halted {t : Strand} (h : t.st = .halted) : t.halt = t := if_neg (by simp [h])

theorem finishBarrier_live {s : State} {j : Nat} (h : (s.strand j).live) (m : Nat) : ((s.finishBarrier m).strand j).live := by
  simp only [State.finishBarrier]
  split
  · split
    · split
      · exact h
      · by_cases hj : j = m
        · rw [hj, State.strand_setStrand]; exact .inl rfl
        · rwa [State.strand_setStrand_ne _ _ _ _ hj]
    · exact h
  · exact h

theorem finishBarriers_live {s : State} {j : Nat} (h : (s.strand j).live) (l : List Nat) : ((s.finishBarriers l).strand j).live := by
  induction l generalizing s with
  | nil => exact h
  | cons m r ih => exact ih (finishBarrier_live h m)

theorem strand_haltAll_of_mem (s : State) {j : Nat} {l : List Nat} (h : j ∈ l) : (s.haltAll l).strand j = (s.strand j).halt := by
  have hrest (u : State) (r : List Nat) : (u.haltAll r).strand j = u.strand j ∨ (u.haltAll r).strand j = (u.strand j).halt := by
    induction r generalizing u with
    | nil => exact .inl rfl
    | cons m r ih =>
      have hstep := ih (u.updAt m Strand.halt)
      by_cases hj : j = m
      · rw [hj, State.strand_updAt, halt_halt, or_self] at hstep
        exact .inr (hj ▸ hstep)
      · rwa [State.strand_updAt_ne _ _ _ _ hj] at hstep
  induction l generalizing s with
  | nil => exact absurd h List.not_mem_nil
  | cons m r ih =>
    by_cases hj : j = m
    · have hhalted := hrest (s.updAt m Strand.halt) r
      rw [hj, State.strand_updAt, halt_halt, or_self] at hhalted
      exact hj ▸ hhalted
    · refine (ih _ ((List.mem_cons.mp h).resolve_left hj)).trans ?_
      rw [State.strand_updAt_ne _ _ _ _ hj]

/-- Every member of a resident group that runs or waits is halted with it; one that waits inside `end` is not asked for. -/
theorem haltGroup_members {s : State} {src m : Nat} {g : Group} (hgroup : look s.groups (s.strand src).group = some g)
    (hresident : g.state = .resident) (hm : m ∈ g.members.map Prod.snd) (hending : (s.strand m).wait ≠ .ending)
    (hlive : (s.strand m).live) :
    ((s.haltGroup src).strand m).st = .halted := by
  have hlook : s.group (s.strand src).group = g := congrArg (fun o : Option Group => o.getD {}) hgroup
  have hmem : m ∈ ((s.group (s.strand src).group).members.map Prod.snd).filter (fun m => (s.strand m).wait != .ending) := by
    rw [hlook]
    exact List.mem_filter.mpr ⟨hm, by simpa using hending⟩
  have hhalted : ((s.haltResident (s.strand src).group).strand m).st = .halted := by
    simp only [State.haltResident]
    rw [strand_haltAll_of_mem _ hmem]
    exact halt_of_live (finishBarriers_live hlive _)
  simp only [State.haltGroup, hgroup, hresident, if_true]
  by_cases hsrc : m = src
  · subst hsrc
    rw [State.strand_updAt]
    exact (congrArg Strand.st (halt_of_halted hhalted) :).trans hhalted
  · rw [State.strand_updAt_ne _ _ _ _ hsrc]
    exact hhalted

/-- Halting a group touches strands and groups alone. -/
theorem haltGroup_only (s : State) (src : Nat) : { s.haltGroup src with strands := s.strands, groups := s.groups } = s := by
  have hbarrier (u : State) (m : Nat) : { u.finishBarrier m with strands := u.strands } = u := by
    simp only [State.finishBarrier]
    split
    · split
      · split <;> rfl
      · rfl
    · rfl
  have hbarriers (l : List Nat) (u : State) : { u.finishBarriers l with strands := u.strands } = u := by
    induction l generalizing u with
    | nil => rfl
    | cons m r ih => exact (congrArg (fun v : State => { v with strands := u.strands }) (ih (u.finishBarrier m)) :).trans (hbarrier u m)
  have hall (l : List Nat) (u : State) : { u.haltAll l with strands := u.strands } = u := by
    induction l generalizing u with
    | nil => rfl
    | cons m r ih => exact (congrArg (fun v : State => { v with strands := u.strands }) (ih (u.updAt m Strand.halt)) :)
  have hresident (k : GroupKey) : { s.haltResident k with strands := s.strands, groups := s.groups } = s :=
    (congrArg (fun v : State => { v with strands := s.strands, groups := s.groups }) (hall _ _) :).trans
      (congrArg (fun v : State => { v with groups := s.groups }) (hbarriers _ s) :)
  simp only [State.haltGroup]
  split
  · rfl
  · split
    · exact hresident _
    · rfl

/-! ## An instruction that stops (R145, R299, R305) -/

/-- A record of a sound context, behind none of its source, is posted where its queue takes it (R305). -/
theorem post_of_taken {s u : State} {die : Nat} {r : FRec} (hstate : (s.context r.ctx).state ≠ 4) (hfirst : s.sourceWaits r = false)
    (hpost : s.tryPost die r.ctx r = .posted u) : s.post die r = u := by
  simp only [State.post, hstate, if_false, hpost, hfirst, Bool.false_eq_true]

/-- What a stop with one record leaves of a state that can post it, before the group halts. -/
theorem posted_keeps {s v : State} {src ctx : Nat} {pc : Word} {r q : FRec}
    (h : ((resumeAt s src pc).traceStop src r).tryPost (dieOf src) ctx q = .posted v) :
    v.strand src = { s.strand src with pc := pc } ∧ (∀ j, j ≠ src → v.strand j = s.strand j) ∧ v.groups = s.groups ∧
      v.cur = s.cur := by
  obtain ⟨-, -, honly⟩ := traceStop_keeps (resumeAt s src pc) src r
  obtain ⟨htraffic, -⟩ := tryPost_traffic h
  have hstrands : v.strands = (resumeAt s src pc).strands := (congrArg State.strands htraffic :).trans (congrArg State.strands honly :)
  refine ⟨strand_of_posted h, fun j hj => ?_, (congrArg State.groups htraffic :).trans (congrArg State.groups honly :),
    (congrArg State.cur htraffic :).trans (congrArg State.cur honly :)⟩
  rw [State.strand, hstrands]
  exact s.strand_updAt_ne src j _ hj

theorem SameReads.of_strands {s t : State} (h : { t with strands := s.strands } = s) : SameReads s t :=
  ⟨(congrArg State.mem h :), (congrArg State.poison h :), (congrArg State.flyWrites h :), (congrArg State.fmap h :),
    (congrArg State.contexts h :), (congrArg State.ports h :), (congrArg State.braidWindows h :), fun k => by
    show SameButTrace (s.die k) (t.dies.getD k {})
    rw [show t.dies = s.dies from (congrArg State.dies h :)]
    rfl⟩

/-- Nothing changed, but that the executing strand may have made the reads of its long-latency loads. -/
def OnlyLands (s t : State) : Prop := OnlyStrand s.cur.src s t ∧ { t.me with lands := s.me.lands } = s.me

theorem OnlyLands.refl (s : State) : OnlyLands s s := ⟨⟨rfl, fun _ _ => rfl⟩, rfl⟩

theorem OnlyLands.fixReads (s : State) : OnlyLands s (s.upd Strand.fixReads) := by
  obtain ⟨l, hl⟩ := s.me.fixReads_eq
  have hme : (s.upd Strand.fixReads).me = s.me.fixReads := s.strand_updAt s.cur.src _
  exact ⟨⟨rfl, fun j hj => s.strand_updAt_ne s.cur.src j _ hj⟩, by rw [hme, hl]⟩

section
variable {s u v : State} (hv : OnlyLands s v) {cause kind : Nat} {va detail : Word}
include hv

/-- A stop whose record the queue takes: the record is posted, with no other change, and then the group halts. -/
theorem scalarStop_of_posted (hrunning : s.me.st = .running) (hstate : (s.context s.me.bind.ctx).state ≠ 4)
    (hfirst : s.sourceWaits (scalarRec s cause kind va s.me.pc detail) = false)
    (hpost : s.tryPost (dieOf s.cur.src) s.me.bind.ctx (scalarRec s cause kind va s.me.pc detail) = .posted u) :
    ∃ w : State, v.scalarStop cause kind va detail = w.haltGroup s.cur.src ∧ w.mem = u.mem ∧ w.me = v.me ∧
      (∀ j, j ≠ s.cur.src → w.strand j = s.strand j) ∧ w.groups = s.groups ∧ w.cur = s.cur := by
  obtain ⟨⟨hrest, hothers⟩, hf⟩ := hv
  have hcur : v.cur = s.cur := (congrArg State.cur hrest :)
  have hme : v.strand s.cur.src = v.me := by rw [State.me, hcur]
  have hbind : v.me.bind = s.me.bind := (congrArg Strand.bind hf :)
  have hpc : v.me.pc = s.me.pc := (congrArg Strand.pc hf :)
  have hst : v.me.st = .running := (congrArg Strand.st hf :).trans hrunning
  obtain ⟨r, hr⟩ : ∃ r, r = v.record s.cur.src cause kind va 0xFFFFFFFF 0 s.me.pc detail := ⟨_, rfl⟩
  have hrecord : { r with halted := true, more := false } = scalarRec s cause kind va s.me.pc detail := by
    have hgtc : v.gtcOf s.cur.src = s.gtcOf s.cur.src :=
      congrArg (fun l : Tbl Die => (l.getD (dieOf s.cur.src) {}).gtc) (congrArg State.dies hrest :)
    rw [hr, State.record, hme, hbind, hgtc]; rfl
  have hstop : v.scalarStop cause kind va detail = v.takeStop s.cur.src s.me.pc [r] := by
    rw [State.scalarStop, hpc, hcur, hr]
  obtain ⟨htrace, htcopying, honly⟩ := traceStop_keeps (resumeAt v s.cur.src s.me.pc) s.cur.src r
  have hreads : SameReads s ((resumeAt v s.cur.src s.me.pc).traceStop s.cur.src r) :=
    ((SameReads.of_strands hrest).trans (.updAt _ s.cur.src _)).trans htrace
  obtain ⟨w, hw, hsame⟩ := hreads.tryPost (htcopying.trans (congrArg State.copying hrest :)) hpost
  rw [← hrecord] at hw hfirst
  have hctx : r.ctx = s.me.bind.ctx := (congrArg FRec.ctx hrecord :)
  have hwaiting : ((resumeAt v s.cur.src s.me.pc).traceStop s.cur.src r).waitingRecs = s.waitingRecs :=
    (congrArg State.waitingRecs honly :).trans (congrArg State.waitingRecs hrest :)
  rw [← hctx] at hw hstate
  have hposted := post_of_taken (r := { r with halted := true, more := false }) (by rw [hreads.context]; exact hstate)
    (by rw [State.sourceWaits, hwaiting]; exact hfirst) hw
  obtain ⟨hstrand, hposts, hgroups, hwcur⟩ := posted_keeps hw
  have hwme : w.strand s.cur.src = v.me := by rw [hstrand, hme, ← hpc]
  have htake : v.takeStop s.cur.src s.me.pc [r] = w.haltGroup s.cur.src := by
    rw [takeStop_singleton, hposted]
    exact if_neg (by rw [hwme, hst]; simp)
  refine ⟨w, hstop.trans htake, hsame.mem, by rw [State.me, hwcur, hcur]; exact hwme,
    fun j hj => (hposts j hj).trans (hothers j hj), hgroups.trans (congrArg State.groups hrest :), hwcur.trans hcur⟩

/-- An instruction that stops, after at most the reads of its strand's loads were made, takes the exception. -/
theorem takesException_of_stop {i : Instr} (hexec : exec i s = .next (v.scalarStop cause kind va detail)) :
    TakesException i s s.me.pc (scalarRec s cause kind va s.me.pc detail) := by
  intro u hrunning hwait hstate hfirst hpost
  obtain ⟨w, hstop, hmem, hme, hothers, hgroups, hcur⟩ := scalarStop_of_posted hv hrunning hstate hfirst hpost
  have hf := hv.2
  have hstrand : w.strand s.cur.src = v.me := by rw [← hme, State.me, hcur]
  obtain ⟨hmem', hhalt⟩ := haltGroup_keeps (s := w) (src := s.cur.src) (by rw [hstrand]; exact (congrArg Strand.wait hf :).trans hwait)
  have hdone : (w.haltGroup s.cur.src).me = { v.me with st := .halted, replay := none } := by
    rw [State.me, (congrArg State.cur (haltGroup_only w s.cur.src) :), hcur, hhalt, hstrand]
    exact halt_of_running ((congrArg Strand.st hf :).trans hrunning)
  have hmember (m : Nat) : (w.strand m).wait = (s.strand m).wait ∧ (w.strand m).st = (s.strand m).st := by
    by_cases hm : m = s.cur.src
    · rw [hm, hstrand]
      exact ⟨(congrArg Strand.wait hf :), (congrArg Strand.st hf :)⟩
    · rw [hothers m hm]
      exact ⟨rfl, rfl⟩
  have hbind : v.me.bind = s.me.bind := (congrArg Strand.bind hf :)
  rw [hstop] at hexec
  refine ⟨_, hexec, hmem'.trans hmem, ?_, ?_, fun n => ?_, ?_, ?_, fun g hg hresident m hm hending hlive =>
    haltGroup_members (g := g) ?_ hresident hm (by rw [(hmember m).1]; exact hending) (by rw [Strand.live, (hmember m).2]; exact hlive)⟩
  · rw [hdone]; exact (congrArg Strand.pc hf :)
  · rw [hdone]
  · rw [State.rd, hdone]; exact (congrArg (fun t : Strand => t.reg n.toNat) hf :)
  · rw [hdone]; exact (congrArg Strand.vec hf :)
  · rw [hdone]; exact (congrArg Strand.csr hf :)
  · rw [hgroups, hstrand, Strand.group, hbind]
    exact hg

end

end Machine
end Sys2Proof
end

section
/-! PROOFS. The queue instructions (R97): `qpost`. -/

namespace Sys2Proof
open Machine Claims
namespace Machine

/-! ## Atomics that nothing keeps on its way (R147, R268) -/

/-- A clock that takes another's counts stays below what both are below. -/
theorem merge_clock_lt {d : Die} {c : List Nat} {k n : Nat} (hd : d.clock.getD k 0 < n) (hc : c.getD k 0 < n) :
    (d.merge c).clock.getD k 0 < n := by
  have hfold (l : List Nat) (t : Tbl Nat) (ht : t.getD k 0 < n) :
      (l.foldl (fun t j => if t.getD j 0 < c.getD j 0 then t.set j (c.getD j 0) else t) t).getD k 0 < n := by
    induction l generalizing t with
    | nil => exact ht
    | cons j r ih =>
      refine ih _ ?_
      dsimp only
      split
      · rw [Tbl.getD_set]
        split
        · next h => rwa [← h]
        · exact ht
      · exact ht
  exact hfold _ _ hd

theorem counts_getD_lt {d : Die} {k n : Nat} (h : d.clock.getD k 0 < n) : d.counts.getD k 0 < n := by
  rw [Die.counts, List.getD_eq_getElem?_getD, List.getElem?_map]
  by_cases hk : k < 8
  · rw [List.getElem?_range hk]; exact h
  · rw [List.getElem?_eq_none (by simpa using hk)]; exact Nat.lt_of_le_of_lt (Nat.zero_le _) h

section
variable {s : State} {p : Place} (howed : NoneOwed s p)
include howed

theorem owed_of_noneOwed : ∀ f ∈ s.flyWrites, s.owed (dieOf s.cur.src) p f = false := by
  intro f hf
  by_cases hhome : f.home = p.home
  · rcases howed f hf hhome with hown | ⟨hlt, -⟩
    · simp [State.owed, hown]
    · rw [State.owed, decide_eq_false (Nat.not_le.mpr hlt), Bool.and_false]
  · simp [State.owed, hhome]

/-- What the die learns of the home as it reads there leaves nothing owed. -/
theorem noneOwed_clockFrom : NoneOwed (s.clockFrom (dieOf s.cur.src) p) p := by
  unfold State.clockFrom
  split
  · exact howed
  next hne =>
  intro f hf hhome
  refine (howed f hf hhome).imp_right fun ⟨hdie, hplace⟩ => ⟨?_, ?_⟩
  · show Tbl.getD ((s.setDie _ _).die (dieOf s.cur.src)).clock f.fromDie 0 < _
    rw [State.die_setDie]
    exact merge_clock_lt hdie (counts_getD_lt hplace)
  · rwa [State.die_setDie_ne _ _ _ _ hne]

theorem noneOwed_seeLine (line : Nat) : NoneOwed (s.seeLine line) p := by
  unfold State.seeLine
  split <;> exact howed

/-- An atomic that follows no write on its way: its bytes are read and written at the place, with no more than traffic. -/
theorem atomicAt_of_noneOwed (hm : MemOk s) (va : Word) (n op b e : Nat) :
    (s.atomicAt va p n op b e).2 = memNat s p.key n ∧ Traffic s (s.atomicAt va p n op b e).1 ∧
    (s.atomicAt va p n op b e).1.mem = Memory.writeBytes s.mem p.key (leBytes n (amoNew op (8 * n) (memNat s p.key n) b e)) := by
  obtain ⟨t, ht⟩ : ∃ t, t = s.meetLines (dieOf s.cur.src) [p] := ⟨_, rfl⟩
  obtain ⟨x, hx⟩ : ∃ x, x = leBytes n (amoNew op (8 * n) (memNat s p.key n) b e) := ⟨_, rfl⟩
  have hpaid : s.payOwed (dieOf s.cur.src) p = s :=
    State.landWrites_none _ _ (List.any_eq_false.mpr fun f hf => by simp [owed_of_noneOwed howed f hf])
  have htraffic : Traffic s t := ht ▸ s.meetLines_traffic _ _
  have hmem : t.mem = s.mem := by
    have hfrom : (s.clockFrom (dieOf s.cur.src) p).mem = s.mem := by unfold State.clockFrom; split <;> rfl
    rw [ht, ← hfrom]
    exact (congrArg State.mem (State.seeLine_only (s.clockFrom (dieOf s.cur.src) p) (lineOf p.key)) :)
  have hcur : t.cur = s.cur := (congrArg State.cur htraffic.1 :)
  have hatomic : s.atomicAt va p n op b e = (t.performNow s.cur.src va p x, memNat s p.key n) := by
    rw [State.atomicAt, hpaid, ← ht, hx, ← leNat_readBytes s hm p.key n, ← hcur]; rfl
  have hmet : NoneOwed t p := ht ▸ noneOwed_seeLine (noneOwed_clockFrom howed) (lineOf p.key)
  have hclock : (t.clockTo (dieOf s.cur.src) p).mem = t.mem := by
    rw [← hcur]
    exact (congrArg State.mem (clockTo_spec (owed_of_noneOwed hmet)).1 :)
  rw [hatomic]
  refine ⟨rfl, htraffic.trans (t.performNow_traffic _ _ _ _ _), ?_⟩
  show ((t.clockTo (dieOf s.cur.src) p).writePlace p x).mem = _
  rw [State.writePlace, State.writeAt_mem, hclock, hmem, hx]

end

/-- The number in bytes that were written. -/
theorem memNat_of_bytes {t : State} {bs : List Byte} {k : Nat} (h : ∀ i, i < bs.length → Memory.read t.mem (k + i) = bs.getD i 0) :
    memNat t k bs.length = leNat bs := by
  induction bs generalizing k with
  | nil => rfl
  | cons b r ih =>
    have hfirst : Memory.read t.mem k = b := h 0 (by simp)
    rw [List.length_cons, memNat, leNat, hfirst, ih fun i hi => ?_]
    have hnext := h (i + 1) (by simpa using hi)
    rwa [← Nat.add_assoc, Nat.add_right_comm, List.getD_cons_succ] at hnext

section
variable {s t : State} (hm : MemOk s) {k x : Nat} (ht : t.mem = Memory.writeBytes s.mem k (leBytes 8 x))
include hm ht

/-- A word that was written is read back. -/
theorem memNat_of_written (hx : x < 2 ^ 64) : memNat t k 8 = x := by
  have hbytes : memNat t k (leBytes 8 x).length = leNat (leBytes 8 x) := memNat_of_bytes fun i hi => by
    rw [ht, Memory.read_writeBytes _ hm, if_pos (by omega), Nat.add_sub_cancel_left]
  rw [leBytes_length, leNat_leBytes] at hbytes
  rw [hbytes]
  exact Nat.mod_eq_of_lt (by omega)

theorem memSameBut_of_written : MemSameBut s t k 8 := fun a ha => by
  rw [ht, Memory.read_writeBytes _ hm, leBytes_length, if_neg (by omega)]

end

/-! ## The queue that is named (R97) -/

section
variable {s : State} {sa : BitVec 5}

theorem queueOperand_of_mayPost (h : MayPost s (s.rd sa).toNat) (k : Nat → Queue → Out) :
    s.queueOperand sa k = k (s.rd sa).toNat (s.queue (s.rd sa).toNat) := by
  obtain ⟨hlt, hstate, hctx⟩ := h
  exact if_neg (by rw [beq_false_of_ne hstate]; simp [hctx, hlt])

theorem queueOperand_of_not_mayPost (h : ¬MayPost s (s.rd sa).toNat) (k : Nat → Queue → Out) :
    s.queueOperand sa k = .next (s.scalarStop 23 0 (s.rd sa) 0) := by
  have hbad : ((s.rd sa).toNat > 1023 || (s.queue (s.rd sa).toNat).desc.state == 0 ||
      decide ((s.queue (s.rd sa).toNat).desc.postCtx.toNat ≠ s.me.bind.ctx)) = true := by
    by_contra hgood
    simp only [Bool.not_eq_true, Bool.or_eq_false_iff, decide_eq_false_iff_not, beq_eq_false_iff_ne, not_not] at hgood
    exact h ⟨Nat.not_lt.mp hgood.1.1, hgood.1.2, hgood.2⟩
  refine (if_pos hbad).trans ?_
  rw [BitVec.ofNat_toNat, BitVec.setWidth_eq]

theorem qpost_of_not_mayPost {x : SReg3} (h : ¬MayPost s (s.rd x.sa).toNat) :
    exec (.qpost x) s = .next (s.scalarStop 23 0 (s.rd x.sa) 0) :=
  show execQpost x s = _ from queueOperand_of_not_mayPost h _

theorem qhash_of_not_mayPost {x : SReg3} (h : ¬MayPost s (s.rd x.sa).toNat) :
    exec (.qhash x) s = .next (s.scalarStop 23 0 (s.rd x.sa) 0) :=
  show execQhash x s = _ from queueOperand_of_not_mayPost h _

end

/-! ## `qpost` (R97) -/

section
variable {v : State} {q n ctx : Nat} {qu : Queue} {sd : BitVec 5} {sec : Bool} {xl : Xl} {p : Place} (hctx : ctx = qu.desc.ctxid.toNat)
  (hsec : sec = (v.context ctx).flags.getLsbD 0) (hheld : v.accessHeld (dieOf v.cur.src) ctx sec .atomic qu.desc.qcb = false)
include hctx hsec hheld

/-- A TAIL whose place takes no atomic stops the instruction with DETAIL 16. -/
theorem postTail_stops (h :
      (v.translate (dieOf v.cur.src) ctx sec .atomic qu.desc.qcb = .ok xl ∧ xl.place = some p ∧ xl.fme.kind = 5) ∨
      v.translate (dieOf v.cur.src) ctx sec .atomic qu.desc.qcb = .error 16) :
    v.postTail q qu n sd = v.scalarStop 23 0 (BitVec.ofNat 64 q) 16 := by
  subst hctx hsec
  rcases h with ⟨hok, hplace, hkind⟩ | herror
  · simp only [State.postTail, hheld, hok, hplace, hkind, Bool.false_eq_true, if_false, if_true]
    rfl
  · simp only [State.postTail, hheld, herror, Bool.false_eq_true, if_false]
    rfl

/-- The atomic is made, the front-end is told, and the sum goes to sd. -/
theorem postTail_posts (hok : v.translate (dieOf v.cur.src) ctx sec .atomic qu.desc.qcb = .ok xl) (hplace : xl.place = some p)
    (hkind : xl.fme.kind ≠ 5) (hclean : v.poisoned p 8 = false) {a : State} {old : Nat}
    (ha : v.atomicAt qu.desc.qcb p 8 0 n 0 = (a, old)) :
    v.postTail q qu n sd = (a.setQueue q { a.queue q with noticed := true }).wrNext sd (BitVec.ofNat 64 ((old + n) % 2 ^ 64)) := by
  subst hctx hsec
  simp only [State.postTail, hheld, hok, hplace, hkind, hclean, Bool.false_eq_true, if_false, ha]

end

section
variable {s : State} {x : SReg3} (hpost : MayPost s (s.rd x.sa).toNat)
include hpost

theorem qpost_of_count (hcount : 255 < (s.rd x.sb).toNat) : exec (.qpost x) s = .next (s.scalarStop 5 0 0 5) := by
  show execQpost x s = _
  rw [execQpost, queueOperand_of_mayPost hpost]
  exact if_pos hcount

/-- With nothing of the strand under way only the atomic is left to do. -/
theorem qpost_of_idle (hcount : (s.rd x.sb).toNat ≤ 255) (hidle : Idle s) (hstrip : NoStrip s) :
    exec (.qpost x) s = .next ((s.upd Strand.fixReads).postTail (s.rd x.sa).toNat (s.queue (s.rd x.sa).toNat) (s.rd x.sb).toNat x.sd) := by
  obtain ⟨hviq, hssq, -, -, -, hflying, hlinks⟩ := hidle
  obtain ⟨l, hl⟩ := s.me.fixReads_eq
  have hvec : s.me.lastVecMem = none := by rw [Strand.lastVecMem, hviq]; rfl
  have hevent : (s.me.ssq.isEmpty && s.me.openStrip.isNone) = true := by rw [hssq, hstrip]; rfl
  have hrd : (s.upd Strand.fixReads).rd x.sb = s.rd x.sb := by rw [State.rd, State.me_upd, hl]; rfl
  have hdone : (s.upd Strand.fixReads).writesDone (s.upd Strand.fixReads).cur.src 4 = true := by
    show ((_ || !s.flying s.cur.src) && (_ || !s.linkPending s.cur.src)) = true
    rw [hflying, hlinks]; rfl
  show execQpost x s = _
  rw [execQpost, queueOperand_of_mayPost hpost]
  refine (if_neg (Nat.not_lt.mpr hcount)).trans ?_
  simp only [hvec, State.withStripEvent, State.stripEventOr, hevent, if_true, hdone, Bool.not_true, Bool.false_eq_true, if_false, hrd]

section
variable {ctx : Nat} {qcb : Word} {sec : Bool} {xl : Xl} {p : Place} (hcount : (s.rd x.sb).toNat ≤ 255)
  (hidle : Idle s) (hstrip : NoStrip s) (hqcb : (s.queue (s.rd x.sa).toNat).desc.qcb = qcb)
  (hctx : (s.queue (s.rd x.sa).toNat).desc.ctxid.toNat = ctx)
  (hsec : (s.context ctx).flags.getLsbD 0 = sec) (hheld : s.accessHeld (dieOf s.cur.src) ctx sec .atomic qcb = false)
include hcount hidle hstrip hqcb hctx hsec hheld

theorem qpost_stops (h : (s.translate (dieOf s.cur.src) ctx sec .atomic qcb = .ok xl ∧ xl.place = some p ∧ xl.fme.kind = 5) ∨
      s.translate (dieOf s.cur.src) ctx sec .atomic qcb = .error 16) :
    exec (.qpost x) s = .next ((s.upd Strand.fixReads).scalarStop 23 0 (s.rd x.sa) 16) := by
  have hreads : SameReads s (s.upd Strand.fixReads) := .updAt s s.cur.src _
  have hstop := postTail_stops (v := s.upd Strand.fixReads) (q := (s.rd x.sa).toNat) (n := (s.rd x.sb).toNat)
    (qu := s.queue (s.rd x.sa).toNat) (sd := x.sd) (xl := xl) (p := p) hctx.symm hsec.symm (by rw [hqcb]; exact hheld)
    (by rw [hqcb, hreads.translate]; exact h)
  rw [BitVec.ofNat_toNat, BitVec.setWidth_eq] at hstop
  exact (qpost_of_idle hpost hcount hidle hstrip).trans (congrArg _ hstop)

/-- The instruction that makes its atomic: what is left of it. -/
theorem qpost_posts (hm : MemOk s) (hok : s.translate (dieOf s.cur.src) ctx sec .atomic qcb = .ok xl)
    (hplace : xl.place = some p) (hkind : xl.fme.kind ≠ 5) (hclean : s.poisoned p 8 = false) (howed : NoneOwed s p) :
    ∃ a : State, Traffic (s.upd Strand.fixReads) a ∧
      a.mem = Memory.writeBytes s.mem p.key (leBytes 8 ((memNat s p.key 8 + (s.rd x.sb).toNat) % 2 ^ 64)) ∧
      exec (.qpost x) s = .next ((a.setQueue (s.rd x.sa).toNat { a.queue (s.rd x.sa).toNat with noticed := true }).wrNext x.sd
        (BitVec.ofNat 64 ((memNat s p.key 8 + (s.rd x.sb).toNat) % 2 ^ 64))) := by
  have hreads : SameReads s (s.upd Strand.fixReads) := .updAt s s.cur.src _
  have hsame : memNat (s.upd Strand.fixReads) p.key 8 = memNat s p.key 8 := rfl
  obtain ⟨hold, htraffic, hwritten⟩ := atomicAt_of_noneOwed (s := s.upd Strand.fixReads) (p := p) howed hm qcb 8 0 (s.rd x.sb).toNat 0
  obtain ⟨⟨a, old⟩, ha⟩ : ∃ r, r = (s.upd Strand.fixReads).atomicAt qcb p 8 0 (s.rd x.sb).toNat 0 := ⟨_, rfl⟩
  rw [← ha] at hold htraffic hwritten
  have hdone := postTail_posts (v := s.upd Strand.fixReads) (q := (s.rd x.sa).toNat) (n := (s.rd x.sb).toNat)
    (qu := s.queue (s.rd x.sa).toNat) (sd := x.sd) (a := a) (old := old) hctx.symm hsec.symm (by rw [hqcb]; exact hheld)
    (by rw [hqcb, hreads.translate]; exact hok) hplace hkind (by rw [hreads.poisoned]; exact hclean) (by rw [hqcb, ha])
  rw [show old = memNat s p.key 8 from hold] at hdone
  exact ⟨a, htraffic, hwritten, (qpost_of_idle hpost hcount hidle hstrip).trans (congrArg _ hdone)⟩

end

end

/-- The state once the atomic on TAIL is made, the front-end is told and sd is written. -/
theorem posted_spec {s a t : State} {q new : Nat} {p : Place} {sd : BitVec 5} (hm : MemOk s) (htraffic : Traffic (s.upd Strand.fixReads) a)
    (hmem : a.mem = Memory.writeBytes s.mem p.key (leBytes 8 new)) (hnew : new < 2 ^ 64)
    (ht : t = (a.setQueue q { a.queue q with noticed := true }).wrNext sd (BitVec.ofNat 64 new)) :
    memNat t p.key 8 = new ∧ MemSameBut s t p.key 8 ∧ (t.queue q).noticed = true ∧ (∀ k, k ≠ q → t.queue k = s.queue k) ∧
      RegsBut s t sd ∧ RunsAt t (s.me.pc + 4) ∧ (sd ≠ 0 → (t.rd sd).toNat = new) ∧
      (∀ j, j ≠ s.cur.src → t.strand j = s.strand j) ∧ t.me.vec = s.me.vec := by
  have htmem : t.mem = Memory.writeBytes s.mem p.key (leBytes 8 new) := by rw [ht]; exact hmem
  have hqueues (k : Nat) : a.queue k = s.queue k := congrArg (fun l : Tbl Queue => l.getD k {}) (congrArg State.queues htraffic.1 :)
  have hstrands (j : Nat) : a.strand j = (s.upd Strand.fixReads).strand j :=
    congrArg (fun l : Tbl Strand => l.getD j {}) (congrArg State.strands htraffic.1 :)
  have hcur : a.cur = s.cur := (congrArg State.cur htraffic.1 :)
  obtain ⟨l, hl⟩ := s.me.fixReads_eq
  have hme : a.me = { s.me with lands := l } := by
    rw [State.me, hcur, hstrands, ← hl]; exact s.me_upd _
  obtain ⟨⟨-, hothers⟩, -, -, ⟨hregs, hzero⟩, hruns⟩ :=
    scalarStep_wrNext (a.setQueue q { a.queue q with noticed := true }) sd (BitVec.ofNat 64 new)
  rw [← ht] at hothers hregs hzero hruns
  refine ⟨memNat_of_written hm htmem hnew, memSameBut_of_written hm htmem, ?_, fun k hk => ?_, ⟨fun m hm => ?_, hzero⟩, ?_,
    fun hsd => ?_, fun j hj => ?_, ?_⟩
  · rw [ht]
    exact congrArg Queue.noticed (State.queue_setQueue a q _)
  · rw [ht, ← hqueues]
    exact State.queue_setQueue_ne a q _ k hk
  · rw [hregs m hm]
    show a.me.reg m.toNat = s.me.reg m.toNat
    rw [hme]; rfl
  · have hpc : (a.setQueue q { a.queue q with noticed := true }).me.pc = s.me.pc := (congrArg Strand.pc hme :)
    rwa [hpc] at hruns
  · rw [ht, State.rd_wrNext, if_neg hsd, if_pos rfl, BitVec.toNat_ofNat, Nat.mod_eq_of_lt hnew]
  · rw [hothers j (by rw [show (a.setQueue q _).cur = s.cur from hcur]; exact hj)]
    exact (hstrands j).trans (s.strand_upd_ne j _ hj)
  · rw [ht, State.me_wrNext]
    show ((a.me.setReg sd.toNat _).advance).vec = _
    rw [hme]
    unfold Strand.setReg
    split <;> rfl

end Machine

theorem qpostAdvancesTheTail : Claims.QpostAdvancesTheTail := by
  intro s x xl p q die ctx qcb sec new
  refine ⟨fun hpost hcount hidle hstrip hheld => ⟨fun hm hok hplace hkind hclean _ howed => ?_, fun h => ?_⟩,
    fun hpost => ⟨?_, ?_⟩, fun hpost hcount => ?_⟩
  · obtain ⟨a, htraffic, hmem, hexec⟩ := qpost_posts hpost hcount hidle hstrip rfl rfl rfl hheld hm hok hplace hkind hclean howed
    exact ⟨_, hexec, posted_spec hm htraffic hmem (Nat.mod_lt _ (by omega)) rfl⟩
  · exact takesException_of_stop (.fixReads s) (qpost_stops hpost hcount hidle hstrip rfl rfl rfl hheld h)
  · exact takesException_of_stop (.refl s) (qpost_of_not_mayPost hpost)
  · exact takesException_of_stop (.refl s) (qhash_of_not_mayPost hpost)
  · exact takesException_of_stop (.refl s) (qpost_of_count hpost hcount)

end Sys2Proof
end

section
/-! PROOFS. The queue instructions (R97): `qhash`, whose six stores are queued one after the other (R145, R146). -/

namespace Sys2Proof
open Machine Claims
namespace Machine

/-! ## A store that passes its checks (R144, R205) -/

/-- A store that resolves to a place reaches that place alone. -/
theorem placesOf_of_write {s : State} {die fa : Nat} {secure : Bool} {f : Fme} {x : Xl} {p : Place}
    (h : s.resolveAs die secure .write fa f = .ok x) (hp : x.place = some p) : s.placesOf x.fme die (x.fa % 65536) .write = [p] := by
  have hplace := resolveAs_place h hp
  have hkind : f.kind ≠ 4 := by
    intro h4
    simp only [State.resolveAs, h4] at h
    split at h
    · cases h
    split at h
    · cases h
    split at h <;> cases h
  have hx : x.fme = f ∧ x.fa = fa := by
    unfold State.resolveAs at h
    dsimp only at h
    split at h
    · cases h
    split at h
    · cases h
    split at h
    · cases h
    split at h
    case h_7 =>
      split at h
      · cases h
      split at h
      · cases h
      · cases h
        exact ⟨rfl, rfl⟩
    all_goals cases h
    all_goals cases hp
  obtain ⟨hfme, hfa⟩ := hx
  rw [hfme, hfa, State.placesOf, if_neg hkind, if_neg (by simp), hplace]
  rfl

theorem translate_resolveAs {s : State} {die ctx : Nat} {secure : Bool} {acc : Access} {va : Word} {core : Option Nat} {x : Xl}
    (h : s.translate die ctx secure acc va core = .ok x) : ∃ fa f, s.resolveAs die secure acc fa f = .ok x := by
  unfold State.translate at h
  split at h
  · cases h
  split at h
  · cases h
  split at h
  · cases h
  exact ⟨_, _, h⟩

/-- A store whose access passes every check of R144, R205, R211, R216, R320 and R345 is allowed. -/
theorem checkAccess_of_reaches {s : State} {va : Word} {n : Nat} {x : Xl} {p : Place} (h : Reaches s .write va n x p) :
    s.checkAccess .write va n (s.scalarWatched .write va n) false = .ok x p := by
  obtain ⟨hwatch, hrange, halign, hwalk, hx, hp, hexists, hw, hbusy, hclean, -⟩ := h
  obtain ⟨fa, f, hresolve⟩ := translate_resolveAs hx
  have hplaces := placesOf_of_write hresolve hp
  have htop : bitsN va 48 16 = 0 := by rw [bitsN, Nat.div_eq_of_lt hrange, Nat.zero_mod]
  simp [State.checkAccess, hwatch, htop, halign, hwalk, State.translateHeld, hx, hp, hexists, hw rfl, hplaces, hbusy, hclean]

/-! ## Queued stores change nothing that the next one's checks read (R146, R208) -/

/-- Stores of the executing strand were translated and queued: of the package, the three caches of the dies have changed, with no frame's
entry moved and no page lost from the core's TLB. -/
structure Queued (s t : State) (es : List QStore) : Prop where
  only : { t with strands := s.strands, dies := s.dies } = s
  dies : ∀ k, { t.die k with tlb := (s.die k).tlb, l1Tlb := (s.die k).l1Tlb, fmCache := (s.die k).fmCache } = s.die k
  fme : ∀ die frame, t.fme die frame = s.fme die frame
  l1 : (t.die (dieOf s.cur.src)).l1Tlb.getD (coreOf s.cur.src % 16) [] = (s.die (dieOf s.cur.src)).l1Tlb.getD (coreOf s.cur.src % 16) []
  me : t.me = { s.me with ssq := s.me.ssq ++ es }
  others : ∀ j, j ≠ s.cur.src → t.strand j = s.strand j

theorem Queued.refl (s : State) : Queued s s [] :=
  ⟨rfl, fun _ => rfl, fun _ _ => rfl, rfl, by rw [List.append_nil], fun _ _ => rfl⟩

/-- The L1 TLB of the executing strand's core holds the page. -/
def Covered (s : State) (va : Word) : Prop :=
  ∃ e ∈ (s.die (dieOf s.cur.src)).l1Tlb.getD (coreOf s.cur.src % 16) [], e.covers s.me.bind.ctx (va.toNat / 65536) = true

section
variable {s t : State} {es : List QStore} (h : Queued s t es)
include h

theorem Queued.cur : t.cur = s.cur := (congrArg State.cur h.only :)

theorem Queued.regionSecure (p : Place) : t.regionSecure p = s.regionSecure p := by
  have hregions (d : Nat) : (t.die d).regions = (s.die d).regions := (congrArg Die.regions (h.dies d) :)
  simp only [State.regionSecure, hregions]

theorem Queued.placeLost (die : Nat) (p : Place) : t.placeLost die p = s.placeLost die p := by
  have hlost (d : Nat) : (t.die d).lostPcs = (s.die d).lostPcs := (congrArg Die.lostPcs (h.dies d) :)
  have hwindows : (t.die die).windows = (s.die die).windows := (congrArg Die.windows (h.dies die) :)
  have hports : t.ports = s.ports := (congrArg State.ports h.only :)
  cases p <;> simp only [State.placeLost, hlost, State.portOf, hwindows, State.port, hports]

theorem Queued.placesOf (f : Fme) (die off : Nat) (acc : Access) : t.placesOf f die off acc = s.placesOf f die off acc := by
  have hwindows : t.braidWindows = s.braidWindows := (congrArg State.braidWindows h.only :)
  simp only [State.placesOf, hwindows]

theorem Queued.resolve (die : Nat) (secure : Bool) (acc : Access) (fa : Nat) :
    t.resolve die secure acc fa = s.resolve die secure acc fa := by
  have hregion : t.regionSecure = s.regionSecure := funext h.regionSecure
  have hlost : t.placeLost die = s.placeLost die := funext (h.placeLost die)
  simp only [State.resolve, State.resolveAs, h.fme, h.placesOf, hregion, hlost]

theorem Queued.placeBusy (p : Place) : t.placeBusy p = s.placeBusy p := by
  have hcopying (d : Nat) : (t.die d).spareCopying = (s.die d).spareCopying := (congrArg Die.spareCopying (h.dies d) :)
  have hspare (d : Nat) : (t.die d).spareFor = (s.die d).spareFor := (congrArg Die.spareFor (h.dies d) :)
  cases p <;> simp only [State.placeBusy, hcopying, hspare]

theorem Queued.poisoned (p : Place) (n : Nat) : t.poisoned p n = s.poisoned p n := by
  have hpoison : t.poison = s.poison := (congrArg State.poison h.only :)
  simp only [State.poisoned, hpoison]

/-- A page that the core's L1 TLB holds is found there, whatever else was cached. -/
theorem Queued.cached {va : Word} (hcovered : Covered s va) : ∃ e,
    (s.die (dieOf s.cur.src)).cached (some (coreOf s.cur.src)) s.me.bind.ctx (va.toNat / 65536) = some e ∧
    (t.die (dieOf s.cur.src)).cached (some (coreOf s.cur.src)) s.me.bind.ctx (va.toNat / 65536) = some e := by
  obtain ⟨e, he, hcovers⟩ := hcovered
  obtain ⟨e', hfind⟩ : ∃ e', ((s.die (dieOf s.cur.src)).l1Tlb.getD (coreOf s.cur.src % 16) []).find?
      (fun e => e.covers s.me.bind.ctx (va.toNat / 65536)) = some e' :=
    Option.isSome_iff_exists.mp (List.find?_isSome.mpr ⟨e, he, hcovers⟩)
  exact ⟨e', by simp [Die.cached, hfind], by simp [Die.cached, h.l1, hfind]⟩

/-- What could be stored to can still be stored to. -/
theorem Queued.reaches {va : Word} {n : Nat} {x : Xl} {p : Place} (hcovered : Covered s va) (hreach : Reaches s .write va n x p) :
    Reaches t .write va n x p := by
  obtain ⟨e, hs, ht⟩ := h.cached hcovered
  obtain ⟨hwatch, hrange, halign, hwalk, hx, hp, hexists, hw, hbusy, hclean, hkind⟩ := hreach
  have hctx : t.me.bind = s.me.bind := by rw [h.me]
  refine ⟨?_, hrange, halign, ?_, ?_, hp, hexists, hw, by rw [h.placeBusy, hbusy], by rw [h.poisoned, hclean], hkind⟩
  · rw [← hwatch, State.scalarWatched, h.me]; rfl
  · simp [State.walkBusy, h.cur, hctx, ht]
  · rw [← hx]
    simp only [State.translate, State.pageOf, h.cur, hctx, hs, ht, h.resolve]

theorem Queued.covered {va : Word} (hcovered : Covered s va) : Covered t va := by
  rwa [Covered, h.cur, h.l1, h.me]

end

/-- A TLB that has the page takes no entry for it. -/
theorem fillTlb_of_mem {l : List TlbEntry} {ctx page : Nat} (h : ∃ e ∈ l, e.covers ctx page = true) (size : Nat)
    (e : Except Nat TlbEntry) : fillTlb l size ctx page e = l := if_pos (List.any_eq_true.mpr h)

/-- A frame-map cache that takes an entry takes the frame map's: no frame's entry moves (R208). -/
theorem fme_cacheXl (s : State) (d ctx : Nat) (va : Word) (x : Xl) (core : Option Nat) (die frame : Nat) :
    (s.cacheXl d ctx va x core).fme die frame = s.fme die frame := by
  by_cases hd : die = d
  · subst hd
    simp only [State.fme, State.cacheXl, State.die_setDie]
    cases hfind : (s.die die).fmCache.find x.frame with
    | some f => rfl
    | none =>
      by_cases hroom : (s.die die).fmCache.length < fmCacheCapacity
      · simp only [hroom, if_true, Tbl.find_set]
        by_cases hframe : frame = x.frame
        · simp only [hframe, if_true, hfind]
        · simp only [hframe, if_false]
          rfl
      · simp only [hroom, if_false]
        rfl
  · have hother : (s.cacheXl d ctx va x core).die die = s.die die := State.die_setDie_ne _ _ _ _ hd
    simp only [State.fme, hother]
    rfl

/-- The translation of a page that the core's L1 TLB holds is cached: no frame's entry moves, and the L1 TLB stays. -/
theorem queued_cacheXl {s : State} {va : Word} (hcovered : Covered s va) (x : Xl) :
    Queued s (s.cacheXl (dieOf s.cur.src) s.me.bind.ctx va x (some (coreOf s.cur.src))) [] := by
  obtain ⟨honly, hdies⟩ := s.cacheXl_only (dieOf s.cur.src) s.me.bind.ctx va x (some (coreOf s.cur.src))
  refine ⟨(congrArg (fun u : State => { u with strands := s.strands }) honly :), hdies,
    fme_cacheXl s _ _ va x _, ?_, ?_, fun _ _ => rfl⟩
  · simp only [State.cacheXl, State.die_setDie, fillTlb_of_mem hcovered]
    exact Tbl.getD_set_self _ _ _ _
  · rw [List.append_nil]; rfl

theorem Queued.trans {s t u : State} {es fs : List QStore} (h : Queued s t es) (g : Queued t u fs) : Queued s u (es ++ fs) where
  only := by conv_rhs => rw [← h.only, ← g.only]
  dies k := by conv_rhs => rw [← h.dies k, ← g.dies k]
  fme die frame := (g.fme die frame).trans (h.fme die frame)
  l1 := by rw [← h.l1, ← h.cur]; exact g.l1
  me := by rw [g.me, h.me, List.append_assoc]
  others j hj := (g.others j (by rw [h.cur]; exact hj)).trans (h.others j hj)

/-- A store that the schedule holds stands in the queue (R146). -/
theorem queued_enqueueStore {s : State} (hold : s.me.hold = true) (va : Word) (x : Xl) (bs : List Byte) :
    Queued s (s.enqueueStore va x bs) [⟨va, x.fa, bs, s.me.openStrip, []⟩] := by
  have hqueue : s.enqueueStore va x bs = s.upd (fun t => { t with ssq := t.ssq ++ [⟨va, x.fa, bs, t.openStrip, []⟩] }) :=
    if_pos (by rw [State.me_upd]; exact hold)
  rw [hqueue]
  exact ⟨rfl, fun _ => rfl, fun _ _ => rfl, rfl, State.me_upd _ _, fun j hj => State.strand_upd_ne _ _ _ hj⟩

theorem Queued.not_gone {s t : State} {es : List QStore} (h : Queued s t es) : s.gone t s.cur.src = false := by
  have hme : t.strand s.cur.src = { s.me with ssq := s.me.ssq ++ es } := by rw [← h.me, State.me, h.cur]
  have hcontexts : t.contexts = s.contexts := (congrArg State.contexts h.only :)
  simp [State.gone, hme, State.context, hcontexts, State.me]

/-- One of the stores passes its checks and joins the queue. -/
theorem storeWords_cons {s : State} {va : Word} {w : Nat} {r : List Nat} {k : State → State} {x : Xl} {p : Place}
    (hold : s.me.hold = true) (hcovered : Covered s va) (hreach : Reaches s .write va 8 x p) :
    ∃ t : State, Queued s t [⟨va, x.fa, leBytes 8 w, s.me.openStrip, []⟩] ∧
      s.storeWords va (w :: r) k = t.storeWords (va + 8) r k := by
  have hsee : Queued s (s.see s.cur.src va x) [] := queued_cacheXl hcovered x
  have hme : (s.see s.cur.src va x).me = s.me := by rw [hsee.me, List.append_nil]
  have hqueued := hsee.trans (queued_enqueueStore (by rw [hme]; exact hold) va x (leBytes 8 w))
  rw [List.nil_append, hme] at hqueued
  refine ⟨_, hqueued, ?_⟩
  rw [State.storeWords, checkAccess_of_reaches hreach]
  simp only [hqueued.not_gone, Bool.false_eq_true, if_false]

/-- Six scalar stores of `qhash`, or the rest of them, are queued in order. -/
theorem storeWords_queues {s t : State} {es : List QStore} (h : Queued s t es) (hold : s.me.hold = true) {va : Word} {xl : Nat → Xl}
    {k : State → State} (ws : List Nat) (i : Nat) (hreach : ∀ j, j < i + ws.length →
      (∃ p, Reaches s .write (va + BitVec.ofNat 64 (8 * j)) 8 (xl j) p) ∧ Covered s (va + BitVec.ofNat 64 (8 * j))) :
    ∃ u : State, Queued s u (es ++ (ws.zipIdx i).map (fun (w, j) =>
        ⟨va + BitVec.ofNat 64 (8 * j), (xl j).fa, leBytes 8 w, s.me.openStrip, []⟩)) ∧
      t.storeWords (va + BitVec.ofNat 64 (8 * i)) ws k = .next (k u) := by
  induction ws generalizing t es i with
  | nil => exact ⟨t, by rwa [List.zipIdx_nil, List.map_nil, List.append_nil], rfl⟩
  | cons w r ih =>
    obtain ⟨⟨p, hp⟩, hcovered⟩ := hreach i (by simp)
    have hstrip : t.me.openStrip = s.me.openStrip := by rw [h.me]
    obtain ⟨v, hv, hfirst⟩ := storeWords_cons (w := w) (r := r) (k := k) (by rw [h.me]; exact hold) (h.covered hcovered)
      (h.reaches hcovered hp)
    have hnext : va + BitVec.ofNat 64 (8 * i) + 8 = va + BitVec.ofNat 64 (8 * (i + 1)) := by
      rw [Nat.mul_add, BitVec.ofNat_add, BitVec.add_assoc]
      rfl
    obtain ⟨u, hu, hrest⟩ := ih (h.trans hv) (i + 1) fun j hj => hreach j (by rw [List.length_cons]; omega)
    refine ⟨u, ?_, hfirst.trans (hnext ▸ hrest)⟩
    rwa [hstrip, List.append_assoc] at hu

/-! ## `qhash` (R97) -/

theorem qhash_stores {s : State} {x : SReg3} {bs : List Byte} (hpost : MayPost s (s.rd x.sa).toNat) (halign : (s.rd x.sb).toNat % 8 = 0)
    (hheld : s.accessHeld (dieOf s.cur.src) (s.queue (s.rd x.sa).toNat).desc.ctxid.toNat true .read
      (s.queue (s.rd x.sa).toNat).desc.qcb = false)
    (hread : s.ctxRead (dieOf s.cur.src) (s.queue (s.rd x.sa).toNat).desc.ctxid.toNat (s.queue (s.rd x.sa).toNat).desc.qcb 64 = .ok bs) :
    exec (.qhash x) s = s.storeWords (s.rd x.sb)
      [cutN bs 8 8, 0, cutN bs 0x10 8, cutN bs 0x18 8, cutN bs 0x20 8, cutN bs 0x28 8]
      (fun t => t.wrNext x.sd (BitVec.ofNat 64 (cutN bs 8 8))) := by
  show execQhash x s = _
  rw [execQhash, queueOperand_of_mayPost hpost]
  simp only [halign, hheld, hread, ne_eq, not_true, Bool.false_eq_true, if_false]

/-- What writing `sd` and going on leaves, once stores are queued. -/
theorem accessStep_of_queued {s t : State} {es : List QStore} (h : Queued s t es) (sd : BitVec 5) (w : Word) :
    AccessStep s (t.wrNext sd w) sd ∧ MemSame s (t.wrNext sd w) ∧ (t.wrNext sd w).me.ssq = s.me.ssq ++ es := by
  obtain ⟨⟨honly, hothers⟩, hmem, -, ⟨hregs, hzero⟩, hruns⟩ := scalarStep_wrNext t sd w
  have htmem : t.mem = s.mem := (congrArg State.mem h.only :)
  have hdie (k : Nat) : OnlyTraffic (s.die k) (t.die k) :=
    (congrArg (fun d : Die => { d with
      counters := (s.die k).counters, crossings := (s.die k).crossings, moves := (s.die k).moves,
      periodStart := (s.die k).periodStart, periodLen := (s.die k).periodLen, clock := (s.die k).clock }) (h.dies k) :)
  have hside : { t.wrNext sd w with
      strands := s.strands, dies := s.dies, mem := s.mem, counted := s.counted, l1 := s.l1, msc := s.msc, aliasSeen := s.aliasSeen,
      aliasMem := s.aliasMem, poison := s.poison, ports := s.ports, flyWrites := s.flyWrites } = s :=
    (congrArg (fun u : State => { u with
      mem := s.mem, counted := s.counted, l1 := s.l1, msc := s.msc, aliasSeen := s.aliasSeen, aliasMem := s.aliasMem,
      poison := s.poison, ports := s.ports, flyWrites := s.flyWrites }) h.only :)
  refine ⟨⟨⟨hside, hdie⟩, fun j hj => ?_, ?_, ⟨fun n hn => ?_, hzero⟩, ?_⟩, fun a => (hmem a).trans (by rw [htmem]), ?_⟩
  · exact (hothers j (by rw [h.cur]; exact hj)).trans (h.others j hj)
  · rw [State.me_wrNext, h.me]
    unfold Strand.setReg
    split <;> rfl
  · rw [hregs n hn, State.rd, h.me]
    rfl
  · rwa [h.me] at hruns
  · rw [State.me_wrNext, h.me]
    unfold Strand.setReg
    split <;> rfl

end Machine

theorem qhashStoresTheChain : Claims.QhashStoresTheChain := by
  intro s x bs xl q va word l1 hpost halign hold hheld hread hreach
  have hexec := qhash_stores hpost halign hheld hread
  obtain ⟨t, ht, hstores⟩ := storeWords_queues (.refl s) hold (va := va) (xl := xl)
    (k := fun t => t.wrNext x.sd (BitVec.ofNat 64 (cutN bs 8 8)))
    [cutN bs 8 8, 0, cutN bs 0x10 8, cutN bs 0x18 8, cutN bs 0x20 8, cutN bs 0x28 8] 0 hreach
  have hzero : va + BitVec.ofNat 64 (8 * 0) = va := BitVec.add_zero va
  rw [hzero] at hstores
  obtain ⟨hstep, hmem, hssq⟩ := accessStep_of_queued ht x.sd (BitVec.ofNat 64 (cutN bs 8 8))
  refine ⟨_, hexec.trans hstores, hstep, hmem, fun hsd => ?_, hssq⟩
  rw [State.rd_wrNext, if_neg hsd, if_pos rfl, BitVec.toNat_ofNat]
  exact Nat.mod_eq_of_lt (cutN_lt bs 8 8)

/-- Settles O44: `qpost` is one atomic on TAIL, or a stop whose record is posted before the group halts; each of the six stores of `qhash`
queues and caches only what leaves the checks of the next as they were. -/
theorem queueInstructions : Obligations.QueueInstructions := ⟨qpostAdvancesTheTail, qhashStoresTheChain⟩

end Sys2Proof
end

section
/-! PROOFS. The loader: how a relocation record stands in a file, the values that records write, and what loading and unloading an object
change (R101 to R107, R113, R211). -/

namespace Sys2Proof
open Machine Claims
namespace Machine

/-! ## Fields of bytes (R2, R4) -/

/-- A cut that starts where one part ends and is as long as the next takes that part. -/
theorem cut_append_append (pre mid post : List Byte) : cut (pre ++ (mid ++ post)) pre.length mid.length = mid := by
  rw [cut, List.drop_left, List.take_left]

/-- A number written at an offset is read there. -/
theorem cutN_leBytes (pre post : List Byte) (n x : Nat) : cutN (pre ++ (leBytes n x ++ post)) pre.length n = x % 256 ^ n := by
  have h := cut_append_append pre (leBytes n x) post
  rw [leBytes_length] at h
  rw [cutN, h, leNat_leBytes]

theorem cutN_leBytes_of_lt {pre : List Byte} {off n x : Nat} (post : List Byte) (hoff : pre.length = off) (hx : x < 256 ^ n) :
    cutN (pre ++ (leBytes n x ++ post)) off n = x := by
  rw [← hoff, cutN_leBytes, Nat.mod_eq_of_lt hx]

theorem wrapInt_eq (w : Nat) (x : Int) : wrapInt w x = (x % 2 ^ w).toNat := by
  rw [wrapInt, Nat.cast_pow, Nat.cast_ofNat]

/-- The low bits of a number, read as two's complement, are its balanced remainder. -/
theorem toSigned_wrapInt (w : Nat) (x : Int) : toSigned w (wrapInt w x) = x.bmod (2 ^ w) := by
  have hpos : 0 < 2 ^ w := Nat.two_pow_pos w
  rw [toSigned, wrapInt, Int.bmod]
  generalize 2 ^ w = m at hpos
  have hlow : 0 ≤ x % (m : Int) := Int.emod_nonneg _ (by omega)
  have hhigh : x % (m : Int) < m := Int.emod_lt_of_pos _ (by omega)
  rw [Nat.mod_eq_of_lt (by omega)]
  split <;> split <;> omega

/-! ## Relocation records (R104) -/

/-- The 24 bytes of a relocation record (R104). -/
def recordBytes (r : ObjReloc) : List Byte :=
  leBytes 8 r.place ++ leBytes 4 r.sym ++ leBytes 1 r.kind ++ leBytes 3 r.reserved ++ leBytes 8 (wrapInt 64 r.addend)

theorem readReloc_recordBytes {r : ObjReloc} (pre post : List Byte) (hplace : r.place < 2 ^ 64) (hsym : r.sym < 2 ^ 32)
    (hkind : r.kind < 2 ^ 8) (hreserved : r.reserved < 2 ^ 24) (hlow : -(2 ^ 63) ≤ r.addend) (hhigh : r.addend < 2 ^ 63) :
    readReloc (pre ++ (recordBytes r ++ post)) pre.length 0 = r := by
  have hcut : cut (pre ++ (recordBytes r ++ post)) (pre.length + 24 * 0) 24 = recordBytes r := by
    have hlen : (recordBytes r).length = 24 := by simp [recordBytes]
    rw [← hlen]
    exact cut_append_append pre (recordBytes r) post
  have place : cutN (recordBytes r) 0 8 = r.place := by
    simpa [recordBytes] using cutN_leBytes_of_lt (pre := []) (off := 0) (n := 8)
      (leBytes 4 r.sym ++ leBytes 1 r.kind ++ leBytes 3 r.reserved ++ leBytes 8 (wrapInt 64 r.addend)) rfl hplace
  have sym : cutN (recordBytes r) 8 4 = r.sym := by
    simpa [recordBytes] using cutN_leBytes_of_lt (pre := leBytes 8 r.place) (n := 4)
      (leBytes 1 r.kind ++ leBytes 3 r.reserved ++ leBytes 8 (wrapInt 64 r.addend)) (leBytes_length _ _) hsym
  have kind : cutN (recordBytes r) 12 1 = r.kind := by
    simpa [recordBytes] using cutN_leBytes_of_lt (pre := leBytes 8 r.place ++ leBytes 4 r.sym) (off := 12) (n := 1)
      (leBytes 3 r.reserved ++ leBytes 8 (wrapInt 64 r.addend)) (by simp) hkind
  have reserved : cutN (recordBytes r) 13 3 = r.reserved := by
    simpa [recordBytes] using cutN_leBytes_of_lt (pre := leBytes 8 r.place ++ leBytes 4 r.sym ++ leBytes 1 r.kind) (off := 13) (n := 3)
      (leBytes 8 (wrapInt 64 r.addend)) (by simp) hreserved
  have low : cutN (recordBytes r) 16 8 = wrapInt 64 r.addend := by
    have hlt : wrapInt 64 r.addend < 256 ^ 8 := by rw [wrapInt]; omega
    simpa [recordBytes] using cutN_leBytes_of_lt
      (pre := leBytes 8 r.place ++ leBytes 4 r.sym ++ leBytes 1 r.kind ++ leBytes 3 r.reserved) (off := 16) [] (by simp) hlt
  have addend : toSigned 64 (wrapInt 64 r.addend) = r.addend := by
    rw [toSigned_wrapInt]
    exact Int.bmod_eq_of_le (by omega) (by omega)
  rw [readReloc, hcut, place, sym, kind, reserved, low, addend]

/-! ## What a record writes (R104 to R106) -/

/-- A record whose own fields are in order, whose patched field its KIND writes, and whose symbol lies at `x`. -/
structure Resolved (known : List (List Byte × Nat)) (o : Obj) (r : ObjReloc) (x : Nat) : Prop where
  reserved : r.reserved = 0
  symbol : r.sym < o.symbols.length
  field : fieldHeld o r = true
  address : symbolAddr known o r.sym = some x

/-- S + A, for a symbol at `x`. -/
def recordValue (r : ObjReloc) (x : Nat) : Int := (x : Int) + r.addend

/-- S + A − P, for a symbol at `x`. -/
def recordDistance (o : Obj) (r : ObjReloc) (x : Nat) : Int := recordValue r x - ((o.base + r.place : Nat) : Int)

/-- A signed field of `n` bits of the word at a record's place. -/
def signedField (r : ObjReloc) (n : Nat) (y : Int) : Except Nat (List Patch) :=
  if fitsSigned n y then .ok [⟨r.place, 4, 2 ^ n - 1, wrapInt n y⟩] else .error 1

theorem signedField_fits (r : ObjReloc) (n : Nat) (y : Int) (hlow : -((2 : Int) ^ (n - 1)) ≤ y) (hhigh : y < (2 : Int) ^ (n - 1)) :
    signedField r n y = .ok [⟨r.place, 4, 2 ^ n - 1, (y % 2 ^ n).toNat⟩] := by
  have hfits : fitsSigned n y = true := by simp [fitsSigned, hlow, hhigh]
  rw [signedField, if_pos hfits, wrapInt_eq]

section
variable {known : List (List Byte × Nat)} {o : Obj} {r : ObjReloc} {x : Nat} (h : Resolved known o r x)
include h

/-- A resolved record of a KIND up to 7 is not malformed, so that code 5 is not its answer. -/
theorem Resolved.not_malformed (hk : r.kind ≤ 7) :
    ¬(r.kind > 7 ∨ r.reserved ≠ 0 ∨ o.symbols.length ≤ r.sym ∨ !fieldHeld o r) := by
  rintro (hkind | hreserved | hsymbol | hfield)
  · omega
  · exact hreserved h.reserved
  · exact absurd h.symbol (by omega)
  · simp [h.field] at hfield

/-- ABS64 writes S + A whole. -/
theorem Resolved.relocate_abs64 (hk : r.kind = 0) : relocate known o r =
    if 0 ≤ recordValue r x ∧ recordValue r x < 2 ^ 48 then .ok [⟨r.place, 8, 2 ^ 64 - 1, (recordValue r x).toNat⟩]
    else .error 1 := by
  rw [relocate, if_neg (h.not_malformed (by omega)), h.address]
  simp only [hk, Nat.cast_pow, Nat.cast_ofNat]
  rfl

/-- HI20 writes the upper part of S + A. -/
theorem Resolved.relocate_hi20 (hk : r.kind = 1) : relocate known o r = signedField r 20 (hiPart (recordValue r x)) := by
  rw [relocate, if_neg (h.not_malformed (by omega)), h.address]
  simp only [hk]
  rfl

/-- LO12 writes the low part of S + A. -/
theorem Resolved.relocate_lo12 (hk : r.kind = 2) :
    relocate known o r = .ok [⟨r.place, 4, 2 ^ 12 - 1, wrapInt 12 (recordValue r x)⟩] := by
  rw [relocate, if_neg (h.not_malformed (by omega)), h.address]
  simp only [hk]
  rfl

/-- PCHI20 writes the upper part of S + A − P. -/
theorem Resolved.relocate_pchi20 (hk : r.kind = 3) :
    relocate known o r = signedField r 20 (hiPart (recordDistance o r x)) := by
  rw [relocate, if_neg (h.not_malformed (by omega)), h.address]
  simp only [hk]
  rfl

/-- PCLO12, whose symbol marks a `pcui` that has its PCHI20 record. -/
theorem Resolved.relocate_pclo12 (hk : r.kind = 4) {y : Int} (hhi : pcHiValue known o x = some (some y)) :
    relocate known o r = .ok [⟨r.place, 4, 2 ^ 12 - 1, wrapInt 12 y⟩] := by
  rw [relocate, if_neg (h.not_malformed (by omega)), h.address]
  simp only [hk, hhi]

theorem Resolved.relocate_pclo12_alone (hk : r.kind = 4) (hhi : pcHiValue known o x = none) : relocate known o r = .error 4 := by
  rw [relocate, if_neg (h.not_malformed (by omega)), h.address]
  simp only [hk, hhi]

/-- BR12 counts S + A − P in words. -/
theorem Resolved.relocate_br12 (hk : r.kind = 5) : relocate known o r =
    if recordDistance o r x % 4 ≠ 0 then .error 2 else signedField r 12 (recordDistance o r x / 4) := by
  rw [relocate, if_neg (h.not_malformed (by omega)), h.address]
  simp only [hk]
  rfl

/-- JMP20 counts S + A − P in words. -/
theorem Resolved.relocate_jmp20 (hk : r.kind = 6) : relocate known o r =
    if recordDistance o r x % 4 ≠ 0 then .error 2 else signedField r 20 (recordDistance o r x / 4) := by
  rw [relocate, if_neg (h.not_malformed (by omega)), h.address]
  simp only [hk]
  rfl

/-- Branch and jump targets are whole words away. -/
theorem Resolved.relocate_misaligned (hk : r.kind = 5 ∨ r.kind = 6) (hd : recordDistance o r x % 4 ≠ 0) :
    relocate known o r = .error 2 := by
  obtain hk | hk := hk
  · rw [h.relocate_br12 hk, if_pos hd]
  · rw [h.relocate_jmp20 hk, if_pos hd]

end

/-- The upper and the lower part of an offset add up to it, the lower part read as signed (R104). -/
theorem hiPart_add_low (a : Int) : 4096 * hiPart a + toSigned 12 (wrapInt 12 a) = a := by
  rw [toSigned_wrapInt, hiPart, Int.bmod]
  omega

/-- The record whose failure is reported is the first that fails (R106). -/
theorem relocateAll_error {known : List (List Byte × Nat)} {o : Obj} {rs : List ObjReloc} {n i c : Nat}
    (h : relocateAll known o n rs = .error (i, c)) :
    ∃ k, i = n + k ∧ (∃ b, rs[k]? = some b ∧ relocate known o b = .error c) ∧
      ∀ j b, j < k → rs[j]? = some b → ∃ qs, relocate known o b = .ok qs := by
  induction rs generalizing n with
  | nil => simp [relocateAll] at h
  | cons r rest ih =>
    rw [relocateAll] at h
    split at h
    · next e hfails =>
      simp only [Except.error.injEq, Prod.mk.injEq] at h
      obtain ⟨rfl, rfl⟩ := h
      exact ⟨0, rfl, ⟨r, rfl, hfails⟩, fun j b hj => absurd hj (Nat.not_lt_zero j)⟩
    · next ps hr =>
      split at h
      · next e hrest =>
        simp only [Except.error.injEq] at h
        subst h
        obtain ⟨k, rfl, ⟨b, hb, hfails⟩, hbefore⟩ := ih hrest
        refine ⟨k + 1, by omega, ⟨b, hb, hfails⟩, fun j a hj ha => ?_⟩
        cases j with
        | zero =>
          obtain rfl : r = a := by simpa using ha
          exact ⟨ps, hr⟩
        | succ j => exact hbefore j a (by omega) ha
      · simp at h

/-! ## Text padding and patches (R104, R107) -/

theorem textPad_spec (n : Nat) :
    (n + textPad n) % 64 = 0 ∧ 4 ≤ textPad n ∧ (n % 4 = 0 → textPad n ≤ 64) ∧ (n % 64 = 0 → textPad n = 64) := by
  rw [textPad]
  split <;> omega

section
variable {q : Patch} {off : Nat} {bs : List Byte} (hlow : off ≤ q.place) (hhigh : q.place + q.bytes ≤ off + bs.length)
include hlow hhigh

/-- A patch within its section puts a number of as many bytes between the bytes before it and those after it. -/
theorem Patch.apply_within : q.apply off bs = bs.take (q.place - off) ++
    (leBytes q.bytes (cutN bs (q.place - off) q.bytes - cutN bs (q.place - off) q.bytes % (q.bits + 1) + q.value) ++
      bs.drop (q.place - off + q.bytes)) := by
  rw [Patch.apply, if_neg (by omega), List.append_assoc]

theorem Patch.apply_length : (q.apply off bs).length = bs.length := by
  rw [Patch.apply_within hlow hhigh]
  simp
  omega

/-- The bytes of the patched number hold the old one with the new value in its low bits. -/
theorem Patch.cutN_apply {m : Nat} (hbits : q.bits + 1 = 2 ^ m) (hm : m ≤ 8 * q.bytes) (hvalue : q.value ≤ q.bits) :
    cutN (q.apply off bs) (q.place - off) q.bytes =
      (q.bits + 1) * (cutN bs (q.place - off) q.bytes / (q.bits + 1)) + q.value := by
  have hpre : (bs.take (q.place - off)).length = q.place - off := by simp; omega
  have hold : cutN bs (q.place - off) q.bytes < 256 ^ q.bytes := cutN_lt _ _ _
  rw [Patch.apply_within hlow hhigh]
  generalize cutN bs (q.place - off) q.bytes = old at hold
  have hkept : old - old % (q.bits + 1) = (q.bits + 1) * (old / (q.bits + 1)) := by
    have := Nat.div_add_mod old (q.bits + 1)
    omega
  rw [hkept]
  refine cutN_leBytes_of_lt _ hpre ?_
  have hwhole : 256 ^ q.bytes = (q.bits + 1) * 2 ^ (8 * q.bytes - m) := by
    rw [show 256 = 2 ^ 8 from rfl, ← pow_mul, hbits, ← pow_add, Nat.add_sub_cancel' hm]
  have hquot : old / (q.bits + 1) < 2 ^ (8 * q.bytes - m) := Nat.div_lt_of_lt_mul (hwhole ▸ hold)
  calc (q.bits + 1) * (old / (q.bits + 1)) + q.value
      < (q.bits + 1) * (old / (q.bits + 1) + 1) := by rw [Nat.mul_add]; omega
    _ ≤ (q.bits + 1) * 2 ^ (8 * q.bytes - m) := Nat.mul_le_mul_left _ hquot
    _ = 256 ^ q.bytes := hwhole.symm

/-- A patch changes no byte outside its own. -/
theorem Patch.apply_getElem? {j : Nat} (hj : j < q.place - off ∨ q.place - off + q.bytes ≤ j) : (q.apply off bs)[j]? = bs[j]? := by
  rw [Patch.apply_within hlow hhigh]
  obtain hj | hj := hj
  · rw [List.getElem?_append_left (by simp; omega), List.getElem?_take_of_lt hj]
  · have hpre : (bs.take (q.place - off)).length = q.place - off := by simp; omega
    rw [List.getElem?_append_right (by omega), List.getElem?_append_right (by simp; omega), List.getElem?_drop, hpre, leBytes_length]
    congr 1
    omega

end

/-! ## Mapping writes bytes only (R106, R204) -/

theorem State.writePlace_bytes (s : State) (p : Place) (bs : List Byte) : OnlyBytes s (s.writePlace p bs) := s.writeAt_bytes _ _ _

theorem State.framePut_bytes (s : State) (frame off : Nat) (bs : List Byte) : OnlyBytes s (s.framePut frame off bs) := by
  unfold State.framePut
  dsimp only
  split
  · exact .refl s
  · split
    · exact .foldl (fun t d => t.writePlace_bytes _ _) _ _
    · split
      · exact s.writePlace_bytes _ _
      · exact .refl s

theorem State.tableUnder_bytes {s t : State} {table ix fa : Nat} {spare rest : List Nat}
    (h : s.tableUnder table ix spare = some (t, rest, fa)) : OnlyBytes s t := by
  unfold State.tableUnder at h
  dsimp only at h
  split at h
  · cases h
  · split at h
    · split at h
      · cases h
      · cases h
        exact .refl s
    · split at h
      · cases h
      · cases h
        exact (s.framePut_bytes _ _ _).trans (State.framePut_bytes _ _ _ _)

theorem State.setPte_bytes {s t : State} {ctx va entry : Nat} {spare rest : List Nat}
    (h : s.setPte ctx va entry spare = some (t, rest)) : OnlyBytes s t := by
  unfold State.setPte at h
  dsimp only at h
  split at h
  · cases h
  · next s1 spare1 t1 h1 =>
    split at h
    · cases h
    · next s2 spare2 t2 h2 =>
      cases h
      exact ((State.tableUnder_bytes h1).trans (State.tableUnder_bytes h2)).trans (s2.framePut_bytes _ _ _)

theorem State.mapPages_bytes {s t : State} {ctx base : Nat} {kindOf : Nat → Nat} {l : List (Nat × Nat)} {spare : List Nat}
    (h : s.mapPages ctx base kindOf l spare = some t) : OnlyBytes s t := by
  induction l generalizing s spare with
  | nil =>
    cases h
    exact .refl _
  | cons e r ih =>
    rw [State.mapPages] at h
    split at h
    · cases h
    · next u rest hpte => exact ((State.framePut_bytes _ _ _ _).trans (State.setPte_bytes hpte)).trans (ih h)

theorem State.writeChunk_bytes (s : State) (frameOf : Nat → Nat) (offset : Nat) (bs : List Byte) (fuel : Nat) :
    OnlyBytes s (s.writeChunk frameOf offset bs fuel) := by
  induction fuel generalizing s offset bs with
  | zero => exact .refl s
  | succ n ih =>
    rw [State.writeChunk]
    split
    · exact .refl s
    · exact (State.framePut_bytes _ _ _ _).trans (ih _ _ _)

theorem State.mapObject_bytes {s t : State} {o : Obj} {parts : List Part} (h : s.mapObject o parts = some t) : OnlyBytes s t := by
  unfold State.mapObject at h
  dsimp only at h
  split at h
  · cases h
  · split at h
    · cases h
    · next u hmapped =>
      cases h
      exact (State.mapPages_bytes hmapped).trans (.foldl (fun v p => v.writeChunk_bytes _ _ _ _) _ _)

/-! ## OBJECT_LOAD (R106, R107, R211) -/

theorem exec_objectLoad (f : ObjFile) (s : State) : exec (.objectLoad f) s = execObjectLoad f s := rfl

section
variable {s w : State} {f : ObjFile} {i c : Nat} {ps : List Patch}

theorem objectLoad_waits (hcopying : s.copying = true) : exec (.objectLoad f) s = .next s := by
  rw [exec_objectLoad, execObjectLoad, if_pos hcopying]

variable (hidle : s.copying = false)
include hidle

theorem objectLoad_of_header (hheader : headerAccepted (readObject f) = false) : exec (.objectLoad f) s =
    .next { s with mgmt := s.mgmt ++ [.objectRejected (readObject f).ctxid 0xFFFFFFFF 6] } := by
  simp [exec_objectLoad, execObjectLoad, hidle, hheader]

variable (hheader : headerAccepted (readObject f) = true)
include hheader

theorem objectLoad_of_record
    (hrecords : relocateAll (s.knownSymbols (readObject f).ctxid) (readObject f) 0 (readObject f).relocs = .error (i, c)) :
    exec (.objectLoad f) s = .next { s with mgmt := s.mgmt ++ [.objectRejected (readObject f).ctxid i c] } := by
  simp [exec_objectLoad, execObjectLoad, hidle, hheader, hrecords]

/-- An object all of whose checks hold is mapped, and a record of it is kept. -/
theorem objectLoad_maps
    (hrecords : relocateAll (s.knownSymbols (readObject f).ctxid) (readObject f) 0 (readObject f).relocs = .ok ps)
    (hmapped : s.mapObject (readObject f) (loadParts (s.knownSymbols (readObject f).ctxid) (readObject f) ps) = some w) :
    ∃ size pages, exec (.objectLoad f) s =
      .next { w with loaded := w.loaded ++ [loadedOf (s.knownSymbols (readObject f).ctxid) (readObject f) size pages] } := by
  simp [exec_objectLoad, execObjectLoad, hidle, hheader, hrecords, hmapped]

end

/-! ## OBJECT_UNLOAD (R113, R208, R211) -/

/-- No TLB of any die holds a translation of a page of a context. -/
def Forgotten (ctx page : Nat) (s : State) : Prop :=
  ∀ n, (∀ e ∈ (s.die n).tlb, e.covers ctx page = false) ∧ ∀ m, ∀ e ∈ (s.die n).l1Tlb.getD m [], e.covers ctx page = false

/-- What unmapping a page does: bytes of its tables are written, and every TLB drops it. -/
theorem State.unmapPage_eq (s : State) (ctx va : Nat) :
    ∃ u, OnlyBytes s u ∧ s.unmapPage ctx va = u.dropTlb ctx (some (va / 65536)) := by
  refine ⟨_, ?_, rfl⟩
  split
  · split
    · next hpte => exact State.setPte_bytes hpte
    · exact .refl s
  · exact .refl s

theorem State.unmapPage_strands (s : State) (ctx va : Nat) : (s.unmapPage ctx va).strands = s.strands := by
  obtain ⟨u, honly, heq⟩ := s.unmapPage_eq ctx va
  rw [heq]
  exact (congrArg State.strands honly :)

/-- The entries that the dies' TLBs hold once a page is unmapped are earlier ones, none of them of the page. -/
theorem State.die_unmapPage (s : State) (ctx va n : Nat) : ((s.unmapPage ctx va).die n) = (s.die n).dropTlb ctx (some (va / 65536)) := by
  obtain ⟨u, honly, heq⟩ := s.unmapPage_eq ctx va
  rw [heq, State.die_dropTlb, honly.die]

theorem forgotten_unmapPage (s : State) (ctx va : Nat) : Forgotten ctx (va / 65536) (s.unmapPage ctx va) := by
  intro n
  have hgone : ∀ e : TlbEntry, e.stays ctx (some (va / 65536)) = true → e.covers ctx (va / 65536) = false := fun e he => by
    simpa [TlbEntry.stays] using he
  rw [State.die_unmapPage]
  exact ⟨fun e he => hgone e ((Die.mem_dropTlb_tlb _ _ _ _).mp he).2, fun m e he => hgone e ((Die.mem_dropTlb_l1Tlb _ _ _ _ _).mp he).2⟩

theorem Forgotten.unmapPage {s : State} {ctx page : Nat} (h : Forgotten ctx page s) (va : Nat) :
    Forgotten ctx page (s.unmapPage ctx va) := by
  intro n
  obtain ⟨htlb, hl1⟩ := h n
  rw [State.die_unmapPage]
  exact ⟨fun e he => htlb e ((Die.mem_dropTlb_tlb _ _ _ _).mp he).1, fun m e he => hl1 m e ((Die.mem_dropTlb_l1Tlb _ _ _ _ _).mp he).1⟩

/-- The pages of an object are unmapped one after the other. -/
def State.unmapPages (s : State) (ctx base : Nat) (pages : List Nat) : State :=
  pages.foldl (fun s k => s.unmapPage ctx (base + 65536 * k)) s

theorem State.unmapPages_strands (s : State) (ctx base : Nat) (pages : List Nat) : (s.unmapPages ctx base pages).strands = s.strands := by
  induction pages generalizing s with
  | nil => rfl
  | cons k r ih => exact (ih _).trans (s.unmapPage_strands _ _)

theorem Forgotten.unmapPages {s : State} {ctx page : Nat} (h : Forgotten ctx page s) (base : Nat) (pages : List Nat) :
    Forgotten ctx page (s.unmapPages ctx base pages) := by
  induction pages generalizing s with
  | nil => exact h
  | cons k r ih => exact ih (h.unmapPage _)

theorem forgotten_unmapPages (s : State) (ctx base : Nat) {pages : List Nat} {j : Nat} (hj : j ∈ pages) :
    Forgotten ctx (base / 65536 + j) (s.unmapPages ctx base pages) := by
  induction pages generalizing s with
  | nil => cases hj
  | cons k r ih =>
    cases hj with
    | head =>
      have hfirst := forgotten_unmapPage s ctx (base + 65536 * j)
      rw [Nat.add_mul_div_left _ _ (by decide)] at hfirst
      exact hfirst.unmapPages base r
    | tail _ hj => exact ih _ hj

theorem exec_objectUnload (ctx base : Nat) (s : State) : exec (.objectUnload ctx base) s = execObjectUnload ctx base s := rfl

section
variable {s : State} {ctx base : Nat} {l : Loaded}

theorem objectUnload_waits (hcopying : s.copying = true) : exec (.objectUnload ctx base) s = .next s := by
  rw [exec_objectUnload, execObjectUnload, if_pos hcopying]

variable (hidle : s.copying = false) (hfind : s.loaded.find? (fun e => e.ctx == ctx && e.base == base) = some l)
include hidle hfind

theorem objectUnload_of_launched (hlaunched : ∃ k ∈ l.kernels, k.2 ≠ 0) :
    exec (.objectUnload ctx base) s = .next { s with mgmt := s.mgmt ++ [.unloadRefused ctx base] } := by
  have hany : l.kernels.any (fun (_, n) => n != 0) = true := by
    obtain ⟨k, hk, hn⟩ := hlaunched
    exact List.any_eq_true.mpr ⟨k, hk, by simpa using hn⟩
  simp only [exec_objectUnload, execObjectUnload, hidle, hfind, hany, Bool.false_eq_true, if_false, if_true]

theorem objectUnload_unmaps (hnone : ∀ k ∈ l.kernels, k.2 = 0) : exec (.objectUnload ctx base) s =
    .next { s.unmapPages ctx base l.pages with loaded := s.loaded.filter (fun e => !(e.ctx == ctx && e.base == base)) } := by
  have hany : l.kernels.any (fun (_, n) => n != 0) = false :=
    List.any_eq_false.mpr fun k hk => by simp [hnone k hk]
  simp only [exec_objectUnload, execObjectUnload, hidle, hfind, hany, Bool.false_eq_true, if_false]
  rfl

end

end Machine

/-- Settles O31: each KIND's value is the field its record writes, a patch puts its number between the bytes around it, loading writes
bytes alone beside the record it keeps, and unmapping pages one after the other never brings a dropped translation back. -/
theorem objectsLoadAndUnload : Obligations.ObjectsLoadAndUnload := by
  intro s w f i c ps r x q off bs ctx base l o known v d held at_ out mine
  refine ⟨fun pre post hplace hsym hkind hreserved hlow hhigh => ?record,
    fun hcopying => ⟨objectLoad_waits hcopying, objectUnload_waits hcopying⟩,
    fun hidle hheader => ⟨_, objectLoad_of_header hidle hheader, rfl⟩,
    fun hidle hheader hrecords => ⟨⟨_, objectLoad_of_record hidle hheader hrecords, rfl⟩, ?lowest⟩,
    fun ⟨hreserved, hsymbol, hfield, haddress⟩ => ?values, hiPart_add_low, textPad_spec,
    fun hlow hhigh hvalue ⟨m, hbits, hm⟩ => ?patch, fun hidle hheader hrecords hmapped => ?loads,
    fun hidle hfind hlaunched => ⟨_, objectUnload_of_launched hidle hfind hlaunched, rfl⟩,
    fun hidle hfind hnone => ⟨_, objectUnload_unmaps hidle hfind hnone, rfl, s.unmapPages_strands ctx base l.pages,
      fun j hj => forgotten_unmapPages s ctx base hj⟩⟩
  case record =>
    have h := readReloc_recordBytes pre post hplace hsym hkind hreserved hlow hhigh
    rw [recordBytes, wrapInt_eq] at h
    simpa only [List.append_assoc] using h
  case lowest =>
    obtain ⟨k, hk, hfails, hbefore⟩ := relocateAll_error hrecords
    obtain rfl : i = k := by omega
    exact ⟨hfails, hbefore⟩
  case values =>
    have h : Resolved known o r x := ⟨hreserved, hsymbol, hfield, haddress⟩
    refine ⟨fun hk hlow hhigh => ?_, fun hk hout => ?_, fun hk hlow hhigh => ?_, fun hk => ?_, fun hk hlow hhigh => ?_,
      fun hk y hhi => ?_, fun hk hhi => h.relocate_pclo12_alone hk hhi, fun hk hd => h.relocate_misaligned hk hd,
      fun hk hd hlow hhigh => ?_, fun hk hd hlow hhigh => ?_⟩
    · exact (h.relocate_abs64 hk).trans (if_pos ⟨hlow, hhigh⟩)
    · exact (h.relocate_abs64 hk).trans (if_neg (not_and_or.mpr (hout.imp not_le.mpr not_lt.mpr)))
    · exact (h.relocate_hi20 hk).trans (signedField_fits r 20 _ hlow hhigh)
    · exact h.relocate_lo12 hk
    · exact (h.relocate_pchi20 hk).trans (signedField_fits r 20 _ hlow hhigh)
    · exact h.relocate_pclo12 hk hhi
    · exact ((h.relocate_br12 hk).trans (if_neg (not_not_intro hd))).trans (signedField_fits r 12 _ hlow hhigh)
    · exact ((h.relocate_jmp20 hk).trans (if_neg (not_not_intro hd))).trans (signedField_fits r 20 _ hlow hhigh)
  case patch =>
    have hnew := Patch.cutN_apply hlow hhigh hbits hm hvalue
    have hlt : q.value < q.bits + 1 := by omega
    refine ⟨Patch.apply_length hlow hhigh, ?_, ?_, fun j hj => Patch.apply_getElem? hlow hhigh hj⟩
    · rw [hnew, Nat.mul_add_mod, Nat.mod_eq_of_lt hlt]
    · rw [hnew, Nat.mul_add_div (by omega), Nat.div_eq_of_lt hlt, Nat.add_zero]
  case loads =>
    have honly := State.mapObject_bytes hmapped
    obtain ⟨size, pages, hexec⟩ := objectLoad_maps hidle hheader hrecords hmapped
    have hloaded : w.loaded = s.loaded := (congrArg State.loaded honly :)
    exact ⟨_, _, hexec, rfl, congrArg (· ++ _) hloaded, rfl, rfl, rfl, (congrArg State.strands honly :), (congrArg State.mgmt honly :)⟩

end Sys2Proof
end

section
/-! PROOFS. `yield`, `mark` and `end` (R114, R119, R125, R153). -/

namespace Sys2Proof
open Machine Claims
namespace Machine

/-! ## `mark` (R153) -/

/-- A scalar instruction that writes no register and goes on changes nothing else. -/
theorem scalarStep_goNext (s : State) : ScalarStep s s.goNext 0 (s.me.pc + 4) := scalarStep_wrNext s 0 0

/-- A record of a strand changes the dies' traces alone. -/
theorem trace_only (s : State) (src kind : Nat) (body : List Word) : { s.trace src kind body with dies := s.dies } = s := by
  simp only [State.trace]
  split
  · split
    · exact (s.traceAt_only _ _).1
    · rfl
  · exact (s.traceAt_only _ _).1

theorem mark_untraced {s : State} (h : s.me.csr.tracectl.getLsbD 1 = false) (x : Code12) : exec (.mark x) s = .next s.goNext := by
  show execMark x s = _
  simp only [execMark, bitN_eq_getLsbD, h, Bool.false_eq_true, if_false]

/-- `mark` goes on from a state in which only a trace may have grown. -/
theorem mark_goes_on (x : Code12) (s : State) : ∃ u : State, exec (.mark x) s = .next u.goNext ∧ { u with dies := s.dies } = s := by
  refine ⟨_, rfl, ?_⟩
  split
  · exact trace_only s _ _ _
  · rfl

/-! ## `yield` (R125) -/

/-- The core's turn is over where strand `src` holds it. -/
def State.passTurn (s : State) (src : Nat) : State :=
  if (s.core (coreOf src)).turn = some src then
    s.setCore (coreOf src) { s.core (coreOf src) with turnOver := true, turnCharge := 0 }
  else s

theorem passTurn_only (s : State) (src : Nat) : { s.passTurn src with cores := s.cores } = s := by
  unfold State.passTurn
  split <;> rfl

theorem passTurn_turnOver {s : State} {src : Nat} (h : ((s.passTurn src).core (coreOf src)).turn = some src) :
    ((s.passTurn src).core (coreOf src)).turnOver = true := by
  unfold State.passTurn at h ⊢
  split at h
  · rw [if_pos ‹_›, State.core_setCore]
  · contradiction

/-- What `yield` makes of its strand. -/
def Strand.yielded (t : Strand) : Strand := { t.advance with deficit := min t.deficit 0, skip := 16 }

theorem exec_yield (s : State) : exec .yield s = .next ((s.passTurn s.cur.src).upd Strand.yielded) := rfl

/-- The executing strand after `yield`. -/
theorem me_yield (s : State) : ((s.passTurn s.cur.src).upd Strand.yielded).me = s.me.yielded := by
  have hme : (s.passTurn s.cur.src).me = s.me := (congrArg State.me (passTurn_only s s.cur.src) :)
  rw [State.me_upd, hme]

theorem yieldAndMark : YieldAndMark := by
  intro s x
  refine ⟨?yield, fun htrace => ⟨_, mark_untraced htrace x, scalarStep_goNext s⟩, ?mark⟩
  case yield =>
    have honly := passTurn_only s s.cur.src
    have hcur : (s.passTurn s.cur.src).cur = s.cur := (congrArg State.cur honly :)
    have hme := me_yield s
    refine ⟨_, exec_yield s, fun n => ?_, ?_, ?_, ?_, ?_, ?_, ?_, fun j hj => ?_, fun a => ?_⟩
    · rw [State.rd, hme]; rfl
    · rw [RunsAt, hme]; exact ⟨rfl, rfl, rfl⟩
    · rw [hme]; rfl
    · rw [hme]; rfl
    · exact passTurn_turnOver
    · rw [hme]; rfl
    · rw [hme]; rfl
    · rw [State.strand_upd_ne _ _ _ (by rw [hcur]; exact hj)]
      exact (congrArg (State.strand · j) honly :)
    · exact (congrArg (fun u : State => Memory.read u.mem a) honly :)
  case mark =>
    obtain ⟨u, hexec, honly⟩ := mark_goes_on x s
    have hcur : u.cur = s.cur := (congrArg State.cur honly :)
    have hme : u.me = s.me := (congrArg State.me honly :)
    obtain ⟨⟨-, hothers⟩, -, -, -, hruns⟩ := scalarStep_goNext u
    refine ⟨_, hexec, fun n => ?_, hme ▸ hruns, fun j hj => ?_, fun a => ?_⟩
    · rw [State.rd_goNext, State.rd, hme]; rfl
    · exact (hothers j (hcur ▸ hj)).trans (congrArg (State.strand · j) honly :)
    · exact (congrArg (fun v : State => Memory.read v.mem a) honly :)

/-! ## `end` (R114, R119) -/

/-- A group after its strand `j` has ended: the last strand ends it. -/
def Group.strandEnds (g : Group) (j : Nat) : Group :=
  { g with ended := g.ended ||| BitVec.ofNat 16 (2 ^ j), members := g.members.erase j
           state := if (g.members.erase j).isEmpty then .ended else g.state }

/-- A launch after one of its strands has ended with the flags `fstat`. -/
def Launch.strandEnds (l : Launch) (fstat : BitVec 7) : Launch := { l with flags := l.flags ||| fstat, strands := l.strands + 1 }

/-- Of the package only barrier tables and context descriptors changed. -/
def OnlyBarriers (s t : State) : Prop := { t with clusters := s.clusters, contexts := s.contexts } = s

namespace OnlyBarriers

theorem refl (s : State) : OnlyBarriers s s := rfl

theorem setBarrier {s t : State} (h : OnlyBarriers s t) (cl ix : Nat) (b : Barrier) : OnlyBarriers s (t.setBarrier cl ix b) := h

theorem resetBarriers_if {s t : State} (h : OnlyBarriers s t) (p : Prop) [Decidable p] (k : GroupKey) :
    OnlyBarriers s (if p then t.resetBarriers k else t) := by
  split <;> exact h

theorem refreshContext {s t : State} (h : OnlyBarriers s t) (ctx : Nat) : OnlyBarriers s (t.refreshContext ctx) := by
  simp only [State.refreshContext]
  split <;> exact h

theorem foldl {β : Type} {f : State → β → State} {s : State} (hf : ∀ t x, OnlyBarriers s t → OnlyBarriers s (f t x)) (l : List β)
    {t : State} (h : OnlyBarriers s t) : OnlyBarriers s (l.foldl f t) := by
  induction l generalizing t with
  | nil => exact h
  | cons x r ih => exact ih (hf t x h)

theorem setGroup {s t : State} (h : OnlyBarriers s t) (k : GroupKey) (g : Group) : OnlyBarriers (s.setGroup k g) (t.setGroup k g) :=
  (congrArg (·.setGroup k g) h :)

theorem setLaunch {s t : State} (h : OnlyBarriers s t) (k : LaunchKey) (l : Launch) :
    OnlyBarriers (s.setLaunch k l) (t.setLaunch k l) := (congrArg (·.setLaunch k l) h :)

theorem free {s t : State} (h : OnlyBarriers s t) (src : Nat) : OnlyBarriers (s.free src) (t.free src) := (congrArg (·.free src) h :)

section
variable {s t : State} (h : OnlyBarriers s t)
include h

theorem cur : t.cur = s.cur := (congrArg State.cur h :)
theorem mem : t.mem = s.mem := (congrArg State.mem h :)
theorem groups : t.groups = s.groups := (congrArg State.groups h :)
theorem launches : t.launches = s.launches := (congrArg State.launches h :)
theorem mgmt : t.mgmt = s.mgmt := (congrArg State.mgmt h :)
theorem strand (j : Nat) : t.strand j = s.strand j := (congrArg (State.strand · j) h :)

end

end OnlyBarriers

/-- A strand out of its slot, with the records its group and its launch then have. -/
def State.without (s : State) (src : Nat) (k : GroupKey) (g : Group) (l : Launch) : State :=
  ((s.setGroup k g).setLaunch k.launch l).free src

/-- Besides barriers and contexts, the end of a strand changes its group, its launch and its slot (R114, R119). -/
theorem endStrandOf_only {s : State} {src : Nat} {k : GroupKey} {g : Group} {l : Launch} (hk : (s.strand src).group = k)
    (hgroup : look s.groups k = some g) (hlaunch : look s.launches k.launch = some l) :
    OnlyBarriers (s.without src k (g.strandEnds (s.strand src).bind.ix) (l.strandEnds (s.strand src).vec.fstat)) (s.endStrandOf src) := by
  unfold State.endStrandOf
  refine .refreshContext ?_ _
  dsimp only
  generalize hfold : List.foldl _ s _ = b
  have hb : OnlyBarriers s b := hfold ▸ .foldl (fun t x h => by split; exacts [h.setBarrier _ _ _, h]) _ (.refl s)
  have hg : b.group k = g := by rw [State.group, hb.groups, hgroup]; rfl
  have hl : b.launch k.launch = l := by rw [State.launch, hb.launches, hlaunch]; rfl
  simp only [hk, hb.groups, hgroup, hg, Option.isSome_some, if_true, State.setGroup_launches, hb.launches, hlaunch, hl]
  have hends := (hb.setGroup k (g.strandEnds (s.strand src).bind.ix)).setLaunch k.launch (l.strandEnds (s.strand src).vec.fstat)
  exact (hends.resetBarriers_if _ k).free src

/-- What the end of a strand leaves (R114, R119). -/
theorem endStrandOf_spec {s : State} {src : Nat} {g : Group} {l : Launch} (hgroup : look s.groups (s.strand src).group = some g)
    (hlaunch : look s.launches (s.strand src).bind.launch = some l) :
    let t := s.endStrandOf src
    t.cur = s.cur ∧ (t.strand src).st = .unbound ∧ (∀ j, j ≠ src → t.strand j = s.strand j) ∧ t.mem = s.mem ∧
      look t.groups (s.strand src).group = some (g.strandEnds (s.strand src).bind.ix) ∧
      look t.launches (s.strand src).bind.launch = some (l.strandEnds (s.strand src).vec.fstat) := by
  have honly := endStrandOf_only rfl hgroup hlaunch
  refine ⟨honly.cur, ?_, fun j hj => ?_, honly.mem, ?_, ?_⟩
  · rw [honly.strand]; exact congrArg Strand.st (State.strand_setStrand _ _ _)
  · rw [honly.strand]; exact State.strand_setStrand_ne _ _ _ _ hj
  · rw [honly.groups]; exact (look_put _ _ _ _).trans (if_pos rfl)
  · rw [honly.launches]; exact (look_put _ _ _ _).trans (if_pos rfl)

/-! ## An `end` that nothing keeps waiting (R114, R229) -/

/-- A strand whose record is written again is not gone. -/
theorem not_gone_setStrand (s : State) (src : Nat) : s.gone (s.setStrand src (s.strand src)) src = false := by
  simp [State.gone]

theorem not_gone_self (s : State) (src : Nat) : s.gone s src = false := by
  simp [State.gone]

/-- An empty buffer commits with nothing written. -/
theorem commitStrips_of_empty {s : State} {src : Nat} (h : (s.strand src).buf = []) (sel : Nat → Bool) :
    s.commitStrips src sel = s.setStrand src (s.strand src) := by
  have hkeep : { s.strand src with buf := [] } = s.strand src := by rw [← h]
  simp only [State.commitStrips, h, List.filter_nil, State.performLines, State.storesFailed, State.updAt, hkeep]

theorem endStrand_of_busy {s : State} (h : s.me.quiet = false) : exec .endStrand s = .next (s.waitFor .ending) := by
  show execEndStrand s = _
  simp only [execEndStrand, h, Bool.not_false, if_true]

theorem endStrand_of_idle {s : State} (hquiet : s.me.quiet = true) (hidle : Idle s) (hbuf : s.me.buf = []) :
    exec .endStrand s = .next ((s.setStrand s.cur.src s.me).endStrandOf s.cur.src) := by
  obtain ⟨-, hssq, -, -, hlost, hflying, hlink⟩ := hidle
  have hheld : s.bufHeld s.cur.src = false := (congrArg (List.any · _) hbuf :)
  have hdone : (s.setStrand s.cur.src s.me).writesDone s.cur.src 4 = true := by
    have hsame : (s.setStrand s.cur.src s.me).writesDone s.cur.src 4 = s.writesDone s.cur.src 4 := rfl
    rw [hsame]
    simp [State.writesDone, hflying, hlink]
  have hcommit : s.commitStrips s.cur.src (fun _ => true) = s.setStrand s.cur.src s.me := commitStrips_of_empty hbuf _
  have hgone : s.gone (s.setStrand s.cur.src s.me) s.cur.src = false := not_gone_setStrand s _
  show execEndStrand s = _
  simp only [execEndStrand, hquiet, State.drainPoint, hlost, State.drain_empty s s.cur.src hssq, State.ifStays, not_gone_self, hssq,
    hheld, hcommit, hgone, State.setStrand_cur, hdone, List.isEmpty_nil, Bool.not_true, Bool.or_self, Bool.false_eq_true, if_false]

theorem endFreesTheStrand : EndFreesTheStrand := by
  intro s g l
  refine ⟨fun hquiet hidle hbuf hgroup hlaunch => ?_, fun hbusy => waits_of_exec (endStrand_of_busy hbusy)⟩
  obtain ⟨u, hu⟩ : ∃ u, u = s.setStrand s.cur.src s.me := ⟨_, rfl⟩
  have hme : u.strand s.cur.src = s.me := hu ▸ State.strand_setStrand _ _ _
  have hspec := endStrandOf_spec (s := u) (src := s.cur.src) (g := g) (l := l) (by rw [hme, hu]; exact hgroup)
    (by rw [hme, hu]; exact hlaunch)
  rw [hme] at hspec
  obtain ⟨hcur, hst, hothers, hmem, hgroup', hlaunch'⟩ := hspec
  have hsrc : u.cur = s.cur := by rw [hu]; rfl
  refine ⟨_, _, _, hu ▸ endStrand_of_idle hquiet hidle hbuf, ?_, fun j hj => ?_, fun a => ?_, hgroup', rfl, rfl, fun hlast => ?_, hlaunch',
    rfl, rfl⟩
  · rw [State.me, hcur, hsrc]; exact hst
  · rw [hothers j hj, hu]; exact State.strand_setStrand_ne _ _ _ _ hj
  · rw [hmem, hu]; rfl
  · exact if_pos (List.isEmpty_iff.mpr hlast)

end Machine

/-- Settles O43: `yield` changes its strand and its core's turn, `mark` at most a trace; an `end` that nothing keeps waiting frees its slot
and counts its strand in group and launch. The 16 fetch turns for the 16 clocks of R125 are the model's choice (log 39). -/
theorem yieldMarkAndEnd : Obligations.YieldMarkAndEnd := ⟨yieldAndMark, endFreesTheStrand⟩

end Sys2Proof
end

section
/-! PROOFS. Pre-emption of a group, the save of its images, resumption in place and at a new PC (R118, R119, R120, R123, R302, R307). -/

namespace Sys2Proof
open Machine Claims
namespace Machine

/-! ## Strands that change one after the other -/

section
variable {f : State → Nat → State} (hf : ∀ s m, OnlyStrand m s (f s m))
include hf

/-- Steps that each change one strand change the strands of the list alone. -/
theorem foldl_onlyStrands (l : List Nat) (s : State) :
    { l.foldl f s with strands := s.strands } = s ∧ ∀ j, j ∉ l → (l.foldl f s).strand j = s.strand j := by
  induction l generalizing s with
  | nil => exact ⟨rfl, fun _ _ => rfl⟩
  | cons m r ih =>
    obtain ⟨hrest, hothers⟩ := hf s m
    obtain ⟨ihrest, ihothers⟩ := ih (f s m)
    refine ⟨(congrArg (fun v : State => { v with strands := s.strands }) ihrest :).trans hrest, fun j hj => ?_⟩
    obtain ⟨hm, hr⟩ := not_or.mp (List.mem_cons.not.mp hj)
    exact (ihothers j hr).trans (hothers j hm)

/-- Each of those strands is changed once, by its own step. -/
theorem foldl_strand_of_mem {P : Nat → Strand → Strand → Prop} (hP : ∀ s m, P m (s.strand m) ((f s m).strand m)) {l : List Nat}
    (hl : l.Nodup) {m : Nat} (hm : m ∈ l) (s : State) : P m (s.strand m) ((l.foldl f s).strand m) := by
  induction l generalizing s with
  | nil => exact absurd hm List.not_mem_nil
  | cons x r ih =>
    obtain ⟨hx, hr⟩ := List.nodup_cons.mp hl
    rw [List.foldl_cons]
    by_cases hmx : m = x
    · subst hmx
      rw [(foldl_onlyStrands hf r (f s m)).2 m hx]
      exact hP s m
    · rw [← (hf s x).2 m hmx]
      exact ih hr ((List.mem_cons.mp hm).resolve_left hmx) (f s x)

end

theorem group_of_look {s : State} {k : GroupKey} {g : Group} (h : look s.groups k = some g) : s.group k = g :=
  congrArg (·.getD {}) h

theorem look_setGroup (s : State) (k : GroupKey) (g : Group) : look (s.setGroup k g).groups k = some g :=
  (look_put _ _ _ _).trans (if_pos rfl)

/-! ## Pre-emption (R123) -/

/-- A strand stops with its vector registers and its convoys as they were. -/
def Strand.StopsAs (t u : Strand) : Prop := u.st = .halted ∧ u.vec = t.vec ∧ u.viq = t.viq

theorem finishBarrier_onlyStrand (s : State) (src : Nat) : OnlyStrand src s (s.finishBarrier src) := by
  simp only [State.finishBarrier]
  split
  · split
    · split
      · exact ⟨rfl, fun _ _ => rfl⟩
      · exact ⟨rfl, fun j hj => State.strand_setStrand_ne _ _ _ _ hj⟩
    · exact ⟨rfl, fun _ _ => rfl⟩
  · exact ⟨rfl, fun _ _ => rfl⟩

/-- A barrier instruction that finishes writes a scalar register and goes on. -/
theorem finishBarrier_vector (s : State) (src : Nat) :
    ((s.finishBarrier src).strand src).vec = (s.strand src).vec ∧ ((s.finishBarrier src).strand src).viq = (s.strand src).viq := by
  simp only [State.finishBarrier]
  split
  · split
    · split
      · exact ⟨rfl, rfl⟩
      · rw [State.strand_setStrand]
        exact ⟨by simp, by simp⟩
    · exact ⟨rfl, rfl⟩
  · exact ⟨rfl, rfl⟩

theorem Strand.park_stopsAs (t : Strand) : t.StopsAs t.park := by
  have hmx : t.parkMx.vec = t.vec ∧ t.parkMx.viq = t.viq := by
    unfold Strand.parkMx
    split <;> exact ⟨rfl, rfl⟩
  exact ⟨rfl, hmx⟩

/-- How a strand is parked. -/
def State.parkOne (s : State) (src : Nat) : State := (s.finishBarrier src).updAt src Strand.park

theorem parkOne_onlyStrand (s : State) (src : Nat) : OnlyStrand src s (s.parkOne src) :=
  OnlyStrand_trans (finishBarrier_onlyStrand s src) (onlyStrand_updAt _ src _)

theorem parkOne_stopsAs (s : State) (src : Nat) : (s.strand src).StopsAs ((s.parkOne src).strand src) := by
  obtain ⟨hvec, hviq⟩ := finishBarrier_vector s src
  obtain ⟨hst, hpvec, hpviq⟩ := ((s.finishBarrier src).strand src).park_stopsAs
  rw [State.parkOne, State.strand_updAt]
  exact ⟨hst, hpvec.trans hvec, hpviq.trans hviq⟩

theorem groupPreempt_parks {s : State} {k : GroupKey} {g : Group} (hgroup : look s.groups k = some g)
    (hstate : g.state = .resident ∨ g.state = .halted) :
    exec (.groupPreempt k) s = .next (((g.members.map Prod.snd).foldl State.parkOne s).setGroup k { g with state := .saving }) := by
  show Host.Outcome.next (s.preempt k) = _
  rw [State.preempt, group_of_look hgroup]
  exact congrArg Host.Outcome.next (if_pos hstate)

/-! ## The image of a resting strand is written (R85, R123) -/

theorem ctxWrite_traffic {s t : State} {die ctx : Nat} {va : Word} {bs : List Byte} (h : s.ctxWrite die ctx va bs = .ok t) :
    Traffic s t := by
  obtain ⟨p, rfl⟩ := State.ctxWrite_cases h
  exact (s.clockTo_traffic die p).trans (State.writePlace_traffic _ p bs)

theorem ctxWriteSpan_traffic {s t : State} {die ctx fuel : Nat} {va : Word} {bs : List Byte}
    (h : s.ctxWriteSpan die ctx va bs fuel = .ok t) : Traffic s t := by
  induction fuel generalizing s va bs with
  | zero => cases h; exact .refl _
  | succ k ih =>
    unfold State.ctxWriteSpan at h
    split at h
    · cases h; exact .refl _
    · dsimp only at h
      split at h
      · cases h
      · next hw => exact (ctxWrite_traffic hw).trans (ih h)

theorem setPoison_traffic (s : State) (line : Nat) (on : Bool) : Traffic s (s.setPoison line on) := by
  unfold State.setPoison
  split
  · split <;> exact ⟨rfl, fun _ => .refl _⟩
  · exact ⟨rfl, fun _ => .refl _⟩

theorem poisonSlots_traffic (s : State) (die ctx : Nat) (va : Word) (l : List Nat) : Traffic s (s.poisonSlots die ctx va l) := by
  induction l generalizing s with
  | nil => exact .refl s
  | cons x r ih =>
    unfold State.poisonSlots
    split
    · split
      · exact (setPoison_traffic s _ _).trans (ih _)
      · exact ih s
    · exact ih s

/-- The save of an image is writes of memory and poison marks. -/
theorem saveImage_traffic {s t : State} {src : Nat} (h : s.saveImage src = .ok t) : Traffic s t := by
  simp only [State.saveImage] at h
  split at h
  · cases h
  split at h
  · cases h
  split at h
  · cases h
  · next hw =>
    cases h
    split
    · exact (ctxWriteSpan_traffic hw).trans (poisonSlots_traffic _ _ _ _ _)
    · exact ctxWriteSpan_traffic hw

/-! ## A strand at rest has nothing to bring to memory (R123) -/

/-- A strand whose stores are all performed: its open strip cannot be rewound any more (R312). -/
def Strand.stored (t : Strand) : Strand :=
  { t with buf := [], ssq := [], fsvMarks := [], lostStore := none
           strips := (t.strips.filter (fun r => some r.id == t.openStrip)).map (fun r => { r with why := if r.why = 0 then 6 else r.why }) }

theorem flushStores_of_none {s : State} {src : Nat} (hbuf : (s.strand src).buf = []) (hssq : (s.strand src).ssq = [])
    (hlost : (s.strand src).lostStore = none) : s.flushStores src = (s.updAt src Strand.stored, []) := by
  simp only [State.flushStores, hbuf, hssq, hlost, Option.toList_none, List.map_nil, List.foldl_nil, State.performLines, List.append_nil]
  rfl

theorem writeCounter_of_stands {s : State} {src k : Nat} (h : (s.strand src).counterTo k = none) : s.writeCounter src k = s := by
  simp only [State.writeCounter, h]

theorem Strand.unload_of_empty {t : Strand} (h : t.viq = []) : t.unload.bind = t.bind := by
  have hstop : t.stopPart = t := by simp only [Strand.stopPart, h]
  rw [Strand.unload, hstop, h]
  rfl

/-- Bringing a resting strand's work to memory changes its record alone, and no store fails. -/
theorem flush_of_atRest {s : State} {src : Nat} (h : AtRest s src) :
    ∃ u, s.flush src = (u, []) ∧ OnlyStrand src s u ∧ (u.strand src).bind = (s.strand src).bind := by
  obtain ⟨hviq, -, -, hlands, hbuf, hssq, hlost, hcounters⟩ := h
  obtain ⟨u, hu⟩ : ∃ u, u = (s.updAt src Strand.stored).updAt src (fun t => t.landAll t.lands.length) := ⟨_, rfl⟩
  have hstrand : u.strand src = (s.strand src).stored := by
    have hnone : (s.strand src).stored.lands.length = 0 := (congrArg List.length hlands :)
    rw [hu, State.strand_updAt, State.strand_updAt, hnone, Strand.landAll]
  have hqueue : (u.strand src).viq = [] := by rw [hstrand]; exact hviq
  have hstop : (u.strand src).stopPart.viq = [] := by rw [Strand.stopPart, hqueue]; exact hqueue
  have hcounter : ∀ k < 3, u.writeCounter src k = u := fun k hk => writeCounter_of_stands (by rw [hstrand]; exact hcounters k hk)
  have hflush : s.flush src = (u.updAt src Strand.unload, []) := by
    simp only [State.flush, flushStores_of_none hbuf hssq hlost, ← hu]
    rw [show List.range 3 = [0, 1, 2] from rfl]
    simp only [List.foldl_cons, List.foldl_nil, hcounter 0 (by decide), hcounter 1 (by decide), hcounter 2 (by decide), hqueue,
      List.length_nil, State.retireDone, hstop, State.profileKept]
  have honly : OnlyStrand src s u := hu ▸ OnlyStrand_trans (onlyStrand_updAt s src _) (onlyStrand_updAt _ src _)
  refine ⟨_, hflush, OnlyStrand_trans honly (onlyStrand_updAt u src _), ?_⟩
  rw [State.strand_updAt, Strand.unload_of_empty hqueue, hstrand]
  rfl

/-! ## The group of a strand is saved (R119, R123) -/

/-- A strand that leaves its slot leaves its group (R119). -/
theorem vacate_spec {s : State} {src : Nat} {k : GroupKey} {g : Group} (hk : (s.strand src).group = k)
    (hgroup : look s.groups k = some g) :
    (s.vacate src).mem = s.mem ∧ ((s.vacate src).strand src).st = .unbound ∧
      (s.vacate src).group k = { g with members := g.members.erase (s.strand src).bind.ix } := by
  subst hk
  have hlook : look (s.disown src).groups ((s.disown src).strand src).group = some g := hgroup
  simp only [State.vacate, hlook, group_of_look hlook, Option.isSome_some, if_true]
  exact ⟨rfl, congrArg Strand.st (State.strand_setStrand _ _ _), State.group_setGroup _ _ _⟩

/-- A group is saved, and firmware is told (R119, R124). -/
def State.tellSaved (s : State) (k : GroupKey) (ended : BitVec 16) : State :=
  { s.setGroup k { s.group k with state := .saved } with mgmt := s.mgmt ++ [.saved k ended] }

@[simp] theorem tellSaved_mem (s : State) (k : GroupKey) (ended : BitVec 16) : (s.tellSaved k ended).mem = s.mem := rfl

@[simp] theorem tellSaved_strand (s : State) (k : GroupKey) (ended : BitVec 16) (j : Nat) : (s.tellSaved k ended).strand j = s.strand j := rfl

theorem OnlyBarriers.tellSaved {s t : State} (h : OnlyBarriers s t) (k : GroupKey) (ended : BitVec 16) :
    OnlyBarriers (s.tellSaved k ended) (t.tellSaved k ended) := (congrArg (·.tellSaved k ended) h :)

theorem OnlyBarriers.unbindBarriers (s : State) (k : GroupKey) : OnlyBarriers s (s.unbindBarriers k) := rfl

/-- The save of a group of one strand, whose stores are performed and whose image is written. -/
theorem saveGroup_one {s u w : State} {k : GroupKey} {g : Group} {ix src : Nat} (hgroup : look s.groups k = some g)
    (hmembers : g.members = [(ix, src)]) (hflush : s.flush src = (u, [])) (hsave : u.saveImage src = .ok w) :
    OnlyBarriers ((w.vacate src).tellSaved k g.ended) (s.saveGroup k) := by
  have hflushed : s.flushAll [src] = (u, none) := by
    rw [State.flushAll, hflush]
    rfl
  have hall : u.saveAll [src] = (w, false) := by
    rw [State.saveAll, hsave]
    rfl
  simp only [State.saveGroup, group_of_look hgroup, hmembers, List.map_cons, List.map_nil, hflushed, hall, List.foldl_cons, List.foldl_nil,
    Bool.false_eq_true, if_false]
  exact ((OnlyBarriers.unbindBarriers (w.vacate src) k).tellSaved k g.ended).refreshContext g.ctx

theorem groupSaved_of_settled {s : State} {k : GroupKey} {g : Group} {ix src : Nat} (hgroup : look s.groups k = some g)
    (hstate : g.state = .saving) (hmembers : g.members = [(ix, src)]) (hsettled : s.settled src = true) (hfree : s.imageHeld src = false) :
    exec (.groupSaved k) s = .next (s.saveGroup k) := by
  show execGroupSaved k s = _
  simp [execGroupSaved, group_of_look hgroup, hstate, hmembers, hsettled, hfree]

/-- What the save of a group of one resting strand leaves. -/
theorem saveGroup_spec {s w : State} {k : GroupKey} {g : Group} {src : Nat} (hgroup : look s.groups k = some g)
    (hmembers : g.members = [((s.strand src).bind.ix, src)]) (hk : (s.strand src).group = k) (hrest : AtRest s src)
    (hsave : (s.flush src).1.saveImage src = .ok w) :
    let t := s.saveGroup k
    t.mem = w.mem ∧ (t.strand src).st = .unbound ∧ look t.groups k = some { g with state := .saved, members := [] } ∧
      MgmtNote.saved k g.ended ∈ t.mgmt := by
  obtain ⟨u, hflush, ⟨hflushed, -⟩, hbind⟩ := flush_of_atRest hrest
  rw [hflush] at hsave
  have hsaved := saveGroup_one hgroup hmembers hflush hsave
  obtain ⟨honly, -⟩ := saveImage_traffic hsave
  have hwbind : (w.strand src).bind = (s.strand src).bind := (congrArg (fun v : State => (v.strand src).bind) honly :).trans hbind
  have hwk : (w.strand src).group = k := by rw [Strand.group, hwbind]; exact hk
  have hwgroup : look w.groups k = some g :=
    (congrArg (fun v : State => look v.groups k) honly :).trans ((congrArg (fun v : State => look v.groups k) hflushed :).trans hgroup)
  have hempty : g.members.erase (w.strand src).bind.ix = [] := by rw [hmembers, hwbind]; simp [Tbl.erase]
  obtain ⟨hmem, hst, hleft⟩ := vacate_spec hwk hwgroup
  rw [hempty] at hleft
  refine ⟨?_, ?_, ?_, ?_⟩
  · rw [hsaved.mem, tellSaved_mem, hmem]
  · rw [hsaved.strand, tellSaved_strand, hst]
  · rw [hsaved.groups, State.tellSaved, hleft]; exact look_setGroup _ _ _
  · rw [hsaved.mgmt]; exact List.mem_append_right _ (List.mem_singleton.mpr rfl)

/-! ## Resumption in place (R118, R120, R132, R307) -/

/-- A strand of a group goes on as it was before the halt: it waits again where it waited. -/
def Strand.ResumesAs (waiting : List Nat) (m : Nat) (t u : Strand) : Prop :=
  u.barDue = t.barDue ∧ (t.st = .halted → u.st = (if m ∈ waiting then .waiting else .running) ∧ u.pc = t.pc ∧ u.s = t.s ∧
    u.vec = t.vec ∧ u.vecHeld = false)

/-- A member of a group that resumes, by the list of strands that waited. -/
def State.resumeOne (waiting : List Nat) (s : State) (src : Nat) : State := s.resumeStrand (waiting.contains src) src

theorem resumeOne_onlyStrand (waiting : List Nat) (s : State) (src : Nat) : OnlyStrand src s (s.resumeOne waiting src) :=
  onlyStrand_updAt s src _

theorem resumeOne_resumesAs (waiting : List Nat) (s : State) (src : Nat) :
    (s.strand src).ResumesAs waiting src ((s.resumeOne waiting src).strand src) := by
  rw [State.resumeOne, State.resumeStrand, State.strand_updAt]
  by_cases hst : (s.strand src).st = .halted
  · by_cases hw : src ∈ waiting <;> simp [Strand.ResumesAs, Strand.resume, hst, hw]
  · simp [Strand.ResumesAs, Strand.resume, hst]

/-- With no arrival deferred none is made (R132). -/
theorem deferredArrivals_of_none {s : State} {l : List Nat} (h : ∀ m ∈ l, (s.strand m).barDue = none) : s.deferredArrivals l = s := by
  have hdue : l.filterMap (fun src => (s.strand src).barDue.map (fun d => (d.2, src))) = [] :=
    List.filterMap_eq_nil_iff.mpr fun m hm => by rw [h m hm]; rfl
  simp only [State.deferredArrivals, hdue, arrivalOrder, List.mergeSort_nil, List.foldl_nil]

theorem groupResume_resumes {s : State} {k : GroupKey} {g : Group} (hgroup : look s.groups k = some g) (hstate : g.state = .halted)
    (hposted : s.recordWaits k = false) (hnodup : (g.members.map Prod.snd).Nodup)
    (hdue : ∀ m ∈ g.members.map Prod.snd, (s.strand m).barDue = none) :
    exec (.groupResume k) s = .next ((g.members.map Prod.snd).foldl (State.resumeOne g.waiting)
      ((s.releaseBarriers k).setGroup k { g with state := .resident, waiting := [] })) := by
  obtain ⟨v, hv⟩ : ∃ v, v = (s.releaseBarriers k).setGroup k { g with state := .resident, waiting := [] } := ⟨_, rfl⟩
  have hnone : ∀ m ∈ g.members.map Prod.snd, (((g.members.map Prod.snd).foldl (State.resumeOne g.waiting) v).strand m).barDue = none :=
    fun m hm => by
      obtain ⟨hsame, -⟩ := foldl_strand_of_mem (resumeOne_onlyStrand g.waiting) (resumeOne_resumesAs g.waiting) hnodup hm v
      rw [hsame, hv]
      exact hdue m hm
  have hgoes : ¬(g.state ≠ .halted ∨ s.recordWaits k = true) := by simp [hstate, hposted]
  show execGroupResume k s = _
  rw [execGroupResume, group_of_look hgroup]
  refine congrArg Host.Outcome.next ((if_neg hgoes).trans ?_)
  rw [← hv]
  exact deferredArrivals_of_none hnone

theorem groupResume_waits {s : State} {k : GroupKey} (h : s.recordWaits k = true) : exec (.groupResume k) s = .next s :=
  congrArg Host.Outcome.next (if_pos (.inr h))

/-! ## Resumption at a new PC (R302; assumption 57) -/

/-- Whatever is discarded, a redirected strand keeps its scalar registers and its state. -/
theorem Strand.redirect_scalar (t : Strand) (pc : Word) :
    (t.redirect pc).pc = pc ∧ (t.redirect pc).st = t.st ∧ (t.redirect pc).s = t.s := by
  unfold Strand.redirect
  split <;> exact ⟨rfl, rfl, rfl⟩

/-- The stopped convoy `q` and the later ones are gone, with their copies and matrix operations. -/
theorem Strand.redirect_of_stopped {t : Strand} {q : Nat} (h : t.stoppedAt = some q) (pc : Word) :
    (t.redirect pc).viq = t.viq.filter (fun c => decide (c.seq < q)) ∧
    (t.redirect pc).cpq.map CpOp.num = (t.cpq.filter (fun o => decide (o.seq < q))).map CpOp.num ∧
    (t.redirect pc).mxq.map MxOp.num = (t.mxq.filter (fun o => decide (o.seq < q))).map MxOp.num ∧
    (t.redirect pc).vecHeld = false ∧ (t.redirect pc).cpHeld = false ∧ (t.redirect pc).mxHeld = false := by
  rw [Strand.redirect, h]
  exact ⟨rfl, List.map_map.trans rfl, List.map_map.trans rfl, rfl, rfl, rfl⟩

/-- A strand none of whose convoys had stopped keeps them. -/
theorem Strand.redirect_of_unstopped {t : Strand} (h : t.stoppedAt = none) (pc : Word) :
    (t.redirect pc).viq = t.viq ∧ (t.redirect pc).vec = t.vec := by
  rw [Strand.redirect, h]
  exact ⟨rfl, rfl⟩

/-- A group whose strand `src` has been redirected, and waits for `w` from then on. -/
def Group.redirected (g : Group) (src : Nat) (w : Wait) : Group :=
  { g with waiting := if w = .none then g.waiting.filter (· != src) else src :: g.waiting.filter (· != src) }

theorem strand_redirected (s : State) (src : Nat) (pc : Word) :
    ((s.updAt src (fun t => t.redirect pc)).disown src).strand src = (s.strand src).redirect pc :=
  s.strand_updAt src (fun t => t.redirect pc)

/-- Besides the record of its group and the migrations it ordered, a redirected strand changes its own record alone. -/
theorem resumeAtNewPc_redirects {s : State} {src : Nat} {g : Group} (hgroup : look s.groups (s.strand src).group = some g)
    (hstate : g.state = .halted) (hst : (s.strand src).st = .halted) (pc : Word) :
    exec (.resumeAtNewPc src pc) s = .next (((s.updAt src (fun t => t.redirect pc)).disown src).setGroup (s.strand src).group
      (g.redirected src ((s.strand src).redirect pc).wait)) := by
  show execResumeAtNewPc src pc s = _
  rw [execResumeAtNewPc, group_of_look hgroup, ← strand_redirected]
  exact congrArg Host.Outcome.next (if_pos ⟨hstate, hst⟩)

end Machine

/-- Settles O27: each step of a pre-emption or a resumption changes one strand, with what that strand keeps; the flush of a resting strand
brings nothing to memory, so what is written is its image. That a strand which had stopped at none keeps its queued convoys (log 57) is the
model's reading. -/
theorem groupsPreemptSaveAndResume : Obligations.GroupsPreemptSaveAndResume := by
  intro s w k g src pc u ms
  refine ⟨fun hgroup hstate hnodup => ?preempt, fun hgroup hstate hmembers hk hrest hsettled hfree hsave => ?save,
    fun hgroup hstate hposted hnodup hdue => ?resume, groupResume_waits, fun hgroup hstate hst => ?redirect⟩
  case preempt =>
    obtain ⟨hrest, hothers⟩ := foldl_onlyStrands parkOne_onlyStrand ms s
    refine ⟨_, _, groupPreempt_parks hgroup hstate, fun a => (congrArg (fun v : State => Memory.read v.mem a) hrest :),
      look_setGroup _ _ _, rfl, fun m hm => ?_, hothers⟩
    exact foldl_strand_of_mem (P := fun _ => Strand.StopsAs) parkOne_onlyStrand parkOne_stopsAs hnodup hm s
  case save =>
    obtain ⟨hmem, hunbound, hsaved, htold⟩ := saveGroup_spec hgroup hmembers hk hrest hsave
    exact ⟨_, _, groupSaved_of_settled hgroup hstate hmembers hsettled hfree, hmem, hunbound, hsaved, rfl, rfl, rfl, htold⟩
  case resume =>
    obtain ⟨v, hv⟩ : ∃ v, v = (s.releaseBarriers k).setGroup k { g with state := .resident, waiting := [] } := ⟨_, rfl⟩
    obtain ⟨hrest, hothers⟩ := foldl_onlyStrands (resumeOne_onlyStrand g.waiting) ms v
    have hstrand : ∀ m, v.strand m = s.strand m := fun m => by rw [hv]; rfl
    refine ⟨_, { g with state := .resident, waiting := [] }, hv ▸ groupResume_resumes hgroup hstate hposted hnodup hdue, fun a => ?_, ?_, rfl,
      fun m hm hhalted => ?_, fun j hj => (hothers j hj).trans (hstrand j)⟩
    · refine (congrArg (fun v : State => Memory.read v.mem a) hrest :).trans ?_
      rw [hv]; rfl
    · refine (congrArg (fun v : State => look v.groups k) hrest :).trans ?_
      rw [hv]; exact look_setGroup _ _ _
    · obtain ⟨-, hgoes⟩ := foldl_strand_of_mem (resumeOne_onlyStrand g.waiting) (resumeOne_resumesAs g.waiting) hnodup hm v
      rw [hstrand] at hgoes
      exact hgoes hhalted
  case redirect =>
    obtain ⟨hpc, hst', hs⟩ := u.redirect_scalar pc
    obtain ⟨-, hothers⟩ := onlyStrand_updAt s src (fun t => t.redirect pc)
    refine ⟨_, resumeAtNewPc_redirects hgroup hstate hst pc, fun _ => rfl, hothers, ?_⟩
    rw [State.setGroup_strand, strand_redirected]
    exact ⟨hpc, hst'.trans hst, hs, fun q hq => Strand.redirect_of_stopped hq pc, fun hnone => Strand.redirect_of_unstopped hnone pc⟩

end Sys2Proof
end

section
/-! PROOFS. The barriers of a group (R130 to R134): the table entry after an arrival, the phase an instruction waits for, and the group of
one strand. -/

namespace Sys2Proof
open Machine Claims

/-- The first entry that meets a test is still the first that meets it after it is written again as one that does. -/
theorem Tbl.find?_set {α : Type} {q : Nat × α → Bool} {t : Tbl α} {k : Nat} {x y : α} (hfind : List.find? q t = some (k, x))
    (hy : q (k, y) = true) : List.find? q (Tbl.set t k y) = some (k, y) := by
  induction t with
  | nil => exact absurd hfind (by simp)
  | cons r t ih =>
    obtain ⟨j, z⟩ := r
    cases hz : q (j, z) with
    | true =>
      obtain ⟨rfl, -⟩ := Prod.mk.inj (Option.some.inj ((List.find?_cons_of_pos hz).symm.trans hfind))
      rw [Tbl.set, if_pos rfl, List.find?_cons_of_pos hy]
    | false =>
      have hrest : List.find? q t = some (k, x) := (List.find?_cons_of_neg (by simp [hz])).symm.trans hfind
      rw [Tbl.set]
      split
      · exact List.find?_cons_of_pos hy
      · split
        · exact List.find?_cons_of_pos hy
        · rw [List.find?_cons_of_neg (by simp [hz]), ih hrest]

namespace Machine

/-! ## The entry after an arrival (R131) -/

section
variable {e : Barrier} {j : Nat} (hj : j < 16)
include hj

theorem getLsbD_arrive (k : Nat) : (e.arrive j).arr.getLsbD k = (e.arr.getLsbD k || decide (k = j)) := by
  have hbit : (BitVec.ofNat 16 (2 ^ j)).getLsbD k = decide (k = j) := by
    rw [BitVec.getLsbD_ofNat, Nat.testBit_two_pow, Bool.eq_iff_iff]
    simp only [Bool.and_eq_true, decide_eq_true_eq]
    omega
  rw [Barrier.arrive, BitVec.getLsbD_or, hbit]

/-- The arrivals cover the group exactly where the arrival is the last of its phase. -/
theorem arrive_covers_iff :
    ((List.range (e.arrive j).size).all fun k => (e.arrive j).arr.getLsbD k || (e.arrive j).ended.getLsbD k) = true ↔ Last e j := by
  simp only [List.all_eq_true, List.mem_range, getLsbD_arrive hj, Bool.or_eq_true, decide_eq_true_eq, Last]
  exact forall₂_congr fun k _ => by rw [or_comm (a := e.arr.getLsbD k = true), or_assoc]; rfl

theorem complete_of_last (h : Last e j) : (e.arrive j).complete = { e.arrive j with phase := e.phase + 1, arr := 0 } :=
  if_pos ((arrive_covers_iff hj).mpr h)

theorem complete_of_not_last (h : ¬Last e j) : (e.arrive j).complete = e.arrive j := if_neg (mt (arrive_covers_iff hj).mp h)

end

/-- An arrival leaves an entry with its group and its number. -/
theorem complete_arrive_names (e : Barrier) (j : Nat) :
    (e.arrive j).complete.bound = e.bound ∧ (e.arrive j).complete.owner = e.owner ∧ (e.arrive j).complete.local_ = e.local_ ∧
      (e.arrive j).complete.ended = e.ended ∧ (e.arrive j).complete.size = e.size := by
  unfold Barrier.complete
  split <;> exact ⟨rfl, rfl, rfl, rfl, rfl⟩

/-! ## An arrival at an entry of the table (R130, R131) -/

/-- The state with the executing strand's arrival in entry `ix`, which was `e`. -/
def State.countArrival (s : State) (ix : Nat) (e : Barrier) : State :=
  s.setBarrier (clusterOf s.cur.src) ix (e.arrive s.me.bind.ix).complete

section
variable {s : State} {b ix : Nat} {e : Barrier}

theorem barriers_countArrival :
    ((s.countArrival ix e).cluster (clusterOf s.cur.src)).barriers =
      (s.cluster (clusterOf s.cur.src)).barriers.set ix (e.arrive s.me.bind.ix).complete := by
  rw [State.countArrival, State.setBarrier, State.cluster_setCluster]

theorem arrived_countArrival (hj : s.me.bind.ix < 16) : Arrived s (s.countArrival ix e) ix e := by
  obtain ⟨-, howner, -, hended, hsize⟩ := complete_arrive_names e s.me.bind.ix
  rw [Arrived, barriers_countArrival, Tbl.getD_set_self]
  refine ⟨fun hlast => ?_, fun hlast => ?_, hended, hsize, howner⟩
  · rw [complete_of_last hj hlast]; exact ⟨rfl, rfl⟩
  · rw [complete_of_not_last hj hlast]; exact ⟨rfl, fun k _ => getLsbD_arrive hj k⟩

theorem phaseOf_of_hasBarrier (h : HasBarrier s b ix e) : s.phaseOf b = e.phase.toNat := by
  rw [HasBarrier] at h
  rw [State.phaseOf, h]

theorem arriveAt_of_hasBarrier (h : HasBarrier s b ix e) : s.arriveAt b = (s.countArrival ix e, e.phase.toNat) := by
  rw [HasBarrier] at h
  rw [State.arriveAt, h]
  rfl

/-- The entry is found under the same number after the arrival. -/
theorem hasBarrier_countArrival (h : HasBarrier s b ix e) :
    HasBarrier (s.countArrival ix e) b ix (e.arrive s.me.bind.ix).complete := by
  obtain ⟨hbound, howner, hlocal, -, -⟩ := complete_arrive_names e s.me.bind.ix
  have hnames := List.find?_some h
  show ((s.countArrival ix e).cluster (clusterOf s.cur.src)).barriers.find? _ = _
  rw [barriers_countArrival]
  refine Tbl.find?_set h ?_
  show ((e.arrive s.me.bind.ix).complete.bound && _ == some s.me.group && _ == b) = true
  rw [hbound, howner, hlocal]
  exact hnames

end

/-! ## The phase that is waited for (R133) -/

/-- How far the phase of local barrier `b` is past a token. -/
def State.phasesPast (s : State) (b tok : Nat) : Nat := (s.phaseOf b + 65536 - tok) % 65536

/-- The strand with the token of its barrier instruction kept, or none. -/
def Strand.keepToken (tok : Option (Nat × Nat)) (t : Strand) : Strand := { t with barTok := tok }

section
variable {s : State} {sd : BitVec 5} {b tok : Nat}

theorem waitPhase_of_over (h1 : 1 ≤ s.phasesPast b tok) (h2 : s.phasesPast b tok ≤ 32768) :
    s.waitPhase sd b tok = (s.upd (Strand.keepToken none)).wrNext sd (BitVec.ofNat 64 (s.phaseOf b)) :=
  (if_neg (Nat.not_lt.mpr h2)).trans (if_neg (Nat.pos_iff_ne_zero.mp h1))

theorem waitPhase_of_same (h : s.phasesPast b tok = 0) : s.waitPhase sd b tok = s.waitFor (.barrier sd b tok) :=
  (if_neg (show ¬32768 < s.phasesPast b tok by omega)).trans (if_pos h)

theorem waitPhase_of_stale (h : 32768 < s.phasesPast b tok) :
    s.waitPhase sd b tok = (s.upd (Strand.keepToken none)).scalarStop 5 0 0 5 := if_pos h

end

/-- A phase as a scalar's value. -/
theorem toNat_phase (p : BitVec 16) : (BitVec.ofNat 64 p.toNat).toNat = p.toNat := by
  have hlt := p.isLt
  rw [BitVec.toNat_ofNat]
  omega

theorem phaseOf_keepToken (s : State) (tok : Option (Nat × Nat)) (b : Nat) :
    (s.upd (Strand.keepToken tok)).phaseOf b = s.phaseOf b := by
  rw [State.phaseOf, State.me_upd]
  rfl

theorem phasesPast_self (p : BitVec 16) : (p.toNat + 65536 - p.toNat) % 65536 = 0 := by omega

theorem phasesPast_succ (p : BitVec 16) : ((p + 1).toNat + 65536 - p.toNat) % 65536 = 1 := by
  have hlt := p.isLt
  have hsucc : (p + 1).toNat = (p.toNat + 1) % 65536 := BitVec.toNat_add p 1
  omega

/-! ## The frame of an arrival -/

theorem barrierStep_refl (s : State) : BarrierStep s s := ⟨rfl, fun _ _ => rfl, fun _ _ => rfl, fun _ => rfl⟩

section
variable {s t : State} (h : BarrierStep s t)
include h

theorem cur_of_barrierStep : t.cur = s.cur := (congrArg State.cur h.1 :)

theorem barrierStep_upd (f : Strand → Strand) : BarrierStep s (t.upd f) := by
  have hcur := cur_of_barrierStep h
  obtain ⟨hrest, hothers, hclusters, hmem⟩ := h
  exact ⟨hrest, fun j hj => (t.strand_upd_ne j f (hcur ▸ hj)).trans (hothers j hj), hclusters, hmem⟩

theorem barrierStep_countArrival (ix : Nat) (e : Barrier) : BarrierStep s (t.countArrival ix e) := by
  have hcur := cur_of_barrierStep h
  obtain ⟨hrest, hothers, hclusters, hmem⟩ := h
  exact ⟨hrest, hothers, fun k hk => (t.cluster_setCluster_ne _ _ k (hcur ▸ hk)).trans (hclusters k hk), hmem⟩

end

/-- Of the strand only the reads that may still take place and the kept token differ. -/
def ArrivesAs (t u : Strand) : Prop := { u with lands := t.lands, barTok := t.barTok } = t

/-- An instruction of such a strand that writes sd and goes on. -/
theorem wrNext_of_arrivesAs {s u : State} (h : ArrivesAs s.me u.me) (sd : BitVec 5) (w : Word) :
    RegsBut s (u.wrNext sd w) sd ∧ RunsAt (u.wrNext sd w) (s.me.pc + 4) ∧ (sd ≠ 0 → (u.wrNext sd w).rd sd = w) := by
  obtain ⟨-, -, -, ⟨hregs, hzero⟩, hruns⟩ := scalarStep_wrNext u sd w
  have hpc : u.me.pc = s.me.pc := (congrArg Strand.pc h :)
  have hrd : ∀ n, u.rd n = s.rd n := fun n => (congrArg (fun t : Strand => t.reg n.toNat) h :)
  exact ⟨⟨fun n hn => (hregs n hn).trans (hrd n), hzero⟩, hpc ▸ hruns, fun hsd => by rw [State.rd_wrNext, if_neg hsd, if_pos rfl]⟩

/-! ## The three instructions (R133, R134) -/

/-- What `bar` does at barrier `b`. -/
def State.barAt (s : State) (sd : BitVec 5) (b : Nat) : State :=
  if s.me.bind.gsize ≤ 1 then s.barAlone sd
  else match s.me.barTok with
    | some (b', tok) => if b' = b then s.waitPhase sd b tok else s.upd (Strand.keepToken none)
    | none => s.arrival ⟨b, sd, true⟩

/-- What `bararr` does at barrier `b`. -/
def State.bararrAt (s : State) (sd : BitVec 5) (b : Nat) : State :=
  if s.me.bind.gsize ≤ 1 then s.barAlone sd
  else match s.me.barTok with
    | some (b', tok) =>
      let s := s.upd (Strand.keepToken none)
      if b' = b then s.wrNext sd (BitVec.ofNat 64 tok) else s
    | none => s.arrival ⟨b, sd, false⟩

/-- What `barwt` does at barrier `b`. -/
def State.barwtAt (s : State) (sd sb : BitVec 5) (b : Nat) : State :=
  if s.me.bind.gsize ≤ 1 then s.wrNext sd 0 else s.waitPhase sd b ((s.rd sb).toNat % 65536)

theorem exec_bar (x : SReg2) (s : State) : exec (.bar x) s = s.barOperand x.sa (s.barAt x.sd) := rfl

theorem exec_bararr (x : SReg2) (s : State) : exec (.bararr x) s = s.barOperand x.sa (s.bararrAt x.sd) := rfl

theorem exec_barwt (x : SReg3) (s : State) : exec (.barwt x) s = s.barOperand x.sa (s.barwtAt x.sd x.sb) := rfl

/-- An instruction whose operand is a barrier's number does what it does at that barrier. -/
theorem exec_of_barOperand {i : Instr} {s : State} {sa : BitVec 5} {k : Nat → State} (hexec : exec i s = s.barOperand sa k)
    (h : (s.rd sa).toNat ≤ 1) : exec i s = .next (k (s.rd sa).toNat) := hexec.trans (if_neg (Nat.not_lt.mpr h))

/-- In a group of one strand all three only write 0. -/
theorem barAt_alone {s : State} (h : s.me.bind.gsize ≤ 1) (sd sb : BitVec 5) (b : Nat) :
    s.barAt sd b = s.barAlone sd ∧ s.bararrAt sd b = s.barAlone sd ∧ s.barwtAt sd sb b = s.wrNext sd 0 :=
  ⟨if_pos h, if_pos h, if_pos h⟩

/-- In a larger group `bar` and `bararr` with no token kept arrive, and `barwt` waits. -/
theorem barAt_group {s : State} (h : 1 < s.me.bind.gsize) (htok : s.me.barTok = none) (sd sb : BitVec 5) (b : Nat) :
    s.barAt sd b = s.arrival ⟨b, sd, true⟩ ∧ s.bararrAt sd b = s.arrival ⟨b, sd, false⟩ ∧
      s.barwtAt sd sb b = s.waitPhase sd b ((s.rd sb).toNat % 65536) := by
  have hgroup := Nat.not_le.mpr h
  rw [State.barAt, State.bararrAt, htok]
  exact ⟨if_neg hgroup, if_neg hgroup, if_neg hgroup⟩

/-! ## `bar` and `bararr` of an idle strand (R131, R133) -/

theorem me_fixReads (s : State) : ∃ l, (s.upd Strand.fixReads).me = { s.me with lands := l } := by
  obtain ⟨l, hl⟩ := s.me.fixReads_eq
  exact ⟨l, by rw [State.me_upd, hl]⟩

theorem hasBarrier_fixReads {s : State} {b ix : Nat} {e : Barrier} (h : HasBarrier s b ix e) :
    HasBarrier (s.upd Strand.fixReads) b ix e := by
  obtain ⟨l, hl⟩ := me_fixReads s
  rw [HasBarrier, Strand.group, hl]
  exact h

/-- The executing strand's reads stand, and its arrival is in entry `ix`. -/
def State.arrivalMade (s : State) (ix : Nat) (e : Barrier) : State := (s.upd Strand.fixReads).countArrival ix e

section
variable {s : State} {b ix : Nat} {e : Barrier}

theorem me_arrivalMade (s : State) (ix : Nat) (e : Barrier) : ∃ l, (s.arrivalMade ix e).me = { s.me with lands := l } := me_fixReads s

theorem barrierStep_arrivalMade (s : State) (ix : Nat) (e : Barrier) : BarrierStep s (s.arrivalMade ix e) :=
  barrierStep_countArrival (barrierStep_upd (barrierStep_refl s) _) ix e

theorem arrived_arrivalMade (hj : s.me.bind.ix < 16) : Arrived s (s.arrivalMade ix e) ix e := by
  obtain ⟨l, hl⟩ := me_fixReads s
  have hbind : (s.upd Strand.fixReads).me.bind = s.me.bind := by rw [hl]
  have h := arrived_countArrival (s := s.upd Strand.fixReads) (ix := ix) (e := e) (by rw [hbind]; exact hj)
  rw [Arrived, hbind] at h
  exact h

/-- The arrival is made, and the phase before it is kept as a token of barrier `b`. -/
def State.tokenKept (s : State) (ix : Nat) (e : Barrier) (b : Nat) : State :=
  (s.arrivalMade ix e).upd (Strand.keepToken (some (b, e.phase.toNat)))

theorem me_tokenKept (s : State) (ix : Nat) (e : Barrier) (b : Nat) :
    ∃ l, (s.tokenKept ix e b).me = { s.me with lands := l, barTok := some (b, e.phase.toNat) } := by
  obtain ⟨l, hl⟩ := me_arrivalMade s ix e
  exact ⟨l, by rw [State.tokenKept, State.me_upd, hl]; rfl⟩

theorem phaseOf_tokenKept (hentry : HasBarrier s b ix e) :
    (s.tokenKept ix e b).phaseOf b = (e.arrive s.me.bind.ix).complete.phase.toNat := by
  obtain ⟨l, hl⟩ := me_fixReads s
  rw [State.tokenKept, phaseOf_keepToken]
  have hphase := phaseOf_of_hasBarrier (hasBarrier_countArrival (hasBarrier_fixReads hentry))
  rwa [hl] at hphase

/-- The last arrival leaves the phase one past its token. -/
theorem phase_tokenKept_of_last (hj : s.me.bind.ix < 16) (hentry : HasBarrier s b ix e) (hlast : Last e s.me.bind.ix) :
    (s.tokenKept ix e b).phaseOf b = (e.phase + 1).toNat ∧ (s.tokenKept ix e b).phasesPast b e.phase.toNat = 1 := by
  have hphase : (s.tokenKept ix e b).phaseOf b = (e.phase + 1).toNat := by
    rw [phaseOf_tokenKept hentry, complete_of_last hj hlast]
  exact ⟨hphase, by rw [State.phasesPast, hphase, phasesPast_succ]⟩

/-- An earlier arrival leaves the phase at its token. -/
theorem phase_tokenKept_of_not_last (hj : s.me.bind.ix < 16) (hentry : HasBarrier s b ix e) (hlast : ¬Last e s.me.bind.ix) :
    (s.tokenKept ix e b).phasesPast b e.phase.toNat = 0 := by
  rw [State.phasesPast, phaseOf_tokenKept hentry, complete_of_not_last hj hlast]
  exact phasesPast_self e.phase

/-- With nothing of the strand to perform and its group not halted, the arrival is made (R132, R133). -/
theorem arrival_of_idle (hidle : Idle s) (hstrip : NoStrip s) (hheld : s.held = false) (hentry : HasBarrier s b ix e) (sd : BitVec 5)
    (stays : Bool) :
    s.arrival ⟨b, sd, stays⟩ =
      if stays then (s.tokenKept ix e b).waitPhase sd b e.phase.toNat
      else (s.arrivalMade ix e).wrNext sd (BitVec.ofNat 64 e.phase.toNat) := by
  obtain ⟨hviq, hssq, -, -, hlost, hflying, -⟩ := hidle
  obtain ⟨l, hl⟩ := me_fixReads s
  have hopen : s.me.lastOpen = none := by rw [Strand.lastOpen, hviq]; rfl
  have hheld' : (s.upd Strand.fixReads).held = false := by rw [State.held, Strand.group, hl]; exact hheld
  rw [State.arrival, barRelease_of_quiet hopen hlost hssq hstrip hflying, hheld', State.arrived,
    arriveAt_of_hasBarrier (hasBarrier_fixReads hentry)]
  rfl

section
variable {x : SReg2} (hidle : Idle s) (hstrip : NoStrip s) (hheld : s.held = false) (htok : s.me.barTok = none)
  (hgroup : 1 < s.me.bind.gsize) (hb : (s.rd x.sa).toNat ≤ 1) (hentry : HasBarrier s (s.rd x.sa).toNat ix e)
include hidle hstrip hheld htok hgroup hb hentry

theorem bararr_of_idle : exec (.bararr x) s = .next ((s.arrivalMade ix e).wrNext x.sd (BitVec.ofNat 64 e.phase.toNat)) := by
  obtain ⟨-, harrives, -⟩ := barAt_group hgroup htok x.sd 0 (s.rd x.sa).toNat
  rw [exec_of_barOperand (exec_bararr x s) hb, harrives, arrival_of_idle hidle hstrip hheld hentry]
  rfl

theorem bar_of_idle :
    exec (.bar x) s = .next ((s.tokenKept ix e (s.rd x.sa).toNat).waitPhase x.sd (s.rd x.sa).toNat e.phase.toNat) := by
  obtain ⟨harrives, -, -⟩ := barAt_group hgroup htok x.sd 0 (s.rd x.sa).toNat
  rw [exec_of_barOperand (exec_bar x s) hb, harrives, arrival_of_idle hidle hstrip hheld hentry]
  rfl

/-- `bararr` counts the arrival and returns the phase before it. -/
theorem bararr_arrives (hj : s.me.bind.ix < 16) :
    ∃ t, exec (.bararr x) s = .next t ∧ BarrierStep s t ∧ Arrived s t ix e ∧ RegsBut s t x.sd ∧ RunsAt t (s.me.pc + 4) ∧
      (x.sd ≠ 0 → (t.rd x.sd).toNat = e.phase.toNat) := by
  obtain ⟨l, hl⟩ := me_arrivalMade s ix e
  obtain ⟨hregs, hruns, hsd⟩ := wrNext_of_arrivesAs (s := s) (u := s.arrivalMade ix e) (by rw [hl]; rfl) x.sd
    (BitVec.ofNat 64 e.phase.toNat)
  exact ⟨_, bararr_of_idle hidle hstrip hheld htok hgroup hb hentry, barrierStep_upd (barrierStep_arrivalMade s ix e) _,
    arrived_arrivalMade hj, hregs, hruns, fun h => by rw [hsd h, toNat_phase]⟩

/-- The last `bar` goes on with the new phase. -/
theorem bar_of_last (hj : s.me.bind.ix < 16) (hlast : Last e s.me.bind.ix) :
    exec (.bar x) s =
      .next (((s.tokenKept ix e (s.rd x.sa).toNat).upd (Strand.keepToken none)).wrNext x.sd (BitVec.ofNat 64 (e.phase + 1).toNat)) := by
  obtain ⟨hphase, hpast⟩ := phase_tokenKept_of_last hj hentry hlast
  rw [bar_of_idle hidle hstrip hheld htok hgroup hb hentry, waitPhase_of_over (by omega) (by omega), hphase]

/-- An earlier `bar` waits for the phase to end. -/
theorem bar_of_not_last (hj : s.me.bind.ix < 16) (hlast : ¬Last e s.me.bind.ix) :
    exec (.bar x) s =
      .next ((s.tokenKept ix e (s.rd x.sa).toNat).waitFor (.barrier x.sd (s.rd x.sa).toNat e.phase.toNat)) := by
  rw [bar_of_idle hidle hstrip hheld htok hgroup hb hentry, waitPhase_of_same (phase_tokenKept_of_not_last hj hentry hlast)]

/-- `bar` counts the arrival, and goes on where it is the last. -/
theorem bar_arrives (hj : s.me.bind.ix < 16) :
    ∃ t, exec (.bar x) s = .next t ∧ BarrierStep s t ∧ Arrived s t ix e ∧
      (Last e s.me.bind.ix → RegsBut s t x.sd ∧ RunsAt t (s.me.pc + 4) ∧ t.me.barTok = none ∧
        (x.sd ≠ 0 → (t.rd x.sd).toNat = (e.phase.toNat + 1) % 65536)) ∧
      (¬Last e s.me.bind.ix → t.me.st = .waiting ∧ t.me.pc = s.me.pc ∧ t.me.barTok = some ((s.rd x.sa).toNat, e.phase.toNat)) := by
  obtain ⟨l, hl⟩ := me_tokenKept s ix e (s.rd x.sa).toNat
  have hstep : BarrierStep s (s.tokenKept ix e (s.rd x.sa).toNat) := barrierStep_upd (barrierStep_arrivalMade s ix e) _
  have harrived : Arrived s (s.tokenKept ix e (s.rd x.sa).toNat) ix e := arrived_arrivalMade hj
  by_cases hlast : Last e s.me.bind.ix
  · obtain ⟨hregs, hruns, hsd⟩ := wrNext_of_arrivesAs (s := s) (u := (s.tokenKept ix e (s.rd x.sa).toNat).upd (Strand.keepToken none))
      (by rw [State.me_upd, hl]; rfl) x.sd (BitVec.ofNat 64 (e.phase + 1).toNat)
    refine ⟨_, bar_of_last hidle hstrip hheld htok hgroup hb hentry hj hlast, barrierStep_upd (barrierStep_upd hstep _) _, harrived,
      fun _ => ⟨hregs, hruns, ?_, fun h => ?_⟩, fun h => absurd hlast h⟩
    · rw [State.me_wrNext, Strand.advance_barTok, Strand.setReg_barTok, State.me_upd]; rfl
    · rw [hsd h, toNat_phase]; exact BitVec.toNat_add e.phase 1
  · refine ⟨_, bar_of_not_last hidle hstrip hheld htok hgroup hb hentry hj hlast, barrierStep_upd hstep _, harrived,
      fun h => absurd h hlast, fun _ => ?_⟩
    rw [State.waitFor, State.me_upd, hl]
    exact ⟨rfl, rfl, rfl⟩

end

end

/-! ## `barwt`, and a group of one strand (R133, R134) -/

/-- A barrier other than 0 and 1 is no operand (R133). -/
theorem illegal_of_barOperand {i : Instr} {s : State} {sa : BitVec 5} {k : Nat → State} (hexec : exec i s = s.barOperand sa k)
    (h : 1 < (s.rd sa).toNat) : IllegalOperand i s 5 := takesException_of_stop (.refl s) (hexec.trans (if_pos h))

/-- The strands' table may have been written, but every strand reads as before, and nothing else changed. -/
def Unmoved (s v : State) : Prop := OnlyStrand s.cur.src s v ∧ v.me = s.me

namespace Unmoved

theorem refl (s : State) : Unmoved s s := ⟨⟨rfl, fun _ _ => rfl⟩, rfl⟩

theorem upd {s : State} {f : Strand → Strand} (h : f s.me = s.me) : Unmoved s (s.upd f) :=
  ⟨onlyStrand_updAt s s.cur.src f, (s.me_upd f).trans h⟩

section
variable {s v : State} (h : Unmoved s v)
include h

theorem onlyLands : OnlyLands s v := ⟨h.1, by rw [h.2]⟩

theorem cur : v.cur = s.cur := (congrArg State.cur h.1.1 :)

theorem strand : v.strand s.cur.src = s.strand s.cur.src := by rw [show s.strand s.cur.src = v.me from h.2.symm, State.me, h.cur]

theorem not_gone : s.gone v s.cur.src = false := by
  have hcontext : ∀ c, v.context c = s.context c := fun c => (congrArg (State.context · c) h.1.1 :)
  simp [State.gone, h.strand, hcontext]

/-- An instruction that writes sd and goes on from such a state. -/
theorem writes {i : Instr} {sd : BitVec 5} {w : Word} (hexec : exec i s = .next (v.wrNext sd w)) : Writes i s sd w.toNat := by
  have hv := h.strand
  have hcur := h.cur
  obtain ⟨honly, hme⟩ := h
  obtain ⟨hone, hmem, hscalars, ⟨hregs, hzero⟩, hruns⟩ := scalarStep_wrNext v sd w
  rw [hme] at hruns
  rw [hcur] at hone hscalars
  rw [OnlyScalars, hv] at hscalars
  refine ⟨_, hexec, ⟨OnlyStrand_trans honly hone, fun a => (hmem a).trans (congrArg (fun u : State => Memory.read u.mem a) honly.1 :),
    hscalars, ⟨fun n hn => (hregs n hn).trans ?_, hzero⟩, hruns⟩, fun hsd => ?_⟩
  · rw [State.rd, hme]; rfl
  · rw [State.rd_wrNext, if_neg hsd, if_pos rfl]

end

end Unmoved

theorem unmoved_keepToken {s : State} (h : s.me.barTok = none) : Unmoved s (s.upd (Strand.keepToken none)) :=
  .upd (by rw [Strand.keepToken, ← h])

/-- With no open strip a barrier instruction in a group of one strand only writes 0. -/
theorem barAlone_of_noStrip {s : State} (h : NoStrip s) (sd : BitVec 5) : ∃ v, Unmoved s v ∧ s.barAlone sd = v.wrNext sd 0 := by
  have hevent : s.stripEvent s.cur.src 3 = s := by
    rw [State.stripEvent, show (s.strand s.cur.src).openStrip = none from h]
  have hmark : Unmoved s (s.upd fun t => t.markStrip 3) := .upd (by rw [Strand.markStrip, h])
  have hgoes : ∀ v, Unmoved s v → s.ifStays v (fun u => u.wrNext sd 0) = v.wrNext sd 0 := fun v hv => by
    rw [State.ifStays, hv.not_gone]; rfl
  simp only [State.barAlone, hevent]
  split
  · exact ⟨s, .refl s, hgoes s (.refl s)⟩
  · exact ⟨_, hmark, hgoes _ hmark⟩

/-- In a group of one strand every barrier instruction completes with 0, whatever is outstanding (R134). -/
theorem alone_writes_zero {s : State} (hgroup : s.me.bind.gsize ≤ 1) (hstrip : NoStrip s) :
    (∀ x : SReg2, (s.rd x.sa).toNat ≤ 1 → Writes (.bar x) s x.sd 0 ∧ Writes (.bararr x) s x.sd 0) ∧
    ∀ y : SReg3, (s.rd y.sa).toNat ≤ 1 → Writes (.barwt y) s y.sd 0 := by
  refine ⟨fun x hb => ?_, fun y hc => ?_⟩
  · obtain ⟨v, hv, halone⟩ := barAlone_of_noStrip hstrip x.sd
    obtain ⟨hbar, hbararr, -⟩ := barAt_alone hgroup x.sd 0 (s.rd x.sa).toNat
    exact ⟨hv.writes (w := 0) (by rw [exec_of_barOperand (exec_bar x s) hb, hbar, halone]),
      hv.writes (w := 0) (by rw [exec_of_barOperand (exec_bararr x s) hb, hbararr, halone])⟩
  · obtain ⟨-, -, hbarwt⟩ := barAt_alone hgroup y.sd y.sb (s.rd y.sa).toNat
    exact writes_of_exec (w := 0) (by rw [exec_of_barOperand (exec_barwt y s) hc, hbarwt])

/-- `barwt` completes, waits or stops by how far the phase is past its token (R133). -/
theorem barwt_by_phase {s : State} {y : SReg3} {ix : Nat} {e : Barrier} (hgroup : 1 < s.me.bind.gsize) (hc : (s.rd y.sa).toNat ≤ 1)
    (htok : s.me.barTok = none) (hentry : HasBarrier s (s.rd y.sa).toNat ix e) :
    let d := (e.phase.toNat + 65536 - (s.rd y.sb).toNat % 65536) % 65536
    (1 ≤ d → d ≤ 32768 → Writes (.barwt y) s y.sd e.phase.toNat) ∧ (d = 0 → Waits (.barwt y) s) ∧
      (32768 < d → IllegalOperand (.barwt y) s 5) := by
  intro d
  have hphase := phaseOf_of_hasBarrier hentry
  have hd : s.phasesPast (s.rd y.sa).toNat ((s.rd y.sb).toNat % 65536) = d := by rw [State.phasesPast, hphase]
  have hsame := unmoved_keepToken htok
  have hexec := exec_of_barOperand (exec_barwt y s) hc
  obtain ⟨-, -, hwaits⟩ := barAt_group hgroup htok y.sd y.sb (s.rd y.sa).toNat
  rw [hwaits] at hexec
  refine ⟨fun h1 h2 => ?_, fun h0 => ?_, fun hstale => ?_⟩
  · rw [waitPhase_of_over (hd ▸ h1) (hd ▸ h2), hphase] at hexec
    exact toNat_phase e.phase ▸ hsame.writes hexec
  · exact waits_of_exec (hexec.trans (congrArg _ (waitPhase_of_same (hd.trans h0))))
  · exact takesException_of_stop hsame.onlyLands (hexec.trans (congrArg _ (waitPhase_of_stale (hd ▸ hstale))))

end Machine

/-- Settles O9: an arrival of an idle strand is one write of its table entry, and the entry is found again under its number with the phase
that `bar` then compares; an instruction in a group of one strand, and `barwt`, change nothing but sd and the PC. -/
theorem barrierArrivalsAndPhases : Obligations.BarrierArrivalsAndPhases := by
  intro s x y ix e b c
  refine ⟨fun hidle hstrip hheld htok hgroup hj hb hentry => ⟨bararr_arrives hidle hstrip hheld htok hgroup hb hentry hj,
      bar_arrives hidle hstrip hheld htok hgroup hb hentry hj⟩,
    fun hgroup hc htok hentry => barwt_by_phase hgroup hc htok hentry, fun hstrip hgroup => ?_, fun hb => ⟨?_, ?_⟩, fun hc => ?_⟩
  · obtain ⟨harrives, hwaits⟩ := alone_writes_zero hgroup hstrip
    exact ⟨harrives x, hwaits y⟩
  · exact illegal_of_barOperand (exec_bar x s) hb
  · exact illegal_of_barOperand (exec_bararr x s) hb
  · exact illegal_of_barOperand (exec_barwt y s) hc

end Sys2Proof
end

section
/-! PROOFS. Scalar arithmetic (R29, R141 to R143): each result as the number that is computed on integers and wrapped. -/

namespace Sys2Proof
open Machine Claims
namespace Machine

/-! ## Integers wrapped to 64 bits (R4) -/

theorem toNat_ofInt_wrap64 (n : Int) : (BitVec.ofInt 64 n : Word).toNat = wrap64 n := BitVec.toNat_ofInt n

theorem toNat_eq_wrap64 {w : Word} {n : Int} (h : w = BitVec.ofInt 64 n) : w.toNat = wrap64 n := by rw [h, toNat_ofInt_wrap64]

theorem add_eq_ofInt (a b : Word) : a + b = BitVec.ofInt 64 (a.toInt + b.toInt) := by
  rw [BitVec.ofInt_add, BitVec.ofInt_toInt, BitVec.ofInt_toInt]

theorem sub_eq_ofInt (a b : Word) : a - b = BitVec.ofInt 64 (a.toInt - b.toInt) := by
  rw [Int.sub_eq_add_neg, BitVec.ofInt_add, BitVec.ofInt_neg, BitVec.ofInt_toInt, BitVec.ofInt_toInt, BitVec.sub_eq_add_neg]

theorem mul_eq_ofInt (a b : Word) : a * b = BitVec.ofInt 64 (a.toInt * b.toInt) := by
  rw [BitVec.ofInt_mul, BitVec.ofInt_toInt, BitVec.ofInt_toInt]

theorem toNat_ofNat_of_le {a : Word} {n : Nat} (h : n ≤ a.toNat) : (BitVec.ofNat 64 n).toNat = n := by
  rw [BitVec.toNat_ofNat, Nat.mod_eq_of_lt (Nat.lt_of_le_of_lt h a.isLt)]

theorem sext12_toInt (i : BitVec 12) : (sext12 i).toInt = i.toInt := BitVec.toInt_signExtend_of_le (by decide)

theorem sext12_eq_ofInt (i : BitVec 12) : sext12 i = BitVec.ofInt 64 i.toInt := by rw [← sext12_toInt, BitVec.ofInt_toInt]

theorem upper20_eq_ofInt (i : BitVec 20) : upper20 i = BitVec.ofInt 64 (i.toInt * 2 ^ 12) := by
  rw [BitVec.ofInt_mul, ← BitVec.toInt_signExtend_of_le (show 20 ≤ 64 by decide), BitVec.ofInt_toInt, upper20,
    BitVec.shiftLeft_eq_mul_twoPow]
  rfl

/-! ## The functions of the ALU (R29, R141) -/

theorem toNat_boolW {b : Bool} {c : Prop} [Decidable c] (h : b = true ↔ c) : (boolW b).toNat = oneIf c := by
  cases b with
  | true => rw [oneIf, if_pos (h.mp rfl)]; rfl
  | false => rw [oneIf, if_neg (fun hc => Bool.false_ne_true (h.mpr hc))]; rfl

theorem toNat_divS (a b : Word) : (divS a b).toNat = if b = 0 then 2 ^ 64 - 1 else wrap64 (a.toInt.tdiv b.toInt) := by
  unfold divS
  split
  · rfl
  · exact toNat_ofInt_wrap64 _

theorem toNat_divU (a b : Word) : (divU a b).toNat = if b = 0 then 2 ^ 64 - 1 else a.toNat / b.toNat := by
  unfold divU
  split
  · rfl
  · exact toNat_ofNat_of_le (Nat.div_le_self _ _)

theorem toNat_remS (a b : Word) : (remS a b).toNat = if b = 0 then a.toNat else wrap64 (a.toInt.tmod b.toInt) := by
  unfold remS
  split
  · rfl
  · exact toNat_ofInt_wrap64 _

theorem toNat_remU (a b : Word) : (remU a b).toNat = if b = 0 then a.toNat else a.toNat % b.toNat := by
  unfold remU
  split
  · rfl
  · exact toNat_ofNat_of_le (Nat.mod_le _ _)

theorem toNat_mulHighU (a b : Word) : (mulHighU a b).toNat = a.toNat * b.toNat / 2 ^ 64 := by
  refine toNat_ofNat_of_le (a := a) (Nat.div_le_of_le_mul ?_)
  rw [Nat.mul_comm]
  exact Nat.mul_le_mul_right _ b.isLt.le

theorem toNat_shiftLeft_eq (a : Word) (n : Nat) : (a <<< n).toNat = a.toNat * 2 ^ n % 2 ^ 64 := by
  rw [BitVec.toNat_shiftLeft, Nat.shiftLeft_eq]

theorem toNat_shiftRight_eq (a : Word) (n : Nat) : (a >>> n).toNat = a.toNat / 2 ^ n := by
  rw [BitVec.toNat_ushiftRight, Nat.shiftRight_eq_div_pow]

theorem toNat_sshiftRight_eq (a : Word) (n : Nat) : (a.sshiftRight n).toNat = wrap64 (a.toInt / 2 ^ n) := by
  refine toNat_eq_wrap64 ?_
  have hdiv : a.toInt >>> n = a.toInt / 2 ^ n := by rw [Int.shiftRight_eq_div_pow]; norm_cast
  rw [← hdiv, ← BitVec.toInt_sshiftRight, BitVec.ofInt_toInt]

theorem toInt_min (a b : Word) : (if a.slt b then a else b).toInt = min a.toInt b.toInt := by
  simp only [BitVec.slt_iff_toInt_lt]
  split
  next h => exact (min_eq_left h.le).symm
  next h => exact (min_eq_right (not_lt.mp h)).symm

theorem toInt_max (a b : Word) : (if a.slt b then b else a).toInt = max a.toInt b.toInt := by
  simp only [BitVec.slt_iff_toInt_lt]
  split
  next h => exact (max_eq_right h.le).symm
  next h => exact (max_eq_left (not_lt.mp h)).symm

theorem toNat_min (a b : Word) : (if a.ult b then a else b).toNat = min a.toNat b.toNat := by
  simp only [BitVec.ult_iff_lt, BitVec.lt_def]
  split
  next h => exact (min_eq_left h.le).symm
  next h => exact (min_eq_right (not_lt.mp h)).symm

theorem toNat_max (a b : Word) : (if a.ult b then b else a).toNat = max a.toNat b.toNat := by
  simp only [BitVec.ult_iff_lt, BitVec.lt_def]
  split
  next h => exact (max_eq_right h.le).symm
  next h => exact (max_eq_left (not_lt.mp h)).symm

/-- The low `n` bits of a word that has no others: as many zeros lead as stand above its highest one bit. -/
theorem leadingZeros_eq (a : Word) (n : Nat) (h : a.toNat < 2 ^ n) : leadingZeros a n = if a = 0 then n else n - 1 - Nat.log2 a.toNat := by
  induction n with
  | zero =>
    have hzero : a = 0 := BitVec.eq_of_toNat_eq (by simpa using h)
    rw [if_pos hzero, leadingZeros]
  | succ k ih =>
    rw [leadingZeros]
    by_cases hbit : a.getLsbD k = true
    · have htop : 2 ^ k ≤ a.toNat := Nat.ge_two_pow_of_testBit hbit
      have hne : a.toNat ≠ 0 := fun h0 => by rw [h0] at htop; exact absurd htop (by simp)
      have hlog : a.toNat.log2 = k := (Nat.log2_eq_iff hne).mpr ⟨htop, h⟩
      rw [if_pos hbit, if_neg (fun h0 => hne (by rw [h0]; rfl)), hlog, Nat.add_sub_cancel, Nat.sub_self]
    · have hlow : a.toNat < 2 ^ k := by
        by_contra hge
        exact hbit (Nat.testBit_of_two_pow_le_and_two_pow_add_one_gt (Nat.not_lt.mp hge) h)
      rw [if_neg hbit, ih hlow]
      by_cases h0 : a = 0
      · rw [if_pos h0, if_pos h0, Nat.add_comm]
      · have hne : a.toNat ≠ 0 := fun hz => h0 (BitVec.eq_of_toNat_eq hz)
        have hlog : a.toNat.log2 < k := (Nat.log2_lt hne).mpr hlow
        rw [if_neg h0, if_neg h0]
        omega

theorem toNat_clz (a : Word) : (BitVec.ofNat 64 (leadingZeros a 64)).toNat = if a = 0 then 64 else 63 - Nat.log2 a.toNat := by
  rw [leadingZeros_eq a 64 a.isLt, BitVec.toNat_ofNat]
  split
  · rfl
  · exact Nat.mod_eq_of_lt (by omega)

theorem two_pow_dvd_iff (a k : Nat) : 2 ^ k ∣ a ↔ ∀ j, j < k → a.testBit j = false := by
  rw [Nat.dvd_iff_mod_eq_zero]
  constructor
  · intro h j hj
    have hbit : (a % 2 ^ k).testBit j = a.testBit j := by rw [Nat.testBit_mod_two_pow, decide_eq_true hj, Bool.true_and]
    rw [← hbit, h, Nat.zero_testBit]
  · intro h
    refine Nat.eq_of_testBit_eq fun j => ?_
    rw [Nat.testBit_mod_two_pow, Nat.zero_testBit]
    by_cases hj : j < k
    · rw [h j hj, Bool.and_false]
    · rw [decide_eq_false hj, Bool.false_and]

/-- From bit `i` on, zeros trail up to the first one bit, or to the end. -/
theorem trailingZeros_spec (a : Word) (i n : Nat) : trailingZeros a i n ≤ n ∧
    (∀ j, i ≤ j → j < i + trailingZeros a i n → a.getLsbD j = false) ∧
    (trailingZeros a i n < n → a.getLsbD (i + trailingZeros a i n) = true) := by
  induction n generalizing i with
  | zero => exact ⟨Nat.le_refl _, fun j hi hj => absurd hj (Nat.not_lt.mpr hi), fun h => absurd h (Nat.lt_irrefl _)⟩
  | succ k ih =>
    rw [trailingZeros]
    by_cases hbit : a.getLsbD i = true
    · rw [if_pos hbit]
      exact ⟨Nat.zero_le _, fun j hi hj => absurd hj (Nat.not_lt.mpr hi), fun _ => hbit⟩
    · obtain ⟨hle, hzeros, hone⟩ := ih (i + 1)
      rw [if_neg hbit]
      refine ⟨by omega, fun j hi hj => ?_, fun h => ?_⟩
      · rcases Nat.eq_or_lt_of_le hi with rfl | hlt
        · exact Bool.eq_false_of_not_eq_true hbit
        · exact hzeros j hlt (by omega)
      · rw [← Nat.add_assoc]
        exact hone (by omega)

theorem ctz_divides (a : Word) : let w : Word := BitVec.ofNat 64 (trailingZeros a 0 64)
    if a = 0 then w = 64 else 2 ^ w.toNat ∣ a.toNat ∧ ¬ 2 ^ (w.toNat + 1) ∣ a.toNat := by
  intro w
  obtain ⟨hle, hzeros, hone⟩ := trailingZeros_spec a 0 64
  rw [Nat.zero_add] at hzeros hone
  have hw : w.toNat = trailingZeros a 0 64 := by
    rw [BitVec.toNat_ofNat, Nat.mod_eq_of_lt (Nat.lt_of_le_of_lt hle (by decide))]
  have hdvd : 2 ^ trailingZeros a 0 64 ∣ a.toNat := (two_pow_dvd_iff _ _).mpr fun j hj => hzeros j (Nat.zero_le _) hj
  rw [hw]
  split
  next hzero =>
    refine BitVec.eq_of_toNat_eq (hw.trans (Nat.le_antisymm hle (Nat.not_lt.mp fun hlt => ?_)))
    have hbit := hone hlt
    rw [hzero] at hbit
    simp at hbit
  next hne =>
    have hlt : trailingZeros a 0 64 < 64 := by
      refine Nat.lt_of_le_of_ne hle fun h64 => hne (BitVec.eq_of_toNat_eq ?_)
      rw [h64] at hdvd
      exact Nat.eq_zero_of_dvd_of_lt hdvd a.isLt
    refine ⟨hdvd, fun hnext => ?_⟩
    have hbit := (two_pow_dvd_iff _ _).mp hnext _ (Nat.lt_succ_self _)
    exact absurd (hone hlt) (by rw [BitVec.getLsbD, hbit]; simp)

theorem popBits_eq (a : Word) (n : Nat) : popBits a n = (List.range n).countP (fun k => a.getLsbD k) := by
  induction n with
  | zero => rfl
  | succ k ih => rw [popBits, ih, List.range_succ, List.countP_append, List.countP_singleton, Nat.add_comm]

theorem toNat_pop (a : Word) : (BitVec.ofNat 64 (popBits a 64)).toNat = (List.range 64).countP (fun k => a.getLsbD k) := by
  have hle : (List.range 64).countP (fun k => a.getLsbD k) ≤ 64 := List.countP_le_length.trans_eq List.length_range
  rw [popBits_eq, BitVec.toNat_ofNat, Nat.mod_eq_of_lt (Nat.lt_of_le_of_lt hle (by decide))]

/-! ## Writing sd (R61, R141, R142) -/

section
variable {i : Instr} {s : State}

/-- An instruction that writes a value with the property to sd and goes on. -/
theorem writesSuch_of_exec {sd : BitVec 5} {w : Word} {P : Word → Prop} (h : exec i s = .next (s.wrNext sd w)) (hw : P w) :
    WritesSuch i s sd P :=
  ⟨_, h, scalarStep_wrNext s sd w, fun hsd => by rwa [State.rd_wrNext, if_neg hsd, if_pos rfl]⟩

theorem writes_of_toNat {sd : BitVec 5} {w : Word} {v : Nat} (h : exec i s = .next (s.wrNext sd w)) (hw : w.toNat = v) : Writes i s sd v :=
  writesSuch_of_exec h hw

variable {f : Word → Word → Word} {v : Nat}

theorem alu_writes {x : SReg3} (h : exec i s = s.alu x f) (hw : (f (s.rd x.sa) (s.rd x.sb)).toNat = v) : Writes i s x.sd v :=
  writes_of_toNat h hw

theorem alui_writes {x : SImm} (h : exec i s = s.alui x f) (hw : (f (s.rd x.sa) (sext12 x.imm)).toNat = v) : Writes i s x.sd v :=
  writes_of_toNat h hw

end

end Machine

theorem aluRegisterResults : AluRegisterResults := by
  intro s x y
  exact ⟨
    alu_writes (f := (· + ·)) rfl (toNat_eq_wrap64 (add_eq_ofInt _ _)),
    alu_writes (f := (· - ·)) rfl (toNat_eq_wrap64 (sub_eq_ofInt _ _)),
    alu_writes (f := (· * ·)) rfl (toNat_eq_wrap64 (mul_eq_ofInt _ _)),
    alu_writes (f := mulHighS) rfl (toNat_ofInt_wrap64 _),
    alu_writes (f := mulHighU) rfl (toNat_mulHighU _ _),
    alu_writes (f := divS) rfl (toNat_divS _ _),
    alu_writes (f := divU) rfl (toNat_divU _ _),
    alu_writes (f := remS) rfl (toNat_remS _ _),
    alu_writes (f := remU) rfl (toNat_remU _ _),
    alu_writes (f := (· &&& ·)) rfl (BitVec.toNat_and _ _),
    alu_writes (f := (· ||| ·)) rfl (BitVec.toNat_or _ _),
    alu_writes (f := (· ^^^ ·)) rfl (BitVec.toNat_xor _ _),
    alu_writes (f := fun a b => a <<< amount b) rfl (toNat_shiftLeft_eq _ _),
    alu_writes (f := fun a b => a >>> amount b) rfl (toNat_shiftRight_eq _ _),
    alu_writes (f := fun a b => a.sshiftRight (amount b)) rfl (toNat_sshiftRight_eq _ _),
    alu_writes (f := fun a b => boolW (a.slt b)) rfl (toNat_boolW BitVec.slt_iff_toInt_lt),
    alu_writes (f := fun a b => boolW (a.ult b)) rfl (toNat_boolW BitVec.ult_iff_lt),
    writesSuch_of_exec rfl (toInt_min _ _),
    writesSuch_of_exec rfl (toInt_max _ _),
    alu_writes (f := fun a b => if a.ult b then a else b) rfl (toNat_min _ _),
    alu_writes (f := fun a b => if a.ult b then b else a) rfl (toNat_max _ _),
    writes_of_toNat rfl (toNat_clz _),
    writesSuch_of_exec rfl (ctz_divides _),
    writes_of_toNat rfl (toNat_pop _)⟩

theorem aluImmediateResults : AluImmediateResults := by
  intro s x h
  have himm : (sext12 x.imm).toNat = wrap64 x.imm.toInt := toNat_eq_wrap64 (sext12_eq_ofInt _)
  refine ⟨alui_writes (f := (· + ·)) rfl ?add, alui_writes (f := (· &&& ·)) rfl ?and, alui_writes (f := (· ||| ·)) rfl ?or,
    alui_writes (f := (· ^^^ ·)) rfl ?xor, alui_writes (f := fun a b => boolW (a.slt b)) rfl ?slt,
    alui_writes (f := fun a b => boolW (a.ult b)) rfl ?ult,
    writes_of_toNat rfl (toNat_shiftLeft_eq _ _), writes_of_toNat rfl (toNat_shiftRight_eq _ _),
    writes_of_toNat rfl (toNat_sshiftRight_eq _ _)⟩
  case add => rw [← sext12_toInt]; exact toNat_eq_wrap64 (add_eq_ofInt _ _)
  case and => rw [← himm]; exact BitVec.toNat_and _ _
  case or => rw [← himm]; exact BitVec.toNat_or _ _
  case xor => rw [← himm]; exact BitVec.toNat_xor _ _
  case slt => exact toNat_boolW (by rw [← sext12_toInt]; exact BitVec.slt_iff_toInt_lt)
  case ult => exact toNat_boolW (by rw [← himm]; exact BitVec.ult_iff_lt)

/-- Settles O37: each function of the ALU is the number computed on integers, wrapped, and is written to sd. -/
theorem scalarArithmeticResults : Obligations.ScalarArithmeticResults := ⟨aluRegisterResults, aluImmediateResults⟩

/-- Settles O1: both forms write sd and go on; a word of either has no field that could hold an illegal value. -/
theorem upperImmediateResults : Obligations.UpperImmediateResults := by
  intro s u
  refine ⟨writes_of_toNat rfl (toNat_eq_wrap64 (upper20_eq_ofInt _)), writes_of_toNat rfl (toNat_eq_wrap64 ?_),
    ⟨_, rfl, decode_of_encode rfl rfl⟩, ⟨_, rfl, decode_of_encode rfl rfl⟩⟩
  rw [BitVec.ofInt_add, BitVec.ofInt_toInt, upper20_eq_ofInt]

end Sys2Proof
end

section
/-! PROOFS. Branches, jumps and grant registers (R148 to R151): where each goes, and what it waits for. -/

namespace Sys2Proof
open Machine Claims
namespace Machine

/-! ## Going to an address (R148, R150) -/

/-- The link register takes the address of the next word, and nothing else of the strand but its PC changes. -/
theorem scalarStep_jumpTo (s : State) (sd : BitVec 5) (pc : Word) : ScalarStep s (s.jumpTo sd pc) sd pc := by
  have hme : (s.jumpTo sd pc).me = (s.me.setReg sd.toNat (s.me.pc + 4)).jump pc := State.me_upd _ _
  obtain ⟨-, -, hscalars, ⟨hregs, hzero⟩, -⟩ := scalarStep_wrNext s sd (s.me.pc + 4)
  have hreg : (s.jumpTo sd pc).me.s = (s.wrNext sd (s.me.pc + 4)).me.s := by rw [hme, State.me_wrNext]; rfl
  have hrd (n : BitVec 5) : (s.jumpTo sd pc).rd n = (s.wrNext sd (s.me.pc + 4)).rd n := by rw [State.rd, State.rd, Strand.reg, hreg]; rfl
  refine ⟨⟨rfl, fun j hj => State.strand_upd_ne _ _ _ hj⟩, fun _ => rfl, ?_, ⟨fun n hn => (hrd n).trans (hregs n hn), rfl⟩, ?_⟩
  · show { (s.jumpTo sd pc).me with s := s.me.s, pc := s.me.pc, st := s.me.st, wait := s.me.wait, scalarExempt := s.me.scalarExempt } = s.me
    rw [hme]
    unfold Strand.setReg
    split <;> rfl
  · rw [RunsAt, hme]; exact ⟨rfl, rfl, rfl⟩

theorem rd_jumpTo (s : State) (sd : BitVec 5) (pc : Word) (hsd : sd ≠ 0) : (s.jumpTo sd pc).rd sd = s.me.pc + 4 := by
  have hne : sd.toNat ≠ 0 := fun h => hsd (BitVec.eq_of_toNat_eq h)
  have hreg : ((s.me.setReg sd.toNat (s.me.pc + 4)).jump pc).reg sd.toNat = (s.me.setReg sd.toNat (s.me.pc + 4)).reg sd.toNat := rfl
  rw [State.rd, State.jumpTo, State.me_upd, hreg, Strand.reg_setReg, if_neg hne, if_pos rfl]

theorem add_offset_eq_target (s : State) {n : Nat} (hn : n ≤ 64) (o : BitVec n) : s.me.pc + o.signExtend 64 * 4 = target s o.toInt := by
  rw [target, BitVec.ofInt_add, BitVec.ofInt_mul, BitVec.ofInt_toInt, ← BitVec.toInt_signExtend_of_le hn, BitVec.ofInt_toInt, BitVec.mul_comm]
  rfl

theorem branchIf_of_true (s : State) (off : BitVec 12) : s.branchIf true off = s.jumpTo 0 (target s off.toInt) := by
  rw [← add_offset_eq_target s (by decide)]; rfl

theorem branchIf_of_false (s : State) (off : BitVec 12) : s.branchIf false off = s.goNext := rfl

theorem branches_of_exec {i : Instr} {s : State} {c : Bool} {off : BitVec 12} {C : Prop} (h : exec i s = .next (s.branchIf c off))
    (hc : c = true ↔ C) : Branches i s C (target s off.toInt) := by
  refine ⟨_, h, fun hC => ?_, fun hC => ?_⟩
  · rw [hc.mpr hC, branchIf_of_true]
    exact scalarStep_jumpTo s 0 _
  · rw [Bool.eq_false_of_not_eq_true (mt hc.mp hC), branchIf_of_false]
    exact scalarStep_goNext s

theorem target_zero (s : State) : target s 0 = s.me.pc := by rw [target, Int.mul_zero, Int.add_zero, BitVec.ofInt_toInt]

theorem not_slt_iff (a b : Word) : (!a.slt b) = true ↔ b.toInt ≤ a.toInt := by
  rw [Bool.not_eq_true', ← Bool.not_eq_true, BitVec.slt_iff_toInt_lt, Int.not_lt]

theorem not_ult_iff (a b : Word) : (!a.ult b) = true ↔ b.toNat ≤ a.toNat := by
  rw [Bool.not_eq_true', ← Bool.not_eq_true, BitVec.ult_iff_lt, BitVec.lt_def, Nat.not_lt]

/-! ## Words that no row of the decoder takes (R56) -/

theorem error_of_no_ok {r : Except DecodeError Instr} (h : ∀ i, r ≠ .ok i) : ∃ e, r = .error e := by
  cases r with
  | error e => exact ⟨e, rfl⟩
  | ok i => exact absurd rfl (h i)

/-- A row refuses a word with a fixed bit set, or with an operand that is ill-formed. -/
theorem scalarRow_error {w : BitVec 32} {fixed : Bool} {i : Instr} (h : fixed = false ∨ fieldError i ≠ none) :
    ∃ e, scalarRow w fixed i = .error e := by
  refine error_of_no_ok fun j hj => ?_
  obtain ⟨⟨hfield, hfixed, -⟩, -⟩ := finish_eq_ok_iff.mp hj
  rcases h with h | h
  · exact Bool.false_ne_true (h.symm.trans hfixed)
  · exact h hfield

theorem fldN_eq_extract (w : BitVec 32) (lo n : Nat) : fldN w lo n = (w.extractLsb' lo n).toNat := by
  rw [fldN, BitVec.extractLsb'_toNat, Nat.shiftRight_eq_div_pow]

theorem toNat_fld (w : BitVec 32) (lo n : Nat) : (fld w lo n).toNat = fldN w lo n := by
  rw [fld, BitVec.toNat_ofNat, fldN]

theorem decode_branch_error {w : BitVec 32} (hmajor : fldN w 25 6 = 0x09) (hcond : 6 ≤ fldN w 12 3) : ∃ e, decode w = .error e := by
  have hdecode : decode w = decodeBr w := by rw [decode, hmajor]; rfl
  rw [hdecode, decodeBr]
  split
  case h_7 => exact ⟨_, rfl⟩
  all_goals omega

/-- The words of GRANT that R151 names illegal. -/
theorem decode_grant_error {w : BitVec 32} (hmajor : fldN w 25 6 = 0x0E)
    (h : 3 ≤ fldN w 0 10 ∨ (fldN w 0 10 ≤ 1 ∧ 5 ≤ fldN w 10 5) ∨ (fldN w 0 10 = 0 ∧ 8 ≤ fldN w 15 5) ∨
      (1 ≤ fldN w 0 10 ∧ 8 ≤ fldN w 20 5) ∨ (fldN w 0 10 = 2 ∧ (fldN w 15 5 ≠ 0 ∨ fldN w 10 5 ≠ 0))) :
    ∃ e, decode w = .error e := by
  have hdecode : decode w = decodeGrant w := by rw [decode, hmajor]; rfl
  have hfield (x : BitVec 5) (hx : x.toNat = fldN w 10 5) (h5 : 5 ≤ fldN w 10 5) :
      require (decide (x.toNat ≤ 4)) DecodeError.unassignedValue ≠ none := by
    rw [decide_eq_false (by omega)]; exact Option.some_ne_none _
  have hsa : 8 ≤ fldN w 15 5 → fldN w 18 2 ≠ 0 := by simp only [fldN]; omega
  have hsd : 8 ≤ fldN w 20 5 → fldN w 23 2 ≠ 0 := by simp only [fldN]; omega
  have hboth : fldN w 15 5 ≠ 0 ∨ fldN w 10 5 ≠ 0 → fldN w 10 10 ≠ 0 := by simp only [fldN]; omega
  rw [hdecode, decodeGrant]
  split
  case h_1 hfn =>
    have hcase : 8 ≤ fldN w 15 5 ∨ 5 ≤ fldN w 10 5 := by omega
    exact scalarRow_error (hcase.imp (fun h8 => beq_false_of_ne (hsa h8)) (hfield _ (toNat_fld _ _ _)))
  case h_2 hfn =>
    have hcase : 8 ≤ fldN w 20 5 ∨ 5 ≤ fldN w 10 5 := by omega
    exact scalarRow_error (hcase.imp (fun h8 => beq_false_of_ne (hsd h8)) (hfield _ (toNat_fld _ _ _)))
  case h_3 hfn =>
    have hcase : fldN w 10 10 ≠ 0 ∨ fldN w 23 2 ≠ 0 := by
      rcases h with h | h | h | ⟨-, h8⟩ | ⟨-, hne⟩
      · omega
      · omega
      · omega
      · exact .inr (hsd h8)
      · exact .inl (hboth hne)
    refine scalarRow_error (.inl ?_)
    rw [Bool.and_eq_false_iff]
    exact hcase.imp beq_false_of_ne beq_false_of_ne
  case h_4 => exact ⟨_, rfl⟩

/-! ## Waiting for the convoys that write a register (R149, R151) -/

theorem lastConvoy_eq_none_iff (viq : List Convoy) (p : BitVec 32 → Bool) :
    lastConvoy viq p = none ↔ ∀ c ∈ viq, ∀ w ∈ c.words, p w = false := by
  rw [lastConvoy, Option.map_eq_none_iff, List.getLast?_eq_none_iff, List.filter_eq_nil_iff]
  simp only [List.any_eq_true, not_exists, not_and, Bool.not_eq_true]

section
variable {s : State} {n : Nat} (k : State → State)

theorem whenMask_of_free (h : ∀ c ∈ s.me.viq, ∀ w ∈ c.words, maskWritten w ≠ some n) : s.whenMask n k = k s := by
  have hnone : lastConvoy s.me.viq (fun w => maskWritten w == some n) = none :=
    (lastConvoy_eq_none_iff _ _).mpr fun c hc w hw => beq_false_of_ne (h c hc w hw)
  rw [State.whenMask, hnone]

theorem whenGrant_of_free (h : GrantFree s n) : s.whenGrant n k = k s := by
  have hnone : lastConvoy s.me.viq (fun w => grantWritten w == some n) = none :=
    (lastConvoy_eq_none_iff _ _).mpr fun c hc w hw => beq_false_of_ne (h c hc w hw)
  rw [State.whenGrant, hnone]

variable {k}

theorem whenMask_waits (h : ∃ c ∈ s.me.viq, ∃ w ∈ c.words, maskWritten w = some n) : ∃ r, s.whenMask n k = s.waitFor r := by
  obtain ⟨c, hc, w, hw, hn⟩ := h
  unfold State.whenMask
  split
  · exact ⟨_, rfl⟩
  next hnone => exact absurd ((lastConvoy_eq_none_iff _ _).mp hnone c hc w hw) (by simp [hn])

theorem whenGrant_waits (h : ∃ c ∈ s.me.viq, ∃ w ∈ c.words, grantWritten w = some n) : ∃ r, s.whenGrant n k = s.waitFor r := by
  obtain ⟨c, hc, w, hw, hn⟩ := h
  unfold State.whenGrant
  split
  · exact ⟨_, rfl⟩
  next hnone => exact absurd ((lastConvoy_eq_none_iff _ _).mp hnone c hc w hw) (by simp [hn])

theorem writer_of_not_grantFree (h : ¬GrantFree s n) : ∃ c ∈ s.me.viq, ∃ w ∈ c.words, grantWritten w = some n := by
  simpa only [GrantFree, not_forall, not_not, exists_prop, ne_eq] using h

variable {i : Instr}

theorem waits_of_whenMask (hexec : exec i s = .next (s.whenMask n k)) (h : ∃ c ∈ s.me.viq, ∃ w ∈ c.words, maskWritten w = some n) :
    Waits i s := by
  obtain ⟨r, hr⟩ := whenMask_waits (k := k) h
  exact waits_of_exec (hexec.trans (congrArg _ hr))

theorem waits_of_whenGrant (hexec : exec i s = .next (s.whenGrant n k)) (h : ∃ c ∈ s.me.viq, ∃ w ∈ c.words, grantWritten w = some n) :
    Waits i s := by
  obtain ⟨r, hr⟩ := whenGrant_waits (k := k) h
  exact waits_of_exec (hexec.trans (congrArg _ hr))

end

/-! ## Bits of a mask (R149) -/

section
variable (s : State) (n : Nat)

theorem testBit_maskBits (j : Nat) : (s.maskBits n).testBit j = (decide (j < s.me.csr.vl) && (s.me.vec.mask n).getLsbD j) := by
  rw [State.maskBits, Nat.testBit_mod_two_pow]; rfl

theorem maskBits_eq_zero_iff : s.maskBits n = 0 ↔ ∀ j, j < s.me.csr.vl → (s.me.vec.mask n).getLsbD j = false := by
  constructor
  · intro h j hj
    have hbit := testBit_maskBits s n j
    rwa [h, Nat.zero_testBit, decide_eq_true hj, Bool.true_and, eq_comm] at hbit
  · intro h
    refine Nat.eq_of_testBit_eq fun j => ?_
    rw [testBit_maskBits, Nat.zero_testBit]
    by_cases hj : j < s.me.csr.vl
    · rw [h j hj, Bool.and_false]
    · rw [decide_eq_false hj, Bool.false_and]

theorem maskBits_ne_zero_iff : s.maskBits n ≠ 0 ↔ ∃ j, j < s.me.csr.vl ∧ (s.me.vec.mask n).getLsbD j = true := by
  rw [ne_eq, maskBits_eq_zero_iff]
  simp only [not_forall, Bool.not_eq_false, exists_prop]

theorem maskBits_eq_ones_iff : s.maskBits n = 2 ^ s.me.csr.vl - 1 ↔ ∀ j, j < s.me.csr.vl → (s.me.vec.mask n).getLsbD j = true := by
  constructor
  · intro h j hj
    have hbit := testBit_maskBits s n j
    rwa [h, Nat.testBit_two_pow_sub_one, decide_eq_true hj, Bool.true_and, eq_comm] at hbit
  · intro h
    refine Nat.eq_of_testBit_eq fun j => ?_
    rw [testBit_maskBits, Nat.testBit_two_pow_sub_one]
    by_cases hj : j < s.me.csr.vl
    · rw [h j hj, Bool.and_true]
    · rw [decide_eq_false hj, Bool.false_and]

end

/-! ## Fields of a grant (R68, R151) -/

theorem bitsN_low (w : Word) (n : Nat) : bitsN w 0 n = w.toNat % 2 ^ n := by rw [bitsN, Nat.pow_zero, Nat.div_one]

theorem toNat_grantField (g : Word) (f : Nat) :
    (grantField g f).toNat = if f = 4 then g.toNat else g.toNat / 2 ^ (16 * f) % 2 ^ 16 := by
  unfold grantField
  split
  · rfl
  · rw [BitVec.toNat_ofNat, bitsN, Nat.mod_eq_of_lt (Nat.lt_trans (Nat.mod_lt _ (by decide)) (by decide))]

theorem grantSet_all (g w : Word) : grantSet g 4 w = w := rfl

/-- Replacing a field leaves the other fields as they are. -/
theorem field_grantSet {g w : Word} {f k : Nat} (hf : f < 4) (hk : k < 4) : (grantSet g f w).toNat / 2 ^ (16 * k) % 2 ^ 16 =
    if k = f then w.toNat % 2 ^ 16 else g.toNat / 2 ^ (16 * k) % 2 ^ 16 := by
  have hg := g.isLt
  rw [grantSet, if_neg (by omega), BitVec.toNat_ofNat, bitsN]
  interval_cases f <;> interval_cases k <;> simp <;> omega

section
variable (s : State) (n : Nat) (w : Word)

/-- The executing strand takes a grant and goes on. -/
def State.putGrant : State := s.upd (fun t => (t.setGrant n w).advance)

theorem grant_setGrant (v : VecState) (k : Nat) : (v.setGrant n w).grant k = if k = n then w else v.grant k := Tbl.getD_set _ _ _ _ _

theorem grant_putGrant (k : Nat) : (s.putGrant n w).me.vec.grant k = if k = n then w else s.me.vec.grant k := by
  rw [State.putGrant, State.me_upd]
  exact grant_setGrant n w s.me.vec k

theorem grantStep_putGrant : GrantStep s (s.putGrant n w) n := by
  have hme : (s.putGrant n w).me = (s.me.setGrant n w).advance := State.me_upd _ _
  refine ⟨⟨rfl, fun j hj => State.strand_upd_ne _ _ _ hj⟩, fun _ => rfl, ?_, fun k hk => ?_, ?_⟩
  · rw [RunsAt, hme]; exact ⟨rfl, rfl, rfl⟩
  · rw [grant_putGrant, if_neg hk]
  · rw [hme]; rfl

end

theorem gset_of_free {s : State} {y : GSetOp} (h : GrantFree s y.grant.toNat) : exec (.gset y) s =
    .next (s.putGrant y.grant.toNat (grantSet (s.me.vec.grant y.grant.toNat) y.field.toNat (s.rd y.sa))) := by
  show execGset y s = _
  rw [execGset, whenGrant_of_free _ h]
  rfl

theorem gclr_of_free {s : State} {z : GClrOp} (h : GrantFree s z.grant.toNat) : exec (.gclr z) s = .next (s.putGrant z.grant.toNat 0) := by
  show execGclr z s = _
  rw [execGclr, whenGrant_of_free _ h]
  rfl

/-! ## The fetch at a branch's target (R148, R205) -/

/-- An address above bit 47, one that is not mapped, and one that is not executable give the fetch fault. -/
theorem fetchWord_faults {s : State} {src slot c : Nat} {pc : Word}
    (h : s.translate (dieOf src) (s.strand src).bind.ctx (s.strand src).bind.secure .exec pc (some (coreOf src)) = .error c)
    (hc : c = 8 ∨ c = 10 ∨ c = 11) : ∃ e, s.fetchWord src pc slot = .error e ∧ e.cause = 7 ∧ e.va = pc := by
  unfold State.fetchWord
  dsimp only
  split
  · exact ⟨_, rfl, rfl, rfl⟩
  · rw [h]
    exact ⟨_, rfl, if_pos hc, rfl⟩

end Machine

theorem jumpResults : JumpResults := by
  intro s j r
  have hjal : exec (.jal j) s = .next (s.jumpTo j.sd (target s j.off20.toInt)) := by
    rw [← add_offset_eq_target s (by decide)]; rfl
  have hjalr : exec (.jalr r) s = .next (s.jumpTo r.sd (BitVec.ofInt 64 ((s.rd r.sa).toInt + r.imm.toInt))) := by
    rw [← sext12_toInt, ← add_eq_ofInt]; rfl
  exact ⟨⟨_, hjal, scalarStep_jumpTo s _ _, rd_jumpTo s _ _⟩, ⟨_, hjalr, scalarStep_jumpTo s _ _, rd_jumpTo s _ _⟩⟩

theorem maskAndGrantBranches : MaskAndGrantBranches := by
  intro s x n m vl to_
  refine ⟨fun hfree => ⟨?any, ?all, ?none⟩, fun hfree => ⟨?zero, ?nonzero⟩,
    fun h => ⟨waits_of_whenMask rfl h, waits_of_whenMask rfl h, waits_of_whenMask rfl h⟩,
    fun h => ⟨waits_of_whenGrant rfl h, waits_of_whenGrant rfl h⟩⟩
  case any => exact branches_of_exec (congrArg _ (whenMask_of_free _ hfree)) (bne_iff_ne.trans (maskBits_ne_zero_iff s n))
  case all => exact branches_of_exec (congrArg _ (whenMask_of_free _ hfree)) (beq_iff_eq.trans (maskBits_eq_ones_iff s n))
  case none => exact branches_of_exec (congrArg _ (whenMask_of_free _ hfree)) (beq_iff_eq.trans (maskBits_eq_zero_iff s n))
  case zero => exact branches_of_exec (congrArg _ (whenGrant_of_free _ hfree)) (beq_iff_eq.trans (by rw [bitsN_low]))
  case nonzero => exact branches_of_exec (congrArg _ (whenGrant_of_free _ hfree)) (bne_iff_ne.trans (by rw [bitsN_low]))

/-- Settles O38: a jump links and goes to its target; a branch on a mask or grant waits for the register's writers, and then goes by its
bits. -/
theorem jumpsMaskAndGrantBranches : Obligations.JumpsMaskAndGrantBranches := ⟨jumpResults, maskAndGrantBranches⟩

/-- Settles O2: each condition decides between the target and the next word; the fetch at an address whose translation fails takes the
fetch fault. -/
theorem conditionalBranchResults : Obligations.ConditionalBranchResults := by
  intro s x w pc c k a b to_
  refine ⟨branches_of_exec rfl beq_iff_eq, branches_of_exec rfl bne_iff_ne, branches_of_exec rfl BitVec.slt_iff_toInt_lt,
    branches_of_exec rfl (not_slt_iff a b), branches_of_exec rfl BitVec.ult_iff_lt, branches_of_exec rfl (not_ult_iff a b),
    fun hoff => ?self, fun hmajor hcond => ?unassigned, fun hfault hc => ?fetch⟩
  case self => rw [show to_ = target s x.off.toInt from rfl, hoff]; exact target_zero s
  case unassigned =>
    refine decode_branch_error ?_ ?_
    · rw [fldN_eq_extract, hmajor]; rfl
    · rwa [fldN_eq_extract]
  case fetch => exact fetchWord_faults hfault hc

/-- Settles O3: each of the three waits for the grant's writers, and then reads or writes the field it names. -/
theorem grantRegisterAccess : Obligations.GrantRegisterAccess := by
  intro s x y z w fn sb sa sd
  refine ⟨fun hfree _ => ?get, fun hfree hfield => ?set, fun hfree => ?clear,
    fun h => waits_of_whenGrant rfl (writer_of_not_grantFree h), fun h => waits_of_whenGrant rfl (writer_of_not_grantFree h),
    fun h => waits_of_whenGrant rfl (writer_of_not_grantFree h), fun hmajor h => ?illegal, rfl⟩
  case get => exact writes_of_toNat (congrArg _ (whenGrant_of_free _ hfree)) (toNat_grantField _ _)
  case set =>
    refine ⟨_, gset_of_free hfree, grantStep_putGrant s _ _, fun hall => ?_, fun hone f hf => ?_⟩
    · rw [grant_putGrant, if_pos rfl, hall, grantSet_all]
    · rw [grant_putGrant, if_pos rfl, field_grantSet (by omega) hf]
  case clear => exact ⟨_, gclr_of_free hfree, grantStep_putGrant s _ 0, by rw [grant_putGrant, if_pos rfl]⟩
  case illegal =>
    refine decode_grant_error ?_ ?_
    · rw [fldN_eq_extract, hmajor]; rfl
    · simpa only [fldN_eq_extract] using h

end Sys2Proof
end

section
/-! PROOFS. Exceptions of scalar instructions (R55, R56, R84, R144 to R147, R152): accesses at addresses that no access may have, traps at
decode, and the service instructions. -/

namespace Sys2Proof
open Machine Claims
namespace Machine

/-! ## Addresses out of range or misaligned (R144, R145, R147) -/

section
variable {s : State} {acc : Access} {kind n : Nat} {va : Word} (hwatch : s.scalarWatched acc va n = false) (k : Xl → Place → State)
include hwatch

theorem scalarAccess_of_outOfRange (h : 2 ^ 48 ≤ va.toNat) : s.scalarAccess acc kind va n k = .next (s.scalarStop 8 kind va 0) := by
  have htop : bitsN va 48 16 ≠ 0 := by
    have hlt := va.isLt
    rw [bitsN]
    omega
  have hcheck : s.checkAccess acc va n (s.scalarWatched acc va n) false = .stop 8 := by
    rw [State.checkAccess, hwatch]
    exact (if_neg Bool.false_ne_true).trans (if_pos htop)
  rw [State.scalarAccess, hcheck]
  exact if_neg (by decide)

theorem scalarAccess_of_misaligned (hrange : va.toNat < 2 ^ 48) (h : va.toNat % n ≠ 0) :
    s.scalarAccess acc kind va n k = .next (s.scalarStop 9 kind va 0) := by
  have htop : ¬bitsN va 48 16 ≠ 0 := by rw [bitsN, Nat.div_eq_of_lt hrange]; simp
  have hcheck : s.checkAccess acc va n (s.scalarWatched acc va n) false = .stop 9 := by
    rw [State.checkAccess, hwatch]
    exact (if_neg Bool.false_ne_true).trans ((if_neg htop).trans (if_pos h))
  rw [State.scalarAccess, hcheck]
  exact if_neg (by decide)

end

theorem badAddress_of_scalarAccess {i : Instr} {s : State} {acc : Access} {kind n : Nat} {va : Word} {k : Xl → Place → State}
    (hexec : exec i s = s.scalarAccess acc kind va n k) : BadAddress i s acc kind n va := fun hwatch =>
  ⟨fun h => takesException_of_stop (.refl s) (hexec.trans (scalarAccess_of_outOfRange hwatch k h)),
    fun hrange h => takesException_of_stop (.refl s) (hexec.trans (scalarAccess_of_misaligned hwatch k hrange h))⟩

/-- What an atomic does once its access has passed the checks. -/
def State.amoAt (s : State) (x : AmoOp) (op : Nat) (xl : Xl) (p : Place) : State :=
  let n := if x.wide = 1 then 8 else 4
  let va := s.rd x.sa
  s.withStripEvent 1 (fun s =>
    if s.flying s.cur.src then s.waitFor (.fence 1 2) else
    let s := if releases x.order then s.upd Strand.fixReads else s
    let (s, old) := s.atomicAt va p n op ((s.rd x.sb).toNat % 2 ^ (8 * n)) ((s.rd x.sd).toNat % 2 ^ (8 * n))
    (s.touchScalar s.cur.src va xl).wrNext x.sd (BitVec.ofInt 64 (toSigned (8 * n) old)))

theorem lastVecMem_eq_none {t : Strand} (h : ∀ c ∈ t.viq, ∀ w ∈ c.words.drop c.next, isVecMem w = false) : t.lastVecMem = none := by
  have hnone : t.viq.filter (fun c => (c.words.drop c.next).any isVecMem) = [] := List.filter_eq_nil_iff.mpr fun c hc => by
    rw [List.any_eq_false.mpr fun w hw => by rw [h c hc w hw]; exact Bool.false_ne_true]
    exact Bool.false_ne_true
  rw [Strand.lastVecMem, hnone]
  rfl

/-- An atomic that has no earlier vector memory operation to wait for makes its access. -/
theorem amo_of_performed {s : State} {x : AmoOp}
    (h : releases x.order = true → ∀ c ∈ s.me.viq, ∀ w ∈ c.words.drop c.next, isVecMem w = false) (op : Nat) :
    s.amo x op = s.scalarAccess .atomic 4 (s.rd x.sa) (if x.wide = 1 then 8 else 4) (s.amoAt x op) := by
  have hnone : (if releases x.order = true then s.me.lastVecMem else none) = none := by
    split
    next hr => exact lastVecMem_eq_none (h hr)
    next => rfl
  rw [State.amo, hnone]
  rfl

/-! ## Traps at decode (R55, R56, R84) -/

section
variable {s : State} (hviq : s.me.viq = [])
include hviq

theorem decodeTrap_of_empty (cause : Nat) (w : BitVec 32) : s.decodeTrap cause w = s.scalarStop cause 0 (w.zeroExtend 64) 0 := by
  rw [State.decodeTrap, hviq]
  rfl

theorem illegalInstruction_stops (w : BitVec 32) :
    exec (.illegalInstruction 0 w) s = .next (s.scalarStop 1 0 (w.zeroExtend 64) 0) := by
  show execIllegalInstruction 0 w s = _
  rw [execIllegalInstruction, State.decodeStop, hviq]
  rfl

theorem csrrw_of_readOnly {x : CsrOp} (h : csrReadOnly x.csr.toNat = true) :
    exec (.csrrw x) s = .next (s.scalarStop 1 0 ((wordOf (.csrrw x)).zeroExtend 64) 0) := by
  show execCsrrw x s = _
  rw [execCsrrw, State.csrAccess, ← decodeTrap_of_empty hviq]
  exact congrArg _ (if_pos h)

theorem csrrw_of_unprivileged {x : CsrOp} (hwrite : csrReadOnly x.csr.toNat = false) (hpriv : csrPriv x.csr.toNat = true)
    (h : s.me.bind.privileged = false) :
    exec (.csrrw x) s = .next (s.scalarStop 4 0 ((wordOf (.csrrw x)).zeroExtend 64) 0) := by
  show execCsrrw x s = _
  rw [execCsrrw, State.csrAccess, ← decodeTrap_of_empty hviq]
  simp only [hwrite, hpriv, h, Option.isSome_some, Bool.and_false, Bool.not_false, Bool.true_or, Bool.and_self, Bool.false_eq_true, if_false,
    if_true]

theorem halt_of_unprivileged (h : s.me.bind.privileged = false) :
    exec .halt s = .next (s.scalarStop 4 0 ((wordOf .halt).zeroExtend 64) 0) := by
  show execHalt s = _
  rw [execHalt, h, ← decodeTrap_of_empty hviq]
  rfl

theorem pgmig_of_unprivileged (y : SReg3) (h : s.me.bind.privileged = false) :
    exec (.pgmig y) s = .next (s.scalarStop 4 0 ((wordOf (.pgmig y)).zeroExtend 64) 0) := by
  show execPgmig y s = _
  rw [execPgmig, h, ← decodeTrap_of_empty hviq]
  rfl

/-- A service instruction with no earlier convoy in the VIQ stops at once. -/
theorem service_of_empty (cause : Nat) (va resume : Word) (k : State → State) : s.service cause va resume k =
    .next (k (s.takeStop s.cur.src resume [s.record s.cur.src cause 0 va 0xFFFFFFFF 0 s.me.pc 0])) := by
  rw [State.service, hviq]
  rfl

end

/-! ## A stop that resumes at an address (R120, R152, R305) -/

/-- The record of a stop is posted, and the strand is to resume at `resume`; strands, groups, launches and contexts are else as they were. -/
structure StopPosted (s : State) (resume : Word) (w : State) : Prop where
  me : w.strand s.cur.src = { s.me with pc := resume }
  others : ∀ j, j ≠ s.cur.src → w.strand j = s.strand j
  groups : w.groups = s.groups
  launches : w.launches = s.launches
  contexts : w.contexts = s.contexts
  cur : w.cur = s.cur

/-- A stop whose record the queue takes: the record is posted, and then the group halts. -/
theorem takeStop_posts {s u : State} {cause : Nat} {va resume : Word} (hrunning : s.me.st = .running)
    (hstate : (s.context s.me.bind.ctx).state ≠ 4) (hfirst : s.sourceWaits (scalarRec s cause 0 va s.me.pc 0) = false)
    (hpost : s.tryPost (dieOf s.cur.src) s.me.bind.ctx (scalarRec s cause 0 va s.me.pc 0) = .posted u) :
    ∃ w : State, s.takeStop s.cur.src resume [s.record s.cur.src cause 0 va 0xFFFFFFFF 0 s.me.pc 0] = w.haltGroup s.cur.src ∧
      w.mem = u.mem ∧ StopPosted s resume w := by
  obtain ⟨r, hr⟩ : ∃ r, r = s.record s.cur.src cause 0 va 0xFFFFFFFF 0 s.me.pc 0 := ⟨_, rfl⟩
  have hrecord : { r with halted := true, more := false } = scalarRec s cause 0 va s.me.pc 0 := by rw [hr]; rfl
  have hctx : r.ctx = s.me.bind.ctx := (congrArg FRec.ctx hrecord :)
  obtain ⟨htrace, hcopying, honly⟩ := traceStop_keeps (resumeAt s s.cur.src resume) s.cur.src r
  have hreads : SameReads s ((resumeAt s s.cur.src resume).traceStop s.cur.src r) := (SameReads.updAt s s.cur.src _).trans htrace
  obtain ⟨w, hw, hsame⟩ := hreads.tryPost hcopying hpost
  rw [← hrecord, ← hctx] at hw
  rw [← hrecord] at hfirst
  rw [← hctx] at hstate
  have hposted := post_of_taken (r := { r with halted := true, more := false }) (by rw [hreads.context]; exact hstate)
    (by rw [State.sourceWaits, (congrArg State.waitingRecs honly :)]; exact hfirst) hw
  obtain ⟨hme, hothers, hgroups, hcur⟩ := posted_keeps hw
  obtain ⟨htraffic, -⟩ := tryPost_traffic hw
  have htake : s.takeStop s.cur.src resume [r] = w.haltGroup s.cur.src := by
    rw [takeStop_singleton, hposted]
    exact if_neg (by rw [hme]; show s.me.st ≠ _; rw [hrunning]; simp)
  rw [← hr]
  exact ⟨w, htake, hsame.mem, hme, hothers, hgroups, (congrArg State.launches htraffic :).trans (congrArg State.launches honly :),
    (congrArg State.contexts htraffic :).trans (congrArg State.contexts honly :), hcur⟩

/-- What is done behind a stop leaves memory, and every strand that is halted stays so; one that did not wait is as it was. -/
structure KeepsHalted (s t : State) : Prop where
  mem : t.mem = s.mem
  cur : t.cur = s.cur
  halted : ∀ j, (s.strand j).st = .halted → (t.strand j).st = .halted
  same : ∀ j, (s.strand j).st = .halted → (s.strand j).wait = .none → t.strand j = s.strand j

theorem KeepsHalted.refl (s : State) : KeepsHalted s s := ⟨rfl, rfl, fun _ h => h, fun _ _ _ => rfl⟩

theorem KeepsHalted.trans {s t u : State} (h : KeepsHalted s t) (g : KeepsHalted t u) : KeepsHalted s u :=
  ⟨g.mem.trans h.mem, g.cur.trans h.cur, fun j hj => g.halted j (h.halted j hj), fun j hj hwait => by
    have hsame := h.same j hj hwait
    exact (g.same j (h.halted j hj) (by rw [hsame]; exact hwait)).trans hsame⟩

section
variable {s u : State} {i : Instr} {cause : Nat} {va resume : Word} {k : State → State} (hk : ∀ t, KeepsHalted t (k t))
include hk

theorem takesException_of_takeStop
    (hexec : exec i s = .next (k (s.takeStop s.cur.src resume [s.record s.cur.src cause 0 va 0xFFFFFFFF 0 s.me.pc 0]))) :
    TakesException i s resume (scalarRec s cause 0 va s.me.pc 0) := by
  intro u hrunning hwait hstate hfirst hpost
  obtain ⟨w, hstop, hmem, hw⟩ := takeStop_posts (resume := resume) hrunning hstate hfirst hpost
  rw [hstop] at hexec
  obtain ⟨hmem', hhalt⟩ := haltGroup_keeps (s := w) (src := s.cur.src) (by rw [hw.me]; exact hwait)
  have hhalted : (w.haltGroup s.cur.src).strand s.cur.src = { s.me with pc := resume, st := .halted, replay := none } := by
    rw [hhalt, hw.me]; exact halt_of_running hrunning
  have hcur : (w.haltGroup s.cur.src).cur = s.cur := (congrArg State.cur (haltGroup_only w s.cur.src) :).trans hw.cur
  obtain ⟨hkmem, hkcur, hkhalted, hksame⟩ := hk (w.haltGroup s.cur.src)
  have hdone : (k (w.haltGroup s.cur.src)).me = { s.me with pc := resume, st := .halted, replay := none } := by
    rw [State.me, hkcur, hcur, hksame _ (by rw [hhalted]) (by rw [hhalted]; exact hwait), hhalted]
  have hmember (m : Nat) : (w.strand m).wait = (s.strand m).wait ∧ (w.strand m).st = (s.strand m).st := by
    by_cases hm : m = s.cur.src
    · rw [hm, hw.me]; exact ⟨rfl, rfl⟩
    · rw [hw.others m hm]; exact ⟨rfl, rfl⟩
  refine ⟨_, hexec, hkmem.trans (hmem'.trans hmem), by rw [hdone], by rw [hdone], fun n => by rw [State.rd, hdone]; rfl, by rw [hdone],
    by rw [hdone], fun g hg hresident m hm hending hlive => hkhalted m ?_⟩
  refine haltGroup_members (g := g) ?_ hresident hm (by rw [(hmember m).1]; exact hending) (by rw [Strand.live, (hmember m).2]; exact hlive)
  rw [hw.groups, hw.me]
  exact hg

theorem takesException_of_service (hviq : s.me.viq = []) (hexec : exec i s = s.service cause va resume k) :
    TakesException i s resume (scalarRec s cause 0 va s.me.pc 0) :=
  takesException_of_takeStop hk (hexec.trans (service_of_empty hviq _ _ _ _))

end

/-! ## Every group of a context halts (R152) -/

theorem haltAll_eq_foldl (l : List Nat) (s : State) : s.haltAll l = l.foldl (fun s m => s.updAt m Strand.halt) s := by
  induction l generalizing s with
  | nil => rfl
  | cons m r ih => exact ih _

theorem strand_haltAll_of_not_mem (s : State) {j : Nat} {l : List Nat} (h : j ∉ l) : (s.haltAll l).strand j = s.strand j := by
  rw [haltAll_eq_foldl]
  exact (foldl_onlyStrands (fun s m => State.updAt_onlyStrand s m Strand.halt) l s).2 j h

/-- A strand that a barrier's end may have set going, or that stood halted, halts with its group. -/
theorem finishBarrier_stoppable {s : State} {j : Nat} (h : (s.strand j).live ∨ (s.strand j).st = .halted) (m : Nat) :
    ((s.finishBarrier m).strand j).live ∨ ((s.finishBarrier m).strand j).st = .halted := by
  simp only [State.finishBarrier]
  split
  · split
    · split
      · exact h
      · by_cases hj : j = m
        · rw [hj, State.strand_setStrand]; exact .inl (.inl rfl)
        · rwa [State.strand_setStrand_ne _ _ _ _ hj]
    · exact h
  · exact h

theorem finishBarriers_stoppable {s : State} {j : Nat} (h : (s.strand j).live ∨ (s.strand j).st = .halted) (l : List Nat) :
    ((s.finishBarriers l).strand j).live ∨ ((s.finishBarriers l).strand j).st = .halted := by
  induction l generalizing s with
  | nil => exact h
  | cons m r ih => exact ih (finishBarrier_stoppable h m)

theorem halt_of_stoppable {t : Strand} (h : t.live ∨ t.st = .halted) : t.halt.st = .halted := by
  rcases h with h | h
  · exact halt_of_live h
  · rw [halt_of_halted h, h]

theorem haltResident_keepsHalted (s : State) (k : GroupKey) : KeepsHalted s (s.haltResident k) := by
  obtain ⟨ms, hms⟩ : ∃ ms, ms = ((s.group k).members.map Prod.snd).filter (fun m => (s.strand m).wait != .ending) := ⟨_, rfl⟩
  obtain ⟨g, hg⟩ : ∃ g : Group, s.haltResident k = ((s.finishBarriers ms).setGroup k g).haltAll ms := ⟨_, by rw [hms]; rfl⟩
  obtain ⟨hrest, hothers⟩ := foldl_onlyStrands finishBarrier_onlyStrand ms s
  have hall := (foldl_onlyStrands (fun s m => State.updAt_onlyStrand s m Strand.halt) ms ((s.finishBarriers ms).setGroup k g)).1
  rw [← haltAll_eq_foldl] at hall
  have hstrand (j : Nat) : (j ∈ ms ∧ (s.haltResident k).strand j = ((s.finishBarriers ms).strand j).halt) ∨
      (j ∉ ms ∧ (s.haltResident k).strand j = s.strand j) := by
    rw [hg]
    by_cases hj : j ∈ ms
    · exact .inl ⟨hj, strand_haltAll_of_mem _ hj⟩
    · exact .inr ⟨hj, (strand_haltAll_of_not_mem _ hj).trans (hothers j hj)⟩
  refine ⟨?_, ?_, fun j hj => ?_, fun j hj hwait => ?_⟩
  · rw [hg]; exact (congrArg State.mem hall :).trans (congrArg State.mem hrest :)
  · rw [hg]; exact (congrArg State.cur hall :).trans (congrArg State.cur hrest :)
  · rcases hstrand j with ⟨-, h⟩ | ⟨-, h⟩
    · rw [h]; exact halt_of_stoppable (finishBarriers_stoppable (.inr hj) ms)
    · rw [h]; exact hj
  · rcases hstrand j with ⟨-, h⟩ | ⟨-, h⟩
    · rw [h, (finishBarriers_keeps hwait ms).2]; exact halt_of_halted hj
    · exact h

theorem haltContext_keepsHalted (s : State) (ctx : Nat) : KeepsHalted s (s.haltContext ctx) := by
  have hfold (l : List (GroupKey × Group)) (t : State) : KeepsHalted t (l.foldl (fun s (k, _) => s.haltResident k) t) := by
    induction l generalizing t with
    | nil => exact .refl t
    | cons p r ih => exact (haltResident_keepsHalted t p.1).trans (ih _)
  exact hfold _ s

theorem halt_of_privileged {s : State} (h : s.me.bind.privileged = true) :
    exec .halt s = s.service 36 0 (s.me.pc + 4) (fun t => t.haltContext s.me.bind.ctx) := by
  show execHalt s = _
  rw [execHalt, h]
  rfl

/-- A `trap` that ends no launch is a service stop. -/
theorem trap_of_serving {s : State} {x : Code12} (h : x.code ≠ 0 ∨ look s.launches s.me.bind.launch = none) :
    exec (.trap x) s = s.service 33 (x.code.zeroExtend 64) (s.me.pc + 4) id := by
  have hserves : (decide (x.code = 0) && s.launched s.cur.src) = false := by
    rcases h with h | h
    · rw [decide_eq_false h, Bool.false_and]
    · have hnone : s.launched s.cur.src = false := by
        show (look s.launches s.me.bind.launch).isSome = false
        rw [h]; rfl
      rw [hnone, Bool.and_false]
  show execTrap x s = _
  simp only [execTrap, hserves, Bool.false_and, Bool.false_eq_true, if_false]
  rfl

end Machine

/-- Settles O4: the check of an access comes before its value, its register and its bytes. -/
theorem badScalarAddressesStop : Obligations.BadScalarAddressesStop := by
  intro s x y z a b load store atomic
  have hatomic {i : Instr} {op : Nat} (hexec : exec i s = s.amo z op)
      (h : releases z.order = true → ∀ c ∈ s.me.viq, ∀ w ∈ c.words.drop c.next, isVecMem w = false) : atomic i :=
    badAddress_of_scalarAccess (hexec.trans (amo_of_performed h op))
  refine ⟨?_, ?_, ?_, ?_, ?_, ?_, ?_, ?_, ?_, ?_, ?_, fun h => ⟨hatomic rfl h, hatomic rfl h, hatomic rfl h, hatomic rfl h, hatomic rfl h,
    hatomic rfl h, hatomic rfl h, hatomic rfl h, hatomic rfl h, hatomic rfl h⟩⟩
  all_goals exact badAddress_of_scalarAccess rfl

theorem serviceInstructionsHaltTheGroup : ServiceInstructionsHaltTheGroup := fun _ _ hviq =>
  ⟨fun h => takesException_of_service (fun t => .refl t) hviq (trap_of_serving h),
    takesException_of_service (k := id) (fun t => .refl t) hviq rfl, takesException_of_service (k := id) (fun t => .refl t) hviq rfl,
    fun h => takesException_of_service (fun t => haltContext_keepsHalted t _) hviq (halt_of_privileged h)⟩

theorem decodeTrapsTakeTheirException : DecodeTrapsTakeTheirException := fun s w _ y hviq =>
  ⟨takesException_of_stop (.refl s) (illegalInstruction_stops hviq w),
    fun h => takesException_of_stop (.refl s) (csrrw_of_readOnly hviq h),
    fun hwrite hpriv h => takesException_of_stop (.refl s) (csrrw_of_unprivileged hviq hwrite hpriv h),
    fun h => ⟨takesException_of_stop (.refl s) (halt_of_unprivileged hviq h),
      takesException_of_stop (.refl s) (pgmig_of_unprivileged hviq y h)⟩⟩

end Sys2Proof
end

section
/-! PROOFS. The `trap 0` that ends a launch (R118, R119, R152). -/

namespace Sys2Proof
open Machine Claims
namespace Machine

/-! ## Strands without stores leave their slots (R119) -/

/-- No store of the strand is under way, and none was lost. -/
def Strand.Storeless (t : Strand) : Prop := t.buf = [] ∧ t.ssq = [] ∧ t.lostStore = none

theorem storeless_setReg {t : Strand} (h : t.Storeless) (n : Nat) (w : Word) : (t.setReg n w).Storeless := by
  unfold Strand.setReg
  split
  · exact h
  · exact h

theorem storeless_halt {t : Strand} (h : t.Storeless) : t.halt.Storeless := by
  unfold Strand.halt
  split <;> exact h

theorem storeless_park {t : Strand} (h : t.Storeless) : t.park.Storeless := by
  unfold Strand.park Strand.parkMx
  split <;> exact h

/-- Of the strands that had no store, none has one. -/
def KeepsStoreless (s t : State) : Prop := ∀ m, (s.strand m).Storeless → (t.strand m).Storeless

theorem KeepsStoreless.refl (s : State) : KeepsStoreless s s := fun _ h => h

theorem KeepsStoreless.trans {s t u : State} (h : KeepsStoreless s t) (g : KeepsStoreless t u) : KeepsStoreless s u :=
  fun m hm => g m (h m hm)

theorem KeepsStoreless.foldl {β : Type} {f : State → β → State} (hf : ∀ s x, KeepsStoreless s (f s x)) (l : List β) (s : State) :
    KeepsStoreless s (l.foldl f s) := by
  induction l generalizing s with
  | nil => exact .refl s
  | cons x r ih => exact (hf s x).trans (ih _)

theorem KeepsStoreless.updAt (s : State) (src : Nat) {f : Strand → Strand} (hf : ∀ t : Strand, t.Storeless → (f t).Storeless) :
    KeepsStoreless s (s.updAt src f) := fun m hm => by
  by_cases h : m = src
  · subst h; rw [State.strand_updAt]; exact hf _ hm
  · rwa [State.strand_updAt_ne _ _ _ _ h]

theorem KeepsStoreless.finishBarrier (s : State) (src : Nat) : KeepsStoreless s (s.finishBarrier src) := by
  simp only [State.finishBarrier]
  split
  · split
    · split
      · exact .refl s
      · exact .updAt s src (f := fun t => { (t.setReg _ _).advance with barTok := none }) fun t ht => storeless_setReg ht _ _
    · exact .refl s
  · exact .refl s

theorem KeepsStoreless.parkAll (s : State) (l : List Nat) : KeepsStoreless s (s.parkAll l) :=
  .foldl (fun s m => (KeepsStoreless.finishBarrier s m).trans (.updAt _ m fun _ => storeless_park)) l s

theorem KeepsStoreless.haltResident (s : State) (k : GroupKey) : KeepsStoreless s (s.haltResident k) := by
  have hall (l : List Nat) (t : State) : KeepsStoreless t (t.haltAll l) := by
    rw [haltAll_eq_foldl]
    exact .foldl (fun s m => .updAt s m fun _ => storeless_halt) l t
  exact (KeepsStoreless.foldl (fun s m => .finishBarrier s m) _ s).trans (hall _ (State.setGroup _ k _))

theorem KeepsStoreless.haltGroup (s : State) (src : Nat) : KeepsStoreless s (s.haltGroup src) := by
  unfold State.haltGroup
  dsimp only
  refine KeepsStoreless.trans ?_ (.updAt _ src fun _ => storeless_halt)
  split
  · exact .refl s
  · split
    · exact .haltResident s _
    · exact .refl s

/-- Of the strands, the groups and what firmware is told, only strand `src` may have changed. -/
structure OnlySlot (src : Nat) (s t : State) : Prop where
  others : ∀ j, j ≠ src → t.strand j = s.strand j
  groups : t.groups = s.groups
  mgmt : t.mgmt = s.mgmt

namespace OnlySlot

theorem refl (src : Nat) (s : State) : OnlySlot src s s := ⟨fun _ _ => rfl, rfl, rfl⟩

theorem trans {src : Nat} {s t u : State} (h : OnlySlot src s t) (g : OnlySlot src t u) : OnlySlot src s u :=
  ⟨fun j hj => (g.others j hj).trans (h.others j hj), g.groups.trans h.groups, g.mgmt.trans h.mgmt⟩

theorem foldl {β : Type} {src : Nat} {f : State → β → State} (hf : ∀ s x, OnlySlot src s (f s x)) (l : List β) (s : State) :
    OnlySlot src s (l.foldl f s) := by
  induction l generalizing s with
  | nil => exact .refl src s
  | cons x r ih => exact (hf s x).trans (ih _)

theorem updAt (src : Nat) (s : State) (f : Strand → Strand) : OnlySlot src s (s.updAt src f) :=
  ⟨fun _ hj => State.strand_updAt_ne _ _ _ _ hj, rfl, rfl⟩

theorem of_traffic {s t : State} (h : Traffic s t) (src : Nat) : OnlySlot src s t := by
  have hstrands : t.strands = s.strands := (congrArg State.strands h.1 :)
  exact ⟨fun _ _ => by rw [State.strand, hstrands]; rfl, (congrArg State.groups h.1 :), (congrArg State.mgmt h.1 :)⟩

theorem of_dies {s t : State} (h : { t with dies := s.dies } = s) (src : Nat) : OnlySlot src s t := by
  have hstrands : t.strands = s.strands := (congrArg State.strands h :)
  exact ⟨fun j _ => by rw [State.strand, hstrands]; rfl, (congrArg State.groups h :), (congrArg State.mgmt h :)⟩

variable (src : Nat) (s : State)

theorem writeCounter (k : Nat) : OnlySlot src s (s.writeCounter src k) := by
  unfold State.writeCounter
  dsimp only
  split
  · exact .refl src s
  · refine OnlySlot.trans ?_ (.updAt src _ _)
    split
    · next hw => exact .of_traffic (ctxWrite_traffic hw) src
    · exact .refl src s

theorem traceAt (die : Nat) (r : TraceRec) : OnlySlot src s (s.traceAt die r) := .of_dies (s.traceAt_only die r).1 src

theorem trace (kind : Nat) (body : List Word) : OnlySlot src s (s.trace src kind body) := by
  unfold State.trace
  dsimp only
  split
  · split
    · exact .traceAt src s _ _
    · exact .refl src s
  · exact .traceAt src s _ _

theorem profile (c : Convoy) (p : Sample) (did : Nat → Bool) : OnlySlot src s (s.profile src c p did) := by
  refine .foldl (fun t x => ?_) _ s
  dsimp only
  split
  · exact .refl src t
  · exact OnlySlot.trans (t := { t with profDraws := t.profDraws + 4 }) ⟨fun _ _ => rfl, rfl, rfl⟩ (.traceAt src _ _ _)

theorem profileTo (c : Convoy) (k : Nat) (did : Nat → Bool) : OnlySlot src s (s.profileTo src c k did) := by
  refine .foldl (fun t p => ?_) _ s
  split
  · exact .profile src t c p _
  · split
    · exact .profile src t c p _
    · exact .refl src t

theorem profileKept (l : List Convoy) : OnlySlot src s (s.profileKept src l) := by
  induction l generalizing s with
  | nil => exact .refl src s
  | cons c r ih =>
    unfold State.profileKept
    split
    · exact (profileTo src s c _ _).trans (ih _)
    · split
      · exact .profileTo src s c _ _
      · exact .profileTo src s c _ _

theorem retireDone (fuel : Nat) : OnlySlot src s (s.retireDone src fuel) := by
  have hretire (t : State) (c : Convoy) : OnlySlot src t (t.traceRetire src c) := by
    unfold State.traceRetire
    dsimp only
    split
    · exact (profileTo src t c _ _).trans (.trace src _ _ _)
    · exact .profileTo src t c _ _
  induction fuel generalizing s with
  | zero => exact .refl src s
  | succ k ih =>
    unfold State.retireDone
    split
    · exact .refl src s
    · split
      · exact ((hretire s _).trans (.updAt src _ _)).trans (ih _)
      · exact .refl src s

/-- A strand without stores brings its work to its registers and its counters, and no store fails. -/
theorem flush {s : State} {src : Nat} (h : (s.strand src).Storeless) : (s.flush src).2 = [] ∧ OnlySlot src s (s.flush src).1 := by
  obtain ⟨hbuf, hssq, hlost⟩ := h
  have hstores := flushStores_of_none hbuf hssq hlost
  unfold State.flush
  rw [hstores]
  refine ⟨rfl, ?_⟩
  exact ((((((OnlySlot.updAt src s Strand.stored).trans (.updAt src _ _)).trans
    (.foldl (fun t k => .writeCounter src t k) _ _)).trans (.retireDone src _ _)).trans (.profileKept src _ _)).trans (.updAt src _ _))

end OnlySlot

/-- What a strand that leaves may change: no strand gains a store, groups keep their states, and firmware is told no less. -/
structure LeavesBehind (s t : State) : Prop where
  storeless : KeepsStoreless s t
  groups : ∀ key g, look s.groups key = some g → ∃ g', look t.groups key = some g' ∧ g'.state = g.state
  mgmt : ∀ n ∈ s.mgmt, n ∈ t.mgmt

theorem LeavesBehind.refl (s : State) : LeavesBehind s s := ⟨.refl s, fun _ g h => ⟨g, h, rfl⟩, fun _ h => h⟩

theorem LeavesBehind.trans {s t u : State} (h : LeavesBehind s t) (g : LeavesBehind t u) : LeavesBehind s u :=
  ⟨h.storeless.trans g.storeless, fun key x hx => by
    obtain ⟨y, hy, hstate⟩ := h.groups key x hx
    obtain ⟨z, hz, hstate'⟩ := g.groups key y hy
    exact ⟨z, hz, hstate'.trans hstate⟩, fun n hn => g.mgmt n (h.mgmt n hn)⟩

theorem look_put_state {l : List (GroupKey × Group)} {k : GroupKey} {x : Group} (hx : ∀ y, look l k = some y → x.state = y.state)
    (key : GroupKey) (g : Group) (h : look l key = some g) : ∃ g', look (put l k x) key = some g' ∧ g'.state = g.state := by
  rw [look_put]
  by_cases hkey : key = k
  · exact ⟨x, if_pos hkey, hx g (hkey ▸ h)⟩
  · exact ⟨g, (if_neg hkey).trans h, rfl⟩

/-- The slot of a strand is freed, and its group loses it as a member (R119). -/
theorem vacate_leavesBehind (s : State) (src : Nat) {t : State} (h : OnlySlot src s t) : LeavesBehind s (t.vacate src) := by
  have hfree (u : State) (hu : ∀ j, j ≠ src → u.strand j = s.strand j) : KeepsStoreless s (u.free src) := fun m hm => by
    by_cases hsrc : m = src
    · subst hsrc
      rw [State.free, State.strand_setStrand]
      exact ⟨rfl, rfl, rfl⟩
    · rwa [State.free, State.strand_setStrand_ne _ _ _ _ hsrc, hu m hsrc]
  unfold State.vacate
  dsimp only
  split
  next hsome =>
    refine ⟨hfree _ h.others, ?_, fun n hn => by rw [← h.mgmt] at hn; exact hn⟩
    rw [← h.groups]
    exact look_put_state fun y hy => (congrArg Group.state (group_of_look (s := t.disown src) hy) :)
  next =>
    refine ⟨hfree _ h.others, fun key g hg => ⟨g, ?_, rfl⟩, fun n hn => by rw [← h.mgmt] at hn; exact hn⟩
    rw [← h.groups] at hg
    exact hg

theorem leave_of_storeless {s : State} {src : Nat} (h : (s.strand src).Storeless) (image : Bool) :
    (s.leave src image).2 = [] ∧ LeavesBehind s (s.leave src image).1 := by
  obtain ⟨hfails, hflush⟩ := OnlySlot.flush h
  obtain ⟨u, hu⟩ : ∃ u, s.flush src = (u, []) := ⟨(s.flush src).1, by rw [← hfails]⟩
  rw [hu] at hflush
  simp only [State.leave, hu, List.map_nil, List.foldl_nil, true_and]
  refine vacate_leavesBehind s src (hflush.trans ?_)
  split
  · split
    · next hw => exact .of_traffic (saveImage_traffic hw) src
    · exact .refl src u
  · exact .refl src u

theorem leaveAll_of_storeless (l : List Nat) (s : State) (h : ∀ m ∈ l, (s.strand m).Storeless) :
    (s.leaveAll l).2 = [] ∧ LeavesBehind s (s.leaveAll l).1 := by
  have hfold (l : List Nat) (p : State × List FRec) (h : ∀ m ∈ l, (p.1.strand m).Storeless) (hp : p.2 = []) :
      (l.foldl State.leaveIf p).2 = [] ∧ LeavesBehind p.1 (l.foldl State.leaveIf p).1 := by
    induction l generalizing p with
    | nil => exact ⟨hp, .refl p.1⟩
    | cons m r ih =>
      have hone : (State.leaveIf p m).2 = [] ∧ LeavesBehind p.1 (State.leaveIf p m).1 := by
        unfold State.leaveIf
        split
        · obtain ⟨hnone, hleft⟩ := leave_of_storeless (h m List.mem_cons_self) (p.1.keepsImage m)
          exact ⟨by rw [hp, hnone]; rfl, hleft⟩
        · exact ⟨hp, .refl p.1⟩
      obtain ⟨hnone, hleft⟩ := hone
      obtain ⟨hrest, hkept⟩ := ih (State.leaveIf p m) (fun j hj => hleft.storeless j (h j (List.mem_cons_of_mem m hj))) hnone
      exact ⟨hrest, hleft.trans hkept⟩
  exact hfold l (s, []) h rfl

/-! ## Tables of groups -/

section
variable {κ α : Type} [DecidableEq κ]

theorem mem_of_look {l : List (κ × α)} {k : κ} {x : α} (h : look l k = some x) : (k, x) ∈ l := by
  induction l with
  | nil => cases h
  | cons p r ih =>
    obtain ⟨j, y⟩ := p
    rw [look] at h
    split at h
    next hj => cases h; rw [hj]; exact List.mem_cons_self
    next => exact List.mem_cons_of_mem _ (ih h)

theorem mem_put {l : List (κ × α)} {k : κ} {x : α} {p : κ × α} (h : p ∈ put l k x) : p ∈ l ∨ p = (k, x) := by
  induction l with
  | nil => exact .inr (List.mem_singleton.mp h)
  | cons q r ih =>
    obtain ⟨j, y⟩ := q
    rw [put] at h
    split at h
    next =>
      rcases List.mem_cons.mp h with rfl | hr
      · exact .inr rfl
      · exact .inl (List.mem_cons_of_mem _ hr)
    next =>
      rcases List.mem_cons.mp h with rfl | hr
      · exact .inl List.mem_cons_self
      · exact (ih hr).imp_left (List.mem_cons_of_mem _)

end

/-- The groups of `t` have no member that a group of the same key had not in `s`, and none is lost. -/
structure SameMembers (s t : State) : Prop where
  members : ∀ p ∈ t.groups, ∀ m ∈ p.2.members.map Prod.snd, ∃ q ∈ s.groups, q.1 = p.1 ∧ m ∈ q.2.members.map Prod.snd
  kept : ∀ key, (look s.groups key).isSome = true → (look t.groups key).isSome = true

theorem SameMembers.refl (s : State) : SameMembers s s := ⟨fun p hp _ hm => ⟨p, hp, rfl, hm⟩, fun _ h => h⟩

theorem SameMembers.trans {s t u : State} (h : SameMembers s t) (g : SameMembers t u) : SameMembers s u :=
  ⟨fun p hp m hm => by
    obtain ⟨q, hq, hkey, hmq⟩ := g.members p hp m hm
    obtain ⟨r, hr, hkey', hmr⟩ := h.members q hq m hmq
    exact ⟨r, hr, hkey'.trans hkey, hmr⟩, fun key hkey => g.kept key (h.kept key hkey)⟩

theorem SameMembers.of_groups {s t : State} (h : t.groups = s.groups) : SameMembers s t := by
  refine ⟨?_, fun key hkey => ?_⟩
  · rw [h]; exact (SameMembers.refl s).members
  · rwa [h]

/-- A group that is set with the members it had. -/
theorem SameMembers.setGroup {s : State} {k : GroupKey} {g x : Group} (hlook : look s.groups k = some g) (h : x.members = g.members) :
    SameMembers s (s.setGroup k x) := by
  refine ⟨fun p hp m hm => ?_, fun key hkey => ?_⟩
  · rcases mem_put hp with hp | rfl
    · exact ⟨p, hp, rfl, hm⟩
    · exact ⟨(k, g), mem_of_look hlook, rfl, by rw [← h]; exact hm⟩
  · rw [State.setGroup, look_put]
    split
    · rfl
    · exact hkey

theorem haltGroup_sameMembers (s : State) (src : Nat) : SameMembers s (s.haltGroup src) := by
  have hupd {t : State} (ht : SameMembers s t) : SameMembers s (t.updAt src Strand.halt) := ht.trans (.of_groups rfl)
  unfold State.haltGroup
  dsimp only
  refine hupd ?_
  split
  · exact .refl s
  next g hg =>
    have hgroup := group_of_look hg
    split
    · obtain ⟨ms, hms⟩ : ∃ ms, ms = (g.members.map Prod.snd).filter (fun m => (s.strand m).wait != .ending) := ⟨_, rfl⟩
      obtain ⟨x, hx, hresident⟩ : ∃ x : Group, x.members = g.members ∧
          s.haltResident (s.strand src).group = ((s.finishBarriers ms).setGroup (s.strand src).group x).haltAll ms :=
        ⟨{ g with state := .halted, waiting := ms.filter (fun m => ((s.finishBarriers ms).strand m).st == .waiting),
                  haltClock := ((s.finishBarriers ms).die g.die).gtc
                  lively := ms.filter (fun m => ((s.finishBarriers ms).strand m).st == .running) },
          rfl, by rw [State.haltResident, hgroup, hms]⟩
      have hbarriers : (s.finishBarriers ms).groups = s.groups :=
        (congrArg State.groups (foldl_onlyStrands finishBarrier_onlyStrand ms s).1 :)
      have hhalted : (s.haltResident (s.strand src).group).groups = ((s.finishBarriers ms).setGroup (s.strand src).group x).groups := by
        rw [hresident, haltAll_eq_foldl]
        exact (congrArg State.groups (foldl_onlyStrands (fun s m => State.updAt_onlyStrand s m Strand.halt) ms _).1 :)
      have hset : SameMembers (s.finishBarriers ms) ((s.finishBarriers ms).setGroup (s.strand src).group x) :=
        .setGroup (by rw [hbarriers]; exact hg) hx
      have hlook : look (s.haltResident (s.strand src).group).groups (s.strand src).group = some x := by
        rw [hhalted]; exact look_setGroup _ _ _
      exact (((SameMembers.of_groups hbarriers).trans hset).trans (.of_groups hhalted)).trans
        (.setGroup hlook (by rw [group_of_look hlook]; rfl))
    · exact .setGroup hg (by rw [hgroup]; rfl)

/-! ## The launch ends (R118, R152) -/

/-- Groups of a list that are ended one after the other. -/
theorem look_foldl_ended (gs : List (GroupKey × Group)) (s : State) (key : GroupKey)
    (h : (∃ x, (key, x) ∈ gs) ∨ ∃ g, look s.groups key = some g ∧ g.state = .ended) :
    ∃ g, look (gs.foldl (fun s (g, x) => s.setGroup g { x with state := .ended }) s).groups key = some g ∧ g.state = .ended := by
  induction gs generalizing s with
  | nil =>
    rcases h with ⟨x, hx⟩ | h
    · exact absurd hx List.not_mem_nil
    · exact h
  | cons p r ih =>
    refine ih (s.setGroup p.1 { p.2 with state := .ended }) ?_
    by_cases hkey : key = p.1
    · exact .inr ⟨_, by rw [hkey]; exact look_setGroup _ _ _, rfl⟩
    · rcases h with ⟨x, hx⟩ | ⟨g, hg, hended⟩
      · rcases List.mem_cons.mp hx with hp | hr
        · exact absurd (congrArg Prod.fst hp) hkey
        · exact .inl ⟨x, hr⟩
      · exact .inr ⟨g, by rw [State.setGroup, look_put, if_neg hkey]; exact hg, hended⟩

/-- The launch once it is told that it ends: its groups are ended, it is stopped with CAUSE 19, and its strands have not yet left. -/
def State.launchStopped (s : State) (k : LaunchKey) (flags : BitVec 7) : State :=
  let gs := s.groupsOf k
  let s := s.parkAll (gs.flatMap (fun (_, g) => g.members.map Prod.snd))
  let s := gs.foldl (fun s (g, _) => s.resetBarriers g) s
  let s := gs.foldl (fun s (g, x) => s.setGroup g { x with state := .ended }) s
  let l := s.launch k
  let s := s.setLaunch k { l with stopped := true, cause := 19, flags := l.flags ||| flags }
  { s with mgmt := s.mgmt ++ [MgmtNote.launchEnded k] }

theorem endLaunch_eq (s : State) (k : LaunchKey) (flags : BitVec 7) {u : State}
    (h : (s.launchStopped k flags).leaveAll ((s.groupsOf k).flatMap (fun (_, g) => g.members.map Prod.snd)) = (u, [])) :
    s.endLaunch k flags = u.refreshContext (s.launch k).ctx := by
  have hleft : s.endLaunch k flags = (((s.launchStopped k flags).leaveAll
      ((s.groupsOf k).flatMap (fun (_, g) => g.members.map Prod.snd))).1.lastCommits k
      ((s.launchStopped k flags).leaveAll ((s.groupsOf k).flatMap (fun (_, g) => g.members.map Prod.snd))).2).refreshContext
      (s.launch k).ctx := rfl
  rw [hleft, h]
  rfl

section
variable (s : State) (k : LaunchKey) (flags : BitVec 7)

theorem launchStopped_storeless : KeepsStoreless s (s.launchStopped k flags) := by
  have hbarriers (gs : List (GroupKey × Group)) (t : State) : KeepsStoreless t (gs.foldl (fun s (g, _) => s.resetBarriers g) t) :=
    .foldl (f := fun s p => s.resetBarriers p.1) (fun s _ => .refl s) gs t
  have hended (gs : List (GroupKey × Group)) (t : State) :
      KeepsStoreless t (gs.foldl (fun s (g, x) => s.setGroup g { x with state := .ended }) t) :=
    .foldl (f := fun s p => s.setGroup p.1 { p.2 with state := .ended }) (fun s _ => .refl s) gs t
  exact ((KeepsStoreless.parkAll s _).trans (hbarriers _ _)).trans (hended _ _)

theorem launchStopped_launches {l : Launch} (h : look s.launches k = some l) : (s.launchStopped k flags).launches =
    put s.launches k { l with stopped := true, cause := 19, flags := l.flags ||| flags } := by
  have hbarriers (gs : List (GroupKey × Group)) (t : State) : (gs.foldl (fun s (g, _) => s.resetBarriers g) t).launches = t.launches := by
    induction gs generalizing t with
    | nil => rfl
    | cons p r ih => exact ih _
  have hended (gs : List (GroupKey × Group)) (t : State) :
      (gs.foldl (fun s (g, x) => s.setGroup g { x with state := .ended }) t).launches = t.launches := by
    induction gs generalizing t with
    | nil => rfl
    | cons p r ih => exact ih _
  have hbefore := ((hended (s.groupsOf k) _).trans (hbarriers (s.groupsOf k) _)).trans
    (congrArg Prod.snd (tables_parkAll s ((s.groupsOf k).flatMap (fun (_, g) => g.members.map Prod.snd))))
  simp only [State.launchStopped, State.setLaunch, State.launch]
  rw [hbefore]
  show put s.launches k _ = _
  rw [show (s.tables.2) = s.launches from rfl, h]
  rfl

theorem launchStopped_groups (key : GroupKey) (x : Group) (h : (key, x) ∈ s.groupsOf k) :
    ∃ g, look (s.launchStopped k flags).groups key = some g ∧ g.state = .ended := look_foldl_ended _ _ key (.inl ⟨x, h⟩)

theorem launchStopped_mgmt : MgmtNote.launchEnded k ∈ (s.launchStopped k flags).mgmt :=
  List.mem_append_right _ (List.mem_singleton.mpr rfl)

end

theorem refreshContext_only (s : State) (ctx : Nat) : (s.refreshContext ctx).launches = s.launches ∧
    (s.refreshContext ctx).groups = s.groups ∧ (s.refreshContext ctx).mgmt = s.mgmt := by
  unfold State.refreshContext
  dsimp only
  split <;> exact ⟨rfl, rfl, rfl⟩

/-- A launch whose strands have no store to commit ends (R152). -/
theorem endLaunch_of_storeless {s : State} {k : LaunchKey} {flags : BitVec 7} {l : Launch} (hlook : look s.launches k = some l)
    (h : ∀ p ∈ s.groups, p.1.launch = k → ∀ m ∈ p.2.members.map Prod.snd, (s.strand m).Storeless) :
    (s.endLaunch k flags).launches = put s.launches k { l with stopped := true, cause := 19, flags := l.flags ||| flags } ∧
      MgmtNote.launchEnded k ∈ (s.endLaunch k flags).mgmt ∧
      ∀ key, key.launch = k → (look s.groups key).isSome = true →
        ∃ g, look (s.endLaunch k flags).groups key = some g ∧ g.state = .ended := by
  obtain ⟨srcs, hsrcs⟩ : ∃ srcs, srcs = (s.groupsOf k).flatMap (fun (_, g) => g.members.map Prod.snd) := ⟨_, rfl⟩
  have hstoreless : ∀ m ∈ srcs, ((s.launchStopped k flags).strand m).Storeless := fun m hm => by
    rw [hsrcs] at hm
    obtain ⟨p, hp, hmp⟩ := List.mem_flatMap.mp hm
    obtain ⟨hp, hkey⟩ := List.mem_filter.mp hp
    exact launchStopped_storeless s k flags m (h p hp (of_decide_eq_true hkey) m hmp)
  obtain ⟨hnone, hleft⟩ := leaveAll_of_storeless srcs _ hstoreless
  obtain ⟨u, hu⟩ : ∃ u, (s.launchStopped k flags).leaveAll srcs = (u, []) := ⟨_, by rw [← hnone]⟩
  have htables : u.launches = (s.launchStopped k flags).launches := by
    have hkeep := tables_leaveAll (s.launchStopped k flags) srcs
    rw [hu] at hkeep
    exact congrArg Prod.snd hkeep
  rw [hu] at hleft
  rw [endLaunch_eq s k flags (hsrcs ▸ hu)]
  obtain ⟨hlaunches, hgroups, hmgmt⟩ := refreshContext_only u (s.launch k).ctx
  refine ⟨?_, ?_, fun key hkey hsome => ?_⟩
  · rw [hlaunches, htables, launchStopped_launches s k flags hlook]
  · rw [hmgmt]; exact hleft.mgmt _ (launchStopped_mgmt s k flags)
  · obtain ⟨x, hx⟩ := Option.isSome_iff_exists.mp hsome
    obtain ⟨g, hg, hended⟩ := launchStopped_groups s k flags key x (List.mem_filter.mpr ⟨mem_of_look hx, decide_eq_true hkey⟩)
    obtain ⟨g', hg', hstate⟩ := hleft.groups key g hg
    exact ⟨g', by rw [hgroups]; exact hg', hstate.trans hended⟩

/-- `trap 0` in a launch ends it behind its stop, where the stop has not faulted the context. -/
theorem trap_of_ending {s : State} {x : Code12} (hcode : x.code = 0) (hlaunch : (look s.launches s.me.bind.launch).isSome = true)
    (hviq : s.me.viq = []) {t : State} (ht : t = s.takeStop s.cur.src (s.me.pc + 4) [s.record s.cur.src 33 0 0 0xFFFFFFFF 0 s.me.pc 0])
    (hsound : (t.context s.me.bind.ctx).state ≠ 4) : exec (.trap x) s = .next (t.endLaunch s.me.bind.launch s.me.vec.fstat) := by
  have hends : (decide (x.code = 0) && s.launched s.cur.src && !t.faulted s.me.bind.ctx) = true := by
    have hlaunched : s.launched s.cur.src = true := hlaunch
    rw [decide_eq_true hcode, hlaunched, State.faulted, beq_false_of_ne hsound]
    rfl
  show execTrap x s = _
  rw [execTrap, service_of_empty hviq]
  rw [show x.code.zeroExtend 64 = 0 by rw [hcode]; rfl, ← ht, if_pos hends]

end Machine

theorem trapZeroEndsTheLaunch : TrapZeroEndsTheLaunch := by
  intro s u x l k hcode hviq hrunning _ hlook hstate hfirst hpost hstores
  obtain ⟨w, hstop, -, hw⟩ := takeStop_posts (resume := s.me.pc + 4) hrunning hstate hfirst hpost
  have honly := haltGroup_only w s.cur.src
  have hlaunches : (w.haltGroup s.cur.src).launches = s.launches := (congrArg State.launches honly :).trans hw.launches
  have hcontexts : (w.haltGroup s.cur.src).contexts = s.contexts := (congrArg State.contexts honly :).trans hw.contexts
  have hexec := trap_of_ending hcode (by rw [hlook]; rfl) hviq hstop.symm (by rw [State.context, hcontexts]; exact hstate)
  have hmembers := (SameMembers.of_groups hw.groups).trans (haltGroup_sameMembers w s.cur.src)
  have hkept : KeepsStoreless s w := fun m hm => by
    by_cases hsrc : m = s.cur.src
    · rw [hsrc, hw.me]; rw [hsrc] at hm; exact hm
    · rwa [hw.others m hsrc]
  obtain ⟨hended, hmgmt, hgroups⟩ := endLaunch_of_storeless (s := w.haltGroup s.cur.src) (k := k) (flags := s.me.vec.fstat)
    (by rw [hlaunches]; exact hlook) fun p hp hkey m hm => by
      obtain ⟨q, hq, hqkey, hmq⟩ := hmembers.members p hp m hm
      exact (hkept.trans (.haltGroup w s.cur.src)) m (hstores q hq (by rw [hqkey]; exact hkey) m hmq)
  refine ⟨_, { l with stopped := true, cause := 19, flags := l.flags ||| s.me.vec.fstat }, hexec,
    by rw [hended, look_put, if_pos rfl], rfl, rfl, rfl, rfl, hmgmt, fun key g hg hkey => ?_, fun key m hkey hm => ?_⟩
  · exact hgroups key hkey (hmembers.kept key (by rw [hg]; rfl))
  · rw [hended, look_put, if_neg hkey, hlaunches]; exact hm

/-- Settles O40: a stop posts its record and halts its group; what `halt` and `trap 0` do behind it leaves what was halted, or ends the
launch group by group. -/
theorem exceptionsAreTaken : Obligations.ExceptionsAreTaken :=
  ⟨serviceInstructionsHaltTheGroup, decodeTrapsTakeTheirException, trapZeroEndsTheLaunch⟩

end Sys2Proof
end

section
/-! PROOFS. Scalar loads (R144, R146, R229): the access that passes its checks, what it may change, and the value it brings. -/

namespace Sys2Proof
open Machine Claims
namespace Machine

/-! ## An access that passes its checks (R144, R205) -/

/-- A translation that names a place goes by an entry of no braid frame, and keeps the entry and the address. -/
theorem resolveAs_spec {s : State} {die fa : Nat} {secure : Bool} {acc : Access} {f : Fme} {x : Xl} {p : Place}
    (h : s.resolveAs die secure acc fa f = .ok x) (hp : x.place = some p) :
    f.place die (fa % 65536) = some p ∧ f.kind ≠ 4 ∧ x.fme = f ∧ x.fa = fa := by
  have hplace := resolveAs_place h hp
  refine ⟨hplace, fun hkind => ?_, ?_⟩
  · rw [Fme.place, hkind] at hplace
    cases hplace
  unfold State.resolveAs at h
  dsimp only at h
  split at h
  · cases h
  split at h
  · cases h
  split at h
  · cases h
  split at h
  case h_7 =>
    split at h
    · cases h
    split at h
    · cases h
    · cases h
      exact ⟨rfl, rfl⟩
  all_goals cases h
  all_goals cases hp

/-- A scalar access reaches one place. -/
theorem placesOf_of_translate {s : State} {die ctx : Nat} {secure : Bool} {acc : Access} {va : Word} {core : Option Nat} {x : Xl} {p : Place}
    (hacc : acc ≠ .writeAll) (h : s.translate die ctx secure acc va core = .ok x) (hp : x.place = some p) :
    s.placesOf x.fme die (x.fa % 65536) acc = [p] := by
  obtain ⟨fa, f, hresolve⟩ := translate_resolveAs h
  obtain ⟨hplace, hkind, hfme, hfa⟩ := resolveAs_spec hresolve hp
  rw [hfme, hfa, State.placesOf, if_neg hkind, if_neg (fun h => hacc h.1), hplace]
  rfl

section
variable {s : State} {acc : Access} {va : Word} {n : Nat} {x : Xl} {p : Place} (hacc : acc ≠ .writeAll) (h : Reaches s acc va n x p)
include hacc h

theorem checkAccess_ok : s.checkAccess acc va n (s.scalarWatched acc va n) false = .ok x p := by
  obtain ⟨hwatch, hrange, halign, hwalk, hx, hp, hexists, hw, hbusy, hclean, hatomic⟩ := h
  have hplaces := placesOf_of_translate hacc hx hp
  have htop : bitsN va 48 16 = 0 := by rw [bitsN, Nat.div_eq_of_lt hrange, Nat.zero_mod]
  have hkind : ¬(acc = .atomic ∧ x.fme.kind = 5) := fun ⟨ha, hk⟩ => hatomic ha hk
  have hmoving : (acc.needsW && x.fme.w) = false := by
    cases hneeds : acc.needsW with
    | false => rfl
    | true => exact hw hneeds
  simp [State.checkAccess, hwatch, htop, halign, hwalk, State.translateHeld, hx, hp, hexists, hmoving, hplaces, hbusy, hclean, hkind]

theorem scalarAccess_of_reaches (kind : Nat) (k : Xl → Place → State) : s.scalarAccess acc kind va n k = .next (k x p) := by
  rw [State.scalarAccess, checkAccess_ok hacc h]

end

/-! ## What a scalar access may change beside registers -/

theorem me_updAt (s : State) (f : Strand → Strand) : (s.updAt s.cur.src f).me = f s.me := s.me_upd f

theorem onlyTraffic_trans {d e f : Die} (h : OnlyTraffic d e) (g : OnlyTraffic e f) : OnlyTraffic d f := by
  unfold OnlyTraffic at *
  conv_rhs => rw [← h, ← g]

/-- A scalar access before its register is written: no scalar register and no place in the program has changed. -/
structure Beside (s t : State) : Prop where
  side : OnlyMemorySide s t
  others : ∀ j, j ≠ s.cur.src → t.strand j = s.strand j
  me : { t.me with ssq := s.me.ssq, buf := s.me.buf, fsvMarks := s.me.fsvMarks } = s.me

namespace Beside
variable {s t u : State}

theorem refl (s : State) : Beside s s := ⟨⟨rfl, fun _ => rfl⟩, fun _ _ => rfl, rfl⟩

theorem cur (h : Beside s t) : t.cur = s.cur := (congrArg State.cur h.side.1 :)

theorem contexts (h : Beside s t) : t.contexts = s.contexts := (congrArg State.contexts h.side.1 :)

theorem trans (h : Beside s t) (g : Beside t u) : Beside s u := by
  refine ⟨⟨?_, fun d => onlyTraffic_trans (h.side.2 d) (g.side.2 d)⟩, fun j hj => ?_, ?_⟩
  · conv_rhs => rw [← h.side.1, ← g.side.1]
  · exact (g.others j (by rw [h.cur]; exact hj)).trans (h.others j hj)
  · conv_rhs => rw [← h.me, ← g.me]

theorem of_traffic (h : Traffic s t) : Beside s t := by
  have hstrands : t.strands = s.strands := (congrArg State.strands h.1 :)
  have hstrand (j : Nat) : t.strand j = s.strand j := by rw [State.strand, hstrands]; rfl
  have hcur : t.cur = s.cur := (congrArg State.cur h.1 :)
  have hme : t.me = s.me := by rw [State.me, hcur, hstrand]; rfl
  refine ⟨⟨(congrArg (fun v : State => { v with strands := s.strands }) h.1 :), fun d => ?_⟩, fun j _ => hstrand j, by rw [hme]⟩
  exact (congrArg (fun e : Die => { e with tlb := (s.die d).tlb, l1Tlb := (s.die d).l1Tlb, fmCache := (s.die d).fmCache }) (h.2 d) :)

theorem cacheXl (s : State) (die ctx : Nat) (va : Word) (x : Xl) (core : Option Nat) : Beside s (s.cacheXl die ctx va x core) := by
  obtain ⟨honly, hdies⟩ := s.cacheXl_only die ctx va x core
  refine ⟨⟨(congrArg (fun v : State => { v with strands := s.strands }) honly :), fun d => ?_⟩, fun _ _ => rfl, rfl⟩
  exact (congrArg (fun e : Die => { e with
    counters := (s.die d).counters, crossings := (s.die d).crossings, moves := (s.die d).moves, periodStart := (s.die d).periodStart,
    periodLen := (s.die d).periodLen, clock := (s.die d).clock }) (hdies d) :)

theorem see (s : State) (src : Nat) (va : Word) (x : Xl) : Beside s (s.see src va x) := .cacheXl s _ _ va x _

/-- The stores under way of the executing strand are set. -/
theorem upd (s : State) {f : Strand → Strand}
    (hf : ∀ t : Strand, { f t with ssq := t.ssq, buf := t.buf, fsvMarks := t.fsvMarks } = t) : Beside s (s.updAt s.cur.src f) :=
  ⟨⟨rfl, fun _ => rfl⟩, fun j hj => State.strand_updAt_ne _ _ _ _ hj, by rw [me_updAt]; exact hf s.me⟩

variable (h : Beside s t)
include h

theorem rd (n : BitVec 5) : t.rd n = s.rd n := by
  have hs : t.me.s = s.me.s := (congrArg Strand.s h.me :)
  simp only [State.rd, Strand.reg, hs]

/-- The access writes its register, and the strand goes on. -/
theorem wrNext (sd : BitVec 5) (w : Word) : AccessStep s (t.wrNext sd w) sd := by
  obtain ⟨⟨-, hothers⟩, -, hscalars, ⟨hregs, hzero⟩, hruns⟩ := scalarStep_wrNext t sd w
  refine ⟨⟨h.side.1, h.side.2⟩, fun j hj => ?_, ?_, ⟨fun n hn => (hregs n hn).trans (h.rd n), hzero⟩, ?_⟩
  · exact (hothers j (by rw [h.cur]; exact hj)).trans (h.others j hj)
  · have hscalars' : { (t.wrNext sd w).me with
        s := t.me.s, pc := t.me.pc, st := t.me.st, wait := t.me.wait, scalarExempt := t.me.scalarExempt } = t.me := hscalars
    conv_rhs => rw [← h.me, ← hscalars']
    have hme := h.me
    have hs : t.me.s = s.me.s := (congrArg Strand.s hme :)
    have hpc : t.me.pc = s.me.pc := (congrArg Strand.pc hme :)
    have hst : t.me.st = s.me.st := (congrArg Strand.st hme :)
    have hwait : t.me.wait = s.me.wait := (congrArg Strand.wait hme :)
    have hexempt : t.me.scalarExempt = s.me.scalarExempt := (congrArg Strand.scalarExempt hme :)
    rw [hs, hpc, hst, hwait, hexempt]
  · have hpc : t.me.pc = s.me.pc := (congrArg Strand.pc h.me :)
    rwa [hpc] at hruns

theorem goNext : AccessStep s t.goNext 0 := h.wrNext 0 0

/-- A strand whose access only this changed is still there. -/
theorem not_gone : s.gone t s.cur.src = false := by
  have hme : t.strand s.cur.src = t.me := by rw [State.me, h.cur]
  have hst : (t.strand s.cur.src).st = (s.strand s.cur.src).st := hme ▸ (congrArg Strand.st h.me :)
  have hrolls : (t.strand s.cur.src).rolls = (s.strand s.cur.src).rolls := hme ▸ (congrArg Strand.rolls h.me :)
  simp [State.gone, hst, hrolls, State.context, h.contexts]

end Beside

/-! ## The bookkeeping of a load (R208, R218, R280) -/

/-- A count takes nothing from the entries of the buffer. -/
theorem overwrite_of_empty {n : BufLine} (h : n.mask = 0) (buf : List BufLine) : overwrite buf n = buf := by
  have hkept (c : BufLine) : c.without n.mask = c := by
    have hmask : c.mask &&& ~~~n.mask = c.mask := by rw [h]; exact BitVec.and_allOnes
    rw [BufLine.without, hmask]
  simp [overwrite, hkept]

/-- A count that joins the buffer leaves the work of its entries. -/
theorem work_bufPut {n : BufLine} (hop : n.op = .count) (hmask : n.mask = 0) (buf : List BufLine) :
    (bufPut buf n).filter (fun b => b.op != .count) = buf.filter (fun b => b.op != .count) := by
  have hcount (b : BufLine) (hb : b.op = .count) (l : List BufLine) :
      (b :: l).filter (fun b => b.op != .count) = l.filter (fun b => b.op != .count) :=
    List.filter_cons_of_neg (by rw [hb]; exact Bool.false_ne_true)
  induction buf with
  | nil => exact hcount n hop []
  | cons b r ih =>
    unfold bufPut
    split
    · rw [overwrite_of_empty hmask]
      exact hcount n hop _
    split
    next hjoins =>
      have hb : b.op = .count := by
        simp only [BufLine.joins, Bool.and_eq_true, beq_iff_eq] at hjoins
        rw [hjoins.1.1.2, hop]
      rw [overwrite_of_empty hmask]
      exact (hcount (b.join n) hb r).trans (hcount b hb r).symm
    · simp only [List.filter_cons, ih]

/-- A load was translated and counted: the strand's stores under way do what they did. -/
structure Touched (s t : State) : Prop extends Beside s t where
  queued : queuedStores t.me = queuedStores s.me
  work : bufferedWork t.me = bufferedWork s.me
  bytes : t.mem = s.mem ∧ t.counted = s.counted ∧ t.l1 = s.l1 ∧ t.msc = s.msc

namespace Touched

theorem trans {s t u : State} (h : Touched s t) (g : Touched t u) : Touched s u := by
  obtain ⟨hmem, hcounted, hl1, hmsc⟩ := h.bytes
  obtain ⟨gmem, gcounted, gl1, gmsc⟩ := g.bytes
  exact ⟨h.toBeside.trans g.toBeside, g.queued.trans h.queued, g.work.trans h.work,
    gmem.trans hmem, gcounted.trans hcounted, gl1.trans hl1, gmsc.trans hmsc⟩

theorem see (s : State) (src : Nat) (va : Word) (x : Xl) : Touched s (s.see src va x) :=
  ⟨.see s src va x, rfl, rfl, rfl, rfl, rfl, rfl⟩

theorem countAccess (s : State) (die src : Nat) (x : Xl) : Touched s (s.countAccess die src x) := by
  obtain h | ⟨d, hd, h⟩ := s.countAccess_cases die src x
  · rw [h]; exact ⟨.refl s, rfl, rfl, rfl, rfl, rfl, rfl⟩
  · rw [h]; exact ⟨.of_traffic (.setDie die d hd), rfl, rfl, rfl, rfl, rfl, rfl⟩

theorem countAfter (s : State) (strip : Option Nat) (fa : Nat) (f : Fme) : Touched s (s.countAfter s.cur.src strip fa f) := by
  obtain h | ⟨n, hop, hmask, h⟩ := s.countAfter_cases s.cur.src strip fa f
  · rw [h]; exact .countAccess s _ _ _
  · have hme : (s.updAt s.cur.src (fun t => { t with buf := bufPut t.buf n })).me = { s.me with buf := bufPut s.me.buf n } :=
      me_updAt s _
    rw [h]
    exact ⟨.upd s (f := fun t => { t with buf := bufPut t.buf n }) (fun _ => rfl), by rw [hme]; rfl,
      by rw [hme]; exact work_bufPut hop hmask s.me.buf, rfl, rfl, rfl, rfl⟩

/-- Loads counted behind the youngest queued store. -/
theorem countBehindQueue (s : State) (fa : Nat) : Touched s (s.updAt s.cur.src (fun t =>
    { t with ssq := t.ssq.zipIdx.map (fun (q, i) => if i + 1 = t.ssq.length then { q with after := q.after ++ [fa] } else q) })) := by
  refine ⟨.upd s (fun _ => rfl), ?_, ?_, rfl, rfl, rfl, rfl⟩
  · rw [me_updAt]
    have hcore : ∀ a : QStore × Nat, (fun q : QStore => { q with after := [] })
        (if a.2 + 1 = s.me.ssq.length then { a.1 with after := a.1.after ++ [fa] } else a.1) = { a.1 with after := [] } := fun a => by
      split <;> rfl
    rw [queuedStores, List.map_map, queuedStores]
    conv_rhs => rw [← List.zipIdx_map_fst 0 s.me.ssq, List.map_map]
    exact List.map_congr_left fun a _ => hcore a
  · rw [me_updAt]; rfl

theorem touchScalar (s : State) (va : Word) (x : Xl) : Touched s (s.touchScalar s.cur.src va x) := by
  unfold State.touchScalar
  dsimp only
  split
  · exact (see s s.cur.src va x).trans (.countBehindQueue (s.see s.cur.src va x) x.fa)
  · exact (see s s.cur.src va x).trans (.countAfter (s.see s.cur.src va x) _ _ _)

end Touched

/-- Where the die's tracker does not count a frame, the bookkeeping of a scalar load is the caching of its translation. -/
theorem touchScalar_untracked {s : State} {src : Nat} {va : Word} {x : Xl} (h : (s.die (dieOf src)).tracks x.fme = false) :
    s.touchScalar src va x = s.see src va x := by
  have hdie := (s.cacheXl_only (dieOf src) (s.ctxOf src) va x (some (coreOf src))).2 (dieOf src)
  have htrkcfg : ((s.see src va x).die (dieOf src)).trkcfg = (s.die (dieOf src)).trkcfg := (congrArg Die.trkcfg hdie :)
  have hsee : ((s.see src va x).die (dieOf src)).tracks x.fme = false := by rw [← h, Die.tracks, htrkcfg]; rfl
  simp [State.touchScalar, State.countAfter, State.countAccess, hsee]

/-! ## The value that a load brings (R144, R146, R229) -/

theorem overlay_length (bs : List Byte) (key : Nat) (w : List (Nat × Byte)) : (overlay bs key w).length = bs.length := by
  rw [overlay, List.length_map, List.length_zipIdx]

theorem overlay_nil (bs : List Byte) (key : Nat) : overlay bs key [] = bs := by
  simp [overlay]

theorem readFor_length (s : State) (src : Nat) (p : Place) (n : Nat) : (s.readFor src p n).length = n := by
  have hplace : (s.readPlace p n).length = n := Memory.readBytes_length _ _ _
  unfold State.readFor
  dsimp only
  split
  · exact hplace
  · rw [List.length_map, List.length_zipIdx, hplace]

theorem scalarBytes_length (s : State) (x : Xl) (p : Place) (n : Nat) : (s.scalarBytes x p n).length = n := by
  rw [State.scalarBytes, State.queueBytes, overlay_length]
  unfold State.loadBytes
  dsimp only
  split
  · exact readFor_length _ _ _ _
  · rw [List.length_map, List.length_zipIdx, readFor_length]

/-- A strand with no store of its own under way reads memory. -/
theorem scalarBytes_of_quiet {s : State} (hssq : s.me.ssq = []) (hbuf : s.me.buf = []) (hfly : s.flyWrites = []) (x : Xl) (p : Place) (n : Nat) :
    s.scalarBytes x p n = Memory.readBytes s.mem p.key n := by
  have hssq' : (s.strand s.cur.src).ssq = [] := hssq
  have hbuf' : (s.strand s.cur.src).buf = [] := hbuf
  have hread : s.readFor s.cur.src p n = Memory.readBytes s.mem p.key n := by rw [State.readFor, hfly]; rfl
  have hload : s.loadBytes s.cur.src x p n = Memory.readBytes s.mem p.key n := by rw [State.loadBytes, hbuf', ← hread]
  rw [State.scalarBytes, State.queueBytes, hssq', hload]
  exact overlay_nil _ _

theorem pow_256 (n : Nat) : 256 ^ n = 2 ^ (8 * n) := by rw [Nat.pow_mul]

theorem toSigned_eq_extended {n v : Nat} (h : v < 2 ^ (8 * n)) : toSigned (8 * n) v = extended true n v := by
  have hpow : ((2 ^ (8 * n) : Nat) : Int) = 2 ^ (8 * n) := by push_cast; rfl
  rw [toSigned, extended, Nat.mod_eq_of_lt h, hpow]
  by_cases hneg : 2 ^ (8 * n) ≤ 2 * v
  · rw [if_neg (by omega), if_pos (by simpa using hneg)]
  · rw [if_pos (by omega), if_neg (by simpa using hneg)]

/-- The word that a load brings. -/
theorem loaded_toNat (signed : Bool) {n v : Nat} (h : v < 2 ^ (8 * n)) :
    (if signed then BitVec.ofInt 64 (toSigned (8 * n) v) else BitVec.ofNat 64 v : Word).toNat = wrap64 (extended signed n v) := by
  cases signed with
  | true => rw [if_pos rfl, toSigned_eq_extended h, toNat_ofInt_wrap64]
  | false => exact toNat_eq_wrap64 (BitVec.ofInt_natCast 64 v).symm

/-- Reading lines leaves the caches, the strands, and, where no line carries a reader count, memory (R238). -/
theorem readLines_one (s : State) (die : Nat) (p : Place) : (s.readLines die [p]).strands = s.strands ∧ (s.readLines die [p]).l1 = s.l1 ∧
    (s.readLines die [p]).msc = s.msc ∧ (s.counted.find (lineOf p.key) = none → (s.readLines die [p]).mem = s.mem) := by
  have hmeet (t : State) : (t.meetLines die [p]).l1 = t.l1 ∧ (t.meetLines die [p]).msc = t.msc ∧ (t.meetLines die [p]).mem = t.mem := by
    show ((t.clockFrom die p).seeLine (lineOf p.key)).l1 = t.l1 ∧ ((t.clockFrom die p).seeLine (lineOf p.key)).msc = t.msc ∧
      ((t.clockFrom die p).seeLine (lineOf p.key)).mem = t.mem
    unfold State.seeLine State.clockFrom
    split <;> split <;> exact ⟨rfl, rfl, rfl⟩
  obtain ⟨hl1, hmsc, hmem⟩ := hmeet (s.countReads [lineOf p.key])
  have hcounts := s.countReads_only [lineOf p.key]
  refine ⟨(congrArg State.strands (s.readLines_traffic die [p]).1 :), hl1.trans (congrArg State.l1 hcounts :),
    hmsc.trans (congrArg State.msc hcounts :), fun hfree => hmem.trans (congrArg State.mem ?_)⟩
  have hone : [lineOf p.key].dedup.foldl State.countRead s = s := State.countRead_none s _ hfree
  rw [State.countReads, hone, ite_self]

/-- A scalar load that reaches its place completes. -/
theorem loads_of_exec {i : Instr} {s : State} {sd : BitVec 5} {va : Word} {n : Nat} {signed : Bool}
    (hexec : exec i s = s.loadInto sd va n signed) : Loads i s sd va n signed := by
  intro x p hm hreach
  have htouch := Touched.touchScalar s va x
  obtain ⟨u, hu⟩ : ∃ u, u = s.touchScalar s.cur.src va x := ⟨_, rfl⟩
  rw [← hu] at htouch
  obtain ⟨t, ht⟩ : ∃ t, t = u.readLines (dieOf s.cur.src) [p] := ⟨_, rfl⟩
  obtain ⟨hmem, hcounted, hl1, hmsc⟩ := htouch.bytes
  obtain ⟨hstrands, tl1, tmsc, tmem⟩ := readLines_one u (dieOf s.cur.src) p
  rw [← ht] at hstrands tl1 tmsc tmem
  have hbeside : Beside s t := htouch.toBeside.trans (.of_traffic (ht ▸ u.readLines_traffic _ _))
  have hme : t.me = u.me := by rw [State.me, State.strand, hstrands, hbeside.cur, ← htouch.toBeside.cur]; rfl
  have hlt : leNat (s.scalarBytes x p n) < 2 ^ (8 * n) := by
    have h := leNat_lt (s.scalarBytes x p n)
    rwa [scalarBytes_length, pow_256] at h
  have hdone (w : Word) : (t.wrNext sd w).me.ssq = u.me.ssq ∧ (t.wrNext sd w).me.buf = u.me.buf := by
    rw [State.me_wrNext, hme]
    unfold Strand.setReg
    split <;> exact ⟨rfl, rfl⟩
  refine ⟨t.wrNext sd (if signed then BitVec.ofInt 64 (toSigned (8 * n) (leNat (s.scalarBytes x p n)))
    else BitVec.ofNat 64 (leNat (s.scalarBytes x p n))), ?_, hbeside.wrNext _ _, ?_, ?_, fun huntracked => ?_, tl1.trans hl1, tmsc.trans hmsc,
    fun hfree a => ?_, fun hsd => ?_, fun hssq hbuf hfly => ?_⟩
  · rw [hexec, State.loadInto, scalarAccess_of_reaches (by simp) hreach, ht, hu]
  · rw [queuedStores, (hdone _).1]; exact htouch.queued
  · rw [bufferedWork, (hdone _).2]; exact htouch.work
  · rw [(hdone _).1, (hdone _).2, hu, touchScalar_untracked huntracked]
    exact ⟨rfl, rfl⟩
  · show Memory.read t.mem a = _
    rw [tmem (by rw [hcounted]; exact hfree), hmem]
  · rw [State.rd_wrNext, if_neg hsd, if_pos rfl]
    exact loaded_toNat signed hlt
  · rw [scalarBytes_of_quiet hssq hbuf hfly, leNat_readBytes s hm]

end Machine

theorem scalarLoadResults : ScalarLoadResults := by
  intro s x
  exact ⟨loads_of_exec rfl, loads_of_exec rfl, loads_of_exec rfl, loads_of_exec rfl, loads_of_exec rfl, loads_of_exec rfl, loads_of_exec rfl⟩

end Sys2Proof
end

section
/-! PROOFS. Scalar atomics (R147): the value written, computed on integers, and the old value returned. -/

namespace Sys2Proof
open Machine Claims
namespace Machine

/-! ## Numbers in memory (R2) -/

theorem memNat_lt {s : State} (hm : MemOk s) (k n : Nat) : memNat s k n < 2 ^ (8 * n) := by
  have h := leNat_lt (Memory.readBytes s.mem k n)
  rwa [leNat_readBytes s hm, Memory.readBytes_length, pow_256] at h

section
variable {s t : State} (hm : MemOk s) {k n x : Nat} (ht : t.mem = Memory.writeBytes s.mem k (leBytes n x))
include hm ht

/-- A number that was written is read back. -/
theorem memNat_of_writeBytes : memNat t k n = x % 2 ^ (8 * n) := by
  have hbytes : memNat t k (leBytes n x).length = leNat (leBytes n x) := memNat_of_bytes fun i hi => by
    rw [ht, Memory.read_writeBytes _ hm, if_pos (by omega), Nat.add_sub_cancel_left]
  rwa [leBytes_length, leNat_leBytes, pow_256] at hbytes

theorem memSameBut_of_writeBytes : MemSameBut s t k n := fun a ha => by
  rw [ht, Memory.read_writeBytes _ hm, leBytes_length, if_neg (by omega)]

end

/-! ## The operations (R147) -/

theorem extended_injective {n a b : Nat} (ha : a < 2 ^ (8 * n)) (hb : b < 2 ^ (8 * n)) (h : extended true n a = extended true n b) : a = b := by
  rw [← toSigned_eq_extended ha, ← toSigned_eq_extended hb, toSigned_eq_sgn ha, toSigned_eq_sgn hb] at h
  exact sgn_injective ha hb h

section
variable {n o b : Nat} (ho : o < 2 ^ (8 * n)) (hb : b < 2 ^ (8 * n)) (e : Nat)
include ho hb

theorem amoNew_min : amoNew 3 (8 * n) o b e = if extended true n b < extended true n o then b else o := by
  rw [amoNew, toSigned_eq_extended ho, toSigned_eq_extended hb]
  by_cases h : extended true n o ≤ extended true n b
  · rw [if_pos h, if_neg (by omega)]
  · rw [if_neg h, if_pos (by omega)]

theorem amoNew_max : amoNew 4 (8 * n) o b e = if extended true n o < extended true n b then b else o := by
  rw [amoNew, toSigned_eq_extended ho, toSigned_eq_extended hb]
  rcases lt_trichotomy (extended true n o) (extended true n b) with h | h | h
  · rw [if_pos (by omega), if_pos h]
  · rw [if_pos (by omega), if_neg (by omega), extended_injective ho hb h]
  · rw [if_neg (by omega), if_neg (by omega)]

end

theorem ite_lt_of_lt {c : Prop} [Decidable c] {a b m : Nat} (ha : a < m) (hb : b < m) : (if c then a else b) < m := by
  split
  · exact ha
  · exact hb

/-! ## An atomic with nothing of the strand pending -/

section
variable {s : State} {x : AmoOp} {p : Place} (hssq : s.me.ssq = []) (hstrip : s.me.openStrip = none) (hfly : s.flying s.cur.src = false)
include hssq hstrip hfly

/-- What an atomic does that nothing of its strand keeps waiting. -/
theorem amoAt_of_quiet (op : Nat) (xl : Xl) {n : Nat} (hn : n = if x.wide = 1 then 8 else 4) {u : State} {old : Nat}
    (hu : (readsMade s (releases x.order)).atomicAt (s.rd x.sa) p n op ((s.rd x.sb).toNat % 2 ^ (8 * n)) ((s.rd x.sd).toNat % 2 ^ (8 * n)) =
      (u, old)) :
    s.amoAt x op xl p = (u.touchScalar u.cur.src (s.rd x.sa) xl).wrNext x.sd (BitVec.ofInt 64 (toSigned (8 * n) old)) := by
  have hquiet (k : State → State) : s.withStripEvent 1 k = k s := by
    rw [State.withStripEvent, State.stripEventOr, hssq, hstrip]
    rfl
  have hreg (r : BitVec 5) : (readsMade s (releases x.order)).rd r = s.rd r := by
    unfold readsMade
    split
    · obtain ⟨l, hl⟩ := me_fixReads s
      rw [State.rd, hl]; rfl
    · rfl
  subst hn
  rw [← hreg x.sb, ← hreg x.sd, readsMade] at hu
  simp only [State.amoAt, hquiet, hfly, Bool.false_eq_true, if_false]
  rw [hu]

end

/-- A scalar atomic whose operation computes `new` completes. -/
theorem swaps_of_exec {i : Instr} {s : State} {x : AmoOp} {op : Nat} {new : Nat → Nat → Nat → Nat → Nat} (hexec : exec i s = s.amo x op)
    (hnew : ∀ n o b e, o < 2 ^ (8 * n) → b < 2 ^ (8 * n) → amoNew op (8 * n) o b e = new n o b e ∧ new n o b e < 2 ^ (8 * n)) :
    Swaps i s x new := by
  unfold Swaps
  intro n va xl p hm hreach hssq hstrip hfly hperformed _ howed
  obtain ⟨v, hv⟩ : ∃ v, v = readsMade s (releases x.order) := ⟨_, rfl⟩
  have hmem : v.mem = s.mem := by rw [hv, readsMade]; split <;> rfl
  have hmade : MemOk v ∧ NoneOwed v p := by
    rw [hv, readsMade]
    split <;> exact ⟨hm, howed⟩
  have hsame : memNat v p.key n = memNat s p.key n := by
    rw [← leNat_readBytes v hmade.1, hmem, leNat_readBytes s hm]
  obtain ⟨hold, htraffic, hwritten⟩ := atomicAt_of_noneOwed (s := v) hmade.2 hmade.1 va n op ((s.rd x.sb).toNat % 2 ^ (8 * n))
    ((s.rd x.sd).toNat % 2 ^ (8 * n))
  obtain ⟨⟨u, old⟩, hu⟩ : ∃ r, r = v.atomicAt va p n op ((s.rd x.sb).toNat % 2 ^ (8 * n)) ((s.rd x.sd).toNat % 2 ^ (8 * n)) :=
    ⟨_, rfl⟩
  rw [← hu] at hold htraffic hwritten
  obtain ⟨hcomputed, hbound⟩ := hnew n (memNat s p.key n) ((s.rd x.sb).toNat % 2 ^ (8 * n)) ((s.rd x.sd).toNat % 2 ^ (8 * n))
    (memNat_lt hm _ _) (Nat.mod_lt _ (Nat.two_pow_pos _))
  rw [hsame, hmem, hcomputed] at hwritten
  have htouch := Touched.touchScalar u va xl
  have hbeside := (Beside.of_traffic htraffic).trans htouch.toBeside
  have hbytes : ((u.touchScalar u.cur.src va xl).wrNext x.sd (BitVec.ofInt 64 (toSigned (8 * n) old))).mem =
      Memory.writeBytes s.mem p.key (leBytes n
        (new n (memNat s p.key n) ((s.rd x.sb).toNat % 2 ^ (8 * n)) ((s.rd x.sd).toNat % 2 ^ (8 * n)))) :=
    htouch.bytes.1.trans hwritten
  refine ⟨_, ?_, hv ▸ hbeside.wrNext x.sd (BitVec.ofInt 64 (toSigned (8 * n) old)), fun hsd => ?_, ?_, memSameBut_of_writeBytes hm hbytes⟩
  · rw [hexec, amo_of_performed hperformed, scalarAccess_of_reaches (by simp) hreach,
      amoAt_of_quiet hssq hstrip hfly op xl rfl (hv ▸ hu.symm)]
  · rw [State.rd_wrNext, if_neg hsd, if_pos rfl, show old = memNat s p.key n from hold.trans hsame, toNat_ofInt_wrap64,
      toSigned_eq_extended (memNat_lt hm _ _)]
  · rw [memNat_of_writeBytes hm hbytes, Nat.mod_eq_of_lt hbound]

end Machine

/-- Settles O7: each operation computes the statement's function of the old value and the operand, and one read and write at the place
returns the old value. -/
theorem scalarAtomicResults : Obligations.ScalarAtomicResults := by
  intro s x sg
  refine ⟨swaps_of_exec (op := 0) rfl ?add, swaps_of_exec (op := 1) rfl ?swap, swaps_of_exec (op := 2) rfl ?cas,
    swaps_of_exec (op := 3) rfl ?min, swaps_of_exec (op := 4) rfl ?max, swaps_of_exec (op := 5) rfl ?minn, swaps_of_exec (op := 6) rfl ?maxn,
    swaps_of_exec (op := 7) rfl ?and, swaps_of_exec (op := 8) rfl ?or, swaps_of_exec (op := 9) rfl ?xor⟩
  case add => exact fun n o b e _ _ => ⟨rfl, Nat.mod_lt _ (Nat.two_pow_pos _)⟩
  case swap => exact fun n o b e _ hb => ⟨rfl, hb⟩
  case cas => exact fun n o b e ho hb => ⟨rfl, ite_lt_of_lt hb ho⟩
  case min => exact fun n o b e ho hb => ⟨amoNew_min ho hb e, ite_lt_of_lt hb ho⟩
  case max => exact fun n o b e ho hb => ⟨amoNew_max ho hb e, ite_lt_of_lt hb ho⟩
  case minn => exact fun n o b e ho _ => ⟨(Nat.min_def).symm, Nat.lt_of_le_of_lt (Nat.min_le_left o b) ho⟩
  case maxn => exact fun n o b e ho hb => ⟨(Nat.max_def).symm, Nat.max_lt.mpr ⟨ho, hb⟩⟩
  case and => exact fun n o b e _ hb => ⟨rfl, Nat.and_lt_two_pow o hb⟩
  case or => exact fun n o b e ho hb => ⟨rfl, Nat.or_lt_two_pow ho hb⟩
  case xor => exact fun n o b e ho hb => ⟨rfl, Nat.xor_lt_two_pow ho hb⟩

end Sys2Proof
end

section
/-! PROOFS. Scalar stores (R144, R146, R229): the place, the bytes of the line, and when the store waits or is buffered. -/

namespace Sys2Proof
open Machine Claims
namespace Machine

/-! ## Where a store goes (R205) -/

theorem resolve_secure {s : State} {die fa : Nat} {secure : Bool} {acc : Access} {x : Xl} (h : s.resolve die secure acc fa = .ok x) :
    s.resolve die true acc fa = .ok x := by
  unfold State.resolve State.resolveAs at *
  dsimp only at *
  split at h
  · cases h
  next hbad =>
  split at h
  · cases h
  next =>
  rw [if_neg hbad, if_neg (by simp)]
  exact h

/-- A translation that names a place resolves its own address, which lies as the virtual one does in its page, and so does the place. -/
theorem resolve_of_translate {s : State} (hs : StateOk s) {die ctx : Nat} {secure : Bool} {acc : Access} {va : Word} {core : Option Nat} {x : Xl}
    {p : Place} (h : s.translate die ctx secure acc va core = .ok x) (hp : x.place = some p) :
    s.resolve die true acc x.fa = .ok x ∧ x.fa % 65536 = va.toNat % 65536 ∧ p.key % 65536 = x.fa % 65536 := by
  unfold State.translate at h
  split at h
  · cases h
  split at h
  · cases h
  next e he =>
  split at h
  · cases h
  have hpage := State.pageOf_page hs he
  obtain ⟨hplace, -, -, hfa⟩ := resolveAs_spec h hp
  obtain ⟨base, hbase, hkey⟩ := place_key (f := s.fme die ((e.frameAt (va.toNat / 65536) + va.toNat % 65536) / 65536)) (die := die)
  have hpkey := hkey _ _ (Nat.mod_lt _ (by omega)) hplace
  refine ⟨by rw [hfa]; exact resolve_secure h, ?_, by omega⟩
  rw [hfa, TlbEntry.frameAt]
  omega

/-- Caching a translation moves no frame (R208). -/
theorem resolve_cacheXl (s : State) (d ctx : Nat) (va : Word) (x : Xl) (core : Option Nat) (die : Nat) (secure : Bool) (acc : Access) (fa : Nat) :
    (s.cacheXl d ctx va x core).resolve die secure acc fa = s.resolve die secure acc fa := by
  have hdies := (s.cacheXl_only d ctx va x core).2
  have hregions (k : Nat) : ((s.cacheXl d ctx va x core).die k).regions = (s.die k).regions := (congrArg Die.regions (hdies k) :)
  have hlostPcs (k : Nat) : ((s.cacheXl d ctx va x core).die k).lostPcs = (s.die k).lostPcs := (congrArg Die.lostPcs (hdies k) :)
  have hwindows : ((s.cacheXl d ctx va x core).die die).windows = (s.die die).windows := (congrArg Die.windows (hdies die) :)
  have hregion : (s.cacheXl d ctx va x core).regionSecure = s.regionSecure := funext fun p => by simp only [State.regionSecure, hregions]
  have hlost : (s.cacheXl d ctx va x core).placeLost die = s.placeLost die := funext fun p => by
    cases p with
    | host a => simp only [State.placeLost, State.portOf, hwindows]; rfl
    | _ => simp only [State.placeLost, hlostPcs]
  simp only [State.resolve, State.resolveAs, fme_cacheXl, hregion, hlost]
  rfl

theorem placeBusy_cacheXl (s : State) (d ctx : Nat) (va : Word) (x : Xl) (core : Option Nat) (p : Place) :
    (s.cacheXl d ctx va x core).placeBusy p = s.placeBusy p := by
  have hdies := (s.cacheXl_only d ctx va x core).2
  have hcopying (k : Nat) : ((s.cacheXl d ctx va x core).die k).spareCopying = (s.die k).spareCopying :=
    (congrArg Die.spareCopying (hdies k) :)
  have hspare (k : Nat) : ((s.cacheXl d ctx va x core).die k).spareFor = (s.die k).spareFor := (congrArg Die.spareFor (hdies k) :)
  cases p <;> simp only [State.placeBusy, hcopying, hspare]

/-! ## The bytes of a line that a store writes (R2, R181, R222) -/

theorem getLsbD_lineMask {k : Nat} (hk : k < 128) (o n : Nat) : (lineMask o n).getLsbD k = decide (2 * o ≤ k ∧ k < 2 * o + 2 * n) := by
  rw [lineMask, BitVec.getLsbD_ofNat, Nat.testBit_mul_two_pow, Nat.testBit_two_pow_sub_one, decide_eq_true hk, Bool.true_and, ← Bool.decide_and]
  congr 1
  rw [eq_iff_iff]
  omega

theorem toNat_lineData {o : Nat} {bs : List Byte} (h : o + bs.length ≤ 64) : (lineData o bs).toNat = leNat bs * 2 ^ (8 * o) := by
  have hlt := leNat_lt bs
  rw [pow_256] at hlt
  rw [lineData, BitVec.toNat_ofNat, Nat.mod_eq_of_lt]
  calc leNat bs * 2 ^ (8 * o) < 2 ^ (8 * bs.length) * 2 ^ (8 * o) := Nat.mul_lt_mul_of_pos_right hlt (Nat.two_pow_pos _)
    _ = 2 ^ (8 * bs.length + 8 * o) := (Nat.pow_add 2 _ _).symm
    _ ≤ 2 ^ 512 := Nat.pow_le_pow_right (by decide) (by omega)

theorem leNat_byte (bs : List Byte) (j : Nat) : leNat bs / 2 ^ (8 * j) % 256 = (bs.getD j 0).toNat := by
  induction bs generalizing j with
  | nil => simp [leNat]
  | cons b r ih =>
    have hb := b.isLt
    cases j with
    | zero => simp only [leNat, Nat.mul_zero, Nat.pow_zero, Nat.div_one, List.getD_cons_zero]; omega
    | succ j =>
      rw [Nat.mul_succ, Nat.pow_add, Nat.mul_comm (2 ^ (8 * j)), ← Nat.div_div_eq_div_mul, List.getD_cons_succ, ← ih j, leNat]
      congr 2
      omega

/-- Byte `i` of a line over which a store within it was written. -/
theorem lineByte_of_store {o i : Nat} {bs : List Byte} (h : o + bs.length ≤ 64) (hi : i < 64) (old : Byte) :
    lineByte (lineMask o bs.length) (lineData o bs) i old = if o ≤ i ∧ i < o + bs.length then bs.getD (i - o) 0 else old := by
  have hold := old.isLt
  unfold lineByte
  dsimp only
  rw [getLsbD_lineMask (by omega), getLsbD_lineMask (by omega), toNat_lineData h]
  by_cases hin : o ≤ i ∧ i < o + bs.length
  · rw [if_pos (by simp; omega), if_pos (by simp; omega), if_pos hin]
    have hshift : leNat bs * 2 ^ (8 * o) / 2 ^ (8 * i) = leNat bs / 2 ^ (8 * (i - o)) := by
      rw [show 8 * i = 8 * (i - o) + 8 * o by omega, Nat.pow_add]
      exact Nat.mul_div_mul_right _ _ (Nat.two_pow_pos _)
    have hbyte := leNat_byte bs (i - o)
    rw [hshift]
    refine BitVec.eq_of_toNat_eq ?_
    rw [BitVec.toNat_ofNat, ← hbyte]
    omega
  · rw [if_neg (by simp; omega), if_neg (by simp; omega), if_neg hin]
    refine BitVec.eq_of_toNat_eq ?_
    rw [BitVec.toNat_ofNat]
    omega

theorem read_writeLine {s : State} (hm : MemOk s) (core : Option Nat) (line : Nat) (m : BitVec 128) (d : BitVec 512) (a : Nat) :
    Memory.read (s.writeLine core line m d).mem a =
      if line * 64 ≤ a ∧ a < line * 64 + 64 then lineByte m d (a - line * 64) (Memory.read s.mem a) else Memory.read s.mem a := by
  have hlength : ((s.lineBytes line).zipIdx.map (fun (b, i) => lineByte m d i b)).length = 64 := by simp
  rw [State.writeLine_mem, Memory.read_writeBytes _ hm, hlength]
  split
  next hin =>
    obtain ⟨i, hi, rfl⟩ : ∃ i, i < 64 ∧ a = line * 64 + i := ⟨a - line * 64, by omega, by omega⟩
    rw [Nat.add_sub_cancel_left, State.lineBytes, Memory.readBytes_eq _ hm]
    simp [hi]
  next => rfl

/-! ## A store that is performed at once (R222, R268) -/

theorem performBits_now {s : State} {src : Nat} {p : Place} (hhome : p.home = dieOf src ∨ s.flyHold = false) (hfly : s.flying src = false)
    (howed : ∀ f ∈ s.flyWrites, s.owed (dieOf src) p f = false) (va : Word) (how : How) (m : BitVec 128) (d : BitVec 512) :
    ∃ (k : State) (core : Option Nat), k.mem = s.mem ∧ s.performBits src va p how m d = k.writeLine core (lineOf p.key) m d := by
  obtain ⟨u, hu⟩ : ∃ u, u = s.linkNote src (va + BitVec.ofNat 64 (maskFirst m)) (p.plus (maskFirst m)) := ⟨_, rfl⟩
  have honly : { u with ports := s.ports } = s := hu ▸ s.linkNote_only _ _ _ _
  have hwrites : u.flyWrites = s.flyWrites := (congrArg State.flyWrites honly :)
  have hdies : u.dies = s.dies := (congrArg State.dies honly :)
  have hhold : u.flyHold = s.flyHold := (congrArg State.flyHold honly :)
  have hnone : ∀ f ∈ u.flyWrites, u.owed (dieOf src) p f = false := fun f hf => by
    rw [← howed f (hwrites ▸ hf), State.owed, State.die, hdies]; rfl
  have hany : u.flyWrites.any (u.owed (dieOf src) p) = false := List.any_eq_false.mpr fun f hf => by simp [hnone f hf]
  have hflying : u.flying src = false := by rw [← hfly, State.flying, hwrites]; rfl
  have hstays : (decide (p.home ≠ dieOf src) && u.flyHold) = false := by
    rcases hhome with hhome | hhome
    · rw [decide_eq_false (not_not_intro hhome)]; rfl
    · rw [hhold, hhome, Bool.and_false]
  have hmem : (u.clockTo (dieOf src) p).mem = s.mem :=
    (congrArg State.mem (clockTo_spec hnone).1 :).trans (congrArg State.mem honly :)
  refine ⟨u.clockTo (dieOf src) p, u.l1For src (lineOf p.key) how.stream, hmem, ?_⟩
  unfold State.performBits
  dsimp only
  rw [← hu]
  exact if_neg (by rw [hstays, hflying, hany]; exact Bool.false_ne_true)

theorem line_home (p : Place) : p.line.home = p.home := by cases p <;> rfl

theorem lineOf_line (p : Place) : lineOf p.line.key = lineOf p.key := by
  cases p <;> simp only [Place.line, Place.key, lineOf] <;> omega

/-- Memory once a store within a line was performed at once. -/
theorem read_performBits {s : State} (hm : MemOk s) {src : Nat} {p : Place} {o : Nat} {bs : List Byte} (ho : p.key % 64 = o)
    (hfits : o + bs.length ≤ 64) (hhome : p.home = dieOf src ∨ s.flyHold = false) (hfly : s.flying src = false)
    (howed : ∀ f ∈ s.flyWrites, s.owed (dieOf src) p f = false) (va : Word) (how : How) (a : Nat) :
    Memory.read (s.performBits src va p.line how (lineMask o bs.length) (lineData o bs)).mem a =
      if p.key ≤ a ∧ a < p.key + bs.length then bs.getD (a - p.key) 0 else Memory.read s.mem a := by
  obtain ⟨k, core, hmem, hbits⟩ := performBits_now (p := p.line) (by rw [line_home]; exact hhome) hfly
    (fun f hf => by rw [← howed f hf, State.owed, State.owed, line_home]) va how (lineMask o bs.length) (lineData o bs)
  rw [hbits, read_writeLine (by rw [MemOk, hmem]; exact hm), lineOf_line, hmem]
  by_cases hline : lineOf p.key * 64 ≤ a ∧ a < lineOf p.key * 64 + 64
  · obtain ⟨hlow, hhigh⟩ := hline
    rw [lineOf] at hlow hhigh
    rw [if_pos ⟨hlow, hhigh⟩, lineOf, lineByte_of_store hfits (by omega)]
    by_cases hin : p.key ≤ a ∧ a < p.key + bs.length
    · rw [if_pos (by omega), if_pos hin, show a - p.key / 64 * 64 - o = a - p.key by omega]
    · rw [if_neg (by omega), if_neg hin]
  · rw [if_neg hline, if_neg (by rw [lineOf] at hline; omega)]

theorem countStores_mem (s : State) (src fa n : Nat) : (s.countStores src fa n).mem = s.mem := by
  induction n generalizing s with
  | zero => rfl
  | succ n ih => exact (ih _).trans (Touched.countAccess s _ _ _).bytes.1

/-! ## A store that leaves the queue (R229, R311) -/

theorem me_of_traffic {s t : State} (h : Traffic s t) : t.me = s.me := by
  have hstrands : t.strands = s.strands := (congrArg State.strands h.1 :)
  have hcur : t.cur = s.cur := (congrArg State.cur h.1 :)
  rw [State.me, State.strand, hstrands, hcur]
  rfl

/-- The stores under way of the executing strand are set behind an access. -/
theorem Beside.updAt {s t : State} (h : Beside s t) {f : Strand → Strand}
    (hf : ∀ t : Strand, { f t with ssq := t.ssq, buf := t.buf, fsvMarks := t.fsvMarks } = t) : Beside s (t.updAt s.cur.src f) := by
  rw [← h.cur]
  exact h.trans (.upd t hf)

section
variable (s : State) (va : Word) (fa : Nat) (rep : Option Nat) (p : Place) (how : How) (m : BitVec 128) (d : BitVec 512)

/-- A store outside a strip changes its memory side, and takes from the buffer what it overwrites (R278). -/
theorem storeNow_spec : Beside s (s.storeNow s.cur.src va fa rep p how m d) ∧
    (s.storeNow s.cur.src va fa rep p how m d).me.ssq = s.me.ssq ∧
    ((∀ b ∈ s.me.buf, b.fa ≠ fa) → (s.storeNow s.cur.src va fa rep p how m d).me.buf = s.me.buf) ∧
    (s.storeNow s.cur.src va fa rep p how m d).mem = (s.performBits s.cur.src va p how m d).mem := by
  obtain ⟨r, hr⟩ : ∃ r, r = (s.performBits s.cur.src va p how m d).countStores s.cur.src fa how.elems := ⟨_, rfl⟩
  have htraffic : Traffic s r := hr ▸ (s.performBits_traffic _ _ _ _ _ _).trans (State.countStores_traffic _ _ _ _)
  have hme := me_of_traffic htraffic
  have hcur : s.cur = r.cur := (Beside.of_traffic htraffic).cur.symm
  have hmem : r.mem = (s.performBits s.cur.src va p how m d).mem := by rw [hr, countStores_mem]
  unfold State.storeNow
  dsimp only
  rw [← hr]
  split
  next hany =>
    refine ⟨(Beside.of_traffic htraffic).updAt fun _ => rfl, ?_, fun hother => ?_, hmem⟩
    · rw [hcur, me_updAt, ← hme]
    · obtain ⟨b, hb, hsame⟩ := List.any_eq_true.mp hany
      have hbuf : (r.strand s.cur.src).buf = s.me.buf := by rw [← hme, hcur]; rfl
      rw [hbuf] at hb
      simp only [BufLine.sameLine, Bool.and_eq_true, beq_iff_eq] at hsame
      exact absurd hsame.1 (hother b hb)
  next => exact ⟨.of_traffic htraffic, by rw [hme], fun _ => by rw [hme], hmem⟩

/-- A store of a strip whose buffer has room enters the buffer. -/
theorem storeBits_spec {i : Nat} (hroom : s.me.buf.length < 512) : Beside s (s.storeBits s.cur.src (some i) va fa rep p how m d) ∧
    (s.storeBits s.cur.src (some i) va fa rep p how m d).me.ssq = s.me.ssq ∧
    (s.storeBits s.cur.src (some i) va fa rep p how m d).mem = s.mem := by
  have hlength : (bufAdd s.me.buf fa rep i va how m d).length ≤ 512 := by
    have h := bufAdd_length_le s.me.buf fa rep i va how m d
    omega
  have hfits : bufFits (bufAdd (s.strand s.cur.src).buf fa rep i va how m d) = true := by
    rw [bufFits, decide_eq_true (show (bufAdd (s.strand s.cur.src).buf fa rep i va how m d).length ≤ 512 from hlength), Bool.true_or]
  rw [State.storeBits_room _ _ _ _ _ _ _ _ _ _ hfits]
  exact ⟨.upd s fun _ => rfl, by rw [me_updAt], rfl⟩

/-- Either way of a store that no full buffer keeps (R311). -/
theorem storeBits_beside {strip : Option Nat} (hroom : strip = none ∨ s.me.buf.length < 512) :
    Beside s (s.storeBits s.cur.src strip va fa rep p how m d) ∧ (s.storeBits s.cur.src strip va fa rep p how m d).me.ssq = s.me.ssq := by
  cases strip with
  | none => exact ⟨(storeNow_spec s va fa rep p how m d).1, (storeNow_spec s va fa rep p how m d).2.1⟩
  | some i =>
    obtain ⟨hbeside, hssq, -⟩ := storeBits_spec s va fa rep p how m d (i := i) (hroom.resolve_left (by simp))
    exact ⟨hbeside, hssq⟩

end

/-- The only store of the queue is taken from it. -/
def Strand.queueTaken (t : Strand) : Strand := { t with ssq := [], fsvMarks := t.fsvMarks.map (fun m => { m with left := m.left - 1 }) }

/-- Of an empty queue, a store that goes to its place leaves at once. -/
theorem drain_one {s : State} {src : Nat} {q : QStore} {x : Xl} {p : Place} (hssq : (s.strand src).ssq = [q]) (hafter : q.after = [])
    (hheld : s.storeHeld src q = false) (hroom : (q.strip.isSome && s.overflowHeld src 1) = false)
    (hplace : (s.updAt src Strand.queueTaken).queuePlace src q = .ok (x, p))
    (hstays : (s.updAt src Strand.queueTaken).gone
      ((s.updAt src Strand.queueTaken).storeLine src q.strip q.va x p { kind := 3 } q.bytes) src = false) :
    s.drain src = (s.updAt src Strand.queueTaken).storeLine src q.strip q.va x p { kind := 3 } q.bytes := by
  have hone : s.drain src = s.drainOne src := by
    rw [State.drain, hssq]
    show s.drainAll src 1 = _
    rw [State.drainAll, hssq]
    rfl
  have htaken : s.updAt src (fun t => { t with ssq := [], fsvMarks := t.fsvMarks.map (fun m => { m with left := m.left - 1 }) }) =
      s.updAt src Strand.queueTaken := rfl
  rw [hone, State.drainOne]
  simp only [hssq, hheld, hroom, Bool.or_false, Bool.false_eq_true, if_false, htaken, hplace, hstays, hafter]
  rfl

/-! ## A store that passes its checks (R144, R146) -/

/-- A store joins the queue. -/
def Strand.storeQueued (va : Word) (fa : Nat) (bs : List Byte) (t : Strand) : Strand :=
  { t with ssq := t.ssq ++ [⟨va, fa, bs, t.openStrip, []⟩] }

/-- A store is translated and queued. -/
def State.storeQueued (s : State) (va : Word) (x : Xl) (bs : List Byte) : State :=
  (s.see s.cur.src va x).updAt s.cur.src (Strand.storeQueued va x.fa bs)

/-- The state in which a store, queued behind nothing, leaves the queue. -/
def State.storeSent (s : State) (va : Word) (x : Xl) (bs : List Byte) : State := (s.storeQueued va x bs).updAt s.cur.src Strand.queueTaken

section
variable {s : State} {va : Word} {x : Xl} {bs : List Byte}

theorem beside_storeQueued (s : State) (va : Word) (x : Xl) (bs : List Byte) : Beside s (s.storeQueued va x bs) :=
  (Beside.see s s.cur.src va x).updAt (f := Strand.storeQueued va x.fa bs) fun _ => rfl

theorem me_storeQueued (s : State) (va : Word) (x : Xl) (bs : List Byte) :
    (s.storeQueued va x bs).me = { s.me with ssq := s.me.ssq ++ [⟨va, x.fa, bs, s.me.openStrip, []⟩] } :=
  me_updAt (s.see s.cur.src va x) _

theorem beside_storeSent (s : State) (va : Word) (x : Xl) (bs : List Byte) : Beside s (s.storeSent va x bs) :=
  (beside_storeQueued s va x bs).updAt (f := Strand.queueTaken) fun _ => rfl

theorem me_storeSent (s : State) (va : Word) (x : Xl) (bs : List Byte) : (s.storeSent va x bs).me = s.me.queueTaken := by
  refine (me_updAt (s.storeQueued va x bs) Strand.queueTaken).trans ?_
  rw [me_storeQueued]
  rfl

/-- A store that the schedule does not hold is performed at once, or enters its strip's buffer (R146, R229). -/
theorem enqueueStore_of_reaches {p : Place} (hs : StateOk s) (hreach : Reaches s .write va bs.length x p) (hssq : s.me.ssq = [])
    (hold : s.me.hold = false) (hroom : s.me.openStrip = none ∨ s.me.buf.length < 512) :
    (s.see s.cur.src va x).enqueueStore va x bs =
      (s.storeSent va x bs).storeLine s.cur.src s.me.openStrip va x p { kind := 3 } bs := by
  obtain ⟨-, -, -, -, hx, hp, -, hw, hbusy, hclean, -⟩ := hreach
  obtain ⟨hresolve, -, -⟩ := resolve_of_translate hs hx hp
  obtain ⟨u, hu⟩ : ∃ u, u = s.storeQueued va x bs := ⟨_, rfl⟩
  have hme : u.me = { s.me with ssq := [⟨va, x.fa, bs, s.me.openStrip, []⟩] } := by rw [hu, me_storeQueued, hssq]; rfl
  have hcur : u.cur = s.cur := by rw [hu]; rfl
  have hstrand : u.strand s.cur.src = u.me := by rw [State.me, hcur]
  have hsame : SameReads (s.see s.cur.src va x) u := hu ▸ .updAt (s.see s.cur.src va x) _ _
  have hresolved : u.resolve (dieOf s.cur.src) true .write x.fa = .ok x := by
    rw [hsame.resolve, State.see, resolve_cacheXl, hresolve]
  have hfree : u.placeBusy p = false := by rw [hsame.placeBusy, State.see, placeBusy_cacheXl, hbusy]
  have htaken : SameReads u (u.updAt s.cur.src Strand.queueTaken) := .updAt _ _ _
  have hunpoisoned : (u.updAt s.cur.src Strand.queueTaken).poisoned p bs.length = false := by rw [hu, ← hclean]; rfl
  have hqueue : (s.see s.cur.src va x).enqueueStore va x bs = u.drain s.cur.src := by
    have hhold : ¬u.me.hold = true := by rw [hme, hold]; exact Bool.false_ne_true
    rw [← hcur]
    subst hu
    exact if_neg hhold
  have hsent : u.updAt s.cur.src Strand.queueTaken = s.storeSent va x bs := by rw [hu]; rfl
  have hbuf : (s.storeSent va x bs).me.openStrip = s.me.openStrip ∧ (s.storeSent va x bs).me.buf = s.me.buf := by
    rw [me_storeSent]; exact ⟨rfl, rfl⟩
  have hstays : (s.storeSent va x bs).gone ((s.storeSent va x bs).storeLine s.cur.src s.me.openStrip va x p { kind := 3 } bs) s.cur.src = false :=
    (storeBits_beside (s.storeSent va x bs) _ _ _ _ _ _ _ (by rw [hbuf.2]; exact hroom)).1.not_gone
  have hfull : (s.me.openStrip.isSome && u.overflowHeld s.cur.src 1) = false := by
    rcases hroom with hstrip | hlength
    · rw [hstrip]; rfl
    · have hlen : ¬512 < (u.strand s.cur.src).buf.length + 1 := by rw [hstrand, hme]; exact Nat.not_lt.mpr hlength
      rw [State.overflowHeld]
      simp only [decide_eq_false hlen, Bool.false_and, Bool.and_false]
  rw [hqueue, drain_one (x := x) (p := p) (q := ⟨va, x.fa, bs, s.me.openStrip, []⟩) (by rw [hstrand, hme]) rfl ?held hfull ?place
    (by rw [hsent]; exact hstays), hsent]
  case held => simp only [State.storeHeld, hresolved, hw rfl, hp, hfree, Bool.or_false]
  case place => simp only [State.queuePlace, htaken.resolve, hresolved, hp, hunpoisoned, Bool.false_eq_true, if_false]

/-- A store of a width that the scalar stores have lies within a line (R144). -/
theorem store_fits {n : Nat} (hn : n = 1 ∨ n = 2 ∨ n = 4 ∨ n = 8) (halign : va.toNat % n = 0) (hfa : x.fa % 65536 = va.toNat % 65536) :
    x.fa % 64 + n ≤ 64 := by
  rcases hn with rfl | rfl | rfl | rfl <;> omega

/-- A store that leaves for its own home: its bytes are in memory, and what the buffer held of other lines stays. -/
theorem storeSent_direct {p : Place} (hs : StateOk s) (hreach : Reaches s .write va bs.length x p)
    (hn : bs.length = 1 ∨ bs.length = 2 ∨ bs.length = 4 ∨ bs.length = 8) (hdirect : Direct s p) :
    let r := (s.storeSent va x bs).storeLine s.cur.src none va x p { kind := 3 } bs
    ((∀ b ∈ s.me.buf, b.fa ≠ x.fa / 64 * 64) → r.me.buf = s.me.buf) ∧
    ∀ a, Memory.read r.mem a = if p.key ≤ a ∧ a < p.key + bs.length then bs.getD (a - p.key) 0 else Memory.read s.mem a := by
  obtain ⟨-, -, halign, -, hx, hp, -⟩ := hreach
  obtain ⟨-, hhome, hfly, howed⟩ := hdirect
  obtain ⟨-, hfa, hkey⟩ := resolve_of_translate hs hx hp
  have hbuf : (s.storeSent va x bs).me.buf = s.me.buf := by rw [me_storeSent]; rfl
  have hdie := (s.cacheXl_only (dieOf s.cur.src) (s.ctxOf s.cur.src) va x (some (coreOf s.cur.src))).2 (dieOf s.cur.src)
  have hclock : ((s.storeSent va x bs).die (dieOf s.cur.src)).clock = (s.die (dieOf s.cur.src)).clock := (congrArg Die.clock hdie :)
  obtain ⟨-, -, hkept, hmem⟩ := storeNow_spec (s.storeSent va x bs) (va - BitVec.ofNat 64 (x.fa % 64)) (x.fa / 64 * 64)
    (x.replica (dieOf s.cur.src)) p.line { kind := 3 } (lineMask (x.fa % 64) bs.length) (lineData (x.fa % 64) bs)
  refine ⟨fun hother => (hkept (by rw [hbuf]; exact hother)).trans hbuf, fun a => ?_⟩
  have hread := read_performBits (s := s.storeSent va x bs) hs.1 (show p.key % 64 = x.fa % 64 by omega) (store_fits hn halign hfa) hhome hfly
    (fun f hf => by rw [← owed_of_noneOwed howed f hf, State.owed, hclock]; rfl) (va - BitVec.ofNat 64 (x.fa % 64)) { kind := 3 } a
  exact (congrArg (fun m => Memory.read m a) hmem).trans hread

end

section
variable {s t : State} {k : Nat} {bs : List Byte}
  (h : ∀ a, Memory.read t.mem a = if k ≤ a ∧ a < k + bs.length then bs.getD (a - k) 0 else Memory.read s.mem a)
include h

theorem memNat_of_read : memNat t k bs.length = leNat bs := memNat_of_bytes fun i hi => by
  rw [h, if_pos (by omega), Nat.add_sub_cancel_left]

theorem memSameBut_of_read : MemSameBut s t k bs.length := fun a ha => by rw [h, if_neg (by omega)]

end

/-- A scalar store that reaches its place completes. -/
theorem stores_of_exec {i : Instr} {s : State} {ss : BitVec 5} {va : Word} {n : Nat} (hn : n = 1 ∨ n = 2 ∨ n = 4 ∨ n = 8)
    (hexec : exec i s = s.storeFrom ss va n) : Stores i s ss va n := by
  intro x p hs hreach hssq
  obtain ⟨bs, hbs⟩ : ∃ bs, bs = leBytes n (s.rd ss).toNat := ⟨_, rfl⟩
  obtain rfl : n = bs.length := by rw [hbs, leBytes_length]
  have hnat : leNat bs = (s.rd ss).toNat % 2 ^ (8 * bs.length) := by rw [hbs, leNat_leBytes, leBytes_length, pow_256]
  have hstore : exec i s = .next (s.ifStays ((s.see s.cur.src va x).enqueueStore va x bs) State.goNext) := by
    rw [hexec, State.storeFrom, scalarAccess_of_reaches (by simp) hreach, ← hbs]
  have hgoes {r : State} (hr : Beside s r) (h : (s.see s.cur.src va x).enqueueStore va x bs = r) : exec i s = .next r.goNext := by
    rw [hstore, State.ifStays, h, hr.not_gone]
    rfl
  cases hold : s.me.hold with
  | true =>
    have hqueued := beside_storeQueued s va x bs
    have hme := me_storeQueued s va x bs
    rw [hssq, List.nil_append] at hme
    have hwaits : (s.see s.cur.src va x).enqueueStore va x bs = s.storeQueued va x bs :=
      if_pos (show (s.storeQueued va x bs).me.hold = true by rw [hme]; exact hold)
    refine ⟨_, hgoes hqueued hwaits, fun _ => hqueued.goNext, fun _ => ⟨fun _ => rfl, ?_, ?_⟩, by simp, by simp⟩
    · rw [State.goNext, State.me_upd, hme]; rfl
    · rw [State.goNext, State.me_upd, hme, ← hbs]; rfl
  | false =>
    by_cases hroom : s.me.openStrip = none ∨ s.me.buf.length < 512
    · have hsent := enqueueStore_of_reaches hs hreach hssq hold hroom
      have hbuf : (s.storeSent va x bs).me.buf = s.me.buf := by rw [me_storeSent]; rfl
      obtain ⟨r, hr⟩ : ∃ r, r = (s.storeSent va x bs).storeLine s.cur.src s.me.openStrip va x p { kind := 3 } bs := ⟨_, rfl⟩
      obtain ⟨hbits, hempty⟩ := storeBits_beside (s.storeSent va x bs) (va - BitVec.ofNat 64 (x.fa % 64)) (x.fa / 64 * 64)
        (x.replica (dieOf s.cur.src)) p.line { kind := 3 } (lineMask (x.fa % 64) bs.length) (lineData (x.fa % 64) bs)
        (strip := s.me.openStrip) (by rw [hbuf]; exact hroom)
      have hbeside : Beside s r := hr ▸ (beside_storeSent s va x bs).trans hbits
      have hnone : r.goNext.me.ssq = [] := by
        rw [State.goNext, State.me_upd, hr]
        exact hempty.trans (by rw [me_storeSent]; rfl)
      refine ⟨_, hgoes hbeside (hsent.trans hr.symm), fun _ => hbeside.goNext, by simp, fun _ hdirect => ⟨hnone, ?_⟩,
        fun _ hstrip hlength => ⟨hnone, ?_⟩⟩
      · obtain ⟨hkept, hread⟩ := storeSent_direct hs hreach hn hdirect
        rw [← hdirect.1, ← hr] at hkept hread
        refine ⟨fun hother => ?_, ?_, memSameBut_of_read (t := r.goNext) hread⟩
        · rw [State.goNext, State.me_upd]; exact hkept hother
        · rw [memNat_of_read (t := r.goNext) hread, hnat]
      · obtain ⟨j, hj⟩ := Option.ne_none_iff_exists'.mp hstrip
        obtain ⟨-, -, hmem⟩ := storeBits_spec (s.storeSent va x bs) (va - BitVec.ofNat 64 (x.fa % 64)) (x.fa / 64 * 64)
          (x.replica (dieOf s.cur.src)) p.line { kind := 3 } (lineMask (x.fa % 64) bs.length) (lineData (x.fa % 64) bs)
          (i := j) (by rw [hbuf]; exact hlength)
        intro a
        show Memory.read r.mem a = _
        rw [hr, hj]
        exact congrArg (fun m => Memory.read m a) hmem
    · refine ⟨_, hstore, fun h => absurd h ?_, by simp, fun _ hdirect => absurd (.inl hdirect.1) hroom,
        fun _ _ hlength => absurd (.inr hlength) hroom⟩
      rw [hold]
      simpa using hroom

end Machine

theorem scalarStoreResults : ScalarStoreResults := by
  intro s x
  exact ⟨stores_of_exec (.inl rfl) rfl, stores_of_exec (.inr (.inl rfl)) rfl, stores_of_exec (.inr (.inr (.inl rfl))) rfl,
    stores_of_exec (.inr (.inr (.inr rfl))) rfl⟩

/-- Settles O41: a load reads its bytes and counts its access; a store leaves the queue for its home, for its strip's buffer, or not yet. -/
theorem scalarLoadsAndStores : Obligations.ScalarLoadsAndStores := ⟨scalarLoadResults, scalarStoreResults⟩

namespace Machine

theorem loaded_of_loads {i : Instr} {s : State} {sd : BitVec 5} {va : Word} {n : Nat} {signed : Bool} {x : Xl} {p : Place}
    (h : Loads i s sd va n signed) (hs : StateOk s) (hreach : Reaches s .read va n x p) :
    ∃ t, exec i s = .next t ∧ (RunsAt t (s.me.pc + 4) ∧ RegsBut s t sd) ∧ (s.counted.find (lineOf p.key) = none → MemSame s t) ∧
      (s.me.ssq = [] ∧ s.me.buf = [] ∧ s.flyWrites = [] → sd ≠ 0 → (t.rd sd).toNat = wrap64 (extended signed n (memNat s p.key n))) := by
  obtain ⟨t, hexec, ⟨-, -, -, hregs, hruns⟩, -, -, -, -, -, hmem, hvalue, hbytes⟩ := h x p hs.1 hreach
  refine ⟨t, hexec, ⟨hruns, hregs⟩, hmem, fun ⟨hssq, hbuf, hfly⟩ hsd => ?_⟩
  rw [hvalue hsd, hbytes hssq hbuf hfly]

section
variable {i : Instr} {s : State} {ss : BitVec 5} {va : Word} {n : Nat} {x : Xl} {p : Place} (h : Stores i s ss va n) (hs : StateOk s)
  (hssq : s.me.ssq = []) (hreach : Reaches s .write va n x p)
include h hs hssq hreach

theorem stored_of_stores (hold : s.me.hold = false) (hdirect : Direct s p) :
    ∃ t, exec i s = .next t ∧ (RunsAt t (s.me.pc + 4) ∧ RegsBut s t 0) ∧ memNat t p.key n = (s.rd ss).toNat % 2 ^ (8 * n) ∧
      MemSameBut s t p.key n := by
  obtain ⟨t, hexec, hframe, -, hperformed, -⟩ := h x p hs hreach hssq
  obtain ⟨-, -, -, hregs, hruns⟩ := hframe (.inr (.inl hdirect.1))
  obtain ⟨-, -, hbytes, hothers⟩ := hperformed hold hdirect
  exact ⟨t, hexec, ⟨hruns, hregs⟩, hbytes, hothers⟩

theorem kept_of_stores (hn : n ≤ 8) (hkeep : s.me.hold = true ∨ (s.me.openStrip ≠ none ∧ s.me.buf.length < 512)) :
    ∃ t, exec i s = .next t ∧ (RunsAt t (s.me.pc + 4) ∧ RegsBut s t 0) ∧ n ≤ 8 ∧ MemSame s t := by
  obtain ⟨t, hexec, hframe, hheld, -, hbuffered⟩ := h x p hs hreach hssq
  obtain ⟨-, -, -, hregs, hruns⟩ := hframe (hkeep.imp_right fun hstrip => .inr hstrip.2)
  refine ⟨t, hexec, ⟨hruns, hregs⟩, hn, ?_⟩
  cases hold : s.me.hold with
  | true => exact (hheld hold).1
  | false =>
    obtain ⟨hopen, hlength⟩ := hkeep.resolve_left (by simp [hold])
    exact (hbuffered hold hopen hlength).2

end

end Machine

/-- Settles O6: each width's load or store completes, by what was proved of it for O41. -/
theorem scalarAccessesComplete : Obligations.ScalarAccessesComplete := by
  intro s x y a p va wa quiet goesOn loaded stored kept
  obtain ⟨l8, l16, l32, l64, n8, n16, n32⟩ := scalarLoadResults s x
  obtain ⟨s8, s16, s32, s64⟩ := scalarStoreResults s y
  refine ⟨fun hs => ⟨loaded_of_loads l8 hs, loaded_of_loads l16 hs, loaded_of_loads l32 hs, loaded_of_loads l64 hs, loaded_of_loads n8 hs,
    loaded_of_loads n16 hs, loaded_of_loads n32 hs⟩, fun hs hssq hold hdirect => ?_, fun hs hssq hkeep => ?_⟩
  · exact ⟨fun h => stored_of_stores s8 hs hssq h hold hdirect, fun h => stored_of_stores s16 hs hssq h hold hdirect,
      fun h => stored_of_stores s32 hs hssq h hold hdirect, fun h => stored_of_stores s64 hs hssq h hold hdirect⟩
  · exact ⟨fun h => kept_of_stores s8 hs hssq h (by decide) hkeep, fun h => kept_of_stores s16 hs hssq h (by decide) hkeep,
      fun h => kept_of_stores s32 hs hssq h (by decide) hkeep, fun h => kept_of_stores s64 hs hssq h (by decide) hkeep⟩

end Sys2Proof
end
